-- ==== Sys2Proof/Word.lean ====
section
/-! DEFINITION. The word types of the Loriz K8: bytes, the 32-bit lane and mask words and the 64-bit scalar words, and the register numbers that instruction fields hold. -/

namespace Sys2Proof

/-- One byte of memory (R5). -/
abbrev Byte := BitVec 8
/-- A lane register value, a mask or a scalar instruction word. -/
abbrev Word32 := BitVec 32
/-- A scalar register value, an address or a handle. -/
abbrev Word64 := BitVec 64
/-- A lane word (R16). -/
abbrev Word96 := BitVec 96

/-- Number of a scalar register `s0`–`s63` (R35). -/
abbrev SReg := BitVec 6
/-- Number of a lane register `v0`–`v255` (R42). -/
abbrev VReg := BitVec 8
/-- A predicate field: `p0`–`p11`, and 15 for an always-true source (R42). -/
abbrev PReg := BitVec 4
/-- Number of a mask register `k0`–`k15` (R35). -/
abbrev KReg := BitVec 4
/-- Number of a future register `f0`–`f15` (R35). -/
abbrev FReg := BitVec 4

end Sys2Proof
end

