-- ==== Sys2Proof/Syntax.lean ====
section
/-! DEFINITION. The instructions: one constructor for each row of spec/opcode_table.json. The rows are the scalar
instructions and prefixes, the lane words, and the device's own steps (engine completions, calendar, dispatch, requests,
errors). A constructor holds what the words, the message or the physical cause give; no raw encoding is left in it. -/

namespace Sys2Proof

/-- Rounding codes of R61; `rs` is stochastic and stands in `cvt` only. -/
inductive Rnd where
  | rn | rz | rd | ru | ra | rs
deriving DecidableEq, Repr, Inhabited

/-- Integer conditions of the scalar stream (R33, codes 0 to 9). -/
inductive ICond where
  | eq | ne | ltS | leS | gtS | geS | ltN | leN | gtN | geN
deriving DecidableEq, Repr, Inhabited

/-- Integer conditions of `icmp.cc`: codes 0 to 5, signedness from the type (R42). -/
inductive LCond where
  | eq | ne | lt | le | gt | ge
deriving DecidableEq, Repr, Inhabited

/-- Floating conditions (R33, codes 0 to 7). -/
inductive FCond where
  | eq | ne | lt | le | gt | ge | num | nan
deriving DecidableEq, Repr, Inhabited

/-- Scalar access widths (R34). -/
inductive SWidth where
  | n8 | s8 | n16 | s16 | n32 | s32 | b64
deriving DecidableEq, Repr, Inhabited

/-- Lane operand types (R39). -/
inductive LTy where
  | s32 | n32 | b32 | s64 | n64 | b64 | f32 | f16x2 | bf16x2 | f64 | e4m3 | e5m2 | e2m1 | i4 | ds8 | e8m0
deriving DecidableEq, Repr, Inhabited

/-- Access types of lane memory words (R39, access column). -/
inductive MTy where
  | n8 | s8 | n16 | s16 | b32 | b64 | b128
deriving DecidableEq, Repr, Inhabited

/-- 32-bit integer types. -/
inductive ITy where
  | s32 | n32
deriving DecidableEq, Repr, Inhabited

/-- Integer types of `icmp.cc` (R41). -/
inductive ICmpTy where
  | s32 | n32 | s64 | n64
deriving DecidableEq, Repr, Inhabited

/-- The two scalar floating formats, which `fcmp.cc`, `frcp` and `fsqrt` take in lanes too. -/
inductive F2 where
  | f32 | f64
deriving DecidableEq, Repr, Inhabited

/-- Floating types of lane arithmetic (R41). -/
inductive FTy where
  | f32 | f16x2 | bf16x2 | f64
deriving DecidableEq, Repr, Inhabited

/-- Types of `scan`, `sscan` and `sred` (R128). -/
inductive ScanTy where
  | s32 | n32 | f32
deriving DecidableEq, Repr, Inhabited

/-- Operations of the scan words (R128). -/
inductive ScanOp where
  | add | min | max
deriving DecidableEq, Repr, Inhabited

/-- Segment widths of the `xlane` words (R126): 32, 16, 8 or 4 lanes. -/
inductive XWidth where
  | w32 | w16 | w8 | w4
deriving DecidableEq, Repr, Inhabited

/-- Items of `evinfo` (R298). -/
inductive EvItem where
  | time | entity | tie | seq | handle | rank | hdr | round
deriving DecidableEq, Repr, Inhabited

/-- Types of `atom` and `red` (R190). -/
inductive ATy where
  | s32 | n32 | b32 | s64 | n64 | b64 | f32
deriving DecidableEq, Repr, Inhabited

/-- Atomic operations (R192). -/
inductive AOp where
  | add | min | max | and | or | xor | exch | cas | inc | dec
deriving DecidableEq, Repr, Inhabited

/-- Scope hints (R191, R198). -/
inductive Scope where
  | device | band | core | cluster | fabric
deriving DecidableEq, Repr, Inhabited

/-- `mloop` formats (R230). -/
inductive MFmt where
  | e4m3 | e5m2 | e4m3e5m2 | e5m2e4m3 | ds8 | f16 | bf16
deriving DecidableEq, Repr, Inhabited

/-- `cloop` formats (R254). -/
inductive CFmt where
  | e2m1 | i4
deriving DecidableEq, Repr, Inhabited

/-- The queue a `push` names (R37). -/
inductive PushQ where
  | se0 | se1 | drover
deriving DecidableEq, Repr, Inhabited

/-- Access paths of the in-flight counters (R178). -/
inductive Path where
  | ld | st | sp | ga
deriving DecidableEq, Repr, Inhabited

/-- What every lane word carries (R38): guard, mask, helper bit and lookahead. -/
structure LaneHdr where
  guard : PReg
  gneg : Bool
  mask : KReg
  h : Bool
  la : BitVec 4
deriving DecidableEq, Repr, Inhabited

/-- The address operand of a lane memory word (R169) or atomic (R191): base register, index, scale and offset. -/
structure LaneAddr where
  base : SReg
  idx : Bool
  b : VReg
  scale : BitVec 2
  off : Word32
deriving DecidableEq, Repr, Inhabited

/-- The 32-byte message header of R372, as its fields. -/
structure MsgHdr where
  ver : BitVec 8
  type : BitVec 8
  op : BitVec 8
  rsv0 : BitVec 8
  seq : Word32
  ack : Word32
  journey : BitVec 8
  rsv1 : BitVec 8
  status : BitVec 16
  length : Word32
  rsv2 : BitVec 96
deriving DecidableEq, Repr, Inhabited

/-- What an import asks of the target (R330, R350). -/
inductive ImportKind where
  | read
  | write (data : List Byte)
  | atomic (op : AOp) (ty : ATy) (v cmp : Word64)
deriving DecidableEq, Repr, Inhabited


/-- A unit that is counted, fenced or cleared (R391, R392, R395, R396, R398); `hub` is a keeper, monitor or scheduler core. -/
inductive UnitId where
  | core (n : Nat) | slice (n : Nat) | port (n : Nat) | calendar (die : Nat) | cluster (n : Nat) | hub (n : Nat)
deriving DecidableEq, Repr, Inhabited

/-- Kinds of unit with an error threshold of their own (R392). -/
inductive UnitKind where
  | core | slice | port | calendar
deriving DecidableEq, Repr, Inhabited

/-- Where an uncorrected error strikes (R391, R395, R396). -/
inductive ErrSite where
  | line (line : Nat)
  | local (core band : Nat)
  | regs (core slot : Nat)
  | tile (core band : Nat)
  | calendar (journey : Nat)
  | counters (core : Nat)
  | pool (line : Nat)
  | control (u : UnitId)
  | hub (n : Nat)
deriving DecidableEq, Repr, Inhabited

/-- What a translation failure stands in: a group's scalar instruction or lane word, an engine operation, or a read or
write request on a journey's memory (R374). -/
inductive FailSite where
  | scalar (core slot : Nat)
  | lane (core slot : Nat)
  | engine (core op : Nat)
  | request (journey : Nat)
deriving DecidableEq, Repr, Inhabited

/-- A mapping the Innkeeper installs (R336): page size code, page number, rights, kind and target. -/
structure MapArg where
  size : BitVec 2
  vpn : Nat
  r : Bool
  w : Bool
  x : Bool
  window : Bool
  target : Word64
deriving DecidableEq, Repr, Inhabited

/-- An import arriving from a peer (R348): key, import slot, byte offset, size and access; and a mapping that the Innkeeper installs where
its second translation fails (R350). -/
structure ImportMsg where
  peer : BitVec 16
  islot : BitVec 16
  key : Word64
  off : Nat
  size : Nat
  kind : ImportKind
  install : Option MapArg := none
deriving DecidableEq, Repr, Inhabited

/-- A signed request of the management plane (R413): the fuse it raises. -/
inductive FuseArg where
  | revoke (key : BitVec 2)
  | minSvn (kind : BitVec 8) (svn : BitVec 16)
deriving DecidableEq, Repr, Inhabited

/-- The instructions and steps: one constructor for each row of the opcode table. -/
inductive Instr where
  -- integer and logic (R77, R78, R79, R80)
  | add (d a b : SReg)
  | addImm (d a : SReg) (imm : BitVec 12)
  | addLong (d a : SReg) (la : BitVec 4) (imm : Word32)
  | sub (d a b : SReg)
  | mul (d a b : SReg)
  | mulImm (d a : SReg) (imm : BitVec 12)
  | mulhiS64 (d a b : SReg)
  | mulhiN64 (d a b : SReg)
  | divS64 (d a b : SReg)
  | divN64 (d a b : SReg)
  | remS64 (d a b : SReg)
  | remN64 (d a b : SReg)
  | and (d a b : SReg)
  | andImm (d a : SReg) (imm : BitVec 12)
  | andLong (d a : SReg) (la : BitVec 4) (imm : Word32)
  | or (d a b : SReg)
  | orImm (d a : SReg) (imm : BitVec 12)
  | orLong (d a : SReg) (la : BitVec 4) (imm : Word32)
  | xor (d a b : SReg)
  | xorImm (d a : SReg) (imm : BitVec 12)
  | xorLong (d a : SReg) (la : BitVec 4) (imm : Word32)
  | andn (d a b : SReg)
  | shl (d a b : SReg)
  | shlImm (d a : SReg) (count : BitVec 6)
  | shr (d a b : SReg)
  | shrImm (d a : SReg) (count : BitVec 6)
  | sar (d a b : SReg)
  | sarImm (d a : SReg) (count : BitVec 6)
  | minS64 (d a b : SReg)
  | minS64Imm (d a : SReg) (imm : BitVec 12)
  | minN64 (d a b : SReg)
  | maxS64 (d a b : SReg)
  | maxS64Imm (d a : SReg) (imm : BitVec 12)
  | maxN64 (d a b : SReg)
  | cmpCc (cc : ICond) (d a b : SReg)
  -- unary, moves, bit fields (R82, R83)
  | mov (d a : SReg)
  | abs (d a : SReg)
  | clz (d a : SReg)
  | popc (d a : SReg)
  | brev (d a : SReg)
  | movi (d : SReg) (imm : BitVec 18)
  | moviLong (d : SReg) (la : BitVec 4) (imm : Word32)
  | sel (d a b : SReg) (la : BitVec 4) (c : SReg)
  | bfx (signed : Bool) (d a : SReg) (la : BitVec 4) (pos : BitVec 6) (len : BitVec 7)
  | bfi (d a : SReg) (la : BitVec 4) (pos : BitVec 6) (len : BitVec 7)
  -- scalar floating point (R84 to R87)
  | faddF64 (d a b : SReg)
  | faddF32 (d a b : SReg)
  | fmulF64 (d a b : SReg)
  | fmulF32 (d a b : SReg)
  | fmaF64 (d a b : SReg) (la : BitVec 4) (c : SReg)
  | fmaF32 (d a b : SReg) (la : BitVec 4) (c : SReg)
  | fcmpCcF64 (cc : FCond) (d a b : SReg)
  | fcmpCcF32 (cc : FCond) (d a b : SReg)
  | fcvtF32F64 (d a : SReg)
  | fcvtF64F32 (d a : SReg)
  | fcvtS64F64 (d a : SReg)
  | fcvtN64F64 (d a : SReg)
  | fcvtF64S64 (d a : SReg)
  | fcvtF64N64 (d a : SReg)
  | fcvtS64F32 (d a : SReg)
  | fcvtN64F32 (d a : SReg)
  | fcvtF32S64 (d a : SReg)
  | fcvtF32N64 (d a : SReg)
  -- masks (R88)
  | kand (d a b : KReg)
  | kor (d a b : KReg)
  | kxor (d a b : KReg)
  | kandn (d a b : KReg)
  | knot (d a : KReg)
  | kmov (d a : KReg)
  | kpop (d : SReg) (a : KReg)
  | kffs (d : SReg) (a : KReg)
  | kset (d : KReg) (a : SReg)
  | kball (d : KReg) (p : PReg) (b : KReg)
  -- the two prefixes, each with the instruction it stands before (R23 to R27)
  | modifierPrefix (rnd : Rnd) (sat ftz : Bool) (i : Instr)
  | repPrefix (cnt : BitVec 8) (dstep astep bstep : BitVec 2) (astride : BitVec 12) (i : Instr)
  -- scalar memory (R94)
  | ld (w : SWidth) (d a : SReg) (off : BitVec 9)
  | ldLong (w : SWidth) (d a : SReg) (la : BitVec 4) (off : Word32)
  | st (w : SWidth) (d a : SReg) (off : BitVec 9)
  | stLong (w : SWidth) (d a : SReg) (la : BitVec 4) (off : Word32)
  | ldsp (w : SWidth) (d a : SReg) (off : BitVec 9)
  | ldspLong (w : SWidth) (d a : SReg) (la : BitVec 4) (off : Word32)
  | stsp (w : SWidth) (d a : SReg) (off : BitVec 9)
  | stspLong (w : SWidth) (d a : SReg) (la : BitVec 4) (off : Word32)
  -- system (R97 to R99)
  | sysr (d : SReg) (n : BitVec 12)
  | sysw (a : SReg) (n : BitVec 12)
  | trap (code : BitVec 12)
  | brk (code : BitVec 12)
  -- lane queue and control (R136, R141, R143, R145, R146)
  | lq (n : BitVec 12)
  | br (off : BitVec 24)
  | call (off : BitVec 24)
  | bz (a : SReg) (off : BitVec 18)
  | bnz (a : SReg) (off : BitVec 18)
  | ball (k : KReg) (off : BitVec 18)
  | bCc (cc : ICond) (a b : SReg) (la : BitVec 4) (off : Word32)
  | ret
  | jmpi (a : SReg)
  | lret
  | exit
  | nop
  | ljmp (off : BitVec 24)
  | lcall (off : BitVec 24)
  -- fences, barriers, waits (R327, R182, R180)
  | fenceSc
  | fenceEng
  | fenceFabric
  | bar
  | barArrive
  | barWait
  | gbar
  | waitpLd (a : SReg)
  | waitpSt (a : SReg)
  | waitpSp (a : SReg)
  | waitpGa (a : SReg)
  -- futures and rings (R150, R274)
  | ftest (d : SReg) (f : FReg)
  | fwait (d : SReg) (f : FReg)
  | fcancel (d : SReg) (f : FReg)
  | fget (d : SReg) (f : FReg)
  | fput (f : FReg) (a : SReg)
  | swait (d a b : SReg)
  | sdone (d a b : SReg)
  -- engines (R259, R219, R220, R277, R232, R241, R245, R254, R260, R257, R258, R212, R215)
  | cclear
  | enough (a : SReg)
  | itfree (a : SReg)
  | push (q : PushQ) (f : FReg) (a b : SReg) (la : BitVec 4)
  | mloop (f : FReg) (a b : SReg) (la : BitVec 4) (aSp : Bool) (steps : BitVec 9) (rnd : Rnd) (ftz reuse tstep : Bool)
      (tile : BitVec 5) (fmt : MFmt) (areg : VReg)
  | mdrain (f : FReg) (la : BitVec 4) (lanes half e8 rs cs clear ftz : Bool) (rnd : Rnd) (vd8 : BitVec 5)
      (dtile stile : BitVec 5) (cv rv : VReg)
  | aset (f : FReg) (b : SReg) (la : BitVec 4) (tile : BitVec 5) (count : BitVec 6)
  | cloop (f : FReg) (a b : SReg) (la : BitVec 4) (split : Bool) (steps : BitVec 11) (fmt : CFmt) (rg : BitVec 4)
  | cdrain (f : FReg) (la : BitVec 4) (pairs e8 rs cs ftz : Bool) (rnd : Rnd) (dtile : BitVec 5) (cv rv : VReg)
  | cmerge (f : FReg)
  | cspill (f : FReg) (tile : BitVec 5)
  | itbind (f : FReg) (a b : SReg) (la : BitVec 4) (off : Word32)
  | drvNext (f : FReg) (a : SReg) (k : KReg) (la : BitVec 4) (vd : VReg) (pd ph : PReg) (sc : SReg)
  | schedScalar (d a : SReg) (la : BitVec 4) (handler : BitVec 16) (prio : BitVec 2) (canc : Bool)
  | cancelScalar (d a : SReg) (la : BitVec 4)
  -- lane integer and logic (R105)
  | iadd (h : LaneHdr) (t : ITy) (sat : Bool) (d a b : VReg)
  | isub (h : LaneHdr) (t : ITy) (sat : Bool) (d a b : VReg)
  | imul (h : LaneHdr) (t : ITy) (d a b : VReg)
  | imulhi (h : LaneHdr) (t : ITy) (d a b : VReg)
  | imad (h : LaneHdr) (t : ITy) (sat : Bool) (d a b c : VReg)
  | iabs (h : LaneHdr) (sat : Bool) (d a : VReg)
  | imin (h : LaneHdr) (t : ITy) (d a b : VReg)
  | imax (h : LaneHdr) (t : ITy) (d a b : VReg)
  | laneAnd (h : LaneHdr) (d a b : VReg)
  | laneOr (h : LaneHdr) (d a b : VReg)
  | laneXor (h : LaneHdr) (d a b : VReg)
  | bmux (h : LaneHdr) (d a b c : VReg) (tbl : BitVec 8)
  | laneShl (h : LaneHdr) (d a b : VReg)
  | laneShr (h : LaneHdr) (d a b : VReg)
  | laneSar (h : LaneHdr) (d a b : VReg)
  | iadd64 (h : LaneHdr) (d a b : VReg)
  | laneBfx (h : LaneHdr) (t : ITy) (d a : VReg) (pos : BitVec 5) (len : BitVec 6)
  | laneBfi (h : LaneHdr) (d a : VReg) (pos : BitVec 5) (len : BitVec 6)
  | lanePopc (h : LaneHdr) (d a : VReg)
  | laneClz (h : LaneHdr) (d a : VReg)
  | laneBrev (h : LaneHdr) (d a : VReg)
  -- compares, predicates, moves (R112 to R114)
  | icmpCc (h : LaneHdr) (t : ICmpTy) (cc : LCond) (d : PReg) (a b : VReg)
  | fcmpCc (h : LaneHdr) (t : F2) (cc : FCond) (d : PReg) (a b : VReg)
  | pand (h : LaneHdr) (d a b : PReg)
  | por (h : LaneHdr) (d a b : PReg)
  | pxor (h : LaneHdr) (d a b : PReg)
  | pnot (h : LaneHdr) (d a : PReg)
  | pmov (h : LaneHdr) (d a : PReg)
  | pmovFromVreg (h : LaneHdr) (d : PReg) (a : VReg)
  | pmovToVreg (h : LaneHdr) (d : VReg)
  | pmovAll (h : LaneHdr) (a : VReg)
  | laneSel (h : LaneHdr) (w64 : Bool) (d a b : VReg) (c : PReg)
  | laneMov (h : LaneHdr) (w64 : Bool) (d a : VReg)
  | laneMovi (h : LaneHdr) (d : VReg) (imm : Word32)
  -- lane floating point (R108)
  | fadd (h : LaneHdr) (t : FTy) (rnd : Rnd) (ftz : Bool) (d a b : VReg)
  | fsub (h : LaneHdr) (t : FTy) (rnd : Rnd) (ftz : Bool) (d a b : VReg)
  | fmul (h : LaneHdr) (t : FTy) (rnd : Rnd) (ftz : Bool) (d a b : VReg)
  | fma (h : LaneHdr) (t : FTy) (rnd : Rnd) (ftz : Bool) (d a b c : VReg)
  | fminNum (h : LaneHdr) (t : FTy) (d a b : VReg)
  | fminNan (h : LaneHdr) (t : FTy) (d a b : VReg)
  | fmaxNum (h : LaneHdr) (t : FTy) (d a b : VReg)
  | fmaxNan (h : LaneHdr) (t : FTy) (d a b : VReg)
  | frcp (h : LaneHdr) (t : F2) (d a : VReg)
  | frsq (h : LaneHdr) (d a : VReg)
  | fsqrt (h : LaneHdr) (t : F2) (d a : VReg)
  | fex2 (h : LaneHdr) (d a : VReg)
  | flg2 (h : LaneHdr) (d a : VReg)
  | fsin (h : LaneHdr) (d a : VReg)
  | fcos (h : LaneHdr) (d a : VReg)
  -- dot products and conversion (R115, R117)
  | fdot16 (h : LaneHdr) (e5m2 : Bool) (rnd : Rnd) (reuse ftz : Bool) (d a b c : VReg)
  | ddot16 (h : LaneHdr) (rnd : Rnd) (reuse ftz : Bool) (d a b c : VReg)
  | idot4 (h : LaneHdr) (t : ITy) (sat : Bool) (d a b c : VReg)
  | scacc (h : LaneHdr) (e8 : Bool) (rnd : Rnd) (d a b c : VReg) (x y : BitVec 2)
  | cvt (h : LaneHdr) (dst src : LTy) (rnd : Rnd) (sat : Bool) (d a : VReg) (elem : BitVec 3)
  | evinfo (h : LaneHdr) (item : EvItem) (d : VReg)
  -- exchange and scans (R126, R128)
  | qswapH (h : LaneHdr) (w64 : Bool) (d a : VReg)
  | qswapV (h : LaneHdr) (w64 : Bool) (d a : VReg)
  | qswapD (h : LaneHdr) (w64 : Bool) (d a : VReg)
  | qbcast (h : LaneHdr) (w64 : Bool) (d a : VReg) (pos : BitVec 2)
  | xlanePick (h : LaneHdr) (w64 : Bool) (w : XWidth) (d a b : VReg)
  | xlaneLift (h : LaneHdr) (w64 : Bool) (w : XWidth) (d a : VReg) (dist : BitVec 5)
  | xlaneDrop (h : LaneHdr) (w64 : Bool) (w : XWidth) (d a : VReg) (dist : BitVec 5)
  | xlaneMirror (h : LaneHdr) (w64 : Bool) (w : XWidth) (d a : VReg) (pat : BitVec 5)
  | scan (h : LaneHdr) (t : ScanTy) (op : ScanOp) (excl : Bool) (d a : VReg)
  | sscan (h : LaneHdr) (t : ScanTy) (op : ScanOp) (excl : Bool) (d a : VReg) (c : PReg)
  | sred (h : LaneHdr) (t : ScanTy) (op : ScanOp) (d a : VReg) (b c : PReg)
  -- lane memory, atomics, events, tiles (R168, R190, R289, R295, R246)
  | ldG (h : LaneHdr) (t : MTy) (d : VReg) (m : LaneAddr)
  | stG (h : LaneHdr) (t : MTy) (d : VReg) (m : LaneAddr)
  | ldS (h : LaneHdr) (t : MTy) (d : VReg) (m : LaneAddr)
  | stS (h : LaneHdr) (t : MTy) (d : VReg) (m : LaneAddr)
  | cpGs (h : LaneHdr) (t : MTy) (d : VReg) (m : LaneAddr)
  | ldx (h : LaneHdr) (t : MTy) (d : VReg) (m : LaneAddr)
  | stx (h : LaneHdr) (t : MTy) (d : VReg) (m : LaneAddr)
  | atom (h : LaneHdr) (t : ATy) (op : AOp) (scope : Scope) (d a c : VReg) (m : LaneAddr)
  | red (h : LaneHdr) (t : ATy) (op : AOp) (scope : Scope) (a c : VReg) (m : LaneAddr)
  | sched (h : LaneHdr) (d a b : VReg) (handler : BitVec 16) (prio : BitVec 2) (canc : Bool)
  | cancel (h : LaneHdr) (d a : VReg)
  | acpyAr (h : LaneHdr) (d : VReg) (n : BitVec 7) (c0 : BitVec 6) (half : Bool) (tile : BitVec 5)
  | acpyRa (h : LaneHdr) (a : VReg) (n : BitVec 7) (c0 : BitVec 6) (half : Bool) (tile : BitVec 5)
  -- a scalar word that is no instruction, at an offset from the scalar PC (R31, R49)
  | illegalInstruction (woff : Word64)
  -- engine steps: the core, and the operation or engine where the core has several
  | mloopCompletion (core : Nat)
  | mdrainCompletion (core : Nat)
  | asetCompletion (core : Nat)
  | cloopCompletion (core : Nat)
  | cmergeCompletion (core : Nat)
  | cspillCompletion (core : Nat)
  | cdrainCompletion (core : Nat)
  | itbindCompletion (core op : Nat)
  | nextPullCompletion (core op : Nat)
  | droverDrain (core op : Nat)
  | seLoad (core eng : Nat)
  | seStore (core eng : Nat)
  | seSet (core eng : Nat)
  | seQuant (core eng : Nat)
  | ringSlotFill (core eng : Nat)
  | slotPublish (core band off : Nat)
  | ringSlotDrain (core eng : Nat)
  -- accesses, barriers, faults, translation, publication
  | cpGsCopy (core slot : Nat)
  | accessCompletion (core slot : Nat) (path : Path)
  | porterWindowClose (core : Nat)
  | ostlerRequest (cluster : Nat)
  | barrierPhaseComplete (core band : Nat) (gang : Bool)
  | faultService (site : FailSite) (install : Option MapArg)
  | parkedReplay (core slot : Nat)
  | shootdownComplete (room : Nat)
  | tableMigration (journey : Nat) (size : BitVec 2)
  | importAcc (m : ImportMsg)
  | importRefused (journey id : Nat) (code : BitVec 8)
  | writeBack (journey : Nat)
  -- calendar and dispatch
  | hareSearch (journey : Nat)
  | roundFormation (journey : Nat)
  | dispatcherPick (room : Nat)
  | starvationPromotion (journey : Nat)
  | bandPlacement (journey : Nat)
  | gangPlacement (journey : Nat)
  | groupDispatch (core slot : Nat)
  | groupHalt (core slot : Nat)
  -- requests of the Innkeeper: the connection, the header and the body (R373)
  | openReq (c : Nat) (h : MsgHdr) (body : List Byte)
  | closeReq (c : Nat) (h : MsgHdr) (body : List Byte)
  | teardownComplete (journey : Nat)
  | readReq (c : Nat) (h : MsgHdr) (body : List Byte)
  | writeReq (c : Nat) (h : MsgHdr) (body : List Byte)
  | seedReq (c : Nat) (h : MsgHdr) (body : List Byte)
  | launchReq (c : Nat) (h : MsgHdr) (body : List Byte)
  | startReq (c : Nat) (h : MsgHdr) (body : List Byte)
  | stopReq (c : Nat) (h : MsgHdr) (body : List Byte)
  | checkpointReq (c : Nat) (h : MsgHdr) (body : List Byte)
  | restoreReq (c : Nat) (h : MsgHdr) (body : List Byte)
  | restorePlacement (journey : Nat)
  | attestReq (c : Nat) (h : MsgHdr) (body : List Byte)
  | resumeReq (c : Nat) (h : MsgHdr) (body : List Byte)
  | mapReq (c : Nat) (h : MsgHdr) (body : List Byte)
  | unmapReq (c : Nat) (h : MsgHdr) (body : List Byte)
  | exportReq (c : Nat) (h : MsgHdr) (body : List Byte)
  | windowReq (c : Nat) (h : MsgHdr) (body : List Byte)
  | faultsReq (c : Nat) (h : MsgHdr) (body : List Byte)
  | replayReq (c : Nat) (h : MsgHdr) (body : List Byte)
  | powerReq (c : Nat) (h : MsgHdr) (body : List Byte)
  | roomCreate (c : Nat) (h : MsgHdr) (body : List Byte)
  | roomResize (c : Nat) (h : MsgHdr) (body : List Byte)
  | roomDestroy (c : Nat) (h : MsgHdr) (body : List Byte)
  | unknownRequest (c : Nat) (h : MsgHdr) (body : List Byte)
  | debugOpen (c : Nat) (h : MsgHdr) (body : List Byte)
  | debugClose (c : Nat) (h : MsgHdr) (body : List Byte)
  | debugHalt (c : Nat) (h : MsgHdr) (body : List Byte)
  | debugResume (c : Nat) (h : MsgHdr) (body : List Byte)
  | readState (c : Nat) (h : MsgHdr) (body : List Byte)
  | writeState (c : Nat) (h : MsgHdr) (body : List Byte)
  | setPoint (c : Nat) (h : MsgHdr) (body : List Byte)
  | sampling (c : Nat) (h : MsgHdr) (body : List Byte)
  | delegate (c : Nat) (h : MsgHdr) (body : List Byte)
  | sample (core : Nat)
  | resync (c : Nat) (h : MsgHdr)
  | droppedMessage (endpoint : Nat) (h : MsgHdr)
  | unsupportedDeliveryPacket (endpoint : Nat)
  | tokenBucketRefill (room periods : Nat)
  -- errors, management, boot, firmware tree, power
  | correctedError (u : UnitId)
  | uncorrectedError (e : ErrSite)
  | leafPermitTimeout (leaf : Nat)
  | operatorFence (u : UnitId)
  | fenceClear (u : UnitId)
  | setErrorThreshold (k : UnitKind) (n : Nat)
  | setPowerCap (watts : Nat)
  | raiseFuses (f : FuseArg) (msg : List Byte) (r s : Nat)
  | firmwareImageWrite (image : List Byte)
  | deviceReset (ready : BitVec 32)
  | leafReadyTimeout (leaf : Nat)
  | leafPlacementCommand (leaf : Nat)
  | placementRefusal (leaf : Nat)
  | permitReturn (leaf : Nat) (toLeaf : Bool)
  | powerInterval (clusterMj portMj : List Nat)
  | connectionOpen (c endpoint : Nat)
  | connectionClose (c : Nat)
  | cxlLinkTraining (port width rate : Nat)
  | linePublication (line : Nat)
deriving DecidableEq, Repr, Inhabited

end Sys2Proof
end

