-- ==== Sys2Proof/Config.lean ====
section
/-! DEFINITION. What the manual leaves to the implementation or open: the free values (opaque, without a body, so that no
proof can see one) and the figures of the LZK8-M2200 that the manual fixes. -/

namespace Sys2Proof

/-- An agent that may move next: the scalar stream of a group, the lane stream of a group, the lane stream with a plain memory
word of which the first `n` accesses alone are performed now, two for a lane of a `.b128` word (R318, R319), a device step, or one in
which an engine makes at most `n` accesses (R221, R281). -/
inductive Agent where
  | scalar (core slot : Nat)
  | lane (core slot : Nat)
  | lanePart (core slot n : Nat)
  | device (ev : Instr)
  | devicePart (ev : Instr) (n : Nat)
deriving DecidableEq, Repr, Inhabited

namespace Config

/-- Free value: the agent that moves when the state's script names none (assumption 1). -/
opaque agent : Nat → Agent
/-- Free value: one of two outcomes that the manual leaves unspecified, by draw and key (assumption 5). -/
opaque freeBit : Nat → Nat → Bool
/-- Free value: an undefined value (R7), by draw and key (assumption 5). -/
opaque freeWord : Nat → Nat → Word64
/-- Free value: an unspecified number, by draw and key; each use reduces it to the choices the manual lists (assumption 5). -/
opaque freeNat : Nat → Nat → Nat
/-- Free value: candidate result of `frsq`, `fex2`, `flg2`, `fsin` and `fcos`, kept only within the bound of R111
(assumption 9). -/
opaque approx : Nat → Word32 → Nat → Word32
/-- Free value: cycles that a step takes (assumption 12). -/
opaque elapsed : Nat → Nat
/-- Free value: the byte a peer returns to a load through a fabric window (assumption 13). -/
opaque peerByte : Nat → Nat → Byte
/-- Free value: the core that a nonzero entity's hash selects, before reduction to the room's cores (R305). -/
opaque entityHash : Word32 → Nat
/-- Free value: the hash that gives a pool line its home slice, before reduction to the room's slices (R187). -/
opaque homeHash : Nat → Nat
/-- Free value: the vendor public keys, the operator's debug key and the certificate of the key that a device secret gives, written
to flash at manufacture (R403, R413, R415). -/
opaque vendorKey : Nat → Nat × Nat
opaque operatorKey : Nat × Nat
opaque certificate : Nat → List Byte
/-- Free value: the device secret in the fuses, and the private key that ROM derives from it, before reduction to the group's order
(R415). -/
opaque deviceSecret : Nat
opaque deriveKey : Nat → Nat
/-- Free value: hash of the vendor public key of an index, as ROM holds it (R413). -/
opaque romKeyHash : Nat → Nat
/-- Free value: the time-accounting shares of a request, by draw and category (R382). -/
opaque requestTime : Nat → Nat → Nat
/-- Free value: the secret number of a signature that ROM's signing service makes, by draw (R413, R416). -/
opaque romNonce : Nat → Nat
/-- Free value: the ECC syndrome and word index of a machine error, by draw (R398). -/
opaque syndrome : Nat → Word64

/-- Free value: the CXL port behind which the pool memory at an extent's base lies, before reduction to the 24 ports (R384). -/
opaque portOf : Nat → Nat

/-- Cores of the device (R10). -/
abbrev numCores : Nat := 256
/-- Clusters of the device (R10). -/
abbrev numClusters : Nat := 32
/-- Entries of a core's engine queue (R239) and of every command queue (R267, R277). -/
abbrev engineQueue : Nat := 16
/-- Free lane-queue entries of an empty queue (R136). -/
abbrev laneQueue : Nat := 32
/-- Greatest value of an in-flight counter (R179). -/
abbrev maxInFlight : Nat := 63
/-- Requests the Porter holds (R176). -/
abbrev porterRequests : Nat := 512
/-- Lane requests an Ostler's queue holds (R188). -/
abbrev ostlerRequests : Nat := 2048
/-- TLB entries of a core (R341). -/
abbrev tlbEntries : Nat := 4096
/-- Bound stacks of a core (R202). -/
abbrev droverStacks : Nat := 64
/-- Records of a room's fault queue (R389). -/
abbrev faultRecords : Nat := 1024
/-- Handler table entries (R311). -/
abbrev handlers : Nat := 65536
/-- Window table entries of a journey (R348). -/
abbrev windows : Nat := 4096
/-- Pending events of a core's near store (R304). -/
abbrev nearEvents : Nat := 8192
/-- Events of a die's far tier (R305). -/
abbrev farEvents : Nat := 4194304
/-- Events of a journey's overflow tier (R305). -/
abbrev overflowEvents : Nat := 4294967296
/-- Picks after which a passed-over journey is promoted (R316). -/
abbrev starvation : Nat := 4096
/-- Send permits of each direction of a command link (R417). -/
abbrev linkPermits : Nat := 16
/-- Entries of the import table: what an import slot of 16 bits can name (R348). -/
abbrev imports : Nat := 65536
/-- Journey slots of a room (R384). -/
abbrev journeySlots : Nat := 16
/-- Kept responses of a connection, and how far ahead a request may come (R371, R380). -/
abbrev keptResponses : Nat := 256

end Config
end Sys2Proof
end

