-- ==== Sys2Proof/WellFormed.lean ====
section
/-! DEFINITION. Which instructions are well formed: the field limits of R35, R37, R41, R42 and of each instruction's own
chapter, and the lane registers, predicates and scalar registers an instruction names. -/

namespace Sys2Proof

/-- Shapes of `cvt` (R115): the registers read and how elements are chosen. -/
inductive CvtShape where
  | whole
  | both
  | pack (elems regs : Nat)
  | elem (bits : Nat)
  | pair (bits : Nat)
deriving DecidableEq, Repr

/-- Whether a type is one 64-bit value in an even pair (R60). -/
def LTy.is64 : LTy → Bool
  | .s64 | .n64 | .b64 | .f64 => true
  | _ => false

/-- The shape of a legal `cvt` pair, or none for a pair R67 does not list (R115). -/
def cvtShape (dst src : LTy) : Option CvtShape :=
  match src, dst with
  | .s32, .i4 => some (.pack 8 8)
  | .s32, .n32 | .s32, .s64 | .s32, .n64 | .s32, .f32 | .s32, .f64 => some .whole
  | .n32, .s32 | .n32, .s64 | .n32, .n64 | .n32, .f32 | .n32, .f64 => some .whole
  | .s64, .s32 | .s64, .n32 | .s64, .n64 | .s64, .f32 | .s64, .f64 => some .whole
  | .n64, .s32 | .n64, .n32 | .n64, .s64 | .n64, .f32 | .n64, .f64 => some .whole
  | .f32, .f64 | .f32, .s32 | .f32, .n32 | .f32, .s64 | .f32, .n64 => some .whole
  | .f64, .f32 | .f64, .s32 | .f64, .n32 | .f64, .s64 | .f64, .n64 => some .whole
  | .f32, .f16x2 | .f32, .bf16x2 => some (.pack 2 2)
  | .f32, .e4m3 | .f32, .e5m2 | .f32, .ds8 | .f32, .e8m0 => some (.pack 4 4)
  | .f32, .e2m1 | .f32, .i4 => some (.pack 8 8)
  | .f16x2, .bf16x2 | .bf16x2, .f16x2 => some .both
  | .f16x2, .f32 | .bf16x2, .f32 => some (.elem 1)
  | .f16x2, .e4m3 | .f16x2, .e5m2 | .bf16x2, .e4m3 | .bf16x2, .e5m2 => some (.pack 4 2)
  | .f16x2, .e2m1 | .bf16x2, .e2m1 => some (.pack 8 4)
  | .e4m3, .f32 | .e5m2, .f32 | .ds8, .f32 | .e8m0, .f32 => some (.elem 2)
  | .e4m3, .f16x2 | .e4m3, .bf16x2 | .e5m2, .f16x2 | .e5m2, .bf16x2 => some (.pair 1)
  | .e2m1, .f32 | .i4, .f32 | .i4, .s32 => some (.elem 3)
  | .e2m1, .f16x2 | .e2m1, .bf16x2 => some (.pair 2)
  | _, _ => none

/-- Destinations that accept stochastic rounding (R41, R62). -/
def LTy.acceptsRs : LTy → Bool
  | .e4m3 | .e5m2 | .e2m1 | .i4 | .ds8 | .e8m0 => true
  | _ => false

/-- A run of lane registers that a word names: first register, count and alignment. -/
structure VRange where
  first : Nat
  count : Nat
  align : Nat
deriving DecidableEq, Repr, Inhabited

/-- A single lane register. -/
def VReg.one (r : VReg) : VRange := ⟨r.toNat, 1, 1⟩
/-- A lane register, or an even pair when `w64`. -/
def VReg.val (w64 : Bool) (r : VReg) : VRange := if w64 then ⟨r.toNat, 2, 2⟩ else ⟨r.toNat, 1, 1⟩
/-- A run of `n` registers without alignment. -/
def VReg.run (n : Nat) (r : VReg) : VRange := ⟨r.toNat, n, 1⟩

/-- Registers of a memory value (R42, R172). -/
def MTy.range (t : MTy) (r : VReg) : VRange :=
  match t with
  | .b64 => ⟨r.toNat, 2, 2⟩
  | .b128 => ⟨r.toNat, 4, 4⟩
  | _ => ⟨r.toNat, 1, 1⟩

/-- Whether an atomic type is 64 bits wide. -/
def ATy.is64 : ATy → Bool
  | .s64 | .n64 | .b64 => true
  | _ => false

/-- Whether a floating lane type is 64 bits wide. -/
def FTy.is64 : FTy → Bool
  | .f64 => true
  | _ => false

/-- Whether a scalar floating format is 64 bits wide. -/
def F2.is64 : F2 → Bool
  | .f64 => true
  | _ => false

/-- Whether a compare type is 64 bits wide. -/
def ICmpTy.is64 : ICmpTy → Bool
  | .s64 | .n64 => true
  | _ => false

/-- Whether an `evinfo` item fills a pair (R298). -/
def EvItem.wide : EvItem → Bool
  | .time | .handle => true
  | _ => false

/-- The index register of a lane address, when present. -/
def LaneAddr.reads (m : LaneAddr) : List VRange := if m.idx then [m.b.one] else []

/-- Registers that a `cvt` reads (R115). -/
def cvtReads (dst src : LTy) (a : VReg) : List VRange :=
  match cvtShape dst src with
  | some (.pack _ n) => [a.run n]
  | some _ => [a.val src.is64]
  | none => []

/-- Lane registers a lane word writes. -/
def Instr.vWrites : Instr → List VRange
  | .iadd _ _ _ d _ _ | .isub _ _ _ d _ _ | .imul _ _ d _ _ | .imulhi _ _ d _ _ | .imad _ _ _ d _ _ _
  | .iabs _ _ d _ | .imin _ _ d _ _ | .imax _ _ d _ _ | .laneAnd _ d _ _ | .laneOr _ d _ _ | .laneXor _ d _ _
  | .bmux _ d _ _ _ _ | .laneShl _ d _ _ | .laneShr _ d _ _ | .laneSar _ d _ _ | .laneBfx _ _ d _ _ _
  | .laneBfi _ d _ _ _ | .lanePopc _ d _ | .laneClz _ d _ | .laneBrev _ d _ | .pmovToVreg _ d
  | .laneMovi _ d _ | .frsq _ d _ | .fex2 _ d _ | .flg2 _ d _ | .fsin _ d _ | .fcos _ d _
  | .fdot16 _ _ _ _ _ d _ _ _ | .ddot16 _ _ _ _ d _ _ _ | .idot4 _ _ _ d _ _ _ | .scacc _ _ _ d _ _ _ _ _
  | .scan _ _ _ _ d _ | .sscan _ _ _ _ d _ _ | .sred _ _ _ d _ _ _ | .cancel _ d _ => [d.one]
  | .iadd64 _ d _ _ => [d.val true]
  | .laneSel _ w d _ _ _ | .laneMov _ w d _ | .qswapH _ w d _ | .qswapV _ w d _ | .qswapD _ w d _
  | .qbcast _ w d _ _ | .xlanePick _ w _ d _ _ | .xlaneLift _ w _ d _ _ | .xlaneDrop _ w _ d _ _
  | .xlaneMirror _ w _ d _ _ => [d.val w]
  | .fadd _ t _ _ d _ _ | .fsub _ t _ _ d _ _ | .fmul _ t _ _ d _ _ | .fma _ t _ _ d _ _ _
  | .fminNum _ t d _ _ | .fminNan _ t d _ _ | .fmaxNum _ t d _ _ | .fmaxNan _ t d _ _ => [d.val t.is64]
  | .frcp _ t d _ | .fsqrt _ t d _ => [d.val t.is64]
  | .cvt _ dst _ _ _ d _ _ => [d.val dst.is64]
  | .evinfo _ it d => [d.val it.wide]
  | .ldG _ t d _ | .ldS _ t d _ | .ldx _ t d _ => [t.range d]
  | .atom _ t _ _ d _ _ _ => [d.val t.is64]
  | .sched _ d _ _ _ _ _ => [d.val true]
  | .acpyAr _ d n _ _ _ => [d.run n.toNat]
  | _ => []

/-- Lane registers a lane word reads as sources. -/
def Instr.vReads : Instr → List VRange
  | .iadd _ _ _ _ a b | .isub _ _ _ _ a b | .imul _ _ _ a b | .imulhi _ _ _ a b | .imin _ _ _ a b | .imax _ _ _ a b
  | .laneAnd _ _ a b | .laneOr _ _ a b | .laneXor _ _ a b | .laneShl _ _ a b | .laneShr _ _ a b | .laneSar _ _ a b =>
      [a.one, b.one]
  | .imad _ _ _ _ a b c | .bmux _ _ a b c _ | .idot4 _ _ _ _ a b c => [a.one, b.one, c.one]
  | .iabs _ _ _ a | .laneBfx _ _ _ a _ _ | .lanePopc _ _ a | .laneClz _ _ a | .laneBrev _ _ a
  | .pmovFromVreg _ _ a | .pmovAll _ a | .frsq _ _ a | .fex2 _ _ a | .flg2 _ _ a | .fsin _ _ a | .fcos _ _ a
  | .scan _ _ _ _ _ a | .sscan _ _ _ _ _ a _ | .sred _ _ _ _ a _ _ => [a.one]
  | .iadd64 _ _ a b => [a.val true, b.val true]
  | .laneBfi _ d a _ _ => [d.one, a.one]
  | .icmpCc _ t _ _ a b => [a.val t.is64, b.val t.is64]
  | .fcmpCc _ t _ _ a b => [a.val t.is64, b.val t.is64]
  | .laneSel _ w _ a b _ => [a.val w, b.val w]
  | .laneMov _ w _ a | .qswapH _ w _ a | .qswapV _ w _ a | .qswapD _ w _ a | .qbcast _ w _ a _
  | .xlaneLift _ w _ _ a _ | .xlaneDrop _ w _ _ a _ | .xlaneMirror _ w _ _ a _ => [a.val w]
  | .xlanePick _ w _ _ a b => [a.val w, b.one]
  | .fadd _ t _ _ _ a b | .fsub _ t _ _ _ a b | .fmul _ t _ _ _ a b | .fminNum _ t _ a b | .fminNan _ t _ a b
  | .fmaxNum _ t _ a b | .fmaxNan _ t _ a b => [a.val t.is64, b.val t.is64]
  | .fma _ t _ _ _ a b c => [a.val t.is64, b.val t.is64, c.val t.is64]
  | .frcp _ t _ a | .fsqrt _ t _ a => [a.val t.is64]
  | .fdot16 _ _ _ _ _ _ a b c | .ddot16 _ _ _ _ _ a b c => [a.run 4, b.run 4, c.one]
  | .scacc _ e8 _ _ a b c _ _ => [a.one, b.run (if e8 then 1 else 2), c.one]
  | .cvt _ dst src _ _ _ a _ => cvtReads dst src a
  | .ldG _ _ _ m | .ldS _ _ _ m | .ldx _ _ _ m => m.reads
  | .stG _ t d m | .stS _ t d m | .stx _ t d m => t.range d :: m.reads
  | .cpGs _ _ d m => d.one :: m.reads
  | .atom _ t op _ _ a c m | .red _ t op _ a c m =>
      a.val t.is64 :: (if op = .cas then [c.val t.is64] else []) ++ m.reads
  | .sched _ _ a b _ _ _ => [a.run 10, b.run 4]
  | .cancel _ _ a => [a.val true]
  | .acpyRa _ a n _ _ _ => [a.run n.toNat]
  | _ => []

/-- Predicates a lane word writes (all twelve for `pmov pall`). -/
def Instr.pWrites : Instr → List PReg
  | .icmpCc _ _ _ d _ _ | .fcmpCc _ _ _ d _ _ | .pand _ d _ _ | .por _ d _ _ | .pxor _ d _ _ | .pnot _ d _
  | .pmov _ d _ | .pmovFromVreg _ d _ => [d]
  | .sred _ _ _ _ _ b _ => [b]
  | .pmovAll _ _ => [0, 1, 2, 3, 4, 5, 6, 7, 8, 9, 10, 11]
  | _ => []

/-- Predicates a lane word reads as operands; the guard is read as well. -/
def Instr.pReads : Instr → List PReg
  | .pand _ _ a b | .por _ _ a b | .pxor _ _ a b => [a, b]
  | .pnot _ _ a | .pmov _ _ a => [a]
  | .laneSel _ _ _ _ _ c | .sscan _ _ _ _ _ _ c | .sred _ _ _ _ _ _ c => [c]
  | .pmovToVreg _ _ => [0, 1, 2, 3, 4, 5, 6, 7, 8, 9, 10, 11]
  | _ => []

/-- The header of a lane word; none for every other row. -/
def Instr.hdr : Instr → Option LaneHdr
  | .iadd h _ _ _ _ _ | .isub h _ _ _ _ _ | .imul h _ _ _ _ | .imulhi h _ _ _ _ | .imad h _ _ _ _ _ _
  | .iabs h _ _ _ | .imin h _ _ _ _ | .imax h _ _ _ _ | .laneAnd h _ _ _ | .laneOr h _ _ _ | .laneXor h _ _ _
  | .bmux h _ _ _ _ _ | .laneShl h _ _ _ | .laneShr h _ _ _ | .laneSar h _ _ _ | .iadd64 h _ _ _
  | .laneBfx h _ _ _ _ _ | .laneBfi h _ _ _ _ | .lanePopc h _ _ | .laneClz h _ _ | .laneBrev h _ _
  | .icmpCc h _ _ _ _ _ | .fcmpCc h _ _ _ _ _ | .pand h _ _ _ | .por h _ _ _ | .pxor h _ _ _ | .pnot h _ _
  | .pmov h _ _ | .pmovFromVreg h _ _ | .pmovToVreg h _ | .pmovAll h _ | .laneSel h _ _ _ _ _ | .laneMov h _ _ _
  | .laneMovi h _ _ | .fadd h _ _ _ _ _ _ | .fsub h _ _ _ _ _ _ | .fmul h _ _ _ _ _ _ | .fma h _ _ _ _ _ _ _
  | .fminNum h _ _ _ _ | .fminNan h _ _ _ _ | .fmaxNum h _ _ _ _ | .fmaxNan h _ _ _ _ | .frcp h _ _ _
  | .frsq h _ _ | .fsqrt h _ _ _ | .fex2 h _ _ | .flg2 h _ _ | .fsin h _ _ | .fcos h _ _
  | .fdot16 h _ _ _ _ _ _ _ _ | .ddot16 h _ _ _ _ _ _ _ | .idot4 h _ _ _ _ _ _ | .scacc h _ _ _ _ _ _ _ _
  | .cvt h _ _ _ _ _ _ _ | .evinfo h _ _ | .qswapH h _ _ _ | .qswapV h _ _ _ | .qswapD h _ _ _ | .qbcast h _ _ _ _
  | .xlanePick h _ _ _ _ _ | .xlaneLift h _ _ _ _ _ | .xlaneDrop h _ _ _ _ _ | .xlaneMirror h _ _ _ _ _
  | .scan h _ _ _ _ _ | .sscan h _ _ _ _ _ _ | .sred h _ _ _ _ _ _ | .ldG h _ _ _ | .stG h _ _ _ | .ldS h _ _ _
  | .stS h _ _ _ | .cpGs h _ _ _ | .ldx h _ _ _ | .stx h _ _ _ | .atom h _ _ _ _ _ _ _ | .red h _ _ _ _ _ _
  | .sched h _ _ _ _ _ _ | .cancel h _ _ | .acpyAr h _ _ _ _ _ | .acpyRa h _ _ _ _ _ => some h
  | _ => none

/-- A predicate source: `p0`–`p11`, or 15 for always true (R42). -/
def PReg.srcOk (p : PReg) : Bool := p.toNat ≤ 11 || p.toNat == 15
/-- A predicate destination: `p0`–`p11` (R42). -/
def PReg.dstOk (p : PReg) : Bool := p.toNat ≤ 11

/-- Guards 1100 to 1110 and a negated guard 1111 are illegal (R38). -/
def LaneHdr.wf (h : LaneHdr) : Bool := h.guard.srcOk && !(h.guard.toNat == 15 && h.gneg)

/-- A run lies within `v0`–`v255` and keeps its alignment (R42). -/
def VRange.ok (r : VRange) : Bool := r.first + r.count ≤ 256 && r.first % r.align == 0

/-- The four rounding modes and nearest-even that every rounding instruction takes (R61). -/
def Rnd.plain (r : Rnd) : Bool := r != .rs

/-- Widths a store accepts (R34). -/
def SWidth.storable : SWidth → Bool
  | .n8 | .n16 | .n32 | .b64 => true
  | _ => false

/-- Access types a lane store accepts (R168). -/
def MTy.storable : MTy → Bool
  | .s8 | .s16 => false
  | _ => true

/-- Access types `cp.gs` accepts (R168). -/
def MTy.copyable : MTy → Bool
  | .b32 | .b64 | .b128 => true
  | _ => false

/-- The parts of an address operand that are absent are zero (R169, R191). -/
def LaneAddr.wf (m : LaneAddr) : Bool := m.idx || (m.b == 0 && m.scale == 0)

/-- The 16-bit signed offset of `atom` and `red`, held sign-extended (R191). -/
def LaneAddr.off16 (m : LaneAddr) : Bool := (m.off.truncate 16).signExtend 32 == m.off

/-- Operation and type pairs of `atom` and `red` (R192). -/
def AOp.accepts (op : AOp) (t : ATy) : Bool :=
  match op, t with
  | .add, .s32 | .add, .n32 | .add, .s64 | .add, .n64 | .add, .f32
  | .min, .s32 | .min, .n32 | .min, .s64 | .min, .n64 | .min, .f32
  | .max, .s32 | .max, .n32 | .max, .s64 | .max, .n64 | .max, .f32
  | .and, .b32 | .and, .b64 | .or, .b32 | .or, .b64 | .xor, .b32 | .xor, .b64
  | .exch, .b32 | .exch, .b64 | .cas, .b32 | .cas, .b64
  | .inc, .n32 | .inc, .n64 | .dec, .n32 | .dec, .n64 => true
  | _, _ => false

/-- Lanes of a segment (R126). -/
def XWidth.lanes : XWidth → Nat
  | .w32 => 32 | .w16 => 16 | .w8 => 8 | .w4 => 4

/-- Bit-field limits (R37, R105): length at least 1, position plus length within the width. -/
def fieldOk (width pos len : Nat) : Bool := 1 ≤ len && pos + len ≤ width

/-- Element choice of a `cvt` (R115): zero above the bits the shape uses. -/
def CvtShape.elemOk (s : CvtShape) (e : BitVec 3) : Bool :=
  match s with
  | .elem n | .pair n => e.toNat < 2 ^ n
  | _ => e == 0

/-- Numbers of the special registers (R154). -/
def sysrAssigned (n : BitVec 12) : Bool :=
  [0, 1, 2, 3, 4, 0x10, 0x11, 0x12, 0x13, 0x14, 0x15, 0x16, 0x20, 0x21, 0x22, 0x30, 0x40].contains n.toNat

/-- Special registers that `sysw` may name (R154). -/
def syswWritable (n : BitVec 12) : Bool := n.toNat == 0 || n.toNat == 2

/-- A device step, or a word that is no instruction: nothing that code can hold. -/
def Instr.isStep : Instr → Bool
  | .mloopCompletion _ | .mdrainCompletion _ | .asetCompletion _ | .cloopCompletion _ | .cmergeCompletion _
  | .cspillCompletion _ | .cdrainCompletion _ | .itbindCompletion _ _ | .nextPullCompletion _ _ | .droverDrain _ _
  | .seLoad _ _ | .seStore _ _ | .seSet _ _ | .seQuant _ _ | .ringSlotFill _ _ | .slotPublish _ _ _ | .ringSlotDrain _ _
  | .cpGsCopy _ _ | .accessCompletion _ _ _ | .porterWindowClose _ | .ostlerRequest _ | .barrierPhaseComplete _ _ _
  | .faultService _ _ | .parkedReplay _ _ | .shootdownComplete _ | .tableMigration _ _ | .importAcc _
  | .importRefused _ _ _ | .writeBack _ | .hareSearch _ | .roundFormation _ | .dispatcherPick _ | .starvationPromotion _
  | .bandPlacement _ | .gangPlacement _ | .groupDispatch _ _ | .groupHalt _ _ | .openReq _ _ _ | .closeReq _ _ _
  | .teardownComplete _ | .readReq _ _ _ | .writeReq _ _ _ | .seedReq _ _ _ | .launchReq _ _ _ | .startReq _ _ _
  | .stopReq _ _ _ | .checkpointReq _ _ _ | .restoreReq _ _ _ | .restorePlacement _ | .attestReq _ _ _
  | .resumeReq _ _ _ | .mapReq _ _ _ | .unmapReq _ _ _ | .exportReq _ _ _ | .windowReq _ _ _ | .faultsReq _ _ _
  | .replayReq _ _ _ | .powerReq _ _ _ | .roomCreate _ _ _ | .roomResize _ _ _ | .roomDestroy _ _ _
  | .unknownRequest _ _ _ | .debugOpen _ _ _ | .debugClose _ _ _ | .debugHalt _ _ _ | .debugResume _ _ _
  | .readState _ _ _ | .writeState _ _ _ | .setPoint _ _ _ | .sampling _ _ _ | .delegate _ _ _ | .sample _ | .resync _ _
  | .droppedMessage _ _ | .unsupportedDeliveryPacket _ | .tokenBucketRefill _ _ | .correctedError _ | .uncorrectedError _
  | .leafPermitTimeout _ | .operatorFence _ | .fenceClear _ | .setErrorThreshold _ _ | .setPowerCap _ | .raiseFuses _ _ _ _
  | .firmwareImageWrite _ | .deviceReset _ | .leafReadyTimeout _ | .leafPlacementCommand _ | .placementRefusal _
  | .permitReturn _ _ | .powerInterval _ _ | .illegalInstruction _ | .connectionOpen _ _ | .connectionClose _
  | .cxlLinkTraining _ _ _ | .linePublication _ => true
  | _ => false

/-- Whether the row is a lane word. -/
def Instr.isLane (i : Instr) : Bool := i.hdr.isSome

/-- Whether the row is a prefix together with its instruction. -/
def Instr.isPfx : Instr → Bool
  | .modifierPrefix _ _ _ _ | .repPrefix _ _ _ _ _ _ => true
  | _ => false

/-- Limits that are an instruction's own, beyond register alignment and ranges. -/
def Instr.fieldsOk : Instr → Bool
  -- scalar forms (R35, R37)
  | .bfx _ _ _ _ pos len | .bfi _ _ _ pos len => fieldOk 64 pos.toNat len.toNat
  | .kand d _ _ | .kor d _ _ | .kxor d _ _ | .kandn d _ _ | .knot d _ | .kmov d _ | .kset d _ => d != 0
  | .kball d p _ => d != 0 && p.dstOk
  | .st w _ _ _ | .stLong w _ _ _ _ | .stsp w _ _ _ | .stspLong w _ _ _ _ => w.storable
  | .sysr _ n => sysrAssigned n
  | .sysw _ n => syswWritable n
  | .lq n => 1 ≤ n.toNat && n.toNat ≤ 32
  | .push _ _ a _ _ => a.toNat % 8 == 0 && a != 0
  | .mloop _ _ b _ aSp _ rnd _ reuse _ _ _ areg =>
      rnd.plain && !(reuse && aSp) && (if aSp then areg == 0 else areg.toNat % 8 == 0 && b == 0)
  | .mdrain _ _ lanes half e8 rs cs clear _ rnd vd8 dtile stile cv rv =>
      rnd.plain && (lanes || (vd8 == 0 && !half)) && (!lanes || dtile == 0) && (rs || rv == 0) && (cs || cv == 0)
        && (e8 || (rv.toNat % 2 == 0 && cv.toNat % 2 == 0)) && !(clear && !lanes && dtile == stile)
  | .aset _ _ _ _ count => 1 ≤ count.toNat && count.toNat ≤ 32
  | .cdrain _ _ _ e8 rs cs _ rnd _ cv rv =>
      rnd.plain && (rs || rv == 0) && (cs || cv == 0) && (e8 || (rv.toNat % 4 == 0 && cv.toNat % 4 == 0))
  | .drvNext _ _ _ _ vd pd ph _ => pd.dstOk && ph.srcOk && pd != ph && vd.toNat != 255
  | .schedScalar _ a _ _ _ _ => a.toNat % 8 == 0
  -- lane forms (R41, R42, R105, R113, R115, R117, R126, R128, R168, R192, R246)
  | .laneBfx _ _ _ _ pos len | .laneBfi _ _ _ pos len => fieldOk 32 pos.toNat len.toNat
  | .fadd _ _ rnd _ _ _ _ | .fsub _ _ rnd _ _ _ _ | .fmul _ _ rnd _ _ _ _ | .fma _ _ rnd _ _ _ _ _
  | .fdot16 _ _ rnd _ _ _ _ _ _ | .ddot16 _ rnd _ _ _ _ _ _ => rnd.plain
  | .scacc _ e8 rnd _ _ _ _ x y => rnd.plain && (e8 || (x == 0 && y == 0))
  | .cvt _ dst src rnd _ _ _ e =>
      (rnd.plain || dst.acceptsRs) && match cvtShape dst src with
        | some sh => sh.elemOk e
        | none => false
  | .xlaneLift _ _ w _ _ n | .xlaneDrop _ _ w _ _ n | .xlaneMirror _ _ w _ _ n => n.toNat < w.lanes
  | .ldG _ _ _ m | .ldS _ _ _ m | .ldx _ _ _ m => m.wf
  | .stG _ t _ m | .stS _ t _ m | .stx _ t _ m => t.storable && m.wf
  | .cpGs _ t _ m => t.copyable && m.wf
  | .atom _ t op _ _ _ c m | .red _ t op _ _ c m => op.accepts t && m.wf && m.off16 && (op == .cas || c == 0)
  | .acpyAr _ _ n c0 _ _ | .acpyRa _ _ n c0 _ _ => 1 ≤ n.toNat && n.toNat ≤ 64 && c0.toNat + n.toNat ≤ 64
  | _ => true

/-- Whether an instruction without prefixes keeps every limit of its encoding. -/
def Instr.wfCore (i : Instr) : Bool :=
  !i.isStep && !i.isPfx && i.fieldsOk && (match i.hdr with | some h => h.wf | none => true)
    && i.vWrites.all VRange.ok && i.vReads.all VRange.ok && i.pWrites.all PReg.dstOk && i.pReads.all PReg.srcOk

/-- An instruction of the scalar stream without prefixes. -/
def Instr.wfScalar (i : Instr) : Bool := i.wfCore && !i.isLane

/-- Whether an instruction is well formed: one that code can hold, with every field within its limits. A prefix
sequence has at most one prefix of each kind (R25); rounding `.rs` is illegal in a prefix (R23). -/
def Instr.wf : Instr → Bool
  | .modifierPrefix rnd _ _ (.repPrefix _ _ _ _ _ i) => rnd.plain && i.wfScalar
  | .modifierPrefix rnd _ _ i => rnd.plain && i.wfScalar
  | .repPrefix _ _ _ _ _ (.modifierPrefix rnd _ _ i) => rnd.plain && i.wfScalar
  | .repPrefix _ _ _ _ _ i => i.wfScalar
  | i => i.wfCore

end Sys2Proof
end

