-- ==== Sys2Proof/Decode.lean ====
section
/-! DEFINITION. From words to instructions and back (R19 to R44). `decodeScalar` reads one instruction of the scalar
stream, prefixes included, from the words that stand at its address; `decodeLane` reads one lane word; both refuse what is
no instruction. The encoder after them is written from the same tables. -/

namespace Sys2Proof

/-! ### Fields -/

/-- Enumerated field codes, each read from its table. -/
def rndOf : Nat → Option Rnd
  | 0 => some .rn | 1 => some .rz | 2 => some .rd | 3 => some .ru | 4 => some .ra | 5 => some .rs
  | _ => none

def icondOf : Nat → Option ICond
  | 0 => some .eq | 1 => some .ne | 2 => some .ltS | 3 => some .leS | 4 => some .gtS | 5 => some .geS
  | 6 => some .ltN | 7 => some .leN | 8 => some .gtN | 9 => some .geN
  | _ => none

def lcondOf : Nat → Option LCond
  | 0 => some .eq | 1 => some .ne | 2 => some .lt | 3 => some .le | 4 => some .gt | 5 => some .ge
  | _ => none

def fcondOf : Nat → Option FCond
  | 0 => some .eq | 1 => some .ne | 2 => some .lt | 3 => some .le | 4 => some .gt | 5 => some .ge
  | 6 => some .num | 7 => some .nan
  | _ => none

def swidthOf : Nat → Option SWidth
  | 0 => some .n8 | 1 => some .s8 | 2 => some .n16 | 3 => some .s16 | 4 => some .n32 | 5 => some .s32 | 6 => some .b64
  | _ => none

def ltyOf : Nat → Option LTy
  | 0 => some .s32 | 1 => some .n32 | 2 => some .b32 | 3 => some .s64 | 4 => some .n64 | 5 => some .b64
  | 6 => some .f32 | 7 => some .f16x2 | 8 => some .bf16x2 | 9 => some .f64 | 10 => some .e4m3 | 11 => some .e5m2
  | 12 => some .e2m1 | 13 => some .i4 | 14 => some .ds8 | 15 => some .e8m0
  | _ => none

def mtyOf : Nat → Option MTy
  | 0 => some .n8 | 1 => some .s8 | 2 => some .n16 | 3 => some .s16 | 4 => some .b32 | 5 => some .b64 | 6 => some .b128
  | _ => none

def ityOf : Nat → Option ITy
  | 0 => some .s32 | 1 => some .n32
  | _ => none

def icmpTyOf : Nat → Option ICmpTy
  | 0 => some .s32 | 1 => some .n32 | 3 => some .s64 | 4 => some .n64
  | _ => none

def f2Of : Nat → Option F2
  | 6 => some .f32 | 9 => some .f64
  | _ => none

def ftyOf : Nat → Option FTy
  | 6 => some .f32 | 7 => some .f16x2 | 8 => some .bf16x2 | 9 => some .f64
  | _ => none

def scanTyOf : Nat → Option ScanTy
  | 0 => some .s32 | 1 => some .n32 | 6 => some .f32
  | _ => none

def scanOpOf : Nat → Option ScanOp
  | 0 => some .add | 1 => some .min | 2 => some .max
  | _ => none

def xwidthOf : Nat → Option XWidth
  | 0 => some .w32 | 1 => some .w16 | 2 => some .w8 | 3 => some .w4
  | _ => none

def evItemOf : Nat → Option EvItem
  | 0 => some .time | 1 => some .entity | 2 => some .tie | 3 => some .seq | 4 => some .handle | 5 => some .rank
  | 6 => some .hdr | 7 => some .round
  | _ => none

def atyOf : Nat → Option ATy
  | 0 => some .s32 | 1 => some .n32 | 2 => some .b32 | 3 => some .s64 | 4 => some .n64 | 5 => some .b64 | 6 => some .f32
  | _ => none

def aopOf : Nat → Option AOp
  | 0 => some .add | 1 => some .min | 2 => some .max | 3 => some .and | 4 => some .or | 5 => some .xor | 6 => some .exch
  | 7 => some .cas | 8 => some .inc | 9 => some .dec
  | _ => none

def scopeOf : Nat → Option Scope
  | 0 => some .device | 1 => some .band | 2 => some .core | 3 => some .cluster | 4 => some .fabric
  | _ => none

def mfmtOf : Nat → Option MFmt
  | 0 => some .e4m3 | 1 => some .e5m2 | 2 => some .e4m3e5m2 | 3 => some .e5m2e4m3 | 4 => some .ds8 | 5 => some .f16
  | 6 => some .bf16
  | _ => none

def cfmtOf : Nat → Option CFmt
  | 0 => some .e2m1 | 1 => some .i4
  | _ => none

def pushQOf : Nat → Option PushQ
  | 0 => some .se0 | 1 => some .se1 | 2 => some .drover
  | _ => none

/-- Keeps a decoded instruction only when the condition on its reserved fields and its own limits holds. -/
def keep (c : Bool) (i : Instr) : Option Instr := if c && i.wf then some i else none

/-! ### Scalar words -/

/-- The fields of an S32R word (R20). -/
structure S32R where
  d : SReg
  a : SReg
  b : SReg
  fn : Nat

/-- Splits an S32 word as S32R. -/
def s32r (w : Word32) : S32R :=
  ⟨w.extractLsb' 18 6, w.extractLsb' 12 6, w.extractLsb' 6 6, (w.extractLsb' 0 6).toNat⟩

/-- Mask and future fields use bits [3:0], with bits [5:4] zero (R35). -/
def low4 (r : SReg) : BitVec 4 := r.extractLsb' 0 4
def high2 (r : SReg) : Bool := r.extractLsb' 4 2 == 0

/-- fn cell 0x00, integer (R32). -/
def decodeInteger (f : S32R) : Option Instr :=
  match f.fn with
  | 0 => keep true (.add f.d f.a f.b)
  | 1 => keep true (.sub f.d f.a f.b)
  | 2 => keep true (.mul f.d f.a f.b)
  | 3 => keep true (.mulhiS64 f.d f.a f.b)
  | 4 => keep true (.mulhiN64 f.d f.a f.b)
  | 5 => keep true (.divS64 f.d f.a f.b)
  | 6 => keep true (.divN64 f.d f.a f.b)
  | 7 => keep true (.remS64 f.d f.a f.b)
  | 8 => keep true (.remN64 f.d f.a f.b)
  | 9 => keep true (.and f.d f.a f.b)
  | 10 => keep true (.or f.d f.a f.b)
  | 11 => keep true (.xor f.d f.a f.b)
  | 12 => keep true (.andn f.d f.a f.b)
  | 13 => keep true (.shl f.d f.a f.b)
  | 14 => keep true (.shr f.d f.a f.b)
  | 15 => keep true (.sar f.d f.a f.b)
  | 16 => keep true (.minS64 f.d f.a f.b)
  | 17 => keep true (.minN64 f.d f.a f.b)
  | 18 => keep true (.maxS64 f.d f.a f.b)
  | 19 => keep true (.maxN64 f.d f.a f.b)
  | n => if 32 ≤ n then (icondOf (n - 32)).bind fun c => keep true (.cmpCc c f.d f.a f.b) else none

/-- fn cell 0x01, unary (R32, R82). -/
def decodeUnary (f : S32R) : Option Instr :=
  match f.fn with
  | 0 => keep (f.b == 0) (.mov f.d f.a)
  | 1 => keep (f.b == 0) (.abs f.d f.a)
  | 2 => keep (f.b == 0) (.clz f.d f.a)
  | 3 => keep (f.b == 0) (.popc f.d f.a)
  | 4 => keep (f.b == 0) (.brev f.d f.a)
  | _ => none

/-- fn cell 0x02, float (R32, R84). -/
def decodeFloat (f : S32R) : Option Instr :=
  match f.fn with
  | 0 => keep true (.faddF64 f.d f.a f.b)
  | 1 => keep true (.faddF32 f.d f.a f.b)
  | 2 => keep true (.fmulF64 f.d f.a f.b)
  | 3 => keep true (.fmulF32 f.d f.a f.b)
  | 32 => keep (f.b == 0) (.fcvtF32F64 f.d f.a)
  | 33 => keep (f.b == 0) (.fcvtF64F32 f.d f.a)
  | 34 => keep (f.b == 0) (.fcvtS64F64 f.d f.a)
  | 35 => keep (f.b == 0) (.fcvtN64F64 f.d f.a)
  | 36 => keep (f.b == 0) (.fcvtF64S64 f.d f.a)
  | 37 => keep (f.b == 0) (.fcvtF64N64 f.d f.a)
  | 38 => keep (f.b == 0) (.fcvtS64F32 f.d f.a)
  | 39 => keep (f.b == 0) (.fcvtN64F32 f.d f.a)
  | 40 => keep (f.b == 0) (.fcvtF32S64 f.d f.a)
  | 41 => keep (f.b == 0) (.fcvtF32N64 f.d f.a)
  | n =>
    if 8 ≤ n && n < 16 then (fcondOf (n - 8)).bind fun c => keep true (.fcmpCcF64 c f.d f.a f.b)
    else if 16 ≤ n && n < 24 then (fcondOf (n - 16)).bind fun c => keep true (.fcmpCcF32 c f.d f.a f.b)
    else none

/-- fn cell 0x03, mask (R32, R88). -/
def decodeMask (f : S32R) : Option Instr :=
  match f.fn with
  | 0 => keep (high2 f.d && high2 f.a && high2 f.b) (.kand (low4 f.d) (low4 f.a) (low4 f.b))
  | 1 => keep (high2 f.d && high2 f.a && high2 f.b) (.kor (low4 f.d) (low4 f.a) (low4 f.b))
  | 2 => keep (high2 f.d && high2 f.a && high2 f.b) (.kxor (low4 f.d) (low4 f.a) (low4 f.b))
  | 3 => keep (high2 f.d && high2 f.a && high2 f.b) (.kandn (low4 f.d) (low4 f.a) (low4 f.b))
  | 4 => keep (high2 f.d && high2 f.a && f.b == 0) (.knot (low4 f.d) (low4 f.a))
  | 5 => keep (high2 f.d && high2 f.a && f.b == 0) (.kmov (low4 f.d) (low4 f.a))
  | 6 => keep (high2 f.a && f.b == 0) (.kpop f.d (low4 f.a))
  | 7 => keep (high2 f.a && f.b == 0) (.kffs f.d (low4 f.a))
  | 8 => keep (high2 f.d && f.b == 0) (.kset (low4 f.d) f.a)
  | 9 => keep (high2 f.d && high2 f.a && high2 f.b) (.kball (low4 f.d) (low4 f.a) (low4 f.b))
  | _ => none

/-- fn cell 0x04, control (R32). -/
def decodeControl (f : S32R) : Option Instr :=
  match f.fn with
  | 0 => keep (f.d == 0 && f.a == 0 && f.b == 0) .ret
  | 1 => keep (f.d == 0 && f.b == 0) (.jmpi f.a)
  | 2 => keep (f.d == 0 && f.a == 0 && f.b == 0) .lret
  | 3 => keep (f.d == 0 && f.a == 0 && f.b == 0) .exit
  | 4 => keep (f.d == 0 && f.a == 0 && f.b == 0) .nop
  | _ => none

/-- fn cell 0x05, sync (R32). -/
def decodeSync (f : S32R) : Option Instr :=
  match f.fn with
  | 0 => keep (f.d == 0 && f.a == 0 && f.b == 0) .fenceSc
  | 1 => keep (f.d == 0 && f.a == 0 && f.b == 0) .fenceEng
  | 2 => keep (f.d == 0 && f.a == 0 && f.b == 0) .fenceFabric
  | 3 => keep (f.d == 0 && f.a == 0 && f.b == 0) .bar
  | 4 => keep (f.d == 0 && f.a == 0 && f.b == 0) .barArrive
  | 5 => keep (f.d == 0 && f.a == 0 && f.b == 0) .barWait
  | 6 => keep (f.d == 0 && f.a == 0 && f.b == 0) .gbar
  | 8 => keep (f.d == 0 && f.b == 0) (.waitpLd f.a)
  | 9 => keep (f.d == 0 && f.b == 0) (.waitpSt f.a)
  | 10 => keep (f.d == 0 && f.b == 0) (.waitpSp f.a)
  | 11 => keep (f.d == 0 && f.b == 0) (.waitpGa f.a)
  | 16 => keep (high2 f.a && f.b == 0) (.ftest f.d (low4 f.a))
  | 17 => keep (high2 f.a && f.b == 0) (.fwait f.d (low4 f.a))
  | 18 => keep (high2 f.a && f.b == 0) (.fcancel f.d (low4 f.a))
  | 19 => keep (high2 f.a && f.b == 0) (.fget f.d (low4 f.a))
  | 20 => keep (high2 f.d && f.b == 0) (.fput (low4 f.d) f.a)
  | 24 => keep true (.swait f.d f.a f.b)
  | 25 => keep true (.sdone f.d f.a f.b)
  | _ => none

/-- fn cell 0x06, engine (R32). -/
def decodeEngine (f : S32R) : Option Instr :=
  match f.fn with
  | 0 => keep (f.d == 0 && f.a == 0 && f.b == 0) .cclear
  | 1 => keep (f.d == 0 && f.b == 0) (.enough f.a)
  | 2 => keep (f.d == 0 && f.b == 0) (.itfree f.a)
  | _ => none

/-- A complete S32 instruction: the opcode grid of R31. -/
def decodeS32 (w : Word32) : Option Instr :=
  let f := s32r w
  let imm : BitVec 12 := w.extractLsb' 0 12
  let off9 : BitVec 9 := w.extractLsb' 0 9
  let width := swidthOf (w.extractLsb' 9 3).toNat
  let off18 : BitVec 18 := w.extractLsb' 0 18
  let off24 : BitVec 24 := w.extractLsb' 0 24
  match (w.extractLsb' 24 6).toNat with
  | 0x00 => decodeInteger f
  | 0x01 => decodeUnary f
  | 0x02 => decodeFloat f
  | 0x03 => decodeMask f
  | 0x04 => decodeControl f
  | 0x05 => decodeSync f
  | 0x06 => decodeEngine f
  | 0x08 => keep true (.addImm f.d f.a imm)
  | 0x09 => keep true (.andImm f.d f.a imm)
  | 0x0A => keep true (.orImm f.d f.a imm)
  | 0x0B => keep true (.xorImm f.d f.a imm)
  | 0x0C => keep (imm.extractLsb' 6 6 == 0) (.shlImm f.d f.a (imm.extractLsb' 0 6))
  | 0x0D => keep (imm.extractLsb' 6 6 == 0) (.shrImm f.d f.a (imm.extractLsb' 0 6))
  | 0x0E => keep (imm.extractLsb' 6 6 == 0) (.sarImm f.d f.a (imm.extractLsb' 0 6))
  | 0x0F => keep true (.mulImm f.d f.a imm)
  | 0x10 => keep true (.minS64Imm f.d f.a imm)
  | 0x11 => keep true (.maxS64Imm f.d f.a imm)
  | 0x12 => keep true (.movi f.d off18)
  | 0x13 => width.bind fun k => keep true (.ld k f.d f.a off9)
  | 0x14 => width.bind fun k => keep true (.st k f.d f.a off9)
  | 0x15 => width.bind fun k => keep true (.ldsp k f.d f.a off9)
  | 0x16 => width.bind fun k => keep true (.stsp k f.d f.a off9)
  | 0x17 => keep (f.a == 0) (.sysr f.d imm)
  | 0x18 => keep (f.d == 0) (.sysw f.a imm)
  | 0x19 => keep (f.d == 0 && f.a == 0) (.trap imm)
  | 0x1A => keep (f.d == 0 && f.a == 0) (.brk imm)
  | 0x1B => keep (f.d == 0 && f.a == 0) (.lq imm)
  | 0x20 => keep true (.br off24)
  | 0x21 => keep true (.call off24)
  | 0x22 => keep true (.bz f.d off18)
  | 0x23 => keep true (.bnz f.d off18)
  | 0x24 => keep (high2 f.d) (.ball (low4 f.d) off18)
  | 0x25 => keep true (.ljmp off24)
  | 0x26 => keep true (.lcall off24)
  | _ => none

/-- An S64 instruction: the opcode grid of R36 and the fields of R37, R215, R232, R241, R245, R254, R257, R258, R260,
R277, R290 and R295. `w` is the first word and `e` the second. -/
def decodeS64 (w e : Word32) : Option Instr :=
  let d : SReg := w.extractLsb' 18 6
  let a : SReg := w.extractLsb' 12 6
  let b : SReg := w.extractLsb' 6 6
  let la : BitVec 4 := w.extractLsb' 2 4
  let x0 := w.getLsbD 0
  let x1 := w.getLsbD 1
  let x := w.extractLsb' 0 2
  let f : FReg := low4 d
  let width := if high2 b || b.extractLsb' 4 2 == 0 then swidthOf b.toNat else none
  match (w.extractLsb' 24 6).toNat with
  | 0x00 => keep (a == 0 && b == 0 && x == 0) (.moviLong d la e)
  | 0x01 => keep (b == 0 && x == 0) (.addLong d a la e)
  | 0x02 => keep (b == 0 && x == 0) (.andLong d a la e)
  | 0x03 => keep (b == 0 && x == 0) (.orLong d a la e)
  | 0x04 => keep (b == 0 && x == 0) (.xorLong d a la e)
  | 0x05 => keep (x == 0 && e.extractLsb' 6 26 == 0) (.sel d a b la (e.extractLsb' 0 6))
  | 0x06 => keep (b == 0 && !x1 && e.extractLsb' 6 2 == 0 && e.extractLsb' 15 17 == 0)
      (.bfx x0 d a la (e.extractLsb' 0 6) (e.extractLsb' 8 7))
  | 0x07 => keep (b == 0 && x == 0 && e.extractLsb' 6 2 == 0 && e.extractLsb' 15 17 == 0)
      (.bfi d a la (e.extractLsb' 0 6) (e.extractLsb' 8 7))
  | 0x08 => keep (x == 0 && e.extractLsb' 6 26 == 0) (.fmaF64 d a b la (e.extractLsb' 0 6))
  | 0x09 => keep (x == 0 && e.extractLsb' 6 26 == 0) (.fmaF32 d a b la (e.extractLsb' 0 6))
  | 0x0A => (icondOf d.toNat).bind fun c => keep (x == 0) (.bCc c a b la e)
  | 0x0B => width.bind fun k => keep (x == 0) (.ldLong k d a la e)
  | 0x0C => width.bind fun k => keep (x == 0) (.stLong k d a la e)
  | 0x0D => width.bind fun k => keep (x == 0) (.ldspLong k d a la e)
  | 0x0E => width.bind fun k => keep (x == 0) (.stspLong k d a la e)
  | 0x10 => (pushQOf (e.extractLsb' 0 2).toNat).bind fun q =>
      keep (high2 d && x == 0 && e.extractLsb' 2 30 == 0) (.push q f a b la)
  | 0x11 => (rndOf (e.extractLsb' 20 3).toNat).bind fun r => (mfmtOf (e.extractLsb' 8 4).toNat).bind fun m =>
      keep (high2 d && !x1) (.mloop f a b la x0 (e.extractLsb' 23 9) r (e.getLsbD 19) (e.getLsbD 18) (e.getLsbD 17)
        (e.extractLsb' 12 5) m (e.extractLsb' 0 8))
  | 0x12 => (rndOf (e.extractLsb' 26 3).toNat).bind fun r =>
      keep (high2 d && !a.getLsbD 5 && b.extractLsb' 3 3 == 0 && !e.getLsbD 31)
        (.mdrain f la x0 x1 (b.getLsbD 0) (b.getLsbD 1) (b.getLsbD 2) (e.getLsbD 30) (e.getLsbD 29) r
          (a.extractLsb' 0 5) (e.extractLsb' 21 5) (e.extractLsb' 16 5) (e.extractLsb' 8 8) (e.extractLsb' 0 8))
  | 0x13 => (cfmtOf (e.extractLsb' 19 2).toNat).bind fun m =>
      keep (high2 d && !x1 && e.extractLsb' 0 15 == 0)
        (.cloop f a b la x0 (e.extractLsb' 21 11) m (e.extractLsb' 15 4))
  | 0x14 => (rndOf (e.extractLsb' 25 3).toNat).bind fun r =>
      keep (high2 d && a.extractLsb' 1 5 == 0 && b.extractLsb' 3 3 == 0 && x == 0 && e.extractLsb' 29 3 == 0
          && e.extractLsb' 16 4 == 0)
        (.cdrain f la (a.getLsbD 0) (b.getLsbD 0) (b.getLsbD 1) (b.getLsbD 2) (e.getLsbD 28) r (e.extractLsb' 20 5)
          (e.extractLsb' 8 8) (e.extractLsb' 0 8))
  | 0x15 => keep (high2 d && a == 0 && b == 0 && la == 0 && x == 0 && e == 0) (.cmerge f)
  | 0x16 => keep (high2 d && a == 0 && b == 0 && la == 0 && x == 0 && e.extractLsb' 5 27 == 0)
      (.cspill f (e.extractLsb' 0 5))
  | 0x17 => keep (high2 d && a == 0 && x == 0 && e.extractLsb' 11 21 == 0)
      (.aset f b la (e.extractLsb' 0 5) (e.extractLsb' 5 6))
  | 0x18 => keep (high2 d && x == 0) (.itbind f a b la e)
  | 0x19 => keep (high2 d && high2 b && x == 0 && e.extractLsb' 22 10 == 0)
      (.drvNext f a (low4 b) la (e.extractLsb' 0 8) (e.extractLsb' 8 4) (e.extractLsb' 12 4) (e.extractLsb' 16 6))
  | 0x1A => keep (b == 0 && x == 0 && e.extractLsb' 19 13 == 0)
      (.schedScalar d a la (e.extractLsb' 0 16) (e.extractLsb' 16 2) (e.getLsbD 18))
  | 0x1B => keep (b == 0 && x == 0 && e == 0) (.cancelScalar d a la)
  | _ => none

/-- What the words at an address give: an instruction and its length in words; a word that is missing because the
section ends (FetchBound, R18); or a word that is no instruction (IllegalInstruction), with its index (R50). -/
inductive Dec where
  | ok (i : Instr) (len : Nat)
  | bound (idx : Nat)
  | illegal (idx : Nat)
deriving DecidableEq, Repr

/-- The kind field of a prefix word (R23, R24). -/
def pfxKind (w : Word32) : Nat := (w.extractLsb' 26 4).toNat

/-- Whether a prefix word keeps its own field limits (R23, R25). -/
def pfxFieldsOk (w : Word32) : Bool :=
  if pfxKind w == 1 then (w.extractLsb' 23 3).toNat ≤ 4 && w.extractLsb' 0 21 == 0 else true

/-- Puts a prefix word in front of an instruction (R25). -/
def wrapPfx (w : Word32) (i : Instr) : Instr :=
  if pfxKind w == 1 then
    .modifierPrefix ((rndOf (w.extractLsb' 23 3).toNat).getD .rn) (w.getLsbD 22) (w.getLsbD 21) i
  else .repPrefix (w.extractLsb' 18 8) (w.extractLsb' 16 2) (w.extractLsb' 14 2) (w.extractLsb' 12 2) (w.extractLsb' 0 12) i

/-- The instruction word itself, which stands at index `n` after `n` prefixes; `bad` is the first prefix word that R25
refuses. FetchBound and selector 11 are reported before a prefix's own fields (R50). -/
def decodeBody (ws : List Word32) (n : Nat) (bad : Option Nat) : Dec :=
  match ws with
  | [] => .bound n
  | w :: rest =>
    match (w.extractLsb' 30 2).toNat with
    | 3 => .illegal n
    | 0 =>
      match bad with
      | some k => .illegal k
      | none => match decodeS32 w with
        | some i => .ok i (n + 1)
        | none => .illegal n
    | 1 =>
      match rest with
      | [] => .bound (n + 1)
      | e :: _ =>
        match bad with
        | some k => .illegal k
        | none => match decodeS64 w e with
          | some i => .ok i (n + 2)
          | none => .illegal n
    | _ => .illegal (bad.getD n)

/-- Puts a prefix word in front of what follows it. -/
def Dec.wrap (w : Word32) : Dec → Dec
  | .ok i n => .ok (wrapPfx w i) n
  | r => r

/-- Whether a prefix word stands as R25 lets it: it is the first or the second of its sequence, of a kind that exists and
has not stood before, and keeps its own field limits. -/
def pfxStands (w : Word32) (n : Nat) (seen : List Nat) : Bool :=
  (pfxKind w == 1 || pfxKind w == 2) && !seen.contains (pfxKind w) && n < 2 && pfxFieldsOk w

/-- The rest of a prefix sequence from its word `n` on, after the kinds in `seen`; `bad` is the first prefix word that R25 refuses.
The words after such a word are still looked at, since a fetch beyond the section and selector 11 are reported first (R50). -/
def decodePfx : List Word32 → Nat → List Nat → Option Nat → Dec
  | [], n, _, _ => .bound n
  | w :: rest, n, seen, bad =>
    if (w.extractLsb' 30 2).toNat == 2 && n < 3 then
      (decodePfx rest (n + 1) (pfxKind w :: seen) (if pfxStands w n seen then bad else some (bad.getD n))).wrap w
    else decodeBody (w :: rest) n bad

/-- One instruction of the scalar stream, prefixes included, from the words at its address up to the end of the section
(R19, R25, R50). -/
def decodeScalar (ws : List Word32) : Dec := decodePfx ws 0 [] none

/-! ### Lane words -/

/-- The fields of a lane word (R38) other than opcode, header and destination to c registers. -/
structure LaneRest where
  rnd : Nat
  sat : Bool
  reuse : Bool
  ty : Nat
  imm : Word32

/-- The header of a lane word. -/
def laneHdr (w : Word96) : LaneHdr :=
  ⟨w.extractLsb' 52 4, w.getLsbD 51, w.extractLsb' 47 4, w.getLsbD 46, w.extractLsb' 42 4⟩

/-- The other fields of a lane word. -/
def laneRest (w : Word96) : LaneRest :=
  ⟨(w.extractLsb' 39 3).toNat, w.getLsbD 38, w.getLsbD 37, (w.extractLsb' 32 4).toNat, w.extractLsb' 0 32⟩

/-- No rounding, saturation or reuse, as most opcodes require (R41). -/
def LaneRest.plain (r : LaneRest) : Bool := r.rnd == 0 && !r.sat && !r.reuse

/-- A predicate field: bits [3:0], with bits [7:4] zero (R42). -/
def lowP (v : VReg) : PReg := v.extractLsb' 0 4
def highP (v : VReg) : Bool := v.extractLsb' 4 4 == 0

/-- A 64-bit or a 32-bit raw type (R41). -/
def w64Of : Nat → Option Bool
  | 2 => some false | 5 => some true
  | _ => none

/-- The address operand of a lane memory word (R169). -/
def memAddr (a b c : VReg) (imm : Word32) : LaneAddr :=
  ⟨a.extractLsb' 0 6, c.getLsbD 2, b, c.extractLsb' 0 2, imm⟩
/-- The reserved bits of a and c in a lane memory word (R169). -/
def memOk (a c : VReg) : Bool := a.extractLsb' 6 2 == 0 && c.extractLsb' 3 5 == 0

/-- The address operand of `atom` and `red` (R191). -/
def atomAddr (b : VReg) (imm : Word32) : LaneAddr :=
  ⟨imm.extractLsb' 10 6, imm.getLsbD 7, b, imm.extractLsb' 8 2, (imm.extractLsb' 16 16).signExtend 32⟩

/-- Rows 0 and 1 of the lane grid (R40): integer, compare, predicate. -/
def decodeLaneInt (op : Nat) (h : LaneHdr) (d a b c : VReg) (r : LaneRest) : Option Instr :=
  let z := r.imm == 0
  match op with
  | 0x00 => (ityOf r.ty).bind fun t => keep (r.rnd == 0 && !r.reuse && c == 0 && z) (.iadd h t r.sat d a b)
  | 0x01 => (ityOf r.ty).bind fun t => keep (r.rnd == 0 && !r.reuse && c == 0 && z) (.isub h t r.sat d a b)
  | 0x02 => (ityOf r.ty).bind fun t => keep (r.plain && c == 0 && z) (.imul h t d a b)
  | 0x03 => (ityOf r.ty).bind fun t => keep (r.plain && c == 0 && z) (.imulhi h t d a b)
  | 0x04 => (ityOf r.ty).bind fun t => keep (r.rnd == 0 && !r.reuse && z) (.imad h t r.sat d a b c)
  | 0x05 => keep (r.rnd == 0 && !r.reuse && r.ty == 0 && b == 0 && c == 0 && z) (.iabs h r.sat d a)
  | 0x06 => (ityOf r.ty).bind fun t => keep (r.plain && c == 0 && z) (.imin h t d a b)
  | 0x07 => (ityOf r.ty).bind fun t => keep (r.plain && c == 0 && z) (.imax h t d a b)
  | 0x08 => keep (r.plain && r.ty == 2 && c == 0 && z) (.laneAnd h d a b)
  | 0x09 => keep (r.plain && r.ty == 2 && c == 0 && z) (.laneOr h d a b)
  | 0x0A => keep (r.plain && r.ty == 2 && c == 0 && z) (.laneXor h d a b)
  | 0x0B => keep (r.plain && r.ty == 2 && r.imm.extractLsb' 8 24 == 0) (.bmux h d a b c (r.imm.extractLsb' 0 8))
  | 0x0C => keep (r.plain && r.ty == 2 && c == 0 && z) (.laneShl h d a b)
  | 0x0D => keep (r.plain && r.ty == 2 && c == 0 && z) (.laneShr h d a b)
  | 0x0E => keep (r.plain && r.ty == 0 && c == 0 && z) (.laneSar h d a b)
  | 0x0F => keep (r.plain && r.ty == 5 && c == 0 && z) (.iadd64 h d a b)
  | 0x10 => (ityOf r.ty).bind fun t =>
      keep (r.plain && b == 0 && c == 0 && r.imm.extractLsb' 5 3 == 0 && r.imm.extractLsb' 14 18 == 0)
        (.laneBfx h t d a (r.imm.extractLsb' 0 5) (r.imm.extractLsb' 8 6))
  | 0x11 => keep (r.plain && r.ty == 2 && b == 0 && c == 0 && r.imm.extractLsb' 5 3 == 0 && r.imm.extractLsb' 14 18 == 0)
      (.laneBfi h d a (r.imm.extractLsb' 0 5) (r.imm.extractLsb' 8 6))
  | 0x12 => keep (r.plain && r.ty == 2 && b == 0 && c == 0 && z) (.lanePopc h d a)
  | 0x13 => keep (r.plain && r.ty == 2 && b == 0 && c == 0 && z) (.laneClz h d a)
  | 0x14 => keep (r.plain && r.ty == 2 && b == 0 && c == 0 && z) (.laneBrev h d a)
  | 0x18 => (icmpTyOf r.ty).bind fun t => (lcondOf (r.imm.extractLsb' 0 4).toNat).bind fun cc =>
      keep (r.plain && highP d && c == 0 && r.imm.extractLsb' 4 28 == 0) (.icmpCc h t cc (lowP d) a b)
  | 0x19 => (f2Of r.ty).bind fun t => (fcondOf (r.imm.extractLsb' 0 4).toNat).bind fun cc =>
      keep (r.plain && highP d && c == 0 && r.imm.extractLsb' 4 28 == 0) (.fcmpCc h t cc (lowP d) a b)
  | 0x1A => keep (r.plain && r.ty == 0 && highP d && highP a && highP b && c == 0 && z) (.pand h (lowP d) (lowP a) (lowP b))
  | 0x1B => keep (r.plain && r.ty == 0 && highP d && highP a && highP b && c == 0 && z) (.por h (lowP d) (lowP a) (lowP b))
  | 0x1C => keep (r.plain && r.ty == 0 && highP d && highP a && highP b && c == 0 && z) (.pxor h (lowP d) (lowP a) (lowP b))
  | 0x1D => keep (r.plain && r.ty == 0 && highP d && highP a && b == 0 && c == 0 && z) (.pnot h (lowP d) (lowP a))
  | 0x1E => (w64Of r.ty).bind fun w => keep (r.plain && highP c && z) (.laneSel h w d a b (lowP c))
  | 0x1F =>
    if r.plain && r.ty == 0 && b == 0 && c == 0 && r.imm.extractLsb' 2 30 == 0 then
      match (r.imm.extractLsb' 0 2).toNat with
      | 0 => keep (highP d && highP a) (.pmov h (lowP d) (lowP a))
      | 1 => keep (highP d) (.pmovFromVreg h (lowP d) a)
      | 2 => keep (a == 0) (.pmovToVreg h d)
      | _ => keep (d == 0) (.pmovAll h a)
    else none
  | _ => none

/-- Rows 2 and 3 of the lane grid (R40): floating point, dot products, conversion, moves, `evinfo`. -/
def decodeLaneFloat (op : Nat) (h : LaneHdr) (d a b c : VReg) (r : LaneRest) : Option Instr :=
  let z := r.imm == 0
  let ftz := r.imm.getLsbD 0
  let z1 := r.imm.extractLsb' 1 31 == 0
  let noSat := !r.sat && !r.reuse
  match op with
  | 0x20 => (ftyOf r.ty).bind fun t => (rndOf r.rnd).bind fun m => keep (noSat && c == 0 && z1) (.fadd h t m ftz d a b)
  | 0x21 => (ftyOf r.ty).bind fun t => (rndOf r.rnd).bind fun m => keep (noSat && c == 0 && z1) (.fsub h t m ftz d a b)
  | 0x22 => (ftyOf r.ty).bind fun t => (rndOf r.rnd).bind fun m => keep (noSat && c == 0 && z1) (.fmul h t m ftz d a b)
  | 0x23 => (ftyOf r.ty).bind fun t => (rndOf r.rnd).bind fun m => keep (noSat && z1) (.fma h t m ftz d a b c)
  | 0x24 => (ftyOf r.ty).bind fun t => keep (r.plain && c == 0 && z) (.fminNum h t d a b)
  | 0x25 => (ftyOf r.ty).bind fun t => keep (r.plain && c == 0 && z) (.fminNan h t d a b)
  | 0x26 => (ftyOf r.ty).bind fun t => keep (r.plain && c == 0 && z) (.fmaxNum h t d a b)
  | 0x27 => (ftyOf r.ty).bind fun t => keep (r.plain && c == 0 && z) (.fmaxNan h t d a b)
  | 0x28 => (f2Of r.ty).bind fun t => keep (r.plain && b == 0 && c == 0 && z) (.frcp h t d a)
  | 0x29 => keep (r.plain && r.ty == 6 && b == 0 && c == 0 && z) (.frsq h d a)
  | 0x2A => (f2Of r.ty).bind fun t => keep (r.plain && b == 0 && c == 0 && z) (.fsqrt h t d a)
  | 0x2B => keep (r.plain && r.ty == 6 && b == 0 && c == 0 && z) (.fex2 h d a)
  | 0x2C => keep (r.plain && r.ty == 6 && b == 0 && c == 0 && z) (.flg2 h d a)
  | 0x2D => keep (r.plain && r.ty == 6 && b == 0 && c == 0 && z) (.fsin h d a)
  | 0x2E => keep (r.plain && r.ty == 6 && b == 0 && c == 0 && z) (.fcos h d a)
  | 0x30 =>
    if r.ty == 10 || r.ty == 11 then
      (rndOf r.rnd).bind fun m => keep (!r.sat && z1) (.fdot16 h (r.ty == 11) m r.reuse ftz d a b c)
    else none
  | 0x31 => (rndOf r.rnd).bind fun m => keep (r.ty == 14 && !r.sat && z1) (.ddot16 h m r.reuse ftz d a b c)
  | 0x32 => (ityOf r.ty).bind fun t => keep (r.rnd == 0 && !r.reuse && z) (.idot4 h t r.sat d a b c)
  | 0x33 =>
    if r.ty == 6 then (rndOf r.rnd).bind fun m => keep (noSat && z) (.scacc h false m d a b c 0 0)
    else if r.ty == 15 then
      (rndOf r.rnd).bind fun m => keep (noSat && r.imm.extractLsb' 4 28 == 0)
        (.scacc h true m d a b c (r.imm.extractLsb' 0 2) (r.imm.extractLsb' 2 2))
    else none
  | 0x34 => (ltyOf r.ty).bind fun dst => (ltyOf (c.extractLsb' 0 4).toNat).bind fun src => (rndOf r.rnd).bind fun m =>
      keep (!r.reuse && b == 0 && highP c && r.imm.extractLsb' 3 29 == 0)
        (.cvt h dst src m r.sat d a (r.imm.extractLsb' 0 3))
  | 0x38 => (w64Of r.ty).bind fun w => keep (r.plain && b == 0 && c == 0 && z) (.laneMov h w d a)
  | 0x39 => keep (r.plain && r.ty == 2 && a == 0 && b == 0 && c == 0) (.laneMovi h d r.imm)
  | 0x3A => (evItemOf (r.imm.extractLsb' 0 3).toNat).bind fun it =>
      keep (r.plain && r.ty == 0 && a == 0 && b == 0 && c == 0 && r.imm.extractLsb' 3 29 == 0) (.evinfo h it d)
  | _ => none

/-- Row 4 of the lane grid (R40, R126, R128): exchange and scans. -/
def decodeLaneX (op : Nat) (h : LaneHdr) (d a b c : VReg) (r : LaneRest) : Option Instr :=
  let z := r.imm == 0
  let wd := xwidthOf (r.imm.extractLsb' 5 2).toNat
  let n5 : BitVec 5 := r.imm.extractLsb' 0 5
  let zx := r.imm.extractLsb' 7 25 == 0
  let sop := scanOpOf (r.imm.extractLsb' 0 2).toNat
  match op with
  | 0x40 => (w64Of r.ty).bind fun w => keep (r.plain && b == 0 && c == 0 && z) (.qswapH h w d a)
  | 0x41 => (w64Of r.ty).bind fun w => keep (r.plain && b == 0 && c == 0 && z) (.qswapV h w d a)
  | 0x42 => (w64Of r.ty).bind fun w => keep (r.plain && b == 0 && c == 0 && z) (.qswapD h w d a)
  | 0x43 => (w64Of r.ty).bind fun w =>
      keep (r.plain && b == 0 && c == 0 && r.imm.extractLsb' 2 30 == 0) (.qbcast h w d a (r.imm.extractLsb' 0 2))
  | 0x44 => (w64Of r.ty).bind fun w => wd.bind fun s =>
      keep (r.plain && c == 0 && n5 == 0 && zx) (.xlanePick h w s d a b)
  | 0x45 => (w64Of r.ty).bind fun w => wd.bind fun s =>
      keep (r.plain && b == 0 && c == 0 && zx) (.xlaneLift h w s d a n5)
  | 0x46 => (w64Of r.ty).bind fun w => wd.bind fun s =>
      keep (r.plain && b == 0 && c == 0 && zx) (.xlaneDrop h w s d a n5)
  | 0x47 => (w64Of r.ty).bind fun w => wd.bind fun s =>
      keep (r.plain && b == 0 && c == 0 && zx) (.xlaneMirror h w s d a n5)
  | 0x48 => (scanTyOf r.ty).bind fun t => sop.bind fun o =>
      keep (r.plain && b == 0 && c == 0 && r.imm.extractLsb' 3 29 == 0) (.scan h t o (r.imm.getLsbD 2) d a)
  | 0x49 => (scanTyOf r.ty).bind fun t => sop.bind fun o =>
      keep (r.plain && b == 0 && highP c && r.imm.extractLsb' 3 29 == 0) (.sscan h t o (r.imm.getLsbD 2) d a (lowP c))
  | 0x4A => (scanTyOf r.ty).bind fun t => sop.bind fun o =>
      keep (r.plain && highP b && highP c && r.imm.extractLsb' 2 30 == 0) (.sred h t o d a (lowP b) (lowP c))
  | _ => none

/-- Row 5 of the lane grid (R40, R168, R190, R246, R289, R295): memory, atomics, events, tiles. -/
def decodeLaneMem (op : Nat) (h : LaneHdr) (d a b c : VReg) (r : LaneRest) : Option Instr :=
  let m := memAddr a b c r.imm
  let ok := r.plain && memOk a c
  let at' := atomAddr b r.imm
  match op with
  | 0x50 => (mtyOf r.ty).bind fun t => keep ok (.ldG h t d m)
  | 0x51 => (mtyOf r.ty).bind fun t => keep ok (.stG h t d m)
  | 0x52 => (mtyOf r.ty).bind fun t => keep ok (.ldS h t d m)
  | 0x53 => (mtyOf r.ty).bind fun t => keep ok (.stS h t d m)
  | 0x54 => (mtyOf r.ty).bind fun t => keep ok (.cpGs h t d m)
  | 0x55 => (mtyOf r.ty).bind fun t => keep ok (.ldx h t d m)
  | 0x56 => (mtyOf r.ty).bind fun t => keep ok (.stx h t d m)
  | 0x57 => (atyOf r.ty).bind fun t => (aopOf (r.imm.extractLsb' 0 4).toNat).bind fun o =>
      (scopeOf (r.imm.extractLsb' 4 3).toNat).bind fun s => keep r.plain (.atom h t o s d a c at')
  | 0x58 => (atyOf r.ty).bind fun t => (aopOf (r.imm.extractLsb' 0 4).toNat).bind fun o =>
      (scopeOf (r.imm.extractLsb' 4 3).toNat).bind fun s => keep (r.plain && d == 0) (.red h t o s a c at')
  | 0x59 => keep (r.plain && r.ty == 0 && c == 0 && r.imm.extractLsb' 19 13 == 0)
      (.sched h d a b (r.imm.extractLsb' 0 16) (r.imm.extractLsb' 16 2) (r.imm.getLsbD 18))
  | 0x5A => keep (r.plain && r.ty == 0 && b == 0 && c == 0 && r.imm == 0) (.cancel h d a)
  | 0x5B => keep (r.plain && r.ty == 0 && a == 0 && b == 0 && c == 0 && r.imm.extractLsb' 19 13 == 0)
      (.acpyAr h d (r.imm.extractLsb' 12 7) (r.imm.extractLsb' 6 6) (r.imm.getLsbD 5) (r.imm.extractLsb' 0 5))
  | 0x5C => keep (r.plain && r.ty == 0 && d == 0 && b == 0 && c == 0 && r.imm.extractLsb' 19 13 == 0)
      (.acpyRa h a (r.imm.extractLsb' 12 7) (r.imm.extractLsb' 6 6) (r.imm.getLsbD 5) (r.imm.extractLsb' 0 5))
  | _ => none

/-- One lane word (R38 to R42); none where R44 raises IllegalInstruction. -/
def decodeLane (w : Word96) : Option Instr :=
  let op := (w.extractLsb' 88 8).toNat
  let d : VReg := w.extractLsb' 80 8
  let a : VReg := w.extractLsb' 72 8
  let b : VReg := w.extractLsb' 64 8
  let c : VReg := w.extractLsb' 56 8
  let h := laneHdr w
  let r := laneRest w
  if w.getLsbD 36 then none
  else if op < 0x20 then decodeLaneInt op h d a b c r
  else if op < 0x40 then decodeLaneFloat op h d a b c r
  else if op < 0x50 then decodeLaneX op h d a b c r
  else decodeLaneMem op h d a b c r

/-! ### Encoding -/

def Rnd.code : Rnd → BitVec 3
  | .rn => 0 | .rz => 1 | .rd => 2 | .ru => 3 | .ra => 4 | .rs => 5
def ICond.code : ICond → BitVec 4
  | .eq => 0 | .ne => 1 | .ltS => 2 | .leS => 3 | .gtS => 4 | .geS => 5 | .ltN => 6 | .leN => 7 | .gtN => 8 | .geN => 9
def LCond.code : LCond → BitVec 4
  | .eq => 0 | .ne => 1 | .lt => 2 | .le => 3 | .gt => 4 | .ge => 5
def FCond.code : FCond → BitVec 4
  | .eq => 0 | .ne => 1 | .lt => 2 | .le => 3 | .gt => 4 | .ge => 5 | .num => 6 | .nan => 7
def SWidth.code : SWidth → BitVec 3
  | .n8 => 0 | .s8 => 1 | .n16 => 2 | .s16 => 3 | .n32 => 4 | .s32 => 5 | .b64 => 6
def LTy.code : LTy → BitVec 4
  | .s32 => 0 | .n32 => 1 | .b32 => 2 | .s64 => 3 | .n64 => 4 | .b64 => 5 | .f32 => 6 | .f16x2 => 7 | .bf16x2 => 8
  | .f64 => 9 | .e4m3 => 10 | .e5m2 => 11 | .e2m1 => 12 | .i4 => 13 | .ds8 => 14 | .e8m0 => 15
def MTy.code : MTy → BitVec 4
  | .n8 => 0 | .s8 => 1 | .n16 => 2 | .s16 => 3 | .b32 => 4 | .b64 => 5 | .b128 => 6
def ITy.code : ITy → BitVec 4
  | .s32 => 0 | .n32 => 1
def ICmpTy.code : ICmpTy → BitVec 4
  | .s32 => 0 | .n32 => 1 | .s64 => 3 | .n64 => 4
def F2.code : F2 → BitVec 4
  | .f32 => 6 | .f64 => 9
def FTy.code : FTy → BitVec 4
  | .f32 => 6 | .f16x2 => 7 | .bf16x2 => 8 | .f64 => 9
def ScanTy.code : ScanTy → BitVec 4
  | .s32 => 0 | .n32 => 1 | .f32 => 6
def ScanOp.code : ScanOp → BitVec 2
  | .add => 0 | .min => 1 | .max => 2
def XWidth.code : XWidth → BitVec 2
  | .w32 => 0 | .w16 => 1 | .w8 => 2 | .w4 => 3
def EvItem.code : EvItem → BitVec 3
  | .time => 0 | .entity => 1 | .tie => 2 | .seq => 3 | .handle => 4 | .rank => 5 | .hdr => 6 | .round => 7
def ATy.code : ATy → BitVec 4
  | .s32 => 0 | .n32 => 1 | .b32 => 2 | .s64 => 3 | .n64 => 4 | .b64 => 5 | .f32 => 6
def AOp.code : AOp → BitVec 4
  | .add => 0 | .min => 1 | .max => 2 | .and => 3 | .or => 4 | .xor => 5 | .exch => 6 | .cas => 7 | .inc => 8 | .dec => 9
def Scope.code : Scope → BitVec 3
  | .device => 0 | .band => 1 | .core => 2 | .cluster => 3 | .fabric => 4
def MFmt.code : MFmt → BitVec 4
  | .e4m3 => 0 | .e5m2 => 1 | .e4m3e5m2 => 2 | .e5m2e4m3 => 3 | .ds8 => 4 | .f16 => 5 | .bf16 => 6
def CFmt.code : CFmt → BitVec 2
  | .e2m1 => 0 | .i4 => 1
def PushQ.code : PushQ → BitVec 2
  | .se0 => 0 | .se1 => 1 | .drover => 2

/-- A bit as a field of width one. -/
def bit (b : Bool) : BitVec 1 := BitVec.ofBool b
/-- The code of a 32-bit or 64-bit raw type. -/
def w64Code (w : Bool) : BitVec 4 := if w then 5 else 2

/-- S32R words (R20). -/
def encR (op : BitVec 6) (d a b fn : BitVec 6) : Word32 := (0 : BitVec 2) ++ op ++ d ++ a ++ b ++ fn
/-- S32I words. -/
def encI (op : BitVec 6) (d a : BitVec 6) (imm : BitVec 12) : Word32 := (0 : BitVec 2) ++ op ++ d ++ a ++ imm
/-- S32M words. -/
def encM (op : BitVec 6) (w : SWidth) (d a : BitVec 6) (off : BitVec 9) : Word32 :=
  (0 : BitVec 2) ++ op ++ d ++ a ++ w.code ++ off
/-- S32L and S32B words. -/
def encL (op : BitVec 6) (d : BitVec 6) (imm : BitVec 18) : Word32 := (0 : BitVec 2) ++ op ++ d ++ imm
/-- S32J words. -/
def encJ (op : BitVec 6) (off : BitVec 24) : Word32 := (0 : BitVec 2) ++ op ++ off
/-- First words of S64 instructions (R21). -/
def enc64 (op : BitVec 6) (d a b : BitVec 6) (la : BitVec 4) (x : BitVec 2) : Word32 :=
  (1 : BitVec 2) ++ op ++ d ++ a ++ b ++ la ++ x

/-- A mask, predicate or future number in a six-bit field. -/
def k6 (k : BitVec 4) : BitVec 6 := (0 : BitVec 2) ++ k

/-- The words of a scalar instruction without prefixes; none for every other row. -/
def encodeScalar : Instr → Option (List Word32)
  | .add d a b => some [encR 0x00 d a b 0]
  | .sub d a b => some [encR 0x00 d a b 1]
  | .mul d a b => some [encR 0x00 d a b 2]
  | .mulhiS64 d a b => some [encR 0x00 d a b 3]
  | .mulhiN64 d a b => some [encR 0x00 d a b 4]
  | .divS64 d a b => some [encR 0x00 d a b 5]
  | .divN64 d a b => some [encR 0x00 d a b 6]
  | .remS64 d a b => some [encR 0x00 d a b 7]
  | .remN64 d a b => some [encR 0x00 d a b 8]
  | .and d a b => some [encR 0x00 d a b 9]
  | .or d a b => some [encR 0x00 d a b 10]
  | .xor d a b => some [encR 0x00 d a b 11]
  | .andn d a b => some [encR 0x00 d a b 12]
  | .shl d a b => some [encR 0x00 d a b 13]
  | .shr d a b => some [encR 0x00 d a b 14]
  | .sar d a b => some [encR 0x00 d a b 15]
  | .minS64 d a b => some [encR 0x00 d a b 16]
  | .minN64 d a b => some [encR 0x00 d a b 17]
  | .maxS64 d a b => some [encR 0x00 d a b 18]
  | .maxN64 d a b => some [encR 0x00 d a b 19]
  | .cmpCc c d a b => some [encR 0x00 d a b ((2 : BitVec 2) ++ c.code)]
  | .mov d a => some [encR 0x01 d a 0 0]
  | .abs d a => some [encR 0x01 d a 0 1]
  | .clz d a => some [encR 0x01 d a 0 2]
  | .popc d a => some [encR 0x01 d a 0 3]
  | .brev d a => some [encR 0x01 d a 0 4]
  | .faddF64 d a b => some [encR 0x02 d a b 0]
  | .faddF32 d a b => some [encR 0x02 d a b 1]
  | .fmulF64 d a b => some [encR 0x02 d a b 2]
  | .fmulF32 d a b => some [encR 0x02 d a b 3]
  | .fcmpCcF64 c d a b => some [encR 0x02 d a b ((1 : BitVec 3) ++ c.code.extractLsb' 0 3)]
  | .fcmpCcF32 c d a b => some [encR 0x02 d a b ((2 : BitVec 3) ++ c.code.extractLsb' 0 3)]
  | .fcvtF32F64 d a => some [encR 0x02 d a 0 32]
  | .fcvtF64F32 d a => some [encR 0x02 d a 0 33]
  | .fcvtS64F64 d a => some [encR 0x02 d a 0 34]
  | .fcvtN64F64 d a => some [encR 0x02 d a 0 35]
  | .fcvtF64S64 d a => some [encR 0x02 d a 0 36]
  | .fcvtF64N64 d a => some [encR 0x02 d a 0 37]
  | .fcvtS64F32 d a => some [encR 0x02 d a 0 38]
  | .fcvtN64F32 d a => some [encR 0x02 d a 0 39]
  | .fcvtF32S64 d a => some [encR 0x02 d a 0 40]
  | .fcvtF32N64 d a => some [encR 0x02 d a 0 41]
  | .kand d a b => some [encR 0x03 (k6 d) (k6 a) (k6 b) 0]
  | .kor d a b => some [encR 0x03 (k6 d) (k6 a) (k6 b) 1]
  | .kxor d a b => some [encR 0x03 (k6 d) (k6 a) (k6 b) 2]
  | .kandn d a b => some [encR 0x03 (k6 d) (k6 a) (k6 b) 3]
  | .knot d a => some [encR 0x03 (k6 d) (k6 a) 0 4]
  | .kmov d a => some [encR 0x03 (k6 d) (k6 a) 0 5]
  | .kpop d a => some [encR 0x03 d (k6 a) 0 6]
  | .kffs d a => some [encR 0x03 d (k6 a) 0 7]
  | .kset d a => some [encR 0x03 (k6 d) a 0 8]
  | .kball d p b => some [encR 0x03 (k6 d) (k6 p) (k6 b) 9]
  | .ret => some [encR 0x04 0 0 0 0]
  | .jmpi a => some [encR 0x04 0 a 0 1]
  | .lret => some [encR 0x04 0 0 0 2]
  | .exit => some [encR 0x04 0 0 0 3]
  | .nop => some [encR 0x04 0 0 0 4]
  | .fenceSc => some [encR 0x05 0 0 0 0]
  | .fenceEng => some [encR 0x05 0 0 0 1]
  | .fenceFabric => some [encR 0x05 0 0 0 2]
  | .bar => some [encR 0x05 0 0 0 3]
  | .barArrive => some [encR 0x05 0 0 0 4]
  | .barWait => some [encR 0x05 0 0 0 5]
  | .gbar => some [encR 0x05 0 0 0 6]
  | .waitpLd a => some [encR 0x05 0 a 0 8]
  | .waitpSt a => some [encR 0x05 0 a 0 9]
  | .waitpSp a => some [encR 0x05 0 a 0 10]
  | .waitpGa a => some [encR 0x05 0 a 0 11]
  | .ftest d f => some [encR 0x05 d (k6 f) 0 16]
  | .fwait d f => some [encR 0x05 d (k6 f) 0 17]
  | .fcancel d f => some [encR 0x05 d (k6 f) 0 18]
  | .fget d f => some [encR 0x05 d (k6 f) 0 19]
  | .fput f a => some [encR 0x05 (k6 f) a 0 20]
  | .swait d a b => some [encR 0x05 d a b 24]
  | .sdone d a b => some [encR 0x05 d a b 25]
  | .cclear => some [encR 0x06 0 0 0 0]
  | .enough a => some [encR 0x06 0 a 0 1]
  | .itfree a => some [encR 0x06 0 a 0 2]
  | .addImm d a i => some [encI 0x08 d a i]
  | .andImm d a i => some [encI 0x09 d a i]
  | .orImm d a i => some [encI 0x0A d a i]
  | .xorImm d a i => some [encI 0x0B d a i]
  | .shlImm d a n => some [encI 0x0C d a ((0 : BitVec 6) ++ n)]
  | .shrImm d a n => some [encI 0x0D d a ((0 : BitVec 6) ++ n)]
  | .sarImm d a n => some [encI 0x0E d a ((0 : BitVec 6) ++ n)]
  | .mulImm d a i => some [encI 0x0F d a i]
  | .minS64Imm d a i => some [encI 0x10 d a i]
  | .maxS64Imm d a i => some [encI 0x11 d a i]
  | .movi d i => some [encL 0x12 d i]
  | .ld w d a o => some [encM 0x13 w d a o]
  | .st w d a o => some [encM 0x14 w d a o]
  | .ldsp w d a o => some [encM 0x15 w d a o]
  | .stsp w d a o => some [encM 0x16 w d a o]
  | .sysr d n => some [encI 0x17 d 0 n]
  | .sysw a n => some [encI 0x18 0 a n]
  | .trap c => some [encI 0x19 0 0 c]
  | .brk c => some [encI 0x1A 0 0 c]
  | .lq n => some [encI 0x1B 0 0 n]
  | .br o => some [encJ 0x20 o]
  | .call o => some [encJ 0x21 o]
  | .bz a o => some [encL 0x22 a o]
  | .bnz a o => some [encL 0x23 a o]
  | .ball k o => some [encL 0x24 (k6 k) o]
  | .ljmp o => some [encJ 0x25 o]
  | .lcall o => some [encJ 0x26 o]
  | .moviLong d la i => some [enc64 0x00 d 0 0 la 0, i]
  | .addLong d a la i => some [enc64 0x01 d a 0 la 0, i]
  | .andLong d a la i => some [enc64 0x02 d a 0 la 0, i]
  | .orLong d a la i => some [enc64 0x03 d a 0 la 0, i]
  | .xorLong d a la i => some [enc64 0x04 d a 0 la 0, i]
  | .sel d a b la c => some [enc64 0x05 d a b la 0, (0 : BitVec 26) ++ c]
  | .bfx s d a la pos len =>
      some [enc64 0x06 d a 0 la ((0 : BitVec 1) ++ bit s), (0 : BitVec 17) ++ len ++ (0 : BitVec 2) ++ pos]
  | .bfi d a la pos len => some [enc64 0x07 d a 0 la 0, (0 : BitVec 17) ++ len ++ (0 : BitVec 2) ++ pos]
  | .fmaF64 d a b la c => some [enc64 0x08 d a b la 0, (0 : BitVec 26) ++ c]
  | .fmaF32 d a b la c => some [enc64 0x09 d a b la 0, (0 : BitVec 26) ++ c]
  | .bCc c a b la o => some [enc64 0x0A (k6 c.code) a b la 0, o]
  | .ldLong w d a la o => some [enc64 0x0B d a ((0 : BitVec 3) ++ w.code) la 0, o]
  | .stLong w d a la o => some [enc64 0x0C d a ((0 : BitVec 3) ++ w.code) la 0, o]
  | .ldspLong w d a la o => some [enc64 0x0D d a ((0 : BitVec 3) ++ w.code) la 0, o]
  | .stspLong w d a la o => some [enc64 0x0E d a ((0 : BitVec 3) ++ w.code) la 0, o]
  | .push q f a b la => some [enc64 0x10 (k6 f) a b la 0, (0 : BitVec 30) ++ q.code]
  | .mloop f a b la aSp steps r ftz reuse tstep tile m areg =>
      some [enc64 0x11 (k6 f) a b la ((0 : BitVec 1) ++ bit aSp),
        steps ++ r.code ++ bit ftz ++ bit reuse ++ bit tstep ++ tile ++ m.code ++ areg]
  | .mdrain f la lanes half e8 rs cs clear ftz r vd8 dtile stile cv rv =>
      some [enc64 0x12 (k6 f) ((0 : BitVec 1) ++ vd8) ((0 : BitVec 3) ++ bit cs ++ bit rs ++ bit e8) la
          (bit half ++ bit lanes),
        (0 : BitVec 1) ++ bit clear ++ bit ftz ++ r.code ++ dtile ++ stile ++ cv ++ rv]
  | .cloop f a b la split steps m rg =>
      some [enc64 0x13 (k6 f) a b la ((0 : BitVec 1) ++ bit split), steps ++ m.code ++ rg ++ (0 : BitVec 15)]
  | .cdrain f la pairs e8 rs cs ftz r dtile cv rv =>
      some [enc64 0x14 (k6 f) ((0 : BitVec 5) ++ bit pairs) ((0 : BitVec 3) ++ bit cs ++ bit rs ++ bit e8) la 0,
        (0 : BitVec 3) ++ bit ftz ++ r.code ++ dtile ++ (0 : BitVec 4) ++ cv ++ rv]
  | .cmerge f => some [enc64 0x15 (k6 f) 0 0 0 0, 0]
  | .cspill f t => some [enc64 0x16 (k6 f) 0 0 0 0, (0 : BitVec 27) ++ t]
  | .aset f b la t n => some [enc64 0x17 (k6 f) 0 b la 0, (0 : BitVec 21) ++ n ++ t]
  | .itbind f a b la o => some [enc64 0x18 (k6 f) a b la 0, o]
  | .drvNext f a k la vd pd ph sc =>
      some [enc64 0x19 (k6 f) a (k6 k) la 0, (0 : BitVec 10) ++ sc ++ ph ++ pd ++ vd]
  | .schedScalar d a la hd pr cn =>
      some [enc64 0x1A d a 0 la 0, (0 : BitVec 13) ++ bit cn ++ pr ++ hd]
  | .cancelScalar d a la => some [enc64 0x1B d a 0 la 0, 0]
  | _ => none

/-- A lane word from its opcode, header, registers, rounding, sat, reuse, type code and immediate (R38). -/
def encW (op : BitVec 8) (h : LaneHdr) (d a b c : VReg) (rnd : BitVec 3) (sat reuse : Bool) (ty : BitVec 4)
    (imm : Word32) : Word96 :=
  op ++ d ++ a ++ b ++ c ++ h.guard ++ bit h.gneg ++ h.mask ++ bit h.h ++ h.la ++ rnd ++ bit sat ++ bit reuse
    ++ (0 : BitVec 1) ++ ty ++ imm

/-- A predicate in a register field. -/
def p8 (p : PReg) : BitVec 8 := (0 : BitVec 4) ++ p

/-- A flag in the low bit of the immediate. -/
def immBit (b : Bool) : Word32 := (0 : BitVec 31) ++ bit b

/-- A lane memory word (R169). -/
def encMem (op : BitVec 8) (h : LaneHdr) (t : MTy) (d : VReg) (m : LaneAddr) : Word96 :=
  encW op h d ((0 : BitVec 2) ++ m.base) m.b ((0 : BitVec 5) ++ bit m.idx ++ m.scale) 0 false false t.code m.off

/-- The immediate of `atom` and `red` (R191). -/
def atomImm (op : AOp) (s : Scope) (m : LaneAddr) : Word32 :=
  m.off.extractLsb' 0 16 ++ m.base ++ m.scale ++ bit m.idx ++ s.code ++ op.code

/-- The lane word of a lane instruction; none for every other row. -/
def encodeLane : Instr → Option Word96
  | .iadd h t s d a b => some (encW 0x00 h d a b 0 0 s false t.code 0)
  | .isub h t s d a b => some (encW 0x01 h d a b 0 0 s false t.code 0)
  | .imul h t d a b => some (encW 0x02 h d a b 0 0 false false t.code 0)
  | .imulhi h t d a b => some (encW 0x03 h d a b 0 0 false false t.code 0)
  | .imad h t s d a b c => some (encW 0x04 h d a b c 0 s false t.code 0)
  | .iabs h s d a => some (encW 0x05 h d a 0 0 0 s false 0 0)
  | .imin h t d a b => some (encW 0x06 h d a b 0 0 false false t.code 0)
  | .imax h t d a b => some (encW 0x07 h d a b 0 0 false false t.code 0)
  | .laneAnd h d a b => some (encW 0x08 h d a b 0 0 false false 2 0)
  | .laneOr h d a b => some (encW 0x09 h d a b 0 0 false false 2 0)
  | .laneXor h d a b => some (encW 0x0A h d a b 0 0 false false 2 0)
  | .bmux h d a b c t => some (encW 0x0B h d a b c 0 false false 2 ((0 : BitVec 24) ++ t))
  | .laneShl h d a b => some (encW 0x0C h d a b 0 0 false false 2 0)
  | .laneShr h d a b => some (encW 0x0D h d a b 0 0 false false 2 0)
  | .laneSar h d a b => some (encW 0x0E h d a b 0 0 false false 0 0)
  | .iadd64 h d a b => some (encW 0x0F h d a b 0 0 false false 5 0)
  | .laneBfx h t d a pos len =>
      some (encW 0x10 h d a 0 0 0 false false t.code ((0 : BitVec 18) ++ len ++ (0 : BitVec 3) ++ pos))
  | .laneBfi h d a pos len =>
      some (encW 0x11 h d a 0 0 0 false false 2 ((0 : BitVec 18) ++ len ++ (0 : BitVec 3) ++ pos))
  | .lanePopc h d a => some (encW 0x12 h d a 0 0 0 false false 2 0)
  | .laneClz h d a => some (encW 0x13 h d a 0 0 0 false false 2 0)
  | .laneBrev h d a => some (encW 0x14 h d a 0 0 0 false false 2 0)
  | .icmpCc h t cc d a b => some (encW 0x18 h (p8 d) a b 0 0 false false t.code ((0 : BitVec 28) ++ cc.code))
  | .fcmpCc h t cc d a b => some (encW 0x19 h (p8 d) a b 0 0 false false t.code ((0 : BitVec 28) ++ cc.code))
  | .pand h d a b => some (encW 0x1A h (p8 d) (p8 a) (p8 b) 0 0 false false 0 0)
  | .por h d a b => some (encW 0x1B h (p8 d) (p8 a) (p8 b) 0 0 false false 0 0)
  | .pxor h d a b => some (encW 0x1C h (p8 d) (p8 a) (p8 b) 0 0 false false 0 0)
  | .pnot h d a => some (encW 0x1D h (p8 d) (p8 a) 0 0 0 false false 0 0)
  | .laneSel h w d a b c => some (encW 0x1E h d a b (p8 c) 0 false false (w64Code w) 0)
  | .pmov h d a => some (encW 0x1F h (p8 d) (p8 a) 0 0 0 false false 0 0)
  | .pmovFromVreg h d a => some (encW 0x1F h (p8 d) a 0 0 0 false false 0 1)
  | .pmovToVreg h d => some (encW 0x1F h d 0 0 0 0 false false 0 2)
  | .pmovAll h a => some (encW 0x1F h 0 a 0 0 0 false false 0 3)
  | .fadd h t r z d a b => some (encW 0x20 h d a b 0 r.code false false t.code (immBit z))
  | .fsub h t r z d a b => some (encW 0x21 h d a b 0 r.code false false t.code (immBit z))
  | .fmul h t r z d a b => some (encW 0x22 h d a b 0 r.code false false t.code (immBit z))
  | .fma h t r z d a b c => some (encW 0x23 h d a b c r.code false false t.code (immBit z))
  | .fminNum h t d a b => some (encW 0x24 h d a b 0 0 false false t.code 0)
  | .fminNan h t d a b => some (encW 0x25 h d a b 0 0 false false t.code 0)
  | .fmaxNum h t d a b => some (encW 0x26 h d a b 0 0 false false t.code 0)
  | .fmaxNan h t d a b => some (encW 0x27 h d a b 0 0 false false t.code 0)
  | .frcp h t d a => some (encW 0x28 h d a 0 0 0 false false t.code 0)
  | .frsq h d a => some (encW 0x29 h d a 0 0 0 false false 6 0)
  | .fsqrt h t d a => some (encW 0x2A h d a 0 0 0 false false t.code 0)
  | .fex2 h d a => some (encW 0x2B h d a 0 0 0 false false 6 0)
  | .flg2 h d a => some (encW 0x2C h d a 0 0 0 false false 6 0)
  | .fsin h d a => some (encW 0x2D h d a 0 0 0 false false 6 0)
  | .fcos h d a => some (encW 0x2E h d a 0 0 0 false false 6 0)
  | .fdot16 h e5 r u z d a b c => some (encW 0x30 h d a b c r.code false u (if e5 then 11 else 10) (immBit z))
  | .ddot16 h r u z d a b c => some (encW 0x31 h d a b c r.code false u 14 (immBit z))
  | .idot4 h t s d a b c => some (encW 0x32 h d a b c 0 s false t.code 0)
  | .scacc h e8 r d a b c x y =>
      some (encW 0x33 h d a b c r.code false false (if e8 then 15 else 6) ((0 : BitVec 28) ++ y ++ x))
  | .cvt h dst src r s d a e =>
      some (encW 0x34 h d a 0 ((0 : BitVec 4) ++ src.code) r.code s false dst.code ((0 : BitVec 29) ++ e))
  | .laneMov h w d a => some (encW 0x38 h d a 0 0 0 false false (w64Code w) 0)
  | .laneMovi h d i => some (encW 0x39 h d 0 0 0 0 false false 2 i)
  | .evinfo h it d => some (encW 0x3A h d 0 0 0 0 false false 0 ((0 : BitVec 29) ++ it.code))
  | .qswapH h w d a => some (encW 0x40 h d a 0 0 0 false false (w64Code w) 0)
  | .qswapV h w d a => some (encW 0x41 h d a 0 0 0 false false (w64Code w) 0)
  | .qswapD h w d a => some (encW 0x42 h d a 0 0 0 false false (w64Code w) 0)
  | .qbcast h w d a p => some (encW 0x43 h d a 0 0 0 false false (w64Code w) ((0 : BitVec 30) ++ p))
  | .xlanePick h w s d a b =>
      some (encW 0x44 h d a b 0 0 false false (w64Code w) ((0 : BitVec 25) ++ s.code ++ (0 : BitVec 5)))
  | .xlaneLift h w s d a n => some (encW 0x45 h d a 0 0 0 false false (w64Code w) ((0 : BitVec 25) ++ s.code ++ n))
  | .xlaneDrop h w s d a n => some (encW 0x46 h d a 0 0 0 false false (w64Code w) ((0 : BitVec 25) ++ s.code ++ n))
  | .xlaneMirror h w s d a n => some (encW 0x47 h d a 0 0 0 false false (w64Code w) ((0 : BitVec 25) ++ s.code ++ n))
  | .scan h t o x d a => some (encW 0x48 h d a 0 0 0 false false t.code ((0 : BitVec 29) ++ bit x ++ o.code))
  | .sscan h t o x d a c => some (encW 0x49 h d a 0 (p8 c) 0 false false t.code ((0 : BitVec 29) ++ bit x ++ o.code))
  | .sred h t o d a b c => some (encW 0x4A h d a (p8 b) (p8 c) 0 false false t.code ((0 : BitVec 30) ++ o.code))
  | .ldG h t d m => some (encMem 0x50 h t d m)
  | .stG h t d m => some (encMem 0x51 h t d m)
  | .ldS h t d m => some (encMem 0x52 h t d m)
  | .stS h t d m => some (encMem 0x53 h t d m)
  | .cpGs h t d m => some (encMem 0x54 h t d m)
  | .ldx h t d m => some (encMem 0x55 h t d m)
  | .stx h t d m => some (encMem 0x56 h t d m)
  | .atom h t o s d a c m => some (encW 0x57 h d a m.b c 0 false false t.code (atomImm o s m))
  | .red h t o s a c m => some (encW 0x58 h 0 a m.b c 0 false false t.code (atomImm o s m))
  | .sched h d a b hd pr cn => some (encW 0x59 h d a b 0 0 false false 0 ((0 : BitVec 13) ++ bit cn ++ pr ++ hd))
  | .cancel h d a => some (encW 0x5A h d a 0 0 0 false false 0 0)
  | .acpyAr h d n c0 half tile =>
      some (encW 0x5B h d 0 0 0 0 false false 0 ((0 : BitVec 13) ++ n ++ c0 ++ bit half ++ tile))
  | .acpyRa h a n c0 half tile =>
      some (encW 0x5C h 0 a 0 0 0 false false 0 ((0 : BitVec 13) ++ n ++ c0 ++ bit half ++ tile))
  | _ => none

/-- The prefix word of a modifier prefix (R23). -/
def encModifier (r : Rnd) (sat ftz : Bool) : Word32 :=
  (2 : BitVec 2) ++ (1 : BitVec 4) ++ r.code ++ bit sat ++ bit ftz ++ (0 : BitVec 21)

/-- The prefix word of a `rep` prefix (R24). -/
def encRep (cnt : BitVec 8) (ds as bs : BitVec 2) (stride : BitVec 12) : Word32 :=
  (2 : BitVec 2) ++ (2 : BitVec 4) ++ cnt ++ ds ++ as ++ bs ++ stride

/-- A lane word as three 32-bit words, bits 31:0 first (R17). -/
def laneWords (w : Word96) : List Word32 := [w.extractLsb' 0 32, w.extractLsb' 32 32, w.extractLsb' 64 32]

/-- The words of a well-formed instruction in address order, prefixes first; none for a device step. -/
def encode : Instr → Option (List Word32)
  | .modifierPrefix r s f i => (encode i).map (encModifier r s f :: ·)
  | .repPrefix c ds as bs st i => (encode i).map (encRep c ds as bs st :: ·)
  | i => match encodeScalar i with
    | some ws => some ws
    | none => (encodeLane i).map laneWords

/-! ### Words of the manual's encodings (R20 to R42)

Each word is written out from the fields that the manual's tables give the instruction beside it. -/

theorem words_integer_1 : [
    [0x00166FC0], [0x00166FC1], [0x00166FC2], [0x00166FC3], [0x00166FC4], [0x00166FC5], [0x00166FC6], [0x00166FC7],
    [0x00166FC8], [0x00166FC9], [0x00166FCA], [0x00166FCB], [0x00166FCC], [0x00166FCD], [0x00166FCE], [0x00166FCF],
    [0x00166FD0], [0x00166FD1], [0x00166FD2], [0x00166FD3], [0x08269FFD], [0x0F269FFD], [0x09269FFD], [0x0A269FFD],
    [0x0B269FFD], [0x10269FFD], [0x11269FFD], [0x0C269025], [0x0D269025], [0x0E269025], [0x000420E7]
    ].map decodeScalar = [
    .ok (.add 5 38 63) 1,
    .ok (.sub 5 38 63) 1,
    .ok (.mul 5 38 63) 1,
    .ok (.mulhiS64 5 38 63) 1,
    .ok (.mulhiN64 5 38 63) 1,
    .ok (.divS64 5 38 63) 1,
    .ok (.divN64 5 38 63) 1,
    .ok (.remS64 5 38 63) 1,
    .ok (.remN64 5 38 63) 1,
    .ok (.and 5 38 63) 1,
    .ok (.or 5 38 63) 1,
    .ok (.xor 5 38 63) 1,
    .ok (.andn 5 38 63) 1,
    .ok (.shl 5 38 63) 1,
    .ok (.shr 5 38 63) 1,
    .ok (.sar 5 38 63) 1,
    .ok (.minS64 5 38 63) 1,
    .ok (.minN64 5 38 63) 1,
    .ok (.maxS64 5 38 63) 1,
    .ok (.maxN64 5 38 63) 1,
    .ok (.addImm 9 41 0xFFD) 1,
    .ok (.mulImm 9 41 0xFFD) 1,
    .ok (.andImm 9 41 0xFFD) 1,
    .ok (.orImm 9 41 0xFFD) 1,
    .ok (.xorImm 9 41 0xFFD) 1,
    .ok (.minS64Imm 9 41 0xFFD) 1,
    .ok (.maxS64Imm 9 41 0xFFD) 1,
    .ok (.shlImm 9 41 37) 1,
    .ok (.shrImm 9 41 37) 1,
    .ok (.sarImm 9 41 37) 1,
    .ok (.cmpCc .leN 1 2 3) 1] := by rfl

theorem words_integer_2 : [
    [0x41854018, 0x89ABCDEF],
    [0x42854018, 0x89ABCDEF],
    [0x43854018, 0x89ABCDEF],
    [0x44854018, 0x89ABCDEF]
    ].map decodeScalar = [
    .ok (.addLong 33 20 6 0x89ABCDEF) 2,
    .ok (.andLong 33 20 6 0x89ABCDEF) 2,
    .ok (.orLong 33 20 6 0x89ABCDEF) 2,
    .ok (.xorLong 33 20 6 0x89ABCDEF) 2] := by rfl

theorem words_moves_1 : [
    [0x01472000], [0x01472001], [0x01472002], [0x01472003], [0x01472004], [0x1247FFFE]
    ].map decodeScalar = [
    .ok (.mov 17 50) 1,
    .ok (.abs 17 50) 1,
    .ok (.clz 17 50) 1,
    .ok (.popc 17 50) 1,
    .ok (.brev 17 50) 1,
    .ok (.movi 17 0x3FFFE) 1] := by rfl

theorem words_moves_2 : [
    [0x4044003C, 0x80000001],
    [0x450420D0, 0x0000003C],
    [0x4604200D, 0x00002818],
    [0x4704200C, 0x00004000]
    ].map decodeScalar = [
    .ok (.moviLong 17 15 0x80000001) 2,
    .ok (.sel 1 2 3 4 60) 2,
    .ok (.bfx true 1 2 3 24 40) 2,
    .ok (.bfi 1 2 3 0 64) 2] := by rfl

theorem words_float_1 : [
    [0x02166FC0], [0x02166FC1], [0x02166FC2], [0x02166FC3], [0x020420CF], [0x020420D5], [0x021AC020], [0x021AC021],
    [0x021AC022], [0x021AC023], [0x021AC024], [0x021AC025], [0x021AC026], [0x021AC027], [0x021AC028], [0x021AC029]
    ].map decodeScalar = [
    .ok (.faddF64 5 38 63) 1,
    .ok (.faddF32 5 38 63) 1,
    .ok (.fmulF64 5 38 63) 1,
    .ok (.fmulF32 5 38 63) 1,
    .ok (.fcmpCcF64 .nan 1 2 3) 1,
    .ok (.fcmpCcF32 .ge 1 2 3) 1,
    .ok (.fcvtF32F64 6 44) 1,
    .ok (.fcvtF64F32 6 44) 1,
    .ok (.fcvtS64F64 6 44) 1,
    .ok (.fcvtN64F64 6 44) 1,
    .ok (.fcvtF64S64 6 44) 1,
    .ok (.fcvtF64N64 6 44) 1,
    .ok (.fcvtS64F32 6 44) 1,
    .ok (.fcvtN64F32 6 44) 1,
    .ok (.fcvtF32S64 6 44) 1,
    .ok (.fcvtF32N64 6 44) 1] := by rfl

theorem words_float_2 : [
    [0x480420D0, 0x0000003D],
    [0x490420D0, 0x0000003D]
    ].map decodeScalar = [
    .ok (.fmaF64 1 2 3 4 61) 2,
    .ok (.fmaF32 1 2 3 4 61) 2] := by rfl

theorem words_mask : [
    [0x0314A3C0], [0x0314A3C1], [0x0314A3C2], [0x0314A3C3], [0x0314A004], [0x0314A005], [0x03B4A006], [0x03B4A007],
    [0x0316D008], [0x0314B3C9]
    ].map decodeScalar = [
    .ok (.kand 5 10 15) 1,
    .ok (.kor 5 10 15) 1,
    .ok (.kxor 5 10 15) 1,
    .ok (.kandn 5 10 15) 1,
    .ok (.knot 5 10) 1,
    .ok (.kmov 5 10) 1,
    .ok (.kpop 45 10) 1,
    .ok (.kffs 45 10) 1,
    .ok (.kset 5 45) 1,
    .ok (.kball 5 11 15) 1] := by rfl

theorem words_prefix_words_2 : [
    [0x85A00000, 0x02166FC0],
    [0x8B21BFF8, 0x13042C00]
    ].map decodeScalar = [
    .ok (.modifierPrefix .ru false true (.faddF64 5 38 63)) 2,
    .ok (.repPrefix 200 1 2 3 0xFF8 (.ld .b64 1 2 0)) 2] := by rfl

theorem words_prefix_words_3 : [
    [0x88090000, 0x84400000, 0x00166FC0]
    ].map decodeScalar = [
    .ok (.repPrefix 2 1 0 0 0 (.modifierPrefix .rn true false (.add 5 38 63))) 3] := by rfl

theorem words_memory_1 : [
    [0x13304300], [0x14304D00], [0x15304B00], [0x16304500]
    ].map decodeScalar = [
    .ok (.ld .s8 12 4 0x100) 1,
    .ok (.st .b64 12 4 0x100) 1,
    .ok (.ldsp .s32 12 4 0x100) 1,
    .ok (.stsp .n16 12 4 0x100) 1] := by rfl

theorem words_memory_2 : [
    [0x4B30418C, 0x00001000],
    [0x4C30400C, 0x00001000],
    [0x4D3040CC, 0x00001000],
    [0x4E30410C, 0x00001000]
    ].map decodeScalar = [
    .ok (.ldLong .b64 12 4 3 0x1000) 2,
    .ok (.stLong .n8 12 4 3 0x1000) 2,
    .ok (.ldspLong .s16 12 4 3 0x1000) 2,
    .ok (.stspLong .n32 12 4 3 0x1000) 2] := by rfl

theorem words_control_1 : [
    [0x170C0040], [0x18003002], [0x19000ABC], [0x1A000123], [0x1B000020], [0x20FFFFFE], [0x21FFFFFE], [0x25FFFFFE],
    [0x26FFFFFE], [0x22A3FFFF], [0x23A00005], [0x24240005], [0x04000000], [0x04000002], [0x04000003], [0x04000004],
    [0x04015001]
    ].map decodeScalar = [
    .ok (.sysr 3 0x040) 1,
    .ok (.sysw 3 2) 1,
    .ok (.trap 0xABC) 1,
    .ok (.brk 0x123) 1,
    .ok (.lq 32) 1,
    .ok (.br 0xFFFFFE) 1,
    .ok (.call 0xFFFFFE) 1,
    .ok (.ljmp 0xFFFFFE) 1,
    .ok (.lcall 0xFFFFFE) 1,
    .ok (.bz 40 0x3FFFF) 1,
    .ok (.bnz 40 5) 1,
    .ok (.ball 9 5) 1,
    .ok (.ret) 1,
    .ok (.lret) 1,
    .ok (.exit) 1,
    .ok (.nop) 1,
    .ok (.jmpi 21) 1] := by rfl

theorem words_control_2 : [
    [0x4A0C8244, 0xFFFFFFF0]
    ].map decodeScalar = [
    .ok (.bCc .leS 8 9 1 0xFFFFFFF0) 2] := by rfl

theorem words_sync : [
    [0x05000000], [0x05000001], [0x05000002], [0x05000003], [0x05000004], [0x05000005], [0x05000006], [0x05021008],
    [0x05021009], [0x0502100A], [0x0502100B], [0x0584E010], [0x0584E011], [0x0584E012], [0x0584E013], [0x053A1014],
    [0x050420D8], [0x050420D9]
    ].map decodeScalar = [
    .ok (.fenceSc) 1,
    .ok (.fenceEng) 1,
    .ok (.fenceFabric) 1,
    .ok (.bar) 1,
    .ok (.barArrive) 1,
    .ok (.barWait) 1,
    .ok (.gbar) 1,
    .ok (.waitpLd 33) 1,
    .ok (.waitpSt 33) 1,
    .ok (.waitpSp 33) 1,
    .ok (.waitpGa 33) 1,
    .ok (.ftest 33 14) 1,
    .ok (.fwait 33 14) 1,
    .ok (.fcancel 33 14) 1,
    .ok (.fget 33 14) 1,
    .ok (.fput 14 33) 1,
    .ok (.swait 1 2 3) 1,
    .ok (.sdone 1 2 3) 1] := by rfl

theorem words_engine_1 : [
    [0x06000000], [0x06021001], [0x06021002]
    ].map decodeScalar = [
    .ok (.cclear) 1,
    .ok (.enough 33) 1,
    .ok (.itfree 33) 1] := by rfl

theorem words_engine_2 : [
    [0x501D8148, 0x00000002],
    [0x511D8008, 0xFFAF3480],
    [0x511D8649, 0x01813500],
    [0x520821C3, 0x70090605],
    [0x57080244, 0x00000403],
    [0x53089285, 0xFFEF8000],
    [0x540811C0, 0x13E00809],
    [0x55080000, 0x00000000],
    [0x56080000, 0x0000001F],
    [0x58089284, 0xFFFFFFC0],
    [0x59089284, 0x002CF3C8],
    [0x5A250004, 0x0006BEEF],
    [0x5B250004, 0x00000000]
    ].map decodeScalar = [
    .ok (.push .drover 7 24 5 2) 2,
    .ok (.mloop 7 24 0 2 false 511 .rd true true true 19 .ds8 128) 2,
    .ok (.mloop 7 24 25 2 true 3 .rn false false false 19 .f16 0) 2,
    .ok (.mdrain 2 0 true true true true true true true .ra 2 0 9 6 5) 2,
    .ok (.aset 2 9 1 3 32) 2,
    .ok (.cloop 2 9 10 1 true 2047 .i4 15) 2,
    .ok (.cdrain 2 0 true true true true true .rz 30 8 9) 2,
    .ok (.cmerge 2) 2,
    .ok (.cspill 2 31) 2,
    .ok (.itbind 2 9 10 1 0xFFFFFFC0) 2,
    .ok (.drvNext 2 9 10 1 200 3 15 44) 2,
    .ok (.schedScalar 9 16 1 0xBEEF 2 true) 2,
    .ok (.cancelScalar 9 16 1) 2] := by rfl

theorem words_lane_integer : let H : LaneHdr := ⟨3, true, 6, true, 9⟩
    [
    0x000A141E003B644000000000,
    0x010A141E003B640100000000,
    0x020A141E003B640100000000,
    0x030A141E003B640000000000,
    0x040A141E283B644100000000,
    0x050A1400003B644000000000,
    0x060A141E003B640100000000,
    0x070A141E003B640000000000,
    0x080A141E003B640200000000,
    0x090A141E003B640200000000,
    0x0A0A141E003B640200000000,
    0x0C0A141E003B640200000000,
    0x0D0A141E003B640200000000,
    0x0B0A141E283B640200000028,
    0x0E0A141E003B640000000000,
    0x0F0A141E003B640500000000,
    0x100A1400003B640000001808,
    0x110A1400003B640200002000,
    0x120A1400003B640200000000,
    0x130A1400003B640200000000,
    0x140A1400003B640200000000
    ].map decodeLane = [
    some (.iadd H .s32 true 10 20 30),
    some (.isub H .n32 false 10 20 30),
    some (.imul H .n32 10 20 30),
    some (.imulhi H .s32 10 20 30),
    some (.imad H .n32 true 10 20 30 40),
    some (.iabs H true 10 20),
    some (.imin H .n32 10 20 30),
    some (.imax H .s32 10 20 30),
    some (.laneAnd H 10 20 30),
    some (.laneOr H 10 20 30),
    some (.laneXor H 10 20 30),
    some (.laneShl H 10 20 30),
    some (.laneShr H 10 20 30),
    some (.bmux H 10 20 30 40 0x28),
    some (.laneSar H 10 20 30),
    some (.iadd64 H 10 20 30),
    some (.laneBfx H .s32 10 20 8 24),
    some (.laneBfi H 10 20 0 32),
    some (.lanePopc H 10 20),
    some (.laneClz H 10 20),
    some (.laneBrev H 10 20)] := by rfl

theorem words_lane_compare : let H : LaneHdr := ⟨3, true, 6, true, 9⟩
    [
    0x180B141E003B640400000004,
    0x190B141E003B640900000006,
    0x1A01020F003B640000000000,
    0x1B01020F003B640000000000,
    0x1C01020F003B640000000000,
    0x1D010200003B640000000000,
    0x1E0A141E0B3B640500000000,
    0x1F010200003B640000000000,
    0x1F01C800003B640000000001,
    0x1FC80000003B640000000002,
    0x1F00C800003B640000000003,
    0x380B1500003B640200000000,
    0x390B0000003B6402DEADBEEF,
    0x3A0B0000003B640000000006
    ].map decodeLane = [
    some (.icmpCc H .n64 .gt 11 20 30),
    some (.fcmpCc H .f64 .num 11 20 30),
    some (.pand H 1 2 15),
    some (.por H 1 2 15),
    some (.pxor H 1 2 15),
    some (.pnot H 1 2),
    some (.laneSel H true 10 20 30 11),
    some (.pmov H 1 2),
    some (.pmovFromVreg H 1 200),
    some (.pmovToVreg H 200),
    some (.pmovAll H 200),
    some (.laneMov H false 11 21),
    some (.laneMovi H 11 0xDEADBEEF),
    some (.evinfo H .hdr 11)] := by rfl

theorem words_lane_float : let H : LaneHdr := ⟨3, true, 6, true, 9⟩
    [
    0x200A141E003B660700000001,
    0x210A141E003B648800000001,
    0x220A141E003B650900000001,
    0x230A141E283B658600000000,
    0x240A141E003B640900000000,
    0x250A141E003B640900000000,
    0x260A141E003B640900000000,
    0x270A141E003B640900000000,
    0x280A1400003B640900000000,
    0x2A0A1400003B640600000000,
    0x290A1400003B640600000000,
    0x2B0A1400003B640600000000,
    0x2C0A1400003B640600000000,
    0x2D0A1400003B640600000000,
    0x2E0A1400003B640600000000,
    0x300A141E283B64AB00000000,
    0x310A141E283B640E00000001,
    0x320A141E283B644100000000,
    0x330A141E283B658F0000000E,
    0x340A1400063B66CA00000000
    ].map decodeLane = [
    some (.fadd H .f16x2 .ra true 10 20 30),
    some (.fsub H .bf16x2 .rz true 10 20 30),
    some (.fmul H .f64 .rd true 10 20 30),
    some (.fma H .f32 .ru false 10 20 30 40),
    some (.fminNum H .f64 10 20 30),
    some (.fminNan H .f64 10 20 30),
    some (.fmaxNum H .f64 10 20 30),
    some (.fmaxNan H .f64 10 20 30),
    some (.frcp H .f64 10 20),
    some (.fsqrt H .f32 10 20),
    some (.frsq H 10 20),
    some (.fex2 H 10 20),
    some (.flg2 H 10 20),
    some (.fsin H 10 20),
    some (.fcos H 10 20),
    some (.fdot16 H true .rz true false 10 20 30 40),
    some (.ddot16 H .rn false true 10 20 30 40),
    some (.idot4 H .n32 true 10 20 30 40),
    some (.scacc H true .ru 10 20 30 40 2 3),
    some (.cvt H .e4m3 .f32 .rs true 10 20 0)] := by rfl

theorem words_lane_exchange : let H : LaneHdr := ⟨3, true, 6, true, 9⟩
    [
    0x400A1400003B640500000000,
    0x410A1400003B640500000000,
    0x420A1400003B640500000000,
    0x430A1400003B640200000003,
    0x440A141E003B640200000040,
    0x450A1400003B64020000001F,
    0x460A1400003B640500000029,
    0x470A1400003B640200000062,
    0x480A1400003B640600000006,
    0x490A1400053B640100000001,
    0x4A0A1405063B640000000000
    ].map decodeLane = [
    some (.qswapH H true 10 20),
    some (.qswapV H true 10 20),
    some (.qswapD H true 10 20),
    some (.qbcast H false 10 20 3),
    some (.xlanePick H false .w8 10 20 30),
    some (.xlaneLift H false .w32 10 20 31),
    some (.xlaneDrop H true .w16 10 20 9),
    some (.xlaneMirror H false .w4 10 20 2),
    some (.scan H .f32 .max true 10 20),
    some (.sscan H .n32 .min false 10 20 5),
    some (.sred H .s32 .add 10 20 5 6)] := by rfl

theorem words_lane_memory : let H : LaneHdr := ⟨3, true, 6, true, 9⟩
    [
    0x500C0402073B6406FFFFFFF0,
    0x510D0402073B6402FFFFFFF0,
    0x520D0402073B6401FFFFFFF0,
    0x530E0402073B6405FFFFFFF0,
    0x540D0402073B6405FFFFFFF0,
    0x550D0402073B6404FFFFFFF0,
    0x560D0402073B6400FFFFFFF0,
    0x570C0E03103B640580001BC7,
    0x58000503003B640000101AB2,
    0x590A141E003B640000071234,
    0x5A0B1400003B640000000000,
    0x5B0A0000003B64000004003F,
    0x5C000A00003B640000005EC7
    ].map decodeLane = [
    some (.ldG H .b128 12 ⟨4, true, 2, 3, 0xFFFFFFF0⟩),
    some (.stG H .n16 13 ⟨4, true, 2, 3, 0xFFFFFFF0⟩),
    some (.ldS H .s8 13 ⟨4, true, 2, 3, 0xFFFFFFF0⟩),
    some (.stS H .b64 14 ⟨4, true, 2, 3, 0xFFFFFFF0⟩),
    some (.cpGs H .b64 13 ⟨4, true, 2, 3, 0xFFFFFFF0⟩),
    some (.ldx H .b32 13 ⟨4, true, 2, 3, 0xFFFFFFF0⟩),
    some (.stx H .n8 13 ⟨4, true, 2, 3, 0xFFFFFFF0⟩),
    some (.atom H .b64 .cas .fabric 12 14 16 ⟨6, true, 3, 3, 0xFFFF8000⟩),
    some (.red H .s32 .max .cluster 5 0 ⟨6, true, 3, 2, 16⟩),
    some (.sched H 10 20 30 0x1234 3 true),
    some (.cancel H 11 20),
    some (.acpyAr H 10 64 0 true 31),
    some (.acpyRa H 10 5 59 false 7)] := by rfl

/-! ### The opcode table's numbering -/

/-- The instruction the decoder reads from an instruction whose bits are `w`, numbered as the opcode table numbers them:
the words of `w`, the first in the low bits, followed by words of zeros. -/
def decodeTableWord (_nbits w : Nat) : Option Instr :=
  match decodeScalar [BitVec.ofNat 32 w, BitVec.ofNat 32 (w / 2 ^ 32), BitVec.ofNat 32 (w / 2 ^ 64), 0] with
  | .ok i _ => some i
  | _ => none

end Sys2Proof
end

