-- ==== Sys2Proof/Machine/Flags.lean ====
section
/-! DEFINITION. The flags of `%fpflags` (R68) and the clamps of the saturating integer forms (R53, R81, R107, R120). -/

namespace Sys2Proof.Machine

/-- Invalid. -/
abbrev flNV : Word32 := 1
/-- Division by zero. -/
abbrev flDZ : Word32 := 2
/-- Overflow. -/
abbrev flOF : Word32 := 4
/-- Underflow. -/
abbrev flUF : Word32 := 8
/-- Inexact. -/
abbrev flNX : Word32 := 16
/-- A clamp under saturation changed a value. -/
abbrev flSAT : Word32 := 32
/-- A DS8 poison operand reached a dot product, matrix loop or conversion. -/
abbrev flPSN : Word32 := 64
/-- The flag bits that `%fpflags` holds; bits 31:7 are reserved and read zero. -/
abbrev flMask : Word32 := 0x7F

/-- A flag when a condition holds. -/
def flagIf (c : Bool) (f : Word32) : Word32 := if c then f else 0

/-- The least and the greatest value of an integer type (R53). -/
def intRange (signed : Bool) (w : Nat) : Int × Int :=
  if signed then (-(2 ^ (w - 1) : Nat), (2 ^ (w - 1) : Nat) - 1) else (0, (2 ^ w : Nat) - 1)

/-- An exact result clamped to an integer type's range, with the sat flag when the clamp changed it (R53). -/
def clampInt (signed : Bool) (w : Nat) (x : Int) : BitVec w × Word32 :=
  let (lo, hi) := intRange signed w
  if x < lo then (BitVec.ofInt w lo, flSAT) else if hi < x then (BitVec.ofInt w hi, flSAT) else (BitVec.ofInt w x, 0)

/-- An exact result wrapped, or clamped when `sat` (R53). -/
def intResult (sat signed : Bool) (w : Nat) (x : Int) : BitVec w × Word32 :=
  if sat then clampInt signed w x else (BitVec.ofInt w x, 0)

/-- An operand read as signed or unsigned. -/
def asInt (signed : Bool) {w : Nat} (x : BitVec w) : Int := if signed then x.toInt else x.toNat

end Sys2Proof.Machine
end

