-- ==== Sys2Proof/Machine/State.lean ====
section
/-! DEFINITION. The state of the machine as plain data: groups, bands, cores, journeys, rooms, the hub and memory, the
reasons a step can stop, and the state right after reset. Each field's docstring names the rule that gives it. -/

namespace Sys2Proof.Machine

/-- Reasons a step can stop with a fault: there are none. Every trap and error of the spec is a recorded next state, and where the spec
calls a behaviour undefined it still allows an effect (R271). -/
inductive Fault where
deriving DecidableEq, Repr

/-- Reasons a step can be refused. -/
inductive Refusal where
  /-- Raised by an arm of `exec` that has no meaning yet. Safe: the machine stops where the hardware goes on. -/
  | notModelled (mnemonic : String)
deriving DecidableEq, Repr, Inhabited

/-- A map from numbers, kept as pairs with rising keys and without entries at the default value. -/
abbrev SMap (α : Type) := List (Nat × α)

/-- Coherent memory: bytes by pool physical address; an unlisted byte reads 0 (assumption 3). -/
abbrev Memory := List Host.Cell

/-! ### Groups -/

/-- A future register (R147): empty, holding an operation's token, or stale. The states pending, done, failed and
cancelled are the operation's, which the core's table holds once. -/
inductive Future where
  | empty
  | held (token : Word64)
  | stale (token : Word64)
deriving DecidableEq, Repr, Inhabited

/-- A translation as a last-page register (R177) or the TLB (R341) holds it: virtual page number, size, frame, permissions, the
journey's context tag, and the generation of the room's tables. -/
structure PageReg where
  vpn : Nat
  size : BitVec 2
  r : Bool
  w : Bool
  x : Bool
  window : Bool
  target : Word64
  tag : Word32
  gen : Nat := 0
deriving DecidableEq, Repr, Inhabited

/-- A lane-queue entry (R136, R137, R170): the word, its address and its `lq`'s, the captured mask and base, and the lanes
that have not finished when it is parked. -/
structure LqEnt where
  ins : Instr
  addr : Word64
  lqAddr : Word64
  mask : Word32
  base : Word64
  todo : Word32 := 0xFFFFFFFF
  /-- Its count, once it has one (R179). -/
  acc : Option Nat := Option.none
  /-- Lanes of a `.b128` word whose lower 8-byte access has been performed (R319). -/
  lows : Word32 := 0
  /-- The translations that its lanes share, once some of them have been performed (R343). -/
  pages : List PageReg := []
  /-- The lane registers that it read when it issued, once it has parked or performed a part (R45, R137). -/
  kept : List (Nat × Vector Word32 32) := []
deriving DecidableEq, Repr, Inhabited

/-- An event record (R285) with its full acceptance sequence (R286) and its handle (R287). -/
structure Event where
  time : Word64
  handler : BitVec 16
  prio : BitVec 2
  gang : Bool
  canc : Bool
  entity : Word32
  tie : Word32
  seq : Word64
  payload : List Word32
  handle : Word64
  home : Nat
  tier : BitVec 2
deriving DecidableEq, Repr, Inhabited

/-- A counted access in flight (R178, R179): its path, whether it is finished, and the copy or fence it stands for. -/
structure Acc where
  path : Path
  fin : Bool
  tag : Nat
deriving DecidableEq, Repr, Inhabited

/-- A request sent apart from the instruction (R176, R188, R348): what it does at its address, and the lane register that
waits for it. -/
inductive ReqKind where
  | atom (op : AOp) (ty : ATy) (v cmp : Word64) (dst : Option VReg)
  | load (ty : MTy) (dst : VReg)
  | store (bytes : List Byte)
  | scalarLoad (w : SWidth) (dst : SReg)
deriving DecidableEq, Repr, Inhabited

/-- The unit that performs an outstanding request: an Ostler, the Porter, or a peer device. -/
inductive ReqAgent where
  | ostler (cluster : Nat)
  | porter
  | peer (id : Nat) (window : Nat)
deriving DecidableEq, Repr, Inhabited

/-- One outstanding lane request of a group (R176, R188, R348). -/
structure Req where
  core : Nat
  slot : Nat
  lane : Nat
  agent : ReqAgent
  pa : Nat
  va : Word64
  kind : ReqKind
  acc : Nat
  iaddr : Word64
  waddr : Word64
  /-- Destination registers that another instruction of an open window keeps (R45). -/
  lost : List Nat := []
  /-- A window lane of `ldx` or `stx`: it takes a place among the Porter's (R176). -/
  ported : Bool := false
  /-- Sent by a scalar instruction, not by a lane word. -/
  scalar : Bool := false
deriving DecidableEq, Repr, Inhabited

/-- The guard record of a group (R166, R167). -/
structure Guard where
  waddr : Word64
  lqAddr : Word64
  lane : Nat
  off : Word64
  kind : BitVec 2
  further : Nat
deriving DecidableEq, Repr, Inhabited

/-- A register that an open lookahead window may still show at its old value, with the count of the load that fills it, where a
peer has still to answer (R45). -/
structure WinS where
  reg : SReg
  old : Word64
  left : Nat
  acc : Option Nat := Option.none
deriving DecidableEq, Repr, Inhabited

/-- The same for a lane register: the 32 old lane values. -/
structure WinV where
  reg : VReg
  old : Vector Word32 32
  left : Nat
  acc : Option Nat := Option.none
deriving DecidableEq, Repr, Inhabited

/-- The same for a predicate: its old lane mask. -/
structure WinP where
  reg : PReg
  old : Word32
  left : Nat
deriving DecidableEq, Repr, Inhabited

/-- The operand-collector latch (R119): first register, count, and the registers of all 32 lanes. -/
structure Latch where
  first : Nat
  count : Nat
  regs : List (Vector Word32 32)
deriving DecidableEq, Repr, Inhabited

/-- Modifiers of the prefix in effect (R23). -/
structure Mods where
  rnd : Rnd := .rn
  sat : Bool := false
  ftz : Bool := false
deriving DecidableEq, Repr, Inhabited

/-- A translation failure that waits for the Innkeeper (R343): its code, address, access and lanes. -/
structure Park where
  code : Nat
  va : Word64
  lane : Nat
  access : BitVec 3
  atAddr : Word64
  recorded : Bool := false
  /-- The cause has been removed: the instruction may replay (R343, R345). -/
  ready : Bool := false
deriving DecidableEq, Repr, Inhabited

/-- A handler table entry (R311). -/
structure Handler where
  id : BitVec 16 := 0
  sbase : Word64 := 0
  ssize : Word32 := 0
  sentry : Word32 := 0
  lbase : Word64 := 0
  lsize : Word32 := 0
  lentry : Word32 := 0
  scratch : Word32 := 0
  lregs : BitVec 5 := 0
  sregs : BitVec 7 := 64
  band : BitVec 4 := 0
  gang : BitVec 3 := 0
  carve : BitVec 3 := 0
  prio : BitVec 2 := 0
  glat : Bool := false
  tiles : BitVec 6 := 0
  counts : Bool := false
  valid : Bool := false
deriving DecidableEq, Repr, Inhabited

/-- What holds a group (R98, R166, R344, R405). -/
inductive Hold where
  | none
  | trap (next : Bool)
  | guard
  /-- At a `brk`, for the session (R99); `next` until the session writes the scalar PC (R406). -/
  | brk (next : Bool)
deriving DecidableEq, Repr, Inhabited

/-- The lane word being issued: captured mask and base, unfinished lanes, its address and its `lq`'s, its count, the accesses
that a plain memory word performs now, counted from its first lane's (MODEL'S OWN), and what its queue entry holds of an earlier
part. -/
structure ICtx where
  mask : Word32 := 0
  base : Word64 := 0
  todo : Word32 := 0xFFFFFFFF
  addr : Word64 := 0
  lqAddr : Word64 := 0
  acc : Option Nat := Option.none
  part : Nat := 64
  lows : Word32 := 0
  pages : List PageReg := []
  kept : List (Nat × Vector Word32 32) := []
deriving DecidableEq, Repr, Inhabited

/-- The count of a parked scalar access, and the address and store data that it read when it issued (R179, R45). -/
structure ScAcc where
  tag : Nat
  addr : Word64
  data : Word64
deriving DecidableEq, Repr, Inhabited

/-- Scalar instructions past a parked load, inside its window (R48): how many may still issue and how many have, the load's
destination and address, and during its replay the PC to go on from. -/
structure Ahead where
  left : Nat := 0
  gone : Nat := 0
  reg : SReg := 0
  from' : Option Word64 := Option.none
  back : Option Word64 := Option.none
deriving DecidableEq, Repr, Inhabited

/-- One group (R133, R154, R178): registers, queues, special registers and standing. -/
structure Group where
  /-- Place: device core and group slot (R154). -/
  core : Nat := 0
  slot : Nat := 0
  /-- Band slot on the core, index in the band, groups in the band (R154 `%band`). -/
  band : Nat := 0
  idx : Nat := 0
  size : Nat := 1
  /-- `%gang` (R154). -/
  gang : Word32 := 0
  journey : Nat := 0
  room : Nat := 0
  /-- Copy of the handler table entry (R311). -/
  handler : Handler := {}
  /-- Scalar PC, lane PC, `%llink` (R133). -/
  spc : Word64 := 0
  lpc : Word64 := 0
  llink : Word64 := 0
  /-- `s0`–`s63`; element 0 is never read (R75). -/
  s : Vector Word64 64 := Vector.replicate 64 0
  /-- `v0`–`v255`, 32 lanes each (R101). -/
  v : Vector (Vector Word32 32) 256 := Vector.replicate 256 (Vector.replicate 32 0)
  /-- `p0`–`p11` as lane masks (R101). -/
  p : Vector Word32 12 := Vector.replicate 12 0
  /-- `k1`–`k15`; `k0` is given by the event count (R123). -/
  k : Vector Word32 16 := Vector.replicate 16 0
  /-- `f0`–`f15` (R147). -/
  f : Vector Future 16 := Vector.replicate 16 .empty
  lq : List LqEnt := []
  latch : Option Latch := Option.none
  fpflags : Word32 := 0
  repi : BitVec 9 := 0
  /-- Stochastic state of each lane (R62). -/
  stoch : Vector Word32 32 := Vector.replicate 32 1
  /-- Event lanes: number of events (R123), their records (R298). -/
  nev : Nat := 0
  events : List Event := []
  /-- Index of the group among its handler's groups of the round (R298 rank). -/
  rank : Nat := 0
  span0 : Word64 := 0
  spanw : Word64 := 0
  round : Word32 := 0
  /-- Counted accesses, oldest first (R178, R179), and the count of a parked scalar access. -/
  acc : List Acc := []
  scAcc : Option ScAcc := Option.none
  guard : Option Guard := Option.none
  /-- Pending arrival at the band barrier and at the gang barrier (R183, R185). -/
  arrB : Option Nat := Option.none
  arrG : Option Nat := Option.none
  hold : Hold := .none
  park : Option Park := Option.none
  lpark : Option Park := Option.none
  /-- What stands past a parked scalar load (R48). -/
  ahead : Ahead := {}
  /-- Lane words that have issued past the parked head (R48). -/
  past : Nat := 0
  halted : Bool := false
  haltReq : Bool := false
  /-- Passed the breakpoint check at the instruction at `spc` (R405): the next one is made at the next instruction. -/
  passed : Bool := false
  /-- MODEL'S OWN: the barrier at `spc` has made its arrival, or the `rep` there has performed repetitions in one go; the `lq` there has
  passed its lane-PC breakpoint; the engine instruction there has waited for a pending future (R148). -/
  mid : Bool := false
  lqPassed : Bool := false
  waited : Bool := false
  /-- Created at dispatch with a matching watchpoint, or by `sched` (R407). -/
  watchHit : Bool := false
  dead : Bool := false
  /-- Wait code of R409. -/
  wait : BitVec 4 := 0
  pages : List (Nat × PageReg) := []
  winS : List WinS := []
  winV : List WinV := []
  winP : List WinP := []
  /-- MODEL'S OWN: the instruction being executed. -/
  insAddr : Word64 := 0
  insLen : Nat := 0
  md : Mods := {}
  repOff : Word64 := 0
  repped : Bool := false
  ictx : ICtx := {}
deriving DecidableEq, Repr, Inhabited

/-! ### Bands and cores -/

/-- A Drover item: one or two components and a head mark (R208, R211). -/
structure Item where
  a : Word32
  b : Word32
  head : Bool
deriving DecidableEq, Repr, Inhabited

/-- One adaptor slot of a stack (R206): its seven words, and the exact cursor of a source (R208). -/
structure DSlot where
  w : List Word32
  cur : Int := 0
deriving DecidableEq, Repr, Inhabited

/-- A bound stack (R202 to R206): band stack index, ISB offset, arity, state, counters, slots, staging, the head mark that
waits for the next surviving item, the ISB offset of its parent, its children's indexes, the failed load, whether a store
has met its block (R203), and the tags of the drains it has served (R220). -/
structure Stack where
  index : Nat
  isb : Nat
  arity2 : Bool
  state : BitVec 3
  produced : Nat
  top : Nat
  slots : List DSlot
  staged : List Item
  /-- MODEL'S OWN: items obtained from it so far; it tells the undefined ones apart. -/
  drawn : Nat := 0
  phead : Bool := false
  parent : Option Nat
  kids : List Nat
  faddr : Word64 := 0
  fslot : Nat := 0
  fcause : Nat := 0
  spoiled : Bool := false
  drained : List Nat := []
deriving DecidableEq, Repr, Inhabited

/-- A source load that the Drover has made (R221, R222): its stack, slot and address, its value, and how many operations after the next
one to end may still use it. -/
structure SrcLoad where
  stack : Nat
  slot : Nat
  va : Word64
  val : Word32
  left : Nat
deriving DecidableEq, Repr, Inhabited

/-- Items staged ahead for a stack (R216, R221): how many operations after the next one to end may still take them, and the tree's stacks
as they stood before the first of them and behind each. -/
structure Staging where
  top : Nat
  left : Nat
  base : List Stack
  after : List (List Stack)
deriving DecidableEq, Repr, Inhabited

/-- The state of a counting array that a band holds (R251). -/
structure Counting where
  cnt : SMap (BitVec 16) := []
  depth : Nat := 0
  nspill : Nat := 0
  fmt : Option CFmt := Option.none
  extent : Nat := 0
  sbase : Nat := 0
  /-- The counter that an error has struck: the next operation that reads it fails (R264). -/
  parity : Option Nat := Option.none
  undefd : Bool := false
deriving DecidableEq, Repr, Inhabited

/-- A copy of `cp.gs` in flight (R174): group slot, lane, pool address or window, scratch offset, size, access tag. -/
structure Copy where
  slot : Nat
  lane : Nat
  pa : Nat
  window : Bool
  dst : Int
  size : Nat
  tag : Nat
  va : Word64
  lqAddr : Word64
  waddr : Word64
  /-- The step in which it was issued (MODEL'S OWN). -/
  born : Nat := 0
deriving DecidableEq, Repr, Inhabited

/-- A phase of a band's or a gang's barrier (R183, R185). -/
inductive BarPhase where
  | band (core slot phase : Nat)
  | gang (num phase : Nat)
deriving DecidableEq, Repr, Inhabited

/-- A byte written by an engine or a copy (R323): its earlier value, the operation's tag, the groups that have acquired it, whether any
ever has (R324, R326), the barrier phases in which such a group has arrived, and whether its line has been published since (R331). -/
structure Unacq where
  addr : Nat
  old : Byte
  tag : Nat
  seen : List (Nat × Nat) := []
  acq : Bool := false
  rel : List BarPhase := []
  pub : Bool := false
deriving DecidableEq, Repr, Inhabited

/-- A ring fill waiting to be published (R273): ring block offset, number, type. -/
structure Fill where
  ring : Nat
  n : Nat
  eos : Bool
deriving DecidableEq, Repr, Inhabited

/-- One band on a core (R353): its holdings. -/
structure Band where
  core : Nat := 0
  slot : Nat := 0
  journey : Nat := 0
  room : Nat := 0
  handler : Handler := {}
  /-- Member group slots still living, in band order, and the number of groups it held (R183, R360). -/
  members : List Nat := []
  size : Nat := 1
  /-- Its index in its round (R302, R357). -/
  ord : Nat := 0
  gang : Word32 := 0
  gangBands : List (Nat × Nat) := []
  /-- Band slots at earlier saves, for tokens (R369). -/
  aliases : List Nat := []
  /-- Placement (R353): first register unit of each group, scratch granule, tile. -/
  regUnits : List (Nat × Nat) := []
  granule : Nat := 0
  tile0 : Nat := 0
  /-- Scratchpad allocation: coherent view, wide-port view, write queue (R161, R175, R238). -/
  spm : Memory := []
  wide : Memory := []
  wq : List (Nat × Byte) := []
  unacq : List Unacq := []
  /-- Stores that win over a later write of an operation already under way: address and step (R324). -/
  kept : List (Nat × Nat) := []
  copies : List Copy := []
  tiles : SMap Word32 := []
  counting : Counting := {}
  /-- Band barrier: phase and arrived groups (R183). -/
  phase : Nat := 0
  arrived : List Nat := []
  dstacks : List Stack := []
  srcLoads : List SrcLoad := []
  staging : List Staging := []
  stackGen : SMap Word32 := []
  fills : List Fill := []
  /-- Rings that have been named, each with the number that is published next (R273), and those overwritten while in use (R271). -/
  rings : List (Nat × Nat) := []
  broken : List Nat := []
  /-- Number of its placement command, 0 where its leaf takes placements without one (R417). -/
  cmd : Nat := 0
deriving DecidableEq, Repr, Inhabited

/-- State of an engine operation (R147). -/
inductive OpState where
  | pending | done | failed (cause : BitVec 16) | cancelled
deriving DecidableEq, Repr, Inhabited

/-- An operation slot of a core in use (R153): the operation a token names, the registers it writes. -/
structure Op where
  slot : Nat
  gen : BitVec 16
  band : Nat
  group : Nat
  st : OpState
  dstV : List VRange
  dstP : List PReg
  dstS : List SReg
  iaddr : Word64
  /-- The step in which it was issued (MODEL'S OWN). -/
  born : Nat := 0
  fl : Word32 := 0
  /-- The engine has answered a cancel with no (R151). -/
  noCancel : Bool := false
  /-- A suspended access waits for the Innkeeper (R222, R282). -/
  park : Option Park := Option.none
  /-- Slot and generation of its token where a restore has moved it (R369). -/
  oldTok : Option Nat := Option.none
deriving DecidableEq, Repr, Inhabited

/-- Operations of the engine queue: matrix and counting (R232, R241, R245, R254 to R260). -/
inductive EngCmd where
  | mloop (aReg : Option (List (Vector Word32 32))) (areg aOff : Nat) (aInc : Int) (bOff : Nat) (bInc : Int) (steps : Nat)
      (rnd : Rnd) (ftz tstep : Bool) (tile : Nat) (fmt : MFmt)
  | mdrain (lanes half e8 rs cs clear ftz : Bool) (rnd : Rnd) (vd dtile stile cv rv : Nat)
  | aset (tile count : Nat) (v : Word32)
  | cloop (aOff : Nat) (aInc : Int) (bOff : Nat) (bInc : Int) (split : Bool) (steps rows : Nat) (fmt : CFmt)
  | cdrain (pairs e8 rs cs ftz : Bool) (rnd : Rnd) (dtile cv rv : Nat) (before : Counting)
  | cmerge
  | cspill (tile : Nat) (first : Bool) (extent : Nat) (before : Counting)
  | cclear
deriving DecidableEq, Repr, Inhabited

/-- An entry of the engine queue in accumulator order (R239): its operation slot if any, its band and group, the lane
registers it still reads, and whether one of them, or a tile element, was written meanwhile (R237, R240, R242). -/
structure EngEnt where
  op : Option Nat
  band : Nat
  group : Nat
  cmd : EngCmd
  srcV : List VRange
  spoiled : Bool := false
  /-- Its A block became the latch, came from the latch, and whether its completion empties the latch (R236). -/
  loads : Bool := false
  fromLatch : Bool := false
  empties : Bool := false
deriving DecidableEq, Repr, Inhabited

/-- A Drover operation in a stack's order (R218): bind, pull, drain or ending. -/
inductive DrvCmd where
  | bind (index : Nat)
  | pull (index : Nat) (lanes : Word32) (vd : VReg) (pd ph : PReg) (sc : SReg)
  | drain (index : Option Nat) (cmd : List Word64)
  | ending (index : Nat)
deriving DecidableEq, Repr, Inhabited

/-- An entry of the Drover's order, with the items it has taken so far (R222), and how many of them a drain has written; an ending has no
operation. -/
structure DrvEnt where
  op : Option Nat
  band : Nat
  group : Nat
  cmd : DrvCmd
  got : List Item := []
  wrote : Nat := 0
deriving DecidableEq, Repr, Inhabited

/-- A well-formed ring control block (R271, R272). -/
structure Ring where
  off : Nat
  slots : Nat
  out : Bool
  sbytes : Nat
  doff : Nat
  claim : Nat
  take : Nat
deriving DecidableEq, Repr, Inhabited

/-- A stream-engine command (R278): its operation slot, its eight registers, and once started its claimed numbers and the
next box (R279, R283). -/
structure SeCmd where
  op : Nat
  band : Nat
  group : Nat
  regs : List Word64
  started : Bool := false
  first : Nat := 0
  count : Nat := 0
  next : Nat := 0
  fl : Word32 := 0
  /-- The layout record as read at the start (R268). -/
  lay : List Byte := []
  /-- The ring as its block was read at the start (R271, R279). -/
  ring : Option Ring := Option.none
  /-- Elements of the next box already read (R281), or how many have been written. -/
  elems : List (List Byte) := []
  put : Nat := 0
  /-- Elements read ahead of their turn, each by its address (R281). -/
  pre : List (Word64 × List Byte) := []
deriving DecidableEq, Repr, Inhabited

/-- A TLB entry (R341). -/
structure TlbEnt where
  journey : Nat
  page : PageReg
deriving DecidableEq, Repr, Inhabited

/-- One core that has held work (R153, R160, R202, R239, R267, R341). -/
structure Core where
  num : Nat := 0
  carve : BitVec 3 := 0
  /-- Operations in use, and the generation of each slot, 1 at reset (R153). -/
  ops : List Op := []
  gens : SMap (BitVec 16) := []
  eng : List EngEnt := []
  drv : List DrvEnt := []
  se0 : List SeCmd := []
  se1 : List SeCmd := []
  tlb : List TlbEnt := []
  /-- What `%cycle` read last on the core: it need not agree with S (R320). -/
  clock : Nat := 0
deriving DecidableEq, Repr, Inhabited

/-! ### Journeys -/

/-- A translation table entry (R336). -/
structure Pte where
  vpn : Nat
  size : BitVec 2
  r : Bool
  w : Bool
  x : Bool
  window : Bool
  target : Word64
deriving DecidableEq, Repr, Inhabited

/-- A table descriptor (R337) with the entries of its three ways, keyed by their pool physical addresses. -/
structure TableDesc where
  base : Word64 := 0
  lgn : Nat := 0
  live : Bool := false
  key : Word64 := 0
  cursor : Nat := 0
  slots : List (Nat × Pte) := []
deriving DecidableEq, Repr, Inhabited

/-- One page size's table: current and old descriptor (R337). -/
structure Table where
  cur : TableDesc := {}
  old : TableDesc := {}
deriving DecidableEq, Repr, Inhabited

/-- A handle entry in use (R288): core and entry index, generation, and whether a round has selected its event. -/
structure HandleEnt where
  core : Nat
  entry : Nat
  gen : BitVec 24
  dispatched : Bool
deriving DecidableEq, Repr, Inhabited

/-- A window table entry (R348). -/
structure Window where
  idx : Nat
  peer : BitVec 16
  islot : BitVec 16
  key : Word64
deriving DecidableEq, Repr, Inhabited

/-- A band waiting in a journey's dispatch queue (R355): its handler, groups of events, gang marking. -/
structure QBand where
  handler : Handler
  groups : List (Nat × List Event)
  gang : Word32
deriving DecidableEq, Repr, Inhabited

/-- An item of the dispatch queue: one band, or a gang's bands (R355, R358). -/
structure QItem where
  bands : List QBand
deriving DecidableEq, Repr, Inhabited

/-- A gang barrier (R185): gang number, its bands, phase and arrivals (core, slot). -/
structure GangBar where
  num : Nat
  bands : List (Nat × Nat)
  phase : Nat
  arrived : List (Nat × Nat)
deriving DecidableEq, Repr, Inhabited

/-- A queued write-back (R331): the line and the fence that queued it. -/
structure WriteBack where
  line : Nat
  fence : Nat
deriving DecidableEq, Repr, Inhabited

/-- A `fence.fabric` whose write-backs are not all performed (R331, R332): its group and place, its count, and the
write-backs already queued for its lines, which go before its own; those of other journeys stand with the journey's number. -/
structure FenceRec where
  id : Nat
  core : Nat
  group : Nat
  band : Nat
  iaddr : Word64
  span0 : Word64
  round : Word32
  acc : Nat
  after : List WriteBack
  abroad : List (Nat × WriteBack)
deriving DecidableEq, Repr, Inhabited

/-- A group placed and waiting for its dispatch (R133, R353). -/
structure Seat where
  core : Nat
  slot : Nat
  band : Nat
  idx : Nat
  rank : Nat
  events : List Event
deriving DecidableEq, Repr, Inhabited

/-- Life of a journey (R376, R379, R316, R352). -/
inductive JState where
  | opened | running | resting | stopping (mid : Bool) | stopped (image : Bool) | checkpointing (mid : Bool)
  | restoring | closing
deriving DecidableEq, Repr, Inhabited

/-- A request that waits for its effect (R379): its connection, or none for a request that a replay executes (R402), its header,
entry time and body, and the image's place; `resize` marks a stop that a resize makes. -/
structure Pending where
  conn : Option Nat
  h : MsgHdr
  entry : Nat
  body : List Byte
  pa : Nat := 0
  len : Nat := 0
  resize : Bool := false
  /-- The journey's life before the stop or checkpoint was asked for. -/
  was : JState := .running
  /-- A page of a read or write that failed, its address and cause, while the Innkeeper serves it (R343, R374); and that it has. -/
  fail : Option (Word64 × Nat) := Option.none
  served : Bool := false
deriving DecidableEq, Repr, Inhabited

/-- One logged request read back by a replay (R401, R402). -/
structure LogRec where
  op : Nat
  journey : Nat
  status : Nat
  body : List Byte
deriving DecidableEq, Repr, Inhabited

/-- One journey: calendar, tables, queue and life. -/
structure Journey where
  num : Nat := 0
  room : Nat := 0
  state : JState := .opened
  /-- Context tag (R352). -/
  tag : BitVec 16 := 0
  handlers : List Handler := []
  lookahead : Word64 := 0
  seed : Word64 := 0
  quota : Nat := 0
  q : Nat := 0
  nb : Nat := 4
  /-- Acceptance count (R286), pending events, handle entries (R288), next entity-0 core (R305). -/
  accepted : Word64 := 0
  pending : List Event := []
  handles : List HandleEnt := []
  spread : Nat := 0
  /-- Span state (R299): T0, T1, width, round; `spanOn` when a span has begun. -/
  spanOn : Bool := false
  t0 : Word64 := 0
  t1 : Word64 := 0
  spanw : Word64 := 1
  round : Word32 := 0
  /-- A round has been formed and its groups have not all retired. -/
  inRound : Bool := false
  queue : List QItem := []
  /-- Bands of the round that have left the queue (R357: a band's index in its round). -/
  taken : Nat := 0
  seats : List Seat := []
  gangs : List GangBar := []
  passed : Nat := 0
  promoted : Bool := false
  /-- The dispatcher has given this journey the next placement (R315). -/
  picked : Bool := false
  /-- MODEL'S OWN: the step of a promoted journey's pick; of two such journeys the earlier one holds its capacity first. -/
  pickedAt : Nat := 0
  tables : List Table := []
  /-- Frames of the pages that an unmap has cleared, base and length, until its shootdown completes (R342). -/
  unmapped : List (Nat × Nat) := []
  windows : List Window := []
  code : Nat × Nat × Nat := (0, 0, 0)
  log : Option (Nat × Nat) := Option.none
  logAt : Nat := 0
  stopReg : Nat × Nat := (0, 0)
  packId : Word64 := 0
  packHash : List Byte := []
  wbs : List WriteBack := []
  fences : List FenceRec := []
  nextFence : Nat := 0
  dirty : List Nat := []
  unacq : List Unacq := []
  kept : List (Nat × Nat) := []
  publishFailed : Bool := false
  pend : Option Pending := Option.none
  /-- The region of the last stop's image (R379), and the token of an image whose restore waits for room (R367). -/
  image : Option (Nat × Nat) := Option.none
  restore : Option Nat := Option.none
  /-- The acceptance count at the last stop: later events are no part of its image. -/
  stoppedAt : Word64 := 0
  /-- A replay that goes on when the pending request ends (R402): records left, count, first difference, the answer. -/
  replay : List LogRec := []
  replayed : Nat := 0
  firstDiff : Option Nat := Option.none
  replyTo : Option (Nat × MsgHdr × Nat) := Option.none
  /-- Cause code for which the device stops the journey as soon as the acting step ends (R379, R388). -/
  stopFor : Option Nat := Option.none
deriving DecidableEq, Repr, Inhabited

/-! ### Rooms and the hub -/

/-- A pool extent of a room (R334). -/
structure Extent where
  base : Nat
  len : Nat
deriving DecidableEq, Repr, Inhabited

/-- A room table entry and the room's own state (R384, R385, R389, R315, R354, R426). -/
structure Room where
  num : Nat := 0
  clusters : Word32 := 0
  ports : BitVec 24 := 0
  extents : List Extent := []
  farBytes : Nat := 0
  rate : Nat := 0
  depth : Nat := 0
  tokens : Nat := 0
  periods : Nat := 0
  endpoints : List Nat := []
  faultq : List (List Byte) := []
  drops : Word32 := 0
  /-- Notification queue (R384): kind, journey and body of notices that wait for a connection (R388). -/
  notices : List (Nat × Nat × List Byte) := []
  pos : Nat := 1
  lastPick : List (Nat × Nat) := []
  lastCore : Option Nat := Option.none
  debugKey : Option (Nat × Nat) := Option.none
  energy : Nat := 0
  powers : List Nat := []
  held : List Nat := []
  powerAt : Nat := 0
  /-- Generation of the room's tables, one more with every completed shootdown (R177, R342). -/
  tableGen : Nat := 0
  /-- A resize in progress: new cluster set and the request (R386). -/
  resize : Option (Word32 × Pending) := Option.none
deriving DecidableEq, Repr, Inhabited

/-- A connection (R373, R380): endpoint, next request expected, next message number, kept messages with
the request that each answers, and held requests
with their entry times. -/
structure Conn where
  num : Nat
  endpoint : Nat
  expect : Word32 := 1
  seq : Word32 := 1
  kept : List (Word32 × Option Word32 × List Byte) := []
  ahead : List (MsgHdr × List Byte × Nat) := []
  nonce : Option (List Byte) := Option.none
deriving DecidableEq, Repr, Inhabited

/-- Counters of an endpoint (R371, R372). -/
structure Endpoint where
  addr : Nat
  dropped : Nat
  unsupported : Nat
deriving DecidableEq, Repr, Inhabited

/-- A watchpoint (R407). -/
structure Watch where
  lo : Word64
  hi : Word64
  entity : Word32
  any : Bool
  dispatch : Bool
  create : Bool
deriving DecidableEq, Repr, Inhabited

/-- A debug session (R403 to R408): connection, scope, points, sampling and buffer. -/
structure Session where
  conn : Nat
  scope : Nat
  bps : List (Nat × Word64) := []
  lbps : List (Nat × Word64) := []
  watch : List (Nat × Watch) := []
  period : Nat := 0
  bufPa : Nat := 0
  bufLen : Nat := 0
  wr : Nat := 0
  rd : Nat := 0
  dropped : Nat := 0
  turn : List (Nat × Nat) := []
  lastAt : List (Nat × Nat) := []
deriving DecidableEq, Repr, Inhabited

/-- An import table entry (R350) with its refusal count (R351). -/
structure Import where
  slot : Nat
  journey : Nat
  r : Bool
  w : Bool
  a : Bool
  key : Word64
  base : Word64
  length : Word64
  refusals : Word32
deriving DecidableEq, Repr, Inhabited

/-- A placement command (R418): core, band slot, and the command's number. -/
structure PlaceCmd where
  core : Nat
  band : Nat
  num : Nat
deriving DecidableEq, Repr, Inhabited

/-- What a leaf sends to the scheduler (R418, R419): a refusal of a placement, or that a core is fenced. -/
inductive LeafMsg where
  | refusal (c : PlaceCmd)
  | fenced (core : Nat)
deriving DecidableEq, Repr, Inhabited

/-- A command link between the scheduler and a leaf (R417). -/
structure Link where
  leaf : Nat
  ready : Bool := false
  fenced : Bool := false
  toLeaf : Nat := 16
  toSched : Nat := 16
  /-- Placement commands in the leaf's buffer and those not yet sent; the leaf's messages likewise; commands taken whose permits are
  not yet returned. -/
  inbox : List PlaceCmd := []
  waiting : List PlaceCmd := []
  replies : List LeafMsg := []
  unsent : List LeafMsg := []
  taken : Nat := 0
  takenBack : Nat := 0
  /-- The leaf image that the scheduler has sent over the link (R411). -/
  image : List Byte := []
deriving DecidableEq, Repr, Inhabited

/-- A firmware image in flash (R412, R414): copy 0 is A, 1 is B. -/
structure FlashImage where
  copy : Nat
  kind : Nat
  bytes : List Byte
deriving DecidableEq, Repr, Inhabited

/-- How far the boot has gone (R411, R414). -/
inductive Boot where
  | off | recovery | scheduling | up
deriving DecidableEq, Repr, Inhabited

/-- A running image: kind, copy and digest (R411, R416). -/
structure Running where
  kind : Nat
  copy : Nat
  digest : List Byte
deriving DecidableEq, Repr, Inhabited

/-- What an image in pool memory stands for (R364): the journey's saved parts. The layout of section contents is the
Innkeeper's own (R365, assumption 42): the image holds them, with the token by which the Innkeeper finds this reading of them. -/
structure Saved where
  token : Nat
  mid : Bool
  packId : Word64
  j : Journey
  bands : List Band
  groups : List Group
  engines : List (Nat × Core)
  held : List Req
deriving DecidableEq, Repr, Inhabited

/-- A device-wide or fabric message that left the device: endpoint or peer, and its bytes (R372, R348). -/
structure OutMsg where
  dest : Nat
  bytes : List Byte
deriving DecidableEq, Repr, Inhabited

/-- An import that has left for a peer (R348): the peer, import slot, key, byte offset, and what it does there. -/
structure SentImport where
  peer : BitVec 16
  islot : BitVec 16
  key : Word64
  off : Nat
  acc : ReqKind
deriving DecidableEq, Repr, Inhabited

/-- The hub die and device-wide state (25, 26, 27, 28). -/
structure Hub where
  boot : Boot := .off
  running : List Running := []
  flash : List FlashImage := []
  /-- Vendor public keys by index, and the operator's debug key (R413, R403). -/
  keys : List (Nat × Nat × Nat) := []
  opKey : Option (Nat × Nat) := Option.none
  cert : List Byte := []
  /-- The fused device secret, and what ROM's key store holds: the device identity's private and public key (R415). -/
  secret : Nat := 0
  identity : Option (Nat × Nat × Nat) := Option.none
  /-- Fuses: revoked key indexes, least svn of each kind (R413). -/
  revoked : List Nat := []
  minSvn : SMap Nat := []
  /-- Units marked fenced, kept in flash (R395). -/
  fenced : List UnitId := []
  /-- Corrected errors: unit and time in ns (R392). -/
  errors : List (UnitId × Nat) := []
  thresholds : List (UnitKind × Nat) := []
  links : List Link := []
  /-- Number of the next placement command. -/
  nextCmd : Nat := 1
  conns : List Conn := []
  endpoints : List Endpoint := []
  sessions : List Session := []
  imports : List Import := []
  outbox : List OutMsg := []
  sent : List SentImport := []
  /-- Journey numbers given since boot, and numbers free again, oldest teardown first (R376). -/
  given : List Nat := []
  freed : List Nat := []
  powerCap : Nat := 2200
  /-- The least cap in force since the last power interval began. -/
  leastCap : Nat := 2200
  hold : Bool := false
  /-- Owner of each cluster and port at the interval's start (R425). -/
  owners : List (Nat × Nat) := []
  powerLast : List Nat := []
  /-- Energy of the whole module in the last interval, in mJ: its mean power in W (R424). -/
  powerModule : Nat := 0
  images : List Saved := []
  nextImage : Nat := 1
  cxlDown : List Nat := []
  bootCycle : Nat := 0
  /-- Generations of the calendars' handle entries, 1 where never freed (R288). -/
  handleGen : SMap (BitVec 24) := []
deriving DecidableEq, Repr, Inhabited


/-- The whole machine. The focus fields `g`, `b`, `c` and `j` are MODEL'S OWN: the acting group, its band, core and
journey, copied out of the lists for the length of one step (assumption 4); `few` bounds the accesses that the acting engine makes in it. -/
structure State where
  /-- MODEL'S OWN: the agents that move next (assumption 1), and the counter free values are applied to (assumption 5). -/
  script : List Agent
  draw : Nat
  /-- Arithmetic-clock cycles since device reset (R154 `%cycle`). -/
  cycles : Nat
  g : Group
  b : Band
  c : Core
  j : Journey
  few : Option Nat
  groups : List Group
  bands : List Band
  cores : List Core
  journeys : List Journey
  rooms : List Room
  hub : Hub
  /-- Coherent memory (R318), the pool copy that peers read (R330), poisoned line addresses (R393). -/
  mem : Memory
  pool : Memory
  poison : List Nat
  /-- Outstanding lane requests: Ostler, Porter and peer (R176, R188, R348). -/
  reqs : List Req
  nextReq : Nat
deriving DecidableEq, Repr, Inhabited

/-- The machine right after reset: nothing runs, no room exists, memory lists nothing, and the hub has not booted yet. -/
def State.reset : State where
  script := []
  draw := 0
  cycles := 0
  g := {}
  b := {}
  c := {}
  j := {}
  few := none
  groups := []
  bands := []
  cores := []
  journeys := []
  rooms := []
  hub := { keys := [(0, Config.vendorKey 0), (1, Config.vendorKey 1), (2, Config.vendorKey 2), (3, Config.vendorKey 3)],
           opKey := some Config.operatorKey, cert := Config.certificate Config.deviceSecret, secret := Config.deviceSecret, thresholds := [(.core, 1024), (.slice, 1024), (.port, 1024), (.calendar, 1024)] }
  mem := []
  pool := []
  poison := []
  reqs := []
  nextReq := 0

end Sys2Proof.Machine
end

