-- ==== Sys2Proof/Machine/Base.lean ====
section
/-! DEFINITION. Plain helpers: sparse maps and bytes, the acting group and its surroundings in and out of the lists, registers
of all kinds with their lookahead windows (R45), lanes that act (R102), and the end of an instruction. -/

namespace Sys2Proof.Machine

/-! ### Sparse maps -/

/-- The value at a key; `d` where the key is not listed. -/
def SMap.get {α : Type} (d : α) (k : Nat) : List (Nat × α) → α
  | [] => d
  | (a, x) :: m => if a = k then x else if k < a then d else SMap.get d k m

/-- The map with a value at a key; the default value is not listed. -/
def SMap.set {α : Type} [DecidableEq α] (d : α) (k : Nat) (x : α) : List (Nat × α) → List (Nat × α)
  | [] => if x = d then [] else [(k, x)]
  | (a, y) :: m =>
    if a = k then (if x = d then m else (a, x) :: m)
    else if k < a then (if x = d then (a, y) :: m else (k, x) :: (a, y) :: m)
    else (a, y) :: SMap.set d k x m

/-- Keys rise strictly and lie at or above `lo`. -/
def SMap.sortedFrom {α : Type} : Nat → List (Nat × α) → Bool
  | _, [] => true
  | lo, (a, _) :: m => lo ≤ a && SMap.sortedFrom (a + 1) m

/-- The canonical form: rising keys, no entry at the default. -/
def SMap.wf {α : Type} [DecidableEq α] (d : α) (m : List (Nat × α)) : Bool :=
  SMap.sortedFrom 0 m && m.all fun e => e.2 != d

/-- The canonical form of memory (unlisted bytes read 0). -/
def Memory.wf (m : Memory) : Bool := SMap.wf (0 : Byte) m

/-- One byte of memory. -/
def Memory.byte (m : Memory) (a : Nat) : Byte := SMap.get 0 a m
/-- Memory with one byte written. -/
def Memory.put (m : Memory) (a : Nat) (x : Byte) : Memory := SMap.set 0 a x m

/-- Bytes from an address up. -/
def Memory.read (m : Memory) (a : Nat) : Nat → List Byte
  | 0 => []
  | n + 1 => m.byte a :: Memory.read m (a + 1) n

/-- Memory with a run of bytes written, lowest address first. -/
def Memory.write (m : Memory) (a : Nat) : List Byte → Memory
  | [] => m
  | x :: xs => Memory.write (m.put a x) (a + 1) xs

/-! ### Bytes and fields (R5: little-endian) -/

/-- The low `n` bytes of a number, least significant first. -/
def leBytes : Nat → Nat → List Byte
  | 0, _ => []
  | n + 1, x => BitVec.ofNat 8 x :: leBytes n (x / 256)

/-- The number that bytes hold, least significant first. -/
def ofLe : List Byte → Nat
  | [] => 0
  | x :: xs => x.toNat + 256 * ofLe xs

/-- The number that octets hold, most significant first (R412). -/
def ofBe (l : List Byte) : Nat := l.foldl (fun n x => 256 * n + x.toNat) 0
/-- `n` octets of a number, most significant first. -/
def beBytes (n x : Nat) : List Byte := (leBytes n x).reverse

/-- `len` bits of a number from bit `lo`. -/
def bitsOf (x lo len : Nat) : Nat := x / 2 ^ lo % 2 ^ len
/-- A field of `n` bytes at a byte offset. -/
def fieldAt (l : List Byte) (off n : Nat) : Nat := ofLe ((l.drop off).take n)
/-- Numbers placed at bit positions, summed. -/
def packBits (fs : List (Nat × Nat)) : Nat := fs.foldl (fun n f => n + f.2 * 2 ^ f.1) 0
/-- 1 for true. -/
def b2n (b : Bool) : Nat := if b then 1 else 0
/-- Sign extension of a 32-bit value to 64 bits. -/
def sext64 (x : Word32) : Word64 := x.signExtend 64

/-- The first `n` numbers, built structurally so that the kernel can evaluate it. -/
def upTo : Nat → List Nat
  | 0 => []
  | n + 1 => upTo n ++ [n]

/-- Numbers of the set bits of a mask. -/
def bitList (n x : Nat) : List Nat := (upTo n).filter fun i => x.testBit i

/-- Inserts into a list that a test keeps in order, and sorts by it. -/
def insertBy {α : Type} (le : α → α → Bool) (x : α) : List α → List α
  | [] => [x]
  | y :: ys => if le x y then x :: y :: ys else y :: insertBy le x ys
def sortBy {α : Type} (le : α → α → Bool) : List α → List α
  | [] => []
  | x :: xs => insertBy le x (sortBy le xs)

/-- Chunks of n elements, the last one ragged. The first number bounds the chunks. -/
def chunks {α : Type} : Nat → Nat → List α → List (List α)
  | 0, _, _ => []
  | k + 1, n, l => match l with
    | [] => []
    | _ :: _ => l.take n :: chunks k n (l.drop n)

/-! ### Lists keyed by a test -/

/-- Replaces the first element that passes, or appends. -/
def upsert {α : Type} (p : α → Bool) (x : α) : List α → List α
  | [] => [x]
  | y :: ys => if p y then x :: ys else y :: upsert p x ys

/-- Drops the first element that passes. -/
def dropFirst {α : Type} (p : α → Bool) : List α → List α
  | [] => []
  | y :: ys => if p y then ys else y :: dropFirst p ys

def Group.at (core slot : Nat) (g : Group) : Bool := g.core == core && g.slot == slot
def Band.at (core slot : Nat) (b : Band) : Bool := b.core == core && b.slot == slot

/-- Slot and generation as an operation's token holds them. -/
def Op.tok (o : Op) : Nat := o.oldTok.getD (packBits [(16, o.gen.toNat), (0, o.slot)])

/-- First register of the A block of an `mloop`. -/
def EngCmd.block : EngCmd → Nat
  | .mloop _ areg _ _ _ _ _ _ _ _ _ _ => areg
  | _ => 0

/-- Whether a request loads a scalar register. -/
def Req.isScalar (q : Req) : Bool :=
  match q.kind with
  | .scalarLoad _ _ => true
  | _ => false

/-- Whether a request goes to a peer device, whose accesses are ordered by `fence.sc` alone (R329). -/
def Req.abroad (q : Req) : Bool :=
  match q.agent with
  | .peer _ _ => true
  | _ => false

/-- Whether a placement command is still on its way over a link, or its refusal on the way back. -/
def Link.carries (l : Link) (num : Nat) : Bool :=
  (l.inbox ++ l.waiting).any (fun c => c.num == num) || (l.replies ++ l.unsent).any fun m => match m with
    | .refusal c => c.num == num
    | .fenced _ => false

namespace State

def group? (s : State) (core slot : Nat) : Option Group := s.groups.find? (Group.at core slot)
def band? (s : State) (core slot : Nat) : Option Band := s.bands.find? (Band.at core slot)
def core (s : State) (n : Nat) : Core := (s.cores.find? fun c => c.num == n).getD { num := n }
def journey? (s : State) (n : Nat) : Option Journey := s.journeys.find? fun j => j.num == n
def room? (s : State) (n : Nat) : Option Room := s.rooms.find? fun r => r.num == n

def putGroup (s : State) (g : Group) : State :=
  { s with groups := if g.dead then dropFirst (Group.at g.core g.slot) s.groups
                     else upsert (Group.at g.core g.slot) g s.groups }
def putBand (s : State) (b : Band) : State := { s with bands := upsert (Band.at b.core b.slot) b s.bands }
def dropBand (s : State) (core slot : Nat) : State := { s with bands := dropFirst (Band.at core slot) s.bands }
def putCore (s : State) (c : Core) : State := { s with cores := upsert (fun x => x.num == c.num) c s.cores }
def putJourney (s : State) (j : Journey) : State :=
  { s with journeys := upsert (fun x => x.num == j.num) j s.journeys }
def putRoom (s : State) (r : Room) : State := { s with rooms := upsert (fun x => x.num == r.num) r s.rooms }

/-- Changes one journey, room or hub. -/
def modJourney (s : State) (n : Nat) (f : Journey → Journey) : State :=
  match s.journey? n with
  | some j => s.putJourney (f j)
  | none => s
def modRoom (s : State) (n : Nat) (f : Room → Room) : State :=
  match s.room? n with
  | some r => s.putRoom (f r)
  | none => s
def modHub (s : State) (f : Hub → Hub) : State := { s with hub := f s.hub }
def modG (s : State) (f : Group → Group) : State := { s with g := f s.g }
def modB (s : State) (f : Band → Band) : State := { s with b := f s.b }
def modC (s : State) (f : Core → Core) : State := { s with c := f s.c }
def modJ (s : State) (f : Journey → Journey) : State := { s with j := f s.j }

/-- Whether a band's placement command has not been taken by its leaf (R417, R418): until then nothing of the band moves. -/
def commanded (s : State) (core band : Nat) : Bool :=
  match s.band? core band with
  | some b => b.cmd != 0 && s.hub.links.any fun l => l.carries b.cmd
  | none => false

/-- Takes a group and its band, core and journey into the focus. -/
def focus (s : State) (g : Group) : State :=
  { s with g := g, b := (s.band? g.core g.band).getD {}, c := s.core g.core, j := (s.journey? g.journey).getD {} }

/-- Takes a band without a group into the focus; its first living group stands for it. -/
def focusBand (s : State) (core band slot : Nat) : State :=
  let b := (s.band? core band).getD {}
  { s with g := (s.group? core slot).getD { core := core, slot := slot, band := band, journey := b.journey, room := b.room,
                                             handler := b.handler, dead := true },
           b := b, c := s.core core, j := (s.journey? b.journey).getD {} }

/-- Puts the focus back into the lists; a band without members left is gone. -/
def unfocus (s : State) : State :=
  let s1 := (s.putGroup s.g).putCore s.c
  let s2 := if (s.journey? s.j.num).isSome then s1.putJourney s.j else s1
  if (s.band? s.b.core s.b.slot).isNone then s2
  else if s.b.members.isEmpty then s2.dropBand s.b.core s.b.slot else s2.putBand s.b

/-! ### Free values -/

/-- A free bit, word or number of this step (assumption 5). -/
def freeBit (s : State) (key : Nat) : Bool := Config.freeBit s.draw key
def freeWord (s : State) (key : Nat) : Word64 := Config.freeWord s.draw key
def freeNat (s : State) (key : Nat) : Nat := Config.freeNat s.draw key

/-! ### Scalar registers (R75) and their windows (R45) -/

/-- Keys of the free choices that windows make. -/
def winKey (kind reg lane : Nat) : Nat := ((kind * 256 + reg) * 32 + lane) * 4

/-- The value, or by a free choice one of some earlier ones. -/
def pickOf {α : Type} (s : State) (key : Nat) (now : α) (l : List α) : α :=
  match l with
  | [] => now
  | x :: xs => ((now :: x :: xs)[s.freeNat key % (xs.length + 2)]?).getD now

/-- Earlier values of a scalar register that open windows may still show, newest first. -/
def oldS (s : State) (r : SReg) : List Word64 := (s.g.winS.filter fun w => w.reg == r).map (·.old)

/-- A scalar register: `s0` reads zero; inside windows the value before or after each of their instructions. -/
def sreg (s : State) (r : SReg) : Word64 :=
  if r = 0 then 0 else s.pickOf (winKey 0 r.toNat 0) s.g.s[r.toNat] (s.oldS r)

/-- Whether an earlier instruction's window on a register is open. -/
def openS (s : State) (r : SReg) : Bool := s.g.winS.any fun w => w.reg == r
def openV (s : State) (r : Nat) : Bool := s.g.winV.any fun w => w.reg.toNat == r

/-- A register keeps the value written inside a window: the answers of some of the group's requests leave it alone. -/
def loseReply (s : State) (r : Nat) (p : Req → Bool) : State :=
  { s with reqs := s.reqs.map fun q =>
      if q.core == s.g.core && q.slot == s.g.slot && p q then { q with lost := r :: q.lost } else q }

/-- Writes a scalar register; a write to `s0` is discarded. Inside another instruction's window the register ends holding
either value. A lookahead opens a window that shows the old value. -/
def setSla (s : State) (la : BitVec 4) (r : SReg) (x : Word64) (acc : Option Nat := Option.none) : State :=
  if r = 0 then s else
    let cur := s.g.s[r.toNat]
    let open' := s.openS r
    let new := if open' then (if s.freeBit (winKey 1 r.toNat 0) then cur else x) else x
    let win := if la = 0 then s.g.winS else ⟨r, cur, la.toNat + 1, acc⟩ :: s.g.winS
    let s := if open' && !s.freeBit (winKey 1 r.toNat 0) then s.loseReply r.toNat fun q => q.isScalar else s
    { s with g := { s.g with s := s.g.s.set r.toNat new, winS := win } }

/-- Writes a scalar register of an instruction without lookahead. -/
def setS (s : State) (r : SReg) (x : Word64) : State := s.setSla 0 r x

/-! ### Masks and predicates -/

/-- Mask of the event lanes (R123). -/
def k0 (s : State) : Word32 := BitVec.ofNat 32 (2 ^ s.g.nev - 1)

/-- A mask register. -/
def kreg (s : State) (r : KReg) : Word32 := if r = 0 then s.k0 else s.g.k[r.toNat]

/-- Writes a mask register other than `k0`. -/
def setK (s : State) (r : KReg) (x : Word32) : State := { s with g := { s.g with k := s.g.k.set r.toNat x } }

/-- Earlier lane masks of a predicate that open windows may still show, newest first. -/
def oldP (s : State) (r : PReg) : List Word32 := (s.g.winP.filter fun w => w.reg == r).map (·.old)

/-- A mask whose lanes are chosen one by one among the current ones and some earlier ones. -/
def pickMask (s : State) (key : Nat) (now : Word32) : List Word32 → Word32
  | [] => now
  | x :: xs =>
    let pick := BitVec.truncate 32 (s.freeWord key)
    (s.pickMask (key + 1) now xs &&& pick) ||| (x &&& ~~~pick)

/-- A predicate's lanes; 15 reads true (R113). Lanes are chosen one by one inside windows. -/
def pmask (s : State) (r : PReg) : Word32 :=
  if h : r.toNat < 12 then s.pickMask (winKey 2 r.toNat 0) s.g.p[r.toNat] (s.oldP r)
  else 0xFFFFFFFF

end State

/-- Whether bit i of a lane mask is set. -/
def laneBit (m : Word32) (i : Nat) : Bool := m.getLsbD i

/-- A vector of 32 lanes from a rule. -/
def mkLanes (f : Nat → Word32) : Vector Word32 32 :=
  #v[f 0, f 1, f 2, f 3, f 4, f 5, f 6, f 7, f 8, f 9, f 10, f 11, f 12, f 13, f 14, f 15,
     f 16, f 17, f 18, f 19, f 20, f 21, f 22, f 23, f 24, f 25, f 26, f 27, f 28, f 29, f 30, f 31]

/-- A lane mask from a rule. -/
def mkMask (f : Nat → Bool) : Word32 :=
  BitVec.ofNat 32 ((upTo 32).foldl (fun n i => if f i then n + 2 ^ i else n) 0)

/-- One lane of a register's lanes. -/
def laneOf (v : Vector Word32 32) (i : Nat) : Word32 := if h : i < 32 then v[i] else 0

namespace State

/-! ### Lane registers -/

/-- Earlier values of a lane register that open windows may still show, newest first. -/
def oldV (s : State) (r : Nat) : List (Vector Word32 32) := (s.g.winV.filter fun w => w.reg.toNat == r).map (·.old)

/-- All lanes of a lane register by number; registers past `v255` read zero. Lanes are chosen one by one inside windows. -/
def vregs (s : State) (r : Nat) : Vector Word32 32 :=
  if h : r < 256 then
    match s.oldV r with
    | [] => s.g.v[r]
    | x :: xs => mkLanes fun i => s.pickOf (winKey 3 r i) (laneOf s.g.v[r] i) ((x :: xs).map fun w => laneOf w i)
  else Vector.replicate 32 0

/-- One lane of a lane register. -/
def vlane (s : State) (r : Nat) (i : Nat) : Word32 := laneOf (s.vregs r) i

/-- A 64-bit lane value in an even pair (R60). -/
def vpair (s : State) (r : Nat) (i : Nat) : Word64 := s.vlane (r + 1) i ++ s.vlane r i

/-- Whether a queued engine operation of the focused group reads a register block from the registers. -/
def readsV (s : State) (r : Nat) (e : EngEnt) : Bool :=
  e.band == s.b.slot && e.group == s.g.slot && e.srcV.any fun x => x.first ≤ r && r < x.first + x.count

/-- A write to a register that a queued engine operation still reads: every value that operation writes becomes undefined
(R149, R237, R242), and so does the latch that the block was to fill, where it still has that block's tag, with the operations that
use it (R236). A latch that a dot word has loaded since keeps its contents (R119). -/
def spoilV (s : State) (r : Nat) : State :=
  if s.c.eng.any (s.readsV r) then
    let lost (first : Nat) : Bool := s.c.eng.any fun e => s.readsV r e && e.loads && e.cmd.block == first
    let mine (e : EngEnt) : Bool := e.fromLatch && lost e.cmd.block && e.band == s.b.slot && e.group == s.g.slot
    let eng := s.c.eng.map fun e => { e with spoiled := e.spoiled || s.readsV r e || mine e }
    let free (k : Nat) : Vector Word32 32 := mkLanes fun i => (s.freeWord (14 * 2 ^ 60 + 32 * k + i)).truncate 32
    let latch := s.g.latch.map fun l =>
      if l.count == 8 && lost l.first then { l with regs := (upTo l.count).map free } else l
    { s with c := { s.c with eng := eng }, g := { s.g with latch := latch } }
  else s

/-- Writes the lanes of a mask in a lane register. A window that an earlier word opened on the register is open in all its lanes, those in which
that word did not act as well (R45, R104; DESIGN CHOICE, assumption 110). -/
def setV (s : State) (la : BitVec 4) (r : Nat) (mask : Word32) (f : Nat → Word32) (acc : Option Nat := Option.none) : State :=
  if h : r < 256 then
    let s := if mask = 0 then s else s.spoilV r
    let cur := s.g.v[r]
    let open' := s.openV r
    let new := mkLanes fun i =>
      if laneBit mask i then (if open' && s.freeBit (winKey 4 r i) then laneOf cur i else f i) else laneOf cur i
    let win := if la = 0 then s.g.winV else ⟨BitVec.ofNat 8 r, cur, la.toNat + 1, acc⟩ :: s.g.winV
    let s := if open' then s.loseReply r fun q => !q.isScalar && laneBit mask q.lane && !s.freeBit (winKey 4 r q.lane) else s
    { s with g := { s.g with v := s.g.v.set r new, winV := win } }
  else s

/-- The answer of a request enters one lane of a register. -/
def replyV (s : State) (r lane : Nat) (x : Word32) : State :=
  if h : r < 256 then
    let v := s.g.v[r]
    { s with g := { s.g with v := s.g.v.set r (mkLanes fun i => if i = lane then x else laneOf v i) } }
  else s

/-- Writes the lanes of a mask in a pair. -/
def setPair (s : State) (la : BitVec 4) (r : Nat) (mask : Word32) (f : Nat → Word64) (acc : Option Nat := Option.none) : State :=
  (s.setV la r mask (fun i => (f i).truncate 32) acc).setV la (r + 1) mask (fun i => (f i).extractLsb' 32 32) acc

/-- Writes the lanes of a mask in a predicate. -/
def setP (s : State) (la : BitVec 4) (r : PReg) (mask bits : Word32) : State :=
  if h : r.toNat < 12 then
    let cur := s.g.p[r.toNat]
    let pick := if s.g.winP.any (fun w => w.reg == r) then BitVec.truncate 32 (s.freeWord (winKey 5 r.toNat 0)) else 0
    let m := mask &&& ~~~pick
    let win := if la = 0 then s.g.winP else ⟨r, cur, la.toNat + 1⟩ :: s.g.winP
    { s with g := { s.g with p := s.g.p.set r.toNat ((cur &&& ~~~m) ||| (bits &&& m)), winP := win } }
  else s

/-- ORs flags into `%fpflags` (R68). -/
def orFlags (s : State) (f : Word32) : State := { s with g := { s.g with fpflags := s.g.fpflags ||| (f &&& flMask) } }

/-! ### Standing of lanes (R123) and the lanes that act (R102) -/

def isEvent (s : State) (i : Nat) : Bool := i < s.g.nev
def isHelper (s : State) (i : Nat) : Bool := s.g.nev ≤ i && i < 4 * ((s.g.nev + 3) / 4)

/-- Whether a lane word acts in lane i: guard, captured mask and helper rule as they stood when it issued (R137), and not finished since. -/
def acts (s : State) (h : LaneHdr) (i : Nat) : Bool :=
  let m := s.g.ictx.mask &&& s.k0
  laneBit s.g.ictx.todo i
    && (s.g.ictx.acc.isSome || h.guard.toNat == 15 || (laneBit (s.pmask h.guard) i != h.gneg))
    && ((s.isEvent i && laneBit m i)
      || (s.isHelper i && h.h && bitsOf m.toNat (4 * (i / 4)) 4 != 0))

/-- The acting lanes as a mask and as a list. -/
def active (s : State) (h : LaneHdr) : Word32 := mkMask fun i => s.acts h i
def activeList (s : State) (h : LaneHdr) : List Nat := (upTo 32).filter fun i => s.acts h i

/-! ### Ends of instructions -/

/-- Older windows come nearer to their end by one position (R46). -/
def ageS (l : List WinS) : List WinS := (l.map fun w => { w with left := w.left - 1 }).filter fun w => w.left != 0
def ageV (l : List WinV) : List WinV := (l.map fun w => { w with left := w.left - 1 }).filter fun w => w.left != 0
def ageP (l : List WinP) : List WinP := (l.map fun w => { w with left := w.left - 1 }).filter fun w => w.left != 0

/-- A scalar instruction is finished: the PC passes it and its prefixes (R135); behind a replay it goes back to where the stream had
come (R48). -/
def advance (s : State) : State :=
  { s with g := { s.g with spc := s.g.ahead.back.getD (s.g.insAddr + BitVec.ofNat 64 (4 * s.g.insLen)), ahead := {},
                           winS := ageS s.g.winS, wait := 0, passed := false, mid := false, lqPassed := false, waited := false,
                           park := none, scAcc := none } }

/-- A taken transfer is finished. -/
def jumpTo (s : State) (t : Word64) : State :=
  { s with g := { s.g with spc := t, winS := ageS s.g.winS, wait := 1, passed := false, mid := false, lqPassed := false,
                           waited := false, park := none } }

/-- The instruction waits: nothing changes but the state code of R409. -/
def stall (s : State) (code : BitVec 4) : State := { s with g := { s.g with wait := code } }

/-- A lane word is finished: it leaves the queue, from behind the head where the head is parked (R48). -/
def laneDone (s : State) : State :=
  { s with g := { s.g with lq := if s.g.lpark.isNone then s.g.lq.tail else s.g.lq.eraseIdx 1,
                           winV := ageV s.g.winV, winP := ageP s.g.winP,
                           past := if s.g.lpark.isNone then 0 else s.g.past + 1 } }

/-- Whether this group has lane requests outstanding (R176, R188, R348). -/
def hasReqs (s : State) : Bool := s.reqs.any fun r => r.core == s.g.core && r.slot == s.g.slot

/-- Every earlier instruction of both streams has completed (R46). -/
def allDone (s : State) : Bool := s.g.lq.isEmpty && !s.hasReqs

/-- Every earlier instruction has completed or parked (R48): at most the parked head is left in the lane queue. -/
def doneOrParked (s : State) : Bool := (s.g.lq.isEmpty || (s.g.lpark.isSome && s.g.lq.length == 1)) && !s.hasReqs

/-- Windows close when everything earlier has completed (R46). -/
def closeWindows (s : State) : State := { s with g := { s.g with winS := [], winV := [], winP := [] } }

/-- The lane words that write some lane registers and predicates have completed: their windows close (R140). -/
def closeOn (s : State) (vs : List VRange) (ps : List PReg) : State :=
  { s with g := { s.g with winV := s.g.winV.filter fun w => !vs.any fun r => r.first ≤ w.reg.toNat && w.reg.toNat < r.first + r.count,
                           winP := s.g.winP.filter fun w => !ps.contains w.reg } }

/-- The scalar stream sees lane registers and predicates behind every lane window (R45: never in the other stream's). -/
def closeLane (s : State) : State := { s with g := { s.g with winV := [], winP := [] } }

/-! ### Futures (R147, R153) -/

/-- A token: band slot, generation, operation slot. -/
def tokenOf (band : Nat) (gen : BitVec 16) (slot : Nat) : Word64 :=
  BitVec.ofNat 64 (packBits [(32, band), (16, gen.toNat), (0, slot)])

/-- The live operation of this band that a token names; a band slot at an earlier save counts (R369), and the token's reserved bits do
not (R6; DEDUCED, assumption 99). -/
def opOfToken (s : State) (t : Word64) : Option Op :=
  let n := t.toNat % 2 ^ 40
  let bandOk := bitsOf n 32 8 == s.b.slot || s.b.aliases.contains (bitsOf n 32 8)
  if bandOk then s.c.ops.find? fun o => o.tok == n % 2 ^ 32 && o.band == s.b.slot else none

/-- The operation a future register holds. -/
def opOf (s : State) (f : FReg) : Option Op :=
  match s.g.f[f.toNat] with
  | .held t => s.opOfToken t
  | _ => none

/-- Whether a future register is pending. -/
def fPending (s : State) (f : FReg) : Bool :=
  match s.opOf f with
  | some o => o.st == .pending
  | none => false

/-- Whether any future of the group is pending. -/
def anyPending (s : State) : Bool := (upTo 16).any fun i => s.fPending (BitVec.ofNat 4 i)

/-- Generation of an operation slot (R153): 1 at device reset. -/
def opGen (c : Core) (slot : Nat) : BitVec 16 := SMap.get 1 slot c.gens

/-- The generation after one, from 0xFFFF back to 1 (R153). -/
def stepGen (g : BitVec 16) : BitVec 16 := if g = 0xFFFF then 1 else g + 1

/-- The later of two generations of one slot, in the circle that they run through. -/
def laterGen (a b : BitVec 16) : BitVec 16 :=
  let d := (b.toNat + 65535 - a.toNat) % 65535
  if d != 0 && d < 32768 then b else a

/-- Generations of operation slots after an operation is released: its slot steps on (R153); the slot that a restored operation's token
names stands past that token's generation. -/
def gensWithout (m : SMap (BitVec 16)) (o : Op) : SMap (BitVec 16) :=
  match o.oldTok with
  | none => SMap.set 1 o.slot (stepGen (SMap.get 1 o.slot m)) m
  | some t => SMap.set 1 (t % 65536) (laterGen (SMap.get 1 (t % 65536) m) (stepGen (BitVec.ofNat 16 (t / 65536)))) m

/-- Releases the operation slot of a future. -/
def releaseOp (s : State) (slot : Nat) : State :=
  let gone := s.c.ops.filter fun o => o.slot == slot
  { s with c := { s.c with ops := s.c.ops.filter (fun o => o.slot != slot), gens := gone.foldl gensWithout s.c.gens } }

/-- Overwrites a future register: the slot its token held is released (R148, R153). -/
def dropFuture (s : State) (f : FReg) : State :=
  match s.opOf f with
  | some o => s.releaseOp o.slot
  | none => s

/-- Sets a future register. -/
def setF (s : State) (f : FReg) (x : Future) : State := { s with g := { s.g with f := s.g.f.set f.toNat x } }

/-- The lowest operation slot from a number on that no operation uses and no restored operation's token names (R153, R369). -/
def freeOpSlot (ops : List Op) : Nat → Nat → Nat
  | 0, k => k
  | n + 1, k => if ops.any (fun o => o.slot == k || o.tok % 65536 == k) then freeOpSlot ops n (k + 1) else k

/-- Starts an engine operation: a slot is taken, the future holds its token in the pending state (R148, R153). The answer
carries the slot. -/
def newOp (s : State) (f : FReg) (dstV : List VRange) (dstP : List PReg) (dstS : List SReg) : State × Nat :=
  let s1 := s.dropFuture f
  let slot := freeOpSlot s1.c.ops s1.c.ops.length 0
  let gen := opGen s1.c slot
  let o : Op := { slot := slot, gen := gen, band := s1.b.slot, group := s1.g.slot, st := .pending, dstV := dstV,
                  dstP := dstP, dstS := dstS, iaddr := s1.g.insAddr, born := s1.draw }
  (({ s1 with c := { s1.c with ops := o :: s1.c.ops } }).setF f (.held (tokenOf s1.b.slot gen slot)), slot)

/-- Changes one operation of the core. -/
def modOp (s : State) (slot : Nat) (f : Op → Op) : State :=
  { s with c := { s.c with ops := s.c.ops.map fun o => if o.slot == slot then f o else o } }

/-- An operation ends: its state is set, and its flags enter `%fpflags` of the focused group, the one that issued it: the manual does
not say whose flags they are where another group has claimed a pending operation (R69; DESIGN CHOICE, assumption 81). -/
def endOp (s : State) (slot : Nat) (st : OpState) (fl : Word32) : State :=
  (s.modOp slot fun o => { o with st := st, fl := o.fl ||| fl }).orFlags fl

end State
end Sys2Proof.Machine
end

