-- ==== Sys2Proof/Machine/Ops.lean ====
section
/-! DEFINITION. Shared operations: messages and notices (R372, R388), fault records (R398) and the taking of a trap with the
return from it (R98, R166, R345), debug trace records (R409), translation (R333 to R349), coherent memory with poison
(R318, R393), scratchpad (R161 to R175), and the counting of accesses (R178). -/

namespace Sys2Proof.Machine

/-! ### Wall clock, messages, notices -/

/-- Wall time in ns from boot (R382, R423): 600 MHz cycles. -/
def State.wallNs (s : State) : Nat := (s.cycles - s.hub.bootCycle) * 5 / 3

/-- A message header (R372). -/
def hdrBytes (type op : Nat) (seq ack : Word32) (journey status length : Nat) : List Byte :=
  leBytes 32 (packBits [(0, 1), (8, type), (16, op), (32, seq.toNat), (64, ack.toNat), (96, journey), (112, status),
    (128, length)])

/-- Kept messages with at most 256 responses among them: the oldest response goes, with the notices before it (R380). -/
def trimKept (l : List (Word32 × Option Word32 × List Byte)) : List (Word32 × Option Word32 × List Byte) :=
  if Config.keptResponses < (l.filter fun m => m.2.1.isSome).length then (l.dropWhile fun m => m.2.1.isNone).tail else l

/-- The next number that a connection has not received in order: requests that it holds count (R372, R373). -/
def Conn.nextIn (c : Conn) : Nat → Word32 → Word32
  | 0, k => k
  | n + 1, k => if c.ahead.any fun m => m.1.seq == k then c.nextIn n (k + 1) else k
def Conn.next (c : Conn) : Word32 := c.nextIn c.ahead.length c.expect

/-- Sends a message on a connection: it takes the next number and is kept for a resync (R373, R380, R381). `reqSeq` is the
executed request it answers, if any. -/
def State.sendMsg (s : State) (conn : Nat) (type op journey status : Nat) (reqSeq : Option Word32) (pre body : List Byte) : State :=
  match s.hub.conns.find? fun c => c.num == conn with
  | none => s
  | some c =>
    let bytes := hdrBytes type op c.seq (c.next - 1) journey status body.length ++ pre ++ body
    let c' := { c with seq := c.seq + 1, kept := trimKept (c.kept ++ [(c.seq, reqSeq, bytes)]) }
    { s with hub := { s.hub with conns := upsert (fun x => x.num == conn) c' s.hub.conns,
                                  outbox := s.hub.outbox ++ [⟨conn, bytes⟩] } }

/-- The room's connection (R388): the lowest-numbered open connection at one of its endpoints (assumption 14). -/
def State.roomConn (s : State) (r : Room) : Option Nat :=
  (s.hub.conns.filter fun c => r.endpoints.contains c.endpoint).foldl
    (fun m c => match m with | some n => some (min n c.num) | none => some c.num) none

/-- Sends a notice of a kind about a journey to its room (R388); without a connection it waits in the room's notification queue (R384;
DEDUCED, assumption 14). -/
def State.notice (s : State) (room kind journey : Nat) (body : List Byte) : State :=
  match s.room? room with
  | none => s
  | some r =>
    match s.roomConn r with
    | none => s.putRoom { r with notices := r.notices ++ [(kind, journey, body)] }
    | some c => s.sendMsg c 3 kind journey 0 none [] body

/-! ### Fault records (R398) -/

/-- The fields of a fault record; absent ones are zero. -/
structure FaultRec where
  code : Nat
  precise : Bool := false
  held : Bool := false
  stopped : Bool := false
  journey : Nat := 0
  core : Nat := 0
  group : Nat := 0
  band : Nat := 0
  agent : Nat := 0
  iaddr : Word64 := 0
  waddr : Word64 := 0
  lqaddr : Word64 := 0
  lanes : Word32 := 0
  lane : Nat := 0
  access : Nat := 0
  further : Nat := 0
  vaddr : Word64 := 0
  paddr : Nat := 0
  span0 : Word64 := 0
  round : Word32 := 0
  info : Nat := 0
  syndrome : Word64 := 0
deriving DecidableEq, Repr, Inhabited

/-- The 128 bytes of a record, stamped with the wall time. -/
def FaultRec.bytes (r : FaultRec) (stamp : Nat) : List Byte :=
  leBytes 128 (packBits [(0, r.code), (8, b2n r.precise), (9, b2n r.held), (10, b2n r.stopped), (16, r.journey),
    (24, r.core), (32, r.group), (40, r.band), (48, r.agent), (64, stamp % 2 ^ 64), (128, r.iaddr.toNat),
    (192, r.waddr.toNat), (256, r.lqaddr.toNat), (320, r.lanes.toNat), (352, r.lane), (357, r.access), (360, r.further),
    (384, r.vaddr.toNat), (448, r.paddr), (512, r.span0.toNat), (576, r.round.toNat), (608, r.info),
    (640, r.syndrome.toNat)])

/-- Marks a journey to be stopped by the device when the acting step ends (R379); the first cause stands. -/
def Journey.stopWith (j : Journey) (cause : Nat) : Journey :=
  match j.state with
  | .stopped _ | .closing => j
  | _ => { j with stopFor := some (j.stopFor.getD cause) }

/-- Marks a journey to be stopped wherever it stands. -/
def State.stopJourney (s : State) (n cause : Nat) : State :=
  let s1 := s.modJourney n fun j => j.stopWith cause
  if s1.j.num == n then { s1 with j := s1.j.stopWith cause } else s1

/-- Appends a record to a room's fault queue, with the notice when it was empty; a record that finds 1,024 records is
dropped, the drop count rises and the journey is stopped (R389). -/
def State.postRecord (s : State) (room : Nat) (r : FaultRec) : State :=
  match s.room? room with
  | none => s
  | some m =>
    if m.faultq.length < Config.faultRecords then
      let s1 := s.putRoom { m with faultq := m.faultq ++ [r.bytes s.wallNs] }
      if m.faultq.isEmpty then s1.notice room 3 r.journey (leBytes 8 1) else s1
    else
      (s.putRoom { m with drops := if m.drops = 0xFFFFFFFF then m.drops else m.drops + 1 }).stopJourney r.journey 0x20

/-- A record that names the focused group (R398). -/
def State.groupRec (s : State) (code : Nat) : FaultRec :=
  { code := code, journey := s.g.journey, core := s.g.core, group := s.g.slot, band := s.g.band, iaddr := s.g.insAddr,
    span0 := s.g.span0, round := s.g.round }

/-! ### Debug trace (R407 to R410) -/

/-- The session that holds a room: an operator session of scope 0xFF holds every room (R404). -/
def State.sessionOf (s : State) (room : Nat) : Option Session :=
  s.hub.sessions.find? fun x => x.scope == room || x.scope == 0xFF

/-- Clears the poison of every line that is written whole (R393). -/
def State.clearPoison (s : State) (written : List (Nat × Nat)) : State :=
  { s with poison := s.poison.filter fun l =>
      !(upTo 128).all fun i => written.any fun w => w.1 ≤ l * 128 + i && l * 128 + i < w.1 + w.2 }

/-- Bytes that the device itself stores in pool memory, shorter than a line: they are there at once, and no line is written whole. -/
def State.poolPut (s : State) (pa : Nat) (l : List Byte) : State :=
  { s with mem := s.mem.write pa l, pool := s.pool.write pa l }

/-- Bytes that the Innkeeper writes to pool memory for itself: they are there at once, and a line that they write whole is
poisoned no more (R393). -/
def State.poolWrite (s : State) (pa : Nat) (l : List Byte) : State := (s.poolPut pa l).clearPoison [(pa, l.length)]

/-- State code of a group (R409). -/
def Group.stateCode (g : Group) : Nat :=
  if g.dead then 8 else if g.halted then 6 else if g.hold != .none then 7
  else if g.park.isSome || g.lpark.isSome then 5 else g.wait.toNat

/-- The oldest queued lane word that has not issued: a word that is parked or performed in part has its count (R409, R179). -/
def Group.unissued (g : Group) : Option LqEnt := g.lq.find? fun e => e.acc.isNone

/-- Writes a 48-byte record of a group into a session's ring (R409); a record that finds the ring full is dropped and
counted. -/
def State.traceTo (s : State) (x : Session) (kind : Nat) (g : Group) (state : Nat) (cycle : Nat) : State :=
  let k0 := 2 ^ g.nev - 1
  let lpc := match g.unissued with | some e => e.addr | none => g.lpc
  let qm := match g.unissued with | some e => e.mask.toNat | none => 0
  let bytes := leBytes 48 (packBits [(0, kind), (8, state), (16, g.journey), (24, g.core), (32, g.slot), (40, g.band),
    (48, g.handler.id.toNat), (64, g.spc.toNat), (128, lpc.toNat), (192, k0), (224, qm), (256, cycle % 2 ^ 64)])
  let cap := x.bufLen / 48
  let keep (y : Session) := { s.hub with sessions := upsert (fun z => z.conn == x.conn) y s.hub.sessions }
  if x.wr - x.rd < cap then
    { s.poolPut (x.bufPa + 48 * (x.wr % cap)) bytes with hub := keep { x with wr := x.wr + 1 } }
  else { s with hub := keep { x with dropped := x.dropped + 1 } }

/-- What `%cycle` of a core reads now: the core's own count, which never falls. S need not agree with it; a store that another agent has
made is seen no later than 65,536 cycles after its completion, so the counts of two cores stand at most that far apart in S (R320). -/
def State.clockOf (s : State) (c : Core) : Nat := max c.clock (s.cycles + s.freeNat (59 * 2 ^ 60) % 65537)

/-- Writes a trace record of the focused group when a session holds its room, with `%cycle` of its core (R409). -/
def State.trace (s : State) (kind : Nat) : State :=
  match s.sessionOf s.g.room with
  | some x => { s.traceTo x kind s.g s.g.stateCode (s.clockOf s.c) with c := { s.c with clock := s.clockOf s.c } }
  | none => s

/-- The same for a group that is not in the focus, with a state code. -/
def State.traceFor (s : State) (x : Session) (kind : Nat) (g : Group) (code : Nat) : State :=
  let c := s.core g.core
  (s.traceTo x kind g code (s.clockOf c)).putCore { c with clock := s.clockOf c }

/-! ### Traps and the return from them -/

/-- What a trap adds to the record beside its code. -/
structure TrapArg where
  waddr : Word64 := 0
  lqaddr : Word64 := 0
  vaddr : Word64 := 0
  info : Nat := 0
  access : Nat := 0
  next : Bool := false
deriving DecidableEq, Repr, Inhabited

/-- Taking a precise trap (R7, R48, R98): once everything earlier has completed or parked, a record enters the room's fault
queue and the group is held at the instruction, whose effect does not happen. `next` is set where a resume goes on after
the instruction (UserTrap); otherwise it executes the instruction again. -/
def State.takeTrap (s : State) (code : Nat) (a : TrapArg) : State :=
  if s.doneOrParked then
    let r := { s.groupRec code with precise := true, held := true, waddr := a.waddr, lqaddr := a.lqaddr, vaddr := a.vaddr,
                                    info := a.info, access := a.access }
    let s1 := s.postRecord s.g.room r
    (s1.modG fun g => { g with hold := .trap a.next, spc := g.insAddr, wait := 7 }).trace 7
  else s.stall 3

/-- The return from a trap or an unresolved fault (R98, R166, R345): the group goes on after the instruction or executes
it again, and fetches its next instruction anew (R406, R410); a guard record is cleared; a parked instruction replays. -/
def Group.resume (g : Group) : Group :=
  let on (next : Bool) : Group :=
    if next then { g with hold := .none, spc := g.insAddr + BitVec.ofNat 64 (4 * g.insLen), passed := false }
    else { g with hold := .none }
  let g1 := match g.hold with
    | .none => g
    | .trap next => on next
    | .guard => { g with hold := .none, guard := none }
    | .brk next => on next
  { g1 with park := g1.park.map fun p => { p with ready := true }, lpark := g1.lpark.map fun p => { p with ready := true },
            wait := 1 }

/-- Whether a group stands at a `brk` for its session (R99). -/
def Hold.isBrk : Hold → Bool
  | .brk _ => true
  | _ => false

/-- Whether a resume finds something that holds the group. -/
def Group.isHeld (g : Group) : Bool :=
  (g.hold != .none && !g.hold.isBrk) || g.park.any (·.recorded) || g.lpark.any (·.recorded)

/-- Reports the guard record as the imprecise ScratchGuard fault (R166, R167): the group is held before the instruction. -/
def State.reportGuard (s : State) (r : Guard) : State :=
  let bank := r.off.toNat / 8 % 64
  let f := { s.groupRec 0x0A with held := true, waddr := r.waddr, lqaddr := r.lqAddr, lane := r.lane, further := r.further,
                                  vaddr := r.off, info := packBits [(0, bank), (8, r.kind.toNat)] }
  ((s.postRecord s.g.room f).modG fun g => { g with hold := .guard, spc := g.insAddr, wait := 7 }).trace 7

/-! ### Translation (R333 to R349) -/

/-- Right shift of a page size (R335). -/
def pageShift (size : BitVec 2) : Nat :=
  match size.toNat with
  | 0 => 16 | 1 => 21 | 2 => 30 | _ => 34

/-- Slot of a page number in a way of a descriptor (R338). -/
def tableSlot (v : Nat) (w : Nat) (d : TableDesc) : Nat :=
  let x : Word64 := (BitVec.ofNat 64 v ^^^ d.key) + BitVec.ofNat 64 (w + 1) * 0x9E3779B97F4A7C15
  let x := (x ^^^ (x >>> 30)) * 0xBF58476D1CE4E5B9
  let x := (x ^^^ (x >>> 27)) * 0x94D049BB133111EB
  let x := x ^^^ (x >>> 31)
  (x >>> (64 - d.lgn)).toNat

/-- Pool physical address of slot i of way w (R337). -/
def TableDesc.entryAt (d : TableDesc) (w i : Nat) : Nat := d.base.toNat + (w * 2 ^ d.lgn + i) * 16

/-- The entry that a descriptor shows for a page number (R339); an old descriptor shows only slots not yet migrated. -/
def TableDesc.probe (d : TableDesc) (old : Bool) (v : Nat) : Option Pte :=
  if !d.live then none else
    ([0, 1, 2].filterMap fun (w : Nat) =>
      let i := tableSlot v w d
      if old && i < d.cursor then none else
        (d.slots.find? fun (e : Nat × Pte) => e.1 == d.entryAt w i && e.2.vpn == v).map (·.2)).head?

/-- Entries that a table shows. -/
def Table.entries (t : Table) : List Pte :=
  let c := t.cur.slots.map Prod.snd
  c ++ (if t.old.live then (t.old.slots.map Prod.snd).filter fun e => !c.any fun x => x.vpn == e.vpn else [])

/-- Whether a line is of a journey's pool memory: a page of its tables lies over it (R331, R336). -/
def Journey.holdsLine (j : Journey) (line : Nat) : Bool :=
  j.tables.any fun t => t.entries.any fun e =>
    !e.window && e.target.toNat ≤ 128 * line && 128 * line < e.target.toNat + 2 ^ pageShift e.size

/-- Whether a run of pool memory holds a frame whose shootdown has not completed: the Innkeeper does not reuse it yet (R342). -/
def State.framePending (s : State) (pa len : Nat) : Bool :=
  s.journeys.any fun j => j.unmapped.any fun f => f.1 < pa + len && pa < f.1 + f.2

/-- The other journeys of the focused journey's room, whose pages may lie over the same frames. -/
def State.frameMates (s : State) : List Journey := s.journeys.filter fun k => k.room == s.j.room && k.num != s.j.num

/-- The hit of one page size: the current descriptor before the old one (R339). -/
def Table.probe (t : Table) (v : Nat) : Option Pte :=
  match t.cur.probe false v with
  | some e => some e
  | none => t.old.probe true v

/-- The walk of a journey's four tables: the hit of the smallest size is used (R339). -/
def Journey.walk (j : Journey) (va : Nat) : Option Pte :=
  ([0, 1, 2, 3].filterMap fun i =>
    (j.tables[i]?).bind fun t => t.probe (va % 2 ^ 57 / 2 ^ pageShift (BitVec.ofNat 2 i))).head?

/-- Rights that an access needs (R343). -/
structure Need where
  r : Bool := false
  w : Bool := false
  x : Bool := false
deriving DecidableEq, Repr

def needR : Need := { r := true }
def needW : Need := { w := true }
def needRW : Need := { r := true, w := true }
def needX : Need := { x := true }

/-- A translation's result: a pool address, a place in an export, or a failure's code (R347). -/
inductive Xlat where
  | pool (pa : Nat)
  | peer (window : Nat) (off : Nat)
  | fail (code : Nat)
deriving DecidableEq, Repr

/-- Whether a run of pool bytes lies wholly within one extent (R334). -/
def Room.holds (r : Room) (pa len : Nat) : Bool := r.extents.any fun e => e.base ≤ pa && pa + len ≤ e.base + e.len

/-- Judges an entry for an access: rights, extents, windows (R334, R343, R349). -/
def judge (j : Journey) (r : Option Room) (e : Pte) (n : Need) (va : Nat) : Xlat :=
  let sh := pageShift e.size
  if (n.r && !e.r) || (n.w && !e.w) || (n.x && !e.x) then .fail 0x14
  else if e.window then
    let i := e.target.toNat % 2 ^ 16
    if j.windows.any fun w => w.idx == i then .peer i (e.target.toNat / 2 ^ 16 * 2 ^ 16 + va % 2 ^ sh) else .fail 0x17
  else if (match r with | some m => m.holds e.target.toNat (2 ^ sh) | none => false) then
    .pool (e.target.toNat + va % 2 ^ sh)
  else .fail 0x16

/-- Translation without caches, as the Innkeeper probes it. -/
def State.walkOf (s : State) (j : Journey) (n : Need) (va : Word64) : Xlat :=
  if va.toNat / 2 ^ 57 != 0 then .fail 0x15 else
    match j.walk va.toNat with
    | some e => judge j (s.room? j.room) e n va.toNat
    | none => .fail 0x13

def PageReg.pte (p : PageReg) : Pte := ⟨p.vpn, p.size, p.r, p.w, p.x, p.window, p.target⟩
def PageReg.covers (p : PageReg) (va : Nat) : Bool := va / 2 ^ pageShift p.size == p.vpn

/-- Where an address leads through a translation that the focused journey holds. -/
def State.reach (s : State) (p : PageReg) (n : Need) (va : Word64) : Xlat := judge s.j (s.room? s.j.room) p.pte n va.toNat

/-- Whether a held translation serves an access: it is of the journey's present context, covers the address and grants the access. -/
def State.serves (s : State) (n : Need) (va : Word64) (p : PageReg) : Bool :=
  p.tag.toNat == s.j.tag.toNat && p.covers va.toNat && (match s.reach p n va with | .fail _ => false | _ => true)

/-- Generation of the tables of the focused journey's room (R177). -/
def State.tableGen (s : State) : Nat :=
  match s.room? s.j.room with
  | some r => r.tableGen
  | none => 0

/-- A last-page register with a translation in it: of the room's present tables (R177). -/
def State.loadPage (s : State) (lane : Option Nat) (p : PageReg) : State :=
  match lane with
  | some i => s.modG fun g => { g with pages := upsert (fun e => e.1 == i) (i, { p with gen := s.tableGen }) g.pages }
  | none => s

/-- The translation of the focused journey's address: from the lane's last-page register, the core's TLB or the walk (R177, R341), or
the code of its failure. A cached entry is used while it grants the access; the caches fill on a walk. -/
def State.translate (s : State) (lane : Option Nat) (n : Need) (va : Word64) : State × (PageReg ⊕ Nat) :=
  if va.toNat / 2 ^ 57 != 0 then (s, .inr 0x15) else
    let reg : Option PageReg := match lane with
      | some i => (s.g.pages.find? fun (e : Nat × PageReg) => e.1 == i && e.2.gen == s.tableGen && s.serves n va e.2).map Prod.snd
      | none => none
    match reg with
    | some p => (s, .inl p)
    | none =>
      match s.c.tlb.find? fun e => e.journey == s.j.num && s.serves n va e.page with
      | some e => (s.loadPage lane e.page, .inl e.page)
      | none =>
        match s.j.walk va.toNat with
        | none => (s, .inr 0x13)
        | some e =>
          match judge s.j (s.room? s.j.room) e n va.toNat with
          | .fail c => (s, .inr c)
          | _ =>
            let p : PageReg := ⟨e.vpn, e.size, e.r, e.w, e.x, e.window, e.target, s.j.tag.setWidth 32, 0⟩
            let keep := if s.c.tlb.length < Config.tlbEntries then s.c.tlb
              else s.c.tlb.eraseIdx (s.freeNat 11 % Config.tlbEntries)
            ((s.modC fun c => { c with tlb := ⟨s.j.num, p⟩ :: keep }).loadPage lane p, .inl p)

/-- Where an address leads. -/
def State.xlate (s : State) (lane : Option Nat) (n : Need) (va : Word64) : State × Xlat :=
  match s.translate lane n va with
  | (t, .inl p) => (t, s.reach p n va)
  | (t, .inr c) => (t, .fail c)

/-! ### Coherent memory (R318, R323, R324, R393) -/

/-- Line number of a pool address. -/
def lineOf (pa : Nat) : Nat := pa / 128

/-- The focused group's place. -/
def State.me (s : State) : Nat × Nat := (s.g.core, s.g.slot)

/-- Earlier values that an address may still show to a reader: those from before each engine write back to the first one that the
reader has acquired (R323). -/
def olds (has : Unacq → Bool) (l : List Unacq) (a : Nat) : List Byte :=
  ((l.filter fun u => u.addr == a).takeWhile fun u => !has u).map (·.old)

/-- One byte as the focused group reads it: an engine's write that it has not acquired may show its old or its new value. -/
def State.memByte (s : State) (pa : Nat) : Byte :=
  s.pickOf (6 * 2 ^ 60 + pa) (s.mem.byte pa) (olds (fun u => u.seen.contains s.me) s.j.unacq pa)

/-- Bytes as a group reads them; a poisoned line delivers undefined bytes. -/
def State.memRead (s : State) (pa : Nat) : Nat → List Byte
  | 0 => []
  | n + 1 =>
    (if s.poison.contains (lineOf pa) then (s.freeWord (7 * 2 ^ 60 + pa)).truncate 8 else s.memByte pa)
      :: State.memRead s (pa + 1) n

/-- Bytes as the Innkeeper or an import reads them: an engine write that no group has acquired may show its old value (R326). -/
def State.keeperBytes (s : State) (pa : Nat) : Nat → List Byte
  | 0 => []
  | n + 1 =>
    (if s.poison.contains (lineOf pa) then (s.freeWord (7 * 2 ^ 60 + pa)).truncate 8
     else s.pickOf (6 * 2 ^ 60 + pa) (s.mem.byte pa) (olds (·.acq) s.j.unacq pa))
      :: State.keeperBytes s (pa + 1) n

/-- Whether a read touches poison. -/
def State.poisoned (s : State) (pa n : Nat) : Bool := (upTo n).any fun i => s.poison.contains (lineOf (pa + i))

/-- Whether the last engine write of an address has been acquired by no group. -/
def unowned (l : List Unacq) (a : Nat) : Bool := (l.find? fun u => u.addr == a).any fun u => !u.acq

/-- What a store leaves of the engine writes of an address with some value: over one that has been acquired it wins, and a group that
has not acquired that one may still see its value. -/
def stored (l : List Unacq) (a : Nat) (now : Byte) : List Unacq :=
  let rest := l.filter fun u => u.addr != a
  match l.find? fun u => u.addr == a with
  | some u => if u.acq then { u with old := now } :: rest else rest
  | none => rest

/-- Whether an engine operation of some core is pending. -/
def State.engBusy (s : State) : Bool :=
  s.c.ops.any (fun o => o.st == .pending) || s.cores.any fun c => c.ops.any fun o => o.st == .pending

/-- A store made while operations are under way: by a free choice it wins over what one of them writes to the byte later (R324). -/
def State.keepIn (s : State) (busy : Bool) (key addr : Nat) (l : List (Nat × Nat)) : List (Nat × Nat) :=
  if busy && s.freeBit (key * 2 ^ 60 + addr) then (addr, s.draw) :: l else l

/-- Whether such a store keeps a byte from an operation that was issued in a step. -/
def keepsFrom (l : List (Nat × Nat)) (addr born : Nat) : Bool := l.any fun e => e.1 == addr && decide (born < e.2)

/-- One byte stored in S: over an engine write that no group has acquired either value may end there (R324). -/
def State.putByte (s : State) (pa : Nat) (x : Byte) : State :=
  let keepOld := unowned s.j.unacq pa && s.freeBit (8 * 2 ^ 60 + pa)
  { s with mem := if keepOld then s.mem else s.mem.put pa x,
           j := { s.j with unacq := stored s.j.unacq pa (s.mem.byte pa), kept := s.keepIn s.engBusy 52 pa s.j.kept } }

/-- The line of a store is unpublished from now on (R331). -/
def State.markDirty (s : State) (pa : Nat) : State :=
  if s.j.dirty.contains (lineOf pa) then s else { s with j := { s.j with dirty := lineOf pa :: s.j.dirty } }

/-- Bytes stored by a group in address order. -/
def State.memWrite (s : State) (pa : Nat) : List Byte → State
  | [] => s
  | x :: xs => State.memWrite ((s.putByte pa x).markDirty pa) (pa + 1) xs

/-- The unit that a DataPoison record names: by a free choice a Cellar slice or the port of the line, as the manual does not say which
(R398; DESIGN CHOICE, assumption 92). -/
def State.poisonUnit (s : State) (pa : Nat) : Nat :=
  if s.freeBit (56 * 2 ^ 60) then packBits [(0, s.freeNat (56 * 2 ^ 60 + 1) % Config.numCores), (16, 1)]
  else packBits [(0, Config.portOf pa % 24), (16, 2)]

/-- The record DataPoison and the stop of the journey (R393); `waddr` is 0 where no lane word reads. -/
def State.dataPoison (s : State) (agent access : Nat) (iaddr waddr : Word64) (pa : Nat) (va : Word64) (lane : Nat) : State :=
  let r := { s.groupRec 0x1A with stopped := true, agent := agent, access := access, iaddr := iaddr, waddr := waddr,
                                  info := s.poisonUnit pa,
                                  lqaddr := (if waddr = 0 then 0 else iaddr), vaddr := va, lane := lane,
                                  paddr := lineOf pa * 128, syndrome := Config.syndrome s.draw }
  (s.postRecord s.g.room r).stopJourney s.g.journey 0x1A

/-- Address of the instruction that issued an operation. -/
def State.opIaddr (s : State) (op : Nat) : Word64 :=
  match s.c.ops.find? fun o => o.slot == op with
  | some o => o.iaddr
  | none => 0

/-- Size of a band's allocation: the handler's bytes rounded up to 256 (R161). -/
def Handler.allocation (h : Handler) : Nat := (h.scratch.toNat + 255) / 256 * 256

/-! ### Stage rings (R271, R272) -/

/-- The ring of a block of 128 bytes at an offset of an allocation; none where it is malformed. -/
def ringOf (l : List Byte) (alloc off : Nat) : Option Ring :=
  let r : Ring := ⟨off, bitsOf (fieldAt l 0 1) 0 7, bitsOf (fieldAt l 0 1) 7 1 == 1, fieldAt l 4 4, fieldAt l 8 4,
    fieldAt l 16 4, fieldAt l 24 4⟩
  if off % 64 == 0 && off + 128 ≤ alloc && 1 ≤ r.slots && r.slots ≤ 64 && fieldAt l 1 3 == 0 && fieldAt l 12 4 == 0
      && r.sbytes % 128 == 0 && 128 ≤ r.sbytes && r.sbytes ≤ 262144 && r.doff % 128 == 0
      && r.doff + r.slots * r.sbytes ≤ alloc then some r else none

/-- The ring whose block stands at an offset of a memory. -/
def ringAt (m : Memory) (alloc off : Nat) : Option Ring := ringOf (m.read off 128) alloc off

/-- The modulus of a ring's sequence numbers (R272). -/
def Ring.modulus (r : Ring) : Nat := 2 * r.slots * (2 ^ 31 / r.slots)
/-- Slot of a number, and the parity of its lap. -/
def Ring.slot (r : Ring) (n : Nat) : Nat := n % r.slots
def Ring.lap (r : Ring) (n : Nat) : Nat := n / r.slots % 2
/-- Offset of a slot's control byte, and of its data. -/
def Ring.ctl (r : Ring) (s : Nat) : Nat := r.off + 64 + s
def Ring.data (r : Ring) (s : Nat) : Nat := r.doff + s * r.sbytes

/-- Phases and type of a slot. -/
def fullBit (x : Byte) : Nat := b2n (x.getLsbD 0)
def emptyBit (x : Byte) : Nat := b2n (x.getLsbD 1)
def ctlByte (f e : Nat) (eos : Bool) : Byte := BitVec.ofNat 8 (f + 2 * e + 4 * b2n eos)

/-- Whether some slot of a ring has been filled and not released. -/
def Ring.busy (r : Ring) (m : Memory) : Bool := (upTo r.slots).any fun s => fullBit (m.byte (r.ctl s)) != emptyBit (m.byte (r.ctl s))

/-- The ring block that a stream command names; a set command names none. -/
def SeCmd.ringOff (c : SeCmd) : Option Nat :=
  match c.regs with
  | r0 :: r1 :: _ => if r0.toNat % 256 == 3 then none else some (r1.toNat / 2 ^ 32)
  | _ => none

/-- Whether a named ring is in use: a command or an unpublished fill names it, or a slot is full. -/
def State.ringInUse (s : State) (off : Nat) : Bool :=
  ((s.c.se0 ++ s.c.se1).any fun c => c.band == s.b.slot && c.ringOff == some off)
    || s.b.fills.any (fun f => f.ring == off)
    || match ringAt s.b.spm s.b.handler.allocation off with
       | some r => r.busy s.b.spm
       | none => false

/-- The ring in use that an offset lies in. -/
def State.ringOver (s : State) (off : Nat) : Option Nat :=
  (s.b.rings.map Prod.fst).find? fun r => r ≤ off && off < r + 128 && s.ringInUse r

/-! ### Scratchpad (R161, R165, R175, R237, R238) -/

/-- Whether bytes of the allocation are within bounds. -/
def State.scratchOk (s : State) (off : Int) (n : Nat) : Bool := 0 ≤ off && off + n ≤ s.b.handler.allocation

/-- One scratchpad byte as a group of the band reads it (R174, R323); bytes of a bound iterator block and of a ring in use are
unspecified (R203, R271). -/
def State.spByte (s : State) (off : Nat) : Byte :=
  if s.b.dstacks.any (fun t => t.isb ≤ off && off < t.isb + 512) || (s.ringOver off).isSome then
    (s.freeWord (9 * 2 ^ 60 + off)).truncate 8
  else s.pickOf (10 * 2 ^ 60 + off) (s.b.spm.byte off) (olds (fun u => u.seen.contains s.me) s.b.unacq off)

def State.spRead (s : State) (off : Nat) : Nat → List Byte
  | 0 => []
  | n + 1 => s.spByte off :: State.spRead s (off + 1) n

/-- A store to a bound iterator block spoils every later item of its stack (R203); a store to a ring in use breaks the
ring, and one to a ring out of use begins a new ring (R271). -/
def State.touch (s : State) (off : Nat) : Band :=
  { s.b with dstacks := s.b.dstacks.map fun t => if t.isb ≤ off && off < t.isb + 512 then { t with spoiled := true } else t,
             broken := match s.ringOver off with
               | some r => if s.b.broken.contains r then s.b.broken else r :: s.b.broken
               | none => s.b.broken,
             rings := s.b.rings.filter fun r => !(r.1 ≤ off && off < r.1 + 128) || s.ringInUse r.1 }

/-- One scratchpad byte stored by a group: it enters the write queue (R175). -/
def State.spPut (s : State) (off : Nat) (x : Byte) : State :=
  let keepOld := unowned s.b.unacq off && s.freeBit (11 * 2 ^ 60 + off)
  let b := s.touch off
  let y := if keepOld then b.spm.byte off else x
  { s with b := { b with spm := b.spm.put off y, wq := b.wq ++ [(off, y)], unacq := stored b.unacq off (b.spm.byte off),
                         kept := s.keepIn (s.engBusy || !b.copies.isEmpty) 53 off b.kept } }

def State.spWrite (s : State) (off : Nat) : List Byte → State
  | [] => s
  | x :: xs => State.spWrite (s.spPut off x) (off + 1) xs

/-- Drains the band's write queues to the wide port (R238). -/
def Band.drain (b : Band) : Band := { b with wide := b.wq.foldl (fun m e => m.put e.1 e.2) b.wide, wq := [] }

/-- One byte through the engines' wide port: the drained value, or any value still queued (R237). `turn` tells the reads of
one step of an engine apart. -/
def State.wideByteAt (s : State) (turn off : Nat) : Byte :=
  let queued := (s.b.wq.filter fun e => e.1 == off).map (·.2)
  let vals := s.b.wide.byte off :: queued
  (vals[s.freeNat (12 * 2 ^ 60 + turn * 2 ^ 32 + off) % vals.length]?).getD 0

def State.wideReadAt (s : State) (turn off : Nat) : Nat → List Byte
  | 0 => []
  | n + 1 => s.wideByteAt turn off :: State.wideReadAt s turn (off + 1) n

def State.wideByte (s : State) (off : Nat) : Byte := s.wideByteAt 0 off
def State.wideRead (s : State) (off n : Nat) : List Byte := s.wideReadAt 0 off n

/-- What an operation writes as: its tag, and the step in which it was issued. -/
structure Writer where
  tag : Nat
  born : Nat

/-- Queued bytes with one byte changed as a function says. -/
def mapQueued (off : Nat) (f : Byte → Byte) (l : List (Nat × Byte)) : List (Nat × Byte) :=
  l.map fun e => if e.1 == off then (e.1, f e.2) else e

/-- One byte changed by an engine through the wide port, in every view of it, unacquired until a group observes it (R323). A store that
was made while the operation was under way may win (R324): then only a group that has not acquired may see the engine's value. -/
def State.wideMap (s : State) (w : Writer) (off : Nat) (f : Byte → Byte) : State :=
  let old := s.b.spm.byte off
  if keepsFrom s.b.kept off w.born then
    { s with b := { s.b with unacq := { addr := off, old := f old, tag := w.tag } :: s.b.unacq } }
  else
    { s with b := { s.b with spm := s.b.spm.put off (f old), wide := s.b.wide.put off (f (s.b.wide.byte off)),
                             wq := mapQueued off f s.b.wq,
                             unacq := { addr := off, old := old, tag := w.tag } :: s.b.unacq } }

/-- One byte written by an engine through the wide port. -/
def State.widePut (s : State) (w : Writer) (off : Nat) (x : Byte) : State := s.wideMap w off fun _ => x

def State.wideWrite (s : State) (w : Writer) (off : Nat) : List Byte → State
  | [] => s
  | x :: xs => State.wideWrite (s.widePut w off x) w (off + 1) xs

/-- One byte written by an engine to pool memory, unacquired until a group observes it (R323), unless a store wins (R324). -/
def State.engPut (s : State) (w : Writer) (pa : Nat) (x : Byte) : State :=
  if keepsFrom s.j.kept pa w.born then
    { s with j := { s.j with unacq := { addr := pa, old := x, tag := w.tag } :: s.j.unacq } }
  else
    { s with mem := s.mem.put pa x,
             j := { s.j with unacq := { addr := pa, old := s.mem.byte pa, tag := w.tag } :: s.j.unacq } }

def State.engWrite (s : State) (w : Writer) (pa : Nat) : List Byte → State
  | [] => s
  | x :: xs => State.engWrite (s.engPut w pa x) w (pa + 1) xs

/-- Lines that hold an engine write whose publication has not completed, of those some test admits (R331). -/
def Journey.engLines (j : Journey) (p : Unacq → Bool) : List Nat :=
  ((j.unacq.filter fun u => !u.pub && p u).map fun u => lineOf u.addr).eraseDups

/-- A line of the journey has been published: its engine writes count as published. -/
def Journey.pubLine (j : Journey) (line : Nat) : Journey :=
  { j with dirty := j.dirty.filter fun l => l != line,
           unacq := j.unacq.map fun u => if lineOf u.addr == line then { u with pub := true } else u }

/-- Engine writes become plain ones that every agent has acquired (R325, R326): their unpublished lines stay unpublished. -/
def Journey.settleWrites (j : Journey) : Journey :=
  { j with dirty := j.dirty ++ (j.engLines fun _ => true).filter (fun l => !j.dirty.contains l), unacq := [], kept := [] }

/-- A ring's block is changed at once in both views (R271); stores of these bytes that still stand in the write queues came before. -/
def State.ringPut (s : State) (off : Nat) : List Byte → State
  | [] => s
  | x :: xs =>
    State.ringPut { s with b := { s.b with spm := s.b.spm.put off x, wide := s.b.wide.put off x, wq := s.b.wq.filter fun e => e.1 != off } }
      (off + 1) xs

/-- A write that a group has acquired. -/
def Unacq.take (u : Unacq) (me : Nat × Nat) : Unacq :=
  { u with acq := true, seen := if u.seen.contains me then u.seen else me :: u.seen }

/-- The focused group acquires the engine writes and copies of a kind, of its band's scratchpad and of memory (R323). -/
def State.acquireIf (s : State) (p : Unacq → Bool) : State :=
  let f (u : Unacq) : Unacq := if p u then u.take s.me else u
  { s with b := { s.b with unacq := s.b.unacq.map f }, j := { s.j with unacq := s.j.unacq.map f } }

/-- The focused group observes an operation: its writes are acquired (R323). -/
def State.acquire (s : State) (tag : Nat) : State := s.acquireIf fun u => u.tag == tag

/-- The focused group arrives in a barrier phase: what it has acquired so far is acquired by every group that the phase frees (R323). -/
def State.release (s : State) (p : BarPhase) : State :=
  let f (u : Unacq) : Unacq := if u.seen.contains s.me then { u with rel := p :: u.rel } else u
  { s with b := { s.b with unacq := s.b.unacq.map f }, j := { s.j with unacq := s.j.unacq.map f } }

/-- The focused group passes a completed barrier phase. -/
def State.acquirePhase (s : State) (p : BarPhase) : State := s.acquireIf fun u => u.rel.contains p

/-- Generation of the operation in a slot. -/
def Core.genOf (c : Core) (slot : Nat) : BitVec 16 :=
  match c.ops.find? fun o => o.slot == slot with
  | some o => o.gen
  | none => State.opGen c slot

/-- Tag of an operation: its core, its slot and its generation. -/
def opTag (c : Core) (slot : Nat) : Nat := 2 * ((c.num * 65536 + slot) * 65536 + (c.genOf slot).toNat)
/-- What an operation of the focused core writes as. -/
def State.writer (s : State) (slot : Nat) : Writer :=
  ⟨opTag s.c slot, match s.c.ops.find? fun o => o.slot == slot with | some o => o.born | none => 0⟩
/-- Tag of a copy's access. -/
def copyTag (core slot tag : Nat) : Nat := 2 * ((core * 64 + slot) * 2 ^ 40 + tag) + 1

/-! ### Drover handles (R214) -/

/-- A bound stack of a band by its index. -/
def Band.stack (b : Band) (i : Nat) : Option Stack := b.dstacks.find? fun t => t.index == i
/-- Generation of a band stack index, 1 at dispatch. -/
def Band.stackGenOf (b : Band) (i : Nat) : Word32 := SMap.get 1 i b.stackGen
def handleOf (gen : Word32) (i : Nat) : Word64 := BitVec.ofNat 64 (packBits [(16, gen.toNat), (0, i)])

/-- The stack that a live handle names: bound in this band with the current generation, and no child. The handle's reserved bits are
ignored (R6; DEDUCED, assumption 99). -/
def Band.live (b : Band) (h : Word64) : Option Stack :=
  (b.dstacks.find? fun t => handleOf (b.stackGenOf t.index) t.index == h &&& 0xFFFFFFFF003F).filter fun t => t.parent.isNone

/-! ### Starting engine operations (R148, R239) -/

/-- Waits for a pending future to end: the later overwrite then observes the older operation (R148). -/
def State.waitFuture (s : State) : State := (s.modG fun g => { g with waited := true }).stall 3

/-- The operation of a future is observed (R323). -/
def State.observe (s : State) (f : FReg) : State :=
  match s.opOf f with
  | some o => s.acquire (opTag s.c o.slot)
  | none => s

/-- The operation of a future is observed where the instruction has waited for it (R148). -/
def State.observeWaited (s : State) (f : FReg) : State := if s.g.waited then s.observe f else s

/-- Overwrites a future with a new operation; after a wait for it, the older operation is observed first (R148). -/
def State.startOp (s : State) (f : FReg) (dstV : List VRange) (dstP : List PReg) (dstS : List SReg) : State × Nat :=
  (s.observeWaited f).newOp f dstV dstP dstS

/-! ### Counted accesses (R178, R179) -/

def State.pathCount (s : State) (p : Path) : Nat := (s.g.acc.filter fun a => a.path == p).length

/-- Whether the path's counter stands at 63 (R179). -/
def State.pathFull (s : State) (p : Path) : Bool := Config.maxInFlight ≤ s.pathCount p

/-- A full path whose oldest access is finished falls by one before an instruction issues (R179). -/
def State.lowerFull (s : State) (p : Path) : State :=
  if s.pathFull p then
    match s.g.acc.find? fun a => a.path == p with
    | some a => if a.fin then { s with g := { s.g with acc := dropFirst (fun x => x.path == p) s.g.acc } } else s
    | none => s
  else s

/-- Counts an instruction on a path, where the count may rise; the answer carries its tag. -/
def State.countAcc (s : State) (p : Path) : Option (State × Nat) :=
  let s1 := s.lowerFull p
  if s1.pathFull p then none else
    some ({ s1 with g := { s1.g with acc := s1.g.acc ++ [⟨p, false, s1.nextReq⟩] }, nextReq := s1.nextReq + 1 }, s1.nextReq)

/-- A counted instruction of a group is finished. -/
def Group.finAcc (g : Group) (tag : Nat) : Group :=
  { g with acc := g.acc.map fun a => if a.tag == tag then { a with fin := true } else a }

/-- The peer device behind a window of the focused journey (R348). -/
def State.peerOf (s : State) (w : Nat) : Nat :=
  match s.j.windows.find? fun x => x.idx == w with
  | some x => x.peer.toNat
  | none => 0

/-- An import leaves through a window of the focused journey: with the window's key and slot, at an offset of the export (R348). -/
def State.sendImport (s : State) (w off : Nat) (acc : ReqKind) : State :=
  match s.j.windows.find? fun x => x.idx == w with
  | some x => s.modHub fun h => { h with sent := h.sent ++ [⟨x.peer, x.islot, x.key, off, acc⟩] }
  | none => s

/-- Sends a request of the focused group apart from the instruction. -/
def State.sendReq (s : State) (lane : Nat) (agent : ReqAgent) (pa : Nat) (va : Word64) (kind : ReqKind) (acc : Nat)
    (iaddr waddr : Word64) (lost : List Nat) (ported scalar : Bool := false) : State :=
  let s1 := match agent with
    | .peer _ w => s.sendImport w pa kind
    | _ => s
  { s1 with reqs := s1.reqs ++ [⟨s1.g.core, s1.g.slot, lane, agent, pa, va, kind, acc, iaddr, waddr, lost, ported, scalar⟩] }

/-- The code with which a peer refuses an import (R350): which one is the peer's. -/
def State.refusal (s : State) (key : Nat) : Nat := 0x17 + s.freeNat key % 3

/-- An import that an engine, a copy or the Innkeeper makes for the focused journey, and its answer: the bytes read, or undefined ones
where the peer refuses it,
which a record names (R348, R351). -/
def State.importBy (s : State) (rec : FaultRec) (w off n : Nat) (acc : ReqKind) : State × List Byte :=
  let s1 := s.sendImport w off acc
  let key := 55 * 2 ^ 60 + w * 2 ^ 44 + off % 2 ^ 44
  if s.freeBit (54 * 2 ^ 60 + w * 2 ^ 44 + off % 2 ^ 44) then
    (s1.postRecord s.j.room { rec with code := s.refusal key }, (upTo n).map fun i => (s.freeWord (key + i)).truncate 8)
  else (s1, (upTo n).map fun i => Config.peerByte s.draw (s.peerOf w * 2 ^ 48 + off + i))

/-- Destination registers of a new lane request that an earlier instruction of an open window keeps (R45). -/
def State.lostIn (s : State) (dst : List VRange) (lane : Nat) : List Nat :=
  (dst.flatMap fun r => (upTo r.count).map (r.first + ·)).filter fun r => s.openV r && s.freeBit (winKey 4 r lane)

/-- A copy's tag names this group's copy of a count. -/
def ownCopyTag (g : Group) (tag : Nat) : Option Nat :=
  if tag % 2 == 1 && tag / 2 / 2 ^ 40 == g.core * 64 + g.slot then some (tag / 2 % 2 ^ 40) else none

/-- Whether a copy's write is still to be acquired after a `waitp.sp` of a group. -/
def Group.stillCopying (g : Group) (u : Unacq) : Bool :=
  match ownCopyTag g u.tag with
  | some t => g.acc.any fun a => a.tag == t
  | none => true

/-- A `waitp.sp` that returns acquires every copy of the group whose count has been lowered (R174, R181). -/
def State.acquireCopies (s : State) : State :=
  { s with b := { s.b with unacq := s.b.unacq.map fun u => if s.g.stillCopying u then u else u.take s.me } }

end Sys2Proof.Machine
end

