-- ==== Sys2Proof/Machine/Issue.lean ====
section
/-! DEFINITION. What happens before an instruction executes: fetching scalar words (R18, R345), halting (R405, R407), the
registers an instruction names, and the interlocks that make it wait (R45, R139, R149). -/

namespace Sys2Proof.Machine

/-! ### Fetch -/

/-- Code with which a fetch from a poisoned line answers (R391, R399). -/
abbrev poisonCode : Nat := 0x1A

/-- One scalar word through translation; the code of the failure otherwise (R345). A fetch through a fabric window is an import, which the
peer may refuse (R351). -/
def State.wordAt (s : State) (va : Word64) : State × (Word32 ⊕ Nat) :=
  match s.xlate none needX va with
  | (s1, .pool pa) =>
    if s1.poisoned pa 4 then (s1, .inr poisonCode) else (s1, .inl (BitVec.ofNat 32 (ofLe (s1.memRead pa 4))))
  | (s1, .peer w off) =>
    let r := s1.importBy { s1.groupRec 0 with agent := 5, access := 3, iaddr := va, vaddr := va } w off 4 (.scalarLoad .n32 0)
    (r.1, .inl (BitVec.ofNat 32 (ofLe r.2)))
  | (s1, .fail c) => (s1, .inr c)

/-- Offset of an address in the scalar section, where it lies there. -/
def Handler.scalarOff (h : Handler) (a : Word64) : Option Nat :=
  let d := (a - h.sbase).toNat
  if d < h.ssize.toNat then some d else none

/-- Up to `n` words from an address to the end of the section, and the failure that ends them early. -/
def State.fetchWords (s : State) : Nat → Word64 → State × List Word32 × Option Nat
  | 0, _ => (s, [], none)
  | n + 1, va =>
    match s.g.handler.scalarOff va with
    | none => (s, [], none)
    | some d =>
      if s.g.handler.ssize.toNat < d + 4 then (s, [], none) else
        match s.wordAt va with
        | (s1, .inr c) => (s1, [], some c)
        | (s1, .inl w) =>
          let r := s1.fetchWords n (va + 4)
          (r.1, w :: r.2.1, r.2.2)

/-- Words that the next instruction needs at most: two prefixes, a third that is refused, and an S64 pair (R25, R50). -/
def State.fetchScalar (s : State) : State × List Word32 × Option Nat := s.fetchWords 5 s.g.spc

/-- A scalar instruction or fetch that meets a translation failure parks (R344, R345). -/
def State.parkScalar (s : State) (code : Nat) (va : Word64) (access : Nat) (at_ : Word64) : State :=
  { s with g := { s.g with park := some { code := code, va := va, lane := 0, access := BitVec.ofNat 3 access, atAddr := at_ },
                           wait := 5 } }

/-- A fetch that failed with a code parks the group (R345); one that met poison has no effect but its record and the stop of the journey
(R391, R393). -/
def State.fetchStop (s : State) (code : Nat) (va at_ : Word64) : State :=
  if code = poisonCode then
    match s.xlate none needX va with
    | (s1, .pool pa) => (s1.dataPoison 5 3 va 0 pa va 0).stall 1
    | (s1, _) => s1.stall 1
  else s.parkScalar code va 3 at_

/-- The word at `a` is needed and cannot be had: its translation failed with a code and the fetch parks (R345), or the
section ends and FetchBound is taken (R18). -/
def fetchFail (s : State) (bad : Option Nat) (a : Word64) : State :=
  match bad with
  | some c => s.fetchStop c a a
  | none => s.takeTrap 0x04 { waddr := a }

/-! ### Halting -/

/-- Whether the group stands still: halted, held, or gone. -/
def Group.still (g : Group) : Bool := g.dead || g.halted || g.hold != .none

/-- Whether the scalar stream cannot move: the group stands still, or the stream is parked and no instruction may issue past the
parked one (R48). -/
def Group.scalarStuck (g : Group) : Bool := g.still || (g.park.isSome && g.ahead.left == 0)

/-- The lane word that may move: the head, or behind a parked head the next word inside its window (R45, R48). -/
def Group.laneNext (g : Group) : Option LqEnt :=
  match g.lq with
  | [] => none
  | e :: es =>
    if g.lpark.isSome then
      if e.ins.hdr.any fun h => g.past < h.la.toNat then es.head? else none
    else some e

/-- Whether the lane stream cannot move: nothing may issue, or the group is halted and its head has not issued yet (R405). -/
def Group.laneStuck (g : Group) : Bool :=
  g.dead || match g.laneNext with
    | none => true
    | some e => g.halted && e.acc.isNone

/-- Halts the focused group at its boundary and writes the record of a kind (R405, R407). One that halts at its breakpoint has passed
this check there; another meets it after its resume. -/
def State.haltNow (s : State) (kind : Nat) : State :=
  (s.modG fun g => { g with halted := true, haltReq := false, watchHit := false, passed := g.passed || kind == 5, wait := 6 }).trace kind

/-- Whether the scalar stream stands at a repetition that is neither parked nor held, where nothing stops it (R92). -/
def Group.inRep (g : Group) : Bool := g.repi != 0 && g.park.isNone && g.hold == .none

/-- Whether the scalar stream stands inside an instruction: a barrier that has arrived, or a repetition (R405). -/
def Group.inside (g : Group) : Bool := g.mid || g.inRep

/-- The halt checks at a boundary, in order (R405): a pending request, a watchpoint hit, a scalar-PC breakpoint, which is not met
again once its instruction has been let through. -/
def State.haltCheck (s : State) : Option State :=
  if s.g.inside then none
  else if s.g.haltReq then some (s.haltNow 4)
  else if s.g.watchHit then some (s.haltNow 6)
  else if s.g.passed then none
  else match s.sessionOf s.g.room with
    | some x => if x.bps.any fun p => p.2 == s.g.spc then some (s.haltNow 5) else none
    | none => none

/-! ### Registers an instruction names -/

/-- Scalar registers of a run of eight. -/
def sRun (a : SReg) (n : Nat) : List SReg := (upTo n).map fun i => a + BitVec.ofNat 6 i

/-- Scalar registers that a scalar instruction reads or writes (R149). -/
def sNames : Instr → List SReg
  | .add d a b | .sub d a b | .mul d a b | .mulhiS64 d a b | .mulhiN64 d a b | .divS64 d a b | .divN64 d a b
  | .remS64 d a b | .remN64 d a b | .and d a b | .or d a b | .xor d a b | .andn d a b | .shl d a b | .shr d a b
  | .sar d a b | .minS64 d a b | .minN64 d a b | .maxS64 d a b | .maxN64 d a b | .cmpCc _ d a b
  | .faddF64 d a b | .faddF32 d a b | .fmulF64 d a b | .fmulF32 d a b | .fcmpCcF64 _ d a b | .fcmpCcF32 _ d a b
  | .swait d a b | .sdone d a b => [d, a, b]
  | .addImm d a _ | .addLong d a _ _ | .mulImm d a _ | .andImm d a _ | .andLong d a _ _ | .orImm d a _
  | .orLong d a _ _ | .xorImm d a _ | .xorLong d a _ _ | .shlImm d a _ | .shrImm d a _ | .sarImm d a _
  | .minS64Imm d a _ | .maxS64Imm d a _ | .mov d a | .abs d a | .clz d a | .popc d a | .brev d a
  | .bfx _ d a _ _ _ | .bfi d a _ _ _ | .fcvtF32F64 d a | .fcvtF64F32 d a | .fcvtS64F64 d a | .fcvtN64F64 d a
  | .fcvtF64S64 d a | .fcvtF64N64 d a | .fcvtS64F32 d a | .fcvtN64F32 d a | .fcvtF32S64 d a | .fcvtF32N64 d a
  | .ld _ d a _ | .ldLong _ d a _ _ | .st _ d a _ | .stLong _ d a _ _ | .ldsp _ d a _ | .ldspLong _ d a _ _
  | .stsp _ d a _ | .stspLong _ d a _ _ | .cancelScalar d a _ => [d, a]
  | .sel d a b _ c | .fmaF64 d a b _ c | .fmaF32 d a b _ c => [d, a, b, c]
  | .movi d _ | .moviLong d _ _ | .kpop d _ | .kffs d _ | .sysr d _ | .ftest d _ | .fwait d _ | .fcancel d _
  | .fget d _ => [d]
  | .kset _ a | .sysw a _ | .bz a _ | .bnz a _ | .jmpi a | .waitpLd a | .waitpSt a | .waitpSp a | .waitpGa a
  | .fput _ a | .enough a | .itfree a => [a]
  | .bCc _ a b _ _ => [a, b]
  | .call _ | .ret => [63]
  | .push _ _ a b _ => b :: sRun a 8
  | .mloop _ a b _ aSp _ _ _ _ _ _ _ _ => if aSp then [a, b] else [a]
  | .aset _ b _ _ _ => [b]
  | .cloop _ a b _ _ _ _ _ => [a, b]
  | .itbind _ a b _ _ => [a, b]
  | .drvNext _ a _ _ _ _ _ sc => [a, sc]
  | .schedScalar d a _ _ _ _ => d :: sRun a 7
  | _ => []

/-- Lane registers and predicates that a scalar instruction touches (R140, R149). -/
def vNames : Instr → List VRange
  | .mloop _ _ _ _ aSp _ _ _ _ _ _ _ areg => if aSp then [] else [areg.run 8]
  | .mdrain _ _ lanes _ e8 rs cs _ _ _ vd8 _ _ cv rv =>
    let n := if e8 then 1 else 2
    (if lanes then [⟨8 * vd8.toNat, 64, 1⟩] else []) ++ (if rs then [rv.run n] else []) ++ (if cs then [cv.run n] else [])
  | .cdrain _ _ _ e8 rs cs _ _ _ cv rv =>
    let n := if e8 then 1 else 4
    (if rs then [rv.run n] else []) ++ (if cs then [cv.run n] else [])
  | .drvNext _ _ _ _ vd _ _ _ => [vd.run 2]
  | _ => []

def pNames : Instr → List PReg
  | .kball _ p _ => [p]
  | .drvNext _ _ _ _ _ pd ph _ => [pd, ph]
  | _ => []

/-- Registers of every repetition of a `rep` instruction lie within these steps of its own. -/
def repNames (cnt : BitVec 8) (ds as bs : BitVec 2) (i : Instr) : List SReg :=
  let st := max ds.toNat (max as.toNat bs.toNat)
  (sNames i).flatMap fun r => sRun r (cnt.toNat * st + 1)

/-- The instruction inside its prefixes, and the scalar registers it names. -/
def scalarNames : Instr → Instr × List SReg
  | .modifierPrefix _ _ _ (.repPrefix c ds as bs _ i) | .repPrefix c ds as bs _ (.modifierPrefix _ _ _ i)
  | .repPrefix c ds as bs _ i => (i, repNames c ds as bs i)
  | .modifierPrefix _ _ _ i => (i, sNames i)
  | i => (i, sNames i)

/-! ### Interlocks -/

/-- Whether two register runs share a register. -/
def meets (a b : VRange) : Bool := a.first < b.first + b.count && b.first < a.first + a.count

/-- Lane registers that an outstanding request of the group will write. -/
def Req.dstV (r : Req) : List VRange :=
  match r.kind with
  | .atom _ ty _ _ (some d) => [d.val ty.is64]
  | .load ty d => [ty.range d]
  | _ => []
def Req.dstS (r : Req) : List SReg :=
  match r.kind with
  | .scalarLoad _ d => [d]
  | _ => []

/-- Requests and pending operations of the focused group. -/
def State.myReqs (s : State) : List Req := s.reqs.filter fun r => r.core == s.g.core && r.slot == s.g.slot
def State.myOps (s : State) : List Op :=
  s.c.ops.filter fun o => o.st == .pending && o.band == s.g.band && o.group == s.g.slot

/-- Whether a register is still to be written by a pending operation (R149), or by a request beyond its window (R45). -/
def State.busyS (s : State) (rs : List SReg) : Bool :=
  (s.myOps.any fun o => o.dstS.any fun r => r != 0 && rs.contains r)
    || (s.myReqs.any fun q => q.dstS.any fun r => r != 0 && rs.contains r
          && !(s.g.winS.any fun w => w.reg == r && w.acc == some q.acc))

/-- Whether a lane register is still to be written by a pending operation, or by a request that some test does not excuse. -/
def State.busyVBut (s : State) (excused : Req → VRange → Bool) (vs : List VRange) : Bool :=
  (s.myOps.any fun o => o.dstV.any fun r => vs.any (meets r))
    || (s.myReqs.any fun q => q.dstV.any fun r => vs.any (meets r) && !excused q r)

/-- The same for a lane word: requests of a word inside whose own window it stands do not hold it (R45). -/
def State.busyV (s : State) (vs : List VRange) : Bool :=
  s.busyVBut (fun q r => s.g.winV.any fun w => meets r ⟨w.reg.toNat, 1, 1⟩ && w.acc == some q.acc) vs
def State.busyP (s : State) (ps : List PReg) : Bool := s.myOps.any fun o => o.dstP.any fun r => ps.contains r

/-- Whether an instruction accesses memory or scratchpad, or creates or cancels events, so that program order holds it
behind the group's earlier ones (R139, R293); the issue of an engine operation releases them (R322), and `itfree` writes a block of
the scratchpad (R220). -/
def isAccess : Instr → Bool
  | .ld _ _ _ _ | .ldLong _ _ _ _ _ | .st _ _ _ _ | .stLong _ _ _ _ _ | .ldsp _ _ _ _ | .ldspLong _ _ _ _ _
  | .stsp _ _ _ _ | .stspLong _ _ _ _ _ | .schedScalar _ _ _ _ _ _ | .cancelScalar _ _ _ => true
  | .push _ _ _ _ _ | .mloop _ _ _ _ _ _ _ _ _ _ _ _ _ | .mdrain _ _ _ _ _ _ _ _ _ _ _ _ _ _ _ | .aset _ _ _ _ _
  | .cloop _ _ _ _ _ _ _ _ | .cdrain _ _ _ _ _ _ _ _ _ _ _ | .cmerge _ | .cspill _ _ | .itbind _ _ _ _ _
  | .drvNext _ _ _ _ _ _ _ _ | .itfree _ => true
  | .ldG _ _ _ _ | .stG _ _ _ _ | .ldS _ _ _ _ | .stS _ _ _ _ | .cpGs _ _ _ _ | .ldx _ _ _ _ | .stx _ _ _ _
  | .atom _ _ _ _ _ _ _ _ | .red _ _ _ _ _ _ _ | .sched _ _ _ _ _ _ _ | .cancel _ _ _ => true
  | _ => false

/-- Outstanding requests that later accesses must follow; window accesses are ordered by `fence.sc` alone (R329). -/
def State.orderHeld (s : State) : Bool :=
  s.myReqs.any fun q => !q.abroad

/-- Whether queued lane words touch lane registers or predicates that a scalar instruction reads or writes (R89, R140). -/
def State.laneHeld (s : State) (i : Instr) : Bool :=
  match i with
  | .kball _ _ _ => !s.g.lq.isEmpty || s.myReqs.any fun q => !q.scalar
  | .mloop _ _ _ _ _ _ _ _ _ _ _ _ _ => s.g.lq.any fun e => e.ins.vWrites.any fun r => (vNames i).any (meets r)
  | .mdrain _ _ _ _ _ _ _ _ _ _ _ _ _ _ _ | .cdrain _ _ _ _ _ _ _ _ _ _ _ | .drvNext _ _ _ _ _ _ _ _ =>
    s.g.lq.any fun e => (e.ins.vWrites ++ e.ins.vReads).any (fun r => (vNames i).any (meets r))
      || (e.ins.pWrites ++ e.ins.pReads ++ (match e.ins.hdr with | some h => [h.guard] | none => [])).any
          (fun p => (pNames i).contains p)
  | _ => false

/-- Whether a scalar instruction may execute now: no lane word's window excuses it (R45, R140). -/
def State.readyScalar (s : State) (i : Instr) : Bool :=
  let n := scalarNames i
  !s.busyS n.2 && !s.busyVBut (fun _ _ => false) (vNames n.1) && !s.busyP (pNames n.1) && !s.laneHeld n.1
    && !(isAccess n.1 && (s.orderHeld || s.g.lq.any fun e => isAccess e.ins))

/-- Whether a lane word may issue past the parked head: it makes no access (R344) and writes nothing that the head writes. -/
def State.mayPass (s : State) (i : Instr) : Bool :=
  s.g.lpark.isNone || (!isAccess i && match s.g.lq with
    | e :: _ => !(i.vWrites.any fun r => e.ins.vWrites.any (meets r)) && !i.pWrites.any fun p => e.ins.pWrites.contains p
    | [] => true)

/-- A memory word that issued in `s` and stays in the queue keeps the sources that it read (R45, R137; assumption 118). -/
def State.keepSources (s : State) (e : LqEnt) (t : State) : State :=
  if e.acc.isSome || !isAccess e.ins then t else
    t.modG fun g => { g with lq := match g.lq with
      | x :: xs =>
        if x.acc.isNone then x :: xs else
          { x with kept := e.ins.vReads.flatMap fun r => (upTo r.count).map fun j => (r.first + j, s.vregs (r.first + j)) } :: xs
      | [] => [] }

/-- Whether the lane word that may move is ready to issue. -/
def State.readyLane (s : State) (i : Instr) : Bool :=
  let guard := match i.hdr with | some h => [h.guard] | none => []
  s.mayPass i && !s.busyV (i.vReads ++ i.vWrites) && !s.busyP (i.pReads ++ i.pWrites ++ guard) && !(isAccess i && s.orderHeld)

end Sys2Proof.Machine
end

