-- ==== Sys2Proof/Machine/Float.lean ====
section
/-! DEFINITION. Number formats and rounding (R53 to R66), the aligner of R70 and R71, and the floating operations shared by
scalar instructions, lane words and engines (R85 to R87, R109 to R111). Values are exact dyadic numbers and rounding happens
once, at the end. -/

namespace Sys2Proof.Machine

/-- A binary floating format: fraction width, exponent bias, width, greatest finite magnitude code, the infinity code if
any, and the canonical NaN (R54, R56, R57). -/
structure Fmt where
  f : Nat
  bias : Nat
  width : Nat
  maxMag : Nat
  infMag : Option Nat
  nan : Nat
  hasNan : Bool
deriving DecidableEq, Repr

def fp64 : Fmt := ⟨52, 1023, 64, 0x7FEFFFFFFFFFFFFF, some 0x7FF0000000000000, 0x7FF8000000000000, true⟩
def fp32 : Fmt := ⟨23, 127, 32, 0x7F7FFFFF, some 0x7F800000, 0x7FC00000, true⟩
def fp16 : Fmt := ⟨10, 15, 16, 0x7BFF, some 0x7C00, 0x7E00, true⟩
def bf16 : Fmt := ⟨7, 127, 16, 0x7F7F, some 0x7F80, 0x7FC0, true⟩
def fe4m3 : Fmt := ⟨3, 7, 8, 0x7E, none, 0x7F, true⟩
def fe5m2 : Fmt := ⟨2, 15, 8, 0x7B, some 0x7C, 0x7E, true⟩
def fe2m1 : Fmt := ⟨1, 1, 4, 7, none, 0, false⟩

/-- What a code stands for: a NaN, a poisoned weight, an infinity, or exactly (-1)^neg · m · 2^e. -/
inductive FVal where
  | nan (signalling : Bool)
  | poison
  | inf (neg : Bool)
  | fin (neg : Bool) (m : Nat) (e : Int)
deriving DecidableEq, Repr, Inhabited

/-- The sign bit of a code. -/
def Fmt.sign (t : Fmt) (c : Nat) : Bool := c / 2 ^ (t.width - 1) % 2 == 1
/-- The code without its sign. -/
def Fmt.mag (t : Fmt) (c : Nat) : Nat := c % 2 ^ (t.width - 1)
/-- A code from a sign and a magnitude code. -/
def Fmt.code (t : Fmt) (neg : Bool) (mag : Nat) : Nat := (if neg then 2 ^ (t.width - 1) else 0) + mag
/-- Exponent of the least subnormal. -/
def Fmt.qmin (t : Fmt) : Int := 1 - (t.bias : Int) - t.f
/-- The magnitude code of a subnormal or zero. -/
def Fmt.isSub (t : Fmt) (mag : Nat) : Bool := mag != 0 && mag < 2 ^ t.f

/-- Decodes a code (R54, R55, R57). -/
def Fmt.decode (t : Fmt) (c : Nat) : FVal :=
  let neg := t.sign c
  let mag := t.mag c
  let fr := mag % 2 ^ t.f
  let ex := mag / 2 ^ t.f
  let val := FVal.fin neg (if ex = 0 then fr else 2 ^ t.f + fr) ((max ex 1 : Nat) - (t.bias : Int) - t.f)
  match t.infMag with
  | some i => if mag = i then .inf neg else if i < mag then .nan (fr / 2 ^ (t.f - 1) % 2 == 0) else val
  | none => if t.hasNan && mag == t.nan then .nan false else val

/-- Decodes with subnormals read as zero of the same sign when `ftz` (R55). -/
def Fmt.input (t : Fmt) (ftz : Bool) (c : Nat) : FVal :=
  if ftz && t.isSub (t.mag c) then .fin (t.sign c) 0 0 else t.decode c

/-- A result code with the flags it raises. -/
structure FRes where
  code : Nat
  fl : Word32 := 0
deriving DecidableEq, Repr

/-! ### Rounding -/

/-- Whether a mode sends an overflowing value of this sign to infinity (R61, R63). -/
def towardInf (mode : Rnd) (neg : Bool) : Bool :=
  match mode with
  | .rn | .ra | .rs => true
  | .rz => false
  | .rd => neg
  | .ru => !neg

/-- m / 2^k rounded to an integer, and whether it was inexact (R61, R62 with its draw). -/
def roundShift (mode : Rnd) (neg : Bool) (draw m k : Nat) : Nat × Bool :=
  let q := m / 2 ^ k
  let r := m % 2 ^ k
  if r = 0 then (q, false) else
    let up := match mode with
      | .rn => 2 ^ k < 2 * r || (2 * r == 2 ^ k && q % 2 == 1)
      | .ra => 2 ^ k ≤ 2 * r
      | .rz => false
      | .rd => neg
      | .ru => !neg
      | .rs => draw < r * 2 ^ 16 / 2 ^ k
    (if up then q + 1 else q, true)

/-- m · 2^e as a multiple of 2^q, rounded. -/
def roundAt (mode : Rnd) (neg : Bool) (draw m : Nat) (e q : Int) : Nat × Bool :=
  if q ≤ e then (m * 2 ^ (e - q).toNat, false) else roundShift mode neg draw m (q - e).toNat

/-- Rounds an exact value onto a format's grid (R61) and encodes it: overflow by R61 and R63, tininess after rounding
(R55), flushing of a subnormal result when `ftz`. Tininess is judged on the value rounded with an unbounded exponent, and under `.rs`, whose
draw picks on the format's own grid, on the delivered code (DEDUCED, assumption 25). -/
def roundTo (t : Fmt) (mode : Rnd) (sat ftz : Bool) (draw : Nat) (neg : Bool) (m : Nat) (e : Int) : FRes :=
  if m = 0 then ⟨t.code neg 0, 0⟩ else
    let top := e + m.log2
    let q := max (top - t.f) t.qmin
    let (r, inexact) := roundAt mode neg draw m e q
    let mag := (q - t.qmin).toNat * 2 ^ t.f + r
    let nx := flagIf inexact flNX
    if t.maxMag < mag then
      if sat || (t.infMag.isNone && !t.hasNan) then ⟨t.code neg t.maxMag, flSAT ||| flNX⟩
      else if towardInf mode neg then
        match t.infMag with
        | some i => ⟨t.code neg i, flOF ||| flNX⟩
        | none => ⟨t.nan, flNV ||| flOF ||| flNX⟩
      else ⟨t.code neg t.maxMag, flOF ||| flNX⟩
    else
      let tiny := inexact && match mode with
        | .rs => mag < 2 ^ t.f
        | _ =>
          let free := roundAt mode neg draw m e (top - t.f)
          top < 1 - (t.bias : Int) && !(free.1 == 2 ^ (t.f + 1) && top + 1 == 1 - (t.bias : Int))
      if ftz && t.isSub mag then ⟨t.code neg 0, nx ||| flUF ||| flNX⟩
      else ⟨t.code neg mag, nx ||| flagIf tiny flUF⟩

/-- The canonical NaN, invalid when a NaN input is signalling (R55, R56). -/
def nanRes (t : Fmt) (signalling : Bool) : FRes := ⟨t.nan, flagIf signalling flNV⟩

def FVal.isNan : FVal → Bool
  | .nan _ | .poison => true
  | _ => false

def FVal.isSig : FVal → Bool
  | .nan s => s
  | .poison => true
  | _ => false

def FVal.isInf : FVal → Bool
  | .inf _ => true
  | _ => false

def FVal.isZero : FVal → Bool
  | .fin _ m _ => m == 0
  | _ => false

def FVal.neg : FVal → Bool
  | .inf n | .fin n _ _ => n
  | _ => false

def FVal.mant : FVal → Nat
  | .fin _ m _ => m
  | _ => 0

def FVal.expo : FVal → Int
  | .fin _ _ e => e
  | _ => 0

/-- The negated value; NaN stays. -/
def FVal.flip : FVal → FVal
  | .inf n => .inf (!n)
  | .fin n m e => .fin (!n) m e
  | v => v

/-- Exact sum of two finite values; an exact zero sum of opposite signs is +0, or -0 under rounding down (R55). -/
def addFin (mode : Rnd) (na : Bool) (ma : Nat) (ea : Int) (nb : Bool) (mb : Nat) (eb : Int) : Bool × Nat × Int :=
  let e := min ea eb
  let a : Int := (ma * 2 ^ (ea - e).toNat : Nat)
  let b : Int := (mb * 2 ^ (eb - e).toNat : Nat)
  let s := (if na then -a else a) + (if nb then -b else b)
  if s = 0 then (if na == nb then na else mode == .rd, 0, 0) else (decide (s < 0), s.natAbs, e)

/-- A value of the exact kind rounded and encoded; infinities and NaN as the arithmetic operations deliver them. -/
def FVal.deliver (t : Fmt) (mode : Rnd) (ftz : Bool) : FVal → FRes
  | .nan s => nanRes t s
  | .poison => nanRes t true
  | .inf n => ⟨t.code n (t.infMag.getD t.maxMag), 0⟩
  | .fin n m e => roundTo t mode false ftz 0 n m e

/-- Sum of two decoded values before rounding; `none` for opposite infinities. -/
def addVal (mode : Rnd) (a b : FVal) : Option FVal :=
  match a, b with
  | .inf n, .inf k => if n == k then some a else none
  | .inf _, _ => some a
  | _, .inf _ => some b
  | .fin na ma ea, .fin nb mb eb => let r := addFin mode na ma ea nb mb eb; some (.fin r.1 r.2.1 r.2.2)
  | _, _ => none

/-- Product of two decoded values; `none` for infinity times zero. -/
def mulVal (a b : FVal) : Option FVal :=
  match a, b with
  | .inf n, y => if y.isZero then none else some (.inf (n != y.neg))
  | x, .inf n => if x.isZero then none else some (.inf (n != x.neg))
  | .fin na ma ea, .fin nb mb eb => some (.fin (na != nb) (ma * mb) (ea + eb))
  | _, _ => none

/-- `fadd` (R85, R109). -/
def fAdd (t : Fmt) (mode : Rnd) (ftz : Bool) (a b : Nat) : FRes :=
  let x := t.input ftz a
  let y := t.input ftz b
  if x.isNan || y.isNan then nanRes t (x.isSig || y.isSig) else
    match addVal mode x y with
    | some v => v.deliver t mode ftz
    | none => ⟨t.nan, flNV⟩

/-- `fsub` (R109): a + (-b). -/
def fSub (t : Fmt) (mode : Rnd) (ftz : Bool) (a b : Nat) : FRes := fAdd t mode ftz a (t.code (!t.sign b) (t.mag b))

/-- `fmul` (R85, R109). -/
def fMul (t : Fmt) (mode : Rnd) (ftz : Bool) (a b : Nat) : FRes :=
  let x := t.input ftz a
  let y := t.input ftz b
  if x.isNan || y.isNan then nanRes t (x.isSig || y.isSig) else
    match mulVal x y with
    | some v => v.deliver t mode ftz
    | none => ⟨t.nan, flNV⟩

/-- `fma` (R85, R109): 0 times infinity sets nv even when c is a NaN. -/
def fFma (t : Fmt) (mode : Rnd) (ftz : Bool) (a b c : Nat) : FRes :=
  let x := t.input ftz a
  let y := t.input ftz b
  let z := t.input ftz c
  let zi := (x.isInf && y.isZero) || (x.isZero && y.isInf)
  if x.isNan || y.isNan || z.isNan || zi then nanRes t (x.isSig || y.isSig || z.isSig || zi) else
    match mulVal x y with
    | some p =>
      match addVal mode p z with
      | some v => v.deliver t mode ftz
      | none => ⟨t.nan, flNV⟩
    | none => ⟨t.nan, flNV⟩

/-- Whether a is less than b, both not NaN; zeros are equal. -/
def FVal.lt (a b : FVal) : Bool :=
  match a, b with
  | .inf n, .inf k => n && !k
  | .inf n, _ => n
  | _, .inf n => !n
  | .fin na ma ea, .fin nb mb eb => let r := addFin .rn na ma ea (!nb) mb eb; r.1 && r.2.1 != 0
  | _, _ => false

/-- `fcmp.cc`: the condition and the flags (R86). -/
def fCmp (t : Fmt) (ftz : Bool) (cc : FCond) (a b : Nat) : Bool × Word32 :=
  let x := t.input ftz a
  let y := t.input ftz b
  let un := x.isNan || y.isNan
  let sig := flagIf (x.isSig || y.isSig) flNV
  let all := flagIf un flNV
  let eq := !un && !x.lt y && !y.lt x
  match cc with
  | .eq => (eq, sig)
  | .ne => (!eq, sig)
  | .num => (!un, sig)
  | .nan => (un, sig)
  | .lt => (!un && x.lt y, all)
  | .le => (!un && !y.lt x, all)
  | .gt => (!un && y.lt x, all)
  | .ge => (!un && !x.lt y, all)

/-- `fmin` and `fmax` (R110): an operand bit for bit, or the canonical NaN. -/
def fMinMax (t : Fmt) (isMax nanForm : Bool) (a b : Nat) : FRes :=
  let x := t.decode a
  let y := t.decode b
  let fl := flagIf (x.isSig || y.isSig) flNV
  if x.isNan && y.isNan then ⟨t.nan, fl⟩
  else if x.isNan then ⟨if nanForm then t.nan else b, fl⟩
  else if y.isNan then ⟨if nanForm then t.nan else a, fl⟩
  else
    let aLess := x.lt y || (!y.lt x && x.neg && !y.neg)
    ⟨if aLess != isMax then a else b, fl⟩

/-! ### Reciprocal, square root and the bounded functions (R111) -/

/-- `frcp`: correctly rounded to nearest even. The quotient is formed with two spare bits and a sticky bit. -/
def fRcp (t : Fmt) (a : Nat) : FRes :=
  match t.decode a with
  | .nan s => nanRes t s
  | .poison => nanRes t true
  | .inf n => ⟨t.code n 0, 0⟩
  | .fin n m e =>
    if m = 0 then ⟨t.code n (t.infMag.getD 0), flDZ⟩ else
      let k := m.log2 + t.f + 3
      let q := 2 ^ k / m
      roundTo t .rn false false 0 n (2 * q + (if 2 ^ k % m = 0 then 0 else 1)) (-e - k - 1)

/-- Integer square root by bits, from bit n down. -/
def isqrtFrom (x : Nat) : Nat → Nat → Nat
  | 0, r => if (r + 1) * (r + 1) ≤ x then r + 1 else r
  | n + 1, r =>
    let c := r + 2 ^ (n + 1)
    isqrtFrom x n (if c * c ≤ x then c else r)

/-- Integer square root. -/
def isqrt (x : Nat) : Nat := isqrtFrom x (x.log2 / 2 + 1) 0

/-- `fsqrt`: correctly rounded to nearest even. -/
def fSqrt (t : Fmt) (a : Nat) : FRes :=
  match t.decode a with
  | .nan s => nanRes t s
  | .poison => nanRes t true
  | .inf n => if n then ⟨t.nan, flNV⟩ else ⟨a, 0⟩
  | .fin n m e =>
    if m = 0 then ⟨t.code n 0, 0⟩
    else if n then ⟨t.nan, flNV⟩
    else
      let k : Nat := 2 * t.f + 6 + (if (e - (2 * t.f + 6 : Nat)) % 2 = 0 then 0 else 1)
      let x := m * 2 ^ k
      let r := isqrt x
      roundTo t .rn false false 0 false (2 * r + (if r * r = x then 0 else 1)) ((e - k) / 2 - 1)

/-- Fraction bits of the reference values below. -/
def refBits : Nat := 160
/-- π · 2^160. -/
def refPi : Int := 0x3243F6A8885A308D313198A2E03707344A4093822
/-- ln 2 · 2^160. -/
def refLn2 : Nat := 0xB17217F7D1CF79ABC9E3B39803F2F6AF40F34326

/-- The sum of a power series: term k+1 is term k times x / (step of k), by fuel. -/
def seriesSum (x : Int) (step : Nat → Int) : Nat → Nat → Int → Int → Int
  | 0, _, _, acc => acc
  | n + 1, k, term, acc =>
    let t := term * x / 2 ^ refBits / step k
    seriesSum x step n (k + 1) t (acc + t)

/-- 2^f for a fixed-point f in [0, 1). -/
def refExp2 (f : Nat) : Int :=
  let x : Int := (f * refLn2 / 2 ^ refBits : Nat)
  seriesSum x (fun k => (k : Int) + 1) 45 0 (2 ^ refBits) (2 ^ refBits)

/-- log2 y for a fixed-point y in [1, 2), by repeated squaring, 100 bits. -/
def refLog2 : Nat → Nat → Nat → Nat
  | 0, _, acc => acc
  | n + 1, y, acc =>
    let z := y * y / 2 ^ refBits
    if 2 ^ (refBits + 1) ≤ z then refLog2 n (z / 2) (2 * acc + 1) else refLog2 n z (2 * acc)

/-- sin of a fixed-point angle in [-π, π]. -/
def refSin (x : Int) : Int :=
  seriesSum (-(x * x / 2 ^ refBits)) (fun k => (2 * (k : Int) + 2) * (2 * k + 3)) 50 0 x x

/-- cos of a fixed-point angle in [-π, π]. -/
def refCos (x : Int) : Int :=
  seriesSum (-(x * x / 2 ^ refBits)) (fun k => (2 * (k : Int) + 1) * (2 * k + 2)) 50 0 (2 ^ refBits) (2 ^ refBits)

/-- Distance of two dyadic values at most a third: |a·2^ea - b·2^eb| ≤ c·2^ec. -/
def withinDy (a : Int) (ea : Int) (b : Int) (eb : Int) (c : Nat) (ec : Int) : Bool :=
  let e := min ea (min eb ec)
  (a * 2 ^ (ea - e).toNat - b * 2 ^ (eb - e).toNat).natAbs ≤ c * 2 ^ (ec - e).toNat

/-- A signed numerator of a finite value. -/
def FVal.num : FVal → Int
  | .fin n m _ => if n then -(m : Int) else m
  | _ => 0

/-- A bounded function's result: the free candidate where it lies within `c · 2^ec` of the reference `r · 2^er`, else the
reference rounded to nearest (assumption 9); nx always, uf when tiny (R111). -/
def boundedRes (cand : Word32) (r : Int) (er : Int) (c : Nat) (ec : Int) : FRes :=
  let code :=
    match fp32.decode cand.toNat with
    | .fin n m e => if withinDy (if n then -(m : Int) else m) e r er c ec then cand.toNat
        else (roundTo fp32 .rn false false 0 (decide (r < 0)) r.natAbs er).code
    | _ => (roundTo fp32 .rn false false 0 (decide (r < 0)) r.natAbs er).code
  let mag := fp32.mag code
  ⟨code, flNX ||| flagIf (mag < 2 ^ 23) flUF ||| flagIf (mag == 0x7F800000) flOF⟩

/-- Exponent of an FP32 ulp at a nonzero value r · 2^er (R111). -/
def ulpExp (r : Int) (er : Int) : Int := max (er + r.natAbs.log2 - 23) (-149)

/-- `frsq` within 1 ulp; exact at powers of four. -/
def fRsq (cand : Word32) (a : Nat) : FRes :=
  match fp32.decode a with
  | .nan s => nanRes fp32 s
  | .poison => nanRes fp32 true
  | .inf n => if n then ⟨fp32.nan, flNV⟩ else ⟨0, 0⟩
  | .fin n m e =>
    if m = 0 then ⟨fp32.code n 0x7F800000, flDZ⟩
    else if n then ⟨fp32.nan, flNV⟩
    else if m = 2 ^ m.log2 && (e + m.log2) % 2 = 0 then roundTo fp32 .rn false false 0 false 1 (-((e + m.log2) / 2))
    else
      -- 1/sqrt(m·2^e) = sqrt(2^k / m) · 2^(-(e+k)/2), k chosen so that e + k is even
      let k : Nat := 2 * refBits + (if (e + (2 * refBits : Nat)) % 2 = 0 then 0 else 1)
      let r := isqrt (2 ^ k / m)
      let er := -((e + k) / 2)
      boundedRes cand r er 1 (ulpExp r er)

/-- `fex2` within 2 ulp; exact at integers from -149 to 127. -/
def fEx2 (cand : Word32) (a : Nat) : FRes :=
  match fp32.decode a with
  | .nan s => nanRes fp32 s
  | .poison => nanRes fp32 true
  | .inf n => if n then ⟨0, 0⟩ else ⟨0x7F800000, 0⟩
  | .fin n m e =>
    if m = 0 then ⟨0x3F800000, 0⟩
    -- |x| at least 2^10
    else if 10 ≤ e + m.log2 then
      if n then boundedRes cand 1 (-1024) 2 (-149) else ⟨0x7F800000, flOF ||| flNX⟩
    else
      let s : Int := if n then -(m : Int) else m
      -- x as a fixed-point number; bits below 2^-160 change no result within the bound
      let fx : Int := if 0 ≤ e + refBits then s * 2 ^ (e + refBits).toNat else s / 2 ^ (-(e + refBits)).toNat
      let i := fx / 2 ^ refBits
      let fr := (fx % 2 ^ refBits).toNat
      if 128 ≤ i then ⟨0x7F800000, flOF ||| flNX⟩
      else if fr = 0 && -(refBits : Int) ≤ e && -149 ≤ i then roundTo fp32 .rn false false 0 false 1 i
      else
        let r := refExp2 fr
        let er := i - refBits
        boundedRes cand r er 2 (ulpExp r er)

/-- `flg2`: absolute error 2^-22 on [0.5, 2], else 2 ulp; exact at powers of two. -/
def fLg2 (cand : Word32) (a : Nat) : FRes :=
  match fp32.decode a with
  | .nan s => nanRes fp32 s
  | .poison => nanRes fp32 true
  | .inf n => if n then ⟨fp32.nan, flNV⟩ else ⟨0x7F800000, 0⟩
  | .fin n m e =>
    if m = 0 then ⟨0xFF800000, flDZ⟩
    else if n then ⟨fp32.nan, flNV⟩
    else
      let p := e + m.log2
      if m = 2 ^ m.log2 then roundTo fp32 .rn false false 0 (decide (p < 0)) p.natAbs 0
      else
        let y := m * 2 ^ (refBits - m.log2)
        let r : Int := p * 2 ^ 100 + (refLog2 100 y 0 : Int)
        if p = -1 || p = 0 then boundedRes cand r (-100) 1 (-22) else boundedRes cand r (-100) 2 (ulpExp r (-100))

/-- `fsin` and `fcos`: absolute error 2^-21 up to 2^15, any value in [-1, 1] beyond. -/
def fSinCos (isCos : Bool) (cand : Word32) (a : Nat) : FRes :=
  match fp32.decode a with
  | .nan s => nanRes fp32 s
  | .poison => nanRes fp32 true
  | .inf _ => ⟨fp32.nan, flNV⟩
  | .fin n m e =>
    if m = 0 then ⟨if isCos then 0x3F800000 else fp32.code n 0, 0⟩
    else
      let s : Int := if n then -(m : Int) else m
      let fx : Int := if 0 ≤ e + refBits then s * 2 ^ (e + refBits).toNat else s / 2 ^ (-(e + refBits)).toNat
      if fx.natAbs ≤ 2 ^ 15 * 2 ^ refBits then
        let x := (fx + refPi) % (2 * refPi) - refPi
        boundedRes cand (if isCos then refCos x else refSin x) (-refBits) 1 (-21)
      else boundedRes cand 0 0 1 0

/-! ### Conversions (R63 to R66) -/

/-- One DS8 term in eighths: sign and magnitude code (R59). -/
def ds8Term (c : Nat) : FVal :=
  let k := c % 8
  let s := c / 8 % 2 == 1
  if k = 0 then (if s then .poison else .fin false 0 0) else .fin s 1 ((k : Int) - 4)

/-- A DS8 weight's value (R59). -/
def ds8Decode (c : Nat) : FVal :=
  match ds8Term (c / 16), ds8Term c with
  | .fin na ma ea, .fin nb mb eb => let r := addFin .rn na ma ea nb mb eb; .fin r.1 r.2.1 r.2.2
  | _, _ => .poison

/-- The canonical code of a magnitude in eighths, and its number of nonzero terms; none where no weight has it (R59). -/
def ds8Canon (n : Nat) : Option (Nat × Nat) :=
  if n = 0 then some (0, 0) else
    let ks := [1, 2, 3, 4, 5, 6, 7]
    match ks.find? (fun k => 2 ^ (k - 1) == n) with
    | some k => some (16 * k, 1)
    | none =>
      match (ks.flatMap fun a => ks.map fun b => (a, b)).find? (fun p => p.2 ≤ p.1 && 2 ^ (p.1 - 1) + 2 ^ (p.2 - 1) == n) with
      | some (a, b) => some (16 * a + b, 2)
      | none =>
        match (ks.flatMap fun a => ks.map fun b => (a, b)).find?
            (fun p => p.2 < p.1 && 2 ^ (p.1 - 1) == n + 2 ^ (p.2 - 1)) with
        | some (a, b) => some (16 * a + 8 + b, 2)
        | none => none

/-- The canonical code with a sign: both terms change sign. -/
def ds8Signed (neg : Bool) (code : Nat) : Nat :=
  if neg then code ^^^ (if code = 0 then 0 else if code % 8 = 0 then 0x80 else 0x88) else code

/-- The greatest DS8 grid magnitude at or below n eighths, and the next above it (R66). -/
def ds8Below (n : Nat) : Nat :=
  if 128 ≤ n then 32 * (n / 32) else ((List.range 129).reverse.find? fun k => k ≤ n && (ds8Canon k).isSome).getD 0

def ds8Above (n : Nat) : Nat :=
  if 128 ≤ n then 32 * (n / 32) + 32 else ((List.range 129).find? fun k => n < k && (ds8Canon k).isSome).getD 128

/-- Nonzero terms of a grid magnitude, for the tie rule; above 16 none has a code. -/
def ds8Terms (n : Nat) : Nat := ((ds8Canon n).map (·.2)).getD 3

/-- Conversion of a finite value to DS8 (R66, R63). -/
def toDs8 (mode : Rnd) (sat : Bool) (draw : Nat) (neg : Bool) (m : Nat) (e : Int) : FRes :=
  -- |x| = n / 2^k eighths
  let n := if 0 ≤ e + 3 then m * 2 ^ (e + 3).toNat else m
  let k := if 0 ≤ e + 3 then 0 else (-(e + 3)).toNat
  let lo := ds8Below (n / 2 ^ k)
  let hi := ds8Above (n / 2 ^ k)
  let inexact := lo * 2 ^ k != n
  let twice := 2 * n
  let mid := (lo + hi) * 2 ^ k
  let up := inexact && match mode with
    | .rz => false
    | .rd => neg
    | .ru => !neg
    | .rn => mid < twice || (mid == twice && ds8Terms hi < ds8Terms lo)
    | .ra => mid ≤ twice
    | .rs => draw < (n - lo * 2 ^ k) * 2 ^ 16 / ((hi - lo) * 2 ^ k)
  let v := if up then hi else lo
  if 128 < v then
    if sat then ⟨ds8Signed neg 0x77, flSAT ||| flNX⟩
    else if towardInf mode neg then ⟨0x08, flNV ||| flOF ||| flNX⟩
    else ⟨ds8Signed neg 0x77, flOF ||| flNX⟩
  else
    ⟨ds8Signed neg (((ds8Canon v).map (·.1)).getD 0), flagIf inexact flNX ||| flagIf (inexact && n < 2 ^ k) flUF⟩

/-- Conversion of a finite value to E8M0 (R65). -/
def toE8m0 (mode : Rnd) (sat : Bool) (draw : Nat) (neg : Bool) (m : Nat) (e : Int) : FRes :=
  if m = 0 || neg then ⟨0xFF, flNV⟩ else
    let l := m.log2
    let k : Int := e + l
    let r := m - 2 ^ l
    let up := r != 0 && match mode with
      | .rn => 2 ^ l < 2 * r || (2 * r == 2 ^ l && (k + 127) % 2 == 1)
      | .ra => 2 ^ l ≤ 2 * r
      | .rz | .rd => false
      | .ru => true
      | .rs => draw < r * 2 ^ 16 / 2 ^ l
    let v := if up then k + 1 else k
    if v < -127 then ⟨0, flUF ||| flNX⟩
    else if 127 < v then
      if sat then ⟨0xFE, flSAT ||| flNX⟩
      else if towardInf mode false then ⟨0xFF, flNV ||| flOF ||| flNX⟩
      else ⟨0xFE, flOF ||| flNX⟩
    else ⟨(v + 127).toNat, flagIf (r != 0) flNX⟩

/-- A floating value converted to a binary floating format (R63). -/
def toFmt (t : Fmt) (mode : Rnd) (sat : Bool) (draw : Nat) : FVal → FRes
  | .nan s => if t.hasNan then nanRes t s else ⟨0, flNV⟩
  | .poison => ⟨t.nan, flNV ||| flPSN⟩
  | .inf n =>
    match t.infMag with
    | some i => ⟨t.code n (if sat then t.maxMag else i), 0⟩
    | none =>
      if !t.hasNan || sat then ⟨t.code n t.maxMag, flSAT⟩ else ⟨t.nan, flNV⟩
  | .fin n m e => roundTo t mode sat false draw n m e

/-- A floating value converted to DS8 (R63, R66). -/
def toDs8Val (mode : Rnd) (sat : Bool) (draw : Nat) : FVal → FRes
  | .nan s => ⟨0x08, flagIf s flNV⟩
  | .poison => ⟨0x08, flNV ||| flPSN⟩
  | .inf n => if sat then ⟨ds8Signed n 0x77, flSAT⟩ else ⟨0x08, flNV⟩
  | .fin n m e => toDs8 mode sat draw n m e

/-- A floating value converted to E8M0 (R63, R65). -/
def toE8m0Val (mode : Rnd) (sat : Bool) (draw : Nat) : FVal → FRes
  | .nan s => ⟨0xFF, flagIf s flNV⟩
  | .poison => ⟨0xFF, flNV ||| flPSN⟩
  | .inf n => if n then ⟨0xFF, flNV⟩ else if sat then ⟨0xFE, flSAT⟩ else ⟨0xFF, flNV⟩
  | .fin n m e => toE8m0 mode sat draw n m e

/-- The value of an E8M0 code (R57). -/
def e8m0Decode (c : Nat) : FVal := if c = 0xFF then .nan false else .fin false 1 ((c : Int) - 127)

/-- An integer as an exact value. -/
def intVal (x : Int) : FVal := .fin (decide (x < 0)) x.natAbs 0

/-- A floating value converted to an integer type (R64). -/
def toIntVal (signed : Bool) (w : Nat) (mode : Rnd) (sat : Bool) (draw : Nat) (v : FVal) : FRes :=
  let (lo, hi) := intRange signed w
  let indef := if signed then 2 ^ (w - 1) else 0
  let enc (x : Int) : Nat := (BitVec.ofInt w x).toNat
  match v with
  | .nan _ | .poison => if sat then ⟨0, flNV⟩ else ⟨indef, flNV⟩
  | .inf n => if sat then ⟨enc (if n then lo else hi), flSAT⟩ else ⟨indef, flNV⟩
  | .fin n m e =>
    let (q, inexact) := roundAt mode n draw m e 0
    let x : Int := if n then -(q : Int) else q
    if x < lo || hi < x then
      if sat then ⟨enc (if x < lo then lo else hi), flSAT⟩ else ⟨indef, flNV⟩
    else ⟨enc x, flagIf inexact flNX⟩

/-- An integer converted to another integer type (R64). -/
def intToInt (signed : Bool) (w : Nat) (sat : Bool) (x : Int) : FRes :=
  let r := intResult sat signed w x
  ⟨r.1.toNat, r.2⟩

/-! ### The aligner (R70, R71, R118) -/

/-- A product of two decoded elements. -/
structure Term where
  neg : Bool
  m : Nat
  e : Int
deriving DecidableEq, Repr

/-- Sum of the aligned terms (R70): each magnitude is shifted right and its low bits are discarded. -/
def alignSum (bits : Nat) (top : Int) (ts : List Term) : Int :=
  ts.foldl (fun s t =>
    if t.m = 0 then s else
      let v : Int := (t.m * 2 ^ bits / 2 ^ (top - t.e).toNat : Nat)
      s + (if t.neg then -v else v)) 0

/-- The greatest exponent of the nonzero terms. -/
def topExp (ts : List Term) : Option Int :=
  ts.foldl (fun x t => if t.m = 0 then x else some (match x with | some y => max y t.e | none => t.e)) none

/-- The aligner: terms as pairs of decoded elements, `bits` 12 for 8-bit elements and 14 for 16-bit ones, an FP32
accumulator, one rounding. -/
def aligner (bits : Nat) (ts : List (FVal × FVal)) (acc : Nat) (mode : Rnd) (ftz : Bool) : FRes :=
  let av := fp32.decode acc
  let vals := av :: ts.flatMap fun p => [p.1, p.2]
  let psn := vals.any (· == .poison)
  let products := ts.map fun p => mulVal p.1 p.2
  let infs := (av :: products.filterMap id).filter FVal.isInf
  if vals.any FVal.isNan then ⟨fp32.nan, flagIf (vals.any FVal.isSig) flNV ||| flagIf psn flPSN⟩
  else if products.any Option.isNone then ⟨fp32.nan, flNV⟩
  else
    match infs with
    | i :: rest => if rest.all (· == i) then i.deliver fp32 mode ftz else ⟨fp32.nan, flNV⟩
    | [] =>
      let acc' := if ftz && fp32.isSub (fp32.mag acc) then fp32.code (fp32.sign acc) 0 else acc
      let terms := (products.filterMap id).map fun v => Term.mk v.neg v.mant v.expo
      match topExp terms with
      | none => ⟨acc', 0⟩
      | some top =>
        let s := alignSum bits top terms
        let a := fp32.decode acc'
        let r := addFin mode a.neg a.mant a.expo (decide (s < 0)) s.natAbs (top - bits)
        roundTo fp32 mode false ftz 0 r.1 r.2.1 r.2.2

/-- A value times its scales, added to an accumulator and rounded once (R121, R243, R262); `bad` is an E8M0 scale 0xFF. A quiet NaN
operand is met before an infinity times zero in the product, which then sets no flag (DEDUCED, assumption 88). -/
def scaleAddVal (mode : Rnd) (ftz : Bool) (v : FVal) (scales : List FVal) (bad : Bool) (acc : Nat) : FRes :=
  let a := fp32.input ftz acc
  let all := a :: v :: scales
  if bad then ⟨fp32.nan, flNV⟩
  else if all.any FVal.isNan then nanRes fp32 (all.any FVal.isSig)
  else if (v :: scales).any FVal.isInf && (v :: scales).any FVal.isZero then ⟨fp32.nan, flNV⟩
  else
    match scales.foldl (fun (x : Option FVal) y => x.bind fun z => mulVal z y) (some v) with
    | none => ⟨fp32.nan, flNV⟩
    | some x =>
      match addVal mode x a with
      | none => ⟨fp32.nan, flNV⟩
      | some r => r.deliver fp32 mode ftz

/-- An FP32 partial times its scales, added to an accumulator and rounded once (R121, R243). -/
def scaleAdd (mode : Rnd) (ftz : Bool) (p : Nat) (scales : List FVal) (bad : Bool) (acc : Nat) : FRes :=
  scaleAddVal mode ftz (fp32.input ftz p) scales bad acc

end Sys2Proof.Machine
end

