-- ==== Sys2Proof/Machine/Operands.lean ====
section
/-! DEFINITION. Operand forms shared by the meanings: immediates (R35, R37), conditions (R33, R42), scalar results, lane results
by register and type (R39, R60, R102), and lane and scalar addresses (R95, R169 to R171). -/

namespace Sys2Proof
open Machine

/-! ### Conditions, widths and types -/

/-- Integer conditions (R33) on two 64-bit values. -/
def ICond.holds (c : ICond) (a b : Word64) : Bool :=
  match c with
  | .eq => a == b
  | .ne => a != b
  | .ltS => a.slt b
  | .leS => a.sle b
  | .gtS => b.slt a
  | .geS => b.sle a
  | .ltN => a.ult b
  | .leN => a.ule b
  | .gtN => b.ult a
  | .geN => b.ule a

/-- Conditions of `icmp.cc` on two values read in the type's own sign (R42, R112). -/
def LCond.holds (c : LCond) (a b : Int) : Bool :=
  match c with
  | .eq => a == b
  | .ne => a != b
  | .lt => decide (a < b)
  | .le => decide (a ≤ b)
  | .gt => decide (b < a)
  | .ge => decide (b ≤ a)

/-- Bytes of a scalar access width (R34). -/
def SWidth.bytes : SWidth → Nat
  | .n8 | .s8 => 1
  | .n16 | .s16 => 2
  | .n32 | .s32 => 4
  | .b64 => 8

/-- Whether a scalar width sign-extends. -/
def SWidth.signed : SWidth → Bool
  | .s8 | .s16 | .s32 => true
  | _ => false

def ITy.signed : ITy → Bool
  | .s32 => true
  | .n32 => false

def ICmpTy.signed : ICmpTy → Bool
  | .s32 | .s64 => true
  | _ => false

def F2.fmt : F2 → Fmt
  | .f32 => fp32
  | .f64 => fp64

/-- Format and element width of a lane arithmetic type: two packed elements for the x2 types (R60). -/
def FTy.fmt : FTy → Fmt
  | .f32 => fp32
  | .f64 => fp64
  | .f16x2 => fp16
  | .bf16x2 => bf16

/-- Applies an elementwise operation to a value of a lane floating type: each packed element on its own (R60, R109). -/
def FTy.each (t : FTy) (f : Nat → FRes) : FRes :=
  match t with
  | .f32 | .f64 => f 0
  | .f16x2 | .bf16x2 =>
    let lo := f 0
    let hi := f 1
    ⟨lo.code + hi.code * 2 ^ 16, lo.fl ||| hi.fl⟩

/-- Element k of a value of the type. -/
def FTy.elem (t : FTy) (x k : Nat) : Nat :=
  match t with
  | .f32 | .f64 => x
  | .f16x2 | .bf16x2 => bitsOf x (16 * k) 16

end Sys2Proof

namespace Sys2Proof.Machine

/-- What a meaning answers. -/
abbrev Out := Host.Outcome State Fault Refusal

/-- What an engine answers to a cancel (R151): the state in which the operation is cancelled, that it goes on to its end, or that it has
to come to a boundary first. -/
inductive Cancel where
  | taken (t : State)
  | refused
  | later

/-! ### Scalar results -/

/-- An imm12, imm18 or imm32 sign-extended to 64 bits (R35, R37). -/
def imm64 {w : Nat} (x : BitVec w) : Word64 := x.signExtend 64

/-- Writes a scalar result and passes the instruction. -/
def finS (s : State) (la : BitVec 4) (d : SReg) (x : Word64) : Out := .next (s.setSla la d x).advance

/-- The same with flags. -/
def finSF (s : State) (la : BitVec 4) (d : SReg) (r : Word64 × Word32) : Out :=
  .next ((s.setSla la d r.1).orFlags r.2).advance

/-- A loaded value of `n` bytes, sign- or zero-extended to `w` bits (R95, R172). -/
def extendTo (w n : Nat) (signed : Bool) (x : Nat) : BitVec w :=
  if signed && 2 ^ (8 * n - 1) ≤ x then BitVec.ofInt w ((x : Int) - 2 ^ (8 * n)) else BitVec.ofNat w x

/-- A value of a register, or of an even pair for 64-bit types, as a number (R60). -/
def State.vval (s : State) (w64 : Bool) (r : VReg) (i : Nat) : Nat :=
  if w64 then (s.vpair r.toNat i).toNat else (s.vlane r.toNat i).toNat

/-- Writes a register, or an even pair, in the lanes of a mask, from numbers. -/
def State.setVal (s : State) (la : BitVec 4) (w64 : Bool) (r : VReg) (mask : Word32) (f : Nat → Nat) (acc : Option Nat := none) : State :=
  if w64 then s.setPair la r.toNat mask (fun i => BitVec.ofNat 64 (f i)) acc
  else s.setV la r.toNat mask (fun i => BitVec.ofNat 32 (f i)) acc

/-! ### Lane results (R102 to R104) -/

/-- Writes a lane result in every acting lane and ORs the flags of those lanes; the word is done. -/
def finV (s : State) (h : LaneHdr) (w64 : Bool) (d : VReg) (f : Nat → FRes) : Out :=
  let fl := (s.activeList h).foldl (fun x i => x ||| (f i).fl) 0
  .next (((s.setVal h.la w64 d (s.active h) fun i => (f i).code).orFlags fl).laneDone)

/-- The same for results without flags. -/
def finV0 (s : State) (h : LaneHdr) (w64 : Bool) (d : VReg) (f : Nat → Nat) : Out :=
  .next (s.setVal h.la w64 d (s.active h) f).laneDone

/-- Writes a predicate in every acting lane. -/
def finP (s : State) (h : LaneHdr) (d : PReg) (bits : Word32) : Out := .next (s.setP h.la d (s.active h) bits).laneDone

/-- A 32-bit lane source. -/
def State.lane32 (s : State) (r : VReg) (i : Nat) : Word32 := s.vlane r.toNat i

end Sys2Proof.Machine
end

