-- ==== Sys2Proof/Machine/LaneMem.lean ====
section
/-! DEFINITION. Lane memory words: addresses, guard records, loads, stores, copies and the Porter (R165 to R177), and the issue
of atomics (R187 to R199). -/

namespace Sys2Proof

/-- Bytes of an access type (R39). -/
def MTy.size : MTy → Nat
  | .n8 | .s8 => 1
  | .n16 | .s16 => 2
  | .b32 => 4
  | .b64 => 8
  | .b128 => 16

def MTy.signed : MTy → Bool
  | .s8 | .s16 => true
  | _ => false

/-- Registers that an access type fills or reads. -/
def MTy.regs : MTy → Nat
  | .b64 => 2
  | .b128 => 4
  | _ => 1

/-- Bytes of an atomic type. -/
def ATy.size (t : ATy) : Nat := if t.is64 then 8 else 4

end Sys2Proof

namespace Sys2Proof.Machine

/-! ### Addresses and values -/

/-- A lane register that is a source of the word: as the word read it when it issued (R45, R137). -/
def State.srcLane (s : State) (r i : Nat) : Word32 :=
  if s.g.ictx.acc.isNone then s.vlane r i else
    match s.g.ictx.kept.find? fun e => e.1 == r with
    | some e => laneOf e.2 i
    | none => s.vlane r i

/-- A source by register and type. -/
def State.srcVal (s : State) (w64 : Bool) (r : VReg) (i : Nat) : Nat :=
  if w64 then (s.srcLane (r.toNat + 1) i ++ s.srcLane r.toNat i).toNat else (s.srcLane r.toNat i).toNat

/-- A lane's access address, aligned down to a power of two (R171, R193). -/
def State.laddr (s : State) (m : LaneAddr) (size i : Nat) : Word64 :=
  let ix : Word64 := if m.idx then sext64 (s.srcLane m.b.toNat i) <<< m.scale.toNat else 0
  let x := s.g.ictx.base + sext64 m.off + ix
  x - BitVec.ofNat 64 (x.toNat % size)

/-- The bytes of a lane's data registers. -/
def State.laneData (s : State) (t : MTy) (d : VReg) (i : Nat) : List Byte :=
  ((upTo t.regs).flatMap fun j => leBytes 4 (s.srcLane (d.toNat + j) i).toNat).take t.size

/-- The j-th register's word of loaded bytes (R172). -/
def loadWord (t : MTy) (l : List Byte) (j : Nat) : Word32 :=
  if t.size < 4 then extendTo 32 t.size t.signed (ofLe l) else BitVec.ofNat 32 (ofLe ((l.drop (4 * j)).take 4))

/-- The j-th register's word of a load from coherent memory: from a poisoned line it is undefined as a whole (R393). -/
def State.poolWord (s : State) (t : MTy) (pa j : Nat) : Word32 :=
  if s.poisoned pa t.size then (s.freeWord (7 * 2 ^ 60 + pa + 4 * j)).truncate 32 else loadWord t (s.memRead pa t.size) j

/-- Writes loaded words into the destination of the lanes of a mask (R172): into its first two registers in the lanes of `low`. -/
def State.putLoad (s : State) (la : BitVec 4) (t : MTy) (d : VReg) (low mask : Word32) (f : Nat → Nat → Word32) : State :=
  (upTo t.regs).foldl (fun st j => st.setV la (d.toNat + j) (if j < 2 then low else mask) fun i => f i j) s

/-- Opens the lookahead window of a destination that the answers of a count fill later: it keeps its value until then (R45). -/
def State.awaitLoad (s : State) (la : BitVec 4) (t : MTy) (d : VReg) (mask : Word32) (tag : Nat) : State :=
  (upTo t.regs).foldl (fun st j => st.setV la (d.toNat + j) mask (fun i => s.vlane (d.toNat + j) i) tag) s

/-- Mask of a list of lanes. -/
def maskOf (l : List Nat) : Word32 := mkMask fun i => l.contains i

/-! ### Scratchpad words (R165, R166) -/

/-- Records an out-of-bounds word: the first is kept, later ones are counted. -/
def State.noteGuard (s : State) (lane : Nat) (off : Word64) (kind : BitVec 2) : State :=
  s.modG fun g => match g.guard with
    | none => { g with guard := some ⟨g.ictx.addr, g.ictx.lqAddr, lane, off, kind, 0⟩ }
    | some r => { g with guard := some { r with further := min 255 (r.further + 1) } }

/-- Notes the lowest out-of-bounds lane of a word, if one is. -/
def State.guardLanes (s : State) (lanes : List Nat) (at_ : Nat → Word64) (size : Nat) (kind : BitVec 2) : State :=
  match lanes.find? fun i => !s.scratchOk (at_ i).toInt size with
  | some i => s.noteGuard i (at_ i) kind
  | none => s

/-- Lanes that store: helper lanes never do (R124). -/
def State.storing (s : State) (h : LaneHdr) : List Nat := (s.activeList h).filter fun i => !s.isHelper i

/-- The count of a lane word: a replayed one has its count already (R179). -/
def State.countL (s : State) (p : Path) : Option (State × Nat) :=
  match s.g.ictx.acc with
  | some t => some (s, t)
  | none => s.countAcc p

/-- Finishes a count when nothing of its word is outstanding: no request, no copy, and no parked lane (R178, R179). -/
def State.settleAcc (s : State) (tag : Nat) : State :=
  if s.reqs.any (fun q => q.acc == tag) || s.b.copies.any (fun c => c.tag == tag && c.slot == s.g.slot)
      || s.g.lq.any (fun e => e.acc == some tag) then s
  else s.modG fun g => g.finAcc tag

/-! ### Words in parts (R318, R319)

The lanes of a plain load or store word are separate accesses in ascending order, two of 8 bytes for a lane of a `.b128` word, so another
agent may move between them: a word performs the first `part` accesses, and stays at the head of its queue with the others. -/

/-- How much of a list is taken with its first `n` elements, so that elements that go together are not parted. -/
def grow {α : Type} (same : α → α → Bool) (l : List α) (n : Nat) : Nat :=
  l.zipIdx.foldl (fun b x => if b ≤ x.2 && (l.take b).any (same x.1) then x.2 + 1 else b) n

/-- The lanes that perform their access now, and a lane of a `.b128` word that performs its lower half alone. Lanes that a key joins are
performed together: lanes that read one byte (R173), and lanes that touch one bank word (R162). -/
def State.nowLanes (s : State) (wide : Bool) (lanes : List Nat) (key : Nat → Nat) : List Nat × List Nat :=
  let n := s.g.ictx.part
  if 64 ≤ n then (lanes, []) else
    let joined (i j : Nat) : Bool := key i == key j
    let whole := (lanes.filter fun i => (if wide then 2 * i + 2 else i + 1) ≤ n).length
    let now := lanes.take (grow joined lanes whole)
    let half := lanes.filter fun i => wide && 2 * i + 1 == n && !now.contains i && !laneBit s.g.ictx.lows i
      && !lanes.any fun j => j != i && joined i j
    (now, half)

/-- Lanes whose first registers are loaded now. -/
def State.lowLanes (s : State) (now half : List Nat) : List Nat := (now.filter fun i => !laneBit s.g.ictx.lows i) ++ half

/-- What a lane of a store word writes now: where in its access it begins, and the bytes. -/
def State.storePiece (s : State) (half : List Nat) (i : Nat) (l : List Byte) : Nat × List Byte :=
  if half.contains i then (0, l.take 8) else if laneBit s.g.ictx.lows i then (8, l.drop 8) else (0, l)

/-- The word leaves the queue, or stays with the lanes that are left and the translations that they share. -/
def State.partDone (s : State) (lanes now half : List Nat) (tag : Nat) (pages : List PageReg) : State :=
  match lanes.filter fun i => !now.contains i with
  | [] => s.laneDone.settleAcc tag
  | rest => s.modG fun g =>
    { g with lq := match g.lq with
             | e :: es => { e with todo := maskOf rest, acc := some tag, lows := e.lows ||| maskOf half, pages := pages } :: es
             | [] => [] }

/-- The lookahead of a load's results: the window opens when the word leaves the queue, and what has issued past it is part of it. -/
def State.lastLa (s : State) (h : LaneHdr) (last : Bool) : BitVec 4 := if last then BitVec.ofNat 4 (h.la.toNat - s.g.past) else 0

/-- The guard record of a scratchpad word is noted once, when its first lanes are performed. -/
def State.guardOnce (s : State) (lanes : List Nat) (at_ : Nat → Word64) (size : Nat) (kind : BitVec 2) : State :=
  if s.g.ictx.acc.isSome then s else s.guardLanes lanes at_ size kind

def execLdS (h : LaneHdr) (t : MTy) (d : VReg) (m : LaneAddr) (s : State) : Out :=
  match s.countL .ld with
  | none => .next s
  | some (s1, tag) =>
    let at_ (i : Nat) : Word64 := s.laddr m t.size i
    let get (i j : Nat) : Word32 :=
      loadWord t (if s.scratchOk (at_ i).toInt t.size then s.spRead (at_ i).toNat t.size else List.replicate t.size 0) j
    let lanes := s.activeList h
    let (now, half) := s.nowLanes (t = .b128) lanes fun i => (at_ i).toNat / max 8 t.size
    let s2 := s1.guardOnce lanes at_ t.size 0
    .next ((s2.putLoad (s.lastLa h (lanes.all now.contains)) t d (maskOf (s.lowLanes now half)) (maskOf now) get).partDone lanes now half
      tag [])

def execStS (h : LaneHdr) (t : MTy) (d : VReg) (m : LaneAddr) (s : State) : Out :=
  match s.countL .st with
  | none => .next s
  | some (s1, tag) =>
    let at_ (i : Nat) : Word64 := s.laddr m t.size i
    let lanes := s.storing h
    let (now, half) := s.nowLanes (t = .b128) lanes fun i => (at_ i).toNat / max 8 t.size
    let put (st : State) (i : Nat) : State :=
      let p := s.storePiece half i (s.laneData t d i)
      if s.scratchOk (at_ i).toInt t.size then st.spWrite ((at_ i).toNat + p.1) p.2 else st
    .next (((now ++ half).foldl put (s1.guardOnce lanes at_ t.size 1)).partDone lanes now half tag [])

/-! ### Virtual words -/

/-- Each lane's own translation, in order, or the code of its failure. -/
def ownPages (s : State) (n : Need) (at_ : Nat → Word64) : List Nat → State × List (Nat × (PageReg ⊕ Nat))
  | [] => (s, [])
  | i :: is =>
    let r := s.translate (some i) n (at_ i)
    let q := ownPages r.1 n at_ is
    (q.1, (i, r.2) :: q.2)

/-- Where the lanes of a word lead, and the translations they use: lanes whose addresses lie on one page share one (R343). -/
def xlateWord (s : State) (n : Need) (at_ : Nat → Word64) (lanes : List Nat) : State × List (Nat × Xlat) × List PageReg :=
  let r := ownPages s n at_ lanes
  let pages := s.g.ictx.pages ++ r.2.filterMap fun e => match e.2 with | .inl p => some p | .inr _ => none
  let leads (e : Nat × (PageReg ⊕ Nat)) : Nat × Xlat :=
    (e.1, match pages.find? fun p => s.serves n (at_ e.1) p with
          | some p => s.reach p n (at_ e.1)
          | none => match e.2 with
            | .inr c => .fail c
            | .inl p => s.reach p n (at_ e.1))
  (r.1, r.2.map leads, pages)

def xlateLanes (s : State) (n : Need) (at_ : Nat → Word64) (lanes : List Nat) : State × List (Nat × Xlat) :=
  let r := xlateWord s n at_ lanes
  (r.1, r.2.1)

/-- Lanes with a pool address, in order. -/
def poolLanes (l : List (Nat × Xlat)) : List (Nat × Nat) :=
  l.filterMap fun e => match e.2 with | .pool pa => some (e.1, pa) | _ => none
/-- Lanes behind a fabric window, with the window and the offset. -/
def peerLanes (l : List (Nat × Xlat)) : List (Nat × Nat × Nat) :=
  l.filterMap fun e => match e.2 with | .peer w off => some (e.1, w, off) | _ => none
/-- Lanes whose translation failed, with the code. -/
def failLanes (l : List (Nat × Xlat)) : List (Nat × Nat) :=
  l.filterMap fun e => match e.2 with | .fail c => some (e.1, c) | _ => none

/-- The place of a lane's pool address. -/
def paOf (l : List (Nat × Nat)) (i : Nat) : Nat := ((l.find? fun e => e.1 == i).map Prod.snd).getD 0

/-- One number for each place to which a lane of a word leads: lanes of one place read the same bytes (R173). -/
def leadPlace (l : List (Nat × Xlat)) (i : Nat) : Nat :=
  match (l.find? fun e => e.1 == i).map Prod.snd with
  | some (.pool pa) => 3 * pa
  | some (.peer w off) => 3 * (w * 2 ^ 64 + off) + 1
  | _ => 3 * i + 2

/-- Parks the word at the head with its unfinished lanes and its count (R344, R179). -/
def State.parkLane (s : State) (lanes : List Nat) (lane code : Nat) (va : Word64) (access tag : Nat) : State :=
  let park : Park := { code := code, va := va, lane := lane, access := BitVec.ofNat 3 access, atAddr := s.g.ictx.lqAddr }
  s.modG fun g =>
    { g with lpark := some park,
             lq := match g.lq with | e :: es => { e with todo := maskOf lanes, acc := some tag, pages := [] } :: es | [] => [] }

/-- The end of a word whose finished lanes are done: it parks for the failing ones, or leaves the queue. -/
def endWord (s : State) (l : List (Nat × Xlat)) (at_ : Nat → Word64) (access tag : Nat) : Out :=
  match failLanes l with
  | [] => .next (s.laneDone.settleAcc tag)
  | (i, c) :: rest => .next (s.parkLane (i :: rest.map Prod.fst) i c (at_ i) access tag)

/-- Which lanes of a plain word are performed now, wholly and in their lower half, where they lead, and the translations that the lanes
share. -/
structure Part where
  now : List Nat
  half : List Nat
  leads : List (Nat × Xlat)
  pages : List PageReg

/-- The part of a plain word that is performed now. All its lanes are translated with its first part, so that lanes of one page finish or
fail together (R343), and `split` then says which are performed now; where some fail, every other lane is performed, so that only failing
lanes are left unfinished (R344). The lower
half of a lane is a part for pool memory alone. -/
def xlatePart (s : State) (n : Need) (at_ : Nat → Word64) (lanes : List Nat) (split : List (Nat × Xlat) → List Nat × List Nat) :
    State × Part :=
  let (s1, l, pages) := xlateWord s n at_ lanes
  let (now, half) := split l
  if (failLanes l).isEmpty then
    let own (x : List Nat) := l.filter fun e => x.contains e.1
    (s1, ⟨now, (poolLanes (own half)).map Prod.fst, own now ++ own half, pages⟩)
  else (s1, ⟨(l.filter fun e => match e.2 with | .fail _ => false | _ => true).map Prod.fst, [], l, []⟩)

/-- The end of a plain word: as `endWord`, but lanes that are left keep it in the queue. -/
def endPart (s : State) (p : Part) (at_ : Nat → Word64) (lanes : List Nat) (access tag : Nat) : Out :=
  match failLanes p.leads with
  | [] => .next (s.partDone lanes p.now p.half tag p.pages)
  | (i, c) :: rest => .next (s.parkLane (i :: rest.map Prod.fst) i c (at_ i) access tag)

/-- Sends the window lanes' requests to the peers (R348); those of the Porter's words take their places there (R176). -/
def sendPeers (s : State) (l : List (Nat × Xlat)) (at_ : Nat → Word64) (kind : Nat → ReqKind) (tag : Nat)
    (lost : Nat → List Nat) (ported : Bool := false) : State :=
  (peerLanes l).foldl (fun st e =>
    st.sendReq e.1 (.peer (s.peerOf e.2.1) e.2.1) e.2.2 (at_ e.1) (kind e.1) tag s.g.ictx.lqAddr s.g.ictx.addr (lost e.1) ported) s

/-- The record of the first lane whose read met poison (R393). -/
def poisonLanes (s : State) (agent : Nat) (l : List (Nat × Nat)) (at_ : Nat → Word64) (size : Nat) : State :=
  match l.find? fun e => s.poisoned e.2 size with
  | some (i, pa) => s.dataPoison agent 0 s.g.ictx.lqAddr s.g.ictx.addr pa (at_ i) i
  | none => s

def execLdG (h : LaneHdr) (t : MTy) (d : VReg) (m : LaneAddr) (s : State) : Out :=
  match s.countL .ld with
  | none => .next s
  | some (s1, tag) =>
    let at_ (i : Nat) : Word64 := s.laddr m t.size i
    let lanes := s.activeList h
    let (s2, p) := xlatePart s1 needR at_ lanes fun l => s.nowLanes (t = .b128) lanes (leadPlace l)
    let whole := p.leads.filter fun e => p.now.contains e.1
    let ps := poolLanes p.leads
    let la := s.lastLa h ((failLanes p.leads).isEmpty && lanes.all p.now.contains)
    let pool := (poolLanes whole).map Prod.fst
    let s3 := s2.putLoad la t d (maskOf (s.lowLanes pool p.half)) (maskOf pool) fun i j => s2.poolWord t (paOf ps i) j
    let s4 := (poisonLanes s3 0 ps at_ t.size).awaitLoad la t d (maskOf ((peerLanes whole).map Prod.fst)) tag
    endPart (sendPeers s4 whole at_ (fun _ => .load t d) tag fun i => s.lostIn [t.range d] i) p at_ lanes 0 tag

def execStG (h : LaneHdr) (t : MTy) (d : VReg) (m : LaneAddr) (s : State) : Out :=
  match s.countL .st with
  | none => .next s
  | some (s1, tag) =>
    let at_ (i : Nat) : Word64 := s.laddr m t.size i
    let lanes := s.storing h
    let (s2, p) := xlatePart s1 needW at_ lanes fun _ => s.nowLanes (t = .b128) lanes id
    let puts := (poolLanes p.leads).map fun e =>
      let x := s.storePiece p.half e.1 (s.laneData t d e.1)
      (e.2 + x.1, x.2)
    let s3 := (puts.foldl (fun st e => st.memWrite e.1 e.2) s2).clearPoison (puts.map fun e => (e.1, e.2.length))
    endPart (sendPeers s3 p.leads at_ (fun i => .store (s.laneData t d i)) tag fun _ => []) p at_ lanes 1 tag

/-- `cp.gs` (R174): its copies are performed apart; a failing lane parks the word before any lane has copied. -/
def execCpGs (h : LaneHdr) (t : MTy) (d : VReg) (m : LaneAddr) (s : State) : Out :=
  match s.countL .sp with
  | none => .next s
  | some (s1, tag) =>
    let at_ (i : Nat) : Word64 := s.laddr m t.size i
    let dst (i : Nat) : Word64 :=
      let y := sext64 (s.srcLane d.toNat i)
      y - BitVec.ofNat 64 (y.toNat % t.size)
    let lanes := s.storing h
    let (s2, l) := xlateLanes s1 needR at_ lanes
    match failLanes l with
    | (i, c) :: _ => .next (s2.parkLane lanes i c (at_ i) 0 tag)
    | [] =>
      let copy (i pa : Nat) (win : Bool) : List Copy :=
        if s.scratchOk (dst i).toInt t.size then [⟨s.g.slot, i, pa, win, (dst i).toInt, t.size, tag, at_ i, s.g.ictx.lqAddr, s.g.ictx.addr, s.draw⟩]
        else []
      let own := l.flatMap fun e => match e.2 with
        | .pool pa => copy e.1 pa false
        | .peer w off => copy e.1 (w * 2 ^ 48 + off) true
        | .fail _ => []
      .next (((s2.guardLanes lanes dst t.size 2).modB fun b => { b with copies := b.copies ++ own }).laneDone.settleAcc tag)

/-- The lane requests that the core's Porter holds: one for each lane of a word, those to peers among them (R176). -/
def State.porterHeld (s : State) : Nat :=
  ((s.reqs.filter fun q => q.core == s.g.core && (q.agent == .porter || q.ported)).map fun q => (q.slot, q.acc, q.lane)).eraseDups.length

/-- The accesses of a lane's request, with the place of each in it: a 16-byte one is two of 8 bytes (R319). -/
def ReqKind.pieces : ReqKind → List (Nat × ReqKind)
  | .load .b128 d => [(0, .load .b64 d), (8, .load .b64 (d + 2))]
  | .store l => if l.length = 16 then [(0, .store (l.take 8)), (8, .store (l.drop 8))] else [(0, .store l)]
  | k => [(0, k)]

/-- A word through the Porter (R176): one request for each acting lane; it waits where they do not fit. -/
def porterWord (s : State) (t : MTy) (lanes : List Nat) (m : LaneAddr) (n : Need) (access : Nat) (kind : Nat → ReqKind)
    (lost : Nat → List Nat) (open' : Bool → Nat → State → Word32 → State) : Out :=
  if Config.porterRequests < s.porterHeld + lanes.length then .next s else
    match s.countL .ga with
    | none => .next s
    | some (s1, tag) =>
      let at_ (i : Nat) : Word64 := s.laddr m t.size i
      let (s2, l) := xlateLanes s1 n at_ lanes
      let ps := poolLanes l
      let s3 := open' (failLanes l).isEmpty tag s2 (maskOf (ps.map Prod.fst ++ (peerLanes l).map Prod.fst))
      let s4 := ps.foldl (fun st e => (kind e.1).pieces.foldl (fun u x =>
        u.sendReq e.1 .porter (e.2 + x.1) (at_ e.1 + BitVec.ofNat 64 x.1) x.2 tag s.g.ictx.lqAddr s.g.ictx.addr (lost e.1)) st) s3
      endWord (sendPeers s4 l at_ kind tag lost true) l at_ access tag

def execLdx (h : LaneHdr) (t : MTy) (d : VReg) (m : LaneAddr) (s : State) : Out :=
  porterWord s t (s.activeList h) m needR 0 (fun _ => .load t d) (s.lostIn [t.range d]) fun last tag st mask =>
    st.awaitLoad (s.lastLa h last) t d mask tag

def execStx (h : LaneHdr) (t : MTy) (d : VReg) (m : LaneAddr) (s : State) : Out :=
  porterWord s t (s.storing h) m needW 1 (fun i => .store (s.laneData t d i)) (fun _ => []) fun _ _ st _ => st

/-! ### Atomics: the issue (R190 to R193, R187) -/

/-- Cellar slices of a room that are not fenced (R10, R395). A room whose slices are all fenced keeps its own: where its lines are then homed
the manual leaves open, but never in another room (R397; DESIGN CHOICE, assumption 108). -/
def State.slicesOf (s : State) (m : Room) : List Nat :=
  let own := (bitList 32 m.clusters.toNat).flatMap fun c => (upTo 8).map (8 * c + ·)
  match own.filter fun n => !s.hub.fenced.contains (.slice n) with
  | [] => own
  | l => l

/-- The home slice of a line among those of its room (R187): the hash is the device's own. -/
def State.homeSlice (s : State) (r : Option Room) (line : Nat) : Nat :=
  match r with
  | some m => let l := s.slicesOf m; l.getD (Config.homeHash line % l.length) 0
  | none => 0

/-- The cluster whose slice is home to a line. -/
def State.homeCluster (s : State) (r : Option Room) (line : Nat) : Nat := s.homeSlice r line / 8

/-- `atom` and `red`: one request for each acting lane; helper lanes send none. -/
def atomicWord (s : State) (h : LaneHdr) (t : ATy) (op : AOp) (d : Option VReg) (a c : VReg) (m : LaneAddr) (p : Path) : Out :=
  match s.countL p with
  | none => .next s
  | some (s1, tag) =>
    let at_ (i : Nat) : Word64 := s.laddr m t.size i
    let kind (i : Nat) : ReqKind :=
      .atom op t (BitVec.ofNat 64 (s.srcVal t.is64 a i)) (BitVec.ofNat 64 (s.srcVal t.is64 c i)) d
    let (s2, l) := xlateLanes s1 needRW at_ (s.storing h)
    let ps := poolLanes l
    let sent := maskOf (ps.map Prod.fst ++ (peerLanes l).map Prod.fst)
    let s3 := match d with
      | some r => s2.setVal (s.lastLa h (failLanes l).isEmpty) t.is64 r sent (fun i => s.vval t.is64 r i) tag
      | none => s2
    let lost (i : Nat) : List Nat := match d with
      | some r => s.lostIn [r.val t.is64] i
      | none => []
    let s4 := ps.foldl (fun st e =>
      st.sendReq e.1 (.ostler (s.homeCluster (s.room? s.g.room) (lineOf e.2))) e.2 (at_ e.1) (kind e.1) tag
        s.g.ictx.lqAddr s.g.ictx.addr (lost e.1)) s3
    endWord (sendPeers s4 l at_ kind tag lost) l at_ 2 tag

/-- `atom` (R193); a scope hint changes no outcome (R198). -/
def execAtom (h : LaneHdr) (t : ATy) (op : AOp) (_scope : Scope) (d a c : VReg) (m : LaneAddr) (s : State) : Out :=
  atomicWord s h t op (some d) a c m .ld
/-- `red` (R193). -/
def execRed (h : LaneHdr) (t : ATy) (op : AOp) (_scope : Scope) (a c : VReg) (m : LaneAddr) (s : State) : Out :=
  atomicWord s h t op none a c m .st

end Sys2Proof.Machine
end

