-- ==== Sys2Proof/Machine/Calendar.lean ====
section
/-! DEFINITION. Events and the calendar: `sched`, `cancel`, `evinfo`, the tiers, spans, rounds and the leap (R285 to R316). -/

namespace Sys2Proof.Machine

/-! ### Cores of a room (R11, R305) -/

/-- Cores of a cluster set in ascending number. -/
def coresOf (clusters : Word32) : List Nat := (bitList 32 clusters.toNat).flatMap fun c => (upTo 8).map (8 * c + ·)

/-- Whether a core is fenced, itself or with its cluster. -/
def Hub.coreFenced (h : Hub) (n : Nat) : Bool := h.fenced.contains (.core n) || h.fenced.contains (.cluster (n / 8))

/-- The cores a room can use. -/
def State.roomCores (s : State) (r : Room) : List Nat := (coresOf r.clusters).filter fun n => !s.hub.coreFenced n

/-- Cores of the focused journey's room. -/
def State.myCores (s : State) : List Nat :=
  match s.room? s.j.room with
  | some r => s.roomCores r
  | none => []

/-! ### Tiers (R304, R305, R307) -/

/-- Pending events of every journey but the focused one, and of it. -/
def State.allPending (s : State) : List Event :=
  s.j.pending ++ (s.journeys.filter fun j => j.num != s.j.num).flatMap (·.pending)

/-- Whether a time lies in the journey's near window (R304). -/
def Journey.nearWindow (j : Journey) (t : Nat) : Bool :=
  let w0 := j.t0.toNat / 2 ^ j.q * 2 ^ j.q
  w0 ≤ t && t < w0 + 2 ^ j.nb * 2 ^ j.q

/-- The die of a core. -/
def dieOf (core : Nat) : Nat := core / 64

/-- Order of events among one another: time, tie, sequence; and before it the handler. -/
def Event.before (a b : Event) : Bool :=
  a.time.ult b.time || (a.time == b.time && (a.tie.ult b.tie || (a.tie == b.tie && a.seq.ule b.seq)))
def Event.sorts (a b : Event) : Bool := a.handler.ult b.handler || (a.handler == b.handler && a.before b)

/-- The least time of a list of events. -/
def leastOf (l : List Event) : Option Word64 :=
  l.foldl (fun m e => match m with
    | none => some e.time
    | some t => some (if e.time.ult t then e.time else t)) none

/-- The bucket of a time (R304). -/
def Journey.bucketOf (j : Journey) (t : Nat) : Nat := t / 2 ^ j.q % 2 ^ j.nb
/-- What one bucket of a core's near store holds of a journey, its least time, and the bitmap of the buckets that are not empty. -/
def Journey.bucket (j : Journey) (core k : Nat) : List Event :=
  j.pending.filter fun e => e.tier == 0 && e.home == core && j.bucketOf e.time.toNat == k
def Journey.bucketLeast (j : Journey) (core k : Nat) : Option Word64 := leastOf (j.bucket core k)
def Journey.bucketMap (j : Journey) (core : Nat) : List Bool := (upTo (2 ^ j.nb)).map fun k => !(j.bucket core k).isEmpty
/-- The first non-empty bucket of a core from the window's start on. -/
def Journey.firstBucket (j : Journey) (core : Nat) : Option Nat :=
  ((upTo (2 ^ j.nb)).map fun k => (j.bucketOf j.t0.toNat + k) % 2 ^ j.nb).find? fun k => (j.bucketMap core).getD k false

/-- A die's sorted run of a journey's events in the far tier (1) or the overflow tier (2): the model keeps one of each (R305; DEDUCED,
assumption 93). -/
def Journey.run (j : Journey) (tier : BitVec 2) (die : Nat) : List Event :=
  sortBy Event.before (j.pending.filter fun e => e.tier == tier && dieOf e.home == die)
/-- What a die's far tier holds of a journey: its run, and the least event of its overflow run (R305). -/
def Journey.farHeld (j : Journey) (die : Nat) : List Event := j.run 1 die ++ (j.run 2 die).take 1
/-- Far places that a journey takes on a die: its far events, and the one kept for the least event of an overflow run. -/
def Journey.farPlaces (j : Journey) (die : Nat) : Nat := (j.run 1 die).length + 1

/-- The journeys of the focused journey's room, it among them. -/
def State.roomMates (s : State) : List Journey :=
  s.j :: s.journeys.filter fun j => j.num != s.j.num && j.room == s.j.room

/-- The first tier that can take an event: near, far or overflow. -/
def State.tierFor (s : State) (home t : Nat) : Option (BitVec 2) :=
  let near := (s.allPending.filter fun e => e.home == home && e.tier == 0).length
  let far : Nat := (s.roomMates.map fun j => j.farPlaces (dieOf home)).foldl (· + ·) 0
  let spill := (s.j.pending.filter fun e => e.tier == 2).length
  let farCap := match s.room? s.j.room with
    | some r => min Config.farEvents (r.farBytes / 64)
    | none => 0
  if s.j.nearWindow t && near < Config.nearEvents then some 0
  else if far < farCap then some 1
  else if spill < Config.overflowEvents then some 2
  else none

/-- Home core of an event: by its entity's hash, or round-robin for entity 0 (R305). -/
def State.homeCore (s : State) (entity : Word32) : Nat :=
  let cs := s.myCores
  cs.getD ((if entity = 0 then s.j.spread else Config.entityHash entity) % cs.length) 0

/-! ### Handles (R287, R288) -/

/-- A handle with a state code. -/
def handleWord (st gen core entry : Nat) : Word64 := BitVec.ofNat 64 (packBits [(62, st), (32, gen), (24, core), (0, entry)])
/-- The handle of an event that is not cancellable. -/
def plainHandle : Word64 := handleWord 1 0 0 0
/-- A refused handle with its reason (R292). -/
def refusedHandle (reason : Nat) : Word64 := handleWord 2 0 0 reason

/-- Key of a handle entry's generation. -/
def genKey (core entry : Nat) : Nat := core * 2 ^ 24 + entry

/-- Whether any journey uses a handle entry. -/
def State.entryUsed (s : State) (core entry : Nat) : Bool :=
  (s.j.handles ++ (s.journeys.filter fun j => j.num != s.j.num).flatMap (·.handles)).any fun h =>
    h.core == core && h.entry == entry

/-- The first free entry of a core from an index on. -/
def State.freeEntry (s : State) (core : Nat) : Nat → Nat → Nat
  | 0, k => k
  | n + 1, k => if s.entryUsed core k then State.freeEntry s core n ((k + 1) % 2 ^ 24) else k

/-- Every handle entry in use. -/
def State.usedEntries (s : State) : List HandleEnt :=
  s.j.handles ++ (s.journeys.filter fun j => j.num != s.j.num).flatMap (·.handles)

/-- Number of handle entries in use. -/
def State.entriesUsed (s : State) : Nat := s.usedEntries.length

/-- Whether a core has a handle entry left. -/
def State.entryLeft (s : State) (core : Nat) : Bool := (s.usedEntries.filter fun h => h.core == core).length < 2 ^ 24

/-- Takes a free handle entry (R288): which of the room's cores that have one keeps it, and which entry it is, is the implementation's choice
(R287, R305). -/
def State.newEntry (s : State) (key : Nat) : HandleEnt :=
  let cs := s.myCores.filter s.entryLeft
  let core := cs.getD (s.freeNat (25 * 2 ^ 60 + 2 * key) % cs.length) 0
  let entry := s.freeEntry core (s.entriesUsed + 1) (s.freeNat (25 * 2 ^ 60 + 2 * key + 1) % 2 ^ 24)
  ⟨core, entry, SMap.get 1 (genKey core entry) s.hub.handleGen, false⟩

/-- Frees handle entries: their generations step on (R288). -/
def State.freeEntries (s : State) (l : List HandleEnt) : State :=
  let step (m : SMap (BitVec 24)) (h : HandleEnt) : SMap (BitVec 24) :=
    let gen := SMap.get 1 (genKey h.core h.entry) m
    SMap.set 1 (genKey h.core h.entry) (if gen = 0xFFFFFF then 1 else gen + 1) m
  { s with hub := { s.hub with handleGen := l.foldl step s.hub.handleGen },
           j := { s.j with handles := s.j.handles.filter fun h => !l.contains h } }

/-! ### Acceptance (R291, R292) -/

/-- An event as its creator gives it; the time is exact. -/
structure NewEvent where
  time : Nat
  handler : BitVec 16
  prio : BitVec 2
  canc : Bool
  entity : Word32
  tie : Word32
  payload : List Word32
deriving DecidableEq, Repr, Inhabited

/-- A valid handler of a journey. -/
def Journey.handler? (j : Journey) (id : BitVec 16) : Option Handler := j.handlers.find? fun h => h.id == id && h.valid

/-- Whether a session's watchpoint of a trigger kind matches an event (R407). -/
def Watch.hits (w : Watch) (create : Bool) (t : Nat) (entity : Word32) : Bool :=
  (if create then w.create else w.dispatch) && w.lo.toNat ≤ t && t ≤ w.hi.toNat && ((w.any && w.entity == 0) || w.entity == entity)

def State.watched (s : State) (room : Nat) (create : Bool) (t : Nat) (entity : Word32) : Bool :=
  match s.sessionOf room with
  | some x => x.watch.any fun p => p.2.hits create t entity
  | none => false

/-- Accepts or refuses one event in the focused journey's calendar; the answer carries the handle. `seed` adds the check of a
seed request (R310). -/
def State.acceptEvent (s : State) (seed : Bool) (e : NewEvent) : State × Word64 :=
  if 2 ^ 64 ≤ e.time then (s, refusedHandle 2) else
    match s.j.handler? e.handler with
    | none => (s, refusedHandle 3)
    | some h =>
      if seed && e.time < s.j.t0.toNat then (s, refusedHandle 4)
      else if s.j.quota ≤ s.j.pending.length then (s, refusedHandle 1)
      else
        let home := s.homeCore e.entity
        match s.tierFor home e.time with
        | none => (s, refusedHandle 1)
        | some tier =>
          let ent := s.newEntry s.j.accepted.toNat
          let hw := if e.canc then handleWord 0 ent.gen.toNat ent.core ent.entry else plainHandle
          let ev : Event := { time := BitVec.ofNat 64 e.time, handler := e.handler, prio := e.prio, gang := h.gang != 0,
                              canc := e.canc, entity := e.entity, tie := e.tie, seq := s.j.accepted, payload := e.payload,
                              handle := hw, home := home, tier := tier }
          let j := { s.j with accepted := s.j.accepted + 1, pending := s.j.pending ++ [ev],
                              handles := if e.canc then ent :: s.j.handles else s.j.handles,
                              spread := if e.entity = 0 then s.j.spread + 1 else s.j.spread }
          ({ s with j := j }, hw)

/-- `sched` of the focused group: the event's time is the creator's plus the delay; a watchpoint on creation hits (R407). -/
def State.schedOne (s : State) (lane : Nat) (delay : Word64) (handler : BitVec 16) (prio : BitVec 2) (canc : Bool)
    (entity tie : Word32) (payload : List Word32) : State × Word64 :=
  let t0 : Word64 := ((s.g.events[lane]?).map (·.time)).getD 0
  let t := t0.toNat + delay.toNat
  let r := s.acceptEvent false ⟨t, handler, prio, canc, entity, tie, payload⟩
  if r.2.toNat / 2 ^ 62 != 2 && s.watched s.g.room true t entity then (r.1.modG fun g => { g with watchHit := true }, r.2) else r

/-- The scalar form (R290). -/
def execSchedScalar (d a : SReg) (la : BitVec 4) (handler : BitVec 16) (prio : BitVec 2) (canc : Bool) (s : State) : Out :=
  let r (k : Nat) : Word64 := s.sreg (a + BitVec.ofNat 6 k)
  let lo (x : Word64) : Word32 := x.truncate 32
  let hi (x : Word64) : Word32 := x.extractLsb' 32 32
  let payload := (upTo 5).flatMap fun k => [lo (r (2 + k)), hi (r (2 + k))]
  let (s1, h) := s.schedOne 0 (r 0) handler prio canc (lo (r 1)) (hi (r 1)) payload
  finS s1 la d h

/-- The lane form (R289, R291): lanes are accepted in ascending order. -/
def execSched (h : LaneHdr) (d a b : VReg) (handler : BitVec 16) (prio : BitVec 2) (canc : Bool) (s : State) : Out :=
  let one (x : State × List (Nat × Word64)) (i : Nat) : State × List (Nat × Word64) :=
    let payload := (upTo 10).map fun k => s.vlane (a.toNat + k) i
    let r := x.1.schedOne i (s.vpair b.toNat i) handler prio canc (s.vlane (b.toNat + 2) i) (s.vlane (b.toNat + 3) i) payload
    (r.1, x.2 ++ [(i, r.2)])
  let (s1, hs) := (s.storing h).foldl one (s, [])
  .next (s1.setPair h.la d.toNat (maskOf (s.storing h)) fun i => ((hs.find? fun e => e.1 == i).map Prod.snd).getD 0).laneDone

/-! ### `cancel` (R295 to R297) -/

/-- The handle of an entry in use. -/
def HandleEnt.word (e : HandleEnt) : Word64 := handleWord 0 e.gen.toNat e.core e.entry

/-- Cancels the event that a handle names: 0 cancelled, 1 dispatched, 2 stale. Only its `st`, `core`, `entry` and `gen` count; its reserved
bits 61:56 do not. -/
def State.cancelOne (s : State) (h : Word64) : State × Nat :=
  let h := h &&& 0xC0FFFFFFFFFFFFFF
  match s.j.handles.find? fun e => e.word == h with
  | none => (s, 2)
  | some e =>
    if e.dispatched then (s, 1)
    else ((s.freeEntries [e]).modJ fun j => { j with pending := j.pending.filter fun v => v.handle != h }, 0)

def execCancelScalar (d a : SReg) (la : BitVec 4) (s : State) : Out :=
  let (s1, out) := s.cancelOne (s.sreg a)
  finS s1 la d (BitVec.ofNat 64 out)

def execCancel (h : LaneHdr) (d a : VReg) (s : State) : Out :=
  let one (x : State × List (Nat × Nat)) (i : Nat) : State × List (Nat × Nat) :=
    let r := x.1.cancelOne (s.vpair a.toNat i)
    (r.1, x.2 ++ [(i, r.2)])
  let (s1, os) := (s.storing h).foldl one (s, [])
  .next (s1.setV h.la d.toNat (maskOf (s.storing h)) fun i => BitVec.ofNat 32 (paOf os i)).laneDone

/-! ### `evinfo` (R298) -/

/-- Record bits 95:64: handler, class, gang and cancellable. -/
def Event.hdrWord (e : Event) : Nat := packBits [(0, e.handler.toNat), (16, e.prio.toNat), (18, b2n e.gang), (19, b2n e.canc)]

/-- One item of a lane's event; a helper lane has none but the round. -/
def State.evItem (s : State) (it : EvItem) (i : Nat) : Nat :=
  if it = .round then s.g.round.toNat else
    match s.g.events[i]? with
    | none => 0
    | some e =>
      if !s.isEvent i then 0 else
        match it with
        | .time => e.time.toNat
        | .entity => e.entity.toNat
        | .tie => e.tie.toNat
        | .seq => e.seq.toNat
        | .handle => e.handle.toNat
        | .rank => i + 32 * s.g.rank
        | .hdr => e.hdrWord
        | .round => s.g.round.toNat

def execEvinfo (h : LaneHdr) (item : EvItem) (d : VReg) (s : State) : Out :=
  finV0 s h item.wide d (s.evItem item)

/-! ### Rounds (R300 to R302) -/

/-- The events of the span that are pending. -/
def Journey.inSpan (j : Journey) : List Event :=
  if j.spanOn then j.pending.filter fun e => j.t0.ule e.time && e.time.ule j.t1 else []

/-- The events that the next round selects. -/
def Journey.roundEvents (j : Journey) : List Event :=
  let p := j.inSpan
  let first (e : Event) : Bool := e.entity == 0 || p.all fun x => x.entity != e.entity || e.before x
  sortBy Event.sorts (p.filter first)

/-- Handlers of a sorted list of events, each once. -/
def handlersOf : List Event → List (BitVec 16)
  | [] => []
  | [e] => [e.handler]
  | e :: e' :: es => if e.handler == e'.handler then handlersOf (e' :: es) else e.handler :: handlersOf (e' :: es)

/-- Gang numbers step from 0xFFFF back to 1 (R154). -/
def gangWord (n bands i : Nat) : Word32 := BitVec.ofNat 32 (packBits [(16, n % 65535 + 1), (3, bands - 1), (0, i)])

/-- The items of one handler's events; `n` gangs stand before them (R302). -/
def itemsOf (h : Handler) (es : List Event) (n : Nat) : List QItem × Nat :=
  let gs := chunks es.length 32 es
  let ranked : List (Nat × List Event) := gs.zipIdx.map fun x => (x.2, x.1)
  let bands := chunks gs.length (h.band.toNat + 1) ranked
  if h.gang = 0 then (bands.map fun b => ⟨[⟨h, b, 0⟩]⟩, n) else
    (chunks bands.length (h.gang.toNat + 1) bands).foldl (fun (acc : List QItem × Nat) g =>
      if g.length = 1 then (acc.1 ++ g.map fun b => ⟨[⟨h, b, 0⟩]⟩, acc.2)
      else (acc.1 ++ [⟨g.zipIdx.map fun x => ⟨h, x.1, gangWord acc.2 g.length x.2⟩⟩], acc.2 + 1)) ([], n)

/-- The whole dispatch queue of a round. -/
def Journey.formQueue (j : Journey) : List QItem :=
  let es := j.roundEvents
  ((handlersOf es).foldl (fun (acc : List QItem × Nat) id =>
    let r := itemsOf ((j.handler? id).getD {}) (es.filter fun e => e.handler == id) acc.2
    (acc.1 ++ r.1, r.2)) ([], 0)).1

/-- Whether a group of a journey lives. -/
def State.hasGroups (s : State) (n : Nat) : Bool := s.groups.any fun g => g.journey == n

/-- Whether nothing of a journey runs or waits to: its round is over. -/
def State.quiet (s : State) (j : Journey) : Bool := !s.hasGroups j.num && j.queue.isEmpty && j.seats.isEmpty && j.restore.isNone

/-- Runs a step on a journey in the focus where it lives and a test holds. -/
def withJourney (s : State) (n : Nat) (ok : Journey → Bool) (k : State → State) : Out :=
  match s.journey? n with
  | none => .next s
  | some j =>
    if ok j then .next (let t := k { s with j := j }; t.putJourney t.j) else .next s

/-- Whether a journey may form rounds and leap: it runs, and no stop or checkpoint waits for the round's end. -/
def Journey.free (j : Journey) : Bool := j.state == .running && j.stopFor.isNone && !j.inRound

/-- `ROUND_FORMATION` (R300): the round's events leave the pending ones, and its bands and gangs form the queue. -/
def execRoundFormation (journey : Nat) (s : State) : Out :=
  withJourney s journey (fun j => j.free && s.quiet j && !j.roundEvents.isEmpty) fun s1 =>
    let es := s1.j.roundEvents
    let sel (h : HandleEnt) : Bool := es.any fun e => e.canc && e.handle == h.word
    s1.modJ fun j => { j with queue := j.formQueue, taken := 0, inRound := true, passed := 0, promoted := false, picked := false,
                              pending := j.pending.filter fun e => !es.contains e,
                              handles := j.handles.map fun h => if sel h then { h with dispatched := true } else h }

/-! ### The leap (R308, R309) -/

/-- Events that a new near window takes in, as slots allow (R305). -/
def State.retier (s : State) : State :=
  s.j.pending.foldl (fun t e =>
    if e.tier != 0 && t.tierFor e.home e.time.toNat == some 0 then
      t.modJ fun j => { j with pending := j.pending.map fun x => if x == e then { x with tier := 0 } else x }
    else t) s

/-- The least pending time. -/
def Journey.leastTime (j : Journey) : Option Word64 := leastOf j.pending

/-- `HARE_SEARCH` (R308, R309, R316): after an empty round the journey leaps to the least pending time, or rests. -/
def execHareSearch (journey : Nat) (s : State) : Out :=
  withJourney s journey (fun j => j.free && s.quiet j && j.roundEvents.isEmpty) fun s1 =>
    let s2 := s1.freeEntries (s1.j.handles.filter (·.dispatched))
    match s2.j.leastTime with
    | none =>
      (s2.modJ fun j => { j with state := .resting, spanOn := false }).notice s2.j.room 1 s2.j.num (leBytes 8 s2.j.t0.toNat)
    | some t =>
      let w := if s2.j.lookahead = 0 then 1 else s2.j.lookahead.toNat
      let t1 := min (t.toNat + w - 1) (2 ^ 64 - 1)
      (s2.modJ fun j => { j with spanOn := true, t0 := t, t1 := BitVec.ofNat 64 t1, spanw := BitVec.ofNat 64 w, round := 0 }).retier

end Sys2Proof.Machine
end

