-- ==== Sys2Proof/Machine/Control.lean ====
section
/-! DEFINITION. The lane queue and control transfers of the scalar stream (R136 to R146, R30). -/

namespace Sys2Proof.Machine

/-! ### Transfers -/

/-- A taken transfer to `t` (R30, R142): the landing check reads the word at t - 4 where both lie in the section; a fetch that
fails parks the group at the transfer. `link` is set for `call`. -/
def transfer (s : State) (t : Word64) (link : Bool) : Out :=
  let go (s : State) : Out :=
    .next ((if link then s.setS 63 (s.g.insAddr + 4) else s).jumpTo t)
  if (s.g.handler.scalarOff t).isSome && (s.g.handler.scalarOff (t - 4)).isSome then
    match s.wordAt (t - 4) with
    | (s1, .inr c) => .next (s1.fetchStop c (t - 4) s.g.insAddr)
    | (s1, .inl w) =>
      if (w.extractLsb' 30 2).toNat == 2 then .next (s1.takeTrap 0x02 { waddr := t - 4 }) else go s1
  else go s

/-- The target of an offset in words from the transfer (R142). -/
def wordTarget {w : Nat} (s : State) (off : BitVec w) : Word64 := s.g.insAddr + imm64 off * 4

/-- A transfer taken when the condition holds. -/
def transferIf (s : State) (c : Bool) (t : Word64) : Out := if c then transfer s t false else .next s.advance

/-- A transfer to a register's value: TargetAlign comes before the landing check (R50, R142). -/
def transferReg (s : State) (t : Word64) : Out :=
  if t.toNat % 4 != 0 then .next (s.takeTrap 0x05 { waddr := s.g.insAddr }) else transfer s t false

def execBr (off : BitVec 24) (s : State) : Out := transfer s (wordTarget s off) false
def execCall (off : BitVec 24) (s : State) : Out := transfer s (wordTarget s off) true
def execBz (a : SReg) (off : BitVec 18) (s : State) : Out := transferIf s (s.sreg a == 0) (wordTarget s off)
def execBnz (a : SReg) (off : BitVec 18) (s : State) : Out := transferIf s (s.sreg a != 0) (wordTarget s off)
def execBall (k : KReg) (off : BitVec 18) (s : State) : Out :=
  transferIf s (s.kreg k &&& s.k0 == s.k0) (wordTarget s off)
def execBCc (cc : ICond) (a b : SReg) (_la : BitVec 4) (off : Word32) (s : State) : Out :=
  transferIf s (cc.holds (s.sreg a) (s.sreg b)) (wordTarget s off)
def execRet (s : State) : Out := transferReg s (s.sreg 63)
def execJmpi (a : SReg) (s : State) : Out := transferReg s (s.sreg a)

/-! ### Steering the lane PC (R143, R144) -/

/-- The lane PC moved by a signed count of lane words. -/
def laneTarget (s : State) (off : BitVec 24) : Word64 := s.g.lpc + imm64 off * 12

def execLjmp (off : BitVec 24) (s : State) : Out := .next (s.modG fun g => { g with lpc := laneTarget s off }).advance
def execLcall (off : BitVec 24) (s : State) : Out :=
  .next (s.modG fun g => { g with llink := g.lpc, lpc := laneTarget s off }).advance
/-- A link not a multiple of 12 from the lane section's base raises TargetAlign. The manual does not say how a link from 2^63 up is
read; the model reads both addresses as signed numbers (DESIGN CHOICE, assumption 82). -/
def execLret (s : State) : Out :=
  if (s.g.llink.toInt - s.g.handler.lbase.toInt) % 12 != 0 then .next (s.takeTrap 0x05 { waddr := s.g.insAddr })
  else .next (s.modG fun g => { g with lpc := g.llink }).advance

def execNop (s : State) : Out := .next s.advance

/-! ### `lq` -/

/-- Registers of lanes that a handler has (R311). -/
def Handler.laneRegs (h : Handler) : Nat := 8 * (h.lregs.toNat + 1)

/-- Whether a lane word names a register at or above the handler's count (R43). -/
def regBound (h : Handler) (i : Instr) : Bool :=
  (i.vReads ++ i.vWrites).any fun r => h.laneRegs < r.first + r.count

/-- The tile of an `acpy` word. -/
def acpyTile : Instr → Option Nat
  | .acpyAr _ _ _ _ _ t | .acpyRa _ _ _ _ _ t => some t.toNat
  | _ => none

/-- The scalar base register that a lane word captures (R170, R191). -/
def laneBase : Instr → Option SReg
  | .ldG _ _ _ m | .stG _ _ _ m | .ldS _ _ _ m | .stS _ _ _ m | .cpGs _ _ _ m | .ldx _ _ _ m | .stx _ _ _ m
  | .atom _ _ _ _ _ _ _ m | .red _ _ _ _ _ _ m => some m.base
  | _ => none

/-- What examining one lane word gives (R44): the word, a trap, or a failed fetch. -/
inductive LaneFetch where
  | ok (i : Instr)
  | trap (code : Nat)
  | fail (code : Nat) (va : Word64)

/-- Whether the 12 bytes at an address lie in the lane section. -/
def Handler.inLane (h : Handler) (a : Word64) : Bool := (a - h.lbase).toNat + 12 ≤ h.lsize.toNat

/-- Fetches and checks the lane word at an address: FetchBound, the fields, RegisterBound, EngineBound (R44, R50). -/
def State.laneWordAt (s : State) (a : Word64) : State × LaneFetch :=
  if !s.g.handler.inLane a then (s, .trap 0x04) else
    match s.wordAt a with
    | (s1, .inr c) => (s1, .fail c a)
    | (s1, .inl w0) =>
      match s1.wordAt (a + 4) with
      | (s2, .inr c) => (s2, .fail c (a + 4))
      | (s2, .inl w1) =>
        match s2.wordAt (a + 8) with
        | (s3, .inr c) => (s3, .fail c (a + 8))
        | (s3, .inl w2) =>
          match decodeLane (w2 ++ w1 ++ w0) with
          | none => (s3, .trap 0x01)
          | some i =>
            if regBound s.g.handler i then (s3, .trap 0x03)
            else if (acpyTile i).any fun t => s.g.handler.tiles.toNat ≤ t then (s3, .trap 0x0D)
            else (s3, .ok i)

/-- The words of an `lq` in order, up to the first that breaks a rule, which answers with its address. -/
def State.laneWords (s : State) : Nat → Word64 → State × List (Instr × Word64) × Option (LaneFetch × Word64)
  | 0, _ => (s, [], none)
  | n + 1, a =>
    match s.laneWordAt a with
    | (s1, .ok i) => let r := s1.laneWords n (a + 12); (r.1, (i, a) :: r.2.1, r.2.2)
    | (s1, f) => (s1, [], some (f, a))

/-- A queue entry: the mask and the base register are captured now (R137, R170). -/
def State.queueEntry (s : State) (i : Instr) (a : Word64) : LqEnt :=
  { ins := i, addr := a, lqAddr := s.g.insAddr,
    mask := (match i.hdr with | some h => s.kreg h.mask | none => 0),
    base := (match laneBase i with | some r => s.sreg r | none => 0) }

/-- Whether the session's lane-PC breakpoints name one of the words (R407). -/
def State.laneBreak (s : State) (ws : List (Instr × Word64)) : Bool :=
  match s.sessionOf s.g.room with
  | some x => x.lbps.any fun p => ws.any fun w => w.2 == p.2
  | none => false

/-- `lq n` (R136): waits for n free entries, checks every word, then enqueues them all. -/
def execLq (n : BitVec 12) (s : State) : Out :=
  if Config.laneQueue < s.g.lq.length + n.toNat then .next (s.stall 2) else
    match s.laneWords n.toNat s.g.lpc with
    | (s1, _, some (.trap c, a)) => .next (s1.takeTrap c { waddr := a, lqaddr := s.g.insAddr })
    | (s1, _, some (.fail c va, _)) => .next (s1.fetchStop c va va)
    | (s1, ws, _) =>
      if s1.laneBreak ws && !s1.g.lqPassed then .next ((s1.modG fun g => { g with lqPassed := true }).haltNow 5)
      else if s1.busyS (ws.filterMap fun w => laneBase w.1) then .next (s1.stall 3)
      else
        let es := ws.map fun w => s1.queueEntry w.1 w.2
        .next (s1.modG fun g => { g with lq := g.lq ++ es, lpc := g.lpc + BitVec.ofNat 64 (12 * n.toNat) }).advance

end Sys2Proof.Machine
end

