-- ==== Sys2Proof/Machine/Rings.lean ====
section
/-! DEFINITION. Stage rings and the stream engines (R267 to R284). -/

namespace Sys2Proof.Machine

/-! ### Rings named by groups (R274 to R276) -/

/-- Publishes or releases: the control byte of a slot. -/
def State.setCtl (s : State) (r : Ring) (slot f e : Nat) (eos : Bool) : State := s.ringPut (r.ctl slot) [ctlByte f e eos]

/-- A ring is in use from its first naming on; its counter tells the number that is published next (R271, R273). -/
def State.useRing (s : State) (r : Ring) : State :=
  if s.b.rings.any fun x => x.1 == r.off then s
  else { s with b := { s.b with rings := (r.off, if r.out then r.take else r.claim) :: s.b.rings } }

/-- A program has overwritten a ring in use (R271): by a free choice what names it waits, as the rule allows until the journey is stopped,
or goes on in some other way. -/
def State.ringWaits (s : State) : Bool := s.freeBit (49 * 2 ^ 60)

/-- The slots of an overwritten ring hold anything (R271). -/
def State.wildSlots (s : State) (off : Nat) : State :=
  s.ringPut (off + 64) ((upTo 64).map fun i => (s.freeWord (49 * 2 ^ 60 + 1 + i)).truncate 8)

/-- The checks of `swait` and `sdone` in their order (R276); `wild` is what the instruction does at an overwritten ring where it does not
wait. -/
def ringCheck (s : State) (x m : Word64) (wild : State → Out) (k : Ring → State → Out) : Out :=
  if x.toInt < 0 || x.toInt % 64 != 0 || !s.scratchOk x.toInt 128 then .next (s.takeTrap 0x09 { vaddr := x })
  else if s.b.broken.contains x.toNat then
    if s.ringWaits then .next (s.stall 4) else wild (s.wildSlots x.toNat)
  else match ringAt s.b.spm s.b.handler.allocation x.toNat with
    | none => .next (s.takeTrap 0x10 {})
    | some r => if r.modulus ≤ m.toNat then .next (s.takeTrap 0x11 {}) else k r (s.useRing r)

/-- The writes of a fill are acquired (R275, R281). -/
def State.acquireSlot (s : State) (r : Ring) (slot : Nat) : State :=
  let lo := r.data slot
  { s with b := { s.b with unacq := s.b.unacq.map fun u => bif lo ≤ u.addr && u.addr < lo + r.sbytes then u.take s.me else u } }

def execSwait (d a b : SReg) (s : State) : Out :=
  ringCheck s (s.sreg a) (s.sreg b) (fun t => finS t 0 d (s.freeWord (49 * 2 ^ 60 + 100))) fun r s1 =>
    let n := (s.sreg b).toNat
    let slot := r.slot n
    let x := s1.b.spm.byte (r.ctl slot)
    if r.out then
      if emptyBit x == r.lap n then finS s1 0 d (BitVec.ofNat 64 (r.data slot)) else .next (s1.stall 4)
    else if fullBit x == 1 - r.lap n then
      finS (s1.acquireSlot r slot) 0 d (BitVec.ofNat 64 (r.data slot + 2 ^ 32 * b2n (x.getLsbD 2)))
    else .next (s1.stall 4)

/-- `sdone` waits as R46 gives, which closes the open windows, and reads its registers behind the wait (R275). -/
def execSdone (d a b : SReg) (s0 : State) : Out :=
  if !s0.allDone then .next (s0.stall 3) else
  let s := s0.closeWindows
  ringCheck s (s.sreg a) (s.sreg b) (fun t => .next t.advance) fun r s1 =>
    let n := (s.sreg b).toNat
    let slot := r.slot n
    let x := s1.b.spm.byte (r.ctl slot)
    let next := 1 - r.lap n
    if r.out then
      if emptyBit x != r.lap n || fullBit x == next then .next (s1.takeTrap 0x11 {})
      else
        let s2 := s1.modB Band.drain
        .next (s2.modB fun b => { b with fills := b.fills ++ [⟨r.off, n, (s.sreg d).getLsbD 0⟩] }).advance
    else if fullBit x != next || emptyBit x == next then .next (s1.takeTrap 0x11 {})
    else .next (s1.setCtl r slot (fullBit x) next (x.getLsbD 2)).advance

/-! ### `push` (R277) -/

/-- The eight registers that `push` sends. -/
def pushRegs (s : State) (a : SReg) : List Word64 := (upTo 8).map fun i => s.sreg (a + BitVec.ofNat 6 i)

/-- Commands in a queue; of the Drover's order the drain commands stand in its queue. -/
def queueLen (s : State) (q : PushQ) : Nat :=
  match q with
  | .se0 => s.c.se0.length
  | .se1 => s.c.se1.length
  | .drover => (s.c.drv.filter fun e => match e.cmd with | .drain _ _ => true | _ => false).length

/-- Puts a command of an operation slot into its queue. -/
def enqueueCmd (s : State) (q : PushQ) (op : Nat) (regs : List Word64) : State :=
  match q with
  | .se0 => s.modC fun c => { c with se0 := c.se0 ++ [{ op := op, band := s.g.band, group := s.g.slot, regs := regs }] }
  | .se1 => s.modC fun c => { c with se1 := c.se1 ++ [{ op := op, band := s.g.band, group := s.g.slot, regs := regs }] }
  | .drover =>
    let cmd : DrvCmd := .drain ((s.b.live (regs.getD 1 0)).map (·.index)) regs
    s.modC fun c => { c with drv := c.drv ++ [{ op := some op, band := s.g.band, group := s.g.slot, cmd := cmd }] }

def execPush (q : PushQ) (f : FReg) (a b : SReg) (la : BitVec 4) (s : State) : Out :=
  if s.fPending f then .next s.waitFuture
  else if Config.engineQueue ≤ queueLen s q then
    .next ((((s.observeWaited f).dropFuture f).setF f .empty).setSla la b 1).advance
  else
    let (s1, op) := s.startOp f [] [] []
    let s2 := enqueueCmd s1 q op (pushRegs s a)
    .next (s2.setSla la b 0).advance

/-! ### Layout records (R268 to R270) -/

/-- A layout record's fields. -/
structure Layout where
  base : Nat
  ndim : Nat
  size : Nat
  etype : Nat
  stag : Nat
  fill : Nat
  extent : List Nat
  stride : List Nat
  box : List Nat
deriving DecidableEq, Repr, Inhabited

/-- Bytes of an element type; 0 where malformed. -/
def elemSize : Nat → Nat
  | 0 => 1 | 1 => 2 | 2 => 4 | 3 => 8 | 4 => 4 | 5 => 2 | 6 => 2
  | _ => 0

/-- Product of a list. -/
def prodOf (l : List Nat) : Nat := l.foldl (· * ·) 1

/-- Bytes of a box. -/
def Layout.bytes (y : Layout) : Nat := y.size * prodOf (y.box.take y.ndim)

/-- Reads a layout record; none where it breaks R268. -/
def layoutOf (l : List Byte) : Option Layout :=
  let n := ofLe l
  let f (lo len : Nat) := bitsOf n lo len
  let y : Layout := { base := f 0 64, ndim := f 72 3, size := elemSize (f 80 4), etype := f 80 4, stag := f 88 2, fill := f 96 32,
                      extent := [0, 1, 2, 3, 4].map fun i => f (128 + 32 * i) 32,
                      stride := 0 :: [0, 1, 2, 3].map fun i => f (320 + 64 * i) 64,
                      box := [0, 1, 2, 3, 4].map fun i => f (576 + 16 * i) 16 }
  let ok := y.base % 16 == 0 && f 64 8 == 1 && 1 ≤ y.ndim && y.ndim ≤ 5 && f 75 5 == 0 && y.size != 0 && f 84 4 == 0
    && f 90 6 == 0 && f 288 32 == 0 && f 656 368 == 0
    && (y.extent.drop y.ndim).all (· == 0) && (y.stride.drop y.ndim).all (· == 0) && (y.box.drop y.ndim).all (· == 0)
    && (y.stride.take y.ndim).all (· % 16 == 0) && ((y.box.take y.ndim).all fun b => 1 ≤ b && b ≤ 256)
    && y.box.headD 0 * y.size % 16 == 0
  if ok then some y else none

/-- Box-relative indices of the k-th element, dimension 0 fastest (R270). -/
def boxIdx : List Nat → Nat → List Nat
  | [], _ => []
  | b :: bs, k => k % b :: boxIdx bs (k / b)

/-- Offset of an element in the slot's data, staggered (R270). -/
def Layout.place (y : Layout) (k : Nat) : Nat :=
  let o := y.size * k
  if y.stag = 0 then o else
    let step := if y.stag = 1 then 1 else if y.stag = 2 then 5 else 9
    let row := o / 512
    512 * row + (o % 512 + 8 * step * row) % 512

/-- Address of an element where it is in bounds (R270). -/
def Layout.addr (y : Layout) (start : List Int) (k : Nat) : Option Word64 :=
  let x := List.zipWith (fun (c : Int) (j : Nat) => c + j) start (boxIdx (y.box.take y.ndim) k)
  if (List.zipWith (fun (v : Int) (e : Nat) => 0 ≤ v && v < e) x y.extent).all id then
    some (BitVec.ofInt 64 (y.base + y.size * x.headD 0 + (List.zipWith (fun (v : Int) (m : Nat) => v * m) x y.stride).foldl (· + ·) 0))
  else none

/-! ### Commands (R278 to R280) -/

def SeCmd.r (c : SeCmd) (i : Nat) : Nat := (c.regs.getD i 0).toNat
def SeCmd.kind (c : SeCmd) : Nat := c.r 0 % 256
def SeCmd.eos (c : SeCmd) : Bool := bitsOf (c.r 0) 8 1 == 1
def SeCmd.stepDim (c : SeCmd) : Nat := bitsOf (c.r 0) 16 3
def SeCmd.boxes (c : SeCmd) : Nat := c.r 0 / 2 ^ 32
def SeCmd.layOff (c : SeCmd) : Nat := c.r 1 % 2 ^ 32
def SeCmd.signed (x : Nat) : Int := if 2 ^ 31 ≤ x then (x : Int) - 2 ^ 32 else x
/-- Start coordinates of box i (R279). -/
def SeCmd.startOf (c : SeCmd) (i : Nat) : List Int :=
  let w (k h : Nat) := SeCmd.signed (bitsOf (c.r k) (32 * h) 32)
  let base := [w 2 0, w 2 1, w 3 0, w 3 1, w 4 0]
  base.set c.stepDim (base.getD c.stepDim 0 + i * w 4 1)
/-- Numbers a load or quant claims. -/
def SeCmd.total (c : SeCmd) : Nat := c.boxes + b2n (c.eos && (c.kind == 1 || c.kind == 4))

/-- Fields of a command that break R278. -/
def SeCmd.bad (c : SeCmd) : Bool :=
  !(1 ≤ c.kind && c.kind ≤ 4) || bitsOf (c.r 0) 9 7 != 0 || bitsOf (c.r 0) 19 13 != 0 || 65536 < c.boxes
    || (c.boxes == 0 && !c.eos) || (c.kind == 3 && c.r 1 / 2 ^ 32 != 0) || c.r 6 != 0 || c.r 7 != 0
    || (c.kind == 4 && (4 < bitsOf (c.r 5) 0 3 || bitsOf (c.r 5) 3 1 != 0 || c.r 5 / 32 != 0))
    || ((c.kind == 1 || c.kind == 2) && c.r 5 != 0)

/-- Quantised formats: whether E2M1, and the rounding mode. -/
def SeCmd.e2m1 (c : SeCmd) : Bool := bitsOf (c.r 5) 4 1 == 1
def SeCmd.rnd (c : SeCmd) : Rnd :=
  match bitsOf (c.r 5) 0 3 with
  | 1 => .rz | 2 => .rd | 3 => .ru | 4 => .ra
  | _ => .rn

/-- Columns and rows of a quant box, and the bytes its four arrays take (R280). -/
def Layout.cols (y : Layout) : Nat := y.box.getD 0 0
def Layout.rows (y : Layout) : Nat := y.box.getD 1 0
def quantBytes (y : Layout) (e2m1 : Bool) : Nat :=
  let n := y.rows * y.cols
  (if e2m1 then n else 2 * n) + n / 16

/-- The layout record of a command: read through the wide port when it starts, and kept; none where malformed or outside
(R268, R269). -/
def seLayout (s : State) (c : SeCmd) : Option Layout :=
  if c.started then layoutOf c.lay
  else if c.layOff % 64 == 0 && c.layOff + 128 ≤ s.b.handler.allocation then layoutOf (s.wideRead c.layOff 128)
  else none

/-- The ring that a command names, read through the wide port when it starts, and kept (R281); set names none. -/
def seRing (s : State) (c : SeCmd) : Option Ring :=
  match c.ring with
  | some r => some r
  | none => c.ringOff.bind fun off => ringOf (s.wideRead off 128) s.b.handler.allocation off

/-- A command starts with its record and its ring read (R268, R271). -/
def SeCmd.begin (c : SeCmd) (s : State) (first : Nat) : SeCmd :=
  { c with started := true, first := first, lay := s.wideRead c.layOff 128, ring := seRing s c }

/-- The control byte of a ring's slot as an engine reads it (R271, R281). -/
def State.ctlByteOf (s : State) (r : Ring) (slot : Nat) : Byte := s.wideByte (r.ctl slot)

/-- Failure causes that apply to a command before it starts (R269, R279, R280). The direction of a ring is the breach of a load, store or
quant alone. A set names no ring, so that a `stag` in its record breaks nothing: the manual's test of sbytes has no subject there (DESIGN
CHOICE, assumption 103). -/
def seCauses (s : State) (c : SeCmd) : List (BitVec 16) :=
  let y := seLayout s c
  let ring := seRing s c
  let cmdBad := c.bad || (match y with | some y => y.ndim ≤ c.stepDim | none => false)
  let quantBad := c.kind == 4 && match y with
    | some y => y.ndim != 2 || !(4 ≤ y.etype && y.etype ≤ 6) || y.cols % 32 != 0 || y.rows % 32 != 0
        || (match ring with | some r => r.sbytes < quantBytes y c.e2m1 | none => false)
    | none => false
  let layBad := match y with
    | none => true
    | some y => c.kind != 3 && match ring with
      | some r => (c.kind != 4 && r.sbytes < y.bytes) || (y.stag != 0 && r.sbytes % 512 != 0)
      | none => false
  let ringBad := c.kind != 3 && match ring with
    | some r => if c.kind == 2 then !r.out else r.out && (c.kind == 1 || c.kind == 4)
    | none => true
  (if cmdBad || quantBad then [2] else []) ++ (if layBad then [3] else []) ++ (if ringBad then [4] else [])

/-! ### The engines' steps -/

/-- The queue of a stream engine of the focused core. -/
def seQ (s : State) (eng : Nat) : List SeCmd := if eng = 0 then s.c.se0 else s.c.se1
def setSeQ (s : State) (eng : Nat) (q : List SeCmd) : State :=
  s.modC fun c => if eng = 0 then { c with se0 := q } else { c with se1 := q }

/-- Runs a step on the head command of an engine, with its band in the focus; nothing happens where the queue is empty. -/
def withSe (s : State) (core eng : Nat) (k : SeCmd → State → Out) : Out :=
  let c := s.core core
  match if eng = 0 then c.se0 else c.se1 with
  | [] => .next s
  | cmd :: _ =>
    if s.commanded core cmd.band then .next s else
    match k cmd (s.focusBand core cmd.band cmd.group) with
    | .next t => .next t.unfocus
    | r => r

/-- Replaces or drops the head command. -/
def putHead (s : State) (eng : Nat) (cmd : SeCmd) : State := setSeQ s eng (cmd :: (seQ s eng).tail)
def popHead (s : State) (eng : Nat) : State := setSeQ s eng (seQ s eng).tail

/-- The numbers that a command has claimed, by index. -/
def SeCmd.number (c : SeCmd) (r : Ring) (i : Nat) : Nat := (c.first + i) % r.modulus

/-- Every claimed number that is not published is published as an end-of-stream token (R282). -/
def eosRest (s : State) (cmd : SeCmd) : State :=
  match seRing s cmd with
  | some r =>
    if cmd.started && !r.out then
      let kept := s.b.fills.map fun f => if f.ring == r.off && (upTo cmd.next).any (fun i => cmd.number r i == f.n) then
        { f with eos := true } else f
      let rest := (upTo (cmd.total - cmd.next)).map fun i => Fill.mk r.off (cmd.number r (cmd.next + i)) true
      s.modB fun b => { b with fills := kept ++ rest }
    else s
  | none => s

/-- The head command fails with a cause. -/
def seFail (s : State) (eng : Nat) (cmd : SeCmd) (cause : BitVec 16) : State :=
  (popHead (eosRest s cmd) eng).endOp cmd.op (.failed cause) cmd.fl

/-- A failing access suspends the command (R282): it waits for the Innkeeper. -/
def seSuspend (s : State) (cmd : SeCmd) (code : Nat) (va : Word64) (access : BitVec 3) : State :=
  s.modOp cmd.op fun o => { o with park := some { code := code, va := va, lane := 0, access := access, atAddr := o.iaddr } }

/-- A command that names an overwritten ring (R271): by a free choice it waits, or ends in some state and leaves the slots holding
anything. -/
def seWild (s : State) (eng : Nat) (cmd : SeCmd) : State :=
  if s.ringWaits then s else
    let st : OpState := if s.freeBit (49 * 2 ^ 60 + 101) then .done else .failed ((s.freeWord (49 * 2 ^ 60 + 102)).truncate 16)
    (popHead (s.wildSlots (cmd.ringOff.getD 0)) eng).endOp cmd.op st cmd.fl

/-- Whether the command waits for the Innkeeper. -/
def seParked (s : State) (cmd : SeCmd) : Bool := s.c.ops.any fun o => o.slot == cmd.op && o.park.isSome

/-- Starts the head command of a kind: it is checked, and claims its numbers on its ring (R279). -/
def seStart (s : State) (core eng : Nat) (kinds : Nat → Bool) : Out :=
  withSe s core eng fun cmd s1 =>
    if cmd.started || !kinds cmd.kind then .next s1 else
      match cmd.ringOff with
      | some off =>
        if s1.b.broken.contains off then .next (seWild s1 eng cmd) else
          match seCauses s1 cmd with
          | c :: cs => .next (seFail s1 eng cmd (((c :: cs)[s1.freeNat 21 % (cs.length + 1)]?).getD c))
          | [] =>
            match seRing s1 cmd with
            | none => .next s1
            | some r =>
              let at_ := if r.out then r.take else r.claim
              let n := if r.out then cmd.boxes else cmd.total
              let s2 := (s1.useRing r).ringPut (off + (if r.out then 24 else 16)) (leBytes 4 ((at_ + n) % r.modulus))
              .next (putHead s2 eng (cmd.begin s1 at_))
      | none => .next s1

/-- `SE_LOAD`: a load command starts; a command of no kind fails here. -/
def execSeLoad (core eng : Nat) (s : State) : Out := seStart s core eng fun k => k == 1 || !(1 ≤ k && k ≤ 4)
/-- `SE_STORE`: a store command starts. -/
def execSeStore (core eng : Nat) (s : State) : Out := seStart s core eng fun k => k == 2
/-- `SE_QUANT`: a quant command starts. -/
def execSeQuant (core eng : Nat) (s : State) : Out := seStart s core eng fun k => k == 4

/-- What an engine access meets. -/
inductive Hit where
  | bytes (l : List Byte)
  | fail (code : Nat) (va : Word64)
  | poison (pa : Nat) (va : Word64)

/-- What a record of an engine's access names (R347, R351): its agent, and the instruction that issued its operation. -/
def seRec (s : State) (eng : Nat) (cmd : SeCmd) (access : Nat) : FaultRec :=
  { s.groupRec 0 with agent := 2 + eng, access := access, iaddr := s.opIaddr cmd.op }

/-- The load of a number of bytes as an import names it. -/
def loadAcc (n : Nat) : ReqKind := .scalarLoad (if n = 1 then .n8 else if n = 2 then .n16 else if n = 4 then .n32 else .b64) 0

/-- The widest aligned access of at most 8 bytes at the beginning of a run. -/
def pieceAt (off n : Nat) : Nat :=
  if 8 ≤ n && off % 8 == 0 then 8 else if 4 ≤ n && off % 4 == 0 then 4 else if 2 ≤ n && off % 2 == 0 then 2 else 1

/-- A read of a run through a window: imports of aligned accesses in address order, each of at most 8 bytes (R319, R348). `fuel` bounds their
number. -/
def State.importRun (s : State) (rec : FaultRec) (w off n : Nat) (fuel : Nat) : State × List Byte :=
  match fuel with
  | 0 => (s, [])
  | k + 1 =>
    if n = 0 then (s, []) else
      let r := s.importBy rec w off (pieceAt off n) (loadAcc (pieceAt off n))
      let rest := r.1.importRun rec w (off + pieceAt off n) (n - pieceAt off n) k
      (rest.1, r.2 ++ rest.2)

/-- Reads `n` bytes of the journey's memory through the core's TLB for an engine; `rec` is what a record of a refused import names. -/
def engRead (s : State) (rec : FaultRec) (va : Word64) (n : Nat) : State × Hit :=
  match s.xlate none needR va with
  | (s1, .fail c) => (s1, .fail c va)
  | (s1, .peer w off) =>
    let r := s1.importBy { rec with vaddr := va } w off n (loadAcc n)
    (r.1, .bytes r.2)
  | (s1, .pool pa) => if s1.poisoned pa n then (s1, .poison pa va) else (s1, .bytes (s1.memRead pa n))

/-- The elements of a box in order, out-of-bounds ones as the fill value (R270). Its 32 bits fill the low bytes of an 8-byte element; what the
upper ones are the manual does not say, and here they are zero (DESIGN CHOICE, assumption 104). -/
def readBox (s : State) (rec : FaultRec) (y : Layout) (start : List Int) : Nat → Nat → State × List (List Byte) × Option Hit
  | 0, _ => (s, [], none)
  | n + 1, k =>
    match y.addr start k with
    | none => let r := readBox s rec y start n (k + 1); (r.1, leBytes y.size y.fill :: r.2.1, r.2.2)
    | some va =>
      match engRead s rec va y.size with
      | (s1, .bytes l) => let r := readBox s1 rec y start n (k + 1); (r.1, l :: r.2.1, r.2.2)
      | (s1, h) => (s1, [], some h)

/-- Format of a quant source. -/
def Layout.fmt (y : Layout) : Fmt := if y.etype = 4 then fp32 else if y.etype = 5 then bf16 else fp16

/-- One block of 32 elements: scale and codes (R280), with flags. A block with a NaN or an infinity sets nv where R55 and R68 do: for a
signalling NaN, for an infinity that has become a NaN code or scale, and for any NaN where the codes are E2M1 (DEDUCED, assumption 85). -/
def quantBlock (e2m1 : Bool) (rnd : Rnd) (vs : List FVal) : Nat × List Nat × Word32 :=
  let t := if e2m1 then fe2m1 else fe4m3
  let invalid (v : FVal) : Bool := match v with
    | .nan signalling => signalling || e2m1
    | .inf _ => true
    | _ => false
  if vs.any fun v => v.isNan || v.isInf then
    (0xFF, vs.map fun _ => if e2m1 then 0 else fe4m3.nan, flagIf (vs.any invalid) flNV) else
    let top := vs.foldl (fun (x : Option Int) v =>
      if v.isZero then x else
        let l := v.expo + v.mant.log2
        some (match x with | some y => max y l | none => l)) none
    let x : Nat := match top with
      | none => 0
      | some l => (max 0 (min 254 (l - (if e2m1 then 2 else 8) + 127))).toNat
    let rs := vs.map fun v => toFmt t rnd true 0 (.fin v.neg v.mant (v.expo - ((x : Int) - 127)))
    (x, rs.map FRes.code, rs.foldl (fun f r => f ||| r.fl) 0)

/-- Bytes of codes: one each, or two to a byte (R60). -/
def packCodes (e2m1 : Bool) : List Nat → List Byte
  | a :: b :: l => if e2m1 then BitVec.ofNat 8 (a + 16 * b) :: packCodes e2m1 l
      else BitVec.ofNat 8 a :: BitVec.ofNat 8 b :: packCodes e2m1 l
  | [a] => [BitVec.ofNat 8 a]
  | [] => []

/-- The lists of 32 that a list splits into, by count. -/
def blocks32 {α : Type} : Nat → List α → List (List α)
  | 0, _ => []
  | n + 1, l => l.take 32 :: blocks32 n (l.drop 32)

/-- Codes and scales of one order of a box's elements. -/
def quantSide (e2m1 : Bool) (rnd : Rnd) (vs : List FVal) : List Byte × List Byte × Word32 :=
  let bs := (blocks32 (vs.length / 32) vs).map (quantBlock e2m1 rnd)
  (packCodes e2m1 (bs.flatMap fun b => b.2.1), bs.map fun b => BitVec.ofNat 8 b.1, bs.foldl (fun f b => f ||| b.2.2) 0)

/-- The four arrays of a quant box and its flags (R280). -/
def quantBox (y : Layout) (cmd : SeCmd) (elems : List (List Byte)) : List Byte × Word32 :=
  let vs := elems.map fun l => y.fmt.decode (ofLe l)
  let rowsSide := quantSide cmd.e2m1 cmd.rnd vs
  let cols := (upTo y.cols).flatMap fun c => (upTo y.rows).map fun r => (vs[r * y.cols + c]?).getD (.fin false 0 0)
  let colsSide := quantSide cmd.e2m1 cmd.rnd cols
  (rowsSide.1 ++ rowsSide.2.1 ++ colsSide.1 ++ colsSide.2.1, rowsSide.2.2 ||| colsSide.2.2)

/-- Writes the elements of a load into a slot. -/
def placeBox (s : State) (w : Writer) (base : Nat) (y : Layout) : Nat → List (List Byte) → State
  | _, [] => s
  | k, l :: ls => placeBox (s.wideWrite w (base + y.place k) l) w base y (k + 1) ls

/-- One element of a box, as it was read ahead or as it is read now. -/
def SeCmd.ahead (c : SeCmd) (y : Layout) (k : Nat) (l : List Byte) : List Byte :=
  match y.addr (c.startOf c.next) k with
  | some va => match c.pre.find? fun e => e.1 == va with
    | some e => e.2
    | none => l
  | none => l

/-- Elements that a box's reading gives from the `k`-th on: what was read ahead of its turn stays as it was read (R281). -/
def SeCmd.settle (c : SeCmd) (y : Layout) (k : Nat) (l : List (List Byte)) : List (List Byte) :=
  if c.pre.isEmpty then l else l.zipIdx.map fun x => c.ahead y (k + x.2) x.1

/-- How many of the elements of a box that are left the step takes (R281). -/
def State.share (s : State) (left : Nat) : Nat := match s.few with | some m => min m left | none => left

/-- A poisoned or failing read ends or suspends the command. -/
def seHit (s : State) (eng : Nat) (cmd : SeCmd) (h : Hit) : State :=
  match h with
  | .bytes _ => s
  | .fail c va => seSuspend s cmd c va 4
  | .poison pa va => seFail (s.dataPoison (2 + eng) 4 (s.opIaddr cmd.op) 0 pa va 0) eng cmd 1

/-- An element of some queued load or quant is read ahead, before its turn and before its command has started (R281): any element of any box,
by a free choice. One that cannot be read is left to its turn. -/
def sePrefetch (core eng : Nat) (s : State) : State :=
  let q := if eng = 0 then (s.core core).se0 else (s.core core).se1
  match q[s.freeNat (70 * 2 ^ 60) % q.length]? with
  | none => s
  | some cmd =>
    if s.commanded core cmd.band || !(cmd.kind == 1 || cmd.kind == 4) || cmd.boxes = 0 then s else
      let t := s.focusBand core cmd.band cmd.group
      match seLayout t cmd with
      | none => s
      | some y =>
        match y.addr (cmd.startOf (t.freeNat (70 * 2 ^ 60 + 1) % cmd.boxes)) (t.freeNat (70 * 2 ^ 60 + 2) % prodOf (y.box.take y.ndim)) with
        | none => s
        | some va =>
          if cmd.pre.any fun e => e.1 == va then s else
            match engRead t (seRec t eng cmd 4) va y.size with
            | (u, .bytes l) =>
              (setSeQ u eng ((seQ u eng).map fun c => if c.op == cmd.op then { c with pre := (va, l) :: c.pre } else c)).unfocus
            | _ => s

/-- `RING_SLOT_FILL`: the next claimed slot is free, so its box is read, all of it or a part, and once it is whole written and queued for
publication (R279, R272, R281). A step that does a part may read an element ahead instead. -/
def execRingSlotFill (core eng : Nat) (s : State) : Out :=
  if s.few.isSome && s.freeBit (70 * 2 ^ 60 + 3) then .next (sePrefetch core eng s) else
  withSe s core eng fun cmd s1 =>
    if !cmd.started || seParked s1 cmd || cmd.kind == 2 || cmd.total ≤ cmd.next then .next s1 else
      match cmd.ringOff, seRing s1 cmd, seLayout s1 cmd with
      | some off, some r, some y =>
        if s1.b.broken.contains off then .next (seWild s1 eng cmd) else
          let n := cmd.number r cmd.next
          let slot := r.slot n
          if emptyBit (s1.ctlByteOf r slot) != r.lap n then .next s1
          else if cmd.boxes ≤ cmd.next then
            .next (putHead (s1.modB fun b => { b with fills := b.fills ++ [⟨off, n, true⟩] }) eng { cmd with next := cmd.next + 1 })
          else
            let all := prodOf (y.box.take y.ndim)
            let have' := cmd.elems.length
            match readBox s1 (seRec s1 eng cmd 4) y (cmd.startOf cmd.next) (s1.share (all - have')) have' with
            | (s2, more, none) =>
              let elems := cmd.elems ++ cmd.settle y have' more
              if s1.few.isSome then .next (putHead s2 eng { cmd with elems := elems }) else
              let w := s2.writer cmd.op
              let (s3, fl) :=
                if cmd.kind == 4 then
                  let q := quantBox y cmd elems
                  (s2.wideWrite w (r.data slot) q.1, q.2)
                else (placeBox s2 w (r.data slot) y 0 elems, 0)
              .next (putHead (s3.modB fun b => { b with fills := b.fills ++ [⟨off, n, false⟩] }) eng
                { cmd with next := cmd.next + 1, fl := cmd.fl ||| fl, elems := [] })
            | (s2, more, some h) =>
              let cmd' := { cmd with elems := cmd.elems ++ cmd.settle y have' more }
              .next (seHit (putHead s2 eng cmd') eng cmd' h)
      | _, _, _ => .next s1

/-- The head command of an engine, a load or quant, is complete once every number it claimed is published; its flags go to the group that
pushed it (R69, R280). -/
def seFinished (core band eng : Nat) (s : State) : State :=
  let c := s.core core
  match if eng = 0 then c.se0 else c.se1 with
  | cmd :: _ =>
    if cmd.band != band then s else
      let t := s.focusBand core band cmd.group
      match seRing t cmd with
      | some r =>
        if cmd.started && !r.out && cmd.total ≤ cmd.next
            && !t.b.fills.any (fun f => f.ring == r.off && (upTo cmd.total).any fun i => cmd.number r i == f.n) then
          ((popHead t eng).endOp cmd.op .done cmd.fl).unfocus
        else s
      | none => s
  | [] => s

/-- `SLOT_PUBLISH`: the fill whose lower numbers are all published becomes full (R273). -/
def execSlotPublish (core band off : Nat) (s : State) : Out :=
  let b := (s.band? core band).getD {}
  let s1 := s.focusBand core band (b.members.headD 0)
  if s.commanded core band then .next s else
  match ringAt s1.b.spm s1.b.handler.allocation off with
  | none => .next s
  | some r =>
    if s1.b.broken.contains off then
      if s.ringWaits then .next s
      else .next (s1.modB fun b => { b with fills := dropFirst (fun f => f.ring == off) b.fills }).unfocus
    else
      match s1.b.fills.find? fun f => f.ring == off && s1.b.rings.any fun x => x.1 == off && x.2 == f.n with
      | none => .next s
      | some f =>
        let slot := r.slot f.n
        let x := s1.b.spm.byte (r.ctl slot)
        if emptyBit x != r.lap f.n then .next s
        else
          let s2 := (s1.setCtl r slot (1 - r.lap f.n) (emptyBit x) f.eos).modB fun b =>
            { b with fills := dropFirst (fun g => g == f) b.fills,
                     rings := b.rings.map fun x => if x.1 == off then (off, (f.n + 1) % r.modulus) else x }
          .next (seFinished core band 1 (seFinished core band 0 s2.unfocus))

/-- Writes in-bounds elements of a box, to pool memory or as imports of a peer (R279, R348); the first failing one ends the walk, which
answers the element it has come to, and the runs of pool bytes it has written. -/
def writeBox (s : State) (w : Writer) (rec : FaultRec) (y : Layout) (start : List Int) (get : Nat → List Byte) :
    Nat → Nat → State × Nat × List (Nat × Nat) × Option Hit
  | 0, k => (s, k, [], none)
  | n + 1, k =>
    match y.addr start k with
    | none => writeBox s w rec y start get n (k + 1)
    | some va =>
      match s.xlate none needW va with
      | (s1, .fail c) => (s1, k, [], some (.fail c va))
      | (s1, .peer i off) => writeBox (s1.importBy { rec with vaddr := va } i off 0 (.store (get k))).1 w rec y start get n (k + 1)
      | (s1, .pool pa) =>
        let r := writeBox (s1.engWrite w pa (get k)) w rec y start get n (k + 1)
        (r.1, r.2.1, (pa, y.size) :: r.2.2.1, r.2.2.2)

/-- A box, or a part of it, written from the element that the command has come to: whole lines lose their poison (R393). -/
def writeShare (s : State) (eng : Nat) (cmd : SeCmd) (y : Layout) (get : Nat → List Byte) : State × Nat × Option Hit :=
  let r := writeBox s (s.writer cmd.op) (seRec s eng cmd 5) y (cmd.startOf cmd.next) get
    (s.share (prodOf (y.box.take y.ndim) - cmd.put)) cmd.put
  (r.1.clearPoison r.2.2.1, r.2.1, r.2.2.2)

/-- `RING_SLOT_DRAIN`: the next claimed outbound slot is full, so its box is written to memory, all of it or a part, and once it is whole
the slot is released (R279, R281). -/
def execRingSlotDrain (core eng : Nat) (s : State) : Out :=
  withSe s core eng fun cmd s1 =>
    if !cmd.started || seParked s1 cmd || cmd.kind != 2 then .next s1 else
      match cmd.ringOff, seRing s1 cmd, seLayout s1 cmd with
      | some off, some r, some y =>
        if s1.b.broken.contains off then .next (seWild s1 eng cmd)
        else if cmd.boxes ≤ cmd.next then .next ((popHead s1 eng).endOp cmd.op .done 0)
        else
          let n := cmd.number r cmd.next
          let slot := r.slot n
          let x := s1.ctlByteOf r slot
          if fullBit x != 1 - r.lap n then .next s1 else
            let get (k : Nat) : List Byte := s1.wideRead (r.data slot + y.place k) y.size
            let all := prodOf (y.box.take y.ndim)
            let (s2, k, hit) := if x.getLsbD 2 then (s1, all, none) else writeShare s1 eng cmd y get
            match hit with
            | some (.fail c va) => .next (seSuspend (putHead s2 eng { cmd with put := k }) cmd c va 5)
            | _ =>
              if s1.few.isSome then .next (putHead s2 eng { cmd with put := k }) else
              let s3 := s2.setCtl r slot (fullBit x) (1 - r.lap n) (x.getLsbD 2)
              if cmd.boxes ≤ cmd.next + 1 then .next ((popHead s3 eng).endOp cmd.op .done 0)
              else .next (putHead s3 eng { cmd with next := cmd.next + 1, put := 0 })
      | _, _, _ => .next s1

/-- The boxes of a set command from the next one on: a step that does a part stops behind a box at the latest. -/
def setBoxes (s : State) (eng : Nat) (cmd : SeCmd) (y : Layout) : Nat → State
  | 0 => (popHead s eng).endOp cmd.op .done 0
  | n + 1 =>
    match writeShare s eng cmd y fun _ => leBytes y.size (cmd.r 5) with
    | (s1, k, some (.fail c va)) => seSuspend (putHead s1 eng { cmd with put := k }) cmd c va 5
    | (s1, k, _) =>
      if s.few.isNone then setBoxes s1 eng { cmd with next := cmd.next + 1, put := 0 } y n
      else if k < prodOf (y.box.take y.ndim) then putHead s1 eng { cmd with put := k }
      else if n = 0 then (popHead s1 eng).endOp cmd.op .done 0
      else putHead s1 eng { cmd with next := cmd.next + 1, put := 0 }

/-- `SE_SET`: a set command writes its value to every in-bounds element of each box. -/
def execSeSet (core eng : Nat) (s : State) : Out :=
  withSe s core eng fun cmd s1 =>
    if cmd.kind != 3 || seParked s1 cmd then .next s1 else
      match (if cmd.started then [] else seCauses s1 cmd), seLayout s1 cmd with
      | [], some y =>
        .next (setBoxes s1 eng (if cmd.started then cmd else cmd.begin s1 0) y (cmd.boxes - cmd.next))
      | c :: cs, _ => .next (seFail s1 eng cmd (((c :: cs)[s1.freeNat 21 % (cs.length + 1)]?).getD c))
      | [], none => .next s1

/-- What a stream engine answers to a cancel (R282): it accepts a load, quant and set at a box boundary, to which a box that has been begun
comes first, and a store before it claims; a command that waits for the Innkeeper at a boundary waits no more. Flags of a quant's boxes
that are already converted are ORed at its cancel and at its failure
too; the manual speaks of its completion alone (R69; DESIGN CHOICE, assumption 86). -/
def seCancel (s : State) (eng : Nat) (cmd : SeCmd) : Cancel :=
  if cmd.kind == 2 && cmd.started then .refused
  else if !cmd.elems.isEmpty || cmd.put != 0 then .later
  else
    let s1 := (eosRest s cmd).modOp cmd.op fun o => { o with park := none }
    .taken ((setSeQ s1 eng ((seQ s eng).filter fun c => c.op != cmd.op)).endOp cmd.op .cancelled cmd.fl)

end Sys2Proof.Machine
end

