-- ==== Sys2Proof/Machine/Drover.lean ====
section
/-! DEFINITION. The Drover: iterator state blocks, `itbind`, `next`, `enough`, `itfree`, and the engine's own steps (R202 to
R227, R437). -/

namespace Sys2Proof.Machine

/-! ### Slots (R206) -/

def DSlot.word (t : DSlot) (i : Nat) : Word32 := t.w.getD i 0
def DSlot.nat (t : DSlot) (i : Nat) : Nat := (t.word i).toNat
def DSlot.int (t : DSlot) (i : Nat) : Int := (t.word i).toInt
def DSlot.kind (t : DSlot) : Nat := bitsOf (t.nat 0) 0 8
def DSlot.comp (t : DSlot) : Bool := (t.word 0).getLsbD 8
def DSlot.load (t : DSlot) : Bool := (t.word 0).getLsbD 9
def DSlot.cc (t : DSlot) : Nat := bitsOf (t.nat 0) 10 4
/-- The base address in two words from word i. -/
def DSlot.base (t : DSlot) (i : Nat) : Word64 := t.word (i + 1) ++ t.word i
def DSlot.set (t : DSlot) (i : Nat) (x : Word32) : DSlot := { t with w := t.w.set i x }

/-- Words of a slot that its kind reserves (R206). -/
def DSlot.reserved (t : DSlot) : List Nat :=
  match t.kind with
  | 0x01 | 0x02 | 0x03 => [5, 6]
  | 0x04 => [3, 4, 5, 6]
  | 0x05 => [4, 5, 6]
  | 0x10 | 0x11 => [3, 4, 5, 6]
  | 0x12 => if t.load then [4, 5, 6] else [2, 3, 4, 5, 6]
  | 0x13 => [4, 5, 6]
  | _ => []

/-- Words that hold a base address, by kind. -/
def DSlot.baseAt (t : DSlot) : Option Nat :=
  match t.kind with
  | 0x02 | 0x03 | 0x11 | 0x13 | 0x14 => some 1
  | 0x12 => if t.load then some 2 else none
  | _ => none

/-- Whether a slot breaks R213 by itself, at its place. -/
def DSlot.bad (t : DSlot) (i : Nat) : Bool :=
  let src := 1 ≤ t.kind && t.kind ≤ 5
  let adp := 0x10 ≤ t.kind && t.kind ≤ 0x14
  !(if i = 0 then src else adp) || bitsOf (t.nat 0) 14 18 != 0 || (src && t.comp)
    || (t.kind != 0x12 && (t.load || t.cc != 0)) || 9 < t.cc || (t.reserved.any fun k => t.word k != 0)
    || (t.kind == 1 && t.word 3 == 0) || (t.baseAt.any fun k => (t.base k).toNat % 4 != 0)

/-- A slot as `itbind` binds it: the cursors start from the parameters (R206, R208). -/
def DSlot.bound (t : DSlot) : DSlot :=
  match t.kind with
  | 0x01 => { t with cur := t.int 1 }
  | 0x02 | 0x03 => { t with cur := 0 }
  | 0x05 => t.set 3 0
  | 0x14 => (((t.set 3 0).set 4 0).set 5 0).set 6 0
  | _ => t

/-- A slot as it is written back: a source's cursor stands in w4. -/
def DSlot.saved (t : DSlot) : List Word32 :=
  if 1 ≤ t.kind && t.kind ≤ 3 then t.w.set 4 (BitVec.ofInt 32 t.cur) else t.w

/-! ### Binding (R212, R213) -/

/-- The slots of a block, 0 to top, read as bytes. -/
def slotsOf (l : List Byte) (top : Nat) : List DSlot :=
  (upTo (top + 1)).map fun i => { w := (upTo 7).map fun k => BitVec.ofNat 32 (fieldAt l (32 + 28 * i + 4 * k) 4) }

/-- The arity above each slot; none where the rules of R207 are broken. `kids` are the arities of the children. A `flatten` with comp = 1
breaks the layout here: the manual names the comp rule for the other adaptors (DESIGN CHOICE, assumption 101). -/
def arityAfter (kids : List Bool) (t : DSlot) (below : Bool) : Option Bool :=
  match t.kind with
  | 0x01 | 0x02 | 0x03 => some false
  | 0x04 => if kids.all (! ·) then some true else none
  | 0x05 => match kids with | [a, b] => if a == b then some a else none | _ => none
  | 0x14 => if below || t.comp then none else some true
  | _ => if t.comp && !below then none else some below

/-- The children a slot 0 names: bound stacks of the band in state ready that have delivered and staged nothing. One with operations still
in its order is taken too, and they go on: the manual does not say what becomes of them (DESIGN CHOICE, assumption 102). -/
def childAt (b : Band) (off : Nat) : Option Stack :=
  b.dstacks.find? fun t => t.isb == off && t.state == 1 && t.parent.isNone && t.produced == 0 && t.staged.isEmpty

/-- Levels of stacks under and including one, counted with fuel. -/
def levels (b : Band) : Nat → Nat → Nat
  | 0, _ => 0
  | n + 1, i => match b.stack i with
    | some t => 1 + (t.kids.map (levels b n)).foldl max 0
    | none => 0

/-- The children of the block at `y`; none where they break R213. -/
def childrenOf (b : Band) (y : Nat) (t : DSlot) : Option (List Stack) :=
  if t.kind = 4 || t.kind = 5 then
    let x := t.nat 1
    let z := t.nat 2
    if x == y || z == y || x == z then none else
      match childAt b x, childAt b z with
      | some a, some c => if levels b 4 a.index ≤ 3 && levels b 4 c.index ≤ 3 then some [a, c] else none
      | _, _ => none
  else some []

/-- The first offending slot above slot 0, or the arity at the top. -/
def checkSlots (kids : List Bool) : Nat → Bool → List DSlot → Nat ⊕ Bool
  | _, a, [] => .inr a
  | i, a, t :: ts =>
    if t.bad i then .inl i else
      match arityAfter kids t a with
      | none => .inl i
      | some a' => checkSlots kids (i + 1) a' ts

/-- A block's bytes checked under R213: the stack to bind, or the first offending slot. -/
def layoutStack (b : Band) (y : Nat) (l : List Byte) : Nat ⊕ Stack :=
  let top := bitsOf (fieldAt l 1 1) 0 3
  if fieldAt l 0 1 != 1 || bitsOf (fieldAt l 1 1) 3 5 != 0 then .inl 0 else
    let slots := slotsOf l top
    match slots with
    | [] => .inl 0
    | s0 :: _ =>
      if s0.bad 0 then .inl 0 else
        match childrenOf b y s0 with
        | none => .inl 0
        | some kids =>
          match checkSlots (kids.map (·.arity2)) 0 false slots with
          | .inl i => .inl i
          | .inr a => .inr { index := 0, isb := y, arity2 := a, state := 1, produced := 0, top := top,
                             slots := slots.map DSlot.bound, staged := [], parent := none, kids := kids.map (·.index) }

/-- The lowest free stack index of a band: the manual does not say which free index a new stack takes (R214; DESIGN CHOICE,
assumption 91). -/
def freeIndex (b : Band) : Nat → Nat → Nat
  | 0, k => k
  | n + 1, k => if b.dstacks.any (fun t => t.index == k) then freeIndex b n (k + 1) else k

/-- Bound stacks on the focused core. -/
def State.coreStacks (s : State) : Nat :=
  s.b.dstacks.length
    + ((s.bands.filter fun b => b.core == s.b.core && b.slot != s.b.slot).map fun b => b.dstacks.length).foldl (· + ·) 0

/-- Binds a checked stack: it takes an index, and its children become its own. -/
def Band.bindStack (b : Band) (t : Stack) : Band × Nat :=
  let i := freeIndex b Config.droverStacks 0
  let own (u : Stack) : Stack := if t.kids.contains u.index then { u with state := 6, parent := some t.isb } else u
  ({ b with dstacks := b.dstacks.map own ++ [{ t with index := i }] }, i)

/-- `itbind` (R212): it waits for a pending future before it looks at the block (R148). A block at or across the ISB of a bound stack is
bound like another: the manual does not say that it may not be (DESIGN CHOICE, assumption 100). -/
def execItbind (f : FReg) (a b : SReg) (_la : BitVec 4) (off : Word32) (s : State) : Out :=
  let y := s.sreg a + imm64 off
  if s.fPending f then .next s.waitFuture
  else if y.toNat % 64 != 0 then .next (s.takeTrap 0x08 { vaddr := y })
  else if !s.scratchOk y.toInt 512 then .next (s.takeTrap 0x09 { vaddr := y })
  else
    match layoutStack s.b y.toNat (s.wideRead y.toNat 256) with
    | .inl i => .next (s.takeTrap 0x0B { vaddr := y, info := i })
    | .inr t =>
      if Config.droverStacks ≤ s.coreStacks then
        let (s1, op) := s.startOp f [] [] []
        .next ((s1.endOp op (.failed 2) 0).setS b 0).advance
      else
        let (s1, op) := s.startOp f [] [] [b]
        let (b', i) := s1.b.bindStack t
        let e : DrvEnt := { op := some op, band := s.b.slot, group := s.g.slot, cmd := .bind i }
        .next ((({ s1 with b := b' }).modC fun c => { c with drv := c.drv ++ [e] }).setS b (handleOf (s1.b.stackGenOf i) i)).advance

/-! ### Items (R208 to R211) -/

/-- What obtaining an item gives: an item, the end of the sources, or a load that fails, with its stack and slot. -/
inductive Pulled where
  | item (x : Item)
  | spent
  | fail (index slot : Nat) (h : Hit)

/-- Replaces a stack of the focused band. -/
def State.putStack (s : State) (t : Stack) : State :=
  s.modB fun b => { b with dstacks := b.dstacks.map fun u => if u.index == t.index then t else u }
/-- Replaces a slot of a stack. -/
def State.putSlot (s : State) (t : Stack) (k : Nat) (x : DSlot) : State := s.putStack { t with slots := t.slots.set k x }

/-- The top-level stack that a stack stands under; the first number bounds the levels. -/
def Band.root (b : Band) : Nat → Nat → Nat
  | 0, i => i
  | n + 1, i =>
    match (b.stack i).bind (·.parent) with
    | some off => match b.dstacks.find? fun t => t.isb == off with
      | some p => Band.root b n p.index
      | none => i
    | none => i

/-- The stack that an entry of the Drover's order concerns. -/
def DrvCmd.index : DrvCmd → Option Nat
  | .bind i | .pull i _ _ _ _ _ | .ending i => some i
  | .drain i _ => i

/-- Whether an entry concerns a stack of a band. -/
def DrvEnt.on (e : DrvEnt) (band i : Nat) : Bool := e.band == band && e.cmd.index == some i

/-- Entries of a stack's order. -/
def State.drvOn (s : State) (i : Nat) : List DrvEnt := s.c.drv.filter fun e => e.on s.b.slot i

/-- What a record of a source load for a stack names: the Drover, and the operation that is served (R347, R351). -/
def drvRec (s : State) (i : Nat) : FaultRec :=
  { s.groupRec 0 with agent := 4, access := 4,
                      iaddr := (match (s.drvOn i).head?.bind (·.op) with | some op => s.opIaddr op | none => 0) }

/-- A 32-bit source load by a slot of a stack (R221). One that has been made for the operation served now is not made again: loads of one
address by one slot return one value, and a suspended operation goes on where it stopped (R222). -/
def srcLoad (s : State) (i k : Nat) (va : Word64) : State × (Word32 ⊕ Hit) :=
  match s.b.srcLoads.find? fun x => x.stack == i && x.slot == k && x.va == va with
  | some x => (s, .inl x.val)
  | none =>
    let top := s.b.root 4 i
    match engRead s (drvRec s top) va 4 with
    | (s1, .bytes l) =>
      let v := BitVec.ofNat 32 (ofLe l)
      (s1.modB fun b => { b with srcLoads := ⟨i, k, va, v, (s.drvOn top).length⟩ :: b.srcLoads }, .inl v)
    | (s1, h) => (s1, .inr h)

/-- A component of an item, and an item with a component replaced. -/
def Item.get (x : Item) (c : Bool) : Word32 := if c then x.b else x.a
def Item.put (x : Item) (c : Bool) (v : Word32) : Item := if c then { x with b := v } else { x with a := v }

/-- An address: base + 4 × index, modulo 2^64. -/
def srcAddr (base : Word64) (i : Nat) : Word64 := base + BitVec.ofNat 64 (4 * i)

/-- Whether a condition holds on two 32-bit values (R33). -/
def cc32 (cc : Nat) (x y : Word32) : Bool :=
  match icondOf cc with
  | some c => match c with
    | .ltS | .leS | .gtS | .geS => c.holds (sext64 x) (sext64 y)
    | _ => c.holds (x.setWidth 64) (y.setWidth 64)
  | none => false

/-- The sources other than `zip` and `chain`: an item, the end, a failing load, or nothing yet (`none`: look again). -/
def sourceStep (s : State) (t : Stack) (x : DSlot) : State × Option Pulled :=
  let out (v : Int) (next : Int) (s1 : State) : State × Option Pulled :=
    (s1.putSlot t 0 { x with cur := next }, some (.item ⟨BitVec.ofInt 32 v, 0, false⟩))
  match x.kind with
  | 0x01 =>
    let step := x.int 3
    if (0 < step && x.cur < x.int 2) || (step < 0 && x.int 2 < x.cur) then out x.cur (x.cur + step) s else (s, some .spent)
  | 0x02 =>
    if (x.nat 3 : Int) ≤ x.cur then (s, some .spent) else
      match srcLoad s t.index 0 (srcAddr (x.base 1) x.cur.toNat) with
      | (s1, .inl v) => out v.toNat (x.cur + 1) s1
      | (s1, .inr h) => (s1, some (.fail t.index 0 h))
  | _ =>
    if (x.nat 3 : Int) ≤ x.cur then (s, some .spent) else
      match srcLoad s t.index 0 (srcAddr (x.base 1) (x.cur.toNat / 32)) with
      | (s1, .inl v) =>
        if v.getLsbD (x.cur.toNat % 32) then out x.cur (x.cur + 1) s1
        else (s1.putSlot t 0 { x with cur := x.cur + 1 }, none)
      | (s1, .inr h) => (s1, some (.fail t.index 0 h))

/-- The stacks as they stood before an item was begun; the loads made for it stay. -/
def undoStacks (s s1 : State) : State := s1.modB fun b => { b with dstacks := s.b.dstacks }

/-- An item of a stack whose block a store has met: its components are undefined, each item's on its own (R203). -/
def Stack.undef (s : State) (t : Stack) (n : Nat) (x : Item) : Item :=
  if t.spoiled then
    { x with a := (s.freeWord (22 * 2 ^ 60 + 128 * n + 2 * t.index)).truncate 32,
             b := (s.freeWord (22 * 2 ^ 60 + 128 * n + 2 * t.index + 1)).truncate 32 }
  else x

/-- A filtered item is dropped: its mark waits for the next surviving one (R211). -/
def dropItem (s : State) (i : Nat) (x : Item) : State :=
  match s.b.stack i with
  | some t => s.putStack { t with phead := t.phead || x.head }
  | none => s

/-- An item obtained from a stack: at a slot (`some k`), or at the top (`none`), where the waiting mark joins it and a
spoiled block makes its components undefined (R203). The number bounds the looks that one item takes. -/
def obtain : Nat → State → Nat → Option Nat → State × Pulled
  | 0, s, _, _ => (s, .spent)
  | n + 1, s, i, none =>
    match s.b.stack i with
    | none => (s, .spent)
    | some t =>
      if t.state == 3 then (s, .spent) else
      match obtain n s i (some t.top) with
      | (s1, .item x) =>
        let t1 := (s1.b.stack i).getD t
        (s1.putStack { t1 with phead := false, drawn := t1.drawn + 1 },
         .item { t1.undef s t1.drawn x with head := x.head || t1.phead })
      | r => r
  | n + 1, s, i, some k =>
    match s.b.stack i with
    | none => (s, .spent)
    | some t =>
      let x := t.slots.getD k default
      match x.kind with
      | 0x04 =>
        match t.kids with
        | [ia, ib] =>
          match obtain n s ia none with
          | (s1, .item xa) =>
            match obtain n s1 ib none with
            | (s2, .item xb) => (s2, .item ⟨xa.a, xb.a, xa.head || xb.head⟩)
            | (s2, .spent) => (endKid s2 ia, .spent)
            | r => r
          | (s1, .spent) => (endKid s1 ib, .spent)
          | r => r
        | _ => (s, .spent)
      | 0x05 =>
        match t.kids with
        | [ia, ib] =>
          if x.word 3 == 0 then
            match obtain n s ia none with
            | (s1, .spent) =>
              let t1 := (s1.b.stack i).getD t
              match obtain n (s1.putStack { t1 with slots := t1.slots.set 0 (x.set 3 1) }) ib none with
              | (s2, .item y) => (s2, .item { y with head := true })
              | r => r
            | r => r
          else obtain n s ib none
        | _ => (s, .spent)
      | 0x10 =>
        match obtain n s i (some (k - 1)) with
        | (s1, .item y) => (s1, .item (y.put x.comp (x.word 1 * y.get x.comp + x.word 2)))
        | r => r
      | 0x11 =>
        match obtain n s i (some (k - 1)) with
        | (s1, .item y) =>
          match srcLoad s1 i k (srcAddr (x.base 1) (y.get x.comp).toNat) with
          | (s2, .inl v) => (s2, .item (y.put x.comp v))
          | (s2, .inr h) => (s2, .fail i k h)
        | r => r
      | 0x12 =>
        match obtain n s i (some (k - 1)) with
        | (s1, .item y) =>
          let v := y.get x.comp
          match (if x.load then srcLoad s1 i k (srcAddr (x.base 2) v.toNat) else (s1, .inl v)) with
          | (s2, .inl z) =>
            if cc32 x.cc z (x.word 1) then (s2, .item y) else obtain n (dropItem s2 i y) i (some k)
          | (s2, .inr h) => (s2, .fail i k h)
        | r => r
      | 0x13 =>
        match obtain n s i (some (k - 1)) with
        | (s1, .item y) =>
          let v := (y.get x.comp).toNat
          if x.nat 3 ≤ v then obtain n (dropItem s1 i y) i (some k) else
            match srcLoad s1 i k (srcAddr (x.base 1) (v / 32)) with
            | (s2, .inl z) => if z.getLsbD (v % 32) then (s2, .item y) else obtain n (dropItem s2 i y) i (some k)
            | (s2, .inr h) => (s2, .fail i k h)
        | r => r
      | 0x14 =>
        if x.word 6 == 1 then
          let next := x.word 4 + 1
          let x1 := (x.set 4 next).set 6 (if next.ult (x.word 5) then 1 else 0)
          (s.putSlot t k x1, .item ⟨x.word 3, x.word 4, false⟩)
        else
          match obtain n s i (some (k - 1)) with
          | (s1, .item y) =>
            match srcLoad s1 i k (srcAddr (x.base 1) y.a.toNat) with
            | (s2, .inl lo) =>
              match srcLoad s2 i k (srcAddr (x.base 1) (y.a.toNat + 1)) with
              | (s3, .inl hi) =>
                let t1 := (s3.b.stack i).getD t
                if lo.ult hi then
                  let x1 := (((x.set 3 y.a).set 4 (lo + 1)).set 5 hi).set 6 (if (lo + 1).ult hi then 1 else 0)
                  (s3.putSlot t1 k x1, .item ⟨y.a, lo, true⟩)
                else
                  obtain n (s3.putSlot t1 k ((((x.set 3 y.a).set 4 lo).set 5 hi).set 6 0)) i (some k)
              | (s3, .inr h) => (s3, .fail i k h)
            | (s2, .inr h) => (s2, .fail i k h)
          | r => r
      | _ =>
        match sourceStep s t x with
        | (s1, some r) => (s1, r)
        | (s1, none) => obtain n s1 i (some k)
where
  /-- A `zip` whose other child is spent ends a child as `enough` does (R210). -/
  endKid (s : State) (i : Nat) : State :=
    match s.b.stack i with
    | some t => s.putStack { t with state := 3 }
    | none => s

/-- More looks than any item takes: each level of four stacks walks at most 2^64 items. -/
abbrev itemLooks : Nat := 2 ^ 400

/-- Nothing is staged for a stack. -/
def State.noStaging (s : State) (i : Nat) : State := s.modB fun b => { b with staging := b.staging.filter fun x => x.top != i }

/-- The next item of a stack: staged ones first (R216). -/
def nextItem (s : State) (i : Nat) : State × Pulled :=
  match s.b.stack i with
  | none => (s, .spent)
  | some t =>
    match t.staged with
    | x :: xs => (s.putStack { t with staged := xs }, .item (t.undef s (t.drawn - t.staged.length) x))
    | [] => obtain itemLooks (s.noStaging i) i none

/-- Items taken, the state after them, and what ended the taking early, with the state that it left. -/
structure Taken where
  st : State
  got : List Item
  stop : Option (Pulled × State)

/-- Takes up to `n` items with a rule for one; stops at the end or at a failing load. -/
def takeBy (one : State → State × Pulled) : State → Nat → Taken
  | s, 0 => ⟨s, [], none⟩
  | s, n + 1 =>
    match one s with
    | (s1, .item x) => let r := takeBy one s1 n; { r with got := x :: r.got }
    | (s1, r) => ⟨s, [], some (r, s1)⟩

/-- Takes up to `n` items of a stack. -/
def takeItems (s : State) (i n : Nat) : Taken := takeBy (nextItem · i) s n

/-- A stack and the stacks under it. -/
def treeOf (b : Band) : Nat → Nat → List Stack
  | 0, _ => []
  | n + 1, i => match b.stack i with
    | some t => t :: t.kids.flatMap (treeOf b n)
    | none => []

/-- Up to `n` items obtained ahead, each with the tree as it stands behind it; what ends them early leaves its loads alone. -/
def stageItems (i : Nat) : Nat → State → State × List (Item × List Stack)
  | 0, s => (s, [])
  | n + 1, s =>
    match obtain itemLooks s i none with
    | (s1, .item x) =>
      let r := stageItems i n s1
      (r.1, (x, treeOf s1.b 4 i) :: r.2)
    | (s1, _) => (undoStacks s s1, [])

/-- Stages items ahead of the next operation: as many as the Drover likes, up to 32 (R216). They serve no operation that a load made for
the stack may not serve (R221; assumptions 29, 117). -/
def stageAhead (s : State) (i : Nat) : State :=
  match s.b.stack i with
  | some t =>
    if t.state == 1 && t.staged.isEmpty then
      let base := treeOf s.b 4 i
      let r := stageItems i (s.freeNat 23 % 33) s
      match r.1.b.stack i with
      | some t1 =>
        let mine := r.1.b.srcLoads.filter fun x => base.any fun u => u.index == x.stack
        let left := mine.foldl (fun n x => min n x.left) (s.drvOn i).length
        ((r.1.putStack { t1 with staged := r.2.map Prod.fst }).noStaging i).modB fun b =>
          { b with staging := if r.2.isEmpty then b.staging else ⟨i, left, base, r.2.map Prod.snd⟩ :: b.staging }
      | none => r.1
    else s
  | none => s

/-- A stack set back to where it stood. -/
def Stack.back (base : List Stack) (t : Stack) : Stack :=
  match base.find? fun u => u.index == t.index with
  | some u => { t with slots := u.slots, phead := u.phead, drawn := u.drawn, state := if t.parent.isSome then u.state else t.state }
  | none => t

/-- Gives up the items that a stack has staged and not delivered: its tree stands behind the last delivered one again
(DEDUCED, assumption 117). -/
def unstage (s : State) (i : Nat) : State :=
  match s.b.stack i, s.b.staging.find? fun x => x.top == i with
  | some t, some g =>
    let tree := match g.after.length - t.staged.length with
      | 0 => g.base
      | n + 1 => g.after.getD n g.base
    let back (u : Stack) : Stack := if u.index == i then { u.back tree with staged := [] } else u.back tree
    (if t.staged.isEmpty then s else s.modB fun b => { b with dstacks := b.dstacks.map back }).noStaging i
  | _, _ => s

/-- A load as later operations may use it: given up, or for one operation less. -/
def SrcLoad.age (x : SrcLoad) (lost : Bool) : Option SrcLoad :=
  if x.left = 0 || lost then none else some { x with left := x.left - 1 }

/-- An operation of a stack has ended: items staged and loads made before the issue of an earlier operation are of no use to later ones, and
the Drover may give up others as well (R221); the loads of items that stay staged stay with them, so that one operation sees one value
of each. -/
def ageAhead (s : State) (i : Nat) : State :=
  let s1 := match s.b.staging.find? fun x => x.top == i with
    | some g =>
      if g.left = 0 || s.freeBit (57 * 2 ^ 60) then unstage s i
      else s.modB fun b => { b with staging := b.staging.map fun (x : Staging) => if x.top == i then { x with left := x.left - 1 } else x }
    | none => s
  let tree := treeOf s1.b 4 i
  let mine (x : SrcLoad) : Bool := tree.any fun t => t.index == x.stack
  let kept := s1.b.staging.any fun x => x.top == i
  let later (x : SrcLoad × Nat) : Option SrcLoad :=
    if mine x.1 then x.1.age (!kept && s.freeBit (57 * 2 ^ 60 + 1 + x.2)) else some x.1
  s1.modB fun b => { b with srcLoads := b.srcLoads.zipIdx.filterMap later }

/-- Everything read ahead for a stack and its children is discarded (R219, R220). -/
def discardAhead (s : State) (i : Nat) : State :=
  let tree := treeOf s.b 4 i
  s.modB fun b => { b with staging := b.staging.filter fun x => x.top != i,
                           srcLoads := b.srcLoads.filter fun x => !tree.any fun t => t.index == x.stack }

/-! ### `next`, `enough`, `itfree` -/

/-- Lanes of a mask in ascending order. -/
def lanesOf (m : Word32) : List Nat := (upTo 32).filter (laneBit m)

/-- `next` (R215, R216): a destination beyond the handler's registers breaks R50; then it waits for a pending future, and looks at the
handle behind the wait (R148). -/
def execDrvNext (f : FReg) (a : SReg) (k : KReg) (_la : BitVec 4) (vd : VReg) (pd ph : PReg) (sc : SReg) (s : State) : Out :=
  if s.g.handler.laneRegs ≤ vd.toNat + 1 then .next (s.takeTrap 0x03 { waddr := s.g.insAddr }) else
    if s.fPending f then .next s.waitFuture else
      match s.b.live (s.sreg a) with
      | none => .next (s.takeTrap 0x0C {})
      | some t =>
        let (s1, op) := s.startOp f [vd.run 2] (if ph = 15 then [pd] else [pd, ph]) [sc]
        let e : DrvEnt := { op := some op, band := s.b.slot, group := s.g.slot,
                            cmd := .pull t.index (s.kreg k &&& s.k0) vd pd ph sc }
        .next ((s1.modC fun c => { c with drv := c.drv ++ [e] }).closeOn [vd.run 2] [pd, ph]).advance

/-- A status word of a pull (R217). -/
def pullStatus (count : Nat) (exh ended : Bool) : Word64 := BitVec.ofNat 64 (packBits [(0, count), (8, b2n exh), (9, b2n ended)])

/-- Writes the registers of a pull with the items it delivers (R216). -/
def deliverPull (s : State) (lanes : Word32) (vd : VReg) (pd ph : PReg) (sc : SReg) (two : Bool) (got : List Item)
    (exh ended : Bool) : State :=
  let filled := (lanesOf lanes).take got.length
  let m := mkMask fun i => filled.contains i
  let at_ (i : Nat) : Item := got.getD (filled.findIdx fun j => j == i) default
  let s1 := s.setV 0 vd.toNat m fun i => (at_ i).a
  let s2 := if two then s1.setV 0 (vd.toNat + 1) m fun i => (at_ i).b else s1
  let s3 := (s2.setP 0 pd 0xFFFFFFFF m).setP 0 ph 0xFFFFFFFF (mkMask fun i => filled.contains i && (at_ i).head)
  s3.setS sc (pullStatus got.length exh ended)

/-- Items delivered count in `produced`, which saturates (R204). -/
def countProduced (s : State) (i n : Nat) : State :=
  match s.b.stack i with
  | some t => s.putStack { t with produced := min 0xFFFFFFFF (t.produced + n) }
  | none => s

/-- `enough` takes its place: the stack is ended, and what it staged and loaded is discarded (R219). -/
def endStack (s : State) (i : Nat) : State :=
  match s.b.stack i with
  | some t => discardAhead (s.putStack { t with state := 3, staged := [] }) i
  | none => s

/-- Drops an operation's entry. -/
def dropDrv (s : State) (op : Nat) : State := s.modC fun c => { c with drv := c.drv.filter fun e => e.op != some op }

/-- Endings that have come to the front of their stack's order take place; the first number bounds them. -/
def endingsFrom : Nat → State → Nat → State
  | 0, s, _ => s
  | n + 1, s, i =>
    match s.c.drv.find? fun e => e.on s.b.slot i with
    | some e =>
      match e.cmd with
      | .ending _ => endingsFrom n (endStack (s.modC fun c => { c with drv := dropFirst (fun x => x == e) c.drv }) i) i
      | _ => s
    | none => s

def runEndings (s : State) (i : Nat) : State := endingsFrom s.c.drv.length s i

/-- Writes the components of a drain's items from the `n`-th on (R225). -/
def drainItems (s : State) (w : Writer) (regs : List Word64) (two : Bool) (got : List Item) (n : Nat) : State :=
  let r (k : Nat) : Nat := (regs.getD k 0).toNat
  let s1 := s.wideWrite w (r 2 + 4 * n) ((got.drop n).flatMap fun x => leBytes 4 x.a.toNat)
  if two then s1.wideWrite w (r 3 + 4 * n) ((got.drop n).flatMap fun x => leBytes 4 x.b.toNat) else s1

/-- Writes the head marks of a drain: bits beyond the items keep what every view of them holds (R225). -/
def drainMarks (s : State) (w : Writer) (at_ : Nat) (got : List Item) : State :=
  (upTo ((got.length + 7) / 8)).foldl (fun st j =>
    let mine := (got.drop (8 * j)).take 8
    let bits : Byte := BitVec.ofNat 8 (mine.zipIdx.foldl (fun n x => n + 2 ^ x.2 * b2n x.1.head) 0)
    let mask : Byte := BitVec.ofNat 8 (2 ^ mine.length - 1)
    st.wideMap w (at_ + j) fun old => (old &&& ~~~mask) ||| bits) s

/-- Writes what a drain delivers and has not written yet (R225). -/
def deliverDrain (s : State) (op : Nat) (regs : List Word64) (two : Bool) (got : List Item) (wrote : Nat) (exh ended : Bool) : State :=
  let w := s.writer op
  let r (k : Nat) : Nat := (regs.getD k 0).toNat
  let s2 := drainItems s w regs two got wrote
  let s3 := if r 5 = 2 ^ 64 - 1 then s2 else drainMarks s2 w (r 5) got
  s3.wideWrite w (r 4) (leBytes 8 (packBits [(0, got.length), (32, b2n exh), (33, b2n ended)]))

/-- An operation of a stack's order ends without an item, with a cause; what was read ahead grows older with it (R221). -/
def passDrv (s : State) (op i cause : Nat) : State :=
  runEndings ((ageAhead (dropDrv s op) i).endOp op (.failed cause) 0) i

/-- The items of an operation as it delivers them: those that it has held in staging, from the `n`-th on, are undefined where a store has
met the block since (R203, R222). -/
def settledItems (s : State) (i n : Nat) (got : List Item) : List Item :=
  match s.b.stack i with
  | some t => got.zipIdx.map fun x => if x.2 < n then x.1 else t.undef s (t.drawn - t.staged.length - got.length + x.2) x.1
  | none => got

/-- A pull or drain ends with what it has taken: its registers or arrays are written and its future leaves pending. -/
def endDrv (s : State) (e : DrvEnt) (op : Nat) (got : List Item) (exh ended : Bool) (st : OpState) : State :=
  match e.cmd with
  | .pull i lanes vd pd ph sc =>
    let got := settledItems s i 0 got
    let two := (s.b.stack i).any (·.arity2)
    let s1 := ageAhead (countProduced (dropDrv s op) i got.length) i
    runEndings ((deliverPull s1 lanes vd pd ph sc two got exh ended).endOp op st 0) i
  | .drain (some i) regs =>
    let got := settledItems s i e.wrote got
    let two := (s.b.stack i).any (·.arity2)
    let s1 := ageAhead (countProduced (dropDrv s op) i got.length) i
    let s2 := match s1.b.stack i with
      | some t => s1.putStack { t with drained := opTag s.c op :: t.drained }
      | none => s1
    runEndings ((deliverDrain s2 op regs two got e.wrote exh ended).endOp op st 0) i
  | _ => (dropDrv s op).endOp op st 0

/-- `enough` (R219): a suspended pull completes at once; operations accepted before keep their place. -/
def execEnough (a : SReg) (s : State) : Out :=
  match s.b.live (s.sreg a) with
  | none => .next (s.takeTrap 0x0C {})
  | some t =>
    let i := t.index
    let s1 := match s.c.drv.find? fun e => e.on s.b.slot i with
      | some e => match e.op with
        | some op =>
          if s.c.ops.any fun o => o.slot == op && o.park.isSome then
            let g := s.g
            let s2 := match s.group? s.g.core e.group with
              | some h => if e.group == g.slot then s else { s with g := h }
              | none => s
            let s3 := endDrv (s2.modOp op fun o => { o with park := none }) e op e.got true true .done
            if e.group == g.slot then s3 else { (s3.putGroup s3.g) with g := g }
          else s
        | none => s
      | none => s
    let e : DrvEnt := { op := none, band := s.b.slot, group := s.g.slot, cmd := .ending i }
    let s4 := if s1.c.drv.any fun e => e.on s.b.slot i then s1.modC fun c => { c with drv := c.drv ++ [e] } else endStack s1 i
    .next s4.advance

/-- The block of a stack as the Drover writes it back (R203, R204, R205). -/
def Stack.bytes (t : Stack) : List Byte :=
  let staged := t.staged.length
  let heads := (upTo 32).foldl (fun n j => n + 2 ^ j * b2n ((t.staged.getD j default).head && j < staged)) 0
  leBytes 32 (packBits [(0, 1), (8, t.top), (16, b2n t.arity2), (17, b2n t.phead), (24, t.state.toNat), (32, t.produced),
      (64, staged), (96, heads), (128, t.faddr.toNat), (192, t.fslot), (200, t.fcause), (224, t.parent.getD 0xFFFFFFFF)])
    ++ t.slots.flatMap fun x => x.saved.flatMap fun w => leBytes 4 w.toNat

def Stack.staging (t : Stack) : List Byte := t.staged.flatMap fun x => leBytes 4 x.a.toNat ++ leBytes 4 x.b.toNat

/-- `itfree` (R220). -/
def execItfree (a : SReg) (s : State) : Out :=
  match s.b.live (s.sreg a) with
  | none => .next (s.takeTrap 0x0C {})
  | some t =>
    if s.c.drv.any fun e => e.on s.b.slot t.index then .next (s.stall 3) else
      let tree := treeOf s.b 4 t.index
      let s1 := discardAhead (t.drained.foldl State.acquire s) t.index
      let step (m : SMap Word32) (u : Stack) : SMap Word32 :=
        let g := SMap.get 1 u.index m
        SMap.set 1 u.index (if g = 0xFFFFFFFF then 1 else g + 1) m
      let s2 := s1.modB fun b => { b with dstacks := b.dstacks.filter (fun u => !tree.any fun v => v.index == u.index),
                                          stackGen := tree.foldl step b.stackGen }
      .next (tree.foldl (fun s u => (s.spWrite u.isb u.bytes).spWrite (u.isb + 256) u.staging) s2).advance

/-! ### The Drover's steps -/

/-- Runs a step on an operation's entry when it is the first of its stack's order, with its band and group in the focus. -/
def withDrv (s : State) (core op : Nat) (k : DrvEnt → State → Option State) : Out :=
  let c := s.core core
  match c.drv.find? fun e => e.op == some op with
  | none => .next s
  | some e =>
    let first := match e.cmd.index with
      | some i => c.drv.find? (fun x => x.on e.band i) == some e
      | none => true
    if !first || s.commanded core e.band then .next s else
      match k e (s.focusBand core e.band e.group) with
      | some t => .next t.unfocus
      | none => .next s

/-- `ITBIND_COMPLETION`: the stack is ready to deliver (R212). -/
def execItbindCompletion (core op : Nat) (s : State) : Out :=
  withDrv s core op fun e s1 =>
    match e.cmd with
    | .bind i => some (stageAhead (runEndings ((dropDrv s1 op).endOp op .done 0) i) i)
    | _ => none

/-- A stack's state is set. -/
def setStackState (s : State) (i : Nat) (st : BitVec 3) : State :=
  match s.b.stack i with
  | some t => s.putStack { t with state := st }
  | none => s

/-- A load failed beyond repair: the operation delivers what it staged and ends with cause 1 (R222). -/
def failDrv (s : State) (e : DrvEnt) (op i : Nat) (got : List Item) (slot : Nat) (va : Word64) : State :=
  let s1 := match s.b.stack i with
    | some t => s.putStack { t with state := 5, faddr := va, fslot := slot, fcause := 1 }
    | none => s
  endDrv s1 e op got false false (.failed 1)

/-- An operation that has taken some items and wants more: a drain may have written those (R225). -/
def holdDrv (s : State) (e : DrvEnt) (op i : Nat) (got : List Item) : State :=
  let put (s : State) (n : Nat) : State :=
    s.modC fun c => { c with drv := c.drv.map fun x => if x == e then { e with got := got, wrote := n } else x }
  match e.cmd with
  | .drain _ regs => put (drainItems s (s.writer op) regs ((s.b.stack i).any (·.arity2)) got e.wrote) got.length
  | _ => put s 0

/-- Serves the items of a pull or drain that wants `n` in all; of them it takes no more now than the step allows. -/
def serveDrv (s : State) (e : DrvEnt) (op i n : Nat) : State :=
  match s.b.stack i with
  | none => (dropDrv s op).endOp op (.failed 3) 0
  | some t =>
    if t.state == 5 then
      -- the stack failed earlier (R222): a drain writes nothing
      match e.cmd with
      | .pull _ _ _ _ _ _ => endDrv s e op [] false false (.failed 5)
      | _ => passDrv s op i 5
    else if t.state == 3 then endDrv s e op e.got true true .done
    else if t.state == 2 then endDrv s e op e.got (e.got.length < n) false .done
    else
      let s0 := if t.state == 4 then setStackState s i 1 else s
      let s0 := s0.modOp op fun o => { o with park := none }
      let want := n - e.got.length
      let now := match s.few with | some m => min m want | none => want
      let k := takeItems s0 i now
      let got := e.got ++ k.got
      match k.stop with
      | none =>
        if s.few.isSome then holdDrv k.st e op i got else stageAhead (endDrv k.st e op got false false .done) i
      | some (.fail j q (.fail c va), s1) =>
        let park : Park := { code := c, va := va, lane := 0, access := 4, atAddr := BitVec.ofNat 64 (64 * j + q) }
        holdDrv ((setStackState (undoStacks k.st s1) i 4).modOp op fun o => { o with park := some park }) e op i got
      | some (.fail _ q (.poison pa va), s1) => failDrv (s1.dataPoison 4 4 (s1.opIaddr op) 0 pa va 0) e op i got q va
      | some (_, s1) => endDrv (setStackState s1 i 2) e op got true false .done

/-- The record of an operation that waits for the Innkeeper. -/
def opPark (s : State) (op : Nat) : Option Park := (s.c.ops.find? fun o => o.slot == op).bind (·.park)

/-- Serves an operation, unless it waits for the Innkeeper. -/
def stepDrv (s : State) (e : DrvEnt) (op i n : Nat) : Option State :=
  if (opPark s op).isSome then none else some (serveDrv s e op i n)

/-- The Innkeeper leaves a suspended operation's load unresolved: it fails there (R222, R346). -/
def loseDrv (s : State) (op : Nat) (p : Park) : State :=
  match s.c.drv.find? fun e => e.op == some op with
  | some e => match e.cmd.index with
    | some i => failDrv (s.modOp op fun o => { o with park := none }) e op i e.got (p.atAddr.toNat % 64) p.va
    | none => s
  | none => s

/-- `NEXT_PULL_COMPLETION` (R216, R222). -/
def execNextPullCompletion (core op : Nat) (s : State) : Out :=
  withDrv s core op fun e s1 =>
    match e.cmd with
    | .pull i lanes _ _ _ _ => stepDrv s1 e op i (lanesOf lanes).length
    | _ => none

/-- Whether a drain command is malformed (R224). -/
def drainBad (regs : List Word64) (two : Bool) : Bool :=
  let r (k : Nat) : Nat := (regs.getD k 0).toNat
  let n := r 0 / 2 ^ 32
  bitsOf (r 0) 0 8 != 1 || bitsOf (r 0) 8 24 != 0 || n == 0 || 65536 < n || r 2 % 4 != 0 || (two && r 3 % 4 != 0)
    || r 4 % 8 != 0 || (r 5 != 2 ^ 64 - 1 && r 5 % 4 != 0) || r 6 != 0 || r 7 != 0

/-- Whether a target of a drain lies outside the allocation (R225). -/
def drainOutside (alloc : Nat) (regs : List Word64) (two : Bool) : Bool :=
  let r (k : Nat) : Nat := (regs.getD k 0).toNat
  let n := r 0 / 2 ^ 32
  alloc < r 2 + 4 * n || (two && alloc < r 3 + 4 * n) || alloc < r 4 + 8
    || (r 5 != 2 ^ 64 - 1 && alloc < r 5 + (n + 31) / 32 * 4)

/-- `DROVER_DRAIN` (R224, R225). -/
def execDroverDrain (core op : Nat) (s : State) : Out :=
  withDrv s core op fun e s1 =>
    match e.cmd with
    | .drain ix regs =>
      match ix.bind s1.b.stack with
      | none => some ((dropDrv s1 op).endOp op (.failed 3) 0)
      | some t =>
        if drainBad regs t.arity2 then some (passDrv s1 op t.index 3)
        else if drainOutside s1.b.handler.allocation regs t.arity2 then
          some (passDrv s1 op t.index 4)
        else stepDrv s1 e op t.index ((regs.getD 0 0).toNat / 2 ^ 32)
    | _ => none

/-- A cancelled operation leaves its stack's order as if it had never been issued (R437): a stack that it suspended is ready again, and
loads made after its issue serve one operation less (R221). -/
def leaveOrder (s : State) (e : DrvEnt) (op i : Nat) : State :=
  let at_ := (s.drvOn i).findIdx fun x => x == e
  let tree := treeOf s.b 4 i
  let s1 := if (opPark s op).isSome && (s.b.stack i).any (fun t => t.state == 4) then setStackState s i 1 else s
  let s2 := s1.modB fun b =>
    { b with srcLoads := b.srcLoads.map fun (x : SrcLoad) =>
               if tree.any (fun t => t.index == x.stack) && decide (at_ < x.left) then { x with left := x.left - 1 } else x,
             staging := b.staging.map fun (x : Staging) => if x.top == i && decide (at_ < x.left) then { x with left := x.left - 1 } else x }
  runEndings ((dropDrv (s2.modOp op fun o => { o with park := none }) op).endOp op .cancelled 0) i

/-- What the Drover answers to a cancel (R437): `itbind` is never cancelled, a pull or drain only while it has taken no item. -/
def droverCancel (s : State) (op : Nat) : Cancel :=
  match s.c.drv.find? fun e => e.op == some op with
  | some e =>
    if !e.got.isEmpty then .refused else
      match e.cmd with
      | .bind _ | .ending _ => .refused
      | .pull i _ _ _ _ _ | .drain (some i) _ => .taken (leaveOrder s e op i)
      | .drain none _ => .taken ((dropDrv s op).endOp op .cancelled 0)
  | none => .refused

end Sys2Proof.Machine
end

