-- ==== Sys2Proof/Machine/Access.lean ====
section
/-! DEFINITION. Accesses performed apart from their instruction: the Ostlers' atomic steps (R189, R193 to R195), the Porter (R176),
copies (R174), peers (R348 to R351), and the service of translation failures with the replay of parked instructions
(R343 to R346). -/

namespace Sys2Proof.Machine

/-! ### Atomic steps -/

/-- Order of 32-bit floating values that `min` and `max` use, and NaNs (R194). -/
def atomKey (y : Nat) : Nat := if y < 2 ^ 31 then y + 2 ^ 31 else 2 ^ 32 - 1 - y
def atomNan (y : Nat) : Bool := bitsOf y 23 8 == 255 && bitsOf y 0 23 != 0

/-- `min` and `max` of 32-bit floating values (R194). -/
def atomPick (max : Bool) (o v : Nat) : Nat :=
  if atomNan o && atomNan v then 0x7FC00000 else if atomNan o then v else if atomNan v then o
  else if (if max then atomKey o < atomKey v else atomKey v < atomKey o) then v else o

/-- A value as its type orders it. -/
def ATy.ordered (ty : ATy) (x : Nat) : Int :=
  match ty with
  | .s32 => (BitVec.ofNat 32 x).toInt
  | .s64 => (BitVec.ofNat 64 x).toInt
  | _ => x

/-- The new value of an atomic step (R193). -/
def combine (op : AOp) (ty : ATy) (o v cmp : Nat) : Nat :=
  let w := 8 * ty.size
  let ring := if v = 0 then 2 ^ w else v
  match op with
  | .add => if ty = .f32 then (fAdd fp32 .rn false o v).code else (o + v) % 2 ^ w
  | .min => if ty = .f32 then atomPick false o v else if ATy.ordered ty v < ATy.ordered ty o then v else o
  | .max => if ty = .f32 then atomPick true o v else if ATy.ordered ty o < ATy.ordered ty v then v else o
  | .and => o &&& v
  | .or => o ||| v
  | .xor => o ^^^ v
  | .exch => v
  | .cas => if o = cmp then v else o
  | .inc => (o + 1) % ring
  | .dec => (o + ring - 1) % ring

/-! ### Answers -/

/-- The words of an answer enter a lane's registers, but for those another instruction keeps. -/
def State.replyWords (s : State) (d : Nat) (lane : Nat) (lost : List Nat) (ws : List Word32) : State :=
  ws.zipIdx.foldl (fun st x => if lost.contains (d + x.2) then st else st.replyV (d + x.2) lane x.1) s

/-- The 32-bit words of some bytes. -/
def wordsOf (l : List Byte) : List Word32 := (upTo (l.length / 4)).map fun k => BitVec.ofNat 32 (fieldAt l (4 * k) 4)

/-- The registers' words of loaded bytes (R172). -/
def loadWords (t : MTy) (l : List Byte) : List Word32 :=
  if t.size < 4 then [extendTo 32 t.size t.signed (ofLe l)] else wordsOf l

/-- What the answer to a request writes, given the bytes read (R188). -/
def State.answer (s : State) (q : Req) (l : List Byte) : State :=
  match q.kind with
  | .atom _ _ _ _ (some d) => s.replyWords d.toNat q.lane q.lost (wordsOf l)
  | .load t d => s.replyWords d.toNat q.lane q.lost (loadWords t l)
  | .scalarLoad w d =>
    if d = 0 || q.lost.contains d.toNat then s
    else s.modG fun g => { g with s := g.s.set d.toNat (extendTo 64 w.bytes w.signed (ofLe l)) }
  | _ => s

/-- Bytes that a request reads; none for a store. -/
def Req.reads (q : Req) : Nat :=
  match q.kind with
  | .atom _ ty _ _ _ => ty.size
  | .load t _ => t.size
  | .scalarLoad w _ => w.bytes
  | .store _ => 0

/-- The access code of a request in a record (R398). -/
def Req.access (q : Req) : Nat :=
  match q.kind with
  | .atom _ _ _ _ _ => 2
  | .store _ => 1
  | _ => 0

/-- What an answer without a value writes: undefined values (R351, R393), told apart by a key. -/
def State.answerUndefined (s : State) (q : Req) (key : Nat) : State :=
  let words (n : Nat) : List Word32 := (upTo n).map fun i => (s.freeWord (key + 4 * i)).truncate 32
  match q.kind with
  | .atom _ ty _ _ (some d) => s.replyWords d.toNat q.lane q.lost (words (if ty.is64 then 2 else 1))
  | .load t d => s.replyWords d.toNat q.lane q.lost (words (t.range d).count)
  | .scalarLoad _ d =>
    if d = 0 || q.lost.contains d.toNat then s else s.modG fun g => { g with s := g.s.set d.toNat (s.freeWord key) }
  | _ => s

/-- Performs a request of the focused group in coherent memory (R189). -/
def State.performReq (s : State) (agent : Nat) (q : Req) : State :=
  let old := s.memRead q.pa q.reads
  let bad := s.poisoned q.pa q.reads
  let s1 := if bad then s.dataPoison agent q.access q.iaddr q.waddr q.pa q.va q.lane else s
  let s2 := match q.kind with
    | .atom op ty v cmp _ => s1.memWrite q.pa (leBytes ty.size (combine op ty (ofLe old) v.toNat cmp.toNat))
    | .store bytes => s1.memWrite q.pa bytes
    | _ => s1
  if bad then s2.answerUndefined q (7 * 2 ^ 60 + q.pa) else s2.answer q old

/-- Bytes that a peer returns. -/
def State.peerBytes (s : State) (q : Req) : List Byte :=
  match q.agent with
  | .peer id _ => (upTo q.reads).map fun i => Config.peerByte s.draw (id * 2 ^ 48 + q.pa + i)
  | _ => []

/-- A request is performed: it leaves the list, and its word's count may be finished. -/
def State.dropReq (s : State) (q : Req) : State :=
  ({ s with reqs := dropFirst (fun x => x == q) s.reqs }).settleAcc q.acc

/-- Runs a step on the group that sent a request. -/
def withGroup (s : State) (core slot : Nat) (k : State → State) : State :=
  match s.group? core slot with
  | some g => (k (s.focus g)).unfocus
  | none => s

/-- What a request stores: where, and how many bytes. -/
def Req.stores (q : Req) : List (Nat × Nat) :=
  match q.kind with
  | .store l => [(q.pa, l.length)]
  | _ => []

/-- Performs requests in the order sent (R200), and clears the poison of the lines that one word writes whole (R393); `abroad` says what
becomes of those to peers. -/
def State.performSent (s : State) (sent : List Req) (abroad : State → Req → State) : State :=
  sent.zipIdx.foldl (fun t x => withGroup t x.1.core x.1.slot fun u =>
    let word := (sent.take (x.2 + 1)).filter fun q => q.core == x.1.core && q.slot == x.1.slot && q.acc == x.1.acc && !q.abroad
    ((match x.1.agent with
      | .ostler _ => u.performReq 1 x.1
      | .porter => u.performReq 0 x.1
      | .peer _ _ => abroad u x.1).dropReq x.1).clearPoison (word.flatMap Req.stores)) s

/-- A free choice among a list. -/
def pick {α : Type} (s : State) (key : Nat) (l : List α) : Option α := l[s.freeNat (key * 2 ^ 60) % l.length]?

/-! ### Ostlers and the Porter -/

/-- Requests of an Ostler that may be performed next: of those in its queue, 2,048 at most, while later ones wait at their cores (R188); of
each word the lowest lane still outstanding (R197), and of each group's words the oldest (R139). Of the requests that wait at several cores for
a full queue the one sent first enters first (DESIGN CHOICE, assumption 112). -/
def State.ostlerReady (s : State) (cluster : Nat) : List Req :=
  let own := (s.reqs.filter fun q => q.agent == .ostler cluster).take Config.ostlerRequests
  own.filter fun q => ((s.reqs.filter fun x => x.core == q.core && x.slot == q.slot && !x.abroad).head?).any fun x => x == q

/-- `OSTLER_REQUEST`: one lane's step, indivisible (R189). -/
def execOstlerRequest (cluster : Nat) (s : State) : Out :=
  match pick s 26 (s.ostlerReady cluster) with
  | none => .next s
  | some q => .next (withGroup s q.core q.slot fun t => (t.performReq 1 q).dropReq q)

/-- Whether two requests of one word read one place, so that a single read serves both (R173). -/
def Req.joins (q x : Req) : Bool := q.reads != 0 && q.pa == x.pa && q.agent == x.agent

/-- The Porter's requests of one word that are performed together: a run of lanes, with every lane that reads what one of them reads
(R173). -/
def porterRun (s : State) (own : List Req) : List Req :=
  own.take (grow Req.joins own (1 + s.freeNat (27 * 2 ^ 60) % own.length))

/-- `PORTER_WINDOW_CLOSE` (R176): the Porter performs requests of one group's oldest word. -/
def execPorterWindowClose (core : Nat) (s : State) : Out :=
  let firsts := s.reqs.filter fun q => q.core == core && q.agent == .porter
    && ((s.reqs.filter fun x => x.core == core && x.slot == q.slot && x.agent == .porter).head?).any fun x => x == q
  match pick s 28 firsts with
  | none => .next s
  | some q0 =>
    let own := s.reqs.filter fun q => q.core == core && q.slot == q0.slot && q.agent == .porter && q.acc == q0.acc
    let run := porterRun s own
    .next (withGroup s core q0.slot fun t =>
      let t1 := run.foldl (fun u q => u.performReq 0 q) t
      run.foldl State.dropReq (t1.clearPoison (run.flatMap Req.stores)))

/-! ### Copies (R174) -/

/-- One byte of a copy: it enters the write queue, unacquired (R175, R323), unless a store made meanwhile wins (R174). -/
def State.copyPut (s : State) (w : Writer) (off : Nat) (x : Byte) : State :=
  let b := s.touch off
  if keepsFrom b.kept off w.born then { s with b := { b with unacq := { addr := off, old := x, tag := w.tag } :: b.unacq } }
  else
    { s with b := { b with spm := b.spm.put off x, wq := b.wq ++ [(off, x)],
                           unacq := { addr := off, old := b.spm.byte off, tag := w.tag } :: b.unacq } }

def State.copyBytes (s : State) (w : Writer) (off : Nat) : List Byte → State
  | [] => s
  | x :: xs => State.copyBytes (s.copyPut w off x) w (off + 1) xs

/-- What a copy reads: pool memory, or an import of a peer, which may refuse it (R351). -/
def State.copyRead (s : State) (c : Copy) : State × List Byte :=
  let rec0 := { s.groupRec 0 with iaddr := c.lqAddr, waddr := c.waddr, lqaddr := c.lqAddr, lane := c.lane, vaddr := c.va }
  if c.window then s.importRun rec0 (c.pa / 2 ^ 48) (c.pa % 2 ^ 48) c.size c.size
  else (if s.poisoned c.pa c.size then s.dataPoison 0 0 c.lqAddr c.waddr c.pa c.va c.lane else s, s.memRead c.pa c.size)

/-- One lane's copy. -/
def State.performCopy (s : State) (c : Copy) : State :=
  let r := s.copyRead c
  r.1.copyBytes ⟨copyTag s.b.core c.slot c.tag, c.born⟩ c.dst.toNat r.2

/-- Whether two copies of one word read one place (R173). -/
def Copy.joins (c d : Copy) : Bool := c.pa == d.pa && c.window == d.window

/-- `CP_GS_COPY`: some lanes of one copying word are written, in ascending order; lanes that read one place are copied together.
Those of a closing journey are discarded, without a record (R352). -/
def execCpGsCopy (core slot : Nat) (s : State) : Out :=
  let words := (s.bands.filter fun b => b.core == core).flatMap fun b =>
    (b.copies.filter fun c => c.slot == slot).map fun c => (b.slot, c.tag)
  match pick s 29 words with
  | none => .next s
  | some (band, tag) =>
    let s1 := s.focusBand core band slot
    let own := s1.b.copies.filter fun c => c.tag == tag
    let run := own.take (grow Copy.joins own (1 + s.freeNat (27 * 2 ^ 60) % own.length))
    let s2 := if s1.j.state == .closing then s1 else run.foldl State.performCopy s1
    .next ((s2.modB fun b => { b with copies := b.copies.filter fun c => !run.contains c }).settleAcc tag).unfocus

/-! ### Peers and counts -/

/-- Requests of a group to peers that may be performed next: the oldest for each peer (R329). -/
def State.peerReady (s : State) (core slot : Nat) : List Req :=
  let own := s.reqs.filter fun q => q.core == core && q.slot == slot
  own.filter fun q => match q.agent with
    | .peer id _ => (own.find? fun x => match x.agent with | .peer id' _ => id' == id | _ => false) == some q
    | _ => false

/-- The path that a request is counted on. -/
def Group.pathOf (g : Group) (tag : Nat) : Option Path := (g.acc.find? fun a => a.tag == tag).map (·.path)

/-- `ACCESS_COMPLETION`: a peer performs an access of the path (R348), with those of its word that read the same place (R173), or the path's
counter falls by one as its oldest access is finished (R179). -/
def execAccessCompletion (core slot : Nat) (path : Path) (s : State) : Out :=
  match s.group? core slot with
  | none => .next s
  | some g =>
    match pick s 30 ((s.peerReady core slot).filter fun q => g.pathOf q.acc == some path) with
    | some q =>
      let own := s.reqs.filter fun x => x.core == core && x.slot == slot && x.acc == q.acc && x.agent == q.agent
      let run := own.take (grow Req.joins own 1)
      .next (withGroup s core slot fun t => run.foldl (fun u x => (u.answer x (s.peerBytes x)).dropReq x) t)
    | none =>
      match g.acc.find? fun a => a.path == path with
      | some a => if a.fin then .next (s.putGroup { g with acc := dropFirst (fun x => x.path == path) g.acc }) else .next s
      | none => .next s

/-- `IMPORT_REFUSED`: a peer refuses an access of a journey (R351): a load or atomic receives an undefined value, and a record
names it, with the group as its agent, for an atomic too, where the manual does not say which agent it names (R199; DESIGN CHOICE,
assumption 90). A result that returns to a closing journey is discarded without a record (R352). `id` selects the request. -/
def execImportRefused (journey id : Nat) (code : BitVec 8) (s : State) : Out :=
  let own := (s.groups.filter fun g => g.journey == journey).flatMap fun g => s.peerReady g.core g.slot
  match own[id % own.length]? with
  | none => .next s
  | some q =>
    .next (withGroup s q.core q.slot fun t =>
      if t.j.state == .closing then t.dropReq q else
      let r := { t.groupRec code.toNat with iaddr := q.iaddr, waddr := q.waddr, lane := q.lane, vaddr := q.va,
                                            lqaddr := (if q.waddr = 0 then 0 else q.iaddr), access := q.access }
      ((t.answerUndefined q (31 * 2 ^ 60 + 128 * q.lane)).postRecord t.g.room r).dropReq q)

/-! ### The service of translation failures -/

/-- The mapping that the Innkeeper installs for a failure. -/
def mapPte (m : MapArg) : Pte := ⟨m.vpn, m.size, m.r, m.w, m.x, m.window, m.target⟩

/-- Rights that an access code of a record needs. -/
def needOf (access : BitVec 3) : Need :=
  match access.toNat with
  | 0 | 4 => needR
  | 1 | 5 => needW
  | 2 => needRW
  | _ => needX

/-- A slot of the three ways that is free for a page number, or holds it (R338). -/
def TableDesc.room? (d : TableDesc) (v : Nat) : Option Nat :=
  ([0, 1, 2].map fun w => d.entryAt w (tableSlot v w d)).find? fun k =>
    !(d.slots.any fun e => e.1 == k && e.2.vpn != v)

/-- Puts an entry at a key, in rising order. -/
def putSlot (k : Nat) (e : Pte) (l : List (Nat × Pte)) : List (Nat × Pte) :=
  insertBy (fun a b => a.1 ≤ b.1) (k, e) (l.filter fun x => x.1 != k)

/-- Takes a page number out of a descriptor. -/
def TableDesc.remove (d : TableDesc) (v : Nat) : TableDesc := { d with slots := d.slots.filter fun e => e.2.vpn != v }

/-- Enters a mapping in a descriptor: where all its slots are taken, entries are displaced along a chain (R340). `fuel` bounds
the chain; the answer is none where it grows longer. -/
def TableDesc.insert (s : State) (fuel : Nat) (d : TableDesc) (e : Pte) : Option TableDesc :=
  match d.room? e.vpn with
  | some k => some { d with slots := putSlot k e d.slots }
  | none =>
    match fuel with
    | 0 => none
    | n + 1 =>
      let w := s.freeNat (32 * 2 ^ 60 + fuel) % 3
      let k := d.entryAt w (tableSlot e.vpn w d)
      match d.slots.find? fun x => x.1 == k with
      | some x => TableDesc.insert s n { d with slots := putSlot k e d.slots } x.2
      | none => none

/-- A new, empty descriptor of a size: where it stands in pool memory and its hash key are the Innkeeper's choice (R337). -/
def newDesc (s : State) (lgn key : Nat) : TableDesc :=
  { base := BitVec.ofNat 64 (128 * (s.freeNat (33 * 2 ^ 60 + 2 * key) % 2 ^ 44)), lgn := lgn, live := true,
    key := s.freeWord (33 * 2 ^ 60 + 2 * key + 1) }

/-- A resize begins: a new current descriptor, and the previous one becomes the old one (R340). -/
def Table.resize (s : State) (t : Table) (lgn : Nat) : Table :=
  { cur := newDesc s lgn lgn, old := { t.cur with cursor := 0, live := true } }

/-- Moves that a chain of displacements may make where no resize can start, because one is running or the table is as large as it may
be. -/
abbrev longChain : Nat := 4096

/-- Enters a mapping where no resize can start. Should even a long chain find no free slot, the entry shares one of its slots with another
entry, and both are found there: what the Innkeeper then does the manual leaves open (DESIGN CHOICE, assumption 107). -/
def TableDesc.enter (s : State) (d : TableDesc) (e : Pte) : TableDesc :=
  match d.insert s longChain e with
  | some x => x
  | none => { d with slots := insertBy (fun a b => a.1 ≤ b.1) (d.entryAt 0 (tableSlot e.vpn 0 d), e) d.slots }

/-- A table with an entry for a page number: the current descriptor takes it, and no descriptor keeps an older one. A chain
longer than 32 moves starts a resize, whose new descriptor takes the entry (R340); while a resize is running the chain goes on. -/
def Table.install (s : State) (t : Table) (e : Pte) : Table :=
  let t1 : Table := { t with cur := t.cur.remove e.vpn, old := t.old.remove e.vpn }
  match t1.cur.insert s 32 e with
  | some c => { t1 with cur := c }
  | none =>
    let t2 := if t1.old.live || 31 ≤ t1.cur.lgn then t1 else t1.resize s (t1.cur.lgn + 1)
    { t2 with cur := t2.cur.enter s e }

/-- A journey with a mapping installed. -/
def Journey.install (s : State) (j : Journey) (e : Pte) : Journey :=
  let i := e.size.toNat
  { j with tables := (upTo 4).map fun k =>
      let t := j.tables.getD k {}
      if k = i then t.install s e else t }

end Sys2Proof.Machine
end

