-- ==== Sys2Proof/Machine/Placement.lean ====
section
/-! DEFINITION. The dispatcher (R315, R316), the placement of bands and gangs (R353 to R358), and the dispatch of groups (R133). -/

namespace Sys2Proof.Machine

/-! ### What a core has free -/

/-- What a placement needs to know of a band: its handler, its groups, and the iterator stacks it holds. -/
structure BandNeed where
  handler : Handler
  groups : Nat
  iters : Nat := 0
deriving DecidableEq, Repr, Inhabited

/-- What the bands and groups of a core hold (R353). -/
structure Occ where
  slots : List Nat := []
  bandSlots : List Nat := []
  units : List (Nat × Nat) := []
  scratch : List (Nat × Nat) := []
  tiles : List (Nat × Nat) := []
  counts : Bool := false
  carves : List (BitVec 3) := []
  /-- Bound iterator stacks (R202). -/
  iters : Nat := 0
  /-- Bands of promoted items for which capacity is held here, each with whether this is a core that it is sure to get (R316). -/
  holds : List (BandNeed × Bool) := []
deriving DecidableEq, Repr, Inhabited

/-- A band's place on a core: its slot, each group's slot and first register unit, its scratchpad granule and its tile. -/
structure Place where
  band : Nat
  slots : List Nat
  units : List Nat
  granule : Nat
  tile : Nat
deriving DecidableEq, Repr, Inhabited

/-- Register units, scratchpad granules and tiles of a handler's bands. -/
def Handler.units (h : Handler) : Nat := h.lregs.toNat + 1
def Handler.granules (h : Handler) : Nat := if h.scratch = 0 then 0 else (h.scratch.toNat + 255) / 256 + 2

/-- Scratchpad granules of a carve-out (R159); none for the indexes that are refused. -/
def carveGranules (c : BitVec 3) : Nat := [2048, 4096, 8192, 12288, 14336].getD c.toNat 0

/-- Seats of every journey. -/
def State.allSeats (s : State) : List Seat := s.journeys.flatMap (·.seats)

/-- What a core's bands hold now. -/
def State.occOf (s : State) (core : Nat) : Occ :=
  let bs := s.bands.filter fun b => b.core == core
  { slots := (s.groups.filter fun g => g.core == core).map (·.slot)
      ++ ((s.allSeats).filter fun x => x.core == core).map (·.slot),
    bandSlots := bs.map (·.slot),
    units := bs.flatMap fun b => b.regUnits.map fun u => (u.2, b.handler.units),
    scratch := (bs.filter fun b => b.handler.granules != 0).map fun b => (b.granule, b.handler.granules),
    tiles := (bs.filter fun b => b.handler.tiles != 0).map fun b => (b.tile0, b.handler.tiles.toNat),
    counts := bs.any fun b => b.handler.counts,
    carves := bs.map fun b => b.handler.carve,
    iters := (bs.map fun b => b.dstacks.length).foldl (· + ·) 0 }

/-- Whether a run is free below a limit. -/
def runFree (used : List (Nat × Nat)) (limit at_ n : Nat) : Bool :=
  at_ + n ≤ limit && used.all fun u => at_ + n ≤ u.1 || u.1 + u.2 ≤ at_

/-- The lowest free run of `n` from positions that leave a remainder modulo `step`: the lowest place is the first one, or follows a
run in use. -/
def firstFit (used : List (Nat × Nat)) (limit n step rem : Nat) : Option Nat :=
  let up (x : Nat) : Nat := x + (rem + step - x % step) % step
  let tries := sortBy (fun a b => a ≤ b) (up 0 :: used.map fun u => up (u.1 + u.2))
  tries.find? fun x => runFree used limit x n

/-- The `n` lowest numbers below 64 that are not in use. -/
def freeSlots (used : List Nat) (n : Nat) : Option (List Nat) :=
  let l := ((upTo 64).filter fun i => !used.contains i).take n
  if l.length = n then some l else none

/-- Register units of a band's groups in order, each the lowest free run. -/
def placeUnits (h : Handler) : Nat → List (Nat × Nat) → Option (List Nat)
  | 0, _ => some []
  | n + 1, used =>
    match firstFit used 1024 h.units 1 0 with
    | none => none
    | some u => (placeUnits h n ((u, h.units) :: used)).map (u :: ·)

/-- Holdings with the runs that are held for promoted items: the lowest ones of each resource, so that what runs there now leaves them whole
in the end (R316). -/
def Occ.reserve (o : Occ) : Occ :=
  o.holds.foldl (fun o x =>
    { o with units := (0, x.1.groups * x.1.handler.units) :: o.units,
             scratch := if x.1.handler.granules = 0 then o.scratch else (1, x.1.handler.granules) :: o.scratch,
             tiles := if x.1.handler.tiles.toNat = 0 then o.tiles else (0, x.1.handler.tiles.toNat) :: o.tiles }) o

/-- Whether a band of `n` groups and `iters` stacks leaves a promoted item's band what it needs beside runs: slots and stacks keep what is
free of them, up to the need, the array and the carve-out stay what they are, and on a core that the item is sure to get (`sure`) nothing
is placed that it cannot stand beside (R316). -/
def Occ.spares (o : Occ) (h : Handler) (n iters : Nat) (w : BandNeed × Bool) : Bool :=
  let keeps (limit used taken need : Nat) : Bool := min (limit - used) need ≤ limit - (used + taken)
  let clashes : Bool := h.carve != w.1.handler.carve
  keeps 64 o.slots.length n w.1.groups && keeps 64 o.bandSlots.length 1 1 && keeps Config.droverStacks o.iters iters w.1.iters
    && !(w.1.handler.counts && h.counts && (w.2 || !o.counts))
    && !(clashes && (w.2 || !o.carves.any fun c => c != w.1.handler.carve))

/-- Places a band of `n` groups that holds some iterator stacks (none before its dispatch) on a core with some holdings: its place,
or the code of the first resource that is lacking in the order of R353 (R367, R368). -/
def Occ.fit (o : Occ) (h : Handler) (n iters : Nat) : Place ⊕ Nat :=
  match freeSlots o.slots n, freeSlots o.bandSlots 1 with
  | some gs, some (b :: _) =>
    match placeUnits h n o.reserve.units with
    | none => .inr 4
    | some us =>
      match (if h.granules = 0 then some 0 else firstFit o.reserve.scratch (carveGranules h.carve) h.granules 2 1) with
      | none => .inr 5
      | some gr =>
        match (if h.tiles = 0 then some 0 else firstFit o.reserve.tiles 32 h.tiles.toNat 1 0) with
        | none => .inr 6
        | some t =>
          if h.counts && o.counts then .inr 7
          else if o.carves.any fun c => c != h.carve then .inr 8
          else if Config.droverStacks < o.iters + iters then .inr 9
          else if !o.holds.all (o.spares h n iters) then .inr 3
          else .inl ⟨b, gs, us, gr, t⟩
  | _, _ => .inr 3

/-- The place where a band fits, if it does. -/
def Occ.fits (o : Occ) (h : Handler) (n iters : Nat) : Option Place :=
  match o.fit h n iters with
  | .inl p => some p
  | .inr _ => none

/-- Holdings with a band at its place. -/
def Occ.add (o : Occ) (h : Handler) (iters : Nat) (p : Place) : Occ :=
  { o with
    slots := p.slots ++ o.slots, bandSlots := p.band :: o.bandSlots, units := (p.units.map fun u => (u, h.units)) ++ o.units,
    scratch := if h.granules = 0 then o.scratch else (p.granule, h.granules) :: o.scratch,
    tiles := if h.tiles = 0 then o.tiles else (p.tile, h.tiles.toNat) :: o.tiles,
    counts := o.counts || h.counts, carves := h.carve :: o.carves, iters := o.iters + iters }

/-! ### Where an item goes -/

/-- Holdings of cores by number. -/
abbrev Occs := List (Nat × Occ)

def Occs.get (l : Occs) (core : Nat) : Occ := ((l.find? fun e => e.1 == core).map Prod.snd).getD {}

/-- A list that starts after an element and wraps around (R354). -/
def rotateAfter (l : List Nat) (last : Option Nat) : List Nat :=
  match last with
  | none => l
  | some x => (l.filter fun c => x < c) ++ l.filter fun c => c ≤ x

def QBand.need (b : QBand) : BandNeed := ⟨b.handler, b.groups.length, 0⟩
/-- What a saved band needs. -/
def Band.need (b : Band) : BandNeed := ⟨b.handler, b.members.length, b.dstacks.length⟩

/-- The first core of a list where a band fits. -/
def placeOn (l : Occs) (cores : List Nat) (b : BandNeed) : Option (Nat × Place) :=
  cores.findSome? fun c => ((l.get c).fits b.handler b.groups b.iters).map fun p => (c, p)

/-- Places a gang's bands on distinct cores of a list, in order (R358). -/
def placeGang (l : Occs) (cores : List Nat) : List BandNeed → Option (List (Nat × Place))
  | [] => some []
  | b :: bs =>
    match placeOn l cores b with
    | none => none
    | some (c, p) => (placeGang l (cores.filter fun x => x != c) bs).map ((c, p) :: ·)

/-- Cluster by cluster for `.near`, or all cores at once for `.far`. -/
def gangCores (cores : List Nat) (h : Handler) : List (List Nat) :=
  if h.glat then [cores] else (upTo 32).map fun k => cores.filter fun c => c / 8 == k

/-- Places an item on a room's cores: a band from the core after the last one used, a gang all or none. -/
def placeItem (l : Occs) (cores : List Nat) (last : Option Nat) (bands : List BandNeed) : Option (List (Nat × Place)) :=
  match bands with
  | [] => none
  | [b] => (placeOn l (rotateAfter cores last) b).map fun x => [x]
  | b :: bs => (gangCores cores b.handler).findSome? fun cs => placeGang l cs (b :: bs)

/-- The holdings of a room's cores. -/
def State.occs (s : State) (r : Room) : Occs := (s.roomCores r).map fun c => (c, s.occOf c)

/-! ### Promotion (R316) -/

/-- The needs of the item at the head of a journey's queue: a restore that waits for room stands before it (R367). -/
def State.headNeeds (s : State) (j : Journey) : Option (List BandNeed) :=
  match j.restore with
  | some k => (s.hub.images.find? fun x => x.token == k).map fun x => x.bands.map Band.need
  | none => j.queue.head?.map fun q => q.bands.map QBand.need

/-- Whether an item waits at the head of a journey's queue. -/
def Journey.waits (j : Journey) : Bool := j.restore.isSome || !j.queue.isEmpty

/-- Whether a promoted journey that has taken its pick holds capacity against a journey: against one that has not, or later. -/
def Journey.holdsAgainst (p j : Journey) : Bool :=
  p.room == j.room && p.num != j.num && p.promoted && p.picked && p.waits
    && !(j.promoted && j.picked && (j.pickedAt < p.pickedAt || (j.pickedAt == p.pickedAt && j.num < p.num)))

/-- What the promoted journeys that hold capacity against a journey wait for. -/
def State.promotedNeeds (s : State) (j : Journey) : List (List BandNeed) :=
  (s.journeys.filter fun p => p.holdsAgainst j).filterMap s.headNeeds

/-- Holdings with an item's bands at their places. -/
def addItem (l : Occs) (bands : List BandNeed) (ps : List (Nat × Place)) : Occs :=
  (bands.zip ps).foldl (fun l x => l.map fun e =>
    if e.1 == x.2.1 then (e.1, e.2.add x.1.handler x.1.iters x.2.2) else e) l

/-- The cores that a promoted item is sure to get: the room's first one, or as many as a gang has bands, of the first cluster with so many
under `.near` (DEDUCED, assumption 39). -/
def sureCores (cores : List Nat) : List BandNeed → List Nat
  | [] => []
  | [_] => cores.take 1
  | b :: bs => (((gangCores cores b.handler).find? fun cs => bs.length < cs.length).getD []).take (bs.length + 1)

/-- The holdings of a room's cores for a placement of a journey: beside what is in use, what promoted journeys hold against it (R316). Other
cores, and what those do not need, stay open to it (assumption 39). -/
def State.heldOccs (s : State) (j : Journey) (r : Room) : Occs :=
  let held := (s.promotedNeeds j).map fun ns => (ns, sureCores (s.roomCores r) ns)
  (s.occs r).map fun e => (e.1, { e.2 with holds := held.flatMap fun x => x.1.map fun b => (b, x.2.contains e.1) })

/-- The placement of a journey's head item on its room as it stands; none where it waits (R355, R316). -/
def State.headPlace (s : State) (j : Journey) : Option (QItem × List (Nat × Place)) :=
  match s.room? j.room, j.queue with
  | some r, q :: _ => (placeItem (s.heldOccs j r) (s.roomCores r) r.lastCore (q.bands.map QBand.need)).map fun ps => (q, ps)
  | _, _ => none

/-! ### A restore at the head of the queue (R367) -/

/-- A restore status. -/
def restoreStatus (code band core : Nat) : Nat := packBits [(0, code), (16, band), (32, core)]

/-- Restore items: a plain band, or the bands of a gang, with the image index of the first; an image holds a gang's bands one after
another. -/
def itemsIn : List (Band × Nat) → List (List Band × Nat)
  | [] => []
  | (b, i) :: bs =>
    match itemsIn bs with
    | (x :: xs, k) :: rest =>
      if !b.gangBands.isEmpty && b.gangBands == x.gangBands then ((b :: x :: xs), i) :: rest
      else ([b], i) :: (x :: xs, k) :: rest
    | l => ([b], i) :: l

/-- A placement pass in order: the places of all bands, or the status of the first item that does not fit. -/
def passItems (l : Occs) (cores : List Nat) : Option Nat → List (List BandNeed × Nat) → List (Nat × Place) ⊕ Nat
  | _, [] => .inl []
  | last, (ns, i) :: rest =>
    match placeItem l cores last ns with
    | some ps =>
      match passItems (addItem l ns ps) cores ((ps.getLast?).map Prod.fst) rest with
      | .inl qs => .inl (ps ++ qs)
      | .inr e => .inr e
    | none =>
      let core := cores.headD 0
      match ns with
      | [b] => match (l.get core).fit b.handler b.groups b.iters with
        | .inr c => .inr (restoreStatus c i core)
        | .inl _ => .inr (restoreStatus 0x0A i core)
      | _ => .inr (restoreStatus 0x0A i core)

/-- Needs of an image's bands. -/
def Saved.items (x : Saved) : List (List BandNeed × Nat) := (itemsIn x.bands.zipIdx).map fun q => (q.1.map Band.need, q.2)

/-- The image whose restore a journey waits for. -/
def State.waitingImage (s : State) (j : Journey) : Option Saved := j.restore.bind fun k => s.hub.images.find? fun x => x.token == k

/-- Places of an image's bands on a room with some holdings, as one item (R354, R367); none where they do not all fit. -/
def State.restorePlaces (s : State) (l : Occs) (r : Room) (x : Saved) : Option (List (Nat × Place)) :=
  match passItems l (s.roomCores r) r.lastCore x.items with
  | .inl ps => some ps
  | .inr _ => none

/-- The placement of the restore that a journey waits for; none where it waits on. -/
def State.restoreHead (s : State) (j : Journey) : Option (Saved × List (Nat × Place)) :=
  match s.room? j.room, s.waitingImage j with
  | some r, some x => (s.restorePlaces (s.heldOccs j r) r x).map fun ps => (x, ps)
  | _, _ => none

/-- Whether a journey's head item can be placed now. -/
def State.headFits (s : State) (j : Journey) : Bool :=
  if j.restore.isSome then (s.restoreHead j).isSome else (s.headPlace j).isSome

/-! ### Picks (R315) -/

/-- Whether a journey's queue may be placed: no mid-round stop and no waiting restore stands before it. -/
def Journey.places (j : Journey) : Bool :=
  j.stopFor.isNone && j.restore.isNone && match j.state with
    | .running | .stopping false | .checkpointing false => true
    | _ => false

/-- Whether the restore that a journey waits for may be placed. -/
def Journey.restores (j : Journey) : Bool :=
  j.stopFor.isNone && j.restore.isSome && match j.state with
    | .running | .resting | .restoring | .stopping false | .checkpointing false => true
    | _ => false

/-- Class of a group: the greatest of the handler's priority and those of its events. -/
def classOf (h : Handler) (es : List Event) : Nat := es.foldl (fun m e => max m e.prio.toNat) h.prio.toNat

/-- Class of the head group of a journey's queue. -/
def Journey.headClass (j : Journey) : Nat :=
  match j.queue with
  | q :: _ => match q.bands with
    | b :: _ => match b.groups with
      | g :: _ => classOf b.handler g.2
      | [] => 0
    | [] => 0
  | [] => 0

/-- Class of a restore: that of the first group of its first band. -/
def Saved.headClass (x : Saved) : Nat :=
  match x.bands with
  | b :: _ => match x.groups.find? fun g => g.core == b.core && b.members.head? == some g.slot with
    | some g => classOf b.handler g.events
    | none => b.handler.prio.toNat
  | [] => 0

/-- The class in which a journey competes. -/
def State.classFor (s : State) (j : Journey) : Nat :=
  match s.waitingImage j with
  | some x => x.headClass
  | none => j.headClass

/-- Classes of the fifteen positions, from position 1. -/
def pickCycle : List Nat := [3, 2, 3, 1, 3, 2, 3, 0, 3, 2, 3, 1, 3, 2, 3]

/-- Journeys of a list in turn: ascending from the one after the last. -/
def inTurn (l : List Journey) (last : Option Nat) : List Journey :=
  let up := sortBy (fun a b => a.num ≤ b.num) l
  match last with
  | none => up
  | some n => (up.filter fun j => n < j.num) ++ up.filter fun j => j.num ≤ n

/-- The journey that takes the pick and its class, from a position on; and the position after it. -/
def State.pickFrom (s : State) (l : List Journey) (lastPick : List (Nat × Nat)) : Nat → Nat → Option (Journey × Nat × Nat)
  | 0, _ => none
  | n + 1, pos =>
    let cls := pickCycle.getD ((pos - 1) % 15) 0
    let last := (lastPick.find? fun p => p.1 == cls).map Prod.snd
    match inTurn (l.filter fun j => s.classFor j == cls) last with
    | j :: _ => some (j, cls, pos % 15 + 1)
    | [] => s.pickFrom l lastPick n (pos % 15 + 1)

/-- A journey that has been passed over 4,096 times is promoted (R316). -/
def Journey.promote (j : Journey) : Journey :=
  if j.waits && Config.starvation ≤ j.passed then { j with promoted := true } else j

/-- The journey has taken a pick. A promoted one keeps its promotion until its head item is placed. -/
def Journey.takePick (j : Journey) (now : Nat) : Journey := { j with picked := true, pickedAt := now, passed := 0 }

/-- The journey has been passed over by a pick; a promoted one that has taken its own keeps it. -/
def Journey.passOver (j : Journey) : Journey :=
  if j.promoted && j.picked then j
  else ({ j with picked := false, passed := if j.waits then j.passed + 1 else 0 } : Journey).promote

/-- The promoted journey that has waited longest for its pick. -/
def nextPromoted (l : List Journey) : Option Journey :=
  (l.filter fun j => j.promoted && j.waits && !j.picked && (j.places || j.restores)).foldl (fun m j => match m with
    | none => some j
    | some x => some (if x.passed < j.passed then j else x)) none

/-- `DISPATCHER_PICK`: one journey of the room is given the next placement; a promoted one takes the next pick even where its head item
still waits for capacity, which is held for it from then on. -/
def execDispatcherPick (room : Nat) (s : State) : Out :=
  match s.room? room with
  | none => .next s
  | some r =>
    let own := s.journeys.filter fun j => j.room == room
    let ready := own.filter fun j => (j.places || j.restores) && s.headFits j
    if ready.any (·.picked) then .next s else
      let choice := match nextPromoted own with
        | some j => some (j, s.classFor j, r.pos % 15 + 1)
        | none => s.pickFrom ready r.lastPick 15 r.pos
      match choice with
      | none => .next s
      | some (j, cls, pos) =>
        let mark (x : Journey) : Journey :=
          if x.room != room then x else if x.num == j.num then x.takePick s.draw else x.passOver
        let s1 := { s with journeys := s.journeys.map mark }
        .next (s1.putRoom { r with pos := pos, lastPick := upsert (fun p => p.1 == cls) (cls, j.num) r.lastPick })

/-- `STARVATION_PROMOTION` (R316). -/
def execStarvationPromotion (journey : Nat) (s : State) : Out := .next (s.modJourney journey Journey.promote)

/-! ### Placement -/

/-- The scheduler sends a placement command over a link, or it waits for a permit (R417). -/
def Link.send (l : Link) (c : PlaceCmd) : Link :=
  if l.toLeaf = 0 then { l with waiting := l.waiting ++ [c] } else { l with toLeaf := l.toLeaf - 1, inbox := l.inbox ++ [c] }

/-- Sends the placement command of a band to its core's leaf. A leaf without a link takes the placement at once. -/
def State.command (s : State) (core band : Nat) : State :=
  if s.hub.links.any fun l => l.leaf == core / 8 && !l.fenced then
    let c : PlaceCmd := ⟨core, band, s.hub.nextCmd⟩
    let s1 := s.modHub fun h =>
      { h with nextCmd := h.nextCmd + 1, links := h.links.map fun l => if l.leaf == core / 8 && !l.fenced then l.send c else l }
    match s1.band? core band with
    | some b => s1.putBand { b with cmd := c.num }
    | none => s1
  else s

/-- Places one band, the `ord`-th of its round: its holdings, its core's carve-out, its groups' seats, and the command to its leaf. -/
def State.seatBand (s : State) (gangBands : List (Nat × Nat)) (ord : Nat) (b : QBand) (core : Nat) (p : Place) : State :=
  let band : Band := { core := core, slot := p.band, journey := s.j.num, room := s.j.room, handler := b.handler, members := p.slots,
                       size := b.groups.length, gang := b.gang, gangBands := gangBands, regUnits := p.slots.zip p.units,
                       granule := p.granule, tile0 := p.tile, ord := ord }
  let seats := (b.groups.zip p.slots).zipIdx.map fun x => Seat.mk core x.1.2 p.band x.2 x.1.1.1 x.1.1.2
  let c := s.core core
  (((s.putBand band).putCore { c with carve := b.handler.carve }).modJ fun j => { j with seats := j.seats ++ seats }).command
    core p.band

/-- Places an item: all its bands, and a gang's barrier (R185). -/
def State.seatItem (s : State) (q : QItem) (ps : List (Nat × Place)) : State :=
  let at_ := ps.map fun p => (p.1, p.2.band)
  let gang := 1 < q.bands.length
  let first := s.j.taken - q.bands.length
  let s1 := (q.bands.zip ps).zipIdx.foldl (fun t x => t.seatBand (if gang then at_ else []) (first + x.2) x.1.1 x.1.2.1 x.1.2.2) s
  let bar : GangBar := { num := (match q.bands with | b :: _ => b.gang.toNat / 2 ^ 16 | [] => 0), bands := at_, phase := 0, arrived := [] }
  let s2 := if gang then s1.modJ fun j => { j with gangs := bar :: j.gangs } else s1
  let last := (ps.getLast?).map Prod.fst
  s2.modRoom s.j.room fun r => { r with lastCore := last }

/-- Places the head of a picked journey's queue when it is of a kind and fits. -/
def placeHead (s : State) (journey : Nat) (gang : Bool) : Out :=
  withJourney s journey (fun j => j.picked && j.places) fun s1 =>
    match s1.headPlace s1.j with
    | none => s1
    | some (q, ps) =>
      if (1 < q.bands.length) != gang then s1 else
        (s1.modJ fun j => { j with queue := j.queue.tail, taken := j.taken + q.bands.length, picked := false, promoted := false,
                                   passed := 0 }).seatItem q ps

/-- `BAND_PLACEMENT` (R354). -/
def execBandPlacement (journey : Nat) (s : State) : Out := placeHead s journey false
/-- `GANG_PLACEMENT` (R358). -/
def execGangPlacement (journey : Nat) (s : State) : Out := placeHead s journey true

/-! ### Dispatch -/

/-- Stochastic state of a lane (R62). -/
def stochSeed (seed : Word64) (round : Word32) (core slot lane : Nat) : Word32 :=
  let x := seed.truncate 32 ^^^ BitVec.ofNat 32 (core * 2 ^ 16 + slot * 2 ^ 5 + lane) ^^^ (round * 0x9E3779B9)
  if x = 0 then 1 else x

/-- A group as it is dispatched (R133, R101, R123). -/
def dispatched (j : Journey) (b : Band) (x : Seat) : Group :=
  let word (i k : Nat) : Word32 := match x.events[i]? with
    | some e => e.payload.getD k 0
    | none => 0
  let n := min 10 b.handler.laneRegs
  let v := (upTo n).foldl (fun (v : Vector (Vector Word32 32) 256) k =>
    if h : k < 256 then v.set k (mkLanes fun i => word i k) else v) (Vector.replicate 256 (Vector.replicate 32 0))
  let lentry := b.handler.lbase + b.handler.lentry.setWidth 64
  { core := x.core, slot := x.slot, band := b.slot, idx := x.idx, size := b.size, gang := b.gang, journey := j.num, room := j.room,
    handler := b.handler, spc := b.handler.sbase + b.handler.sentry.setWidth 64, lpc := lentry, llink := lentry, v := v,
    stoch := mkLanes fun i => stochSeed j.seed j.round x.core x.slot i, nev := x.events.length, events := x.events,
    rank := x.rank, span0 := j.t0, spanw := j.spanw, round := j.round, wait := 1 }

/-- A new group at a place has acquired nothing. -/
def Unacq.forget (u : Unacq) (me : Nat × Nat) : Unacq := { u with seen := u.seen.filter fun p => p != me }

/-- `GROUP_DISPATCH`: a placed group starts (R133) once its leaf has taken the band's placement; a watchpoint on dispatch halts it before
its first instruction (R407). -/
def execGroupDispatch (core slot : Nat) (s : State) : Out :=
  match s.journeys.find? fun j => j.places && j.seats.any fun x => x.core == core && x.slot == slot with
  | none => .next s
  | some j =>
    match j.seats.find? fun x => x.core == core && x.slot == slot with
    | none => .next s
    | some x =>
      match s.band? core x.band with
      | none => .next s
      | some b =>
        if s.commanded core x.band then .next s else
        let g := dispatched j b x
        let hit := x.events.any fun e => s.watched j.room false e.time.toNat e.entity
        let s1 := (s.putJourney { j with seats := j.seats.filter (fun y => y != x), unacq := j.unacq.map (·.forget (core, slot)) }).putGroup
          { g with watchHit := hit }
        .next ((s1.focus { g with watchHit := hit }).trace 2).unfocus

end Sys2Proof.Machine
end

