-- ==== Sys2Proof/Machine/ScalarFloat.lean ====
section
/-! DEFINITION. Scalar floating-point instructions (R76, R84 to R87) and the mask instructions (R88, R89). -/

namespace Sys2Proof.Machine

/-- A scalar source of a format: the low bits of its width (R76). -/
def State.fsrc (s : State) (t : Fmt) (r : SReg) : Nat := (s.sreg r).toNat % 2 ^ t.width

/-- A result code, zero above its width (R76), with its flags. -/
def FRes.out (r : FRes) : Word64 × Word32 := (BitVec.ofNat 64 r.code, r.fl)

/-- `fcmp.cc` (R86). -/
def fcmpOut (s : State) (t : Fmt) (cc : FCond) (d a b : SReg) : Out :=
  let r := fCmp t s.g.md.ftz cc (s.fsrc t a) (s.fsrc t b)
  finSF s 0 d (if r.1 then 1 else 0, r.2)

/-- Conversion of a decoded value to a scalar floating format: a subnormal result is flushed under ftz (R87). -/
def fcvtTo (s : State) (t : Fmt) (v : FVal) : FRes :=
  match v with
  | .fin n m e => roundTo t s.g.md.rnd false s.g.md.ftz 0 n m e
  | v => toFmt t s.g.md.rnd false 0 v

/-- Conversion to a 64-bit integer (R87, R64). -/
def fcvtInt (s : State) (t : Fmt) (signed : Bool) (d a : SReg) : Out :=
  finSF s 0 d (toIntVal signed 64 s.g.md.rnd s.g.md.sat 0 (t.input s.g.md.ftz (s.fsrc t a))).out

def execFaddF64 (d a b : SReg) (s : State) : Out :=
  finSF s 0 d (fAdd fp64 s.g.md.rnd s.g.md.ftz (s.fsrc fp64 a) (s.fsrc fp64 b)).out
def execFaddF32 (d a b : SReg) (s : State) : Out :=
  finSF s 0 d (fAdd fp32 s.g.md.rnd s.g.md.ftz (s.fsrc fp32 a) (s.fsrc fp32 b)).out
def execFmulF64 (d a b : SReg) (s : State) : Out :=
  finSF s 0 d (fMul fp64 s.g.md.rnd s.g.md.ftz (s.fsrc fp64 a) (s.fsrc fp64 b)).out
def execFmulF32 (d a b : SReg) (s : State) : Out :=
  finSF s 0 d (fMul fp32 s.g.md.rnd s.g.md.ftz (s.fsrc fp32 a) (s.fsrc fp32 b)).out
def execFmaF64 (d a b : SReg) (la : BitVec 4) (c : SReg) (s : State) : Out :=
  finSF s la d (fFma fp64 s.g.md.rnd s.g.md.ftz (s.fsrc fp64 a) (s.fsrc fp64 b) (s.fsrc fp64 c)).out
def execFmaF32 (d a b : SReg) (la : BitVec 4) (c : SReg) (s : State) : Out :=
  finSF s la d (fFma fp32 s.g.md.rnd s.g.md.ftz (s.fsrc fp32 a) (s.fsrc fp32 b) (s.fsrc fp32 c)).out
def execFcmpCcF64 (cc : FCond) (d a b : SReg) (s : State) : Out := fcmpOut s fp64 cc d a b
def execFcmpCcF32 (cc : FCond) (d a b : SReg) (s : State) : Out := fcmpOut s fp32 cc d a b
def execFcvtF32F64 (d a : SReg) (s : State) : Out :=
  finSF s 0 d (fcvtTo s fp32 (fp64.input s.g.md.ftz (s.fsrc fp64 a))).out
def execFcvtF64F32 (d a : SReg) (s : State) : Out :=
  finSF s 0 d (fcvtTo s fp64 (fp32.input s.g.md.ftz (s.fsrc fp32 a))).out
def execFcvtS64F64 (d a : SReg) (s : State) : Out := fcvtInt s fp64 true d a
def execFcvtN64F64 (d a : SReg) (s : State) : Out := fcvtInt s fp64 false d a
def execFcvtF64S64 (d a : SReg) (s : State) : Out := finSF s 0 d (fcvtTo s fp64 (intVal (s.sreg a).toInt)).out
def execFcvtF64N64 (d a : SReg) (s : State) : Out := finSF s 0 d (fcvtTo s fp64 (intVal (s.sreg a).toNat)).out
def execFcvtS64F32 (d a : SReg) (s : State) : Out := fcvtInt s fp32 true d a
def execFcvtN64F32 (d a : SReg) (s : State) : Out := fcvtInt s fp32 false d a
def execFcvtF32S64 (d a : SReg) (s : State) : Out := finSF s 0 d (fcvtTo s fp32 (intVal (s.sreg a).toInt)).out
def execFcvtF32N64 (d a : SReg) (s : State) : Out := finSF s 0 d (fcvtTo s fp32 (intVal (s.sreg a).toNat)).out

/-! ### Masks -/

/-- Writes a mask and passes the instruction. -/
def finK (s : State) (d : KReg) (x : Word32) : Out := .next (s.setK d x).advance

def execKand (d a b : KReg) (s : State) : Out := finK s d (s.kreg a &&& s.kreg b)
def execKor (d a b : KReg) (s : State) : Out := finK s d (s.kreg a ||| s.kreg b)
def execKxor (d a b : KReg) (s : State) : Out := finK s d (s.kreg a ^^^ s.kreg b)
def execKandn (d a b : KReg) (s : State) : Out := finK s d (s.kreg a &&& ~~~(s.kreg b))
def execKnot (d a : KReg) (s : State) : Out := finK s d (~~~(s.kreg a))
def execKmov (d a : KReg) (s : State) : Out := finK s d (s.kreg a)
def execKpop (d : SReg) (a : KReg) (s : State) : Out :=
  finS s 0 d (BitVec.ofNat 64 ((upTo 32).filter fun i => laneBit (s.kreg a) i).length)
def execKffs (d : SReg) (a : KReg) (s : State) : Out :=
  finS s 0 d (BitVec.ofNat 64 (((upTo 32).find? fun i => laneBit (s.kreg a) i).getD 32))
def execKset (d : KReg) (a : SReg) (s : State) : Out := finK s d ((s.sreg a).truncate 32)
/-- Waits until every queued lane word has completed (R89), then ballots the predicate. -/
def execKball (d : KReg) (p : PReg) (b : KReg) (s : State) : Out :=
  if s.g.lq.isEmpty && !s.hasReqs then finK s d (s.closeLane.pmask p &&& s.kreg b) else .next (s.stall 3)

end Sys2Proof.Machine
end

