-- ==== Sys2Proof/Machine/ScalarInt.lean ====
section
/-! DEFINITION. Scalar integer, logic, move and bit-field instructions (R77 to R83). -/

namespace Sys2Proof.Machine

/-! ### Results -/

/-- An exact signed result, clamped to 64 bits under a sat prefix with the sat flag, else wrapped (R78, R81). -/
def arith64 (s : State) (x : Int) : Word64 × Word32 := intResult s.g.md.sat true 64 x

/-- The upper half of a 128-bit product (R78). -/
def mulHigh (signed : Bool) (a b : Word64) : Word64 := BitVec.ofInt 64 (asInt signed a * asInt signed b / 2 ^ 64)

/-- `div` (R79): never traps. -/
def divRes (signed : Bool) (a b : Word64) : Word64 :=
  if b = 0 then BitVec.allOnes 64 else if signed then a.sdiv b else a.udiv b

/-- `rem` (R79): a minus quotient times b. -/
def remRes (signed : Bool) (a b : Word64) : Word64 := if b = 0 then a else a - divRes signed a b * b

/-- Shifts by a count that is never reduced (R80). -/
def shlBy (a : Word64) (n : Nat) : Word64 := if 64 ≤ n then 0 else a <<< n
def shrBy (a : Word64) (n : Nat) : Word64 := if 64 ≤ n then 0 else a >>> n
def sarBy (a : Word64) (n : Nat) : Word64 := a.sshiftRight (min n 64)

def minS (a b : Word64) : Word64 := if b.slt a then b else a
def maxS (a b : Word64) : Word64 := if a.slt b then b else a
def minN (a b : Word64) : Word64 := if b.ult a then b else a
def maxN (a b : Word64) : Word64 := if a.ult b then b else a

/-- Leading zeros, one bits and reversal of a value of any width (R82, R106). -/
def clzOf {w : Nat} (x : BitVec w) : Nat := if x = 0 then w else w - 1 - x.toNat.log2
def popcOf {w : Nat} (x : BitVec w) : Nat := (upTo w).foldl (fun n i => n + b2n (x.getLsbD i)) 0
def brevOf {w : Nat} (x : BitVec w) : BitVec w :=
  BitVec.ofNat w ((upTo w).foldl (fun n i => if x.getLsbD i then n + 2 ^ (w - 1 - i) else n) 0)

/-- Bits [pos+len-1:pos] extended to the width (R83, R106). -/
def bfxOf {w : Nat} (signed : Bool) (x : BitVec w) (pos len : Nat) : BitVec w :=
  let v := bitsOf x.toNat pos len
  if signed && bitsOf v (len - 1) 1 == 1 then BitVec.ofInt w ((v : Int) - 2 ^ len) else BitVec.ofNat w v

/-- The value `d` with bits [pos+len-1:pos] replaced by the low bits of `a` (R83, R106). -/
def bfiOf {w : Nat} (d a : BitVec w) (pos len : Nat) : BitVec w :=
  let m : BitVec w := BitVec.ofNat w ((2 ^ len - 1) * 2 ^ pos)
  (d &&& ~~~m) ||| ((a <<< pos) &&& m)

/-! ### Meanings, in the order of the table -/

def execAdd (d a b : SReg) (s : State) : Out := finSF s 0 d (arith64 s ((s.sreg a).toInt + (s.sreg b).toInt))
def execAddImm (d a : SReg) (imm : BitVec 12) (s : State) : Out :=
  finSF s 0 d (arith64 s ((s.sreg a).toInt + (imm64 imm).toInt))
def execAddLong (d a : SReg) (la : BitVec 4) (imm : Word32) (s : State) : Out :=
  finSF s la d (arith64 s ((s.sreg a).toInt + (imm64 imm).toInt))
def execSub (d a b : SReg) (s : State) : Out := finSF s 0 d (arith64 s ((s.sreg a).toInt - (s.sreg b).toInt))
def execMul (d a b : SReg) (s : State) : Out := finSF s 0 d (arith64 s ((s.sreg a).toInt * (s.sreg b).toInt))
def execMulImm (d a : SReg) (imm : BitVec 12) (s : State) : Out :=
  finSF s 0 d (arith64 s ((s.sreg a).toInt * (imm64 imm).toInt))
def execMulhiS64 (d a b : SReg) (s : State) : Out := finS s 0 d (mulHigh true (s.sreg a) (s.sreg b))
def execMulhiN64 (d a b : SReg) (s : State) : Out := finS s 0 d (mulHigh false (s.sreg a) (s.sreg b))
def execDivS64 (d a b : SReg) (s : State) : Out := finS s 0 d (divRes true (s.sreg a) (s.sreg b))
def execDivN64 (d a b : SReg) (s : State) : Out := finS s 0 d (divRes false (s.sreg a) (s.sreg b))
def execRemS64 (d a b : SReg) (s : State) : Out := finS s 0 d (remRes true (s.sreg a) (s.sreg b))
def execRemN64 (d a b : SReg) (s : State) : Out := finS s 0 d (remRes false (s.sreg a) (s.sreg b))
def execAnd (d a b : SReg) (s : State) : Out := finS s 0 d (s.sreg a &&& s.sreg b)
def execAndImm (d a : SReg) (imm : BitVec 12) (s : State) : Out := finS s 0 d (s.sreg a &&& imm64 imm)
def execAndLong (d a : SReg) (la : BitVec 4) (imm : Word32) (s : State) : Out := finS s la d (s.sreg a &&& imm64 imm)
def execOr (d a b : SReg) (s : State) : Out := finS s 0 d (s.sreg a ||| s.sreg b)
def execOrImm (d a : SReg) (imm : BitVec 12) (s : State) : Out := finS s 0 d (s.sreg a ||| imm64 imm)
def execOrLong (d a : SReg) (la : BitVec 4) (imm : Word32) (s : State) : Out := finS s la d (s.sreg a ||| imm64 imm)
def execXor (d a b : SReg) (s : State) : Out := finS s 0 d (s.sreg a ^^^ s.sreg b)
def execXorImm (d a : SReg) (imm : BitVec 12) (s : State) : Out := finS s 0 d (s.sreg a ^^^ imm64 imm)
def execXorLong (d a : SReg) (la : BitVec 4) (imm : Word32) (s : State) : Out := finS s la d (s.sreg a ^^^ imm64 imm)
def execAndn (d a b : SReg) (s : State) : Out := finS s 0 d (s.sreg a &&& ~~~(s.sreg b))
def execShl (d a b : SReg) (s : State) : Out := finS s 0 d (shlBy (s.sreg a) (s.sreg b).toNat)
def execShlImm (d a : SReg) (count : BitVec 6) (s : State) : Out := finS s 0 d (shlBy (s.sreg a) count.toNat)
def execShr (d a b : SReg) (s : State) : Out := finS s 0 d (shrBy (s.sreg a) (s.sreg b).toNat)
def execShrImm (d a : SReg) (count : BitVec 6) (s : State) : Out := finS s 0 d (shrBy (s.sreg a) count.toNat)
def execSar (d a b : SReg) (s : State) : Out := finS s 0 d (sarBy (s.sreg a) (s.sreg b).toNat)
def execSarImm (d a : SReg) (count : BitVec 6) (s : State) : Out := finS s 0 d (sarBy (s.sreg a) count.toNat)
def execMinS64 (d a b : SReg) (s : State) : Out := finS s 0 d (minS (s.sreg a) (s.sreg b))
def execMinS64Imm (d a : SReg) (imm : BitVec 12) (s : State) : Out := finS s 0 d (minS (s.sreg a) (imm64 imm))
def execMinN64 (d a b : SReg) (s : State) : Out := finS s 0 d (minN (s.sreg a) (s.sreg b))
def execMaxS64 (d a b : SReg) (s : State) : Out := finS s 0 d (maxS (s.sreg a) (s.sreg b))
def execMaxS64Imm (d a : SReg) (imm : BitVec 12) (s : State) : Out := finS s 0 d (maxS (s.sreg a) (imm64 imm))
def execMaxN64 (d a b : SReg) (s : State) : Out := finS s 0 d (maxN (s.sreg a) (s.sreg b))
def execCmpCc (cc : ICond) (d a b : SReg) (s : State) : Out :=
  finS s 0 d (if cc.holds (s.sreg a) (s.sreg b) then 1 else 0)
def execMov (d a : SReg) (s : State) : Out := finS s 0 d (s.sreg a)
/-- −2^63 stays −2^63 (R82). -/
def execAbs (d a : SReg) (s : State) : Out := finS s 0 d (if (s.sreg a).msb then -(s.sreg a) else s.sreg a)
def execClz (d a : SReg) (s : State) : Out := finS s 0 d (BitVec.ofNat 64 (clzOf (s.sreg a)))
def execPopc (d a : SReg) (s : State) : Out := finS s 0 d (BitVec.ofNat 64 (popcOf (s.sreg a)))
def execBrev (d a : SReg) (s : State) : Out := finS s 0 d (brevOf (s.sreg a))
def execMovi (d : SReg) (imm : BitVec 18) (s : State) : Out := finS s 0 d (imm64 imm)
def execMoviLong (d : SReg) (la : BitVec 4) (imm : Word32) (s : State) : Out := finS s la d (imm64 imm)
def execSel (d a b : SReg) (la : BitVec 4) (c : SReg) (s : State) : Out :=
  finS s la d (if s.sreg c ≠ 0 then s.sreg a else s.sreg b)
def execBfx (signed : Bool) (d a : SReg) (la : BitVec 4) (pos : BitVec 6) (len : BitVec 7) (s : State) : Out :=
  finS s la d (bfxOf signed (s.sreg a) pos.toNat len.toNat)
def execBfi (d a : SReg) (la : BitVec 4) (pos : BitVec 6) (len : BitVec 7) (s : State) : Out :=
  finS s la d (bfiOf (s.sreg d) (s.sreg a) pos.toNat len.toNat)

end Sys2Proof.Machine
end

