-- ==== Sys2Proof/Machine/ScalarMem.lean ====
section
/-! DEFINITION. Scalar memory and system instructions (R94 to R99, R154, R155). -/

namespace Sys2Proof.Machine

/-! ### Scalar memory -/

/-- The effective address (R95): base, byte offset, and the step of the repetition; at a replay as it was when the access issued (R45,
assumption 118). -/
def State.saddr (s : State) (a : SReg) (off : Word64) : Word64 :=
  match s.g.scAcc with
  | some k => k.addr
  | none => s.sreg a + off + s.g.repOff

/-- The data of a store; at a replay as they were when it issued. -/
def State.sdata (s : State) (d : SReg) : Word64 :=
  match s.g.scAcc with
  | some k => k.data
  | none => s.sreg d

/-- The byte offset of a short form: off9 counts access sizes (R94). -/
def shortOff (w : SWidth) (off : BitVec 9) : Word64 := imm64 off * BitVec.ofNat 64 w.bytes

/-- Whether an address is no multiple of the access size (R95). -/
def misaligned (w : SWidth) (x : Word64) : Bool := x.toNat % w.bytes != 0

/-- Counts the scalar access; a replayed one has its count already (R179). -/
def State.countS (s : State) (p : Path) : Option (State × Nat) :=
  match s.g.scAcc with
  | some k => some (s, k.tag)
  | none => s.countAcc p

/-- A scalar access parks, and keeps its count, its address and its data (R179, R344, R45). -/
def parkCounted (s : State) (tag c : Nat) (va data : Word64) (access : Nat) : Out :=
  .next ((s.parkScalar c va access s.g.insAddr).modG fun g => { g with scAcc := some ⟨tag, va, data⟩ })

/-- What may issue past a load that parks: the instructions of its window (R48); behind a replay, and past a repetition, none does. -/
def Group.aheadOf (g : Group) (la : BitVec 4) (d : SReg) : Ahead :=
  if la = 0 || g.ahead.back.isSome || g.repped then g.ahead else { left := la.toNat, reg := d, from' := some g.insAddr }

/-- A load's lookahead without the positions of the instructions that have issued past it (R46, R48). -/
def Group.laLeft (g : Group) (la : BitVec 4) : BitVec 4 := BitVec.ofNat 4 (la.toNat - g.ahead.gone)

/-- `ld` (R95): the value enters the register at once, or a peer answers later (R329, R348). -/
def loadG (s : State) (w : SWidth) (la : BitVec 4) (d : SReg) (x : Word64) : Out :=
  if misaligned w x then .next (s.takeTrap 0x08 { vaddr := x }) else
    match s.countS .ld with
    | none => .next (s.stall 3)
    | some (s1, tag) =>
      match s1.xlate none needR x with
      | (s2, .fail c) => parkCounted (s2.modG fun g => { g with ahead := g.aheadOf la d }) tag c x 0 0
      | (s2, .pool pa) =>
        let v := if s2.poisoned pa w.bytes then s2.freeWord (7 * 2 ^ 60 + pa) else extendTo 64 w.bytes w.signed (ofLe (s2.memRead pa w.bytes))
        let s3 := (s2.setSla (s.g.laLeft la) d v).modG fun g => g.finAcc tag
        let s4 := if s2.poisoned pa w.bytes then s3.dataPoison 0 0 s.g.insAddr 0 pa x 0 else s3
        .next s4.advance
      | (s2, .peer i off) =>
        let s3 := s2.setSla (s.g.laLeft la) d (s2.sreg d) tag
        .next (s3.sendReq 0 (.peer (s.peerOf i) i) off x (.scalarLoad w d) tag s.g.insAddr 0
          (if s.openS d && s.freeBit (State.winKey 1 d.toNat 0) then [d.toNat] else []) false true).advance

/-- `st` (R95). -/
def storeG (s : State) (w : SWidth) (d : SReg) (x : Word64) : Out :=
  if misaligned w x then .next (s.takeTrap 0x08 { vaddr := x, access := 1 }) else
    match s.countS .st with
    | none => .next (s.stall 3)
    | some (s1, tag) =>
      let bytes := leBytes w.bytes (s.sdata d).toNat
      match s1.xlate none needW x with
      | (s2, .fail c) => parkCounted s2 tag c x (s.sdata d) 1
      | (s2, .pool pa) => .next ((s2.memWrite pa bytes).modG fun g => g.finAcc tag).advance
      | (s2, .peer i off) => .next (s2.sendReq 0 (.peer (s.peerOf i) i) off x (.store bytes) tag s.g.insAddr 0 [] false true).advance

/-- `ldsp` (R95, R96). -/
def loadSp (s : State) (w : SWidth) (la : BitVec 4) (d : SReg) (x : Word64) : Out :=
  if misaligned w x then .next (s.takeTrap 0x08 { vaddr := x })
  else if !s.scratchOk x.toInt w.bytes then .next (s.takeTrap 0x09 { vaddr := x })
  else match s.countS .ld with
    | none => .next (s.stall 3)
    | some (s1, tag) =>
      let v := extendTo 64 w.bytes w.signed (ofLe (s1.spRead x.toNat w.bytes))
      .next ((s1.setSla la d v).modG fun g => g.finAcc tag).advance

/-- `stsp` (R95, R96). -/
def storeSp (s : State) (w : SWidth) (d : SReg) (x : Word64) : Out :=
  if misaligned w x then .next (s.takeTrap 0x08 { vaddr := x, access := 1 })
  else if !s.scratchOk x.toInt w.bytes then .next (s.takeTrap 0x09 { vaddr := x, access := 1 })
  else match s.countS .st with
    | none => .next (s.stall 3)
    | some (s1, tag) =>
      .next ((s1.spWrite x.toNat (leBytes w.bytes (s.sreg d).toNat)).modG fun g => g.finAcc tag).advance

def execLd (w : SWidth) (d a : SReg) (off : BitVec 9) (s : State) : Out := loadG s w 0 d (s.saddr a (shortOff w off))
def execLdLong (w : SWidth) (d a : SReg) (la : BitVec 4) (off : Word32) (s : State) : Out :=
  loadG s w la d (s.saddr a (imm64 off))
def execSt (w : SWidth) (d a : SReg) (off : BitVec 9) (s : State) : Out := storeG s w d (s.saddr a (shortOff w off))
def execStLong (w : SWidth) (d a : SReg) (_la : BitVec 4) (off : Word32) (s : State) : Out :=
  storeG s w d (s.saddr a (imm64 off))
def execLdsp (w : SWidth) (d a : SReg) (off : BitVec 9) (s : State) : Out := loadSp s w 0 d (s.saddr a (shortOff w off))
def execLdspLong (w : SWidth) (d a : SReg) (la : BitVec 4) (off : Word32) (s : State) : Out :=
  loadSp s w la d (s.saddr a (imm64 off))
def execStsp (w : SWidth) (d a : SReg) (off : BitVec 9) (s : State) : Out := storeSp s w d (s.saddr a (shortOff w off))
def execStspLong (w : SWidth) (d a : SReg) (_la : BitVec 4) (off : Word32) (s : State) : Out :=
  storeSp s w d (s.saddr a (imm64 off))

/-! ### Special registers (R154) -/

/-- `%band`: slot, groups in the band - 1, index. -/
def Group.bandWord (g : Group) : Nat := packBits [(8, g.band), (4, g.size - 1), (0, g.idx)]

/-- The depth and spill counts of the counting array; 0 where the band does not hold it (R250, R251). -/
def Band.cdepth (b : Band) : Nat := if b.handler.counts then packBits [(16, b.counting.nspill), (0, b.counting.depth)] else 0

/-- What `%cycle` reads. -/
def State.clockNow (s : State) : Nat := s.clockOf s.c

/-- The value of a special register. A lane word holds its entry of the lane queue until it has acted in all its lanes, one that is parked or
has performed only some of them as well (R136, R154; DEDUCED, assumption 111). -/
def State.special (s : State) (n : BitVec 12) : Word64 :=
  match n.toNat with
  | 0x000 => s.g.fpflags.setWidth 64
  | 0x001 => s.g.repi.setWidth 64
  | 0x002 => s.g.llink
  | 0x003 => s.g.lpc
  | 0x004 => BitVec.ofNat 64 (Config.laneQueue - s.g.lq.length)
  | 0x010 => BitVec.ofNat 64 s.g.journey
  | 0x011 => BitVec.ofNat 64 s.g.room
  | 0x012 => BitVec.ofNat 64 s.g.core
  | 0x013 => BitVec.ofNat 64 s.g.slot
  | 0x014 => BitVec.ofNat 64 s.g.bandWord
  | 0x015 => s.g.gang.setWidth 64
  | 0x016 => s.g.handler.id.setWidth 64
  | 0x020 => s.g.span0
  | 0x021 => s.g.spanw
  | 0x022 => s.g.round.setWidth 64
  | 0x030 => BitVec.ofNat 64 s.b.cdepth
  | _ => BitVec.ofNat 64 s.clockNow

/-- Whether a special register's access waits for everything earlier: `%fpflags` (R69). -/
def specialWaits (n : BitVec 12) : Bool := n == 0

def execSysr (d : SReg) (n : BitVec 12) (s : State) : Out :=
  if specialWaits n && !s.allDone then .next (s.stall 3)
  else finS (if n = 0x040 then s.modC fun c => { c with clock := s.clockNow } else s) 0 d (s.special n)

/-- `sysw` (R97): `%fpflags` keeps its reserved bits at zero, `%llink` takes the whole value. -/
def execSysw (a : SReg) (n : BitVec 12) (s : State) : Out :=
  if specialWaits n then
    if s.allDone then .next (s.modG fun g => { g with fpflags := (s.sreg a).truncate 32 &&& flMask }).advance
    else .next (s.stall 3)
  else .next (s.modG fun g => { g with llink := s.sreg a }).advance

/-! ### `trap` and `brk` -/

/-- `trap` takes the precise UserTrap (R98). -/
def execTrap (code : BitVec 12) (s : State) : Out := .next (s.takeTrap 0x06 { info := code.toNat, next := true })

/-- `brk` (R99): under a debug session it reports Breakpoint and halts the group, and the resume goes on after it. The report is a record
of the room's fault queue, as R398 gives it an `info`, and a breakpoint record of the session's buffer (R407; DEDUCED, assumption 83). -/
def execBrk (code : BitVec 12) (s : State) : Out :=
  if (s.sessionOf s.g.room).isNone then .next s.advance
  else if !s.doneOrParked then .next (s.stall 3)
  else
    let r := { s.groupRec 0x07 with precise := true, held := true, info := code.toNat }
    .next (((s.postRecord s.g.room r).modG fun g =>
      { g with hold := .brk true, halted := true, haltReq := false, spc := g.insAddr, wait := 6 }).trace 5)

/-- A scalar word that is no instruction (R31, R49): the trap names the instruction and the offending word. -/
def execIllegalInstruction (woff : Word64) (s : State) : Out := .next (s.takeTrap 0x01 { waddr := s.g.insAddr + woff })

end Sys2Proof.Machine
end

