-- ==== Sys2Proof/Machine/Prefixes.lean ====
section
/-! DEFINITION. The two prefixes (R23 to R29, R91 to R93): which instructions accept them, the modifiers they set, and the
repetitions of `rep`. -/

namespace Sys2Proof.Machine

/-! ### Acceptance -/

/-- An instruction that accepts `rep`: the registers of its fields that are registers, those that are not stepped, whether it
accesses memory, and its meaning under other registers (R26, R27, R91). -/
structure RepForm where
  d : Option SReg
  a : Option SReg
  b : Option SReg
  c : List SReg := []
  mem : Bool := false
  run : SReg → SReg → SReg → State → Out

def regs3 (d a b : SReg) (k : SReg → SReg → SReg → State → Out) : RepForm := { d := some d, a := some a, b := some b, run := k }
def regs2 (d a : SReg) (k : SReg → SReg → State → Out) : RepForm :=
  { d := some d, a := some a, b := none, run := fun d a _ => k d a }
def regs1 (d : SReg) (k : SReg → State → Out) : RepForm := { d := some d, a := none, b := none, run := fun d _ _ => k d }

/-- The instructions that accept `rep` (R26). -/
def repForm : Instr → Option RepForm
  | .add d a b => some (regs3 d a b execAdd)
  | .sub d a b => some (regs3 d a b execSub)
  | .mul d a b => some (regs3 d a b execMul)
  | .mulhiS64 d a b => some (regs3 d a b execMulhiS64)
  | .mulhiN64 d a b => some (regs3 d a b execMulhiN64)
  | .divS64 d a b => some (regs3 d a b execDivS64)
  | .divN64 d a b => some (regs3 d a b execDivN64)
  | .remS64 d a b => some (regs3 d a b execRemS64)
  | .remN64 d a b => some (regs3 d a b execRemN64)
  | .and d a b => some (regs3 d a b execAnd)
  | .or d a b => some (regs3 d a b execOr)
  | .xor d a b => some (regs3 d a b execXor)
  | .andn d a b => some (regs3 d a b execAndn)
  | .shl d a b => some (regs3 d a b execShl)
  | .shr d a b => some (regs3 d a b execShr)
  | .sar d a b => some (regs3 d a b execSar)
  | .minS64 d a b => some (regs3 d a b execMinS64)
  | .minN64 d a b => some (regs3 d a b execMinN64)
  | .maxS64 d a b => some (regs3 d a b execMaxS64)
  | .maxN64 d a b => some (regs3 d a b execMaxN64)
  | .faddF64 d a b => some (regs3 d a b execFaddF64)
  | .faddF32 d a b => some (regs3 d a b execFaddF32)
  | .fmulF64 d a b => some (regs3 d a b execFmulF64)
  | .fmulF32 d a b => some (regs3 d a b execFmulF32)
  | .cmpCc cc d a b => some (regs3 d a b (execCmpCc cc))
  | .fcmpCcF64 cc d a b => some (regs3 d a b (execFcmpCcF64 cc))
  | .fcmpCcF32 cc d a b => some (regs3 d a b (execFcmpCcF32 cc))
  | .sel d a b la c => some { regs3 d a b (fun d a b => execSel d a b la c) with c := [c] }
  | .fmaF64 d a b la c => some { regs3 d a b (fun d a b => execFmaF64 d a b la c) with c := [c] }
  | .fmaF32 d a b la c => some { regs3 d a b (fun d a b => execFmaF32 d a b la c) with c := [c] }
  | .addImm d a x => some (regs2 d a fun d a => execAddImm d a x)
  | .mulImm d a x => some (regs2 d a fun d a => execMulImm d a x)
  | .andImm d a x => some (regs2 d a fun d a => execAndImm d a x)
  | .orImm d a x => some (regs2 d a fun d a => execOrImm d a x)
  | .xorImm d a x => some (regs2 d a fun d a => execXorImm d a x)
  | .shlImm d a x => some (regs2 d a fun d a => execShlImm d a x)
  | .shrImm d a x => some (regs2 d a fun d a => execShrImm d a x)
  | .sarImm d a x => some (regs2 d a fun d a => execSarImm d a x)
  | .minS64Imm d a x => some (regs2 d a fun d a => execMinS64Imm d a x)
  | .maxS64Imm d a x => some (regs2 d a fun d a => execMaxS64Imm d a x)
  | .addLong d a la x => some (regs2 d a fun d a => execAddLong d a la x)
  | .andLong d a la x => some (regs2 d a fun d a => execAndLong d a la x)
  | .orLong d a la x => some (regs2 d a fun d a => execOrLong d a la x)
  | .xorLong d a la x => some (regs2 d a fun d a => execXorLong d a la x)
  | .mov d a => some (regs2 d a execMov)
  | .abs d a => some (regs2 d a execAbs)
  | .clz d a => some (regs2 d a execClz)
  | .popc d a => some (regs2 d a execPopc)
  | .brev d a => some (regs2 d a execBrev)
  | .fcvtF32F64 d a => some (regs2 d a execFcvtF32F64)
  | .fcvtF64F32 d a => some (regs2 d a execFcvtF64F32)
  | .fcvtS64F64 d a => some (regs2 d a execFcvtS64F64)
  | .fcvtN64F64 d a => some (regs2 d a execFcvtN64F64)
  | .fcvtF64S64 d a => some (regs2 d a execFcvtF64S64)
  | .fcvtF64N64 d a => some (regs2 d a execFcvtF64N64)
  | .fcvtS64F32 d a => some (regs2 d a execFcvtS64F32)
  | .fcvtN64F32 d a => some (regs2 d a execFcvtN64F32)
  | .fcvtF32S64 d a => some (regs2 d a execFcvtF32S64)
  | .fcvtF32N64 d a => some (regs2 d a execFcvtF32N64)
  | .bfx sg d a la p n => some (regs2 d a fun d a => execBfx sg d a la p n)
  | .bfi d a la p n => some (regs2 d a fun d a => execBfi d a la p n)
  | .movi d x => some (regs1 d fun d => execMovi d x)
  | .moviLong d la x => some (regs1 d fun d => execMoviLong d la x)
  | .ld w d a off => some { regs2 d a (fun d a => execLd w d a off) with mem := true }
  | .ldLong w d a la off => some { regs2 d a (fun d a => execLdLong w d a la off) with mem := true }
  | .st w d a off => some { regs2 d a (fun d a => execSt w d a off) with mem := true }
  | .stLong w d a la off => some { regs2 d a (fun d a => execStLong w d a la off) with mem := true }
  | .ldsp w d a off => some { regs2 d a (fun d a => execLdsp w d a off) with mem := true }
  | .ldspLong w d a la off => some { regs2 d a (fun d a => execLdspLong w d a la off) with mem := true }
  | .stsp w d a off => some { regs2 d a (fun d a => execStsp w d a off) with mem := true }
  | .stspLong w d a la off => some { regs2 d a (fun d a => execStspLong w d a la off) with mem := true }
  | _ => none

/-- Whether a modifier prefix is accepted before an instruction, field by field: rounding, saturation, flushing (R26). -/
def modsAccepted : Instr → Option (Bool × Bool × Bool)
  | .faddF64 _ _ _ | .faddF32 _ _ _ | .fmulF64 _ _ _ | .fmulF32 _ _ _ | .fmaF64 _ _ _ _ _ | .fmaF32 _ _ _ _ _
  | .fcvtF32F64 _ _ | .fcvtF64F32 _ _ | .fcvtF64S64 _ _ | .fcvtF64N64 _ _ | .fcvtF32S64 _ _ | .fcvtF32N64 _ _ =>
    some (true, false, true)
  | .fcvtS64F64 _ _ | .fcvtN64F64 _ _ | .fcvtS64F32 _ _ | .fcvtN64F32 _ _ => some (true, true, true)
  | .fcmpCcF64 _ _ _ _ | .fcmpCcF32 _ _ _ _ => some (false, false, true)
  | .add _ _ _ | .addImm _ _ _ | .addLong _ _ _ _ | .sub _ _ _ | .mul _ _ _ | .mulImm _ _ _ => some (false, true, false)
  | _ => none

/-- Whether every field of a modifier prefix that is not zero is accepted. -/
def Mods.accepted (m : Mods) (i : Instr) : Bool :=
  match modsAccepted i with
  | none => false
  | some (rnd, sat, ftz) => (m.rnd == .rn || rnd) && (!m.sat || sat) && (!m.ftz || ftz)

/-- Control transfers (R29). -/
def isTransfer : Instr → Bool
  | .br _ | .bz _ _ | .bnz _ _ | .ball _ _ | .bCc _ _ _ _ _ | .call _ | .ret | .jmpi _ | .exit => true
  | _ => false

/-- The fields of a `rep` prefix, and which word of the sequence it is. -/
structure RepArg where
  cnt : Nat
  dstep : Nat
  astep : Nat
  bstep : Nat
  astride : Word64
  word : Nat
deriving DecidableEq, Repr, Inhabited

/-- Whether a step keeps its field: zero where the field is no register, else never above register 63 (R27). -/
def stepOk (cnt step : Nat) (r : Option SReg) : Bool :=
  step == 0 || match r with | some x => x.toNat + cnt * step ≤ 63 | none => false

def RepArg.ok (r : RepArg) (f : RepForm) : Bool :=
  stepOk r.cnt r.dstep f.d && stepOk r.cnt r.astep f.a && stepOk r.cnt r.bstep f.b && (f.mem || r.astride == 0)

/-! ### Repetitions (R91, R92) -/

/-- A field's register in repetition `i`. -/
def stepped (r : Option SReg) (i step : Nat) : SReg := r.getD 0 + BitVec.ofNat 6 (i * step)

/-- Repetition number `%repi`: it waits for the registers it names (R93). -/
def repOne (f : RepForm) (r : RepArg) (s : State) : Out :=
  let i := s.g.repi.toNat
  let d := stepped f.d i r.dstep
  let a := stepped f.a i r.astep
  let b := stepped f.b i r.bstep
  if s.busyS ([d, a, b] ++ f.c) then .next (s.stall 3)
  else f.run d a b (s.modG fun g => { g with repOff := r.astride * BitVec.ofNat 64 i, repped := true })

/-- The repetitions from `%repi` on, at most `n`: one that waits, parks or traps ends the step where it stands. A repetition of an access is
an access of its own in S, so the step may end behind it (R91); `mid` then says that no replay stands there (R92). -/
def repLoop (f : RepForm) (r : RepArg) : Nat → State → Out
  | 0, s => .next s
  | n + 1, s =>
    match repOne f r s with
    | .next t =>
      if t.g.spc == t.g.insAddr then
        .next (if t.g.park.isSome || t.g.hold != .none then t.modG fun g => { g with mid := false } else t)
      else if r.cnt ≤ s.g.repi.toNat then .next (t.modG fun g => { g with repi := 0 })
      else
        let u := { t with g := { t.g with repi := s.g.repi + 1, spc := t.g.insAddr, passed := true, mid := true }, draw := t.draw + 1 }
        if f.mem && s.freeBit (51 * 2 ^ 60) then .next u else repLoop f r n u
    | o => o

/-- An instruction under its prefixes: acceptance (R26, R29), the limits of `rep` (R27), then the effect. `words` is the
number of prefix words. -/
def runPrefixed (m : Option Mods) (r : Option RepArg) (words : Nat) (i : Instr) (s : State) : Out :=
  if isTransfer i then .next (s.takeTrap 0x02 { waddr := s.g.insAddr + BitVec.ofNat 64 (4 * words) })
  else
    match repForm i with
    | none => .next (s.takeTrap 0x01 { waddr := s.g.insAddr })
    | some f =>
      if !(m.all fun x => x.accepted i) then .next (s.takeTrap 0x01 { waddr := s.g.insAddr })
      else
        let s1 := s.modG fun g => { g with md := m.getD {} }
        match r with
        | none => f.run (f.d.getD 0) (f.a.getD 0) (f.b.getD 0) s1
        | some x =>
          if x.ok f then repLoop f x (x.cnt + 1) s1
          else .next (s.takeTrap 0x01 { waddr := s.g.insAddr + BitVec.ofNat 64 (4 * x.word) })

/-- The argument of a `rep` prefix. -/
def repArg (cnt : BitVec 8) (ds as bs : BitVec 2) (st : BitVec 12) (word : Nat) : RepArg :=
  ⟨cnt.toNat, ds.toNat, as.toNat, bs.toNat, imm64 st, word⟩

def execModifierPrefix (rnd : Rnd) (sat ftz : Bool) (i : Instr) (s : State) : Out :=
  match i with
  | .repPrefix c ds as bs st k => runPrefixed (some ⟨rnd, sat, ftz⟩) (some (repArg c ds as bs st 1)) 2 k s
  | k => runPrefixed (some ⟨rnd, sat, ftz⟩) none 1 k s

def execRepPrefix (cnt : BitVec 8) (ds as bs : BitVec 2) (st : BitVec 12) (i : Instr) (s : State) : Out :=
  match i with
  | .modifierPrefix rnd sat ftz k => runPrefixed (some ⟨rnd, sat, ftz⟩) (some (repArg cnt ds as bs st 0)) 2 k s
  | k => runPrefixed none (some (repArg cnt ds as bs st 0)) 1 k s

end Sys2Proof.Machine
end

