-- ==== Sys2Proof/Machine/Assembler.lean ====
section
/-! DEFINITION. The assembler of portable packs: lines and tokens (R427), sections and directives (R428, R429), operands (R430),
the lines of every instruction (R51, R52, R90, R156), and the resolving of labels (R143, R431). -/

namespace Sys2Proof.Machine

/-- An assembled handler: its table entry and the bytes of its two sections. -/
structure AsmHandler where
  h : Handler
  scalar : List Byte
  lane : List Byte
deriving DecidableEq, Repr, Inhabited

/-- An assembled source. -/
structure Asm where
  lookahead : Nat
  handlers : List AsmHandler
  data : List Byte
deriving DecidableEq, Repr, Inhabited

/-! ### Tokens (R427) -/

/-- A token of a line. -/
inductive Tok where
  | id (s : String)
  | num (v : Int)
  | p (c : Char)
deriving DecidableEq, Repr, Inhabited

def idStart (c : Char) : Bool := c.isAlpha || c == '_'
def idChar (c : Char) : Bool := c.isAlphanum || c == '_' || c == '.'

/-- The value of a digit in a base. -/
def digitOf (base : Nat) (c : Char) : Option Nat :=
  let v := if c.isDigit then c.toNat - 48 else if 'a' ≤ c && c ≤ 'f' then c.toNat - 87
    else if 'A' ≤ c && c ≤ 'F' then c.toNat - 55 else 99
  if v < base then some v else none

/-- Digits with underscores between them. -/
def readDigits (base : Nat) : List Char → Option Nat → Option Nat
  | [], acc => acc
  | '_' :: c :: r, some n => (digitOf base c).bind fun v => readDigits base r (some (n * base + v))
  | c :: r, acc => (digitOf base c).bind fun v => readDigits base r (some (acc.getD 0 * base + v))

/-- A number without its sign. -/
def readNumber : List Char → Option Nat
  | '0' :: 'x' :: r => readDigits 16 r none
  | r => readDigits 10 r none

/-- The tokens of a line; none where it holds something else. `fuel` bounds the characters. -/
def lexLine : Nat → List Char → Option (List Tok)
  | 0, _ => some []
  | fuel + 1, l =>
    match l with
    | [] => some []
    | ';' :: _ => some []
    | c :: r =>
      if c == ' ' || c == '\t' || c == '\r' then lexLine fuel r
      else if idStart c || c == '.' then
        let w := r.takeWhile idChar
        if c == '.' && !(w.head?.any idStart) then none
        else (lexLine fuel (r.dropWhile idChar)).map (.id (String.ofList (c :: w)) :: ·)
      else if c.isDigit || c == '-' then
        let body := if c == '-' then r else l
        let w := body.takeWhile idChar
        match (if body.head?.any Char.isDigit then readNumber w else none) with
        | none => none
        | some n => (lexLine fuel (body.dropWhile idChar)).map (.num (if c == '-' then -(n : Int) else n) :: ·)
      else if [':', ',', '[', ']', '+', '*', '!', '%'].contains c then (lexLine fuel r).map (.p c :: ·)
      else none

/-- Lines of a text. -/
def splitLines (l : List Char) : List (List Char) :=
  let r := l.foldr (fun c (cur, acc) => if c == '\n' then ([], cur :: acc) else (c :: cur, acc)) ([], [])
  r.1 :: r.2

/-- A list cut at the elements that a test picks. -/
def splitAt {α : Type} (f : α → Bool) (l : List α) : List (List α) :=
  let r := l.foldr (fun c (cur, acc) => if f c then ([], cur :: acc) else (c :: cur, acc)) ([], [])
  r.1 :: r.2

/-- The dot-separated parts of a mnemonic. -/
def dotParts (s : String) : List String := (splitAt (· == '.') s.toList).map String.ofList

/-- Operands between commas. -/
def operandsOf (l : List Tok) : List (List Tok) := if l.isEmpty then [] else splitAt (· == .p ',') l

/-! ### Values and operands (R430) -/

/-- Sections of a handler. -/
inductive Sec where
  | scalar | lane | data
deriving DecidableEq, Repr, Inhabited

/-- A label: its section and the byte offset it names. -/
structure Label where
  name : String
  sec : Sec
  off : Nat
deriving DecidableEq, Repr, Inhabited

/-- What names stand for while a line is read; `pc` is the offset of the line's instruction word, `lpc` the lane PC there. -/
structure AsmEnv where
  consts : List (String × Int) := []
  handlers : List (String × Nat) := []
  labels : List Label := []
  pc : Nat := 0
  lpc : Option Nat := none
deriving Repr, Inhabited

def AsmEnv.label (e : AsmEnv) (n : String) : Option Label := e.labels.find? fun l => l.name == n

/-- A number, or the name of a constant, which stands wherever a number does (R429). -/
def AsmEnv.number (e : AsmEnv) : Tok → Option Int
  | .num v => some v
  | .id n => e.consts.lookup n
  | .p _ => none

/-- An immediate: a number, a constant, or a label's offset. -/
def AsmEnv.value (e : AsmEnv) : List Tok → Option Int
  | [.id n] => (e.number (.id n)).orElse fun _ => (e.label n).map fun l => (l.off : Int)
  | [o] => e.number o
  | _ => none

/-- Fields read as signed, as unsigned, and as raw bits (R427). -/
def fitS (n : Nat) (v : Int) : Option (BitVec n) :=
  if -(2 ^ (n - 1) : Int) ≤ v && v ≤ 2 ^ (n - 1) - 1 then some (BitVec.ofInt n v) else none
def fitU (n : Nat) (v : Int) : Option (BitVec n) := if 0 ≤ v && v ≤ 2 ^ n - 1 then some (BitVec.ofInt n v) else none
def fitRaw (n : Nat) (v : Int) : Option (BitVec n) :=
  if -(2 ^ (n - 1) : Int) ≤ v && v ≤ 2 ^ n - 1 then some (BitVec.ofInt n v) else none

def AsmEnv.imm (e : AsmEnv) (n : Nat) (o : List Tok) : Option (BitVec n) := (e.value o).bind (fitU n)

/-- The number of a register with a letter, written without leading zeros. -/
def regNo (letter : Char) (s : String) : Option Nat :=
  match s.toList with
  | c :: ds => if c == letter && (ds.length == 1 || ds.head? != some '0') then readDigits 10 (ds.filter (· != '_')) none
      |>.filter fun _ => ds.all Char.isDigit
    else none
  | [] => none

/-- A register operand of a class with a limit. -/
def reg (letter : Char) (limit : Nat) : List Tok → Option Nat
  | [.id s] => (regNo letter s).filter fun n => n < limit
  | _ => none

def opS (o : List Tok) : Option SReg := (reg 's' 64 o).map (BitVec.ofNat 6)
def opV (o : List Tok) : Option VReg := (reg 'v' 256 o).map (BitVec.ofNat 8)
def opP (o : List Tok) : Option PReg := (reg 'p' 12 o).map (BitVec.ofNat 4)
def opK (o : List Tok) : Option KReg := (reg 'k' 16 o).map (BitVec.ofNat 4)
def opF (o : List Tok) : Option FReg := (reg 'f' 16 o).map (BitVec.ofNat 4)
def opT (o : List Tok) : Option (BitVec 5) := (reg 't' 32 o).map (BitVec.ofNat 5)

/-- A run `v8:4` or `t2:4`: the first register and the count. -/
def runOf (e : AsmEnv) (letter : Char) (limit : Nat) : List Tok → Option (Nat × Nat)
  | [.id s, .p ':', n] => (e.number n).bind fun n =>
    ((reg letter limit [.id s]).filter fun f => 1 ≤ n && f + n.toNat ≤ limit).map fun f => (f, n.toNat)
  | _ => none

/-- A run of lane registers of a given length. -/
def opRun (e : AsmEnv) (n : Nat) (o : List Tok) : Option VReg := ((runOf e 'v' 256 o).filter fun x => x.2 == n).map fun x => BitVec.ofNat 8 x.1

/-- A lane register written as a run of its length, which is omitted where it is one. -/
def opRegs (e : AsmEnv) (n : Nat) (o : List Tok) : Option VReg := if n == 1 then opV o else opRun e n o

/-- A memory operand's parts: base, index, scale and offset (R169). -/
structure MemOp where
  base : SReg := 0
  idx : Option VReg := none
  scale : BitVec 2 := 0
  off : Int := 0
deriving DecidableEq, Repr, Inhabited

/-- The parts after the base, each behind a `+` (R169). -/
def memTail (e : AsmEnv) (m : MemOp) (o : List Tok) : Option MemOp :=
  let off (m : MemOp) (r : List Tok) : Option MemOp :=
    match r with
    | [] => some m
    | .p '+' :: r => (e.value r).map fun v => { m with off := v }
    | _ => none
  match o with
  | .p '+' :: .id s :: r =>
    match opV [.id s], r with
    | some v, .p '*' :: k :: r =>
      let scales : List (Int × BitVec 2) := [(1, 0), (2, 1), (4, 2), (8, 3)]
      ((e.number k).bind fun k => scales.lookup k).bind fun c => off { m with idx := some v, scale := c } r
    | some v, r => off { m with idx := some v } r
    | none, _ => off m o
  | _ => off m o

/-- A memory operand; an omitted base is `s0`, an omitted offset 0 (R169). -/
def AsmEnv.mem (e : AsmEnv) (o : List Tok) : Option MemOp :=
  match o with
  | .p '[' :: r =>
    match r.getLast? with
    | some (.p ']') =>
      match r.dropLast with
      | [] => some {}
      | .id s :: t => match opS [.id s] with
        | some b => memTail e { base := b } t
        | none => memTail e {} (.p '+' :: .id s :: t)
      | .num v :: t => if t.isEmpty then some { off := v } else none
      | _ => none
    | _ => none
  | _ => none

/-- A memory operand with a base and an offset alone. -/
def AsmEnv.smem (e : AsmEnv) (o : List Tok) : Option (SReg × Int) :=
  ((e.mem o).filter fun m => m.idx.isNone).map fun m => (m.base, m.off)

/-- A descriptor `[sA]`. -/
def AsmEnv.desc (e : AsmEnv) (o : List Tok) : Option SReg := ((e.smem o).filter fun m => m.2 == 0).map (·.1)

/-- A lane address (R169). -/
def AsmEnv.lmem (e : AsmEnv) (o : List Tok) : Option LaneAddr :=
  (e.mem o).bind fun m => (fitS 32 m.off).map fun v => ⟨m.base, m.idx.isSome, m.idx.getD 0, m.scale, v⟩

/-- A scale operand: whether present, and its register (R241, R260). -/
def opScale (e : AsmEnv) (n : Nat) (e8 : Bool) (o : List Tok) : Option (Bool × VReg) :=
  if o == [.id "none"] then some (false, 0) else (if e8 then opV o else opRun e n o).map fun v => (true, v)

/-- A branch target in words from its instruction: a label of the scalar section, or a number (R141). -/
def AsmEnv.target (e : AsmEnv) (o : List Tok) : Option Int :=
  match o with
  | [.id n] => match e.label n with
    | some l => if l.sec == .scalar && l.off % 4 == e.pc % 4 then some (((l.off : Int) - e.pc) / 4) else none
    | none => e.value o
  | _ => e.value o

/-- A lane target in lane words from the lane PC: a label of the lane section where the lane PC is known, or a number (R143). -/
def AsmEnv.laneTarget (e : AsmEnv) (o : List Tok) : Option Int :=
  match o with
  | [.id n] => match e.label n, e.lpc with
    | some l, some p => if l.sec == .lane && l.off % 12 == p % 12 then some (((l.off : Int) - p) / 12) else none
    | some _, none => none
    | none, _ => e.value o
  | _ => e.value o

/-- Numbers of the special registers (R154). -/
def sysNames : List (String × Nat) :=
  [("fpflags", 0), ("repi", 1), ("llink", 2), ("lpc", 3), ("lqfree", 4), ("journey", 0x10), ("room", 0x11), ("core", 0x12),
   ("group", 0x13), ("band", 0x14), ("gang", 0x15), ("handler", 0x16), ("span0", 0x20), ("spanw", 0x21), ("round", 0x22),
   ("cdepth", 0x30), ("cycle", 0x40)]

def opSys : List Tok → Option (BitVec 12)
  | [.p '%', .id s] => (sysNames.lookup s).map (BitVec.ofNat 12)
  | _ => none

/-- A handler's name or a number; a label is neither (R430). -/
def AsmEnv.handler (e : AsmEnv) (o : List Tok) : Option (BitVec 16) :=
  match o with
  | [.id n] => match e.handlers.lookup n with
    | some i => fitU 16 i
    | none => (e.number (.id n)).bind (fitU 16)
  | [x] => (e.number x).bind (fitU 16)
  | _ => none

/-! ### Modifiers (R51) -/

/-- The modifiers of a line: the common ones, and the rest in their order. -/
structure LineMods where
  rnd : Option Rnd := none
  sat : Bool := false
  ftz : Bool := false
  reuse : Bool := false
  la : Option (BitVec 4) := none
  h : Bool := false
  long : Bool := false
  rest : List String := []
deriving DecidableEq, Repr, Inhabited

def rndNames : List (String × Rnd) := [("rn", .rn), ("rz", .rz), ("rd", .rd), ("ru", .ru), ("ra", .ra), ("rs", .rs)]
def laNames : List (String × BitVec 4) := (List.range 16).map fun n => ("la" ++ toString n, BitVec.ofNat 4 n)

/-- Reads the modifiers; a common modifier that is given twice refuses the line. -/
def readMods : List String → LineMods → Option LineMods
  | [], m => some { m with rest := m.rest.reverse }
  | s :: r, m =>
    match rndNames.lookup s, laNames.lookup s with
    | some x, _ => if m.rnd.isSome then none else readMods r { m with rnd := some x }
    | none, some x => if m.la.isSome then none else readMods r { m with la := some x }
    | none, none =>
      if s == "sat" then (if m.sat then none else readMods r { m with sat := true })
      else if s == "ftz" then (if m.ftz then none else readMods r { m with ftz := true })
      else if s == "reuse" then (if m.reuse then none else readMods r { m with reuse := true })
      else if s == "h" then (if m.h then none else readMods r { m with h := true })
      else if s == "long" then (if m.long then none else readMods r { m with long := true })
      else readMods r { m with rest := s :: m.rest }

/-- Mnemonics whose name has a second part, which stands directly after the first. -/
def twoPart : List String :=
  ["qswap", "xlane", "fmin", "fmax", "bar", "fence", "waitp", "acpy", "cp"]

/-- Whether a part stands as the second of a name: `bar` alone is a mnemonic too (R180), so only its own second parts join it. -/
def joins (b x : String) : Bool := b != "bar" || x == "arrive" || x == "wait"

/-- A mnemonic's name and modifiers. `lane` says that `fmin`, `ld` and their like are read as lane words. -/
def readMnemonic (lane : Bool) (s : String) : Option (String × LineMods) :=
  match dotParts s with
  | [] => none
  | b :: r =>
    let two := twoPart.contains b || (lane && (b == "ld" || b == "st"))
    match r with
    | x :: r' => if two && joins b x then (readMods r' {}).map fun m => (b ++ "." ++ x, m) else (readMods r {}).map fun m => (b, m)
    | [] => some (b, {})

/-- The one modifier among those of a table, and the rest without it. -/
def choose {α : Type} (tbl : List (String × α)) (rest : List String) : Option (α × List String) :=
  match rest.filter fun s => (tbl.lookup s).isSome with
  | [s] => (tbl.lookup s).map fun x => (x, rest.filter (· != s))
  | _ => none

/-- The only modifier, from a table. -/
def only {α : Type} (tbl : List (String × α)) (rest : List String) : Option α :=
  (choose tbl rest).bind fun x => if x.2.isEmpty then some x.1 else none

/-- A modifier that may stand once: whether it does, and the rest. -/
def flag (s : String) (rest : List String) : Option (Bool × List String) :=
  let n := (rest.filter (· == s)).length
  if n ≤ 1 then some (n == 1, rest.filter (· != s)) else none

def iTys : List (String × ITy) := [("s32", .s32), ("n32", .n32)]
def icmpTys : List (String × ICmpTy) := [("s32", .s32), ("n32", .n32), ("s64", .s64), ("n64", .n64)]
def f2s : List (String × F2) := [("f32", .f32), ("f64", .f64)]
def fTys : List (String × FTy) := [("f32", .f32), ("f16x2", .f16x2), ("bf16x2", .bf16x2), ("f64", .f64)]
def scanTys : List (String × ScanTy) := [("s32", .s32), ("n32", .n32), ("f32", .f32)]
def scanOps : List (String × ScanOp) := [("add", .add), ("min", .min), ("max", .max)]
def xWidths : List (String × XWidth) := [("w16", .w16), ("w8", .w8), ("w4", .w4)]
def raw64 : List (String × Bool) := [("b32", false), ("b64", true)]
def lconds : List (String × LCond) := [("eq", .eq), ("ne", .ne), ("lt", .lt), ("le", .le), ("gt", .gt), ("ge", .ge)]
def fconds : List (String × FCond) :=
  [("eq", .eq), ("ne", .ne), ("lt", .lt), ("le", .le), ("gt", .gt), ("ge", .ge), ("num", .num), ("nan", .nan)]
def widths : List (String × SWidth) :=
  [("n8", .n8), ("s8", .s8), ("n16", .n16), ("s16", .s16), ("n32", .n32), ("s32", .s32), ("b64", .b64)]
def mTys : List (String × MTy) :=
  [("n8", .n8), ("s8", .s8), ("n16", .n16), ("s16", .s16), ("b32", .b32), ("b64", .b64), ("b128", .b128)]
def lTys : List (String × LTy) :=
  [("s32", .s32), ("n32", .n32), ("b32", .b32), ("s64", .s64), ("n64", .n64), ("b64", .b64), ("f32", .f32), ("f16x2", .f16x2),
   ("bf16x2", .bf16x2), ("f64", .f64), ("e4m3", .e4m3), ("e5m2", .e5m2), ("e2m1", .e2m1), ("i4", .i4), ("ds8", .ds8),
   ("e8m0", .e8m0)]
def aTys : List (String × ATy) :=
  [("s32", .s32), ("n32", .n32), ("b32", .b32), ("s64", .s64), ("n64", .n64), ("b64", .b64), ("f32", .f32)]
def aOps : List (String × AOp) :=
  [("add", .add), ("min", .min), ("max", .max), ("and", .and), ("or", .or), ("xor", .xor), ("exch", .exch), ("cas", .cas),
   ("inc", .inc), ("dec", .dec)]
def scopes : List (String × Scope) :=
  [("device", .device), ("band", .band), ("core", .core), ("cluster", .cluster), ("fabric", .fabric)]
def mFmts : List (String × MFmt) :=
  [("e4m3", .e4m3), ("e5m2", .e5m2), ("e4m3e5m2", .e4m3e5m2), ("e5m2e4m3", .e5m2e4m3), ("ds8", .ds8), ("f16", .f16),
   ("bf16", .bf16)]
def cFmts : List (String × CFmt) := [("e2m1", .e2m1), ("i4", .i4)]
def pushQs : List (String × PushQ) := [("se0", .se0), ("se1", .se1), ("drover", .drover)]
def scaleFmts : List (String × Bool) := [("f32", false), ("e8m0", true)]
def prios : List (String × BitVec 2) := [("pri0", 0), ("pri1", 1), ("pri2", 2), ("pri3", 3)]
def evItems : List (String × EvItem) :=
  [("time", .time), ("entity", .entity), ("tie", .tie), ("seq", .seq), ("handle", .handle), ("rank", .rank), ("hdr", .hdr),
   ("round", .round)]

/-- An integer condition: `eq`, `ne`, or an order with its signedness (R33). -/
def icondFrom (rest : List String) : Option ICond :=
  match rest with
  | ["eq"] => some .eq
  | ["ne"] => some .ne
  | _ => match only [("lt", ()), ("le", ()), ("gt", ()), ("ge", ())] (rest.filter fun s => s != "s64" && s != "n64"),
        only [("s64", true), ("n64", false)] (rest.filter fun s => s == "s64" || s == "n64") with
    | some _, some sg =>
      if rest.contains "lt" then some (if sg then .ltS else .ltN) else if rest.contains "le" then some (if sg then .leS else .leN)
      else if rest.contains "gt" then some (if sg then .gtS else .gtN) else some (if sg then .geS else .geN)
    | _, _ => none

/-- A priority class, 0 when absent, and the rest. -/
def prioFrom (rest : List String) : Option (BitVec 2 × List String) :=
  match rest.filter fun s => (prios.lookup s).isSome with
  | [] => some (0, rest)
  | _ => choose prios rest

/-! ### Scalar lines (R52, R77, R82 to R99, R136 to R150, R180, R182, R215 to R295, R327) -/

/-- The forms of a scalar line: outer none, the mnemonic has no such form; inner none, the operands do not fit it. -/
structure Form where
  short : Option (Option Instr) := none
  long : Option (Option Instr) := none
deriving Inhabited

def s32 (i : Option Instr) : Option Form := some { short := some i }
def s64 (i : Option Instr) : Option Form := some { long := some i }

/-- A register form of three scalar registers. -/
def f3 (k : SReg → SReg → SReg → Instr) : List (List Tok) → Option Form
  | [d, a, b] => do s32 (some (k (← opS d) (← opS a) (← opS b)))
  | _ => none
def f2 (k : SReg → SReg → Instr) : List (List Tok) → Option Form
  | [d, a] => do s32 (some (k (← opS d) (← opS a)))
  | _ => none
def f1 (k : SReg → Instr) : List (List Tok) → Option Form
  | [a] => do s32 (some (k (← opS a)))
  | _ => none
def f0 (i : Instr) : List (List Tok) → Option Form
  | [] => s32 (some i)
  | _ => none
def k3 (k : KReg → KReg → KReg → Instr) : List (List Tok) → Option Form
  | [d, a, b] => do s32 (some (k (← opK d) (← opK a) (← opK b)))
  | _ => none

/-- A register form, or a 12-bit immediate form. -/
def f3i (e : AsmEnv) (r : SReg → SReg → SReg → Instr) (i : SReg → SReg → BitVec 12 → Instr) : List (List Tok) → Option Form
  | [d, a, b] => do
    let d ← opS d
    let a ← opS a
    match opS b with
    | some b => s32 (some (r d a b))
    | none => do
      let v ← e.value b
      s32 ((fitS 12 v).map (i d a))
  | _ => none

/-- A register form, or an immediate of 12 bits that widens to 32. -/
def f3w (e : AsmEnv) (la : BitVec 4) (r : SReg → SReg → SReg → Instr) (i : SReg → SReg → BitVec 12 → Instr)
    (w : SReg → SReg → BitVec 4 → Word32 → Instr) : List (List Tok) → Option Form
  | [d, a, b] => do
    let d ← opS d
    let a ← opS a
    match opS b with
    | some b => s32 (some (r d a b))
    | none => do
      let v ← e.value b
      some { short := some ((fitS 12 v).map (i d a)), long := some ((fitS 32 v).map (w d a la)) }
  | _ => none

/-- A shift by a register or by a count. -/
def fsh (e : AsmEnv) (r : SReg → SReg → SReg → Instr) (i : SReg → SReg → BitVec 6 → Instr) : List (List Tok) → Option Form
  | [d, a, b] => do
    let d ← opS d
    let a ← opS a
    match opS b with
    | some b => s32 (some (r d a b))
    | none => do
      let v ← e.value b
      s32 ((fitU 6 v).map (i d a))
  | _ => none

/-- Bytes of an access width. -/
def swBytes : SWidth → Nat
  | .n8 | .s8 => 1
  | .n16 | .s16 => 2
  | .n32 | .s32 => 4
  | .b64 => 8

/-- A scalar access: a scaled offset of 9 bits, or an offset of 32 (R34, R94). -/
def fmem (e : AsmEnv) (m : LineMods) (s : SWidth → SReg → SReg → BitVec 9 → Instr)
    (w : SWidth → SReg → SReg → BitVec 4 → Word32 → Instr) : List (List Tok) → Option Form
  | [d, a] => do
    let t ← only widths m.rest
    let d ← opS d
    let (b, off) ← e.smem a
    let n : Int := swBytes t
    let sh := if off % n == 0 then (fitS 9 (off / n)).map (s t d b) else none
    some { short := some sh, long := some ((fitS 32 off).map (w t d b (m.la.getD 0))) }
  | _ => none

/-- The second word's forms of the engine instructions. -/
def engineForm (e : AsmEnv) (name : String) (m : LineMods) (ops : List (List Tok)) : Option Form :=
  let la := m.la.getD 0
  let rnd := m.rnd.getD .rn
  let plain := m.rnd.isNone && !m.ftz && !m.reuse
  if name == "push" then
    match ops with
    | [f, a, b] => do
      let q ← only pushQs m.rest
      if !plain then none else s64 (some (.push q (← opF f) (← opS a) (← opS b) la))
    | _ => none
  else if name == "mloop" then
    match ops with
    | [f, t, a, b, n] => do
      let (ts, r) ← flag "tstep" m.rest
      let fmt ← only mFmts r
      let f ← opF f
      let t ← opT t
      let b ← e.desc b
      let n ← (← e.value n) - 1 |> fitU 9
      match opRun e 8 a with
      | some v => s64 (some (.mloop f b 0 la false n rnd m.ftz m.reuse ts t fmt v))
      | none => s64 (some (.mloop f b (← e.desc a) la true n rnd m.ftz m.reuse ts t fmt 0))
    | _ => none
  else if name == "mdrain" then
    match ops with
    | [f, d, t, r, c] => do
      let (hi, rest) ← flag "hi" m.rest
      let (cl, rest) ← flag "clear" rest
      let e8 ← only scaleFmts rest
      let f ← opF f
      let st ← opT t
      let (rs, rv) ← opScale e 2 e8 r
      let (cs, cv) ← opScale e 2 e8 c
      if m.reuse then none else
      match opRun e 64 d with
      | some v => if v.toNat % 8 != 0 then none else
          s64 (some (.mdrain f la true hi e8 rs cs cl m.ftz rnd (v.extractLsb' 3 5) 0 st cv rv))
      | none => s64 (some (.mdrain f la false hi e8 rs cs cl m.ftz rnd 0 (← opT d) st cv rv))
    | _ => none
  else if name == "aset" then
    match ops with
    | [f, t, b] => do
      let f ← opF f
      let (t, n) ← runOf e 't' 32 t
      let b ← opS b
      if !plain || !m.rest.isEmpty then none else
        s64 ((fitU 6 n).map fun n => .aset f b la (BitVec.ofNat 5 t) n)
    | _ => none
  else if name == "cloop" then
    let form (f a b n : List Tok) (rows : Int) : Option Form := do
      let (sp, r) ← flag "split2" m.rest
      let fmt ← only cFmts r
      let n ← (← e.value n) - 1 |> fitU 11
      if !plain || rows % 8 != 0 then none else
      let rg ← fitU 4 (rows / 8 - 1)
      s64 (some (.cloop (← opF f) (← e.desc a) (← e.desc b) la sp n fmt rg))
    match ops with
    | [f, a, b, n] => form f a b n 128
    | [f, a, b, n, r] => (e.value r).bind (form f a b n)
    | _ => none
  else if name == "cdrain" then
    match ops with
    | [f, d, r, c] => do
      let (pairs, rest) ← flag "pairs" m.rest
      let e8 ← only scaleFmts rest
      let (rs, rv) ← opScale e 4 e8 r
      let (cs, cv) ← opScale e 4 e8 c
      if m.reuse then none else s64 (some (.cdrain (← opF f) la pairs e8 rs cs m.ftz rnd (← opT d) cv rv))
    | _ => none
  else if !plain then none
  else if name == "cmerge" then
    match ops with
    | [f] => do if la != 0 || !m.rest.isEmpty then none else s64 (some (.cmerge (← opF f)))
    | _ => none
  else if name == "cspill" then
    match ops with
    | [f, t] => do if la != 0 || !m.rest.isEmpty then none else s64 (some (.cspill (← opF f) (← opT t)))
    | _ => none
  else if name == "itbind" then
    match ops with
    | [f, b, a] => do
      let (base, off) ← e.smem a
      if !m.rest.isEmpty then none else
      let f ← opF f
      let b ← opS b
      s64 ((fitS 32 off).map (.itbind f base b la))
    | _ => none
  else if name == "sched" then
    match ops with
    | [d, a, h] => do
      let (cn, r) ← flag "cancellable" m.rest
      let (pr, r) ← prioFrom r
      if !r.isEmpty then none else s64 (some (.schedScalar (← opS d) (← opS a) la (← e.handler h) pr cn))
    | _ => none
  else if name == "cancel" then
    match ops with
    | [d, a] => do if !m.rest.isEmpty then none else s64 (some (.cancelScalar (← opS d) (← opS a) la))
    | _ => none
  else none

/-- Engine mnemonics, whose rounding and `.ftz` are fields of their own. -/
def engineNames : List String :=
  ["push", "mloop", "mdrain", "aset", "cloop", "cdrain", "cmerge", "cspill", "itbind", "next", "sched", "cancel"]

/-- The conversions of R32. -/
def fcvts : List (List String × (SReg → SReg → Instr)) :=
  [(["f32", "f64"], .fcvtF32F64), (["f64", "f32"], .fcvtF64F32), (["s64", "f64"], .fcvtS64F64), (["n64", "f64"], .fcvtN64F64),
   (["f64", "s64"], .fcvtF64S64), (["f64", "n64"], .fcvtF64N64), (["s64", "f32"], .fcvtS64F32), (["n64", "f32"], .fcvtN64F32),
   (["f32", "s64"], .fcvtF32S64), (["f32", "n64"], .fcvtF32N64)]

/-- A branch on one register. -/
def fbr (e : AsmEnv) (k : BitVec 18 → Instr) (o : List Tok) : Option Form := do
  let v ← e.target o
  s32 ((fitS 18 v).map k)

/-- Mnemonics whose modifiers choose the operation or its format. -/
def formByMods (e : AsmEnv) (name : String) (m : LineMods) (ops : List (List Tok)) : Option Form :=
  let la := m.la.getD 0
  let s64b : Option Bool := only [("s64", true), ("n64", false)] m.rest
  match name with
  | "mulhi" => s64b.bind fun s => f3 (if s then .mulhiS64 else .mulhiN64) ops
  | "div" => s64b.bind fun s => f3 (if s then .divS64 else .divN64) ops
  | "rem" => s64b.bind fun s => f3 (if s then .remS64 else .remN64) ops
  | "min" => s64b.bind fun s => if s then f3i e .minS64 .minS64Imm ops else f3 .minN64 ops
  | "max" => s64b.bind fun s => if s then f3i e .maxS64 .maxS64Imm ops else f3 .maxN64 ops
  | "cmp" => (icondFrom m.rest).bind fun c => f3 (.cmpCc c) ops
  | "fadd" => (only f2s m.rest).bind fun t => f3 (if t == .f64 then .faddF64 else .faddF32) ops
  | "fmul" => (only f2s m.rest).bind fun t => f3 (if t == .f64 then .fmulF64 else .fmulF32) ops
  | "fma" => match ops with
    | [d, a, b, c] => do
      let t ← only f2s m.rest
      let k := if t == .f64 then Instr.fmaF64 else Instr.fmaF32
      s64 (some (k (← opS d) (← opS a) (← opS b) la (← opS c)))
    | _ => none
  | "fcmp" => do
    let (t, r) ← choose f2s m.rest
    let c ← only fconds r
    f3 (if t == .f64 then .fcmpCcF64 c else .fcmpCcF32 c) ops
  | "fcvt" => (fcvts.lookup m.rest).bind fun k => f2 k ops
  | "ld" => fmem e m .ld .ldLong ops
  | "st" => fmem e m .st .stLong ops
  | "ldsp" => fmem e m .ldsp .ldspLong ops
  | "stsp" => fmem e m .stsp .stspLong ops
  | "bfx" => match ops with
    | [d, a, p, n] => do
      s64 (some (.bfx (← s64b) (← opS d) (← opS a) la (← e.imm 6 p) (← e.imm 7 n)))
    | _ => none
  | "b" => match ops with
    | [a, b, t] => do
      let c ← icondFrom m.rest
      let a ← opS a
      let b ← opS b
      let v ← e.target t
      s64 ((fitS 32 v).map (.bCc c a b la))
    | _ => none
  | _ => none

/-- Mnemonics without modifiers of their own. -/
def formPlain (e : AsmEnv) (name : String) (la : BitVec 4) (ops : List (List Tok)) : Option Form :=
  match name with
  | "add" => f3w e la .add .addImm .addLong ops
  | "and" => f3w e la .and .andImm .andLong ops
  | "or" => f3w e la .or .orImm .orLong ops
  | "xor" => f3w e la .xor .xorImm .xorLong ops
  | "mul" => f3i e .mul .mulImm ops
  | "sub" => f3 .sub ops
  | "andn" => f3 .andn ops
  | "shl" => fsh e .shl .shlImm ops
  | "shr" => fsh e .shr .shrImm ops
  | "sar" => fsh e .sar .sarImm ops
  | "mov" => f2 .mov ops
  | "abs" => f2 .abs ops
  | "clz" => f2 .clz ops
  | "popc" => f2 .popc ops
  | "brev" => f2 .brev ops
  | "movi" => match ops with
    | [d, i] => do
      let d ← opS d
      let v ← e.value i
      some { short := some ((fitS 18 v).map (.movi d)), long := some ((fitS 32 v).map (.moviLong d la)) }
    | _ => none
  | "sel" => match ops with
    | [d, a, b, c] => do s64 (some (.sel (← opS d) (← opS a) (← opS b) la (← opS c)))
    | _ => none
  | "bfi" => match ops with
    | [d, a, p, n] => do s64 (some (.bfi (← opS d) (← opS a) la (← e.imm 6 p) (← e.imm 7 n)))
    | _ => none
  | "kand" => k3 .kand ops
  | "kor" => k3 .kor ops
  | "kxor" => k3 .kxor ops
  | "kandn" => k3 .kandn ops
  | "knot" => match ops with
    | [d, a] => do s32 (some (.knot (← opK d) (← opK a)))
    | _ => none
  | "kmov" => match ops with
    | [d, a] => do s32 (some (.kmov (← opK d) (← opK a)))
    | _ => none
  | "kpop" => match ops with
    | [d, a] => do s32 (some (.kpop (← opS d) (← opK a)))
    | _ => none
  | "kffs" => match ops with
    | [d, a] => do s32 (some (.kffs (← opS d) (← opK a)))
    | _ => none
  | "kset" => match ops with
    | [d, a] => do s32 (some (.kset (← opK d) (← opS a)))
    | _ => none
  | "kball" => match ops with
    | [d, p, b] => do s32 (some (.kball (← opK d) (← opP p) (← opK b)))
    | _ => none
  | "sysr" => match ops with
    | [d, n] => do s32 (some (.sysr (← opS d) (← opSys n)))
    | _ => none
  | "sysw" => match ops with
    | [n, a] => do s32 (some (.sysw (← opS a) (← opSys n)))
    | _ => none
  | "trap" => match ops with
    | [c] => do s32 (some (.trap (← e.imm 12 c)))
    | _ => none
  | "brk" => match ops with
    | [c] => do s32 (some (.brk (← e.imm 12 c)))
    | _ => none
  | "lq" => match ops with
    | [n] => do s32 (some (.lq (← e.imm 12 n)))
    | _ => none
  | "br" => match ops with
    | [t] => do
      let v ← e.target t
      s32 ((fitS 24 v).map .br)
    | _ => none
  | "call" => match ops with
    | [t] => do
      let v ← e.target t
      s32 ((fitS 24 v).map .call)
    | _ => none
  | "bz" => match ops with
    | [a, t] => (opS a).bind fun a => fbr e (.bz a) t
    | _ => none
  | "bnz" => match ops with
    | [a, t] => (opS a).bind fun a => fbr e (.bnz a) t
    | _ => none
  | "ball" => match ops with
    | [k, t] => (opK k).bind fun k => fbr e (.ball k) t
    | _ => none
  | "ljmp" => match ops with
    | [t] => s32 ((e.laneTarget t).bind fun v => (fitS 24 v).map .ljmp)
    | _ => none
  | "lcall" => match ops with
    | [t] => s32 ((e.laneTarget t).bind fun v => (fitS 24 v).map .lcall)
    | _ => none
  | "ret" => f0 .ret ops
  | "jmpi" => f1 .jmpi ops
  | "lret" => f0 .lret ops
  | "exit" => f0 .exit ops
  | "nop" => f0 .nop ops
  | "fence.sc" => f0 .fenceSc ops
  | "fence.eng" => f0 .fenceEng ops
  | "fence.fabric" => f0 .fenceFabric ops
  | "bar" => f0 .bar ops
  | "bar.arrive" => f0 .barArrive ops
  | "bar.wait" => f0 .barWait ops
  | "gbar" => f0 .gbar ops
  | "waitp.ld" => f1 .waitpLd ops
  | "waitp.st" => f1 .waitpSt ops
  | "waitp.sp" => f1 .waitpSp ops
  | "waitp.ga" => f1 .waitpGa ops
  | "ftest" => match ops with
    | [d, f] => do s32 (some (.ftest (← opS d) (← opF f)))
    | _ => none
  | "fwait" => match ops with
    | [d, f] => do s32 (some (.fwait (← opS d) (← opF f)))
    | _ => none
  | "fcancel" => match ops with
    | [d, f] => do s32 (some (.fcancel (← opS d) (← opF f)))
    | _ => none
  | "fget" => match ops with
    | [d, f] => do s32 (some (.fget (← opS d) (← opF f)))
    | _ => none
  | "fput" => match ops with
    | [f, a] => do s32 (some (.fput (← opF f) (← opS a)))
    | _ => none
  | "swait" => f3 .swait ops
  | "sdone" => match ops with
    | [a, b] => do s32 (some (.sdone 0 (← opS a) (← opS b)))
    | [a, b, d] => do s32 (some (.sdone (← opS d) (← opS a) (← opS b)))
    | _ => none
  | "cclear" => f0 .cclear ops
  | "enough" => f1 .enough ops
  | "itfree" => f1 .itfree ops
  | _ => none

/-- Mnemonics read by `formByMods`. -/
def modNames : List String :=
  ["mulhi", "div", "rem", "min", "max", "cmp", "fadd", "fmul", "fma", "fcmp", "fcvt", "ld", "st", "ldsp", "stsp", "bfx", "b"]

/-- `next`, with the mask of its `in` (R215). -/
def nextForm (m : LineMods) (ops : List (List Tok)) (k : KReg) : Option Form :=
  let la := m.la.getD 0
  let form (f vd pd ph it : List Tok) (sc : SReg) : Option Form := do
    if m.rnd.isSome || m.ftz || m.reuse || !m.rest.isEmpty then none else
    s64 (some (.drvNext (← opF f) (← opS it) k la (← opV vd) (← opP pd) (← opP ph) sc))
  match ops with
  | [f, vd, pd, ph, it] => form f vd pd ph it 0
  | [f, vd, pd, ph, it, sc] => (opS sc).bind (form f vd pd ph it)
  | _ => none

/-- The forms of a scalar line's instruction, and the modifier fields that a prefix of its own would carry. -/
def scalarForm (e : AsmEnv) (name : String) (m : LineMods) (ops : List (List Tok)) (guard : List Tok) : Option Form :=
  if m.h then none
  else if name == "next" then
    if m.sat then none else
    match guard with
    | [] => nextForm m ops 0
    | [.id "in", .id k] => (opK [.id k]).bind (nextForm m ops)
    | _ => none
  else if !guard.isEmpty then none
  else if engineNames.contains name then (if m.sat then none else engineForm e name m ops)
  else if m.reuse then none
  else if modNames.contains name then formByMods e name m ops
  else if m.rest.isEmpty then formPlain e name (m.la.getD 0) ops
  else none

/-! ### Lane lines (R105 to R128, R168 to R191, R246, R289 to R298) -/

/-- A guard: predicate, its negation, and the mask (R51). -/
def readGuard : List Tok → Option (PReg × Bool × KReg)
  | [] => some (15, false, 0)
  | [.id "in", .id k] => do some (15, false, ← opK [.id k])
  | [.id "if", .id p] => do some (← opP [.id p], false, 0)
  | [.id "if", .p '!', .id p] => do some (← opP [.id p], true, 0)
  | [.id "if", .id p, .id "in", .id k] => do some (← opP [.id p], false, ← opK [.id k])
  | _ => none

/-- Two, three and four lane registers. -/
def v2 (k : VReg → VReg → Instr) : List (List Tok) → Option Instr
  | [d, a] => do some (k (← opV d) (← opV a))
  | _ => none
def v3 (k : VReg → VReg → VReg → Instr) : List (List Tok) → Option Instr
  | [d, a, b] => do some (k (← opV d) (← opV a) (← opV b))
  | _ => none
def v4 (k : VReg → VReg → VReg → VReg → Instr) : List (List Tok) → Option Instr
  | [d, a, b, c] => do some (k (← opV d) (← opV a) (← opV b) (← opV c))
  | _ => none
def p3 (k : PReg → PReg → PReg → Instr) : List (List Tok) → Option Instr
  | [d, a, b] => do some (k (← opP d) (← opP a) (← opP b))
  | _ => none

/-- Whether the common modifiers of a line are among those that an opcode takes (R41). -/
def LineMods.within (m : LineMods) (rnd sat ftz reuse : Bool) : Bool :=
  (rnd || m.rnd.isNone) && (sat || !m.sat) && (ftz || !m.ftz) && (reuse || !m.reuse) && !m.long

/-- Integer, logic, compare, predicate and move words. -/
def laneInt (e : AsmEnv) (name : String) (h : LaneHdr) (m : LineMods) (ops : List (List Tok)) : Option Instr :=
  let ity := only iTys m.rest
  let s32 := only [("s32", ())] m.rest
  let b32 := only [("b32", ())] m.rest
  let sat := m.within false true false false
  let no := m.within false false false false
  let r := only raw64 m.rest
  match name with
  | "iadd" => if sat then ity.bind fun t => v3 (.iadd h t m.sat) ops else none
  | "isub" => if sat then ity.bind fun t => v3 (.isub h t m.sat) ops else none
  | "imul" => if no then ity.bind fun t => v3 (.imul h t) ops else none
  | "imulhi" => if no then ity.bind fun t => v3 (.imulhi h t) ops else none
  | "imad" => if sat then ity.bind fun t => v4 (.imad h t m.sat) ops else none
  | "iabs" => if sat then s32.bind fun _ => v2 (.iabs h m.sat) ops else none
  | "imin" => if no then ity.bind fun t => v3 (.imin h t) ops else none
  | "imax" => if no then ity.bind fun t => v3 (.imax h t) ops else none
  | "and" => if no then b32.bind fun _ => v3 (.laneAnd h) ops else none
  | "or" => if no then b32.bind fun _ => v3 (.laneOr h) ops else none
  | "xor" => if no then b32.bind fun _ => v3 (.laneXor h) ops else none
  | "bmux" => match ops with
    | [d, a, b, c, t] => do
      let t ← (e.value t).bind (fitRaw 8)
      if no && b32.isSome then v4 (fun d a b c => .bmux h d a b c t) [d, a, b, c] else none
    | _ => none
  | "shl" => if no then b32.bind fun _ => v3 (.laneShl h) ops else none
  | "shr" => if no then b32.bind fun _ => v3 (.laneShr h) ops else none
  | "sar" => if no then s32.bind fun _ => v3 (.laneSar h) ops else none
  | "iadd64" => if no && m.rest == ["b64"] then v3 (.iadd64 h) ops else none
  | "bfx" => match ops with
    | [d, a, p, n] => do
      let t ← ity
      if !no then none else some (.laneBfx h t (← opV d) (← opV a) (← e.imm 5 p) (← e.imm 6 n))
    | _ => none
  | "bfi" => match ops with
    | [d, a, p, n] => do
      if !no || b32.isNone then none else some (.laneBfi h (← opV d) (← opV a) (← e.imm 5 p) (← e.imm 6 n))
    | _ => none
  | "popc" => if no then b32.bind fun _ => v2 (.lanePopc h) ops else none
  | "clz" => if no then b32.bind fun _ => v2 (.laneClz h) ops else none
  | "brev" => if no then b32.bind fun _ => v2 (.laneBrev h) ops else none
  | "icmp" => match ops with
    | [d, a, b] => do
      let (t, rest) ← choose icmpTys m.rest
      let c ← only lconds rest
      if !no then none else some (.icmpCc h t c (← opP d) (← opV a) (← opV b))
    | _ => none
  | "fcmp" => match ops with
    | [d, a, b] => do
      let (t, rest) ← choose f2s m.rest
      let c ← only fconds rest
      if !no then none else some (.fcmpCc h t c (← opP d) (← opV a) (← opV b))
    | _ => none
  | "pand" => if no && m.rest.isEmpty then p3 (.pand h) ops else none
  | "por" => if no && m.rest.isEmpty then p3 (.por h) ops else none
  | "pxor" => if no && m.rest.isEmpty then p3 (.pxor h) ops else none
  | "pnot" => match ops with
    | [d, a] => do if !no || !m.rest.isEmpty then none else some (.pnot h (← opP d) (← opP a))
    | _ => none
  | "pmov" => match ops with
    | [d, a] =>
      if !no || !m.rest.isEmpty then none
      else if a == [.id "pall"] then (opV d).map (.pmovToVreg h)
      else if d == [.id "pall"] then (opV a).map (.pmovAll h)
      else match opP d, opP a, opV a with
        | some d, some a, _ => some (.pmov h d a)
        | some d, none, some a => some (.pmovFromVreg h d a)
        | _, _, _ => none
    | _ => none
  | "sel" => match ops with
    | [d, a, b, c] => do if !no then none else some (.laneSel h (← r) (← opV d) (← opV a) (← opV b) (← opP c))
    | _ => none
  | "mov" => if no then r.bind fun w => v2 (.laneMov h w) ops else none
  | "movi" => match ops with
    | [d, i] => do
      let v ← e.value i
      if !no || b32.isNone then none else some (.laneMovi h (← opV d) (← fitRaw 32 v))
    | _ => none
  | "evinfo" => match ops with
    | [d] => do
      let it ← only evItems m.rest
      if !no then none else some (.evinfo h it (← opRegs e (if it.wide then 2 else 1) d))
    | _ => none
  | _ => none

/-- Floating-point words, dot products and conversion. -/
def laneFloat (e : AsmEnv) (name : String) (h : LaneHdr) (m : LineMods) (ops : List (List Tok)) : Option Instr :=
  let rnd := m.rnd.getD .rn
  let ar := m.within true false true false
  let no := m.within false false false false
  let fty := only fTys m.rest
  let f2 := only f2s m.rest
  let f32 := only [("f32", ())] m.rest
  match name with
  | "fadd" => if ar then fty.bind fun t => v3 (.fadd h t rnd m.ftz) ops else none
  | "fsub" => if ar then fty.bind fun t => v3 (.fsub h t rnd m.ftz) ops else none
  | "fmul" => if ar then fty.bind fun t => v3 (.fmul h t rnd m.ftz) ops else none
  | "fma" => if ar then fty.bind fun t => v4 (.fma h t rnd m.ftz) ops else none
  | "fmin.num" => if no then fty.bind fun t => v3 (.fminNum h t) ops else none
  | "fmin.nan" => if no then fty.bind fun t => v3 (.fminNan h t) ops else none
  | "fmax.num" => if no then fty.bind fun t => v3 (.fmaxNum h t) ops else none
  | "fmax.nan" => if no then fty.bind fun t => v3 (.fmaxNan h t) ops else none
  | "frcp" => if no then f2.bind fun t => v2 (.frcp h t) ops else none
  | "fsqrt" => if no then f2.bind fun t => v2 (.fsqrt h t) ops else none
  | "frsq" => if no then f32.bind fun _ => v2 (.frsq h) ops else none
  | "fex2" => if no then f32.bind fun _ => v2 (.fex2 h) ops else none
  | "flg2" => if no then f32.bind fun _ => v2 (.flg2 h) ops else none
  | "fsin" => if no then f32.bind fun _ => v2 (.fsin h) ops else none
  | "fcos" => if no then f32.bind fun _ => v2 (.fcos h) ops else none
  | "fdot16" => match ops with
    | [d, a, b, c] => do
      let e5 ← only [("e4m3", false), ("e5m2", true)] m.rest
      if !m.within true false true true then none else
      some (.fdot16 h e5 rnd m.reuse m.ftz (← opV d) (← opRun e 4 a) (← opRun e 4 b) (← opV c))
    | _ => none
  | "ddot16" => match ops with
    | [d, a, b, c] => do
      if !m.within true false true true || m.rest != ["ds8"] then none else
      some (.ddot16 h rnd m.reuse m.ftz (← opV d) (← opRun e 4 a) (← opRun e 4 b) (← opV c))
    | _ => none
  | "idot4" => if m.within false true false false then (only iTys m.rest).bind fun t => v4 (.idot4 h t m.sat) ops else none
  | "scacc" => if !m.within true false false false then none else
    match m.rest, ops with
    | ["f32"], [d, a, b, c] => do some (.scacc h false rnd (← opV d) (← opV a) (← opRun e 2 b) (← opV c) 0 0)
    | ["e8m0"], [d, a, b, c, x, y] => do
      some (.scacc h true rnd (← opV d) (← opV a) (← opV b) (← opV c) (← e.imm 2 x) (← e.imm 2 y))
    | _, _ => none
  | "cvt" => if !m.within true true false false then none else
    match m.rest, ops with
    | [x, y], d :: a :: el => do
      let dst ← lTys.lookup x
      let src ← lTys.lookup y
      let d ← opV d
      match cvtShape dst src, el with
      | some (.pack _ n), [] => do some (.cvt h dst src rnd m.sat d (← opRun e n a) 0)
      | some .whole, [] => do some (.cvt h dst src rnd m.sat d (← opV a) 0)
      | some .both, [] => do some (.cvt h dst src rnd m.sat d (← opV a) 0)
      | some (.elem _), [i] => do some (.cvt h dst src rnd m.sat d (← opV a) (← e.imm 3 i))
      | some (.pair _), [i] => do some (.cvt h dst src rnd m.sat d (← opV a) (← e.imm 3 i))
      | _, _ => none
    | _, _ => none
  | _ => none

/-- Exchange and scan words. -/
def laneX (e : AsmEnv) (name : String) (h : LaneHdr) (m : LineMods) (ops : List (List Tok)) : Option Instr :=
  let no := m.within false false false false
  let r := only raw64 m.rest
  let wide (k : Bool → XWidth → Option Instr) : Option Instr := do
    if !no then none else
    let (w, rest) ← choose raw64 m.rest
    if rest.isEmpty then k w .w32 else k w (← only xWidths rest)
  let dist (k : Bool → XWidth → VReg → VReg → BitVec 5 → Instr) : Option Instr :=
    match ops with
    | [d, a, n] => wide fun w s => do some (k w s (← opV d) (← opV a) (← e.imm 5 n))
    | _ => none
  match name with
  | "qswap.h" => if no then r.bind fun w => v2 (.qswapH h w) ops else none
  | "qswap.v" => if no then r.bind fun w => v2 (.qswapV h w) ops else none
  | "qswap.d" => if no then r.bind fun w => v2 (.qswapD h w) ops else none
  | "qbcast" => match ops with
    | [d, a, n] => do if !no then none else some (.qbcast h (← r) (← opV d) (← opV a) (← e.imm 2 n))
    | _ => none
  | "xlane.pick" => wide fun w s => v3 (.xlanePick h w s) ops
  | "xlane.lift" => dist (.xlaneLift h)
  | "xlane.drop" => dist (.xlaneDrop h)
  | "xlane.mirror" => dist (.xlaneMirror h)
  | "scan" => do
    let (x, rest) ← flag "excl" m.rest
    let (t, rest) ← choose scanTys rest
    let o ← only scanOps rest
    if no then v2 (.scan h t o x) ops else none
  | "sscan" => match ops with
    | [d, a, c] => do
      let (x, rest) ← flag "excl" m.rest
      let (t, rest) ← choose scanTys rest
      let o ← only scanOps rest
      if no then some (.sscan h t o x (← opV d) (← opV a) (← opP c)) else none
    | _ => none
  | "sred" => match ops with
    | [d, a, b, c] => do
      let (t, rest) ← choose scanTys m.rest
      let o ← only scanOps rest
      if no then some (.sred h t o (← opV d) (← opV a) (← opP b) (← opP c)) else none
    | _ => none
  | _ => none

/-- A lane access. -/
def laneAccess (e : AsmEnv) (m : LineMods) (k : MTy → VReg → LaneAddr → Instr) : List (List Tok) → Option Instr
  | [d, a] => do some (k (← only mTys m.rest) (← opV d) (← e.lmem a))
  | _ => none

/-- Operation, scope and type of an atomic, `.device` when no scope is written (R191). -/
def atomMods (rest : List String) : Option (AOp × Scope × ATy) := do
  let (t, rest) ← choose aTys rest
  let (o, rest) ← choose aOps rest
  if rest.isEmpty then some (o, .device, t) else some (o, ← only scopes rest, t)

/-- Memory, atomic, event and tile words. -/
def laneMem (e : AsmEnv) (name : String) (h : LaneHdr) (m : LineMods) (ops : List (List Tok)) : Option Instr :=
  if !m.within false false false false then none else
  match name with
  | "ld.g" => laneAccess e m (.ldG h) ops
  | "st.g" => laneAccess e m (.stG h) ops
  | "ld.s" => laneAccess e m (.ldS h) ops
  | "st.s" => laneAccess e m (.stS h) ops
  | "cp.gs" => laneAccess e m (.cpGs h) ops
  | "ldx" => laneAccess e m (.ldx h) ops
  | "stx" => laneAccess e m (.stx h) ops
  | "atom" => do
    let (o, s, t) ← atomMods m.rest
    match ops, o == .cas with
    | [d, a, x], false => do some (.atom h t o s (← opV d) (← opV a) 0 (← e.lmem x))
    | [d, a, c, x], true => do some (.atom h t o s (← opV d) (← opV a) (← opV c) (← e.lmem x))
    | _, _ => none
  | "red" => do
    let (o, s, t) ← atomMods m.rest
    match ops, o == .cas with
    | [a, x], false => do some (.red h t o s (← opV a) 0 (← e.lmem x))
    | [a, c, x], true => do some (.red h t o s (← opV a) (← opV c) (← e.lmem x))
    | _, _ => none
  | "sched" => match ops with
    | [d, a, b, hd] => do
      let (cn, r) ← flag "cancellable" m.rest
      let (pr, r) ← prioFrom r
      if !r.isEmpty then none else some (.sched h (← opRun e 2 d) (← opRun e 10 a) (← opRun e 4 b) (← e.handler hd) pr cn)
    | _ => none
  | "cancel" => match ops with
    | [d, a] => do if !m.rest.isEmpty then none else some (.cancel h (← opV d) (← opRun e 2 a))
    | _ => none
  | "acpy.ar" => match ops with
    | [d, t, c] => do
      let (hi, r) ← flag "hi" m.rest
      let (v, n) ← runOf e 'v' 256 d
      if !r.isEmpty then none else some (.acpyAr h (BitVec.ofNat 8 v) (← fitU 7 n) (← e.imm 6 c) hi (← opT t))
    | _ => none
  | "acpy.ra" => match ops with
    | [t, c, a] => do
      let (hi, r) ← flag "hi" m.rest
      let (v, n) ← runOf e 'v' 256 a
      if !r.isEmpty then none else some (.acpyRa h (BitVec.ofNat 8 v) (← fitU 7 n) (← e.imm 6 c) hi (← opT t))
    | _ => none
  | _ => none

/-- The instruction of a lane line; none refuses it. -/
def laneLine (e : AsmEnv) (mn : String) (ops : List (List Tok)) (guard : List Tok) : Option Instr := do
  let (name, m) ← readMnemonic true mn
  let (p, neg, k) ← readGuard guard
  let h : LaneHdr := ⟨p, neg, k, m.h, m.la.getD 0⟩
  let i := [laneInt e name h m ops, laneFloat e name h m ops, laneX e name h m ops, laneMem e name h m ops].findSome? id
  i.filter fun i => i.wf

/-! ### Sections (R428, R429) -/

/-- A statement of a section. -/
inductive Stmt where
  | empty
  | align (n : Nat)
  | word (o : List Tok)
  | pfx (m : LineMods)
  | rep (w : Word32)
  | ins (mn : String) (ops : List (List Tok)) (guard : List Tok)
deriving DecidableEq, Repr, Inhabited

/-- A line of a section: its label, its statement, and what resolving has made of it: the S64 form, and the `nop` after it. -/
structure Line where
  label : Option String
  stmt : Stmt
  wide : Bool := false
  pad : Bool := false
deriving DecidableEq, Repr, Inhabited

/-- Directives of a handler as given (R429). -/
structure HDir where
  regs : Option Nat := none
  scratch : Option Nat := none
  carve : Option Nat := none
  band : Option Nat := none
  gang : Option (Nat × Bool) := none
  tiles : Option Nat := none
  counts : Bool := false
deriving DecidableEq, Repr, Inhabited

/-- A handler as read. -/
structure HSrc where
  name : String
  id : Nat
  prio : BitVec 2
  dir : HDir := {}
  scalar : Option (List Line) := none
  lane : Option (List Line) := none
deriving DecidableEq, Repr, Inhabited

/-- What has been read: lists grow at the front. `data` lines carry the handler whose labels they see. -/
structure Src where
  lookahead : Option Nat := none
  consts : List (String × Int) := []
  done : List HSrc := []
  cur : Option HSrc := none
  sec : Option Sec := none
  data : List (String × Line) := []
  pend : List Bool := []
  ended : Bool := false
deriving Repr, Inhabited

/-- A constant or a number, as directives take. -/
def Src.num (s : Src) (o : List Tok) : Option Int := AsmEnv.value { consts := s.consts } o

/-- A directive's value within its limits. -/
def Src.lim (s : Src) (lo hi : Nat) (o : List Tok) : Option Nat :=
  (s.num o).bind fun v => if (lo : Int) ≤ v && v ≤ hi then some v.toNat else none

/-- Opens a handler. -/
def Src.handler (s : Src) (ops : List (List Tok)) : Option Src := do
  let hs := s.cur.toList ++ s.done
  let auto := hs.foldl (fun n h => max n (h.id + 1)) 0
  let mk (name : String) (id : Nat) (p : BitVec 2) : Option Src :=
    if 65535 < id || (hs.any fun h => h.id == id || h.name == name) || name.startsWith "." then none
    else some { s with done := hs, cur := some { name := name, id := id, prio := p }, sec := none }
  let prio : List Tok → Option (BitVec 2)
    | [.id p] => ([(".pri0", 0), (".pri1", 1), (".pri2", 2), (".pri3", 3)] : List (String × BitVec 2)).lookup p
    | _ => none
  match ops with
  | [[.id n]] => mk n auto 0
  | [[.id n], o] => match prio o with
    | some p => mk n auto p
    | none => (s.lim 0 65535 o).bind fun i => mk n i 0
  | [[.id n], o, p] => do mk n (← s.lim 0 65535 o) (← prio p)
  | _ => none

/-- A handler directive (R429). -/
def Src.hdir (s : Src) (name : String) (ops : List (List Tok)) (d : HDir) : Option HDir :=
  match name, ops with
  | ".regs", [o] => if d.regs.isSome then none else (s.lim 1 256 o).map fun n => { d with regs := some n }
  | ".scratch", [o] => if d.scratch.isSome then none else (s.lim 0 3669248 o).map fun n => { d with scratch := some n }
  | ".carve", [o] => if d.carve.isSome then none else (s.lim 0 4 o).map fun n => { d with carve := some n }
  | ".band", [o] => if d.band.isSome then none else (s.lim 1 16 o).map fun n => { d with band := some n }
  | ".tiles", [o] => if d.tiles.isSome then none else (s.lim 0 32 o).map fun n => { d with tiles := some n }
  | ".gang", [o, [.id l]] => if d.gang.isSome then none else do
      let far ← [(".near", false), (".far", true)].lookup l
      (s.lim 2 8 o).map fun n => { d with gang := some (n, far) }
  | ".counts", [] => if d.counts then none else some { d with counts := true }
  | _, _ => none

def handlerDirs : List String := [".regs", ".scratch", ".carve", ".band", ".gang", ".tiles", ".counts"]

/-- Opens a section of the current handler; code sections open once. -/
def Src.openSec (s : Src) (k : Sec) (c : HSrc) : Option Src :=
  match k with
  | .scalar => if c.scalar.isSome then none else some { s with cur := some { c with scalar := some [] }, sec := some k }
  | .lane => if c.lane.isSome then none else some { s with cur := some { c with lane := some [] }, sec := some k }
  | .data => some { s with sec := some k }

/-- Adds a line to the open section. A prefix line takes only an instruction line, or a prefix of the other kind, next. -/
def Src.put (s : Src) (k : Sec) (c : HSrc) (l : Line) : Option Src :=
  let kind : Option Bool := match l.stmt with
    | .pfx _ => some false
    | .rep _ => some true
    | _ => none
  let isIns := match l.stmt with
    | .ins _ _ _ => true
    | _ => false
  if !s.pend.isEmpty && kind.isNone && !isIns then none
  else if kind.any s.pend.contains then none
  else
    let pend := match kind with
      | some b => b :: s.pend
      | none => []
    match k with
    | .scalar => some { s with cur := some { c with scalar := c.scalar.map (l :: ·) }, pend := pend }
    | .lane => if kind.isSome then none else some { s with cur := some { c with lane := c.lane.map (l :: ·) }, pend := pend }
    | .data => if kind.isSome || isIns then none else some { s with data := (c.name, l) :: s.data, pend := pend }

/-- The prefix word of a `rep` line. -/
def Src.repWord (s : Src) (ops : List (List Tok)) : Option Word32 :=
  match ops with
  | [c, d, a, b, t] => do
    let c ← fitU 8 ((← s.num c) - 1)
    some (encRep c (← (s.num d).bind (fitU 2)) (← (s.num a).bind (fitU 2)) (← (s.num b).bind (fitU 2)) (← (s.num t).bind (fitS 12)))
  | _ => none

/-- Whether an alignment is a power of two from 4 to 4,096. -/
def alignOk (n : Nat) : Bool := (List.range 11).any fun k => n == 2 ^ (k + 2)

/-- The statement of a line inside a section. -/
def Src.stmt (s : Src) (k : Sec) (name : String) (args : List Tok) : Option Stmt :=
  let ops := operandsOf args
  if name == ".align" then
    match ops with
    | [o] => (s.num o).bind fun v => if k != .lane && 0 ≤ v && alignOk v.toNat then some (.align v.toNat) else none
    | _ => none
  else if name == ".word" then
    match ops with
    | [o] => some (.word o)
    | _ => none
  else if name.startsWith "." then none
  else if k == .scalar && name == "rep" then (s.repWord ops).map .rep
  else if k == .scalar && (dotParts name).head? == some "pfx" then
    (readMods (dotParts name).tail {}).bind fun m =>
      if args.isEmpty && m.rest.isEmpty && !m.reuse && !m.h && !m.long && m.la.isNone && m.rnd != some .rs then some (.pfx m)
      else none
  else
    let isG : Tok → Bool := fun t => t == .id "if" || t == .id "in"
    some (.ins name (operandsOf (args.takeWhile fun t => !isG t)) (args.dropWhile fun t => !isG t))

/-- One line of the source; none refuses it. -/
def Src.line (s : Src) (ts : List Tok) : Option Src :=
  if ts.isEmpty then some s
  else if s.ended then none
  else
    let (label, rest) := match ts with
      | .id n :: .p ':' :: r => (some n, r)
      | _ => (none, ts)
    match label, rest, s.cur with
    | none, .id ".lookahead" :: a, none =>
      if s.lookahead.isSome then none else (s.lim 0 (2 ^ 64 - 1) a).map fun n => { s with lookahead := some n }
    | none, .id ".entity" :: a, _ =>
      if s.sec.isSome then none else
      match operandsOf a with
      | [[.id n], o] => if (s.consts.lookup n).isSome || n.startsWith "." then none else
          (s.lim 0 (2 ^ 32 - 1) o).map fun v => { s with consts := (n, (v : Int)) :: s.consts }
      | _ => none
    | none, .id ".handler" :: a, _ => if s.pend.isEmpty then s.handler (operandsOf a) else none
    | none, [.id ".end"], some _ => if s.pend.isEmpty then some { s with ended := true } else none
    | none, [.id ".scalar"], some c => if s.pend.isEmpty then s.openSec .scalar c else none
    | none, [.id ".lane"], some c => if s.pend.isEmpty then s.openSec .lane c else none
    | none, [.id ".data"], some c => if s.pend.isEmpty then s.openSec .data c else none
    | label, rest, some c =>
      match s.sec, rest with
      | none, .id n :: a =>
        if label.isSome || !handlerDirs.contains n then none else
        (s.hdir n (operandsOf a) c.dir).map fun d => { s with cur := some { c with dir := d } }
      | some k, .id n :: a =>
        if label.any fun l => l.startsWith "." then none else
        (s.stmt k n a).bind fun st => s.put k c ⟨label, st, false, false⟩
      | some k, [] => if label.any fun l => l.startsWith "." then none else s.put k c ⟨label, .empty, false, false⟩
      | _, _ => none
    | _, _, _ => none

/-- Reads all lines. -/
def readSrc : List (List Char) → Src → Option Src
  | [], s => if s.pend.isEmpty then some s else none
  | l :: r, s => (lexLine (l.length + 1) l).bind fun ts => (s.line ts).bind (readSrc r)

/-! ### Layout and labels (R431) -/

/-- What a prefix on earlier lines gives the next instruction: whether a modifier prefix stands, its fields, and whether `rep`. -/
structure Pend where
  mods : Option LineMods := none
deriving Repr, Inhabited

/-- Whether a scalar instruction line emits a modifier prefix of its own (R52, R90). -/
def ownPrefix (name : String) (m : LineMods) (pend : Option LineMods) : Bool :=
  pend.isNone && !engineNames.contains name && (m.sat || m.ftz || (m.rnd.getD .rn) != .rn)

/-- The name and modifiers of an instruction line. -/
def Stmt.mnemonic (s : Stmt) (lane : Bool) : Option (String × LineMods) :=
  match s with
  | .ins mn _ _ => readMnemonic lane mn
  | _ => none

/-- Bytes of a line at an offset. -/
def Line.size (l : Line) (k : Sec) (off : Nat) (pend : Option LineMods) : Nat :=
  match l.stmt with
  | .empty => 0
  | .align n => (n - off % n) % n
  | .word _ | .pfx _ | .rep _ => 4
  | .ins _ _ _ =>
    if k == .lane then 12 else
      let own := match l.stmt.mnemonic false with
        | some (n, m) => ownPrefix n m pend
        | none => false
      (if own then 4 else 0) + (if l.wide then 8 else 4) + (if l.pad then 4 else 0)

/-- The modifier prefix that stands before the next line. -/
def Line.pendAfter (l : Line) (pend : Option LineMods) : Option LineMods :=
  match l.stmt with
  | .pfx m => some m
  | .rep _ => pend
  | _ => none

/-- The lines of a section with their offsets and the modifier prefix before each. -/
def placed (k : Sec) : List Line → Nat → Option LineMods → List (Nat × Option LineMods × Line)
  | [], _, _ => []
  | l :: r, off, pend => (off, pend, l) :: placed k r (off + l.size k off pend) (l.pendAfter pend)

/-- Labels of a placed section. A label on a line that emits no word names the offset where the next line begins (assumption 89). -/
def labelsOf (k : Sec) (ps : List (Nat × Option LineMods × Line)) : List Label :=
  ps.filterMap fun x => x.2.2.label.map fun n => ⟨n, k, x.1⟩

/-- The instruction of a scalar line: its own word's offset and its forms. -/
def lineForm (e : AsmEnv) (off : Nat) (pend : Option LineMods) (l : Line) : Option (String × LineMods × Form) :=
  match l.stmt with
  | .ins mn ops g => do
    let (n, m) ← readMnemonic false mn
    let pc := if ownPrefix n m pend then off + 4 else off
    let f ← scalarForm { e with pc := pc } n m ops g
    some (n, m, f)
  | _ => none

/-- Whether a line must take its S64 form (R52). -/
def wantsLong (m : LineMods) (f : Form) : Bool :=
  m.long || m.la.any (fun x => x != 0) || f.short.isNone || (f.short == some none && f.long.any Option.isSome)

/-- Starts a line in its shortest allowed form: the environments know every label, so that a line without a short form is seen to
have none; the first of them whose labels fit the line decides. -/
def Line.start (es : List AsmEnv) (l : Line) : Line :=
  match es.findSome? fun e => lineForm e 0 none l with
  | some (_, m, f) => { l with wide := m.long || m.la.any (fun x => x != 0) || f.short.isNone }
  | none => l

/-- Widens the lines that do not fit, and pads an S64 instruction whose second word reads as a prefix before a label (R30). -/
def widen (e : AsmEnv) (ls : List (Nat × Option LineMods × Line)) : List Line :=
  let marks := (e.labels.filter fun l => l.sec == .scalar).map (·.off)
  ls.map fun (off, pend, l) =>
    match lineForm e off pend l with
    | none => l
    | some (_, m, f) =>
      let wide := l.wide || wantsLong m f
      let second : Option Word32 := match wide, f.long with
        | true, some (some i) => ((encode i).getD []).getLast?
        | _, _ => none
      let stop := off + { l with pad := false }.size .scalar off pend
      { l with wide := wide,
               pad := l.pad || (second.any fun w => w.extractLsb' 30 2 == 2) && marks.contains stop }

/-- Lays out and widens a scalar section until nothing changes. -/
def settleLines (mk : List Label → AsmEnv) : Nat → List Line → List Line
  | 0, ls => ls
  | fuel + 1, ls =>
    let ps := placed .scalar ls 0 none
    let ls' := widen (mk (labelsOf .scalar ps)) ps
    if ls' == ls then ls else settleLines mk fuel ls'

/-! ### The lane PC along scalar paths (R143) -/

/-- Where control goes from a line, and the lane PC there: none is not reached, `some none` is unknown. -/
abbrev LanePC := Option (Option Nat)

def joinPC (a b : LanePC) : LanePC :=
  match a, b with
  | none, x => x
  | x, none => x
  | some x, some y => some (if x == y then x else none)

/-- The branches of one line from its lane PC: whether control falls through and with what, and the offsets it jumps to. -/
def flow (e : AsmEnv) (labels : List Nat) (off : Nat) (pend : Option LineMods) (l : Line) (pc : Option Nat) :
    LanePC × List (Nat × Option Nat) :=
  match l.stmt with
  | .word _ => (some none, [])
  | .ins mn ops _ =>
    match readMnemonic false mn with
    | none => (none, [])
    | some (n, m) =>
      let at_ := if ownPrefix n m pend then off + 4 else off
      let e := { e with pc := at_, lpc := pc }
      let tgt (o : List Tok) : List (Nat × Option Nat) :=
        match e.target o with
        | some v => if 0 ≤ (at_ : Int) + 4 * v then [(((at_ : Int) + 4 * v).toNat, pc)] else []
        | none => []
      let steer (o : List Tok) : Option Nat :=
        match o with
        | [.id x] => match e.label x with
          | some l => if l.sec == .lane then some l.off else none
          | none => (e.value o).bind fun v => pc.bind fun p => if 0 ≤ (p : Int) + 12 * v then some ((p : Int) + 12 * v).toNat else none
        | _ => (e.value o).bind fun v => pc.bind fun p => if 0 ≤ (p : Int) + 12 * v then some ((p : Int) + 12 * v).toNat else none
      match n, ops with
      | "lq", [o] => (some (pc.bind fun p => (e.value o).map fun v => p + 12 * v.toNat), [])
      | "ljmp", [o] => (some (steer o), [])
      | "lcall", [o] => (some (steer o), [])
      | "lret", _ => (some none, [])
      | "br", [o] => (none, tgt o)
      | "call", [o] => (some none, tgt o)
      | "bz", [_, o] => (some pc, tgt o)
      | "bnz", [_, o] => (some pc, tgt o)
      | "ball", [_, o] => (some pc, tgt o)
      | "b", [_, _, o] => (some pc, tgt o)
      | "jmpi", _ => (none, labels.map fun x => (x, none))
      | "ret", _ => (none, [])
      | "exit", _ => (none, [])
      | _, _ => (some pc, [])
  | _ => (some pc, [])

/-- One sweep over the lines: each line's lane PC joined with what its predecessors give. -/
def sweep (e : AsmEnv) (ps : List (Nat × Option LineMods × Line)) (ins : List LanePC) : List LanePC :=
  let labels := (e.labels.filter fun l => l.sec == .scalar).map (·.off)
  let outs := (ps.zip ins).map fun (x, pc) => match pc with
    | none => ((none, []) : LanePC × List (Nat × Option Nat))
    | some v => flow e labels x.1 x.2.1 x.2.2 v
  let jumps := outs.flatMap (·.2)
  let falls : List LanePC := some (some 0) :: outs.map (·.1)
  ((ps.zip ins).zip falls).zipIdx.map fun (((x, pc), f), i) =>
    -- the first line is entered with the lane section's start
    let fall := if i = 0 then some (some 0) else f
    jumps.foldl (fun a j => if j.1 == x.1 then joinPC a (some j.2) else a) (joinPC pc fall)

def lanePCs (e : AsmEnv) (ps : List (Nat × Option LineMods × Line)) : Nat → List LanePC → List LanePC
  | 0, ins => ins
  | fuel + 1, ins => let ins' := sweep e ps ins
    if ins' == ins then ins else lanePCs e ps fuel ins'

/-! ### Emitting -/

def wordBytes (w : Word32) : List Byte := leBytes 4 w.toNat

/-- The bytes of one scalar line; none refuses it. -/
def emitScalar (e : AsmEnv) (off : Nat) (pend : Option LineMods) (next : Option (String × LineMods)) (l : Line) :
    Option (List Byte) :=
  match l.stmt with
  | .empty => some []
  | .align n => some ((List.replicate (((n - off % n) % n) / 4) (wordBytes 0x04000004)).flatten)
  | .word o => (e.value o).bind fun v => (fitRaw 32 v).map wordBytes
  | .rep w => some (wordBytes w)
  | .pfx m =>
    -- merged with the modifiers of the instruction line it stands before (R90)
    match next with
    | none => none
    | some (n, x) =>
      if (m.rnd.isSome && x.rnd.isSome) || (m.sat && x.sat) || (m.ftz && x.ftz) || engineNames.contains n then none
      else some (wordBytes (encModifier (((m.rnd.orElse fun _ => x.rnd)).getD .rn) (m.sat || x.sat) (m.ftz || x.ftz)))
  | .ins _ _ _ =>
    match lineForm e off pend l with
    | none => none
    | some (n, m, f) =>
      let i := if l.wide then f.long.bind id else f.short.bind id
      let own := ownPrefix n m pend
      let eng := engineNames.contains n
      let rnd := if eng then .rn else ((m.rnd.orElse fun _ => pend.bind (·.rnd))).getD .rn
      let sat := !eng && (m.sat || pend.any (·.sat))
      let ftz := !eng && (m.ftz || pend.any (·.ftz))
      match i with
      | none => none
      | some i =>
        let any := pend.isSome || own
        if !i.wf || i.isLane || rnd == .rs || (any && !Mods.accepted ⟨rnd, sat, ftz⟩ i) then none
        else (encode i).map fun ws =>
          (if own then wordBytes (encModifier rnd sat ftz) else []) ++ ws.flatMap wordBytes
            ++ (if l.pad then wordBytes 0x04000004 else [])

/-- The instruction line that follows a list's head, past prefix lines. -/
def nextIns : List (Nat × Option LineMods × Line) → Option (String × LineMods)
  | [] => none
  | x :: r => match x.2.2.stmt with
    | .ins _ _ _ => x.2.2.stmt.mnemonic false
    | _ => nextIns r

def emitScalars (e : AsmEnv) : List (Nat × Option LineMods × Line) → List LanePC → Option (List Byte)
  | [], _ => some []
  | x :: r, pcs => do
    let lpc := (pcs.head?.getD none).getD none
    let b ← emitScalar { e with lpc := lpc } x.1 x.2.1 (nextIns r) x.2.2
    let t ← emitScalars e r pcs.tail
    some (b ++ t)

/-- The bytes of the lines of a lane section or of the data part. -/
def emitOther (e : AsmEnv) : List (Nat × Option LineMods × Line) → Option (List Byte)
  | [] => some []
  | x :: r => do
    let b ← match x.2.2.stmt with
      | .empty => some []
      | .align n => some (List.replicate ((n - x.1 % n) % n) 0)
      | .word o => (e.value o).bind fun v => (fitRaw 32 v).map wordBytes
      | .ins mn ops g => (laneLine e mn ops g).bind fun i => (encode i).map fun ws => ws.flatMap wordBytes
      | _ => none
    let t ← emitOther e r
    some (b ++ t)

/-- Whether no name stands twice. -/
def uniqueNames (l : List String) : Bool := l.eraseDups.length == l.length

/-- The table entry that a handler's directives give (R429). -/
def HSrc.entry (h : HSrc) : Handler :=
  let d := h.dir
  let scratch := d.scratch.getD 0
  let least := ((List.range 5).find? fun c => (scratch + 255) / 256 + 3 ≤ carveGranules (BitVec.ofNat 3 c)).getD 4
  { id := BitVec.ofNat 16 h.id, scratch := BitVec.ofNat 32 scratch, lregs := BitVec.ofNat 5 ((d.regs.getD 8 + 7) / 8 - 1),
    band := BitVec.ofNat 4 (d.band.getD 1 - 1), gang := BitVec.ofNat 3 (match d.gang with | some g => g.1 - 1 | none => 0),
    glat := d.gang.any (·.2), carve := BitVec.ofNat 3 (d.carve.getD least), prio := h.prio,
    tiles := BitVec.ofNat 6 (d.tiles.getD 0), counts := d.counts, valid := true }

/-- Assembles one handler, and gives the labels it sees; `data` holds the labels of the data part. -/
def HSrc.asm (h : HSrc) (base : AsmEnv) (data : List Label) : Option (AsmHandler × List Label) :=
  let lane := placed .lane (h.lane.getD []).reverse 0 none
  let fixed := labelsOf .lane lane ++ data
  let mk (ls : List Label) : AsmEnv := { base with labels := ls ++ fixed, lpc := some 0 }
  let read := (h.scalar.getD []).reverse
  let early (off : Nat) : AsmEnv := mk (read.filterMap fun l => l.label.map fun n => ⟨n, .scalar, off⟩)
  let src := read.map (Line.start ([0, 4, 8, 16, 64].map early))
  let lines := settleLines mk (2 * src.length + 2) src
  let ps := placed .scalar lines 0 none
  let e := mk (labelsOf .scalar ps)
  if !uniqueNames (e.labels.map (·.name) ++ base.consts.map (·.1)) then none else
  let pcs := lanePCs e ps (3 * ps.length + 3) (ps.map fun _ => none)
  do
    let s ← emitScalars e ps pcs
    let l ← emitOther e lane
    some (⟨h.entry, s, l⟩, e.labels)

/-- Assembles a source (R427 to R431); none refuses it. -/
def assemble (text : List Byte) : Option Asm := do
  let str ← String.fromUTF8? ⟨(text.map fun b => b.toNat.toUInt8).toArray⟩
  let s ← readSrc (splitLines str.toList) {}
  let hs := (s.cur.toList ++ s.done).reverse
  let base : AsmEnv := { consts := s.consts, handlers := hs.map fun h => (h.name, h.id) }
  let ds := s.data.reverse
  let data := placed .data (ds.map (·.2)) 0 none
  let dlabels := labelsOf .data data
  let handlers ← hs.mapM fun h => (h.asm base dlabels).map fun r => (h.name, r)
  let bytes ← (data.zip (ds.map (·.1))).mapM fun x =>
    (handlers.lookup x.2).bind fun r => emitOther { base with labels := r.2 } [x.1]
  some ⟨s.lookahead.getD 0, handlers.map (·.2.1), bytes.flatten⟩

end Sys2Proof.Machine
end

