-- ==== Sys2Proof/Machine/LaneFloat.lean ====
section
/-! DEFINITION. Lane floating point, dot products, scaled accumulation and conversion (R108 to R121). -/

namespace Sys2Proof.Machine

/-! ### Arithmetic (R109 to R111) -/

/-- A two-operand operation element by element. -/
def fTwo (s : State) (h : LaneHdr) (t : FTy) (d a b : VReg) (f : Nat → Nat → FRes) : Out :=
  finV s h t.is64 d fun i =>
    let x := s.vval t.is64 a i
    let y := s.vval t.is64 b i
    t.each fun k => f (t.elem x k) (t.elem y k)

def execFadd (h : LaneHdr) (t : FTy) (rnd : Rnd) (ftz : Bool) (d a b : VReg) (s : State) : Out :=
  fTwo s h t d a b (fAdd t.fmt rnd ftz)
def execFsub (h : LaneHdr) (t : FTy) (rnd : Rnd) (ftz : Bool) (d a b : VReg) (s : State) : Out :=
  fTwo s h t d a b (fSub t.fmt rnd ftz)
def execFmul (h : LaneHdr) (t : FTy) (rnd : Rnd) (ftz : Bool) (d a b : VReg) (s : State) : Out :=
  fTwo s h t d a b (fMul t.fmt rnd ftz)
def execFma (h : LaneHdr) (t : FTy) (rnd : Rnd) (ftz : Bool) (d a b c : VReg) (s : State) : Out :=
  finV s h t.is64 d fun i =>
    let x := s.vval t.is64 a i
    let y := s.vval t.is64 b i
    let z := s.vval t.is64 c i
    t.each fun k => fFma t.fmt rnd ftz (t.elem x k) (t.elem y k) (t.elem z k)
def execFminNum (h : LaneHdr) (t : FTy) (d a b : VReg) (s : State) : Out := fTwo s h t d a b (fMinMax t.fmt false false)
def execFminNan (h : LaneHdr) (t : FTy) (d a b : VReg) (s : State) : Out := fTwo s h t d a b (fMinMax t.fmt false true)
def execFmaxNum (h : LaneHdr) (t : FTy) (d a b : VReg) (s : State) : Out := fTwo s h t d a b (fMinMax t.fmt true false)
def execFmaxNan (h : LaneHdr) (t : FTy) (d a b : VReg) (s : State) : Out := fTwo s h t d a b (fMinMax t.fmt true true)

def execFrcp (h : LaneHdr) (t : F2) (d a : VReg) (s : State) : Out :=
  finV s h t.is64 d fun i => fRcp t.fmt (s.vval t.is64 a i)
def execFsqrt (h : LaneHdr) (t : F2) (d a : VReg) (s : State) : Out :=
  finV s h t.is64 d fun i => fSqrt t.fmt (s.vval t.is64 a i)

/-- The free candidate of a bounded function for an input (assumption 9). -/
def cand (fn : Nat) (s : State) (a : VReg) (i : Nat) : Word32 := Config.approx fn (s.lane32 a i) s.draw

def execFrsq (h : LaneHdr) (d a : VReg) (s : State) : Out :=
  finV s h false d fun i => fRsq (cand 0 s a i) (s.lane32 a i).toNat
def execFex2 (h : LaneHdr) (d a : VReg) (s : State) : Out :=
  finV s h false d fun i => fEx2 (cand 1 s a i) (s.lane32 a i).toNat
def execFlg2 (h : LaneHdr) (d a : VReg) (s : State) : Out :=
  finV s h false d fun i => fLg2 (cand 2 s a i) (s.lane32 a i).toNat
def execFsin (h : LaneHdr) (d a : VReg) (s : State) : Out :=
  finV s h false d fun i => fSinCos false (cand 3 s a i) (s.lane32 a i).toNat
def execFcos (h : LaneHdr) (d a : VReg) (s : State) : Out :=
  finV s h false d fun i => fSinCos true (cand 4 s a i) (s.lane32 a i).toNat

/-- `fcmp.cc` in lanes (R112): no flush. -/
def execFcmpCc (h : LaneHdr) (t : F2) (cc : FCond) (d : PReg) (a b : VReg) (s : State) : Out :=
  let r (i : Nat) := fCmp t.fmt false cc (s.vval t.is64 a i) (s.vval t.is64 b i)
  let fl := (s.activeList h).foldl (fun x i => x ||| (r i).2) 0
  finP (s.orFlags fl) h d (mkMask fun i => (r i).1)

/-! ### Dot products (R117 to R120) -/

/-- Registers of a run, all 32 lanes. -/
def State.vrun (s : State) (r : VReg) (n : Nat) : List (Vector Word32 32) := (upTo n).map fun k => s.vregs (r.toNat + k)

/-- Operand A under the latch rule (R119), and the latch after it. -/
def latchA (s : State) (reuse : Bool) (a : VReg) : List (Vector Word32 32) × Option Latch :=
  let regs := s.vrun a 4
  if reuse then
    match s.g.latch with
    | some l => if l.first = a.toNat ∧ l.count = 4 then (l.regs, some l) else (regs, some ⟨a.toNat, 4, regs⟩)
    | none => (regs, some ⟨a.toNat, 4, regs⟩)
  else (regs, none)

/-- Element j of a lane's run of 8-bit elements (R60). -/
def byteElem (regs : List (Vector Word32 32)) (i j : Nat) : Nat :=
  bitsOf (laneOf (regs.getD (j / 4) (Vector.replicate 32 0)) i).toNat (8 * (j % 4)) 8

/-- Terms of sixteen pairs of FP8 elements, or of DS8 weights with E4M3 elements (R118). -/
def dotTerms (ds8 e5m2 : Bool) (ra rb : List (Vector Word32 32)) (i : Nat) : List (FVal × FVal) :=
  (upTo 16).flatMap fun j =>
    let x := byteElem ra i j
    let y := byteElem rb i j
    if ds8 then [(ds8Term (x / 16), fe4m3.decode y), (ds8Term x, fe4m3.decode y)]
    else let t := if e5m2 then fe5m2 else fe4m3; [(t.decode x, t.decode y)]

/-- Whether an earlier `mloop` of the group has still to read its A operand through the latch (R119, R236). -/
def State.latchBusy (s : State) : Bool :=
  s.c.eng.any fun e => e.band == s.b.slot && e.group == s.g.slot && e.empties

/-- A dot word (R118); one that would load or empty the latch waits for the `mloop`s that still use it (R119). -/
def dotWord (s : State) (h : LaneHdr) (ds8 e5m2 : Bool) (rnd : Rnd) (reuse ftz : Bool) (d a b c : VReg) : Out :=
  let (ra, latch) := latchA s reuse a
  let rb := s.vrun b 4
  if latch != s.g.latch && s.latchBusy then .next s else
  finV (s.modG fun g => { g with latch := latch }) h false d fun i =>
    aligner 12 (dotTerms ds8 e5m2 ra rb i) (s.lane32 c i).toNat rnd ftz

def execFdot16 (h : LaneHdr) (e5m2 : Bool) (rnd : Rnd) (reuse ftz : Bool) (d a b c : VReg) (s : State) : Out :=
  dotWord s h false e5m2 rnd reuse ftz d a b c
def execDdot16 (h : LaneHdr) (rnd : Rnd) (reuse ftz : Bool) (d a b c : VReg) (s : State) : Out :=
  dotWord s h true false rnd reuse ftz d a b c

/-- `idot4` (R120). -/
def execIdot4 (h : LaneHdr) (t : ITy) (sat : Bool) (d a b c : VReg) (s : State) : Out :=
  finV s h false d fun i =>
    let el (r : VReg) (k : Nat) : Int := asInt t.signed (BitVec.ofNat 8 (bitsOf (s.lane32 r i).toNat (8 * k) 8))
    let x := (upTo 4).foldl (fun (n : Int) k => n + el a k * el b k) (asInt t.signed (s.lane32 c i))
    let r := intResult sat t.signed 32 x
    ⟨r.1.toNat, r.2⟩

/-- `scacc` (R121). -/
def execScacc (h : LaneHdr) (e8 : Bool) (rnd : Rnd) (d a b c : VReg) (x y : BitVec 2) (s : State) : Out :=
  finV s h false d fun i =>
    let sc (k : Nat) : Nat := bitsOf (s.lane32 b i).toNat (8 * k) 8
    let scales := if e8 then [e8m0Decode (sc x.toNat), e8m0Decode (sc y.toNat)]
      else [fp32.decode (s.vlane b.toNat i).toNat, fp32.decode (s.vlane (b.toNat + 1) i).toNat]
    scaleAdd rnd false (s.lane32 a i).toNat scales (e8 && (sc x.toNat == 0xFF || sc y.toNat == 0xFF)) (s.lane32 c i).toNat

/-! ### Conversion (R115, R116) -/

/-- A source element: an integer or a floating value. -/
inductive Num where
  | int (x : Int)
  | flt (v : FVal)

/-- Width of an element of a type inside a register, or of a whole value. -/
def elemWidth : LTy → Nat
  | .s32 | .n32 | .b32 | .f32 => 32
  | .s64 | .n64 | .b64 | .f64 => 64
  | .f16x2 | .bf16x2 => 16
  | .e4m3 | .e5m2 | .ds8 | .e8m0 => 8
  | .e2m1 | .i4 => 4

/-- Reads a source element. -/
def numOf (t : LTy) (c : Nat) : Num :=
  match t with
  | .s32 => .int (BitVec.ofNat 32 c).toInt
  | .s64 => .int (BitVec.ofNat 64 c).toInt
  | .i4 => .int (BitVec.ofNat 4 c).toInt
  | .n32 | .b32 | .n64 | .b64 => .int c
  | .f32 => .flt (fp32.decode c)
  | .f64 => .flt (fp64.decode c)
  | .f16x2 => .flt (fp16.decode c)
  | .bf16x2 => .flt (bf16.decode c)
  | .e4m3 => .flt (fe4m3.decode c)
  | .e5m2 => .flt (fe5m2.decode c)
  | .e2m1 => .flt (fe2m1.decode c)
  | .ds8 => .flt (ds8Decode c)
  | .e8m0 => .flt (e8m0Decode c)

/-- A value as a floating value. -/
def Num.val : Num → FVal
  | .int x => intVal x
  | .flt v => v

/-- Converts to an integer type (R64); a widening integer conversion extends and never clamps. -/
def Num.toInt (signed : Bool) (w srcW : Nat) (rnd : Rnd) (sat : Bool) (draw : Nat) : Num → FRes
  | .int x => intToInt signed w (sat && w ≤ srcW) x
  | .flt v => toIntVal signed w rnd sat draw v

/-- Whether `sat` has an effect on a pair: it has none where no finite value of the source overflows the destination (R116; that f16 to
bf16 is such a pair too is DEDUCED, assumption 87). -/
def satCounts (dst src : LTy) : Bool :=
  match dst with
  | .f64 => false
  | .f32 => src == .f64
  | .f16x2 => src == .f32 || src == .bf16x2
  | .bf16x2 => src == .f32
  | _ => true

/-- Converts one element (R116). -/
def cvtElem (dst src : LTy) (rnd : Rnd) (sat0 : Bool) (draw c : Nat) : FRes :=
  let sat := sat0 && satCounts dst src
  let x := numOf src c
  let w := elemWidth src
  match dst with
  | .s32 => x.toInt true 32 w rnd sat draw
  | .n32 | .b32 => x.toInt false 32 w rnd sat draw
  | .s64 => x.toInt true 64 w rnd sat draw
  | .n64 | .b64 => x.toInt false 64 w rnd sat draw
  | .i4 => x.toInt true 4 w rnd sat draw
  | .f32 => toFmt fp32 rnd sat draw x.val
  | .f64 => toFmt fp64 rnd sat draw x.val
  | .f16x2 => toFmt fp16 rnd sat draw x.val
  | .bf16x2 => toFmt bf16 rnd sat draw x.val
  | .e4m3 => toFmt fe4m3 rnd sat draw x.val
  | .e5m2 => toFmt fe5m2 rnd sat draw x.val
  | .e2m1 => toFmt fe2m1 rnd sat draw x.val
  | .ds8 => toDs8Val rnd sat draw x.val
  | .e8m0 => toE8m0Val rnd sat draw x.val

/-- The stochastic state's next value (R62). -/
def stochNext (x : Word32) : Word32 :=
  let x := x ^^^ (x <<< 13)
  let x := x ^^^ (x >>> 17)
  x ^^^ (x <<< 5)

/-- Source elements of a lane in destination order, by the shape (R115). -/
def cvtSources (s : State) (dst src : LTy) (a : VReg) (e : Nat) (i : Nat) : List Nat :=
  let reg (k : Nat) : Nat := (s.vlane (a.toNat + k) i).toNat
  let w := elemWidth src
  match cvtShape dst src with
  | some .whole | none => [s.vval src.is64 a i]
  | some .both => [bitsOf (reg 0) 0 16, bitsOf (reg 0) 16 16]
  | some (.pack n _) => (upTo n).map fun k => if w = 16 then bitsOf (reg (k / 2)) (16 * (k % 2)) 16 else reg k
  | some (.elem _) => [bitsOf (reg 0) (w * e) w]
  | some (.pair _) => [bitsOf (reg 0) (w * (2 * e)) w, bitsOf (reg 0) (w * (2 * e + 1)) w]

/-- Converts a lane's elements in order: the packed result, its flags and the stochastic state after them. -/
def cvtLane (dst src : LTy) (rnd : Rnd) (sat : Bool) : Nat → Word32 → List Nat → Nat × Word32 × Word32
  | _, st, [] => (0, 0, st)
  | k, st, c :: cs =>
    let st1 := if rnd = .rs then stochNext st else st
    let r := cvtElem dst src rnd sat (st1.toNat / 2 ^ 16) c
    let q := cvtLane dst src rnd sat (k + 1) st1 cs
    (r.code * 2 ^ (k * elemWidth dst) + q.1, r.fl ||| q.2.1, q.2.2)

def execCvt (h : LaneHdr) (dst src : LTy) (rnd : Rnd) (sat : Bool) (d a : VReg) (elem : BitVec 3) (s : State) : Out :=
  let r (i : Nat) := cvtLane dst src rnd sat 0 (s.g.stoch.toList.getD i 0) (cvtSources s dst src a elem.toNat i)
  let m := s.active h
  let st := mkLanes fun i => if laneBit m i then (r i).2.2 else s.g.stoch.toList.getD i 0
  finV (s.modG fun g => { g with stoch := st }) h dst.is64 d fun i => ⟨(r i).1, (r i).2.1⟩

end Sys2Proof.Machine
end

