-- ==== Sys2Proof/Machine/Matrix.lean ====
section
/-! DEFINITION. The matrix engine and the accumulator store: `mloop`, `mdrain`, `aset`, the `acpy` words and the engine's own
steps (R228 to R249). -/

namespace Sys2Proof.Machine

/-! ### Tiles (R228, R229) -/

/-- Key of a tile element. -/
def tileKey (t r c : Nat) : Nat := t * 4096 + r * 64 + c
def Band.tile (b : Band) (t r c : Nat) : Word32 := SMap.get 0 (tileKey t r c) b.tiles
def Band.putTile (b : Band) (t r c : Nat) (x : Word32) : Band := { b with tiles := SMap.set 0 (tileKey t r c) x b.tiles }

/-- Entries of 4,096 elements from a rule, zero elements left out. -/
def tileEntries (t : Nat) (f : Nat → Nat → Word32) : SMap Word32 :=
  (upTo 64).flatMap fun r => (upTo 64).filterMap fun c => if f r c = 0 then none else some (tileKey t r c, f r c)

/-- A band whose tile is given by a rule. -/
def Band.setTile (b : Band) (t : Nat) (f : Nat → Nat → Word32) : Band :=
  { b with tiles := b.tiles.filter (fun e => e.1 < tileKey t 0 0) ++ tileEntries t f
                      ++ b.tiles.filter fun e => tileKey (t + 1) 0 0 ≤ e.1 }

/-! ### The engine queue (R239, R240) -/

/-- Whether a queued operation writes, or (`w` false) reads or writes, a tile element. -/
def EngCmd.touches (cmd : EngCmd) (w : Bool) (t r _c : Nat) : Bool :=
  match cmd with
  | .mloop _ _ _ _ _ _ steps _ _ tstep tile _ => tile ≤ t && t < tile + (if tstep then steps else 1)
  | .mdrain lanes half _ _ _ clear _ _ _ dtile stile _ _ =>
    (!lanes && t == dtile) || (t == stile && (!w || clear) && (!lanes || r / 32 == b2n half))
  | .aset tile count _ => tile ≤ t && t < tile + count
  | .cspill tile _ extent _ => tile ≤ t && t < tile + extent
  | .cdrain pairs _ _ _ _ _ dtile _ _ before =>
    (dtile ≤ t && t < dtile + (if before.extent = 0 then 0 else (before.extent + 63) / 64 * (if pairs then 1 else 2)))
      || (!w && before.nspill != 0 && before.sbase ≤ t && t < before.sbase + before.extent)
  | _ => false

/-- Whether a command touches a tile at all. -/
def EngCmd.usesTile (cmd : EngCmd) (t : Nat) : Bool := cmd.touches false t 0 0 || cmd.touches false t 32 0

/-- Puts an engine instruction into the queue: it waits for a pending future (R148: before the traps that it finds as it executes, and
behind those of R50), a free entry (R239) and its group's own
earlier `acpy` words on the same tiles (R240). The lane words that write its registers have completed (R140). `pre` is what the
instruction changes as it executes. -/
def issueEng (s : State) (f : FReg) (cmd : EngCmd) (srcV dstV : List VRange) (k : EngEnt → EngEnt)
    (pre : State → State) : Out :=
  if s.fPending f then .next s.waitFuture
  else if Config.engineQueue ≤ s.c.eng.length then .next (s.stall 3)
  else if s.g.lq.any fun e => (acpyTile e.ins).any cmd.usesTile then .next (s.stall 3)
  else
    let (s1, op) := (pre (s.closeOn (srcV ++ dstV) [])).startOp f dstV [] []
    .next (s1.modC fun c => { c with eng := c.eng ++
      [k { op := some op, band := s.b.slot, group := s.g.slot, cmd := cmd, srcV := srcV }] }).advance

/-- Runs a step on the head of a core's engine queue, with its band and group in the focus, and drops the head; nothing
happens where the head is no such command. -/
def withEng (s : State) (core : Nat) (k : EngEnt → State → Option State) : Out :=
  match (s.core core).eng with
  | [] => .next s
  | e :: es =>
    match k e ((s.focusBand core e.band e.group).modC fun c => { c with eng := es }) with
    | some t => .next t.unfocus
    | none => .next s

/-- An engine operation ends done; the latch is emptied where its entry says so (R236). -/
def engDone (s : State) (e : EngEnt) (st : OpState) (fl : Word32) : State :=
  let s1 := if e.empties then s.modG fun g => { g with latch := none } else s
  match e.op with
  | some op => s1.endOp op st fl
  | none => s1

/-- A free element value, and free flags (R237, R242). -/
def freeElem (s : State) (t r c : Nat) : Word32 := (s.freeWord (15 * 2 ^ 60 + tileKey t r c)).truncate 32
def freeFlags (s : State) : Word32 := (s.freeWord (16 * 2 ^ 60)).truncate 32 &&& flMask

/-! ### `mloop` (R230 to R237) -/

end Sys2Proof.Machine

namespace Sys2Proof
open Machine

/-- Formats of A and B elements; none for DS8 (R230). -/
def MFmt.a : MFmt → Option Fmt
  | .e4m3 | .e4m3e5m2 => some fe4m3
  | .e5m2 | .e5m2e4m3 => some fe5m2
  | .f16 => some fp16
  | .bf16 => some Machine.bf16
  | .ds8 => none
def MFmt.b : MFmt → Fmt
  | .e4m3 | .e5m2e4m3 | .ds8 => fe4m3
  | .e5m2 | .e4m3e5m2 => fe5m2
  | .f16 => fp16
  | .bf16 => Machine.bf16

/-- Whether a format's elements are 16 bits wide. -/
def MFmt.wide : MFmt → Bool
  | .f16 | .bf16 => true
  | _ => false

/-- Bits that the aligner keeps below the top term (R70, R71). -/
def MFmt.alignBits (fmt : MFmt) : Nat := if fmt.wide then 14 else 12

end Sys2Proof

namespace Sys2Proof.Machine

/-- A descriptor register's offset and increment (R233). -/
def descOff (x : Word64) : Nat := x.toNat % 2 ^ 32
def descInc (x : Word64) : Int := (BitVec.ofNat 32 (x.toNat / 2 ^ 32)).toInt

/-- Whether a descriptor keeps its multiples of 16 and every step's block lies within the allocation (R234, R255). -/
def descOk (s : State) (x : Word64) (steps size : Nat) : Bool :=
  descOff x % 16 == 0 && descInc x % 16 == 0 && s.scratchOk (descOff x) size
    && s.scratchOk (descOff x + descInc x * ((steps : Int) - 1)) size

/-- Offset of a step's block. -/
def blockAt (off : Nat) (inc : Int) (i : Nat) : Nat := ((off : Int) + inc * i).toNat

/-- Byte j of row r of an A block in lane registers (R231). -/
def aByte (regs : List (Vector Word32 32)) (r j : Nat) : Nat :=
  bitsOf (laneOf (regs.getD (4 * (r / 32) + j / 4) (Vector.replicate 32 0)) (r % 32)).toNat (8 * (j % 4)) 8

/-- Byte j of row or column r of a block in scratchpad. -/
def spElem (l : List Byte) (r j : Nat) : Nat := ((l[16 * r + j]?).getD 0).toNat

/-- The terms of one element: products of A's row and B's column, given by their bytes (R230, R235). -/
def mTerms (fmt : MFmt) (ftz : Bool) (a b : Nat → Nat) : List (FVal × FVal) :=
  if fmt.wide then
    (upTo 8).map fun j => (fmt.b.input ftz (a (2 * j) + 256 * a (2 * j + 1)), fmt.b.input ftz (b (2 * j) + 256 * b (2 * j + 1)))
  else match fmt.a with
    | some t => (upTo 16).map fun j => (t.decode (a j), fmt.b.decode (b j))
    | none => (upTo 16).flatMap fun j => [(ds8Term (a j / 16), fe4m3.decode (b j)), (ds8Term (a j), fe4m3.decode (b j))]

/-- One K-step on a tile: new elements and flags. -/
def kStep (b : Band) (fmt : MFmt) (rnd : Rnd) (ftz : Bool) (t : Nat) (a : Nat → Nat → Nat) (bb : Nat → Nat → Nat) :
    Band × Word32 :=
  let el (r c : Nat) : FRes := aligner fmt.alignBits (mTerms fmt ftz (a r) (bb c)) (b.tile t r c).toNat rnd ftz
  let fl := (upTo 64).foldl (fun f r => (upTo 64).foldl (fun f c => f ||| (el r c).fl) f) 0
  (b.setTile t fun r c => BitVec.ofNat 32 (el r c).code, fl)

/-- The first `n` K-steps of an `mloop`, with the flags (R235); undefined elements where an operand register was written
meanwhile (R237). -/
def mloopSteps (s : State) (e : EngEnt) : Nat → State × Word32
  | 0 => (s, 0)
  | n + 1 =>
    let (s1, fl) := mloopSteps s e n
    match e.cmd with
    | .mloop aReg _ aOff aInc bOff bInc _ rnd ftz tstep tile fmt =>
      let t := if tstep then tile + n else tile
      if e.spoiled then (s1.modB fun b => b.setTile t (freeElem s t), freeFlags s1)
      else
        let bl := s1.wideReadAt (2 * n + 1) (blockAt bOff bInc n) 1024
        let a (r j : Nat) : Nat := match aReg with
          | some regs => aByte regs r j
          | none => spElem (s1.wideReadAt (2 * n + 2) (blockAt aOff aInc n) 1024) r j
        let (b', f) := kStep s1.b fmt rnd ftz t a (spElem bl)
        ({ s1 with b := b' }, fl ||| f)
    | _ => (s1, fl)

/-- The group's own `mloop`s that still empty the latch. -/
def latchEmptied (s : State) : Option Latch := if s.latchBusy then none else s.g.latch

/-- A no longer pending emptying of the latch: a later `mloop` takes its place in the order (R236). -/
def dropEmpties (s : State) : State :=
  s.modC fun c => { c with eng := c.eng.map fun e =>
    if e.band == s.b.slot && e.group == s.g.slot then { e with empties := false } else e }

/-- `mloop` (R232 to R236). -/
def execMloop (f : FReg) (a b : SReg) (_la : BitVec 4) (aSp : Bool) (steps : BitVec 9) (rnd : Rnd) (ftz reuse tstep : Bool)
    (tile : BitVec 5) (fmt : MFmt) (areg : VReg) (s : State) : Out :=
  let n := steps.toNat + 1
  let last := tile.toNat + (if tstep then n - 1 else 0)
  if !aSp && s.g.handler.laneRegs ≤ areg.toNat + 7 then .next (s.takeTrap 0x03 { waddr := s.g.insAddr })
  else if s.fPending f then .next s.waitFuture
  else if s.g.handler.tiles.toNat ≤ last || !descOk s (s.sreg a) n 1024 || (aSp && !descOk s (s.sreg b) n 1024) then
    .next (s.takeTrap 0x0D {})
  else
    let bOff := descOff (s.sreg a)
    let bInc := descInc (s.sreg a)
    if aSp then
      issueEng s f (.mloop none 0 (descOff (s.sreg b)) (descInc (s.sreg b)) bOff bInc n rnd ftz tstep tile.toNat fmt) [] [] id id
    else
      let regs := (s.closeOn [areg.run 8] []).vrun areg 8
      let hit := (latchEmptied s).filter fun l => l.first == areg.toNat && l.count == 8
      let later := s.freeBit (17 * 2 ^ 60)
      let (block, latch) : List (Vector Word32 32) × Option Latch :=
        if reuse then (match hit with | some l => (l.regs, some l) | none => (regs, some ⟨areg.toNat, 8, regs⟩))
        else (regs, if later then latchEmptied s else none)
      let taken := reuse && hit.isSome
      issueEng s f (.mloop (some block) areg.toNat 0 0 bOff bInc n rnd ftz tstep tile.toNat fmt)
        (if taken then [] else [areg.run 8]) []
        (fun e => { e with fromLatch := taken, loads := reuse && !taken, empties := !reuse && later })
        fun s => (dropEmpties s).modG fun g => { g with latch := latch }

/-- `MLOOP_COMPLETION`: every K-step of the head `mloop` is performed, and its future is done (R235). -/
def execMloopCompletion (core : Nat) (s : State) : Out :=
  withEng s core fun e s1 =>
    match e.cmd with
    | .mloop _ _ _ _ _ _ n _ _ _ _ _ => let r := mloopSteps s1 e n; some (engDone r.1 e .done r.2)
    | _ => none

/-! ### `mdrain` (R241 to R244) -/

/-- Registers of a scale operand (R242): `n` FP32 registers, or one of E8M0 bytes. -/
def scaleRun (present e8 : Bool) (r n : Nat) : List VRange := if present then [⟨r, if e8 then 1 else n, 1⟩] else []

/-- Whether every register of some runs exists in the handler. -/
def Handler.hasRegs (h : Handler) (l : List VRange) : Bool := l.all fun r => r.first + r.count ≤ h.laneRegs

/-- The scale factors of row or column k, and whether it is an E8M0 NaN (R242, R261). `ftz` flushes a subnormal FP32 one, an input of the
drain (R55, R241). -/
def scaleOf (s : State) (present e8 ftz : Bool) (r k : Nat) : List FVal × Bool :=
  if !present then ([], false)
  else if e8 then
    let x := bitsOf (s.vlane r (k % 32)).toNat (8 * (k / 32)) 8
    ([e8m0Decode x], x == 0xFF)
  else ([fp32.input ftz (s.vlane (r + k / 32) (k % 32)).toNat], false)

def execMdrain (f : FReg) (_la : BitVec 4) (lanes half e8 rs cs clear ftz : Bool) (rnd : Rnd) (vd8 : BitVec 5)
    (dtile stile : BitVec 5) (cv rv : VReg) (s : State) : Out :=
  let vd := 8 * vd8.toNat
  let src := scaleRun rs e8 rv.toNat 2 ++ scaleRun cs e8 cv.toNat 2
  let dst : List VRange := if lanes then [⟨vd, 64, 1⟩] else []
  if !s.g.handler.hasRegs (src ++ dst) then .next (s.takeTrap 0x03 { waddr := s.g.insAddr })
  else if s.fPending f then .next s.waitFuture
  else if s.g.handler.tiles.toNat ≤ stile.toNat || (!lanes && s.g.handler.tiles.toNat ≤ dtile.toNat) then
    .next (s.takeTrap 0x0D {})
  else
    issueEng s f (.mdrain lanes half e8 rs cs clear ftz rnd vd dtile.toNat stile.toNat cv.toNat rv.toNat) src dst id id

/-- The whole effect of an `mdrain` with its flags (R243). -/
def mdrainRun (s : State) (e : EngEnt) : State × Word32 :=
  match e.cmd with
  | .mdrain lanes half e8 rs cs clear ftz rnd vd dtile stile cv rv =>
    let h := 32 * b2n half
    let el (r c : Nat) : FRes :=
      let x := scaleOf s rs e8 ftz rv r
      let y := scaleOf s cs e8 ftz cv c
      let acc := if lanes then s.vlane (vd + c) (r - h) else s.b.tile dtile r c
      if e.spoiled then ⟨(freeElem s (32 + dtile) r c).toNat, 0⟩
      else scaleAdd rnd ftz (s.b.tile stile r c).toNat (x.1 ++ y.1) (x.2 || y.2) acc.toNat
    let rows := if lanes then (upTo 32).map (h + ·) else upTo 64
    let fl := if e.spoiled then freeFlags s else rows.foldl (fun f r => (upTo 64).foldl (fun f c => f ||| (el r c).fl) f) 0
    let s1 := if lanes then
        (upTo 64).foldl (fun t c => t.setV 0 (vd + c) 0xFFFFFFFF fun i => BitVec.ofNat 32 (el (h + i) c).code) s
      else s.modB fun b => b.setTile dtile fun r c => BitVec.ofNat 32 (el r c).code
    let zero (r c : Nat) : Word32 :=
      if rows.contains r then (if e.spoiled then freeElem s stile r c else 0) else s.b.tile stile r c
    (if clear then s1.modB fun b => b.setTile stile zero else s1, fl)
  | _ => (s, 0)

/-- `MDRAIN_COMPLETION`: the head `mdrain` takes effect. -/
def execMdrainCompletion (core : Nat) (s : State) : Out :=
  withEng s core fun e s1 =>
    match e.cmd with
    | .mdrain _ _ _ _ _ _ _ _ _ _ _ _ _ => let r := mdrainRun s1 e; some (engDone r.1 e .done r.2)
    | _ => none

/-! ### `aset`, `acpy.ar`, `acpy.ra` (R245, R246) -/

def execAset (f : FReg) (b : SReg) (_la : BitVec 4) (tile : BitVec 5) (count : BitVec 6) (s : State) : Out :=
  if s.fPending f then .next s.waitFuture
  else if s.g.handler.tiles.toNat < tile.toNat + count.toNat then .next (s.takeTrap 0x0D {})
  else issueEng s f (.aset tile.toNat count.toNat ((s.sreg b).truncate 32)) [] [] id id

/-- `ASET_COMPLETION`: the head `aset` writes its value to every element of its tiles; one that a foreign `acpy.ra` met leaves
undefined values (R240). -/
def execAsetCompletion (core : Nat) (s : State) : Out :=
  withEng s core fun e s1 =>
    match e.cmd with
    | .aset tile count v =>
      let put (b : Band) (k : Nat) : Band :=
        b.setTile (tile + k) fun r c => if e.spoiled then freeElem s1 (tile + k) r c else v
      some (engDone (s1.modB fun b => (upTo count).foldl put b) e .done 0)
    | _ => none

/-- Pending operations of the focused band that touch a tile element. -/
def State.touching (s : State) (w : Bool) (t r c : Nat) (e : EngEnt) : Bool := e.band == s.b.slot && e.cmd.touches w t r c

/-- `acpy.ar`: an element that a pending operation writes gives an undefined value (R240). -/
def execAcpyAr (h : LaneHdr) (d : VReg) (n : BitVec 7) (c0 : BitVec 6) (half : Bool) (tile : BitVec 5) (s : State) : Out :=
  let get (c i : Nat) : Word32 :=
    let r := 32 * b2n half + i
    if s.c.eng.any (s.touching true tile.toNat r c) then freeElem s tile.toNat r c else s.b.tile tile.toNat r c
  .next ((upTo n.toNat).foldl (fun t j => t.setV h.la (d.toNat + j) (s.active h) (get (c0.toNat + j))) s).laneDone

/-- `acpy.ra`: an element that a pending operation reads or writes becomes undefined, with everything that operation writes
(R240). -/
def execAcpyRa (h : LaneHdr) (a : VReg) (n : BitVec 7) (c0 : BitVec 6) (half : Bool) (tile : BitVec 5) (s : State) : Out :=
  let cells : List (Nat × Nat × Word32) := (s.activeList h).flatMap fun i => (upTo n.toNat).map fun j =>
    (32 * b2n half + i, c0.toNat + j, s.vlane (a.toNat + j) i)
  let clash (r c : Nat) : EngEnt → Bool := s.touching false tile.toNat r c
  let put (b : Band) (x : Nat × Nat × Word32) : Band :=
    b.putTile tile.toNat x.1 x.2.1 (if s.c.eng.any (clash x.1 x.2.1) then freeElem s tile.toNat x.1 x.2.1 else x.2.2)
  let eng := s.c.eng.map fun e => if cells.any (fun x => clash x.1 x.2.1 e) then { e with spoiled := true } else e
  .next ((s.modB fun b => cells.foldl put b).modC fun c => { c with eng := eng }).laneDone

/-! ### Cancelling (R247) -/

/-- Drops an operation's entry from the queue. -/
def dropEng (s : State) (op : Nat) : State := s.modC fun c => { c with eng := c.eng.filter fun e => e.op != some op }

/-- Whether an operation stands at the head of the engine queue. -/
def engHead (s : State) (op : Nat) : Bool := (s.c.eng.head?).any fun e => e.op == some op

/-- What the matrix engine answers to a cancel: the state after it where it accepts. A loop stops at a boundary of K-steps that
the manual leaves open; a drain or `aset` is accepted only where it has not begun, which is open too. -/
def matrixCancel (s : State) (e : EngEnt) (op : Nat) : Cancel :=
  match e.cmd with
  | .mloop _ _ _ _ _ _ n _ _ _ _ _ =>
    let k := if engHead s op then s.freeNat 18 % n else 0
    .taken (engDone (mloopSteps (dropEng s op) e k).1 e .cancelled 0)
  | .mdrain _ _ _ _ _ _ _ _ _ _ _ _ _ | .aset _ _ _ =>
    if s.freeBit (19 * 2 ^ 60) then .taken (engDone (dropEng s op) e .cancelled 0) else .refused
  | _ => .refused

end Sys2Proof.Machine
end

