-- ==== Sys2Proof/Machine/Counting.lean ====
section
/-! DEFINITION. The counting array: `cloop`, `cmerge`, `cspill`, `cclear`, `cdrain` and the array's own steps (R250 to
R266). -/

namespace Sys2Proof.Machine

/-! ### Classes (R72, R73) -/

/-- Class magnitudes: E2M1 in units of 1/4, INT4 in units. -/
def classMags : CFmt → List Nat
  | .e2m1 => [1, 2, 3, 4, 6, 8, 9, 12, 16, 18, 24, 32, 36, 48, 64, 72, 96, 144]
  | .i4 => [1, 2, 3, 4, 5, 6, 7, 8, 9, 10, 12, 14, 15, 16, 18, 20, 21, 24, 25, 28, 30, 32, 35, 36, 40, 42, 48, 49, 56, 64]

/-- Magnitude of a class. -/
def magOf (fmt : CFmt) (k : Nat) : Nat := if k = 0 then 0 else (classMags fmt).getD (k - 1) 0

/-- A four-bit code in halves (E2M1) or units (INT4). -/
def codeVal (fmt : CFmt) (x : Nat) : Int :=
  match fmt with
  | .i4 => (BitVec.ofNat 4 x).toInt
  | .e2m1 =>
    let m : Int := ([0, 1, 2, 3, 4, 6, 8, 12] : List Int).getD (x % 8) 0
    if 8 ≤ x then -m else m

/-- The count that a product of two codes adds to counter k. -/
def countOf (fmt : CFmt) (a b k : Nat) : Int :=
  let p := codeVal fmt a * codeVal fmt b
  if p != 0 && k != 0 && magOf fmt k == p.natAbs then (if 0 < p then 1 else -1) else 0

/-! ### Counters and bookkeeping (R251) -/

/-- Key of a counter. -/
def cntKey (r c k : Nat) : Nat := (r * 128 + c) * 32 + k
def Counting.at (x : Counting) (r c k : Nat) : Int := (SMap.get 0 (cntKey r c k) x.cnt).toInt

/-- Counters from a rule over the cells of some rows; the rows above keep theirs. -/
def Counting.setRows (x : Counting) (rows : Nat) (f : Nat → Nat → Nat → Int) : Counting :=
  let low := (upTo rows).flatMap fun r => (upTo 128).flatMap fun c => (upTo 32).filterMap fun k =>
    let v := BitVec.ofInt 16 (f r c k)
    if v = 0 then none else some (cntKey r c k, v)
  { x with cnt := low ++ x.cnt.filter fun e => cntKey rows 0 0 ≤ e.1 }

/-- The state that instructions change as they execute: everything but the counters. -/
def Counting.clearMeta (x : Counting) : Counting := { x with depth := 0, nspill := 0, fmt := none, extent := 0, sbase := 0 }
def Counting.loopMeta (x : Counting) (fmt : CFmt) (rows steps : Nat) : Counting :=
  { x with fmt := some fmt, extent := max x.extent rows, depth := x.depth + 16 * steps }
def Counting.mergeMeta (x : Counting) : Counting := { x with depth := 2 * x.depth }
def Counting.spillMeta (x : Counting) (tile : Nat) : Counting :=
  { x with sbase := if x.nspill = 0 then tile else x.sbase, nspill := x.nspill + 1, depth := 0 }

/-- The bookkeeping of one value with the counters of another. -/
def Counting.withMeta (x y : Counting) : Counting := { y with cnt := x.cnt, parity := x.parity, undefd := x.undefd }

/-- The bookkeeping after queued commands, whose own records of what stood before them follow (R263). -/
def replayMeta (band : Nat) : Counting → List EngEnt → List EngEnt × Counting
  | m, [] => ([], m)
  | m, e :: es =>
    if e.band != band then let r := replayMeta band m es; (e :: r.1, r.2) else
      match e.cmd with
      | .cloop _ _ _ _ _ steps rows fmt => let r := replayMeta band (m.loopMeta fmt rows steps) es; (e :: r.1, r.2)
      | .cmerge => let r := replayMeta band m.mergeMeta es; (e :: r.1, r.2)
      | .cspill t _ x _ =>
        let r := replayMeta band (m.spillMeta t) es
        ({ e with cmd := .cspill t (m.nspill == 0) x m } :: r.1, r.2)
      | .cdrain p e8 rs cs ftz rnd d cv rv _ =>
        let r := replayMeta band m.clearMeta es
        ({ e with cmd := .cdrain p e8 rs cs ftz rnd d cv rv m } :: r.1, r.2)
      | .cclear => let r := replayMeta band m.clearMeta es; (e :: r.1, r.2)
      | _ => let r := replayMeta band m es; (e :: r.1, r.2)

/-- The counting state without counters, kept beside a command. -/
def Counting.meta0 (x : Counting) : Counting := { x with cnt := [] }

/-- The traps of counting work: no array, wrong state, or past a limit. -/
def countState (s : State) : Out := .next (s.takeTrap 0x0F {})
def countDepth (s : State) : Out := .next (s.takeTrap 0x0E {})

/-- Whether the band holds the array (R250). -/
def State.holdsArray (s : State) : Bool := s.b.handler.counts

/-! ### Instructions -/

def execCloop (f : FReg) (a b : SReg) (_la : BitVec 4) (split : Bool) (steps : BitVec 11) (fmt : CFmt) (rg : BitVec 4)
    (s : State) : Out :=
  let n := steps.toNat + 1
  let rows := 8 * (rg.toNat + 1)
  let x := s.b.counting
  if s.fPending f then .next s.waitFuture
  else if !s.holdsArray then countState s
  else if x.fmt.any (· != fmt) then countState s
  else if x.nspill != 0 && x.extent < rows then countState s
  else if 32767 < x.depth + 16 * n then countDepth s
  else if !descOk s (s.sreg a) n (if split then 16 * rows else 8 * rows) || !descOk s (s.sreg b) n 1024 then
    .next (s.takeTrap 0x0D {})
  else
    issueEng s f (.cloop (descOff (s.sreg a)) (descInc (s.sreg a)) (descOff (s.sreg b)) (descInc (s.sreg b)) split n rows fmt)
      [] [] id fun t => t.modB fun b => { b with counting := b.counting.loopMeta fmt rows n }

def execCmerge (f : FReg) (s : State) : Out :=
  if s.fPending f then .next s.waitFuture
  else if !s.holdsArray || s.b.counting.nspill != 0 then countState s
  else if 32767 < 2 * s.b.counting.depth then countDepth s
  else issueEng s f .cmerge [] [] id fun t => t.modB fun b => { b with counting := b.counting.mergeMeta }

def execCspill (f : FReg) (tile : BitVec 5) (s : State) : Out :=
  let x := s.b.counting
  if s.fPending f then .next s.waitFuture
  else if !s.holdsArray || x.extent == 0 || (x.nspill != 0 && x.sbase != tile.toNat) then countState s
  else if x.nspill == 65535 then countDepth s
  else if s.g.handler.tiles.toNat < tile.toNat + x.extent then .next (s.takeTrap 0x0D {})
  else
    issueEng s f (.cspill tile.toNat (x.nspill == 0) x.extent x.meta0) [] [] id fun t =>
      t.modB fun b => { b with counting := b.counting.spillMeta tile.toNat }

/-- `cclear` (R259) has no future: it enters the queue, and its turn clears the counters. -/
def execCclear (s : State) : Out :=
  if !s.holdsArray then countState s
  else if Config.engineQueue ≤ s.c.eng.length then .next (s.stall 3)
  else
    .next ((s.modB fun b => { b with counting := b.counting.clearMeta }).modC fun c =>
      { c with eng := c.eng ++ [{ op := none, band := s.b.slot, group := s.g.slot, cmd := .cclear, srcV := [] }] }).advance

/-- Tiles that a drain needs from its first one on (R261, R262). -/
def drainTiles (pairs : Bool) (extent : Nat) : Nat := if extent = 0 then 0 else (extent + 63) / 64 * (if pairs then 1 else 2)

def execCdrain (f : FReg) (_la : BitVec 4) (pairs e8 rs cs ftz : Bool) (rnd : Rnd) (dtile : BitVec 5) (cv rv : VReg)
    (s : State) : Out :=
  let src := scaleRun rs e8 rv.toNat 4 ++ scaleRun cs e8 cv.toNat 4
  let x := s.b.counting
  if !s.g.handler.hasRegs src then .next (s.takeTrap 0x03 { waddr := s.g.insAddr })
  else if s.fPending f then .next s.waitFuture
  else if !s.holdsArray then countState s
  else if x.extent != 0 && s.g.handler.tiles.toNat < dtile.toNat + drainTiles pairs x.extent then .next (s.takeTrap 0x0D {})
  else
    issueEng s f (.cdrain pairs e8 rs cs ftz rnd dtile.toNat cv.toNat rv.toNat x.meta0) src [] id fun t =>
      t.modB fun b => { b with counting := b.counting.clearMeta }

/-! ### The array's steps -/

/-- The 16 code pairs of a cell in one K-step (R253): codes of A's row and B's column, by nibbles of their blocks. -/
def cellPairs (split : Bool) (a b : List Byte) (r c : Nat) : List (Nat × Nat) :=
  let nib (l : List Byte) (row : Nat) (j : Nat) : Nat :=
    bitsOf ((l[(if split then 16 else 8) * row + j / 2]?).getD 0).toNat (4 * (j % 2)) 4
  (upTo 16).map fun j =>
    if split then (nib a r (16 * (c % 2) + j), nib b (c / 2) (16 * (c % 2) + j)) else (nib a r j, nib b c j)

/-- The first `n` K-steps of a counting loop (R256). -/
def cloopSteps (s : State) (e : EngEnt) : Nat → State
  | 0 => s
  | n + 1 =>
    let s1 := cloopSteps s e n
    match e.cmd with
    | .cloop aOff aInc bOff bInc split _ rows fmt =>
      let al := s1.wideReadAt (2 * n + 2) (blockAt aOff aInc n) ((if split then 16 else 8) * rows)
      let bl := s1.wideReadAt (2 * n + 1) (blockAt bOff bInc n) 1024
      let count (r c k : Nat) : Int :=
        (cellPairs split al bl r c).foldl (fun (x : Int) p => x + countOf fmt p.1 p.2 k) (s1.b.counting.at r c k)
      s1.modB fun b => { b with counting := b.counting.setRows rows count }
    | _ => s1

def execCloopCompletion (core : Nat) (s : State) : Out :=
  withEng s core fun e s1 =>
    match e.cmd with
    | .cloop _ _ _ _ _ n _ _ => some (engDone (cloopSteps s1 e n) e .done 0)
    | _ => none

/-- Row and column of the cell that holds a counter. -/
def cellOf (key : Nat) : Nat × Nat := (key / 32 / 128, key / 32 % 128)

/-- Whether a command reads a counter: a merge reads all, a spill those of its rows, a drain those of its rows that it drains. -/
def EngCmd.reads (cmd : EngCmd) (key : Nat) : Bool :=
  match cmd with
  | .cmerge => true
  | .cspill _ _ extent _ => (cellOf key).1 < extent
  | .cdrain pairs _ _ _ _ _ _ _ _ m => (cellOf key).1 < m.extent && !(pairs && (cellOf key).2 % 2 == 1)
  | _ => false

/-- Whether an operation meets the struck counter (R264). -/
def State.parityHit (s : State) (e : EngEnt) : Bool := s.b.counting.parity.any fun k => e.cmd.reads k

/-- The record CountParity and the failure of a reading operation (R264, R398): the counts are undefined
from then on, and the journey is stopped (R394). -/
def parityFails (s : State) (e : EngEnt) : State :=
  let s1 := s.modB fun b => { b with counting := { b.counting with parity := none, undefd := true } }
  let r := { s1.groupRec 0x1D with stopped := true, agent := 7, iaddr := engAddr s1 e, info := s1.g.core,
                                   syndrome := Config.syndrome s1.draw }
  engDone ((s1.postRecord s1.g.room r).stopJourney s1.g.journey 0x1D) e (.failed 1) 0
where
  /-- Address of the instruction that issued the operation. -/
  engAddr (s : State) (e : EngEnt) : Word64 :=
    match s.c.ops.find? fun o => e.op == some o.slot with
    | some o => o.iaddr
    | none => 0

/-- A counter as an operation reads it: any value where the counts are undefined. -/
def State.counter (s : State) (r c k : Nat) : Int :=
  if s.b.counting.undefd then ((s.freeWord (20 * 2 ^ 60 + cntKey r c k)).truncate 16).toInt else s.b.counting.at r c k

/-- `CMERGE_COMPLETION` (R257). -/
def execCmergeCompletion (core : Nat) (s : State) : Out :=
  withEng s core fun e s1 =>
    match e.cmd with
    | .cmerge =>
      if s1.parityHit e then some (parityFails s1 e) else
        let sum (r c k : Nat) : Int := if c % 2 = 0 then s1.counter r c k + s1.counter r (c + 1) k else 0
        some (engDone (s1.modB fun b => { b with counting := b.counting.setRows 128 sum }) e .done 0)
    | .cclear =>
      some (s1.modB fun b => { b with counting := { b.counting with cnt := [], undefd := false, parity := none } })
    | _ => none

/-- Where a counter is spilled: the element of its row's count tile (R258). -/
def spillRow (c : Nat) : Nat := c / 2
def spillCol (c k : Nat) : Nat := 32 * (c % 2) + k

/-- `CSPILL_COMPLETION` (R258). -/
def execCspillCompletion (core : Nat) (s : State) : Out :=
  withEng s core fun e s1 =>
    match e.cmd with
    | .cspill tile first extent _ =>
      if s1.parityHit e then some (parityFails s1 e) else
        let el (r i j : Nat) : Word32 :=
          let old := if first then 0 else s1.b.tile (tile + r) i j
          if e.spoiled then freeElem s1 (tile + r) i j
          else old + BitVec.ofInt 32 (s1.counter r (2 * i + j / 32) (j % 32))
        let b := (upTo extent).foldl (fun b r => b.setTile (tile + r) (el r)) s1.b
        let s2 := { s1 with b := { b with counting := b.counting.setRows extent fun _ _ _ => 0 } }
        some (engDone s2 e .done 0)
    | _ => none

/-- The drain value of a cell in units of its format (R73, R262). -/
def drainValue (s : State) (m : Counting) (fmt : CFmt) (r c : Nat) : Int :=
  (upTo 32).foldl (fun (d : Int) k =>
    let spilled : Int := if m.nspill = 0 then 0 else (s.b.tile (m.sbase + r) (spillRow c) (spillCol c k)).toInt
    d + (s.counter r c k + spilled) * magOf fmt k) 0

/-- A drained cell's destination: tile, row and column (R261). -/
def drainDest (pairs : Bool) (dtile r c : Nat) : Nat × Nat × Nat :=
  if pairs then (dtile + r / 64, r % 64, c / 2) else (dtile + 2 * (r / 64) + c / 64, r % 64, c % 64)

/-- One drained cell's element and flags, over the tiles as the earlier cells have left them (R262): `ftz` acts on the addend and the result,
on no scale. -/
def drainCell (s : State) (e : EngEnt) (r c : Nat) : (Nat × Nat × Nat) × FRes :=
  match e.cmd with
  | .cdrain pairs e8 rs cs ftz rnd dtile cv rv m =>
    let fmt := m.fmt.getD .e2m1
    let d := drainValue s m fmt r c
    let t := drainDest pairs dtile r c
    let x := scaleOf s rs e8 false rv r
    let y := scaleOf s cs e8 false cv (if pairs then c / 2 else c)
    let q : FVal := .fin (decide (d < 0)) d.natAbs (if fmt = .e2m1 then -2 else 0)
    (t, if e.spoiled then ⟨(freeElem s t.1 t.2.1 t.2.2).toNat, 0⟩
        else scaleAddVal rnd ftz q (x.1 ++ y.1) (x.2 || y.2) (s.b.tile t.1 t.2.1 t.2.2).toNat)
  | _ => ((0, 0, 0), ⟨0, 0⟩)

/-- The cells that a `cdrain` drains, in its order (R262). -/
def drainedCells : EngCmd → List (Nat × Nat)
  | .cdrain pairs _ _ _ _ _ _ _ _ m =>
    (upTo m.extent).flatMap fun r => ((upTo 128).filter fun c => !(pairs && c % 2 == 1)).map fun c => (r, c)
  | _ => []

/-- A cell is drained: its element enters its tile, and its flags are gathered. -/
def drainInto (e : EngEnt) (x : State × Word32) (p : Nat × Nat) : State × Word32 :=
  let y := drainCell x.1 e p.1 p.2
  (x.1.modB fun b => b.putTile y.1.1 y.1.2.1 y.1.2.2 (BitVec.ofNat 32 y.2.code), x.2 ||| y.2.fl)

/-- The tiles and flags that a `cdrain` leaves (R262). -/
def cdrainRun (s : State) (e : EngEnt) : State × Word32 := (drainedCells e.cmd).foldl (drainInto e) (s, 0)

/-- `CDRAIN_COMPLETION` (R262). -/
def execCdrainCompletion (core : Nat) (s : State) : Out :=
  withEng s core fun e s1 =>
    match e.cmd with
    | .cdrain _ _ _ _ _ _ _ _ _ _ =>
      if s1.parityHit e then some (parityFails s1 e) else
        let r := cdrainRun s1 e
        let fl := if e.spoiled || s1.b.counting.undefd then freeFlags s1 else r.2
        some (engDone (r.1.modB fun b => { b with counting := { b.counting with cnt := [], parity := none } }) e .done fl)
    | _ => none

/-! ### Cancelling (R263) -/

/-- The counting state as if a command had not executed, with the commands after it (R263). -/
def undoMeta (s : State) (op : Nat) (before : Counting) : State :=
  let pre := s.c.eng.takeWhile fun e => e.op != some op
  let r := replayMeta s.b.slot before ((s.c.eng.dropWhile fun e => e.op != some op).tail)
  { s with c := { s.c with eng := pre ++ r.1 }, b := { s.b with counting := s.b.counting.withMeta r.2 } }

/-- What the counting array answers to a cancel. -/
def countingCancel (s : State) (e : EngEnt) (op : Nat) : Cancel :=
  match e.cmd with
  | .cloop _ _ _ _ _ n _ _ =>
    let k := if engHead s op then s.freeNat 18 % n else 0
    .taken (engDone (cloopSteps (dropEng s op) e k) e .cancelled 0)
  | .cmerge => if s.freeBit (19 * 2 ^ 60) then .taken (engDone (dropEng s op) e .cancelled 0) else .refused
  | .cspill _ _ _ m | .cdrain _ _ _ _ _ _ _ _ _ m =>
    if s.freeBit (19 * 2 ^ 60) then .taken (engDone (undoMeta s op m) e .cancelled 0) else .refused
  | _ => .refused

end Sys2Proof.Machine
end

