-- ==== Sys2Proof/Machine/Crypto.lean ====
section
/-! DEFINITION. SHA-384 and the verification of ECDSA signatures over brainpoolP384r1 (R413). The manual names both and gives neither:
the hash is FIPS 180-4's and the curve's parameters are RFC 5639's (assumption 16). -/

namespace Sys2Proof.Machine

/-! ### SHA-384 -/

/-- Round constants. -/
def shaK : List Word64 :=
  ([0x428A2F98D728AE22, 0x7137449123EF65CD, 0xB5C0FBCFEC4D3B2F, 0xE9B5DBA58189DBBC,
     0x3956C25BF348B538, 0x59F111F1B605D019, 0x923F82A4AF194F9B, 0xAB1C5ED5DA6D8118,
     0xD807AA98A3030242, 0x12835B0145706FBE, 0x243185BE4EE4B28C, 0x550C7DC3D5FFB4E2,
     0x72BE5D74F27B896F, 0x80DEB1FE3B1696B1, 0x9BDC06A725C71235, 0xC19BF174CF692694,
     0xE49B69C19EF14AD2, 0xEFBE4786384F25E3, 0x0FC19DC68B8CD5B5, 0x240CA1CC77AC9C65,
     0x2DE92C6F592B0275, 0x4A7484AA6EA6E483, 0x5CB0A9DCBD41FBD4, 0x76F988DA831153B5,
     0x983E5152EE66DFAB, 0xA831C66D2DB43210, 0xB00327C898FB213F, 0xBF597FC7BEEF0EE4,
     0xC6E00BF33DA88FC2, 0xD5A79147930AA725, 0x06CA6351E003826F, 0x142929670A0E6E70,
     0x27B70A8546D22FFC, 0x2E1B21385C26C926, 0x4D2C6DFC5AC42AED, 0x53380D139D95B3DF,
     0x650A73548BAF63DE, 0x766A0ABB3C77B2A8, 0x81C2C92E47EDAEE6, 0x92722C851482353B] : List Word64) ++
    [0xA2BFE8A14CF10364, 0xA81A664BBC423001, 0xC24B8B70D0F89791, 0xC76C51A30654BE30,
     0xD192E819D6EF5218, 0xD69906245565A910, 0xF40E35855771202A, 0x106AA07032BBD1B8,
     0x19A4C116B8D2D0C8, 0x1E376C085141AB53, 0x2748774CDF8EEB99, 0x34B0BCB5E19B48A8,
     0x391C0CB3C5C95A63, 0x4ED8AA4AE3418ACB, 0x5B9CCA4F7763E373, 0x682E6FF3D6B2B8A3,
     0x748F82EE5DEFB2FC, 0x78A5636F43172F60, 0x84C87814A1F0AB72, 0x8CC702081A6439EC,
     0x90BEFFFA23631E28, 0xA4506CEBDE82BDE9, 0xBEF9A3F7B2C67915, 0xC67178F2E372532B,
     0xCA273ECEEA26619C, 0xD186B8C721C0C207, 0xEADA7DD6CDE0EB1E, 0xF57D4F7FEE6ED178,
     0x06F067AA72176FBA, 0x0A637DC5A2C898A6, 0x113F9804BEF90DAE, 0x1B710B35131C471B,
     0x28DB77F523047D84, 0x32CAAB7B40C72493, 0x3C9EBE0A15C9BEBC, 0x431D67C49C100D4C,
     0x4CC5D4BECB3E42B6, 0x597F299CFC657E2A, 0x5FCB6FAB3AD6FAEC, 0x6C44198C4A475817]

/-- The initial hash value. -/
def shaH : List Word64 :=
    [0xCBBB9D5DC1059ED8, 0x629A292A367CD507, 0x9159015A3070DD17, 0x152FECD8F70E5939,
     0x67332667FFC00B31, 0x8EB44A8768581511, 0xDB0C2E0D64F98FA7, 0x47B5481DBEFA4FA4]

/-- The hash's functions of words. -/
def shaBig (r1 r2 r3 : Nat) (x : Word64) : Word64 := x.rotateRight r1 ^^^ x.rotateRight r2 ^^^ x.rotateRight r3
def shaSmall (r1 r2 n : Nat) (x : Word64) : Word64 := x.rotateRight r1 ^^^ x.rotateRight r2 ^^^ (x >>> n)

/-- The sixteen words of the message schedule that a round sees, first word the one it uses. -/
def shaNext (w : List Word64) : List Word64 :=
  let g (i : Nat) : Word64 := w.getD i 0
  w.tail ++ [shaSmall 19 61 6 (g 14) + g 9 + shaSmall 1 8 7 (g 1) + g 0]

/-- One round on the eight working variables. -/
def shaRound (v : List Word64) (k w : Word64) : List Word64 :=
  let g (i : Nat) : Word64 := v.getD i 0
  let ch := (g 4 &&& g 5) ^^^ (~~~(g 4) &&& g 6)
  let maj := (g 0 &&& g 1) ^^^ (g 0 &&& g 2) ^^^ (g 1 &&& g 2)
  let t1 := g 7 + shaBig 14 18 41 (g 4) + ch + k + w
  [t1 + shaBig 28 34 39 (g 0) + maj, g 0, g 1, g 2, g 3 + t1, g 4, g 5, g 6]

def shaRounds : List Word64 → List Word64 → List Word64 → List Word64
  | [], _, v => v
  | k :: ks, w, v => shaRounds ks (shaNext w) (shaRound v k (w.headD 0))

/-- The 64-bit words of octets, most significant octet first. -/
def beWords : Nat → List Byte → List Word64
  | 0, _ => []
  | n + 1, l => BitVec.ofNat 64 (ofBe (l.take 8)) :: beWords n (l.drop 8)

/-- Compresses the message's blocks. -/
def shaBlocks : Nat → List Byte → List Word64 → List Word64
  | 0, _, h => h
  | n + 1, l, h =>
    let v := shaRounds shaK (beWords 16 (l.take 128)) h
    shaBlocks n (l.drop 128) ((h.zip v).map fun x => x.1 + x.2)

/-- SHA-384 of some octets: 48 octets. -/
def sha384 (l : List Byte) : List Byte :=
  let pad := (239 - l.length % 128) % 128
  let m := l ++ [0x80] ++ List.replicate pad 0 ++ beBytes 16 (8 * l.length)
  ((shaBlocks (m.length / 128) m shaH).flatMap fun w => beBytes 8 w.toNat).take 48

/-! ### The curve -/

/-- Field prime, coefficients, base point and order of brainpoolP384r1. -/
abbrev ecP : Nat := 0x8CB91E82A3386D280F5D6F7E50E641DF152F7109ED5456B412B1DA197FB71123ACD3A729901D1A71874700133107EC53
abbrev ecA : Nat := 0x7BC382C63D8C150C3C72080ACE05AFA0C2BEA28E4FB22787139165EFBA91F90F8AA5814A503AD4EB04A8C7DD22CE2826
abbrev ecB : Nat := 0x4A8C7DD22CE28268B39B55416F0447C2FB77DE107DCD2A62E880EA53EEB62D57CB4390295DBC9943AB78696FA504C11
abbrev ecGx : Nat := 0x1D1C64F068CF45FFA2A63A81B7C13F6B8847A3E77EF14FE3DB7FCAFE0CBD10E8E826E03436D646AAEF87B2E247D4AF1E
abbrev ecGy : Nat := 0x8ABE1D7520F9C2A45CB1EB8E95CFD55262B70B29FEEC5864E19C054FF99129280E4646217791811142820341263C5315
abbrev ecN : Nat := 0x8CB91E82A3386D280F5D6F7E50E641DF152F7109ED5456B31F166E6CAC0425A7CF3AB6AF6B7FC3103B883202E9046565

/-- x^k modulo m, for k below 2^n. -/
def powMod (m x k : Nat) : Nat → Nat
  | 0 => 1 % m
  | n + 1 => let y := powMod (m) (x * x % m) (k / 2) n; if k % 2 = 1 then x * y % m else y

/-- Inverse modulo a prime. -/
def invMod (m x : Nat) : Nat := powMod m (x % m) (m - 2) 384

/-- Points of the curve; none is the point at infinity. -/
abbrev EcPoint := Option (Nat × Nat)

def ecOn (x y : Nat) : Bool := x < ecP && y < ecP && y * y % ecP == (x * x * x + ecA * x + ecB) % ecP

def ecAdd : EcPoint → EcPoint → EcPoint
  | none, q => q
  | p, none => p
  | some (x, y), some (u, v) =>
    let step (l : Nat) : EcPoint :=
      let w := (l * l + 2 * ecP - x - u) % ecP
      some (w, (l * (x + ecP - w) + ecP - y) % ecP)
    if x = u then
      if (y + v) % ecP = 0 then none else step ((3 * x * x + ecA) * invMod ecP (2 * y) % ecP)
    else step ((v + ecP - y) * invMod ecP (u + ecP - x) % ecP)

/-- k times a point, for k below 2^n. -/
def ecMul (p : EcPoint) (k : Nat) : Nat → EcPoint
  | 0 => none
  | n + 1 => let q := ecMul (ecAdd p p) (k / 2) n; if k % 2 = 1 then ecAdd p q else q

/-- Whether (r, s) is a signature of a message under a public key. -/
def ecdsaOk (key : Nat × Nat) (msg : List Byte) (r s : Nat) : Bool :=
  let e := ofBe (sha384 msg)
  let w := invMod ecN s
  ecOn key.1 key.2 && 0 < r && r < ecN && 0 < s && s < ecN
    && match ecAdd (ecMul (some (ecGx, ecGy)) (e * w % ecN) 384) (ecMul (some key) (r * w % ecN) 384) with
       | some (x, _) => x % ecN == r
       | none => false

/-- The signature of a message under a private key d, with the secret number k (RFC 5639's curve, R413). -/
def ecdsaSign (d k : Nat) (msg : List Byte) : Nat × Nat :=
  match ecMul (some (ecGx, ecGy)) k 384 with
  | some (x, _) => let r := x % ecN; (r, invMod ecN k * (ofBe (sha384 msg) + r * d) % ecN)
  | none => (0, 0)

/-- A nonzero number below the group's order. -/
def ecScalar (x : Nat) : Nat := x % (ecN - 1) + 1

/-- The device identity that ROM derives from the fused secret: the private key and the public key's coordinates (R415). -/
def identityOf (secret : Nat) : Nat × Nat × Nat :=
  let d := ecScalar (Config.deriveKey secret)
  (d, (ecMul (some (ecGx, ecGy)) d 384).getD (0, 0))

/-- A public key as octets: x then y, 48 octets each. -/
def keyBytes (k : Nat × Nat) : List Byte := beBytes 48 k.1 ++ beBytes 48 k.2

end Sys2Proof.Machine
end

