-- ==== Sys2Proof/Machine/Futures.lean ====
section
/-! DEFINITION. The future instructions (R150 to R153). -/

namespace Sys2Proof.Machine

/-- The status word of a future (R152). -/
def State.futureStatus (s : State) (f : FReg) : Word64 :=
  match s.g.f[f.toNat] with
  | .empty => 0
  | .stale _ => 5
  | .held _ =>
    match s.opOf f with
    | none => 5
    | some o =>
      match o.st with
      | .pending => 1
      | .done => 2
      | .failed c => BitVec.ofNat 64 (packBits [(0, 3), (8, c.toNat)])
      | .cancelled => 4

/-- `ftest` observes an operation that it reports done or failed. -/
def execFtest (d : SReg) (f : FReg) (s : State) : Out :=
  let st := s.futureStatus f
  let seen := st.toNat % 8 == 2 || st.toNat % 8 == 3
  finS (if seen then s.observe f else s) 0 d st

def execFwait (d : SReg) (f : FReg) (s : State) : Out :=
  if s.fPending f then .next (s.stall 3) else finS (s.observe f) 0 d (s.futureStatus f)

/-- What an operation's engine answers to a cancel. -/
def engineCancel (s : State) (op : Nat) : Cancel :=
  match s.c.eng.find? fun e => e.op == some op with
  | some e =>
    match e.cmd with
    | .mloop _ _ _ _ _ _ _ _ _ _ _ _ | .mdrain _ _ _ _ _ _ _ _ _ _ _ _ _ | .aset _ _ _ => matrixCancel s e op
    | _ => countingCancel s e op
  | none =>
    match s.c.se0.find? fun c => c.op == op with
    | some c => seCancel s 0 c
    | none =>
      match s.c.se1.find? fun c => c.op == op with
      | some c => seCancel s 1 c
      | none => droverCancel s op

/-- `fcancel` asks the engine once; an operation that is not cancelled runs to its end (R151). Writes a cancelled operation had
made are acquired (R324). -/
def execFcancel (d : SReg) (f : FReg) (s : State) : Out :=
  match s.opOf f with
  | some o =>
    if o.st == .pending then
      if o.noCancel then .next (s.stall 3) else
        match engineCancel s o.slot with
        | .taken t => finS (t.observe f) 0 d (t.futureStatus f)
        | .refused => .next ((s.modOp o.slot fun p => { p with noCancel := true }).stall 3)
        | .later => .next (s.stall 3)
    else finS (s.observe f) 0 d (s.futureStatus f)
  | none => finS s 0 d (s.futureStatus f)

/-- `fget` takes the token and leaves the future empty; the operation keeps its slot (R153). -/
def execFget (d : SReg) (f : FReg) (s : State) : Out :=
  if s.fPending f then .next (s.stall 3) else
    let t : Word64 := match s.g.f[f.toNat] with
      | .empty => 0
      | .held t | .stale t => t
    finS ((s.observe f).setF f .empty) 0 d t

/-- Futures of a group that hold an operation: the generation and slot of their token name it, whatever the band alias. -/
def Group.holds (g : Group) (o : Op) : Bool :=
  g.f.toList.any fun x => match x with
    | .held t => t.toNat % 2 ^ 32 == o.tok
    | _ => false

/-- Whether any future of the band holds an operation. -/
def State.opHeld (s : State) (o : Op) : Bool :=
  s.g.holds o || s.groups.any fun g => g.core == s.g.core && g.band == s.g.band && g.slot != s.g.slot && g.holds o

/-- `fput` (R151): a token that names a live operation that no future holds is claimed; a pending future is waited for
first. The token's reserved bits are ignored (R6; DEDUCED, assumption 99). -/
def execFput (f : FReg) (a : SReg) (s : State) : Out :=
  if s.fPending f then .next s.waitFuture else
    let t := s.sreg a &&& 0xFFFFFFFFFF
    let new : Future :=
      if t = 0 then .empty else
        match s.opOfToken t with
        | some o => if s.opHeld o then .stale t else .held t
        | none => .stale t
    let s2 := ((s.observeWaited f).dropFuture f).setF f new
    let s3 := match new with
      | .held _ => match s2.opOfToken t with
        | some o => s2.modOp o.slot fun p => { p with group := s.g.slot }
        | none => s2
      | _ => s2
    .next s3.advance

end Sys2Proof.Machine
end

