-- ==== Sys2Proof/Machine/Pack.lean ====
section
/-! DEFINITION. The pack container (R432 to R435) and the checks on handlers at open (R159, R312, R356). -/

namespace Sys2Proof.Machine

/-- A part entry of a pack (R432). -/
structure PackPart where
  kind : Nat
  level : Nat
  off : Nat
  size : Nat
deriving DecidableEq, Repr, Inhabited

/-- A pack's header fields and parts. -/
structure Pack where
  lookahead : Nat
  nhand : Nat
  parts : List PackPart
deriving DecidableEq, Repr, Inhabited

/-- Whether all of some bytes are zero. -/
def zeros (l : List Byte) : Bool := l.all fun x => x == 0

/-- One part entry, with its reserved fields zero. -/
def readPart (e : List Byte) (length : Nat) : Option PackPart :=
  let p : PackPart := ⟨fieldAt e 0 1, fieldAt e 1 1, fieldAt e 8 8, fieldAt e 16 8⟩
  if zeros ((e.drop 2).take 6) && zeros ((e.drop 24).take 8) && 1 ≤ p.kind && p.kind ≤ 3 && (p.kind == 1 || p.level == 0)
      && p.off % 16 == 0 && p.off + p.size ≤ length then some p else none

/-- Whether two parts share no byte. -/
def PackPart.apart (p q : PackPart) : Bool := p.size == 0 || q.size == 0 || p.off + p.size ≤ q.off || q.off + q.size ≤ p.off

/-- Whether every two parts of a list are apart. -/
def partsApart : List PackPart → Bool
  | [] => true
  | p :: ps => ps.all p.apart && partsApart ps

/-- The header and parts of a pack; none where it is malformed (R432, R435). -/
def readPack (l : List Byte) : Option Pack :=
  let n := fieldAt l 5 1
  if fieldAt l 0 4 != 0x4C5A504B || fieldAt l 4 1 != 1 || n < 1 || 16 < n || fieldAt l 6 2 != 0 || fieldAt l 8 8 != l.length
      || !zeros ((l.drop 28).take 36) || l.length < 64 + 32 * n then none
  else
    let nhand := fieldAt l 24 4
    let parts := (upTo n).filterMap fun j => readPart ((l.drop (64 + 32 * j)).take 32) l.length
    if parts.length == n && partsApart parts && 1 ≤ nhand && nhand ≤ Config.handlers then
      some ⟨fieldAt l 16 8, nhand, parts⟩
    else none

/-- Bytes of a part. -/
def PackPart.bytes (p : PackPart) (l : List Byte) : List Byte := (l.drop p.off).take p.size

/-! ### Handler records (R311, R433) -/

/-- The handler that a record describes; section bases are offsets. -/
def recordHandler (id : Nat) (e : List Byte) : Handler :=
  let x := ofLe (e.take 64)
  let f (lo len : Nat) : Nat := bitsOf x lo len
  { id := BitVec.ofNat 16 id, sbase := BitVec.ofNat 64 (f 0 64), ssize := BitVec.ofNat 32 (f 64 32),
    sentry := BitVec.ofNat 32 (f 96 32), lbase := BitVec.ofNat 64 (f 128 64), lsize := BitVec.ofNat 32 (f 192 32),
    lentry := BitVec.ofNat 32 (f 224 32), scratch := BitVec.ofNat 32 (f 256 32), lregs := BitVec.ofNat 5 (f 288 5),
    sregs := BitVec.ofNat 7 (f 293 7), band := BitVec.ofNat 4 (f 300 4), gang := BitVec.ofNat 3 (f 304 3),
    carve := BitVec.ofNat 3 (f 307 3), prio := BitVec.ofNat 2 (f 310 2), glat := f 312 1 == 1,
    tiles := BitVec.ofNat 6 (f 313 6), counts := f 319 1 == 1, valid := f 320 1 == 1 }

/-- The 64 bytes of a record. -/
def Handler.record (h : Handler) : List Byte :=
  leBytes 64 (packBits [(0, h.sbase.toNat), (64, h.ssize.toNat), (96, h.sentry.toNat), (128, h.lbase.toNat), (192, h.lsize.toNat),
    (224, h.lentry.toNat), (256, h.scratch.toNat), (288, h.lregs.toNat), (293, h.sregs.toNat), (300, h.band.toNat),
    (304, h.gang.toNat), (307, h.carve.toNat), (310, h.prio.toNat), (312, b2n h.glat), (313, h.tiles.toNat), (319, b2n h.counts),
    (320, b2n h.valid)])

/-- A section of a record: its base, size and entry in units of its words, within the part; an empty section has entry 0. -/
def sectionOk (part base size entry unit : Nat) : Bool :=
  base % 16 == 0 && size % unit == 0 && entry % unit == 0 && base + size ≤ part
    && (if size = 0 then entry == 0 else entry < size)

/-- The rules on a valid entry (R159, R161, R312, R356). -/
def Handler.ok (h : Handler) (part : Nat) : Bool :=
  sectionOk part h.sbase.toNat h.ssize.toNat h.sentry.toNat 4 && sectionOk part h.lbase.toNat h.lsize.toNat h.lentry.toNat 12
    && h.sregs.toNat == 64 && h.carve.toNat ≤ 4 && h.tiles.toNat ≤ 32
    && (h.scratch.toNat + 255) / 256 + 3 ≤ carveGranules h.carve
    && (h.band.toNat + 1) * h.units ≤ 1024

/-- The valid handlers of a native part; none where a rule is broken. -/
def readHandlers (nhand : Nat) (part : List Byte) : Option (List Handler) :=
  if part.length < 64 * nhand then none else
    let recs := (chunks nhand 64 (part.take (64 * nhand))).zipIdx
    let good (x : List Byte × Nat) : Bool :=
      let h := recordHandler x.2 x.1
      bitsOf (ofLe x.1) 321 191 == 0 && (!h.valid || h.ok part.length)
    if recs.all good then some ((recs.map fun x => recordHandler x.2 x.1).filter fun h => h.valid) else none

/-! ### The chosen part (R434, R435) -/

/-- Next multiple of 16. -/
def up16 (n : Nat) : Nat := (n + 15) / 16 * 16
def pad16 (l : List Byte) : List Byte := l ++ List.replicate (up16 l.length - l.length) 0

/-- Sections of assembled handlers laid out from an offset, and the records that name them. -/
def layout : Nat → List AsmHandler → List Byte × List Handler
  | _, [] => ([], [])
  | off, a :: as =>
    let s := pad16 a.scalar
    let l := pad16 a.lane
    let h := { a.h with sbase := BitVec.ofNat 64 off, ssize := BitVec.ofNat 32 a.scalar.length,
                        lbase := BitVec.ofNat 64 (off + s.length), lsize := BitVec.ofNat 32 a.lane.length }
    let r := layout (off + s.length + l.length) as
    (s ++ l ++ r.1, h :: r.2)

/-- The native form of an assembled source with a number of records. -/
def Asm.native (a : Asm) (nhand : Nat) : Option (List Byte) :=
  if a.handlers.any fun h => nhand ≤ h.h.id.toNat then none else
    let r := layout (64 * nhand) a.handlers
    let rec0 (i : Nat) : List Byte := match r.2.find? fun h => h.id.toNat == i with
      | some h => h.record
      | none => List.replicate 64 0
    some ((List.range nhand).flatMap rec0 ++ r.1)

/-- What open takes from a pack: the code part, its handlers, the data part, and the lookahead. -/
structure Opened where
  code : List Byte
  handlers : List Handler
  data : List Byte
  lookahead : Nat
deriving DecidableEq, Repr, Inhabited

/-- Chooses the part of level 1, else the portable part; none refuses the pack (R435). The lookahead is the header's beside native
code (R432), and the source's `.lookahead` where a portable part is assembled (R299, R429). -/
def openPack (l : List Byte) : Option Opened :=
  match readPack l with
  | none => none
  | some p =>
    let given := (p.parts.find? fun q => q.kind == 3).map fun q => q.bytes l
    let fin (code own : List Byte) (lookahead : Nat) : Option Opened :=
      (readHandlers p.nhand code).map fun hs => ⟨code, hs, given.getD own, lookahead⟩
    match p.parts.filter fun q => q.kind == 1 && q.level == 1 with
    | [q] => fin (q.bytes l) [] p.lookahead
    | [] => match p.parts.find? fun q => q.kind == 2 with
      | none => none
      | some q => match assemble (q.bytes l) with
        | none => none
        | some a => match a.native p.nhand with
          | none => none
          | some code => fin code a.data a.lookahead
    | _ => none

/-- A handler with its section bases at the code region's virtual address (R433). -/
def Handler.at (h : Handler) (va : Word64) : Handler := { h with sbase := va + h.sbase, lbase := va + h.lbase }

end Sys2Proof.Machine
end

