-- ==== Sys2Proof/Machine/Sync.lean ====
section
/-! DEFINITION. Fences (R327, R238, R331), barriers (R183, R185) and `waitp` (R180). -/

namespace Sys2Proof.Machine

/-- Acquires every operation that the group's futures hold and that is no longer pending (R323). -/
def State.acquireFutures (s : State) : State :=
  (upTo 16).foldl (fun t i =>
    match t.opOf (BitVec.ofNat 4 i) with
    | some o => if o.st == .pending then t else t.acquire (opTag t.c o.slot)
    | none => t) s

/-- `fence.sc` (R328). -/
def execFenceSc (s : State) : Out :=
  if s.allDone && !s.anyPending && s.pathCount .sp == 0 && s.pathCount .ga == 0 then
    .next s.acquireFutures.acquireCopies.closeWindows.advance
  else .next (s.stall 3)

/-- `fence.eng` drains the band's scratchpad write queues to the wide port (R238). -/
def execFenceEng (s : State) : Out :=
  if s.allDone then .next (s.modB Band.drain).closeWindows.advance else .next (s.stall 3)

/-- The lines that `fence.fabric` publishes (R331): those of the journey's pool memory that hold an unpublished write, of any journey of the
room, or an engine write that the group has acquired (what other journeys stored is DEDUCED, assumption 115). -/
def State.fenceLines (s : State) : List Nat :=
  (s.j.dirty ++ (s.j.engLines fun u => u.seen.contains s.me) ++ (s.frameMates.flatMap (·.dirty)).filter s.j.holdsLine).eraseDups

/-- `fence.fabric` (R331): queues a write-back for each of its lines that has none, and counts itself on the `st` path until they are
performed. -/
def execFenceFabric (s : State) : Out :=
  if !s.allDone then .next (s.stall 3) else
    match s.countAcc .st with
    | none => .next (s.stall 3)
    | some (s1, tag) =>
      let j := s1.j
      let lines := s.fenceLines
      let queued := j.wbs.filter fun w => lines.contains w.line
      let abroad := s.frameMates.flatMap fun k => (k.wbs.filter fun w => lines.contains w.line).map fun w => (k.num, w)
      let own := (lines.filter fun l => !queued.any (fun w => w.line == l) && !abroad.any fun x => x.2.line == l).map fun l =>
        WriteBack.mk l j.nextFence
      let f : FenceRec := { id := j.nextFence, core := s.g.core, group := s.g.slot, band := s.g.band,
                            iaddr := s.g.insAddr, span0 := s.g.span0, round := s.g.round, acc := tag, after := queued, abroad := abroad }
      if own.isEmpty then .next (s1.modG fun g => g.finAcc tag).closeWindows.advance
      else .next (s1.modJ fun j => { j with wbs := j.wbs ++ own, fences := j.fences ++ [f], nextFence := j.nextFence + 1 }
        ).closeWindows.advance

/-! ### Barriers -/

/-- The focused group's gang barrier. -/
def State.gangBar (s : State) : Option GangBar := s.j.gangs.find? fun x => x.bands.contains (s.g.core, s.g.band)

/-- Whether an arrival in a phase is still to be completed. -/
def stillIn (arr : Option Nat) (phase : Nat) : Bool := arr == some phase

/-- Arrives at the band barrier. -/
def State.arriveBand (s0 : State) : State :=
  let s := s0.release (.band s0.g.core s0.g.band s0.b.phase)
  { s with b := { s.b with arrived := s.b.arrived ++ [s.g.slot] }, g := { s.g with arrB := some s.b.phase } }

/-- Arrives at the gang barrier. -/
def State.arriveGang (s0 : State) (x : GangBar) : State :=
  let s := s0.release (.gang x.num x.phase)
  let x' := { x with arrived := x.arrived ++ [(s.g.core, s.g.slot)] }
  { s with j := { s.j with gangs := s.j.gangs.map fun y => if y.num == x.num then x' else y },
           g := { s.g with arrG := some x.phase } }

/-- Passes a completed phase, if the group had arrived in one. -/
def State.passed (s : State) (p : Option BarPhase) : State :=
  match p with
  | some x => s.acquirePhase x
  | none => s

/-- `bar.arrive`, `bar`'s first half (R183): a guard record is reported first (R186). The wait for the phase of an earlier arrival acquires what
that phase releases (R184). -/
def arriveThen (s : State) (k : State → Out) : Out :=
  if s.allDone then
    match s.g.guard with
    | some r => .next (s.closeWindows.reportGuard r)
    | none =>
      if stillIn s.g.arrB s.b.phase then .next (s.stall 4)
      else k ((s.passed (s.g.arrB.map fun p => .band s.g.core s.g.band p)).arriveBand.closeWindows)
  else .next (s.stall 4)

/-- The wait half: passes once the phase of the pending arrival is complete. -/
def waitBand (s : State) : Out :=
  if stillIn s.g.arrB s.b.phase then .next (s.stall 4)
  else .next ((s.passed (s.g.arrB.map fun p => .band s.g.core s.g.band p)).modG fun g => { g with arrB := none }).advance

/-- A barrier that has arrived at its place waits there. -/
def heldAt (s : State) : Out := .next ((s.modG fun g => { g with mid := true }).stall 4)

/-- `bar` (R183): arrives, then waits. -/
def barBand (s : State) : Out := if s.g.mid then waitBand s else arriveThen s heldAt

def execBar (s : State) : Out := barBand s
def execBarArrive (s : State) : Out := arriveThen s fun t => .next t.advance
def execBarWait (s : State) : Out :=
  match s.g.guard with
  | some r => .next (s.reportGuard r)
  | none => waitBand s

/-- `gbar` (R185): as `bar` over the gang; outside a gang it is `bar`. -/
def execGbar (s : State) : Out :=
  match s.gangBar with
  | none => barBand s
  | some x =>
    if s.g.mid then
      if stillIn s.g.arrG x.phase then .next (s.stall 4)
      else .next ((s.passed (s.g.arrG.map fun p => .gang x.num p)).modG fun g => { g with arrG := none }).advance
    else
      if s.allDone then
        match s.g.guard with
        | some r => .next (s.closeWindows.reportGuard r)
        | none => if stillIn s.g.arrG x.phase then .next (s.stall 4) else heldAt ((s.passed (s.g.arrG.map fun p => .gang x.num p)).arriveGang x).closeWindows
      else .next (s.stall 4)

/-! ### `waitp` -/

/-- Waits until the path's count is at or below the threshold (R180). -/
def waitPath (s : State) (p : Path) (a : SReg) (k : State → State) : Out :=
  if s.pathCount p ≤ (s.sreg a).toNat then .next (k s).advance else .next (s.stall 4)

def execWaitpLd (a : SReg) (s : State) : Out := waitPath s .ld a id
def execWaitpSt (a : SReg) (s : State) : Out := waitPath s .st a id
/-- The copies seen lowered are acquired (R181). -/
def execWaitpSp (a : SReg) (s : State) : Out := waitPath s .sp a State.acquireCopies
def execWaitpGa (a : SReg) (s : State) : Out := waitPath s .ga a id

end Sys2Proof.Machine
end

