-- ==== Sys2Proof/Machine/Retire.lean ====
section
/-! DEFINITION. The end of a group (R145, R353, R360) and the completion of barrier phases (R183, R185, R360). -/

namespace Sys2Proof.Machine

/-! ### `exit` -/

/-- What the core returns when a band's last group retires (R153, R353): its operation slots, and whatever of its engine
queue has no future. -/
def State.returnBand (s : State) : State :=
  let slots := (s.c.ops.filter fun o => o.band == s.b.slot).map (·.slot)
  (slots.foldl State.releaseOp s).modC fun c =>
    { c with eng := c.eng.filter fun e => e.band != s.b.slot, drv := c.drv.filter fun e => e.band != s.b.slot }

/-- The gang barriers without a band that is gone; a gang without bands is gone too. -/
def Journey.leaveGang (j : Journey) (core band : Nat) : Journey :=
  { j with gangs := (j.gangs.map fun x => { x with bands := x.bands.filter fun p => p != (core, band) }).filter fun x =>
      !x.bands.isEmpty }

/-- The focused group retires: its registers and its place go back, and with the last group what its band holds. -/
def State.retire (s : State) : State :=
  let left := s.b.members.filter fun m => m != s.g.slot
  let s1 := (s.modG fun g => { g with dead := true, spc := g.insAddr, wait := 8 }).modB fun b =>
    { b with members := left, regUnits := b.regUnits.filter fun u => u.1 != s.g.slot }
  if left.isEmpty then s1.returnBand.modJ fun j => j.leaveGang s.g.core s.g.band else s1

/-- `exit` (R145): once everything earlier has completed, a guard record is reported (R166); else the group retires when no future is
pending. -/
def execExit (s : State) : Out :=
  if s.allDone then
    match s.g.guard with
    | some r => .next (s.closeWindows.reportGuard r)
    | none => if s.anyPending then .next (s.stall 3) else .next (s.retire.trace 3)
  else .next (s.stall 3)

/-! ### Barrier phases -/

/-- Living groups of bands, as places. -/
def State.membersOf (s : State) (bands : List (Nat × Nat)) : List (Nat × Nat) :=
  bands.flatMap fun p => match s.band? p.1 p.2 with
    | some b => b.members.map fun m => (p.1, m)
    | none => []

/-- `BARRIER_PHASE_COMPLETE`: a phase in which every living member has arrived completes. -/
def execBarrierPhaseComplete (core band : Nat) (gang : Bool) (s : State) : Out :=
  match s.band? core band with
  | none => .next s
  | some b =>
    if gang then
      match (s.journey? b.journey).bind fun j => j.gangs.find? fun x => x.bands.contains (core, band) with
      | none => .next s
      | some x =>
        if (s.membersOf x.bands).all fun m => x.arrived.contains m then
          .next (s.modJourney b.journey fun j => { j with gangs := j.gangs.map fun y =>
            if y.num == x.num then { y with phase := y.phase + 1, arrived := [] } else y })
        else .next s
    else if b.members.all fun m => b.arrived.contains m then
      .next (s.putBand { b with phase := b.phase + 1, arrived := [] })
    else .next s

end Sys2Proof.Machine
end

