-- ==== Sys2Proof/Machine/Service.lean ====
section
/-! DEFINITION. The Innkeeper's service of translation failures and the replay of parked instructions (R343 to R346), shootdowns
and table migration (R340, R342), imports (R350), and publication (R331, R332). -/

namespace Sys2Proof.Machine

/-! ### Installing a mapping -/

/-- Whether a new mapping keeps the limits of R334 to R336 and R349 in its journey; no frame is reused before its shootdown completes (R342,
assumption 113). -/
def mapOk (s : State) (j : Journey) (m : MapArg) : Bool :=
  let sh := pageShift m.size
  let t := m.target.toNat
  m.vpn < 2 ^ (57 - sh)
    && (if m.window then t / 2 ^ 16 * 2 ^ 16 % 2 ^ sh == 0 && j.windows.any (fun w => w.idx == t % 2 ^ 16)
        else t % 2 ^ sh == 0 && !s.framePending t (2 ^ sh) && (s.room? j.room).any fun r => r.holds t (2 ^ sh))

/-- The entry of the same page that a mapping changes: one that loses a right or gets another target, for which the Innkeeper needs a
shootdown (R342). -/
def mapChanges (j : Journey) (m : MapArg) : Option Pte :=
  ((j.tables[m.size.toNat]?).bind fun t => t.probe m.vpn).filter fun e =>
    !(e.window == m.window && e.target == m.target && (!e.r || m.r) && (!e.w || m.w) && (!e.x || m.x))

/-- Whether accesses of a journey that may have used an old translation are outstanding (R342): lane requests, window accesses and copies,
and lane words of which a part has been performed. -/
def State.inFlight (s : State) (jn : Nat) : Bool :=
  (s.reqs.any fun q => (s.group? q.core q.slot).any fun g => g.journey == jn)
    || (s.bands.any fun b => b.journey == jn && !b.copies.isEmpty)
    || s.groups.any fun g => g.journey == jn && g.lq.any fun e => !e.pages.isEmpty

/-- A shootdown over a room (R342): every core empties its matching TLB entries and sweeps the last-page register of every lane. -/
def State.sweep (s : State) (room jn : Nat) : State :=
  let swept : State :=
    { s with cores := s.cores.map fun c => { c with tlb := c.tlb.filter fun e => e.journey != jn },
             groups := s.groups.map fun g => if g.room == room then { g with pages := [] } else g }
  swept.modRoom room fun r => { r with tableGen := r.tableGen + 1 }

/-- The bytes of a frame in another one. -/
def Memory.frameTo (m : Memory) (src dst len : Nat) : Memory :=
  (m.filter fun e => src ≤ e.1 && e.1 < src + len).foldl (fun k e => k.put (e.1 - src + dst) e.2)
    (m.filter fun e => !(dst ≤ e.1 && e.1 < dst + len))

/-- Whether an entry's page lies over a run of pool memory. -/
def Pte.overlaps (e : Pte) (pa len : Nat) : Bool :=
  !e.window && e.target.toNat < pa + len && pa < e.target.toNat + 2 ^ pageShift e.size

/-- Whether a page of the room other than one entry of a journey lies over a frame: such a frame is neither moved nor moved to. -/
def State.frameShared (s : State) (room jn : Nat) (e : Pte) (pa len : Nat) : Bool :=
  (s.journeys.filter fun k => k.room == room).any fun k => k.tables.any fun t => t.entries.any fun x =>
    !(k.num == jn && x == e) && x.overlaps pa len

/-- Moves a page to another frame, with what is known of its bytes (R342): publication, queued write-backs and engine writes follow them, and
so does what is poisoned. -/
def State.moveFrame (s : State) (jn src dst len : Nat) : State :=
  let inRun (lo a : Nat) : Bool := lo ≤ a && a < lo + len
  let shift (a : Nat) : Nat := if inRun src a then a - src + dst else a
  let line (l : Nat) : Nat := shift (128 * l) / 128
  let wb (w : WriteBack) : WriteBack := { w with line := line w.line }
  let kept := s.poison.filter fun l => !inRun dst (128 * l)
  let carried := (s.poison.filter fun l => inRun src (128 * l)).map line
  let moved : State :=
    { s with mem := s.mem.frameTo src dst len, pool := s.pool.frameTo src dst len, poison := kept ++ carried,
             journeys := s.journeys.map fun k => { k with fences := k.fences.map fun f =>
               { f with abroad := f.abroad.map fun x => if x.1 == jn then (x.1, wb x.2) else x } } }
  moved.modJourney jn fun j =>
    { j with dirty := j.dirty.map line, unacq := j.unacq.map (fun u => { u with addr := shift u.addr }),
             wbs := j.wbs.map wb, fences := j.fences.map fun f => { f with after := f.after.map wb } }

/-- Installs the mapping that the Innkeeper chose, where it chose one that it may install. A change of an entry waits for the accesses that
used it: the caches are swept, and a page that gets another frame is moved there (R342; which it moves, and over which frames, is DEDUCED,
assumption 113). -/
def serveMap (s : State) (jn : Nat) (m : Option MapArg) : State :=
  match m, s.journey? jn with
  | some a, some j =>
    if !mapOk s j a then s else
      match mapChanges j a with
      | none => s.putJourney (j.install s (mapPte a))
      | some e =>
        let len := 2 ^ pageShift a.size
        let moves := !e.window && !a.window && e.target != a.target
        let shared (t : Word64) : Bool := s.frameShared j.room jn e t.toNat len
        if s.inFlight jn || moves && (shared e.target || shared a.target) then s else
          let s1 := if moves then s.moveFrame jn e.target.toNat a.target.toNat len else s
          ((s1.modJourney jn fun k => k.install s (mapPte a)).sweep j.room jn)
  | _, _ => s

/-- The code of an access's failure as the tables stand; none where the access is legal. -/
def failCode (s : State) (jn : Nat) (p : Park) : Option Nat :=
  match s.journey? jn with
  | none => none
  | some j => match s.walkOf j (needOf p.access) p.va with
    | .fail c => some c
    | _ => none

/-- The record of an unresolved failure (R347). -/
def parkRec (g : Group) (p : Park) (code : Nat) (lane : Bool) : FaultRec :=
  let e := if lane then g.lq.head? else none
  { code := code, held := true, journey := g.journey, core := g.core, group := g.slot, band := g.band,
    agent := if p.access = 3 then 5 else 0, iaddr := p.atAddr,
    waddr := (match e with | some x => x.addr | none => 0),
    lqaddr := (match e with | some x => x.lqAddr | none => 0),
    lanes := (match e with | some x => x.todo | none => 0), lane := p.lane, access := p.access.toNat, vaddr := p.va,
    span0 := g.span0, round := g.round }

/-- Whether a failure still waits for the Innkeeper. -/
def Park.waits (p : Park) : Bool := !p.ready && !p.recorded

/-- Serves a group's parked instruction: it may replay, or its failure is recorded and it stays parked (R345). -/
def serveGroup (s : State) (g : Group) (p : Park) (lane : Bool) (m : Option MapArg) : State :=
  let s1 := serveMap s g.journey m
  let put (s : State) (q : Park) : State :=
    s.putGroup (if lane then { g with lpark := some q } else { g with park := some q })
  match failCode s1 g.journey p with
  | none => put s1 { p with ready := true }
  | some c => put (s1.postRecord g.room (parkRec g p c lane)) { p with recorded := true }

/-- The stream engine whose queue begins with an operation. -/
def engineOf (c : Core) (op : Nat) : Option (Nat × SeCmd) :=
  if c.se0.head?.any fun x => x.op == op then c.se0.head?.map fun x => (0, x)
  else if c.se1.head?.any fun x => x.op == op then c.se1.head?.map fun x => (1, x)
  else none

/-- Serves an engine's suspended access: the operation goes on, or it fails with cause 1 and a record (R346, R222, R282). -/
def serveEngine (s : State) (core : Nat) (o : Op) (p : Park) (m : Option MapArg) : State :=
  let s0 := s.focusBand core o.band o.group
  let s1 := (serveMap s s0.g.journey m).focusBand core o.band o.group
  match failCode s1 s0.g.journey p with
  | none => (s1.modOp o.slot fun x => { x with park := none }).unfocus
  | some c =>
    let r := { s1.groupRec c with iaddr := o.iaddr, access := p.access.toNat, vaddr := p.va }
    match engineOf s1.c o.slot with
    | some (eng, cmd) =>
      (seFail ((s1.modOp o.slot fun x => { x with park := none }).postRecord s1.g.room { r with agent := 2 + eng, info := 1 })
        eng cmd 1).unfocus
    | none =>
      (loseDrv (s1.postRecord s1.g.room { r with agent := 4, info := p.atAddr.toNat % 8 }) o.slot p).unfocus

/-- A request's failed page is served: the request goes on, whether it is resolved or not (R343, R374). -/
def serveRequest (s : State) (jn : Nat) (p : Pending) (m : Option MapArg) : State :=
  (serveMap s jn m).modJourney jn fun j => { j with pend := some { p with served := true } }

/-- Whether a journey is closing: results that return with its old tag are discarded without a record (R352). -/
def State.closing (s : State) (jn : Nat) : Bool := (s.journey? jn).any fun j => j.state == .closing

/-- `FAULT_SERVICE` (R343): the Innkeeper probes again, may install a mapping, and otherwise records the failure. -/
def execFaultService (site : FailSite) (install : Option MapArg) (s : State) : Out :=
  match site with
  | .request jn =>
    match (s.journey? jn).bind (·.pend) with
    | some p => if p.fail.isSome && !p.served then .next (serveRequest s jn p install) else .next s
    | none => .next s
  | .scalar core slot =>
    match s.group? core slot with
    | some g => match g.park with
      | some p => if p.waits && !s.closing g.journey then .next (serveGroup s g p false install) else .next s
      | none => .next s
    | none => .next s
  | .lane core slot =>
    match s.group? core slot with
    | some g => match g.lpark with
      | some p => if p.waits && !s.closing g.journey then .next (serveGroup s g p true install) else .next s
      | none => .next s
    | none => .next s
  | .engine core op =>
    match (s.core core).ops.find? fun o => o.slot == op with
    | some o => match o.park with
      | some p => if p.waits && o.st == .pending then .next (serveEngine s core o p install) else .next s
      | none => .next s
    | none => .next s

/-- The scalar stream goes back to its parked instruction: where others have issued past it, their place is kept (R48). -/
def Group.replay (g : Group) : Group :=
  match g.ahead.from' with
  | none => { g with park := none, wait := 1 }
  | some a => { g with park := none, wait := 1, spc := a, passed := true,
                       ahead := { g.ahead with left := 0, from' := none, back := if g.spc = a then none else some g.spc } }

/-- `PARKED_REPLAY` (R344): a parked instruction whose failure is resolved executes again, with its unfinished lanes. The scalar stream
of a halted group stays where the halt came (R405, R410); its replay follows the resume. -/
def execParkedReplay (core slot : Nat) (s : State) : Out :=
  match s.group? core slot with
  | none => .next s
  | some g =>
    let g1 := if g.park.any (·.ready) && !g.halted then g.replay else g
    .next (s.putGroup (if g1.lpark.any (·.ready) then { g1 with lpark := none } else g1))

/-! ### Shootdowns and tables -/

/-- Journeys of a room. -/
def State.journeysOf (s : State) (room : Nat) : List Journey := s.journeys.filter fun j => j.room == room

/-- One slot index of an old descriptor is migrated: its entries are in the new descriptor before the cursor passes them (R340). -/
def Table.migrate (s : State) (t : Table) : Table :=
  let keys := [0, 1, 2].map fun w => t.old.entryAt w t.old.cursor
  let es := t.old.slots.filter fun e => keys.contains e.1
  let enter (d : TableDesc) (e : Nat × Pte) : TableDesc := if (d.probe false e.2.vpn).isSome then d else d.enter s e.2
  let old := { t.old with cursor := t.old.cursor + 1, slots := t.old.slots.filter fun e => !keys.contains e.1 }
  { cur := es.foldl enter t.cur, old := if old.cursor < 2 ^ old.lgn then old else {} }

/-- Whether a table's entries would fill no more than half of its slots at one size less. -/
def Table.sparse (t : Table) : Bool := 4 * t.cur.slots.length ≤ 3 * 2 ^ t.cur.lgn

/-- A table's next step: its migration goes on, or the Innkeeper by a free choice starts a resize to a size one greater or, where the entries
leave room for it, one less, between 2^8 and 2^31 slots in a way (R337, R340). -/
def Table.turn (s : State) (t : Table) : Table :=
  if t.old.live then t.migrate s
  else if s.freeBit (58 * 2 ^ 60) && t.cur.lgn < 31 then t.resize s (t.cur.lgn + 1)
  else if s.freeBit (58 * 2 ^ 60 + 1) && 8 < t.cur.lgn && t.sparse then t.resize s (t.cur.lgn - 1)
  else t

/-- `TABLE_MIGRATION`. -/
def execTableMigration (journey : Nat) (size : BitVec 2) (s : State) : Out :=
  .next (s.modJourney journey fun j =>
    { j with tables := j.tables.zipIdx.map fun x => if x.2 == size.toNat then x.1.turn s else x.1 })

/-! ### Imports -/

/-- A message to a peer: the model's own form, a code and the bytes. -/
def State.toPeer (s : State) (peer : BitVec 16) (code : Nat) (l : List Byte) : State :=
  s.modHub fun h => { h with outbox := h.outbox ++ [⟨2 ^ 16 + peer.toNat, BitVec.ofNat 8 code :: l⟩] }

/-- A refused import is counted in its entry (R351). -/
def State.refuseImport (s : State) (m : ImportMsg) (code : Nat) : State :=
  let count (e : Import) : Import :=
    if e.slot == m.islot.toNat then { e with refusals := if e.refusals = 0xFFFFFFFF then e.refusals else e.refusals + 1 } else e
  (s.modHub fun h => { h with imports := h.imports.map count }).toPeer m.peer code []

/-- Rights that an import needs, and whether its entry grants them. -/
def importNeed : ImportKind → Need
  | .read => needR
  | .write _ => needW
  | .atomic _ _ _ _ => needRW
def importGranted (k : ImportKind) (e : Import) : Bool :=
  match k with
  | .read => e.r
  | .write _ => e.w
  | .atomic _ _ _ _ => e.a

/-- Bytes that an import accesses: a write's own, and an atomic's operand (R350). -/
def importBytes (m : ImportMsg) : Nat :=
  match m.kind with
  | .read => m.size
  | .write l => l.length
  | .atomic _ ty _ _ => ty.size

/-- The second translation of an import: where it fails, the Innkeeper may resolve the failure (R350). -/
def importReach (s : State) (m : ImportMsg) (e : Import) : State × Xlat :=
  let at_ := e.base + BitVec.ofNat 64 m.off
  let go (t : State) : Xlat := match t.journey? e.journey with
    | some j => t.walkOf j (importNeed m.kind) at_
    | none => .fail 0x13
  match go s with
  | .fail _ => let t := serveMap s e.journey m.install; (t, go t)
  | x => (s, x)

/-- `IMPORT` (R350, R330): the entry, its bounds and rights, the second translation, then the access: reads see pool memory,
writes and atomics are accesses in the order of R318 whose result is written to pool memory too. In recovery the management port alone
runs (R414). -/
def execImportAcc (m : ImportMsg) (s0 : State) : Out :=
  if s0.hub.boot != .up then .next s0 else
  match s0.hub.imports.find? fun e => e.slot == m.islot.toNat && e.key == m.key with
  | none => .next (s0.refuseImport m 0x17)
  | some e =>
    if e.length.toNat < m.off + importBytes m || !importGranted m.kind e then .next (s0.refuseImport m 0x18) else
      let (s, reach) := importReach s0 m e
      match s.journey? e.journey with
      | none => .next (s.refuseImport m 0x17)
      | some j =>
        match reach with
        | .pool pa =>
          let s1 := { s with j := j }
          match m.kind with
          | .read =>
            if s.poisoned pa m.size then .next (s.refuseImport m 0x19) else .next (s.toPeer m.peer 0 (s.pool.read pa m.size))
          | .write l =>
            let s2 := (s1.memWrite pa l).clearPoison [(pa, l.length)]
            .next ((({ s2 with pool := s2.pool.write pa l }).putJourney s2.j).toPeer m.peer 0 [])
          | .atomic op ty v cmp =>
            if s.poisoned pa ty.size then .next (s.refuseImport m 0x19) else
              let old := s1.keeperBytes pa ty.size
              let l := leBytes ty.size (combine op ty (ofLe old) v.toNat cmp.toNat)
              let s2 := s1.memWrite pa l
              .next ((({ s2 with pool := s2.pool.write pa l }).putJourney s2.j).toPeer m.peer 0 old)
        | _ => .next (s.refuseImport m 0x19)

/-! ### Publication -/

/-- A line's bytes reach pool memory, and the line is published, for every journey of the room. -/
def State.publish (s : State) (line : Nat) : State :=
  { s with pool := s.pool.write (128 * line) (s.mem.read (128 * line) 128), j := s.j.pubLine line,
           journeys := s.journeys.map fun k => if k.room == s.j.room then k.pubLine line else k }

/-- Write-backs of a journey that may be performed next (R331): their fence's group has no earlier fence outstanding, and what was queued
for its lines, by any journey, is performed. -/
def State.readyWbs (s : State) (j : Journey) : List WriteBack :=
  j.wbs.filter fun w => match j.fences.find? fun f => f.id == w.fence with
    | none => true
    | some f => (f.after.all fun x => !j.wbs.contains x)
        && (f.abroad.all fun x => !(s.journey? x.1).any fun k => k.wbs.contains x.2)
        && !j.fences.any fun e => e.id < f.id && e.core == f.core && e.group == f.group && j.wbs.any fun x => x.fence == e.id

/-- Fences whose own write-backs are all performed end: the count of the group that executed one is finished. -/
def State.endFences (s : State) : State :=
  let ended := s.j.fences.filter fun f => !s.j.wbs.any fun w => w.fence == f.id
  let fin (g : Group) : Group := (ended.filter fun f => f.core == g.core && f.group == g.slot).foldl (fun g f => g.finAcc f.acc) g
  { s with groups := s.groups.map fin, j := { s.j with fences := s.j.fences.filter fun f => !ended.contains f } }

/-- Raises `further` of the journey's PublishRevoked record in its room's queue. -/
def raiseFurther (j : Nat) (q : List (List Byte)) : List (List Byte) :=
  q.map fun r => if fieldAt r 0 1 == 0x12 && fieldAt r 2 1 == j then
    r.take 45 ++ [BitVec.ofNat 8 (min 255 (fieldAt r 45 1 + 1))] ++ r.drop 46 else r

/-- A virtual address that maps a line of the pool, or 0. -/
def Journey.vaOf (j : Journey) (pa : Nat) : Nat :=
  let hits := j.tables.flatMap fun t => t.entries.filterMap fun e =>
    let sh := pageShift e.size
    if !e.window && e.target.toNat ≤ pa && pa < e.target.toNat + 2 ^ sh then some (e.vpn * 2 ^ sh + (pa - e.target.toNat)) else none
  hits.headD 0

/-- Whether a room's queue still holds a journey's PublishRevoked record. -/
def State.revokedReported (s : State) (room jn : Nat) : Bool :=
  (s.room? room).any fun r => r.faultq.any fun x => fieldAt x 0 1 == 0x12 && fieldAt x 2 1 == jn

/-- A write-back that meets revoked pool memory is dropped, reported and stops the journey (R332); failures after the first one of the
journey's run raise the count of its record while it can still be raised. -/
def State.publishRevoked (s : State) (w : WriteBack) : State :=
  let s1 := { s with j := s.j.pubLine w.line }
  if s.j.publishFailed && s.revokedReported s.j.room s.j.num then
    (s1.modRoom s.j.room fun r => { r with faultq := raiseFurther s.j.num r.faultq }).stopJourney s.j.num 0x12
  else
    let r : FaultRec := match s.j.fences.find? fun f => f.id == w.fence with
      | some f => { code := 0x12, stopped := true, journey := s.j.num, core := f.core, group := f.group, band := f.band,
                    iaddr := f.iaddr, span0 := f.span0, round := f.round, paddr := 128 * w.line,
                    vaddr := BitVec.ofNat 64 (s.j.vaOf (128 * w.line)) }
      | none => { code := 0x12, stopped := true, journey := s.j.num, paddr := 128 * w.line }
    (({ s1 with j := { s1.j with publishFailed := true } }).postRecord s.j.room r).stopJourney s.j.num 0x12

/-- Performs one write-back of the focused journey. -/
def State.writeBackOne (s : State) (w : WriteBack) : State :=
  let s1 := { s with j := { s.j with wbs := dropFirst (fun x => x == w) s.j.wbs } }
  let held := (s.room? s.j.room).any fun r => r.holds (128 * w.line) 128
  (if held then s1.publish w.line else { s1 with j := s1.j }.publishRevoked w).endFences

/-- `WRITE_BACK`: one queued write-back of a journey is performed. -/
def execWriteBack (journey : Nat) (s : State) : Out :=
  match s.journey? journey with
  | none => .next s
  | some j =>
    match pick s 34 (s.readyWbs j) with
    | none => .next s
    | some w => let t := ({ s with j := j }).writeBackOne w; .next (t.putJourney t.j)

/-- Whether no journey of the room has queued a write-back of a line. -/
def State.unqueued (s : State) (room line : Nat) : Bool :=
  s.journeys.all fun k => k.room != room || k.wbs.all fun w => w.line != line

/-- `LINE_PUBLICATION` (R331): a line that no fence has queued may be published at any time; none overtakes the write-backs
that its journey has queued. -/
def execLinePublication (line : Nat) (s : State) : Out :=
  match s.journeys.find? fun j => (j.dirty ++ j.engLines fun _ => true).contains line && j.wbs.isEmpty && s.unqueued j.room line with
  | none => .next s
  | some j => let t := ({ s with j := j }).publish line; .next (t.putJourney t.j)

end Sys2Proof.Machine
end

