-- ==== Sys2Proof/Machine/Images.lean ====
section
/-! DEFINITION. Pre-emption and the checkpoint image (R361 to R365), and restore (R366 to R369). -/

namespace Sys2Proof.Machine

/-! ### Bringing a journey to rest (R361, R362, R200) -/

/-- Groups and bands of a journey. -/
def State.groupsOf (s : State) (jn : Nat) : List Group := s.groups.filter fun g => g.journey == jn
def State.bandsOf (s : State) (jn : Nat) : List Band := s.bands.filter fun b => b.journey == jn

/-- A group that stands inside a `rep` sequence or inside a lane word, where pre-emption does not stop it (R92, R361). -/
def Group.between (g : Group) : Bool :=
  g.inRep || ((g.lq.head?).any (fun e => e.acc.isSome) && g.lpark.isNone)

/-- Whether every group of a journey stands where it may be stopped. -/
def State.stoppable (s : State) (jn : Nat) : Bool := !(s.groupsOf jn).any Group.between

/-- What a step of the device answers. -/
def unwrap (s : State) : Out → State
  | .next t => t
  | _ => s

/-- Performs every request that a journey's groups have sent, in the order sent (R200). -/
def State.finishReqs (s : State) (jn : Nat) : State :=
  let own := s.reqs.filter fun q => (s.group? q.core q.slot).any fun g => g.journey == jn
  s.performSent own fun u q => u.answer q (u.peerBytes q)

/-- Performs every copy of a journey's bands. -/
def State.finishCopies (s : State) (jn : Nat) : State :=
  (s.bandsOf jn).foldl (fun t b => b.copies.foldl (fun u c =>
    let v := (u.focusBand b.core b.slot c.slot).performCopy c
    ((v.modB fun x => { x with copies := x.copies.filter fun d => d != c }).settleAcc c.tag).unfocus) t) s

/-- Completes the head of a core's engine queue. -/
def engineHead (s : State) (core : Nat) : State :=
  match (s.core core).eng.head? with
  | none => s
  | some e => unwrap s (match e.cmd with
    | .mloop _ _ _ _ _ _ _ _ _ _ _ _ => execMloopCompletion core s
    | .mdrain _ _ _ _ _ _ _ _ _ _ _ _ _ => execMdrainCompletion core s
    | .aset _ _ _ => execAsetCompletion core s
    | .cloop _ _ _ _ _ _ _ _ => execCloopCompletion core s
    | .cdrain _ _ _ _ _ _ _ _ _ _ => execCdrainCompletion core s
    | .cspill _ _ _ _ => execCspillCompletion core s
    | .cmerge | .cclear => execCmergeCompletion core s)

/-- Completes a core's engine queue up to the last entry of a journey's bands (R248, R265). -/
def finishEngine (jn : Nat) : Nat → State → Nat → State
  | 0, s, _ => s
  | n + 1, s, core =>
    if (s.core core).eng.any fun e => (s.band? core e.band).any fun b => b.journey == jn then
      finishEngine jn n (engineHead s core) core
    else s

/-- The cores that hold a journey's bands. -/
def State.coresHolding (s : State) (jn : Nat) : List Nat := ((s.bandsOf jn).map (·.core)).eraseDups

/-- Completes every barrier phase whose members have all arrived (R362). -/
def State.finishBarriers (s : State) (jn : Nat) : State :=
  (s.bandsOf jn).foldl (fun t b =>
    let u := unwrap t (execBarrierPhaseComplete b.core b.slot false t)
    unwrap u (execBarrierPhaseComplete b.core b.slot true u)) s

/-- Performs a write-back of another journey of the room; the focus stays. -/
def State.writeBackOf (s : State) (k : Journey) (w : WriteBack) : State :=
  let t := ({ (s.putJourney s.j) with j := k }).writeBackOne w
  let u := t.putJourney t.j
  { u with j := (u.journey? s.j.num).getD s.j }

/-- Performs the queued write-backs of the focused journey; where they wait for those of another journey of the room, these first. -/
def State.drainWbs (s : State) : Nat → State
  | 0 => s
  | n + 1 => match s.readyWbs s.j with
    | w :: _ => (s.writeBackOne w).drainWbs n
    | [] =>
      if s.j.wbs.isEmpty then s else
        match s.frameMates.findSome? fun k => (s.readyWbs k).head?.map fun w => (k, w) with
        | some x => (s.writeBackOf x.1 x.2).drainWbs n
        | none => s

/-- A stream command at the beginning of its next box, with nothing read ahead. -/
def SeCmd.atBox (c : SeCmd) : SeCmd := { c with elems := [], put := 0, pre := [] }

/-- Brings the stream commands of a journey to a box boundary (R283): the head command finishes the box that it has begun; where a failing
access holds it inside the box, it goes back to the box's beginning and meets the access again when it resumes (DEDUCED, assumption 105). -/
def finishBox (jn : Nat) (s : State) (core eng : Nat) : State :=
  let queue (t : State) : List SeCmd := if eng = 0 then (t.core core).se0 else (t.core core).se1
  let mine (cmd : SeCmd) : Bool := (s.band? core cmd.band).any fun b => b.journey == jn
  match queue s with
  | [] => s
  | cmd :: _ =>
    let s1 :=
      if (cmd.elems.isEmpty && cmd.put == 0) || !mine cmd then s
      else if cmd.kind == 2 then unwrap s (execRingSlotDrain core eng s)
      else if cmd.kind == 3 then unwrap s (execSeSet core eng s)
      else unwrap s (execRingSlotFill core eng s)
    let c := s1.core core
    let back (l : List SeCmd) : List SeCmd := l.map fun x => if mine x then x.atBox else x
    let free (o : Op) : Op := if (queue s1).any fun x => x.op == o.slot && mine x then { o with park := none } else o
    s1.putCore (if eng = 0 then { c with se0 := back c.se0, ops := c.ops.map free } else { c with se1 := back c.se1, ops := c.ops.map free })

/-- Unpublished lines of a journey, engine writes among them. -/
def Journey.openLines (j : Journey) : List Nat := (j.dirty ++ j.engLines fun _ => true).eraseDups

/-- Writes back every unpublished line of the focused journey; a line that the room no longer holds is dropped. -/
def State.flushLines (s : State) : State :=
  let held (l : Nat) : Bool := (s.room? s.j.room).any fun r => r.holds (128 * l) 128
  (s.j.openLines.filter held).foldl (fun t l => t.publish l) s

/-- Publishes a journey's unpublished lines and queued write-backs; every write of its engines is then plain. -/
def State.publishAll (s : State) (jn : Nat) : State :=
  match s.journey? jn with
  | none => s
  | some j =>
    let queued := (s.journeys.map fun k => k.wbs.length).sum
    let t := (({ s with j := j }).drainWbs queued).flushLines
    t.putJourney { t.j with dirty := [], unacq := [], kept := [] }

/-- A band at rest: its write queues are drained, its engine writes are plain, and loads read ahead are discarded (R223, R363). -/
def Band.calm (b : Band) : Band :=
  { b.drain with unacq := [], kept := [], srcLoads := [], dstacks := b.dstacks.map fun t => { t with drained := [] } }

/-- Steps 3 to 6 of R361, after which no engine write is left unacquired (R363). -/
def State.bringToRest (s : State) (jn : Nat) : State :=
  let s1 := (s.finishReqs jn).finishCopies jn
  let s2 := (s1.coresHolding jn).foldl (fun t c =>
    let u := finishEngine jn (t.core c).eng.length t c
    finishBox jn (finishBox jn u c 0) c 1) { s1 with few := none }
  let s3 := (s2.finishBarriers jn).publishAll jn
  { s3 with few := s.few,
            bands := s3.bands.map fun b => if b.journey == jn then b.calm else b,
            groups := s3.groups.map fun g => if g.journey == jn then { g with pages := [] } else g }

/-! ### The image (R364, R365) -/

/-- The parts of a core that belong to some bands, with the generations of its operation slots. -/
def State.enginesFor (s : State) (mine : Band → Bool) (n : Nat) : Core :=
  let c := s.core n
  let own (b : Nat) : Bool := (s.band? n b).any mine
  { num := n, ops := c.ops.filter fun o => own o.band, gens := c.gens, drv := c.drv.filter fun e => own e.band,
    se0 := c.se0.filter fun e => own e.band, se1 := c.se1.filter fun e => own e.band }

/-- The parts of every core that belong to a journey's bands. -/
def State.enginesOf (s : State) (jn : Nat) : List (Nat × Core) :=
  (s.coresHolding jn).map fun n => (n, s.enginesFor (fun b => b.journey == jn) n)

/-- Bands in image order: each gang's stand one after another, in gang order (R367). -/
def imageOrder (l : List Band) : List Band :=
  l.flatMap fun b =>
    let gang := l.filter fun x => x.gangBands == b.gangBands
    if b.gangBands.isEmpty then [b]
    else if gang.head? == some b then sortBy (fun x y => x.gang.toNat % 8 ≤ y.gang.toNat % 8) gang
    else []

/-- Events that a journey has accepted since its image was saved join the calendar of the image, in order (R307). -/
def Journey.mergeLater (j : Journey) (before : Journey) : Journey :=
  let later := before.pending.filter fun e => before.stoppedAt.ule e.seq
  let own (h : HandleEnt) : Bool := later.any fun e => e.canc && e.handle == h.word
  { j with pending := j.pending ++ later.zipIdx.map (fun x => { x.1 with seq := j.accepted + BitVec.ofNat 64 x.2 }),
           accepted := j.accepted + BitVec.ofNat 64 later.length,
           handles := (before.handles.filter fun h => own h && !j.handles.contains h) ++ j.handles }

/-- Whether a waiting restore keeps what the journey has accepted meanwhile: not where a restore request replaces its calendar. -/
def Journey.keepsLater (j : Journey) : Bool := j.pend.all fun p => p.resize || p.h.op != 10

/-- What an image of a journey holds: its parts as they stand, or those of the image whose restore it waits for. -/
def State.snapshot (s : State) (j : Journey) (mid : Bool) : Saved :=
  match s.waitingImage j with
  | some y => { y with token := s.hub.nextImage, j := if j.keepsLater then y.j.mergeLater j else y.j }
  | none => { token := s.hub.nextImage, mid := mid, packId := j.packId, j := j, bands := imageOrder (s.bandsOf j.num),
              groups := s.groupsOf j.num, engines := s.enginesOf j.num, held := [] }

/-! #### Section contents: fields of eight bytes, a layout of the Innkeeper's (R365; DESIGN CHOICE, assumption 42) -/

/-- A list with its length, an option with a flag. -/
def listParts {α : Type} (f : α → List Nat) (l : List α) : List Nat := l.length :: l.flatMap f
def optParts {α : Type} (f : α → List Nat) : Option α → List Nat
  | none => [0]
  | some x => 1 :: f x
def natParts (l : List Nat) : List Nat := listParts (fun n => [n]) l
def memParts (m : Memory) : List Nat := listParts (fun c => [c.1, c.2.toNat]) m

def Event.parts (e : Event) : List Nat :=
  [e.time.toNat, e.handler.toNat, e.prio.toNat, b2n e.gang, b2n e.canc, e.entity.toNat, e.tie.toNat, e.seq.toNat, e.handle.toNat]
    ++ natParts (e.payload.map (·.toNat))
def HandleEnt.parts (h : HandleEnt) : List Nat := [h.core, h.entry, h.gen.toNat, b2n h.dispatched]
/-- Section 0x01: every pending event and handle entry, after the image's token. -/
def Saved.calendar (x : Saved) : List Nat :=
  x.token :: listParts Event.parts x.j.pending ++ listParts HandleEnt.parts x.j.handles ++ [x.j.spread, x.j.t1.toNat, x.j.spanw.toNat]

def Future.parts : Future → List Nat
  | .empty => [0]
  | .held t => [1, t.toNat]
  | .stale t => [2, t.toNat]
def LqEnt.parts (e : LqEnt) : List Nat :=
  [e.addr.toNat, e.lqAddr.toNat, e.mask.toNat, e.base.toNat, e.todo.toNat, e.lows.toNat] ++ optParts (fun n => [n]) e.acc
    ++ listParts (fun r => r.1 :: r.2.toList.map (·.toNat)) e.kept
def Path.num : Path → Nat
  | .ld => 0 | .st => 1 | .sp => 2 | .ga => 3
def Acc.parts (a : Acc) : List Nat := [Path.num a.path, b2n a.fin, a.tag]
def Guard.parts (r : Guard) : List Nat := [r.waddr.toNat, r.lqAddr.toNat, r.lane, r.off.toNat, r.kind.toNat, r.further]
def Park.parts (p : Park) : List Nat :=
  [p.code, p.va.toNat, p.lane, p.access.toNat, p.atAddr.toNat, b2n p.recorded, b2n p.ready]
def Hold.parts : Hold → List Nat
  | .none => [0]
  | .trap n => [1, b2n n]
  | .guard => [2]
  | .brk n => [3, b2n n]
def Latch.parts (l : Latch) : List Nat := [l.first, l.count] ++ l.regs.flatMap fun v => v.toList.map (·.toNat)
/-- Section 0x03. -/
def Group.parts (g : Group) : List Nat :=
  [g.core, g.slot, g.idx, g.spc.toNat, g.lpc.toNat, g.llink.toNat, g.fpflags.toNat, g.repi.toNat, g.nev, g.rank, g.span0.toNat,
   g.spanw.toNat, g.round.toNat, g.past, b2n g.mid]
    ++ g.s.toList.map (·.toNat) ++ (g.v.toList.take g.handler.laneRegs).flatMap (fun v => v.toList.map (·.toNat))
    ++ g.p.toList.map (·.toNat) ++ g.k.toList.map (·.toNat) ++ g.f.toList.flatMap Future.parts ++ listParts LqEnt.parts g.lq
    ++ optParts Latch.parts g.latch ++ g.stoch.toList.map (·.toNat) ++ listParts Event.parts g.events ++ listParts Acc.parts g.acc
    ++ optParts (fun k => [k.tag, k.addr.toNat, k.data.toNat]) g.scAcc ++ optParts Guard.parts g.guard ++ optParts (fun n => [n]) g.arrB
    ++ optParts (fun n => [n]) g.arrG ++ g.hold.parts ++ optParts Park.parts g.park ++ optParts Park.parts g.lpark

def OpState.parts : OpState → List Nat
  | .pending => [0]
  | .done => [1]
  | .failed c => [2, c.toNat]
  | .cancelled => [3]
def VRange.parts (r : VRange) : List Nat := [r.first, r.count]
/-- An operation, which the tokens of the band's groups name. -/
def Op.parts (o : Op) : List Nat :=
  [o.tok, o.slot, o.group] ++ o.st.parts ++ listParts VRange.parts o.dstV ++ natParts (o.dstP.map (·.toNat))
    ++ natParts (o.dstS.map (·.toNat)) ++ [o.iaddr.toNat, o.fl.toNat] ++ optParts Park.parts o.park
/-- Section 0x02, with the band's operations. -/
def Band.parts (b : Band) (ops : List Op) : List Nat :=
  [b.handler.id.toNat, b.core, b.slot, b.gang.toNat, b.size, b.ord, b.phase] ++ natParts b.arrived ++ natParts b.members ++ natParts b.aliases
    ++ listParts (fun p => [p.1, p.2]) b.rings ++ natParts b.broken ++ listParts (fun f => [f.ring, f.n, b2n f.eos]) b.fills
    ++ listParts Op.parts ops

/-- Section 0x06. -/
def Counting.parts (c : Counting) : List Nat :=
  listParts (fun e => [e.1, e.2.toNat]) c.cnt ++ [c.depth, c.nspill, c.extent, c.sbase, b2n c.undefd] ++ optParts (fun n => [n]) c.parity
    ++ optParts (fun f => [match f with | .e2m1 => 0 | .i4 => 1]) c.fmt

def Item.parts (i : Item) : List Nat := [i.a.toNat, i.b.toNat, b2n i.head]
def DSlot.parts (d : DSlot) : List Nat := natParts (d.w.map (·.toNat)) ++ [(BitVec.ofInt 64 d.cur).toNat]
def Stack.parts (t : Stack) (gen : Word32) : List Nat :=
  [t.index, gen.toNat, t.isb, b2n t.arity2, t.state.toNat, t.produced, t.top] ++ listParts DSlot.parts t.slots
    ++ listParts Item.parts t.staged ++ [b2n t.phead] ++ optParts (fun n => [n]) t.parent ++ natParts t.kids
    ++ [t.faddr.toNat, t.fslot, t.fcause, b2n t.spoiled]
def DrvCmd.parts : DrvCmd → List Nat
  | .bind i => [0, i]
  | .pull i lanes vd pd ph sc => [1, i, lanes.toNat, vd.toNat, pd.toNat, ph.toNat, sc.toNat]
  | .drain i cmd => 2 :: optParts (fun n => [n]) i ++ natParts (cmd.map (·.toNat))
  | .ending i => [3, i]
def DrvEnt.parts (e : DrvEnt) : List Nat :=
  optParts (fun n => [n]) e.op ++ [e.group] ++ e.cmd.parts ++ listParts Item.parts e.got ++ [e.wrote]
/-- Section 0x07: the stacks, and the place of every pending operation in their order. -/
def Band.drvParts (b : Band) (drv : List DrvEnt) : List Nat :=
  listParts (fun t => t.parts (b.stackGenOf t.index)) b.dstacks ++ listParts (fun e => [e.1, e.2.toNat]) b.stackGen
    ++ listParts DrvEnt.parts drv

def SeCmd.parts (c : SeCmd) : List Nat :=
  [c.op, c.group] ++ natParts (c.regs.map (·.toNat)) ++ [b2n c.started, c.first, c.count, c.next, c.fl.toNat]
    ++ natParts (c.lay.map (·.toNat)) ++ listParts (fun l => natParts (l.map (·.toNat))) c.elems ++ [c.put]
    ++ optParts (fun r => [r.off, r.slots, b2n r.out, r.sbytes, r.doff, r.claim, r.take]) c.ring
/-- Section 0x09. -/
def GangBar.parts (x : GangBar) : List Nat :=
  [x.num, x.phase] ++ listParts (fun p => [p.1, p.2]) x.bands ++ listParts (fun p => [p.1, p.2]) x.arrived
def QBand.parts (b : QBand) : List Nat :=
  [b.handler.id.toNat, b.gang.toNat] ++ listParts (fun g => g.1 :: listParts Event.parts g.2) b.groups
def Seat.parts (x : Seat) : List Nat := [x.core, x.slot, x.band, x.idx, x.rank] ++ listParts Event.parts x.events
/-- Section 0x0A: the bands that are not placed, and the groups that are not dispatched. -/
def Saved.waiting (x : Saved) : List Nat :=
  x.j.taken :: listParts (fun (q : QItem) => listParts QBand.parts q.bands) x.j.queue ++ listParts Seat.parts x.j.seats

/-- The engine work of a band in an image. -/
def Saved.coreOf (x : Saved) (b : Band) : Core :=
  match x.engines.find? fun e => e.1 == b.core with
  | some (n, c) => { num := n, ops := c.ops.filter fun o => o.band == b.slot, drv := c.drv.filter fun e => e.band == b.slot,
                     se0 := c.se0.filter fun e => e.band == b.slot, se1 := c.se1.filter fun e => e.band == b.slot }
  | none => {}

/-- Sections of one band, under its index in the image: kind, index and fields. -/
def Saved.bandSections (x : Saved) (i : Nat) (b : Band) : List (Nat × Nat × List Nat) :=
  let c := x.coreOf b
  let groups := x.groups.filter fun g => g.core == b.core && b.members.contains g.slot
  [(2, i, b.parts c.ops)] ++ groups.map (fun g => (3, i, g.parts))
    ++ (if b.handler.scratch = 0 then [] else [(4, i, memParts b.spm)])
    ++ (if b.handler.tiles = 0 then [] else [(5, i, listParts (fun e => [e.1, e.2.toNat]) b.tiles)])
    ++ (if b.handler.counts then [(6, i, b.counting.parts)] else [])
    ++ (if b.dstacks.isEmpty && c.drv.isEmpty then [] else [(7, i, b.drvParts c.drv)])
    ++ (if c.se0.isEmpty && c.se1.isEmpty then [] else [(8, i, listParts SeCmd.parts c.se0 ++ listParts SeCmd.parts c.se1)])

/-- Sections of an image. -/
def Saved.sections (x : Saved) : List (Nat × Nat × List Nat) :=
  [(1, 0, x.calendar)] ++ (if x.mid then (x.bands.zipIdx.flatMap fun b => x.bandSections b.2 b.1)
    ++ (x.j.gangs.map fun y => (9, 0, y.parts))
    ++ (if x.j.queue.isEmpty && x.j.seats.isEmpty then [] else [(10, 0, x.waiting)]) else [])

/-- A response or a section of fields of eight bytes. -/
def fields8 (l : List Nat) : List Byte := l.flatMap (leBytes 8)

/-- Bytes of the sections, each behind its header. -/
def Saved.sectionBytes (x : Saved) : List Byte :=
  x.sections.flatMap fun k => leBytes 16 (packBits [(0, k.1), (16, k.2.1), (32, 8 * k.2.2.length)]) ++ fields8 k.2.2

/-- Size of an image: the header, and each section with its header. -/
def Saved.size (x : Saved) : Nat := (x.sections.map fun k => 16 + 8 * k.2.2.length).foldl (· + ·) 64

/-- Bytes of an image. -/
def Saved.bytes (x : Saved) : List Byte :=
  leBytes 64 (packBits [(0, 0x4B384350), (32, 1), (40, b2n x.mid), (64, x.packId.toNat), (128, x.j.t0.toNat),
      (192, x.j.accepted.toNat), (256, x.j.round.toNat), (288, x.sections.length), (320, x.size), (384, x.j.seed.toNat)])
    ++ x.sectionBytes

/-- Writes an image where it fits its region, which the room still holds; the answer is none where it does not. -/
def State.writeImage (s : State) (room : Nat) (x : Saved) (pa len : Nat) : Option State :=
  if len < x.size || !(s.room? room).any (fun r => r.holds pa len) then none else
    let kept := upsert (fun (y : Saved) => y.token == x.token) x s.hub.images
    let hub := { s.hub with images := kept, nextImage := max s.hub.nextImage (x.token + 1) }
    some { s.poolWrite pa x.bytes with hub := hub }

/-- The bytes of sections with the reserved bits of their headers zero (R365); the first number bounds the sections. -/
def plainSections : Nat → List Byte → List Byte
  | 0, l => l
  | n + 1, l =>
    if l.length < 16 then l else
      let len := fieldAt l 4 4
      [l.getD 0 0, 0] ++ (l.drop 2).take 6 ++ List.replicate 8 0 ++ (l.drop 16).take len ++ plainSections n (l.drop (16 + len))

/-- The bytes of an image with its reserved bits zero: they are ignored (R364, R365, R6). -/
def plainImage (l : List Byte) : List Byte :=
  l.take 5 ++ [l.getD 5 0 &&& 1, 0, 0] ++ (l.drop 8).take 48 ++ List.replicate 8 0 ++ plainSections (fieldAt l 36 4) (l.drop 64)

/-- The saved parts that an image in memory holds; none where it is malformed (R366). -/
def State.readImage (s : State) (pa len : Nat) : Option Saved :=
  let h := s.keeperBytes pa 64
  let size := fieldAt h 40 8
  if fieldAt h 0 4 != 0x4B384350 || fieldAt h 4 1 != 1 || len < 64 || len < size then none
  else
    match s.hub.images.find? fun x => x.token == fieldAt (s.keeperBytes (pa + 80) 8) 0 8 with
    | some x => if plainImage (s.keeperBytes pa size) == plainImage x.bytes then some x else none
    | none => none

/-- The engine work of some bands leaves their cores. -/
def State.dropEnginesOf (s : State) (mine : Band → Bool) : State :=
  let own (core band : Nat) : Bool := (s.band? core band).any mine
  let free (c : Core) : Core :=
    let gone := c.ops.filter fun o => own c.num o.band
    { c with ops := c.ops.filter (fun o => !own c.num o.band), gens := gone.foldl gensWithout c.gens,
             eng := c.eng.filter (fun e => !own c.num e.band), drv := c.drv.filter (fun e => !own c.num e.band),
             se0 := c.se0.filter (fun e => !own c.num e.band), se1 := c.se1.filter (fun e => !own c.num e.band) }
  { s with cores := s.cores.map free }

/-- A journey's engine work leaves its cores. -/
def State.dropEngines (s : State) (jn : Nat) : State := s.dropEnginesOf fun b => b.journey == jn

/-- A journey's bands, groups and engine work leave their cores. -/
def State.evict (s : State) (jn : Nat) : State :=
  let s := s.dropEngines jn
  let mine (q : Req) : Bool := (s.group? q.core q.slot).any fun g => g.journey == jn
  { s with groups := s.groups.filter (fun g => g.journey != jn),
           bands := s.bands.filter (fun b => b.journey != jn), reqs := s.reqs.filter fun q => !mine q }

/-! ### Capacity (R367, R368) -/

/-- The pass on a room as if empty (R367). -/
def State.judge (s : State) (r : Room) (items : List (List BandNeed × Nat)) : List (Nat × Place) ⊕ Nat :=
  let cores := s.roomCores r
  passItems (cores.map fun c => (c, {})) cores none items

/-- Whether the room's tiers can hold some pending events (R305). -/
def State.tiersHold (s : State) (r : Room) (n : Nat) : Bool :=
  let cores := s.roomCores r
  let dies := (cores.map dieOf).eraseDups.length
  n ≤ cores.length * Config.nearEvents + dies * min Config.farEvents (r.farBytes / 64) + Config.overflowEvents

/-- The first refusal of a restore in the order of R366; 0 where it may go on. A room that a fence has left without a core lacks group
slots. -/
def State.restoreCheck (s : State) (j : Journey) (r : Room) (x : Option Saved) : Nat :=
  match x with
  | none => 1
  | some x =>
    if x.packId != j.packId then 2 else
      match s.judge r x.items with
      | .inr e => e
      | .inl _ =>
        if (s.roomCores r).isEmpty then restoreStatus 3 0 0
        else if s.tiersHold r x.j.pending.length then 0 else 0x0B

/-! ### Restore (R369) -/

/-- Where each saved band and group goes: old core and slot to new ones. -/
structure Moves where
  bands : List ((Nat × Nat) × (Nat × Nat))
  slots : List ((Nat × Nat) × (Nat × Nat))
deriving DecidableEq, Repr

def Moves.of (x : Saved) (ps : List (Nat × Place)) : Moves :=
  { bands := (x.bands.zip ps).map fun y => ((y.1.core, y.1.slot), (y.2.1, y.2.2.band)),
    slots := (x.bands.zip ps).flatMap fun y => (y.1.members.zip y.2.2.slots).map fun z => ((y.1.core, z.1), (y.2.1, z.2)) }

def Moves.band (m : Moves) (core slot : Nat) : Nat × Nat :=
  ((m.bands.find? fun e => e.1 == (core, slot)).map Prod.snd).getD (core, slot)
def Moves.slot (m : Moves) (core slot : Nat) : Nat × Nat :=
  ((m.slots.find? fun e => e.1 == (core, slot)).map Prod.snd).getD (core, slot)

/-- Arrivals of the saved groups, at their new places; of a group that has retired there is none (R360, R362). -/
def Moves.arrivals (m : Moves) (l : List (Nat × Nat)) : List (Nat × Nat) :=
  l.filterMap fun p => (m.slots.find? fun e => e.1 == p).map Prod.snd

/-- A saved band at its new place. Arrivals of members that have since retired are no part of it: the phase waits for living members
only (R360, R362). -/
def movedBand (m : Moves) (jn room : Nat) (b : Band) (p : Place) : Band :=
  { b with core := (m.band b.core b.slot).1, slot := p.band, journey := jn, room := room,
           members := b.members.map fun x => (m.slot b.core x).2, regUnits := p.slots.zip p.units, granule := p.granule,
           cmd := 0, tile0 := p.tile, arrived := (b.arrived.filter fun x => b.members.contains x).map (fun x => (m.slot b.core x).2),
           gangBands := b.gangBands.map fun x => m.band x.1 x.2, aliases := b.slot :: b.aliases }

/-- A saved group at its new place. -/
def movedGroup (m : Moves) (jn room : Nat) (g : Group) : Group :=
  let c := m.slot g.core g.slot
  let g := if g.hold.isBrk then g.resume else g
  { g with core := c.1, slot := c.2, band := (m.band g.core g.band).2, journey := jn, room := room, pages := [], halted := false,
           haltReq := false }

/-- The first operation slot number for restored operations of a core: above every token's slot and every one in use. -/
def freshOp (c : Core) : Nat := c.ops.foldl (fun n o => max n (o.slot + 1)) 65536

/-- Generations of operation slots that no saved token reaches: the later ones of the saved core and the new one. -/
def gensAfter (saved : Core) (m : SMap (BitVec 16)) : SMap (BitVec 16) :=
  saved.gens.foldl (fun m e => SMap.set 1 e.1 (State.laterGen (SMap.get 1 e.1 m) e.2) m) m

/-- Commands that an engine has started stand before those it has not. -/
def startedFirst (q : List SeCmd) : List SeCmd := (q.filter (·.started)) ++ q.filter fun c => !c.started

/-- Puts the saved operations and commands of one core, as far as their bands go to some core, back there in their queue order (R283);
operation slots are renamed and tokens kept; while such an operation lives no new one takes the slot that its token names (R153, R369). -/
def moveEnginesTo (m : Moves) (saved : Core) (s : State) (dst : Nat) : State :=
  let c := s.core dst
  let here (band : Nat) : Bool := (m.bands.any fun e => e.1 == (saved.num, band)) && (m.band saved.num band).1 == dst
  let own := saved.ops.filter fun o => here o.band
  let base := freshOp c
  let name (op : Nat) : Nat := base + own.findIdx fun o => o.slot == op
  let bnd (b : Nat) : Nat := (m.band saved.num b).2
  let grp (g : Nat) : Nat := (m.slot saved.num g).2
  let op (o : Op) : Op := { o with slot := name o.slot, band := bnd o.band, group := grp o.group, oldTok := some o.tok }
  let drv (e : DrvEnt) : DrvEnt := { e with op := e.op.map name, band := bnd e.band, group := grp e.group }
  let se (e : SeCmd) : SeCmd := { e with op := name e.op, band := bnd e.band, group := grp e.group }
  s.putCore { c with ops := c.ops ++ own.map op, gens := gensAfter saved c.gens,
                     drv := c.drv ++ (saved.drv.filter fun e => here e.band).map drv,
                     se0 := startedFirst (c.se0 ++ (saved.se0.filter fun e => here e.band).map se),
                     se1 := startedFirst (c.se1 ++ (saved.se1.filter fun e => here e.band).map se) }

/-- Puts the saved engine work of one core back, each band's on its new core. -/
def moveEngines (m : Moves) (s : State) (e : Nat × Core) : State :=
  let saved := { e.2 with num := e.1 }
  let dsts := ((m.bands.filter fun b => b.1.1 == e.1).map fun b => b.2.1).eraseDups
  dsts.foldl (moveEnginesTo m saved) s

/-- Puts saved bands, groups and engine work at their new places. -/
def State.putBack (s : State) (m : Moves) (jn room : Nat) (bands : List (Band × Nat × Place)) (groups : List Group)
    (engines : List (Nat × Core)) : State :=
  let carve (t : State) (y : Band × Nat × Place) : State := t.putCore { t.core y.2.1 with carve := y.1.handler.carve }
  let s1 := bands.foldl (fun t y => (carve t y).putBand (movedBand m jn room y.1 y.2.2)) s
  let s2 := groups.foldl (fun t g => t.putGroup (movedGroup m jn room g)) s1
  engines.foldl (moveEngines m) s2

/-- Puts the events of the focused journey into the tiers of its room's cores (R305, R306). -/
def State.rehome (s : State) : State :=
  let evs := s.j.pending
  evs.foldl (fun t e =>
    let home := t.homeCore e.entity
    let tier := (t.tierFor home e.time.toNat).getD 2
    let ev := { e with home := home, tier := tier }
    let step := if e.entity = 0 then 1 else 0
    t.modJ fun j => { j with pending := j.pending ++ [ev], spread := j.spread + step })
    (s.modJ fun j => { j with pending := [] })

/-- The calendar and span of a journey as its image holds them. -/
def Journey.resumeFrom (j : Journey) (k : Journey) (m : Moves) : Journey :=
  { j with seed := k.seed, accepted := k.accepted, pending := k.pending, handles := k.handles, spread := 0, spanOn := k.spanOn,
           t0 := k.t0, t1 := k.t1, spanw := k.spanw, round := k.round, inRound := k.inRound, queue := k.queue, taken := k.taken,
           seats := k.seats.map (fun x =>
             let c := m.slot x.core x.slot
             { x with core := c.1, slot := c.2, band := (m.band x.core x.band).2 }),
           gangs := k.gangs.map (fun x =>
             { x with bands := x.bands.map (fun p => m.band p.1 p.2), arrived := m.arrivals x.arrived }),
           passed := 0, promoted := false, picked := false, restore := none, state := k.state }

/-- Restores the parts of an image at the places found for its bands, and commands the bands' leaves (R417). -/
def State.restoreAt (s : State) (jn : Nat) (x : Saved) (ps : List (Nat × Place)) : State :=
  match s.journey? jn with
  | none => s
  | some j =>
    let m := Moves.of x ps
    let s1 := s.putBack m jn j.room (x.bands.zip ps) x.groups x.engines
    let s2 := (({ s1 with j := j.resumeFrom x.j m }).rehome)
    let s3 := ps.foldl (fun t p => t.command p.1 p.2.band) (s2.putJourney s2.j)
    match (ps.getLast?).map Prod.fst with
    | some c => s3.modRoom j.room fun r => { r with lastCore := some c }
    | none => s3

end Sys2Proof.Machine
end

