-- ==== Sys2Proof/Machine/Reply.lean ====
section
/-! DEFINITION. Requests and responses (R372 to R375, R380 to R383, R387), the replay log (R401), and the life of stops, checkpoints
and restores (R379, R386). -/

namespace Sys2Proof.Machine

/-! ### Responses -/

/-- The time-accounting record of a request that ends now (R382): the five shares sum to exit - entry (R383). -/
def State.timeRecord (s : State) (entry : Nat) : List Byte :=
  let exit := s.wallNs
  let total := exit - entry
  let engine := min total (Config.requestTime s.draw 0)
  let fault := min (total - engine) (Config.requestTime s.draw 1)
  let wait := min (total - engine - fault) (Config.requestTime s.draw 2)
  let keeper := min (total - engine - fault - wait) (Config.requestTime s.draw 3)
  let queue := total - engine - fault - wait - keeper
  [entry, exit, queue, keeper, fault, wait, engine, 0].flatMap (leBytes 8)

/-- Request codes that are logged (R401). -/
def loggedOp (op : Nat) : Bool := op == 1 || op == 2 || (4 ≤ op && op ≤ 10) || (12 ≤ op && op ≤ 16)

/-- A replay log header. -/
def logHeader (seq op journey status entry length : Nat) : List Byte :=
  leBytes 32 (packBits [(0, seq), (32, op), (40, journey), (48, status), (64, entry % 2 ^ 64), (128, length)])

/-- Appends a request to its journey's log; a full region gets its mark, and logging ends (R401). -/
def State.logRequest (s : State) (jn status : Nat) (p : Pending) : State :=
  match s.journey? jn with
  | none => s
  | some j =>
    match j.log with
    | none => s
    | some (pa, len) =>
      if !loggedOp p.h.op.toNat then s else
        let body := p.body ++ List.replicate ((16 - p.body.length % 16) % 16) 0
        let rec0 := logHeader p.h.seq.toNat p.h.op.toNat jn status p.entry p.body.length ++ body
        if j.logAt + rec0.length + 32 ≤ len then
          (s.poolWrite (pa + j.logAt) rec0).putJourney { j with logAt := j.logAt + rec0.length }
        else
          (s.poolWrite (pa + j.logAt) (logHeader 0 0xFF jn 0 0 0)).putJourney { j with log := none }

/-- A response: header, time record, body. -/
def State.respond (s : State) (c : Nat) (h : MsgHdr) (entry status : Nat) (body : List Byte) : State :=
  s.sendMsg c 2 h.op.toNat h.journey.toNat status (some h.seq) (s.timeRecord entry) body

/-- A request is finished: it is logged, and answered or, in a replay, compared with its logged status (R402). -/
def State.finish (s : State) (jn status : Nat) (p : Pending) (body : List Byte) : State :=
  let s1 := s.logRequest jn status p
  match p.conn with
  | some c => s1.respond c p.h p.entry status body
  | none => s1.modJourney jn fun j => match j.replay with
    | [] => j
    | r :: rs => { j with replay := rs, replayed := j.replayed + 1,
                          firstDiff := if j.firstDiff.isNone && r.status != status then some j.replayed else j.firstDiff }

/-! ### Bodies (R375) -/

/-- The i-th field of eight bytes. -/
def fld (body : List Byte) (i : Nat) : Nat := fieldAt body (8 * i) 8

/-- Whether a pool range lies wholly within one extent of a room. -/
def State.inRoom (s : State) (room pa len : Nat) : Bool := (s.room? room).any fun r => r.holds pa len

/-- Multiples of 64 KiB. -/
def page64 (x : Nat) : Bool := x % 65536 == 0

/-- Status of a region that must lie in a room: malformed, outside, or good. -/
def State.regionStatus (s : State) (room pa len : Nat) : Nat :=
  if !page64 pa || !page64 len then 1 else if s.inRoom room pa len then 0 else 2

/-! ### Requests -/

/-- The room that a connection speaks for; none is the operator (assumption 15), and a request elsewhere has no standing. -/
inductive Standing where
  | operator
  | room (n : Nat)
  | nobody
deriving DecidableEq, Repr

/-- The operator's endpoint address. -/
abbrev operatorEndpoint : Nat := 0

def State.standing (s : State) (c : Nat) : Standing :=
  match s.hub.conns.find? fun x => x.num == c with
  | none => .nobody
  | some x =>
    if x.endpoint = operatorEndpoint then .operator else
      match s.rooms.find? fun r => r.endpoints.contains x.endpoint with
      | some r => .room r.num
      | none => .nobody

/-- A request in execution. -/
structure Rq where
  p : Pending
  st : Standing
deriving DecidableEq, Repr

def Rq.body (r : Rq) : List Byte := r.p.body
def Rq.jn (r : Rq) : Nat := r.p.h.journey.toNat
/-- The answer without effect. -/
def Rq.fail (r : Rq) (s : State) (status : Nat) : State := s.finish r.jn status r.p []
/-- The answer to a request that is not executed for any journey: nothing is logged. -/
def Rq.deny (r : Rq) (s : State) (status : Nat) : State :=
  match r.p.conn with
  | some c => s.respond c r.p.h r.p.entry status []
  | none => r.fail s status
def Rq.ok (r : Rq) (s : State) (body : List Byte) : State := s.finish r.jn 0 r.p body

/-- Whether a request may name a journey of a room. -/
def Standing.covers (st : Standing) (room : Nat) : Bool :=
  match st with
  | .operator => true
  | .room n => n == room
  | .nobody => false

/-- Runs an effect on the journey that the header names, if it is the requester's and not closed (R374, R387). -/
def Rq.withJ (r : Rq) (s : State) (k : Journey → State) : State :=
  match r.st with
  | .nobody => r.deny s 2
  | _ =>
    match s.journey? r.jn with
    | some j => if r.st.covers j.room && j.state != .closing then k j else r.deny s 3
    | none => r.deny s 3

/-- Runs an effect on a body of at least n fields. -/
def Rq.need (r : Rq) (s : State) (n : Nat) (k : State) : State := if r.body.length < 8 * n then r.fail s 1 else k

/-! ### Stops and checkpoints that wait (R379) -/

/-- Whether no round of a journey runs. -/
def State.atBoundary (s : State) (j : Journey) : Bool := s.quiet j && !j.inRound

/-- The region where a stop's image goes: the request's, or the stop region for the address 0 (R379). -/
def imageRegion (j : Journey) (p : Pending) : Nat × Nat := if p.pa = 0 then j.stopReg else (p.pa, p.len)

/-- Whether a journey whose stop or checkpoint waits may be saved now. -/
def State.readyToSave (s : State) (j : Journey) (mid : Bool) : Bool := s.atBoundary j || (mid && s.stoppable j.num)

/-- Finishes the stop of a client or a resize (R379): image, eviction, response. An image that does not fit leaves the journey
running. -/
def State.finishStop (s : State) (j0 : Journey) (p : Pending) : State :=
  let mid := !s.atBoundary j0
  let s1 := s.bringToRest j0.num
  match s1.journey? j0.num with
  | none => s
  | some j =>
    let x := s1.snapshot { j with pend := none, state := p.was } mid
    let reg := imageRegion j p
    match s1.writeImage j.room x reg.1 reg.2 with
    | some s2 =>
      let s3 := (s2.evict j.num).putJourney { j with pend := none, state := .stopped true, image := some reg, queue := [],
                                                      seats := [], gangs := [], inRound := false, restore := none,
                                                      stoppedAt := j.accepted }
      if p.resize then s3.modJourney j.num fun x => { x with pend := some p } else s3.finish j.num 0 p (fields8 [x.size])
    | none =>
      if p.resize then
        (s1.evict j.num).putJourney { j with pend := some p, state := .stopped false, image := none, queue := [], seats := [],
                                             gangs := [], inRound := false, restore := none }
      else (s.putJourney { j0 with pend := none, state := p.was }).finish j.num 9 p []

/-- Finishes a checkpoint: the image is written and the journey runs on. One in mid-round gives its bands' resources back (R361 step 7):
its image then waits as the item at the head of its queue (R367; DEDUCED, assumption 45). -/
def State.finishCheckpoint (s : State) (j0 : Journey) (p : Pending) : State :=
  let mid := !s.atBoundary j0
  let s1 := s.bringToRest j0.num
  match s1.journey? j0.num with
  | none => s
  | some j =>
    let j1 := { j with pend := none, state := p.was }
    let x := s1.snapshot j1 mid
    match s1.writeImage j.room x p.pa p.len with
    | some s2 =>
      let s3 := if mid then
          (s2.evict j.num).putJourney { j1 with queue := [], seats := [], gangs := [], inRound := false, stoppedAt := j.accepted,
                                                restore := some x.token, passed := 0, promoted := false, picked := false }
        else s2.putJourney j1
      s3.finish j.num 0 p (fields8 [x.size])
    | none => (s.putJourney { j0 with pend := none, state := p.was }).finish j.num 9 p []

/-- A journey that the device stops (R379, R388): mid-round, with its image in the stop region where it fits (a journey that waits for its
restore keeps that image's contents). A stop, checkpoint or restore that waited finds the journey stopped; an unmap, a read or a write
goes on. -/
def State.deviceStop (s : State) (j0 : Journey) (cause : Nat) : State :=
  let mid := !s.atBoundary j0
  let s1 := s.bringToRest j0.num
  match s1.journey? j0.num with
  | none => s
  | some j =>
    let stays := j.pend.any fun p => p.h.op == 14 || p.fail.isSome
    let j1 := { j with pend := if stays then j.pend else none, stopFor := none }
    let was : JState := match j.state, j.pend with
      | .stopping _, some p => p.was
      | .checkpointing _, some p => p.was
      | st, _ => st
    let x := s1.snapshot { j1 with state := was, pend := j.pend } mid
    let down := { j1 with queue := [], seats := [], gangs := [], inRound := false, restore := none, stoppedAt := j.accepted }
    let done (t : State) (written : Bool) : State :=
      let t1 := (t.evict j.num).putJourney
        { down with state := .stopped written, image := if written then some j.stopReg else none }
      let t2 := t1.notice j.room 2 j.num (leBytes 8 (packBits [(0, cause), (8, b2n written)]))
      match j.pend with
      | some p => if p.resize || stays then t2 else t2.finish j.num 4 p []
      | none => t2
    match s1.writeImage j.room x j.stopReg.1 j.stopReg.2 with
    | some s2 => done s2 true
    | none => done s1 false

/-- The end of a round (R300): nothing of the journey runs any more. -/
def State.endRound (s : State) (j : Journey) : State :=
  s.putJourney { j.settleWrites with inRound := false, round := j.round + 1 }

/-- What is due for one journey after a step. -/
def State.settleJourney (s : State) (jn : Nat) : State :=
  match s.journey? jn with
  | none => s
  | some j0 =>
    let s := if j0.inRound && s.quiet j0 then s.endRound j0 else s
    match s.journey? jn with
    | none => s
    | some j =>
      match j.state with
      | .closing | .stopped _ => { s with journeys := s.journeys.map fun x => if x.num == jn then { x with stopFor := none } else x }
      | _ =>
        match j.stopFor with
        | some cause => if s.stoppable jn then s.deviceStop j cause else s
        | none =>
          match j.state, j.pend with
          | .stopping mid, some p => if s.readyToSave j mid then s.finishStop j p else s
          | .checkpointing mid, some p => if s.readyToSave j mid then s.finishCheckpoint j p else s
          | _, _ => s

/-- Settles every journey. -/
def State.settleJourneys (s : State) : State := (s.journeys.map (·.num)).foldl State.settleJourney s

end Sys2Proof.Machine
end

