-- ==== Sys2Proof/Machine/Requests.lean ====
section
/-! DEFINITION. The arrival of requests (R371 to R375, R380, R386) and the requests on a journey's memory, calendar, mappings and
groups (R374 to R378, R345, R352, R400). -/

namespace Sys2Proof.Machine

/-! ### Arrival -/

/-- Replaces a connection. -/
def Hub.putConn (h : Hub) (c : Conn) : Hub := { h with conns := upsert (fun x => x.num == c.num) c h.conns }

/-- Whether a request of a connection is still being executed. -/
def State.connBusy (s : State) (c : Nat) : Bool :=
  let mine (p : Pending) : Bool := p.conn == some c
  s.journeys.any (fun j => j.pend.any mine || j.replyTo.any fun r => r.1 == c)
    || s.rooms.any fun r => r.resize.any fun x => mine x.2

/-- The journey that a request names: the header's, or a debug request's in its body; none for opens, for requests about rooms, records,
power and sessions, and for an attest request whose `named` is clear (R372, R374, R404, R416). -/
def namedJourney (h : MsgHdr) (body : List Byte) : Option Nat :=
  let op := h.op.toNat
  if op == 0x0B then (if bitsOf (fieldAt body 32 8) 0 1 == 1 then some h.journey.toNat else none)
  else if 0x32 ≤ op && op ≤ 0x35 then some (fld body 0)
  else if 2 ≤ op && op ≤ 0x10 then some h.journey.toNat
  else none

/-- Rooms of a debug scope. -/
def State.scopeRooms (s : State) (scope : Nat) : List Nat := if scope = 0xFF then s.rooms.map (·.num) else [scope]

/-- The rooms that a request is for: its endpoint's, that of the journey it names, and those it names itself (R386). -/
def State.requestRooms (s : State) (c : Nat) (h : MsgHdr) (body : List Byte) : List Nat :=
  let op := h.op.toNat
  let ofJ (n : Nat) : List Nat := ((s.journey? n).map (·.room)).toList
  let scopes : List Nat :=
    if op == 0x30 || op == 0x38 then s.scopeRooms (fld body 0)
    else if op == 0x31 || op == 0x36 || op == 0x37 then
      (s.hub.sessions.filter fun x => x.conn == c).flatMap fun x => s.scopeRooms x.scope
    else []
  let own : List Nat := match s.standing c with
    | .room n => [n]
    | .operator => if op == 0x11 then ofJ h.journey.toNat else []
    | .nobody => []
  (namedJourney h body).toList.flatMap ofJ ++ scopes ++ own

/-- Runs of pool memory that a request maps: the code and data regions of an open, the target of a map (R377, R378). -/
def mappedBy (op : Nat) (body : List Byte) : List (Nat × Nat) :=
  if op == 1 then (fld body 5, fld body 6) :: if (fld body 0).testBit 1 then [(fld body 8, fld body 9)] else []
  else if op == 13 && !(fld body 3).testBit 5 then [(fld body 1, fld body 2)]
  else []

/-- Whether a request would map a frame whose shootdown has not completed (R342). -/
def State.mapsPending (s : State) (op : Nat) (body : List Byte) : Bool := (mappedBy op body).any fun x => s.framePending x.1 x.2

/-- Whether a request may be taken now: the connection's earlier requests are done, the journey it names has no request in execution, and
no room it is for is being resized (R371, R374, R379, R386), and no frame it maps is still being shot down (R342, DEDUCED, assumption 113).
A resize itself waits for the room's stops and checkpoints. -/
def State.startable (s : State) (c : Nat) (h : MsgHdr) (body : List Byte) : Bool :=
  let op := h.op.toNat
  let resized (room : Nat) : Bool := (s.room? room).any fun r => r.resize.isSome
  !s.connBusy c && !(s.requestRooms c h body).any resized && !s.mapsPending op body &&
    (if op == 0x21 || op == 0x22 then
      !resized (fld body 0) && !s.journeys.any fun j => j.room == fld body 0 && j.pend.isSome && j.state != .restoring
    else (namedJourney h body).all fun n => (s.journey? n).all fun j => j.pend.isNone)

/-- Takes a request: the next number is expected, and its effect happens, unless a reserved header field is set. -/
def State.take (s : State) (c : Nat) (h : MsgHdr) (body : List Byte) (entry : Nat) (eff : Rq → State → State) : State :=
  match s.hub.conns.find? fun x => x.num == c with
  | none => s
  | some x =>
    let s1 := s.modHub fun hub => hub.putConn { x with expect := x.expect + 1, ahead := x.ahead.filter fun m => m.1.seq != h.seq }
    let r : Rq := ⟨{ conn := some c, h := h, entry := entry, body := body }, s1.standing c⟩
    if h.rsv0 != 0 || h.rsv1 != 0 || h.rsv2 != 0 || h.status != 0 || 2 ^ 26 < body.length then r.deny s1 1 else eff r s1

/-- A request executed before: its kept response is sent again unchanged, else the sequence is too old (R380). -/
def State.again (s : State) (x : Conn) (h : MsgHdr) : State :=
  match x.kept.find? fun m => m.2.1 == some h.seq with
  | some m => s.modHub fun hub => { hub with outbox := hub.outbox ++ [⟨x.num, m.2.2⟩] }
  | none =>
    let waits (p : Pending) : Bool := p.conn == some x.num && p.h.seq == h.seq
    if s.journeys.any (fun j => j.pend.any waits || j.replyTo.any fun r => r.1 == x.num && r.2.1.seq == h.seq)
        || s.rooms.any (fun r => r.resize.any fun y => waits y.2) then s
    else s.sendMsg x.num 2 h.op.toNat h.journey.toNat 0x0A none (s.timeRecord s.wallNs) []

/-- Whether a message is a well-formed request with some code. -/
def isRequest (h : MsgHdr) (op : Nat) (body : List Byte) : Bool :=
  h.ver == 1 && h.type == 1 && h.op.toNat == op && h.length.toNat == body.length

/-- The arrival of a request: it is executed, held, answered from what is kept, or dropped, as its number says. -/
def State.arrive (s : State) (c : Nat) (h : MsgHdr) (body : List Byte) (eff : Rq → State → State) : State :=
  if s.hub.boot != .up then s else
    match s.hub.conns.find? fun x => x.num == c with
    | none => s
    | some x =>
      let d := (h.seq - x.expect).toNat
      if d = 0 && s.startable c h body then s.take c h body s.wallNs eff
      else if x.ahead.any fun m => m.1.seq == h.seq then s
      else if (h.seq - x.next).toNat ≤ Config.keptResponses then
        s.modHub fun hub => hub.putConn { x with ahead := x.ahead ++ [(h, body, s.wallNs)] }
      else if d < 2 ^ 31 then s
      else s.again x h

/-- A request step of a code. -/
def request (op c : Nat) (h : MsgHdr) (body : List Byte) (eff : Rq → State → State) (s : State) : Out :=
  if isRequest h op body then .next (s.arrive c h body eff) else .next s

/-- Codes that name no request (R372). -/
def unknownCode (op : Nat) : Bool := op == 0 || (0x14 ≤ op && op < 0x20) || (0x23 ≤ op && op < 0x30) || 0x39 ≤ op

/-- `UNKNOWN_REQUEST`. -/
def execUnknownRequest (c : Nat) (h : MsgHdr) (body : List Byte) (s : State) : Out :=
  if unknownCode h.op.toNat then request h.op.toNat c h body (fun r t => r.deny t 1) s else .next s

/-! ### Memory (R374, R378) -/

/-- A run of virtual bytes cut at multiples of 64 KiB. -/
def segments : Nat → Nat → Nat → List (Nat × Nat)
  | 0, _, _ => []
  | k + 1, va, len =>
    if len = 0 then [] else
      let n := min len (65536 - va % 65536)
      (va, n) :: segments k (va + n) (len - n)

def segmentsOf (va len : Nat) : List (Nat × Nat) := segments (len / 65536 + 2) va len

/-- Translates a run of a journey's bytes: the pieces, or the first failing address and its cause. -/
def State.xlateRun (s : State) (j : Journey) (n : Need) : List (Nat × Nat) → List (Xlat × Nat) ⊕ (Nat × Nat)
  | [] => .inl []
  | (va, len) :: rest =>
    match s.walkOf j n (BitVec.ofNat 64 va) with
    | .fail c => .inr (va % 2 ^ 64, c)
    | x => match s.xlateRun j n rest with
      | .inl l => .inl ((x, len) :: l)
      | .inr e => .inr e

/-- What a record of a refused import names that the Innkeeper makes for the focused journey (R351). -/
def State.keeperRec (s : State) (access : Nat) : FaultRec :=
  { code := 0, journey := s.j.num, access := access, span0 := s.j.t0, round := s.j.round }

/-- The pieces of a request's read, in address order: bytes of the pool, or of a peer through a window (R326, R348). -/
def State.keeperRead (s : State) : List (Xlat × Nat) → State × List Byte
  | [] => (s, [])
  | (x, n) :: rest =>
    let (s1, l) := match x with
      | .pool pa => (s, s.keeperBytes pa n)
      | .peer w off => s.importRun (s.keeperRec 0) w off n n
      | .fail _ => (s, [])
    let r := s1.keeperRead rest
    (r.1, l ++ r.2)

/-- Bytes that the Innkeeper writes for the focused journey, an access in S (R326). -/
def State.keeperWrite (s : State) (pa : Nat) (l : List Byte) : State := (s.memWrite pa l).clearPoison [(pa, l.length)]

/-- The pieces of a request's write, in address order. -/
def State.keeperWrites (s : State) : List (Xlat × Nat) → List Byte → State
  | [], _ => s
  | (x, n) :: rest, l =>
    let s1 := match x with
      | .pool pa => s.keeperWrite pa (l.take n)
      | .peer w off => (s.importBy (s.keeperRec 1) w off 0 (.store (l.take n))).1
      | .fail _ => s
    s1.keeperWrites rest (l.drop n)

/-- Puts the focused journey back. -/
def State.putJ (s : State) : State := s.putJourney s.j

/-- Whether a read took every byte of a run. -/
def readAll (l : List (Xlat × Nat)) (pa n : Nat) : Bool :=
  (upTo n).all fun i => l.any fun x => match x.1 with
    | .pool a => a ≤ pa + i && pa + i < a + x.2
    | _ => false

/-- Records of a session's ring that a read has taken, oldest first. -/
def readCount (x : Session) (l : List (Xlat × Nat)) : Nat → Nat → Nat
  | 0, _ => 0
  | k + 1, i => if readAll l (x.bufPa + 48 * (i % (x.bufLen / 48))) 48 then readCount x l k (i + 1) + 1 else 0

/-- The client reads records of debug buffers: their places in the rings are free again (R408). -/
def State.readRecords (s : State) (l : List (Xlat × Nat)) : State :=
  s.modHub fun h => { h with sessions := h.sessions.map fun x => { x with rd := x.rd + readCount x l (x.wr - x.rd) x.rd } }

/-- A page of a read or write fails: the Innkeeper serves the failure, and after that it is answered (R343, R374). -/
def Rq.failPage (r : Rq) (s : State) (va cause : Nat) : State :=
  if r.p.served && r.p.fail.any (fun f => f.1.toNat == va) then s.finish r.jn 6 r.p (fields8 [va, cause])
  else s.modJourney r.jn fun j => { j with pend := some { r.p with fail := some (BitVec.ofNat 64 va, cause), served := false, was := j.state } }

def reqRead (r : Rq) (s : State) : State :=
  r.withJ s fun j =>
    if r.body.length < 16 || fld r.body 1 < 1 || 2 ^ 26 < fld r.body 1 then r.fail s 1 else
      match s.xlateRun j needR (segmentsOf (fld r.body 0) (fld r.body 1)) with
      | .inr e => r.failPage s e.1 e.2
      | .inl l =>
        let x := ({ s with j := j }).keeperRead l
        r.ok (x.1.readRecords l) x.2

def reqWrite (r : Rq) (s : State) : State :=
  r.withJ s fun j =>
    let len := fld r.body 1
    if r.body.length < 16 || len < 1 || r.body.length < 16 + len then r.fail s 1 else
      match s.xlateRun j needW (segmentsOf (fld r.body 0) len) with
      | .inr e => r.failPage s e.1 e.2
      | .inl l => r.ok (({ s with j := j }).keeperWrites l ((r.body.drop 16).take len)).putJ []

/-- `READ` (op 0x03). -/
def execReadReq (c : Nat) (h : MsgHdr) (body : List Byte) (s : State) : Out := request 3 c h body reqRead s
/-- `WRITE` (op 0x04). -/
def execWriteReq (c : Nat) (h : MsgHdr) (body : List Byte) (s : State) : Out := request 4 c h body reqWrite s

/-! ### Opening a journey (R376, R433 to R436) -/

/-- The number that the next journey receives. -/
def Hub.nextJourney (h : Hub) : Option Nat :=
  match (upTo 256).find? fun n => !h.given.contains n with
  | some n => some n
  | none => h.freed.head?

/-- Maps a run of pool memory in pages of one size. -/
def State.mapRun (s : State) (j : Journey) (size : BitVec 2) (r w x window : Bool) (va target : Nat) (n idx : Nat) : Journey :=
  let sz := 2 ^ pageShift size
  (List.range n).foldl (fun j i =>
    j.install s ⟨va / sz + i, size, r, w, x, window, BitVec.ofNat 64 (target + i * sz + idx)⟩) j

/-- The worst of some statuses: malformed before not permitted. -/
def worst (l : List Nat) : Nat := if l.contains 1 then 1 else if l.contains 2 then 2 else 0

/-- Status of an open body's fields in a room. A reserved bit inside a byte that is partly used counts as a reserved byte does (R6, R375;
DESIGN CHOICE, assumption 109). -/
def openStatus (s : State) (m : Room) (b : List Byte) : Nat :=
  let flags := fld b 0
  let quota := fld b 2
  let logOn := bitsOf flags 0 1 == 1
  let data := bitsOf flags 1 1 == 1
  let q := fieldAt b 24 1
  let nb := fieldAt b 25 1
  let cva := fld b 4
  let clen := fld b 6
  let dva := fld b 7
  let dlen := fld b 9
  if b.length < 120 || b.length < 120 + fld b 14 || 4 ≤ flags || quota < 1 || 2 ^ 32 < quota || 40 < q || nb < 4 || 8 < nb
      || fieldAt b 26 6 != 0 || !page64 cva || 2 ^ 57 < cva + clen
      || (data && (!page64 dva || 2 ^ 57 < dva + dlen || (dva < cva + clen && cva < dva + dlen))) then 1
  else
    worst [s.regionStatus m.num (fld b 5) clen, if data then s.regionStatus m.num (fld b 8) dlen else 0,
      if logOn then s.regionStatus m.num (fld b 10) (fld b 11) else 0,
      if fld b 12 != 0 then s.regionStatus m.num (fld b 12) (fld b 13) else 0]

/-- Whether a room's tiers and near stores can hold a new journey's quota and buckets, and a journey slot is free (R304, R305). -/
def State.openRoom (s : State) (m : Room) (quota nb : Nat) : Bool :=
  let js := s.journeys.filter fun j => j.room == m.num
  js.length < Config.journeySlots && s.tiersHold m quota
    && (js.map fun j => 2 ^ j.nb).foldl (· + ·) (2 ^ nb) ≤ 256

/-- Opens a journey in a room: the state and its number, or the status of a refusal. -/
def State.openJourney (s : State) (m : Room) (b : List Byte) : (State × Nat) ⊕ Nat :=
  let st := openStatus s m b
  if st != 0 then .inr st else
    let pack := (b.drop 120).take (fld b 14)
    let data := bitsOf (fld b 0) 1 1 == 1
    match openPack pack with
    | none => .inr 5
    | some o =>
      if fld b 6 < o.code.length || (data && fld b 9 < o.data.length) then .inr 5
      else if !s.openRoom m (fld b 2) (fieldAt b 25 1) then .inr 9
      else match s.hub.nextJourney with
        | none => .inr 9
        | some n =>
          let hash := sha384 pack
          let table (i : Nat) : Table := { cur := newDesc s 8 (40 + i) }
          let j0 : Journey :=
            { num := n, room := m.num, handlers := o.handlers.map fun h => h.at (BitVec.ofNat 64 (fld b 4)),
              lookahead := BitVec.ofNat 64 o.lookahead, seed := BitVec.ofNat 64 (fld b 1), quota := fld b 2, q := fieldAt b 24 1,
              nb := fieldAt b 25 1, tables := (upTo 4).map table, spread := s.freeNat (41 * 2 ^ 60),
              code := (fld b 4, fld b 5, fld b 6),
              log := if bitsOf (fld b 0) 0 1 == 1 then some (fld b 10, fld b 11) else none,
              stopReg := if fld b 12 = 0 then (0, 0) else (fld b 12, fld b 13),
              packId := BitVec.ofNat 64 (ofBe (hash.drop 40)), packHash := hash }
          let j1 := s.mapRun j0 0 true false true false (fld b 4) (fld b 5) (fld b 6 / 65536) 0
          let j2 := if data then s.mapRun j1 0 true true false false (fld b 7) (fld b 8) (fld b 9 / 65536) 0 else j1
          let s1 := ({ s with j := j2 }).keeperWrite (fld b 5) o.code
          let s2 := if data then s1.keeperWrite (fld b 8) o.data else s1
          let s3 := s2.putJ.modHub fun h => { h with given := if h.given.contains n then h.given else h.given ++ [n],
                                                     freed := h.freed.filter fun x => x != n }
          .inl (s3, n)

def reqOpen (r : Rq) (s : State) : State :=
  match r.st with
  | .room n => match s.room? n with
    | some m => match s.openJourney m r.body with
      | .inl (s1, jn) => s1.finish jn 0 r.p (fields8 [jn])
      | .inr st => r.deny s st
    | none => r.deny s 2
  | _ => r.deny s 2

/-- `OPEN` (op 0x01). -/
def execOpenReq (c : Nat) (h : MsgHdr) (body : List Byte) (s : State) : Out := request 1 c h body reqOpen s

/-! ### Close and teardown (R352) -/

def reqClose (r : Rq) (s : State) : State :=
  r.withJ s fun j =>
    let s1 := (s.dropEngines j.num).sweep j.room j.num
    let s2 := s1.modHub fun h => { h with imports := h.imports.filter fun e => e.journey != j.num }
    let halt (g : Group) : Group :=
      if g.journey == j.num then { g with halted := true, park := none, lpark := none, lq := [] } else g
    ({ s2 with groups := s2.groups.map halt }).putJourney
      { j with state := .closing, tag := j.tag + 1, queue := [], seats := [], gangs := [], inRound := false, restore := none,
               stopFor := none, windows := [], pend := some r.p }

/-- `CLOSE` (op 0x02). -/
def execCloseReq (c : Nat) (h : MsgHdr) (body : List Byte) (s : State) : Out := request 2 c h body reqClose s

/-- Answers a replay: the new journey's number, the requests executed, and the first that differs (R402). -/
def State.endReplay (s : State) (j : Journey) : State :=
  match j.replyTo with
  | none => s
  | some (c, h, entry) =>
    (s.modJourney j.num fun x => { x with replyTo := none }).respond c h entry 0
      (fields8 [j.num, j.replayed, j.firstDiff.getD (2 ^ 64 - 1)])

/-- The requests that a replay has left find no journey: each is executed with status 3. -/
def Journey.replayGone (j : Journey) : Journey :=
  let first := (j.replay.zipIdx.find? fun x => x.1.status != 3).map fun x => j.replayed + x.2
  { j with replay := [], replayed := j.replayed + j.replay.length, firstDiff := j.firstDiff <|> first }

/-- Whether anything that carries a journey's old tag is outstanding. -/
def State.draining (s : State) (j : Journey) : Bool :=
  s.inFlight j.num || !j.wbs.isEmpty || s.reqs.any fun q => (s.group? q.core q.slot).any fun g => g.journey == j.num

/-- `TEARDOWN_COMPLETE`: once nothing with the old tag is outstanding, lines not yet published are written back (R331), and the tables,
the frames and the number are freed. -/
def execTeardownComplete (journey : Nat) (s : State) : Out :=
  match s.journey? journey with
  | none => .next s
  | some j =>
    match j.state, j.pend with
    | .closing, some p =>
      if s.draining j then .next s else
        let s1 := (s.publishAll journey).finish journey 0 p []
        let j1 := (s1.journey? journey).getD j
        let s2 := s1.endReplay j1.replayGone
        let s3 := (({ s2 with j := j1 }).freeEntries j1.handles).evict journey
        let s4 := { s3 with journeys := s3.journeys.filter fun x => x.num != journey }
        .next ((s4.sweep j.room journey).modHub fun h => { h with freed := h.freed ++ [journey] })
    | _, _ => .next s

/-! ### Seeds and launches (R285, R310, R313, R317, R377) -/

/-- Whether a journey takes events: not where it has been stopped for good. -/
def Journey.seedable (j : Journey) : Bool :=
  match j.state with
  | .stopped image => image
  | _ => true

/-- An event record of a seed request. -/
def seedEvent (e : List Byte) : NewEvent :=
  let x := ofLe (e.take 64)
  { time := bitsOf x 0 64, handler := BitVec.ofNat 16 (bitsOf x 64 16), prio := BitVec.ofNat 2 (bitsOf x 80 2),
    canc := bitsOf x 83 1 == 1, entity := BitVec.ofNat 32 (bitsOf x 96 32), tie := BitVec.ofNat 32 (bitsOf x 128 32),
    payload := (upTo 10).map fun k => BitVec.ofNat 32 (bitsOf x (192 + 32 * k) 32) }

/-- Whether a handle is a refused one. -/
def isRefused (h : Word64) : Bool := h.toNat / 2 ^ 62 == 2

/-- A journey that has accepted an event rests no longer (R310). -/
def Journey.woken (j : Journey) : Journey :=
  match j.state with
  | .resting => { j with state := .running }
  | _ => j

/-- Accepts events of the focused journey in order; the answer carries their handles. -/
def State.seedAll (s : State) : List NewEvent → State × List Word64
  | [] => (s, [])
  | e :: es =>
    let r := s.acceptEvent true e
    let t := r.1.seedAll es
    (t.1, r.2 :: t.2)

def reqSeed (r : Rq) (s : State) : State :=
  r.withJ s fun j =>
    let n := fld r.body 0
    let recs := chunks n 64 ((r.body.drop 8).take (64 * n))
    if r.body.length < 8 || n < 1 || 65536 < n || r.body.length < 8 + 64 * n
        || recs.any fun e => bitsOf (ofLe (e.take 64)) 84 12 != 0 then r.fail s 1
    else if !j.seedable then r.fail s 4
    else
      let (s1, hs) := ({ s with j := j }).seedAll (recs.map seedEvent)
      let s2 := (s1.modJ fun j => if hs.all isRefused then j else j.woken).putJ
      s2.finish r.jn (if hs.any isRefused then 7 else 0) r.p (fields8 (hs.map (·.toNat)))

/-- `SEED` (op 0x05). -/
def execSeedReq (c : Nat) (h : MsgHdr) (body : List Byte) (s : State) : Out := request 5 c h body reqSeed s

/-- Accepts the events of a flat launch from number i on; it stops at its first refusal. -/
def State.launchAll (s : State) (ev : Nat → NewEvent) (i : Nat) : Nat → State × Option (Nat × Word64)
  | 0 => (s, none)
  | n + 1 =>
    let r := s.acceptEvent true (ev i)
    if isRefused r.2 then (s, some (i, r.2)) else r.1.launchAll ev (i + 1) n

/-- Reserved bits of the handler word count as a reserved byte does (assumption 109). -/
def reqLaunch (r : Rq) (s : State) : State :=
  r.withJ s fun j =>
    let n := fld r.body 0
    let hw := fld r.body 2
    if r.body.length < 64 || n < 1 || 2 ^ 32 < n || 2 ^ 18 ≤ hw || fieldAt r.body 60 4 != 0 then r.fail s 1
    else if !j.seedable then r.fail s 4
    else
      let words := (upTo 9).map fun k => BitVec.ofNat 32 (fieldAt r.body (24 + 4 * k) 4)
      let ev (i : Nat) : NewEvent :=
        { time := fld r.body 1, handler := BitVec.ofNat 16 hw, prio := BitVec.ofNat 2 (hw / 2 ^ 16), canc := false, entity := 0,
          tie := BitVec.ofNat 32 i, payload := BitVec.ofNat 32 i :: words }
      let (s1, bad) := ({ s with j := j }).launchAll ev 0 n
      let count := match bad with
        | some (i, _) => i
        | none => n
      let s2 := (s1.modJ fun j => if count = 0 then j else j.woken).putJ
      match bad with
      | some (i, hd) => s2.finish r.jn 7 r.p (fields8 [count, i, hd.toNat])
      | none => s2.finish r.jn 0 r.p (fields8 [count, 2 ^ 64 - 1, 0])

/-- `LAUNCH` (op 0x06). -/
def execLaunchReq (c : Nat) (h : MsgHdr) (body : List Byte) (s : State) : Out := request 6 c h body reqLaunch s

/-! ### Resume (R98, R345) -/

def reqResume (r : Rq) (s : State) : State :=
  r.withJ s fun j =>
    if r.body.length < 16 || 256 ≤ fld r.body 0 || 64 ≤ fld r.body 1 then r.fail s 1 else
      match s.group? (fld r.body 0) (fld r.body 1) with
      | some g => if g.journey == j.num && g.isHeld then r.ok (s.putGroup { g.resume with halted := false }) [] else r.fail s 4
      | none => r.fail s 4

/-- `RESUME` (op 0x0C). -/
def execResumeReq (c : Nat) (h : MsgHdr) (body : List Byte) (s : State) : Out := request 12 c h body reqResume s

/-! ### Mappings (R342, R348 to R350, R378) -/

/-- Whether a page table shows an entry for one of a run of pages. -/
def Journey.mapped (j : Journey) (size : BitVec 2) (vpn n : Nat) : Bool :=
  match j.tables[size.toNat]? with
  | some t => t.entries.any fun e => vpn ≤ e.vpn && e.vpn < vpn + n
  | none => false

/-- Reserved bits of the flags count as a reserved byte does (assumption 109). -/
def reqMap (r : Rq) (s : State) : State :=
  r.withJ s fun j =>
    let va := fld r.body 0
    let target := fld r.body 1
    let len := fld r.body 2
    let flags := fld r.body 3
    let idx := fld r.body 4
    let size := BitVec.ofNat 2 flags
    let sz := 2 ^ pageShift size
    let f (i : Nat) : Bool := flags.testBit i
    if r.body.length < 40 || 64 ≤ flags || va % sz != 0 || target % sz != 0 || len % sz != 0 || 2 ^ 57 < va + len
        || (!f 5 && idx != 0) || (f 5 && (Config.windows ≤ idx || !j.windows.any fun w => w.idx == idx))
        || j.mapped size (va / sz) (len / sz) then r.fail s 1
    else if !f 5 && !s.inRoom j.room target len then r.fail s 2
    else r.ok (s.putJourney (s.mapRun j size (f 2) (f 3) (f 4) (f 5) va target (len / sz) idx)) []

/-- `MAP` (op 0x0D). -/
def execMapReq (c : Nat) (h : MsgHdr) (body : List Byte) (s : State) : Out := request 13 c h body reqMap s

/-- Whether an entry's page lies wholly within a range. -/
def Pte.within (e : Pte) (va len : Nat) : Bool :=
  let sz := 2 ^ pageShift e.size
  va ≤ e.vpn * sz && (e.vpn + 1) * sz ≤ va + len

/-- A descriptor without the entries whose pages lie wholly within a range. -/
def TableDesc.clear (d : TableDesc) (va len : Nat) : TableDesc :=
  { d with slots := d.slots.filter fun e => !e.2.within va len }

/-- Frames of the pool pages that lie wholly within a range. -/
def Journey.clearedFrames (j : Journey) (va len : Nat) : List (Nat × Nat) :=
  ((j.tables.flatMap Table.entries).filter fun e => !e.window && e.within va len).map fun e => (e.target.toNat, 2 ^ pageShift e.size)

/-- The entries go at once; the response waits for the shootdown. -/
def reqUnmap (r : Rq) (s : State) : State :=
  r.withJ s fun j =>
    let va := fld r.body 0
    let len := fld r.body 1
    if r.body.length < 16 || !page64 va || !page64 len then r.fail s 1 else
      s.putJourney { j with pend := some r.p, unmapped := j.clearedFrames va len,
                            tables := j.tables.map fun t => { cur := t.cur.clear va len, old := t.old.clear va len } }

/-- `UNMAP` (op 0x0E). -/
def execUnmapReq (c : Nat) (h : MsgHdr) (body : List Byte) (s : State) : Out := request 14 c h body reqUnmap s

/-- `SHOOTDOWN_COMPLETE` (R342): every core has emptied its caches, and every access that used an old translation is performed. -/
def execShootdownComplete (room : Nat) (s : State) : Out :=
  let due := (s.journeysOf room).filter fun j => (j.pend.any fun p => p.h.op == 14) && !s.inFlight j.num
  .next (due.foldl (fun t j => match j.pend with
    | some p => ((t.sweep room j.num).modJourney j.num fun x => { x with pend := none, unmapped := [] }).finish j.num 0 p []
    | none => t) s)

/-- The lowest number that a list does not hold, from a number on. -/
def lowestFree (used : List Nat) : Nat → Nat → Nat
  | 0, k => k
  | n + 1, k => if used.contains k then lowestFree used n (k + 1) else k

/-- Reserved bits of the rights count as a reserved byte does (assumption 109). -/
def reqExport (r : Rq) (s : State) : State :=
  r.withJ s fun j =>
    let va := fld r.body 0
    let len := fld r.body 1
    let rights := fld r.body 2
    if r.body.length < 32 || !page64 va || !page64 len || 8 ≤ rights then r.fail s 1
    else if Config.imports ≤ s.hub.imports.length then r.fail s 9
    else
      let slot := lowestFree (s.hub.imports.map (·.slot)) s.hub.imports.length 0
      let e : Import := ⟨slot, j.num, rights.testBit 0, rights.testBit 1, rights.testBit 2, BitVec.ofNat 64 (fld r.body 3),
        BitVec.ofNat 64 va, BitVec.ofNat 64 len, 0⟩
      r.ok (s.modHub fun h => { h with imports := e :: h.imports }) (fields8 [slot])

/-- `EXPORT` (op 0x0F). -/
def execExportReq (c : Nat) (h : MsgHdr) (body : List Byte) (s : State) : Out := request 15 c h body reqExport s

def reqWindow (r : Rq) (s : State) : State :=
  r.withJ s fun j =>
    if r.body.length < 24 || 2 ^ 16 ≤ fld r.body 0 || 2 ^ 16 ≤ fld r.body 1 then r.fail s 1
    else if Config.windows ≤ j.windows.length then r.fail s 9
    else
      let idx := lowestFree (j.windows.map (·.idx)) j.windows.length 0
      let w : Window := ⟨idx, BitVec.ofNat 16 (fld r.body 0), BitVec.ofNat 16 (fld r.body 1), BitVec.ofNat 64 (fld r.body 2)⟩
      r.ok (s.putJourney { j with windows := w :: j.windows }) (fields8 [idx])

/-- `WINDOW` (op 0x10). -/
def execWindowReq (c : Nat) (h : MsgHdr) (body : List Byte) (s : State) : Out := request 16 c h body reqWindow s

/-! ### Faults (R400) -/

/-- The room that a room-wide request reads: its endpoint's, or at the operator's endpoint the named journey's. -/
def Rq.room (r : Rq) (s : State) : Option Nat :=
  match r.st with
  | .room n => some n
  | .operator => (s.journey? r.jn).map (·.room)
  | .nobody => none

def reqFaults (r : Rq) (s : State) : State :=
  match (r.room s).bind s.room? with
  | none => r.deny s (if r.st == .nobody then 2 else 3)
  | some m =>
    let n := fld r.body 0
    if r.body.length < 8 || n < 1 || 1024 < n then r.deny s 1 else
      let s1 := s.putRoom { m with drops := 0, faultq := m.faultq.drop n }
      match r.p.conn with
      | some c => s1.respond c r.p.h r.p.entry 0 (leBytes 4 m.drops.toNat ++ (m.faultq.take n).flatten)
      | none => s1

/-- `FAULTS` (op 0x11). -/
def execFaultsReq (c : Nat) (h : MsgHdr) (body : List Byte) (s : State) : Out := request 17 c h body reqFaults s

end Sys2Proof.Machine
end

