-- ==== Sys2Proof/Machine/Debug.lean ====
section
/-! DEFINITION. Debug sessions (R403, R404), halting and editing (R405, R406), points (R407), sampling (R408). The manual gives the fields of
the debug bodies but not every layout: the layouts here are assumption 17's. -/

namespace Sys2Proof.Machine

/-! ### Sessions -/

/-- The session of a connection. -/
def State.sessionAt (s : State) (c : Nat) : Option Session := s.hub.sessions.find? fun x => x.conn == c

/-- Whether a session's scope holds a room. -/
def Session.sees (x : Session) (room : Nat) : Bool := x.scope == 0xFF || x.scope == room

/-- Whether two scopes share a room. -/
def scopesMeet (a b : Nat) : Bool := a == b || a == 0xFF || b == 0xFF

/-- The key that may open a session of a scope at an endpoint (R403). -/
def State.debugKeyFor (s : State) (st : Standing) (scope : Nat) : Option (Nat × Nat) :=
  match st with
  | .operator => s.hub.opKey
  | .room n => if scope = n then (s.room? n).bind fun m => m.debugKey else none
  | .nobody => none

/-- A connection with its debug nonce set or spent. -/
def State.setNonce (s : State) (c : Nat) (nonce : Option (List Byte)) : State :=
  match s.hub.conns.find? fun x => x.num == c with
  | some x => s.modHub fun h => h.putConn { x with nonce := nonce }
  | none => s

/-- The first body asks for a nonce, the second carries the signature over it. R403 lays out neither r and s nor the key: the model
reads each as 48 octets, the most significant first (DESIGN CHOICE, assumption 17). -/
def reqDebugOpen (r : Rq) (s : State) : State :=
  let scope := fld r.body 0
  match r.p.conn with
  | none => r.deny s 2
  | some c =>
    if r.st == .nobody then r.deny s 2
    else if r.body.length != 8 && r.body.length != 104 then r.deny s 1
    else if scope != 0xFF && 31 < scope then r.deny s 1
    else if (match r.st with | .room n => scope != n | _ => scope != 0xFF && (s.room? scope).isNone) then r.deny s 3
    else if r.body.length == 8 then
      let nonce := (upTo 4).flatMap fun k => leBytes 8 (s.freeWord (43 * 2 ^ 60 + k)).toNat
      (s.setNonce c (some nonce)).respond c r.p.h r.p.entry 0 nonce
    else
      let s1 := s.setNonce c none
      let nonce := (s.hub.conns.find? fun x => x.num == c).bind fun x => x.nonce
      match nonce, s.debugKeyFor r.st scope with
      | some n, some key =>
        if !ecdsaOk key (n ++ r.body.take 8) (ofBe ((r.body.drop 8).take 48)) (ofBe ((r.body.drop 56).take 48)) then r.deny s1 2
        else if s.hub.sessions.any fun x => x.conn == c || scopesMeet x.scope scope then r.deny s1 0x0B
        else r.deny (s1.modHub fun h => { h with sessions := h.sessions ++ [{ conn := c, scope := scope }] }) 0
      | _, _ => r.deny s1 2

/-- `DEBUG_OPEN` (op 0x30). -/
def execDebugOpen (c : Nat) (h : MsgHdr) (body : List Byte) (s : State) : Out := request 0x30 c h body reqDebugOpen s

/-- A halted group goes on: from its `brk` or its trap too, or from the instruction that the halt came before (R99, R405). -/
def Group.unhalt (g : Group) : Group :=
  let g1 := if g.hold == .none then g else { g.resume with park := g.park, lpark := g.lpark }
  { g1 with halted := false, haltReq := false, wait := 1 }

/-- Closing resumes what the session has halted, a group that a trap holds as well included (R404, R405). -/
def Group.release (g : Group) : Group :=
  if g.halted then g.unhalt else { g with haltReq := false, watchHit := false }

/-- Ends a session (R404). -/
def State.endSession (s : State) (x : Session) : State :=
  let free (g : Group) : Group :=
    if x.sees g.room && (s.journey? g.journey).any (fun j => j.state != .closing) then g.release else g
  { s with groups := s.groups.map free, hub := { s.hub with sessions := s.hub.sessions.filter fun y => y.conn != x.conn } }

/-- Runs an effect in the session of the request's connection. -/
def Rq.inSession (r : Rq) (s : State) (k : Session → State) : State :=
  match r.p.conn.bind s.sessionAt with
  | some x => k x
  | none => r.deny s 2

/-- Answers a debug request. -/
def Rq.reply (r : Rq) (s : State) (body : List Byte) : State :=
  match r.p.conn with
  | some c => s.respond c r.p.h r.p.entry 0 body
  | none => s

def reqDebugClose (r : Rq) (s : State) : State := r.inSession s fun x => r.deny (s.endSession x) 0

/-- `DEBUG_CLOSE` (op 0x31). -/
def execDebugClose (c : Nat) (h : MsgHdr) (body : List Byte) (s : State) : Out := request 0x31 c h body reqDebugClose s

/-! ### Groups that a session names -/

/-- Runs an effect on the journey of the body's first field, if the session sees it. -/
def Rq.debugJourney (r : Rq) (s : State) (k : Session → Journey → State) : State :=
  r.inSession s fun x =>
    if r.body.length < 8 || 256 ≤ fld r.body 0 then r.deny s 1 else
      match s.journey? (fld r.body 0) with
      | some j => if x.sees j.room && j.state != .closing then k x j else r.deny s 3
      | none => r.deny s 3

/-- Whether a core belongs to the room of a journey. -/
def State.ownsCore (s : State) (j : Journey) (core : Nat) : Bool :=
  (s.room? j.room).any fun m => m.clusters.toNat.testBit (core / 8)

/-- Runs an effect on the group of the body's first three fields: a core of another room is other state (R403), and a group that has
retired is not there. -/
def Rq.debugGroup (r : Rq) (s : State) (k : Group → State) : State :=
  r.debugJourney s fun _ j =>
    if r.body.length < 24 || 256 ≤ fld r.body 1 || 64 ≤ fld r.body 2 then r.deny s 1
    else if !s.ownsCore j (fld r.body 1) then r.deny s 3
    else match s.group? (fld r.body 1) (fld r.body 2) with
      | some g => if g.journey == j.num then k g else r.deny s 4
      | none => r.deny s 4

/-- A halt request reaches a group: a held one is marked halted at once, with its record (R405, R408). -/
def State.askHalt (s : State) (g : Group) : State :=
  if g.halted then s
  else if g.hold != .none then
    let h := { g with halted := true, wait := 6 }
    match s.sessionOf g.room with
    | some x => (s.putGroup h).traceFor x 4 h h.stateCode
    | none => s.putGroup h
  else s.putGroup { g with haltReq := true }

def reqDebugHalt (r : Rq) (s : State) : State :=
  if r.body.length = 8 then
    r.debugJourney s fun _ j =>
      r.deny ((s.groups.filter fun g => g.journey == j.num).foldl State.askHalt s) 0
  else r.debugGroup s fun g => r.deny (s.askHalt g) 0

/-- `DEBUG_HALT` (op 0x32). -/
def execDebugHalt (c : Nat) (h : MsgHdr) (body : List Byte) (s : State) : Out := request 0x32 c h body reqDebugHalt s

def reqDebugResume (r : Rq) (s : State) : State :=
  r.debugGroup s fun g => if g.halted then r.deny (s.putGroup g.unhalt) 0 else r.deny s 4

/-- `DEBUG_RESUME` (op 0x33). -/
def execDebugResume (c : Nat) (h : MsgHdr) (body : List Byte) (s : State) : Out := request 0x33 c h body reqDebugResume s

/-- `GROUP_HALT` (R405): a group at a boundary halts on a pending request, a watchpoint or a breakpoint. -/
def execGroupHalt (core slot : Nat) (s : State) : Out :=
  match s.group? core slot with
  | none => .next s
  | some g =>
    if g.still then .next s else
      match (s.focus g).haltCheck with
      | some t => .next t.unfocus
      | none => .next s

/-! ### State read and written (R133, R406) -/

/-- Lane registers of a group as bytes. -/
def lanesBytes (v : Vector Word32 32) : List Byte := (upTo 32).flatMap fun i => leBytes 4 (laneOf v i).toNat

/-- What `%repi` reads in a group: 0 between the repetitions that it performs in one go (R92). -/
def Group.repiShown (g : Group) : BitVec 9 := if g.inRep && g.mid then 0 else g.repi

/-- The state of R133 of the focused group, in the order of its table. -/
def State.groupBytes (s : State) : List Byte :=
  let g := s.g
  fields8 [g.spc.toNat, g.lpc.toNat, g.lq.length]
    ++ g.lq.flatMap (fun e => leBytes 12 ((encodeLane e.ins).getD 0).toNat ++ leBytes 4 e.mask.toNat)
    ++ leBytes 8 g.llink.toNat
    ++ (upTo 64).flatMap (fun i => leBytes 8 (if i = 0 then 0 else (g.s.toList.getD i 0).toNat))
    ++ (upTo g.handler.laneRegs).flatMap (fun i => lanesBytes (g.v.toList.getD i (Vector.replicate 32 0)))
    ++ (upTo 12).flatMap (fun i => leBytes 4 (g.p.toList.getD i 0).toNat)
    ++ (upTo 16).flatMap (fun i => leBytes 4 (s.kreg (BitVec.ofNat 4 i)).toNat)
    ++ (upTo 16).flatMap (fun i => leBytes 8 (s.futureStatus (BitVec.ofNat 4 i)).toNat
        ++ leBytes 8 (match g.f.toList.getD i .empty with | .held t => t.toNat | .stale t => t.toNat | .empty => 0))
    ++ (match g.latch with
        | some l => fields8 [l.first, l.count] ++ l.regs.flatMap lanesBytes
        | none => fields8 [0, 0])
    ++ leBytes 4 g.fpflags.toNat ++ leBytes 4 g.repiShown.toNat ++ lanesBytes g.stoch

def reqReadState (r : Rq) (s : State) : State := r.debugGroup s fun g => r.reply s (s.focus g).groupBytes

/-- `READ_STATE` (op 0x34). -/
def execReadState (c : Nat) (h : MsgHdr) (body : List Byte) (s : State) : Out := request 0x34 c h body reqReadState s

/-- Pending operations of a group. -/
def State.pendingOps (s : State) (g : Group) : List Op :=
  (s.core g.core).ops.filter fun o => o.band == g.band && o.group == g.slot && o.st == .pending

/-- The scalar PC of a halted group is written: it goes on there, and what it had begun at its old instruction is given up: a parked
access, repetitions (R92), and the step past a `brk` or a UserTrap. -/
def Group.setPc (g : Group) (a : Word64) : Group :=
  let hold := match g.hold with
    | .trap _ => .trap false
    | .brk _ => .brk false
    | h => h
  let g1 := { g with spc := a, hold := hold }
  if a = g.spc || (g.ahead.gone != 0 && g.ahead.back.isNone) then g1 else
    let g2 := match g.scAcc with
      | some k => g1.finAcc k.tag
      | none => g1
    { g2 with passed := false, mid := false, lqPassed := false, waited := false, repi := 0, park := none, scAcc := none,
              ahead := {} }

/-- A write of one register of a halted group; none where it is refused (R406). Classes: 0 scalar, 1 lane, 2 predicate, 3 mask,
4 `%fpflags`, 5 scalar PC, 6 `%llink`. -/
def State.writeReg (s : State) (g : Group) (cls n : Nat) (value : List Byte) : Option Group :=
  let x := ofLe (value.take 8)
  let ops := s.pendingOps g
  match cls with
  | 0 =>
    if h : n < 64 then
      if n = 0 || ops.any (fun o => o.dstS.any fun r => r.toNat == n) then none
      else some { g with s := g.s.set n (BitVec.ofNat 64 x) }
    else none
  | 1 =>
    if h : n < 256 then
      if g.handler.laneRegs ≤ n || value.length < 128
          || ops.any (fun o => o.dstV.any fun r => r.first ≤ n && n < r.first + r.count) then none
      else some { g with v := g.v.set n (mkLanes fun i => BitVec.ofNat 32 (fieldAt value (4 * i) 4)) }
    else none
  | 2 =>
    if h : n < 12 then
      if ops.any (fun o => o.dstP.any fun r => r.toNat == n) then none else some { g with p := g.p.set n (BitVec.ofNat 32 x) }
    else none
  | 3 => if h : n < 16 then (if n = 0 then none else some { g with k := g.k.set n (BitVec.ofNat 32 x) }) else none
  | 4 => if n = 0 then some { g with fpflags := BitVec.ofNat 32 x &&& flMask } else none
  | 5 =>
    let a := BitVec.ofNat 64 x
    if n != 0 || x % 4 != 0 || (g.handler.scalarOff a).isNone then none
    else some (g.setPc a)
  | 6 => if n = 0 then some { g with llink := BitVec.ofNat 64 x } else none
  | _ => none

/-- The group after a write of register `n` of a class (R406): no open window and no answer still to come shows an older value, and a
pending operation that reads the register delivers undefined values (R149). -/
def State.putWritten (s : State) (cls n : Nat) (g : Group) : State :=
  let f := s.focus g
  match cls with
  | 0 => { s.putGroup { g with winS := g.winS.filter fun w => w.reg.toNat != n } with reqs := (f.loseReply n fun q => q.isScalar).reqs }
  | 1 =>
    let t := (f.loseReply n fun q => !q.isScalar).spoilV n
    { (s.putCore t.c).putGroup { t.g with winV := g.winV.filter fun w => w.reg.toNat != n } with reqs := t.reqs }
  | 2 => s.putGroup { g with winP := g.winP.filter fun w => w.reg.toNat != n }
  | _ => s.putGroup g

def reqWriteState (r : Rq) (s : State) : State :=
  r.debugGroup s fun g =>
    if r.body.length < 40 || 2 ^ 16 ≤ fld r.body 3 then r.deny s 1
    else if !g.halted then r.deny s 4
    else match s.writeReg g (fld r.body 3 / 256) (fld r.body 3 % 256) (r.body.drop 32) with
      | some g1 => r.deny (s.putWritten (fld r.body 3 / 256) (fld r.body 3 % 256) g1) 0
      | none => r.deny s 1

/-- `WRITE_STATE` (op 0x35). -/
def execWriteState (c : Nat) (h : MsgHdr) (body : List Byte) (s : State) : Out := request 0x35 c h body reqWriteState s

/-! ### Points (R407) -/

/-- The watchpoint of a set-point body. -/
def bodyWatch (b : List Byte) : Watch :=
  let f := fld b 5
  { lo := BitVec.ofNat 64 (fld b 2), hi := BitVec.ofNat 64 (fld b 3), entity := BitVec.ofNat 32 (fld b 4), any := f.testBit 0,
    dispatch := f.testBit 1, create := f.testBit 2 }

/-- A session with one point set or cleared: slots 0 to 7 hold scalar-PC breakpoints, 8 to 15 lane-PC breakpoints, 16 to 19
watchpoints. -/
def Session.setPoint (x : Session) (slot kind : Nat) (b : List Byte) : Option Session :=
  let drop (α : Type) (l : List (Nat × α)) : List (Nat × α) := l.filter fun p => p.1 != slot
  let pc := BitVec.ofNat 64 (fld b 2)
  if 20 ≤ slot then none
  else match kind with
    | 0 => some { x with bps := drop _ x.bps, lbps := drop _ x.lbps, watch := drop _ x.watch }
    | 1 => if slot < 8 && 24 ≤ b.length then some { x with bps := (slot, pc) :: drop _ x.bps } else none
    | 2 => if 8 ≤ slot && slot < 16 && 24 ≤ b.length then some { x with lbps := (slot, pc) :: drop _ x.lbps } else none
    | 3 =>
      if 16 ≤ slot && 48 ≤ b.length && fld b 4 < 2 ^ 32 && fld b 5 < 8 then
        some { x with watch := (slot, bodyWatch b) :: drop _ x.watch }
      else none
    | _ => none

/-- Replaces a session. -/
def State.putSession (s : State) (x : Session) : State :=
  s.modHub fun h => { h with sessions := upsert (fun y => y.conn == x.conn) x h.sessions }

def reqSetPoint (r : Rq) (s : State) : State :=
  r.inSession s fun x =>
    if r.body.length < 16 then r.deny s 1 else
      match x.setPoint (fld r.body 0) (fld r.body 1) r.body with
      | some y => r.deny (s.putSession y) 0
      | none => r.deny s 1

/-- `SET_POINT` (op 0x36). -/
def execSetPoint (c : Nat) (h : MsgHdr) (body : List Byte) (s : State) : Out := request 0x36 c h body reqSetPoint s

/-! ### Sampling (R408) -/

def reqSampling (r : Rq) (s : State) : State :=
  r.inSession s fun x =>
    let p := fld r.body 0
    let pa := fld r.body 1
    let len := fld r.body 2
    if r.body.length < 8 then r.deny s 1
    else if p = 0 then r.deny (s.putSession { x with period := 0 }) 0
    else if r.body.length < 24 || p < 64 || 2 ^ 32 < p || !page64 pa || !page64 len then r.deny s 1
    else if !s.rooms.any fun m => x.sees m.num && m.holds pa len then r.deny s 2
    else
      let y := if x.bufPa = pa && x.bufLen = len then x else { x with bufPa := pa, bufLen := len, wr := 0, rd := 0, dropped := 0 }
      r.deny (s.putSession { y with period := p, lastAt := [], turn := [] }) 0

/-- `SAMPLING` (op 0x37). -/
def execSampling (c : Nat) (h : MsgHdr) (body : List Byte) (s : State) : Out := request 0x37 c h body reqSampling s

/-- Whether a session samples a core now: once in a period. -/
def Session.due (x : Session) (s : State) (core : Nat) : Bool :=
  x.period != 0 && (s.rooms.any fun m => x.sees m.num && m.clusters.toNat.testBit (core / 8))
    && match x.lastAt.find? fun e => e.1 == core with
       | some e => e.2 + x.period ≤ s.cycles
       | none => true

/-- The next resident group of a core after the one sampled last. -/
def nextTurn (gs : List Group) (last : Option Nat) : Option Group :=
  let up := sortBy (fun a b => a.slot ≤ b.slot) gs
  match last with
  | none => up.head?
  | some n => match up.find? fun g => n < g.slot with
    | some g => some g
    | none => up.head?

/-- `SAMPLE`: the monitor core takes one sample of a core. Whether a group between two instructions has fetched its next one is open
(R409, R410); none is taken inside a `rep` (R92). -/
def execSample (core : Nat) (s : State) : Out :=
  match s.hub.sessions.find? fun x => x.due s core with
  | none => .next s
  | some x =>
    let y := { x with lastAt := upsert (fun e => e.1 == core) (core, s.cycles) x.lastAt }
    match nextTurn (s.groups.filter fun g => g.core == core) ((x.turn.find? fun e => e.1 == core).map Prod.snd) with
    | none => .next (s.putSession y)
    | some g =>
      if g.inRep then .next s else
      let z := { y with turn := upsert (fun e => e.1 == core) (core, g.slot) y.turn }
      let fetched := s.freeBit (50 * 2 ^ 60)
      .next (s.traceFor z 1 g (if g.stateCode = 0 && !fetched then 1 else g.stateCode))

/-! ### Delegation (R403) -/

/-- The operator names a room and the key that may open its sessions. R403 does not lay out the key: the model reads its two numbers as
48 octets each, the most significant first (DESIGN CHOICE, assumption 17). -/
def reqDelegate (r : Rq) (s : State) : State :=
  if r.st != .operator then r.deny s 2
  else if r.body.length < 104 then r.deny s 1
  else match s.room? (fld r.body 0) with
    | none => r.deny s 3
    | some m => r.deny (s.putRoom { m with debugKey := some (ofBe ((r.body.drop 8).take 48), ofBe ((r.body.drop 56).take 48)) }) 0

/-- `DELEGATE` (op 0x38). -/
def execDelegate (c : Nat) (h : MsgHdr) (body : List Byte) (s : State) : Out := request 0x38 c h body reqDelegate s

end Sys2Proof.Machine
end

