-- ==== Sys2Proof/Machine/Rooms.lean ====
section
/-! DEFINITION. The life of journeys and rooms: start, stop, checkpoint, restore (R366 to R369, R379), replay (R402), and room creation,
resize and destruction (R384 to R387). -/

namespace Sys2Proof.Machine

/-! ### Start, stop, checkpoint (R379) -/

/-- A restore from an image region: refused with its status, or it waits for room (R366, R367). -/
def Rq.restoreFrom (r : Rq) (s : State) (j : Journey) (reg : Nat × Nat) : State :=
  match s.room? j.room with
  | none => r.fail s 3
  | some m =>
    let x := s.readImage reg.1 reg.2
    let st := s.restoreCheck j m x
    if st != 0 then s.finish r.jn 8 r.p (fields8 [st]) else
      s.putJourney { j with state := .restoring, restore := x.map (·.token), pend := some { r.p with was := j.state }, passed := 0,
                            promoted := false, picked := false }

def reqStart (r : Rq) (s : State) : State :=
  r.withJ s fun j =>
    match j.state with
    | .opened => r.ok (s.putJourney { j with state := .running, publishFailed := false }) []
    | .stopped true => match j.image with
      | some reg => r.restoreFrom s j reg
      | none => r.fail s 4
    | _ => r.fail s 4

/-- `START` (op 0x07). -/
def execStartReq (c : Nat) (h : MsgHdr) (body : List Byte) (s : State) : Out := request 7 c h body reqStart s

/-- The journey of a stop or checkpoint: it must not be stopped, and the region must lie in its room. For a stop the address 0 names its
stop region. -/
def Rq.imageReq (r : Rq) (s : State) (stop : Bool) (k : Journey → Pending → State) : State :=
  r.withJ s fun j =>
    let pa := fld r.body 1
    let st := if r.body.length < 24 || 2 ≤ fld r.body 0 then 1 else if stop && pa = 0 then 0 else s.regionStatus j.room pa (fld r.body 2)
    if st != 0 then r.fail s st else
      match j.state with
      | .stopped _ => r.fail s 4
      | _ => k j { r.p with pa := pa, len := fld r.body 2, was := j.state }

def reqStop (r : Rq) (s : State) : State :=
  r.imageReq s true fun j p => s.putJourney { j with state := .stopping (fld r.body 0 == 1), pend := some p }

/-- `STOP` (op 0x08): the stop takes effect when the journey stands where its kind says. -/
def execStopReq (c : Nat) (h : MsgHdr) (body : List Byte) (s : State) : Out := request 8 c h body reqStop s

def reqCheckpoint (r : Rq) (s : State) : State :=
  r.imageReq s false fun j p => s.putJourney { j with state := .checkpointing (fld r.body 0 == 1), pend := some p }

/-- `CHECKPOINT` (op 0x09). -/
def execCheckpointReq (c : Nat) (h : MsgHdr) (body : List Byte) (s : State) : Out := request 9 c h body reqCheckpoint s

/-! ### Restore -/

def reqRestore (r : Rq) (s : State) : State :=
  r.withJ s fun j =>
    let st := if r.body.length < 16 then 1 else s.regionStatus j.room (fld r.body 0) (fld r.body 1)
    if st != 0 then r.fail s st else
      match j.state with
      | .opened | .stopped true => r.restoreFrom s j (fld r.body 0, fld r.body 1)
      | _ => r.fail s 4

/-- `RESTORE` (op 0x0A). -/
def execRestoreReq (c : Nat) (h : MsgHdr) (body : List Byte) (s : State) : Out := request 10 c h body reqRestore s

/-- A restore has ended: the request is answered, or the notice of a resize is sent (R388). -/
def State.restored (s : State) (jn : Nat) (p : Pending) : State :=
  if p.resize then
    match s.journey? jn with
    | some j => (s.putJourney { j with pend := none }).notice j.room 4 jn (leBytes 8 0)
    | none => s
  else
    (s.modJourney jn fun j => { j with pend := none, state := .running, publishFailed := false }).finish jn 0 p
      (if p.h.op == 7 then [] else fields8 [0])

/-- What the restore of a journey that the device itself waits for ends with: after a checkpoint the journey runs on, and a stop or another
checkpoint that has been asked for meanwhile still waits (R361, R379). -/
def State.resumed (s : State) (jn : Nat) (j : Journey) : State :=
  s.modJourney jn fun k => { k with state := j.state, pend := j.pend }

/-- A restore is refused after it had begun to wait: the journey is as before, or stays stopped after a resize. -/
def State.refuseRestore (s : State) (j : Journey) (p : Pending) (status : Nat) : State :=
  let s1 := s.putJourney { j with pend := none, restore := none, state := if p.resize then .stopped true else p.was }
  if p.resize then s1.notice j.room 4 j.num (leBytes 8 status) else s1.finish j.num 8 p (fields8 [status])

/-- Restores that wait in a room are judged again on what it holds now (R395). -/
def State.rejudge (s : State) (m : Room) : State :=
  (s.journeys.filter fun j => j.room == m.num && j.state == .restoring).foldl (fun t j =>
    match s.waitingImage j, j.pend with
    | some x, some p => let st := t.restoreCheck j m (some x); if st = 0 then t else t.refuseRestore j p st
    | _, _ => t) s

/-- `RESTORE_PLACEMENT` (R366, R367, R369): in its turn (R355, R316) every saved band is placed at once, then the calendar, barriers and
groups come back. -/
def execRestorePlacement (journey : Nat) (s : State) : Out :=
  match s.journey? journey with
  | none => .next s
  | some j =>
    if !j.picked || !j.restores then .next s else
      match s.restoreHead j with
      | none => .next s
      | some (x, ps) =>
        let s1 := s.restoreAt journey x ps
        let s2 := if j.keepsLater then s1.modJourney journey fun k => k.mergeLater j else
            let s1 := { s1 with j := (s1.journey? journey).getD j }
            let t := s1.freeEntries (j.handles.filter fun h => !x.j.handles.contains h)
            { t with j := s.j }
        .next (match j.state, j.pend with
          | .restoring, some p => s2.restored journey p
          | _, _ => s2.resumed journey j)

/-! ### Replay (R402) -/

/-- The records of a log, up to its end. -/
def logRecords (m : Memory) (pa : Nat) : Nat → Nat → List LogRec
  | 0, _ => []
  | k + 1, len =>
    let h := m.read pa 32
    let n := fieldAt h 16 4
    let size := 32 + (n + 15) / 16 * 16
    if len < size || !loggedOp (fieldAt h 4 1) then [] else
      ⟨fieldAt h 4 1, fieldAt h 5 1, fieldAt h 6 2, m.read (pa + 32) n⟩ :: logRecords m (pa + size) k (len - size)

def reqReplay (r : Rq) (s : State) : State :=
  match r.st with
  | .room n => match s.room? n, r.p.conn with
    | some m, some c =>
      let st := if r.body.length < 16 then 1 else s.regionStatus n (fld r.body 0) (fld r.body 1)
      if st != 0 then r.deny s st else
        match logRecords s.mem (fld r.body 0) (fld r.body 1 / 32) (fld r.body 1) with
        | first :: rest =>
          if first.op != 1 then r.deny s 1 else
            match s.openJourney m first.body with
            | .inr e => r.deny s e
            | .inl (s1, jn) =>
              let p : Pending := { conn := none, h := { r.p.h with op := 1, journey := BitVec.ofNat 8 jn }, entry := s.wallNs,
                                   body := first.body }
              (s1.logRequest jn 0 p).modJourney jn fun j =>
                { j with replay := rest, replayed := 1, firstDiff := if first.status = 0 then none else some 0,
                         replyTo := some (c, r.p.h, r.p.entry) }
        | [] => r.deny s 1
    | _, _ => r.deny s 2
  | _ => r.deny s 2

/-- `REPLAY` (op 0x12). -/
def execReplayReq (c : Nat) (h : MsgHdr) (body : List Byte) (s : State) : Out := request 18 c h body reqReplay s

/-! ### Rooms -/

/-- A request of the operator's endpoint alone (R387). -/
def Rq.operator (r : Rq) (s : State) (k : State) : State := if r.st == .operator then k else r.deny s 2

/-- Answers a room request: 0 is done. -/
def Rq.answer (r : Rq) (s : State) (status : Nat) : State := r.deny s status

/-- Whether two runs of bytes share one. -/
def Extent.meets (a b : Extent) : Bool := a.base < b.base + b.len && b.base < a.base + a.len

/-- The extent's port (R384). -/
def Extent.port (e : Extent) : Nat := Config.portOf e.base % 24

/-- Clusters of a set on a die. -/
def clustersOn (clusters : Nat) (die : Nat) : Nat := (bitList 8 (clusters / 2 ^ (8 * die))).length

/-- Whether a far-tier region fits half of a room's Cellar on each of its dies: 96 MiB for each cluster (R12, R384). -/
def farFits (clusters far : Nat) : Bool :=
  [0, 1, 2, 3].all fun d => clustersOn clusters d == 0 || far ≤ clustersOn clusters d * 50331648

/-- Whether clusters may be given to a room: free of other rooms, of the new sets of their resizes as well (R12, R386), and not
fenced. -/
def State.clustersFree (s : State) (room clusters : Nat) : Bool :=
  let taken (m : Room) (c : Nat) : Bool := m.clusters.toNat.testBit c || m.resize.any fun x => x.1.toNat.testBit c
  (bitList 32 clusters).all fun c => !s.hub.fenced.contains (.cluster c) && s.rooms.all fun m => m.num == room || !taken m c

/-- Pool bytes of some extents. -/
def bytesOf (l : List Extent) : Nat := (l.map (·.len)).foldl (· + ·) 0

/-- The room of a create body. -/
def bodyRoom (b : List Byte) : Room :=
  let ne := fld b 6
  let nx := fld b 7
  { num := fld b 0, clusters := BitVec.ofNat 32 (fld b 1), ports := BitVec.ofNat 24 (fld b 2), rate := fld b 3, depth := fld b 4,
    tokens := fld b 4, farBytes := fld b 5, endpoints := (upTo ne).map fun i => fieldAt b (64 + 16 * i) 16,
    extents := (upTo nx).map fun i => ⟨fieldAt b (64 + 16 * ne + 16 * i) 8, fieldAt b (72 + 16 * ne + 16 * i) 8⟩ }

/-- Status of a room-create body (R384). All rooms' extents together hold at most the 64 TiB that the device can address (R10; DESIGN
CHOICE, assumption 94). -/
def createStatus (s : State) (b : List Byte) : Nat :=
  let ne := fld b 6
  let nx := fld b 7
  if b.length < 64 || ne < 1 || 4 < ne || nx < 1 || 64 < nx || b.length < 64 + 16 * ne + 16 * nx then 1 else
    let m := bodyRoom b
    if 31 < m.num || (s.room? m.num).isSome || fld b 1 = 0 || 2 ^ 32 ≤ fld b 1 || 2 ^ 24 ≤ fld b 2 || 2 ^ 28 < m.farBytes
        || m.extents.any (fun e => !page64 e.base || !page64 e.len || 2 ^ 52 < e.base + e.len)
        || m.extents.any (fun e => !m.ports.toNat.testBit e.port) then 1
    else if !s.clustersFree m.num (fld b 1) || !farFits (fld b 1) m.farBytes
        || (bitList 24 (fld b 2)).any (fun p => s.hub.fenced.contains (.port p) || s.rooms.any fun r => r.ports.toNat.testBit p)
        || m.extents.any (fun e => s.rooms.any fun r => r.extents.any e.meets)
        || 2 ^ 46 < bytesOf (m.extents ++ s.rooms.flatMap (·.extents))
        || m.endpoints.any (fun a => a == operatorEndpoint || s.rooms.any fun r => r.endpoints.contains a) then 9
    else 0

/-- A room that begins or ends owns no unit of the running interval (R425). -/
def State.disown (s : State) (room : Nat) : State := s.modHub fun h => { h with owners := h.owners.filter fun o => o.2 != room }

def reqRoomCreate (r : Rq) (s : State) : State :=
  r.operator s <|
    let st := createStatus s r.body
    r.answer (if st = 0 then (s.putRoom (bodyRoom r.body)).disown (fld r.body 0) else s) st

/-- `ROOM_CREATE` (op 0x20). -/
def execRoomCreate (c : Nat) (h : MsgHdr) (body : List Byte) (s : State) : Out := request 32 c h body reqRoomCreate s

/-- A journey of a room that a resize pre-empts. -/
def Journey.preempt (j : Journey) (mid : Bool) (p : Pending) : Journey :=
  match j.state with
  | .opened | .running | .resting => { j with state := .stopping mid, pend := some { p with resize := true, was := j.state } }
  | _ => j

def reqRoomResize (r : Rq) (s : State) : State :=
  r.operator s <|
    let mask := fld r.body 1
    match s.room? (fld r.body 0) with
    | none => r.answer s 1
    | some m =>
      if r.body.length < 24 || mask = 0 || 2 ^ 32 ≤ mask || 2 ≤ fld r.body 2 then r.answer s 1
      else if !s.clustersFree m.num mask || !farFits mask m.farBytes then r.answer s 9
      else
        let s1 := s.putRoom { m with resize := some (BitVec.ofNat 32 mask, r.p) }
        { s1 with journeys := s1.journeys.map fun j => if j.room == m.num then j.preempt (fld r.body 2 == 1) r.p else j }

/-- `ROOM_RESIZE` (op 0x21): every journey of the room is pre-empted; the rest follows once all are stopped. -/
def execRoomResize (c : Nat) (h : MsgHdr) (body : List Byte) (s : State) : Out := request 33 c h body reqRoomResize s

def reqRoomDestroy (r : Rq) (s : State) : State :=
  r.operator s <|
    let n := fld r.body 0
    if r.body.length < 8 || (s.room? n).isNone then r.answer s 1
    else if s.journeys.any fun j => j.room == n then r.answer s 4
    else
      let s1 := { s with rooms := s.rooms.filter fun m => m.num != n }
      r.answer ((s1.disown n).modHub fun h => { h with sessions := h.sessions.filter fun x => x.scope != n }) 0

/-- `ROOM_DESTROY` (op 0x22). -/
def execRoomDestroy (c : Nat) (h : MsgHdr) (body : List Byte) (s : State) : Out := request 34 c h body reqRoomDestroy s

/-- A journey that a resize has stopped is restored on the room's new clusters, or stays stopped (R386). -/
def State.resumeAfterResize (s : State) (m : Room) (j : Journey) : State :=
  match j.pend with
  | none => s
  | some p =>
    if !p.resize then s else
      match j.state, j.image with
      | .stopped true, some reg =>
        let x := s.readImage reg.1 reg.2
        let st := s.restoreCheck j m x
        if st = 0 then s.putJourney { j with state := .restoring, restore := x.map (·.token), passed := 0, promoted := false,
                                                   picked := false }
        else s.refuseRestore j p st
      | .stopped _, _ => (s.putJourney { j with pend := none }).notice m.num 2 j.num (leBytes 8 0)
      | _, _ => s

/-- Whether a journey's stop or restore for a resize has not ended. -/
def Journey.resizing (j : Journey) : Bool := j.pend.any fun p => p.resize

/-- Carries a resize on: once every journey is stopped the room takes its new clusters and each journey is restored; the resize ends
when every restore has. -/
def State.settleResize (s : State) (m : Room) : State :=
  match m.resize with
  | none => s
  | some (mask, p) =>
    let own := s.journeys.filter fun j => j.room == m.num && j.resizing
    let stopping (j : Journey) : Bool := match j.state with
      | .stopping _ => true
      | _ => false
    let waits := own.filter fun j => j.state == .restoring
    if own.any stopping then s
    else if m.clusters != mask || waits.length < own.length then
      let m1 := { m with clusters := mask }
      (own.filter fun j => j.state != .restoring).foldl (fun t j => t.resumeAfterResize m1 j) ((s.putRoom m1).rejudge m1)
    else if own.isEmpty then
      let s1 := (s.putRoom { m with resize := none }).notice m.num 5 0 (leBytes 8 mask.toNat)
      match p.conn with
      | some c => s1.respond c p.h p.entry 0 []
      | none => s1
    else s

/-- `TOKEN_BUCKET_REFILL` (R385): line requests have taken some tokens since the last refill, which only timing shows; the bucket
then fills at the room's rate up to its depth, and a full one keeps no part of a token. -/
def execTokenBucketRefill (room periods : Nat) (s : State) : Out :=
  .next (s.modRoom room fun r =>
    let taken := s.freeNat (42 * 2 ^ 60) % (r.tokens + 1)
    let total := r.periods + r.rate * periods
    let tokens := r.tokens - taken + total / 1024
    if r.depth ≤ tokens then { r with tokens := r.depth, periods := 0 } else { r with tokens := tokens, periods := total % 1024 })

end Sys2Proof.Machine
end

