-- ==== Sys2Proof/Machine/Errors.lean ====
section
/-! DEFINITION. Errors and fencing (R357, R391 to R396): what an error strikes, and how a core, a slice, a port or a cluster is fenced. -/

namespace Sys2Proof

/-! ### Units -/

/-- Unit number and kind in a record's info field (R398). -/
def UnitId.info : UnitId → Nat
  | .core n => Machine.packBits [(0, n), (16, 0)]
  | .slice n => Machine.packBits [(0, n), (16, 1)]
  | .port n => Machine.packBits [(0, n), (16, 2)]
  | .calendar d => Machine.packBits [(0, d), (16, 3)]
  | .cluster n => Machine.packBits [(0, n), (16, 4)]
  | .hub _ => 0

/-- The kind of a unit that has an error threshold. -/
def UnitId.kind : UnitId → Option UnitKind
  | .core _ => some .core
  | .slice _ => some .slice
  | .port _ => some .port
  | .calendar _ => some .calendar
  | .cluster _ => none
  | .hub _ => none

/-- Whether the device has a unit (R10, R11, R420): 18 hub cores are the keepers, the monitor and the scheduler. -/
def UnitId.exists? : UnitId → Bool
  | .core n => n < 256
  | .slice n => n < 256
  | .port n => n < 24
  | .calendar d => d < 4
  | .cluster n => n < 32
  | .hub n => n < 18

end Sys2Proof

namespace Sys2Proof.Machine

/-- A machine-error record about a unit. -/
def State.unitRec (s : State) (j : Journey) (code agent info : Nat) : FaultRec :=
  { code := code, stopped := true, journey := j.num, agent := agent, span0 := j.t0, round := j.round, info := info,
    syndrome := Config.syndrome s.draw }

/-- Sends a record about a journey, and the device stops the journey for it (R394, R395). -/
def State.failJourney (s : State) (j : Journey) (r : FaultRec) : State := (s.postRecord j.room r).stopJourney j.num r.code

/-- A journey by number, as the state holds it now. -/
def State.withNum (s : State) (n : Nat) (k : Journey → State) : State :=
  match s.journey? n with
  | some j => k j
  | none => s

/-! ### Queued items after a room has shrunk (R357) -/

/-- The status of the first queued item that fits nowhere on the room taken as if empty; a restore that waits at the head of the queue
comes first. -/
def State.misfit (s : State) (m : Room) (j : Journey) : Option Nat :=
  let code (items : List (List BandNeed × Nat)) : Option Nat := match s.judge m items with
    | .inl _ => none
    | .inr e => some e
  let step (x : Option Nat × Nat) (q : QItem) : Option Nat × Nat :=
    (x.1 <|> code [(q.bands.map QBand.need, x.2)], x.2 + q.bands.length)
  let waiting := if j.state == .restoring then none else (s.waitingImage j).bind fun x => code x.items
  waiting <|> (j.queue.foldl step (none, j.taken)).1

/-- Judges a room again: waiting restores, and every journey's queued items. -/
def State.judgeRoom (s : State) (room : Nat) : State :=
  match s.room? room with
  | none => s
  | some m =>
    let s1 := s.rejudge m
    (s1.journeysOf room).foldl (fun t j => match s1.misfit m j with
      | some st => t.failJourney j { s1.unitRec j 0x21 0 (st % 2 ^ 32) with syndrome := 0 }
      | none => t) s1

/-! ### Fencing -/

/-- Marks a unit fenced, in the room table and in flash. -/
def State.mark (s : State) (u : UnitId) : State :=
  s.modHub fun h => { h with fenced := if h.fenced.contains u then h.fenced else h.fenced ++ [u] }

/-- Whether a band stands on a core: its leaf has taken the placement (R418). -/
def State.standsOn (s : State) (core : Nat) (b : Band) : Bool := b.core == core && !s.commanded core b.slot

/-- Journeys with a band on a core. -/
def State.onCore (s : State) (core : Nat) : List Nat := ((s.bands.filter (s.standsOn core)).map (·.journey)).eraseDups

/-- A core's bands are lost: requests that their groups have sent are performed, and nothing of theirs is saved. A band whose
placement the leaf has not taken is none of them. -/
def State.loseCore (s : State) (core : Nat) : State :=
  let sent := s.reqs.filter fun q => q.core == core
  let s1 := s.performSent sent fun u _ => u
  let s2 := (s1.bands.filter (s.standsOn core)).foldl (fun t b => t.modJourney b.journey fun j => j.leaveGang core b.slot) s1
  let later (b : Band) : Bool := b.core == core && s.commanded core b.slot
  let left := s2.enginesFor later core
  { s2 with groups := s2.groups.filter (fun g => g.core != core || s.commanded core g.band),
            bands := s2.bands.filter (fun b => !s.standsOn core b),
            cores := s2.cores.filterMap fun c =>
              if c.num != core then some c else if s.bands.any later then some { left with carve := c.carve } else none,
            journeys := s2.journeys.map fun j =>
              { j with seats := j.seats.filter fun x => x.core != core || s.commanded core x.band } }

/-- Fences some cores: every journey with a band there is stopped without that band, with one record (R395 step 2, R396). -/
def State.fenceCores (s : State) (cores : List Nat) (info : Nat) : State :=
  let hit := (cores.flatMap s.onCore).eraseDups
  hit.foldl (fun t n => t.withNum n fun j => t.failJourney j (t.unitRec j 0x1E 0 info)) (cores.foldl State.loseCore s)

/-- Rooms that own a cluster. -/
def State.roomOf (s : State) (cluster : Nat) : Option Room := s.rooms.find? fun m => m.clusters.toNat.testBit cluster

/-- Poisons a line (R393). -/
def State.poisonLine (s : State) (l : Nat) : State := { s with poison := if s.poison.contains l then s.poison else l :: s.poison }

/-- Dirty lines of a room that are homed in fenced slices: each is written back, or poisoned where it cannot be read (R395 step 3). -/
def State.loseLines (s : State) (room : Nat) (homed : Nat → Bool) : State :=
  (s.journeysOf room).foldl (fun t j =>
    let u := (j.openLines.filter homed).foldl
      (fun (v : State) l => if s.freeBit (44 * 2 ^ 60 + l) then v.poisonLine l else v.publish l)
      { t with j := (t.journey? j.num).getD j }
    u.putJ) s

/-- Fences a slice: homes move to its room's other slices, as it is marked fenced (R187, R395 step 3). -/
def State.fenceSlice (s : State) (slice : Nat) : State :=
  match s.roomOf (slice / 8) with
  | none => s.mark (.slice slice)
  | some m => (s.loseLines m.num fun l => s.homeSlice (some m) l == slice).mark (.slice slice)

/-- Whether a journey maps a page of an extent. -/
def Journey.mapsExtent (j : Journey) (e : Extent) : Bool :=
  j.tables.any fun t => t.entries.any fun p => !p.window && e.base ≤ p.target.toNat && p.target.toNat < e.base + e.len

/-- Fences a port: journeys with a page behind it are stopped, and the extents are withdrawn (R395 step 4). -/
def State.fencePort (s : State) (port : Nat) : State :=
  s.rooms.foldl (fun t m =>
    let gone := m.extents.filter fun e => e.port == port
    let hit := (t.journeysOf m.num).filter fun j => gone.any j.mapsExtent
    let u := t.modRoom m.num fun r => { r with extents := r.extents.filter (fun e => e.port != port),
                                               ports := r.ports &&& ~~~((1 : BitVec 24) <<< port) }
    hit.foldl (fun v j => v.failJourney j (v.unitRec j 0x1F 10 (UnitId.port port).info)) u) s

/-- The requests of a fenced cluster's Ostler pass to the new owners of their lines; one that cannot be read poisons its line and is
reported to its journey (R396 step 3). -/
def State.moveRequests (s : State) (cluster : Nat) (m : Room) : State :=
  let own := s.reqs.filter fun q => q.agent == .ostler cluster && (s.group? q.core q.slot).any fun g => g.room == m.num
  let left := m.clusters &&& ~~~((1 : Word32) <<< cluster)
  own.foldl (fun t q =>
    if s.freeBit (45 * 2 ^ 60 + q.acc * 64 + q.lane) then
      (withGroup (t.poisonLine (lineOf q.pa)) q.core q.slot fun v =>
        (v.dataPoison 1 2 q.iaddr q.waddr q.pa q.va q.lane).dropReq q)
    else if left = 0 then withGroup t q.core q.slot fun v => (v.performReq 1 q).dropReq q
    else
      let dst := s.homeCluster (some { m with clusters := left }) (lineOf q.pa)
      { t with reqs := t.reqs.map fun x => if x == q then { x with agent := .ostler dst } else x }) s

/-- Events that a journey loses go, with their handle entries. -/
def State.loseEvents (s : State) (lost : Event → Bool) : State :=
  let gone := s.j.pending.filter lost
  (s.freeEntries (s.j.handles.filter fun h => gone.any fun e => e.canc && e.handle == h.word)).modJ fun j =>
    { j with pending := j.pending.filter fun e => !lost e }

/-- Events of a room in the near stores of fenced cores move to the far tier and to other home cores; of a fenced cluster's, those that
cannot be read raise CalendarError (R305, R396 step 4). -/
def State.moveEvents (s : State) (room : Nat) (cores : List Nat) (lossy : Bool) : State :=
  let struck (e : Event) : Bool := e.tier == 0 && cores.contains e.home
  let lost (e : Event) : Bool := lossy && struck e && s.freeBit (46 * 2 ^ 60 + e.seq.toNat)
  (s.journeysOf room).foldl (fun t j0 => t.withNum j0.num fun j =>
    let u := ({ t with j := j }).loseEvents lost
    let moved (e : Event) : Event := if struck e then { e with tier := 1, home := u.homeCore e.entity } else e
    let v := (u.modJ fun j => { j with pending := j.pending.map moved }).putJ
    if j.pending.any lost then v.failJourney (v.journey? j.num |>.getD j) (v.unitRec j 0x1C 8 (UnitId.calendar (cores.headD 0 / 64)).info) else v) s

/-- The link of a leaf is reset (R417). -/
def Link.reset (l : Link) : Link :=
  { l with ready := false, fenced := true, toLeaf := 16, toSched := 16, inbox := [], waiting := [], replies := [], unsent := [],
           taken := 0, takenBack := 0 }

/-- Changes one leaf's link. -/
def State.modLink (s : State) (leaf : Nat) (f : Link → Link) : State :=
  s.modHub fun h => { h with links := h.links.map fun l => if l.leaf == leaf then f l else l }

/-- The leaf sends a message to the scheduler, or it waits for a permit (R417). -/
def Link.tell (l : Link) (m : LeafMsg) : Link :=
  if l.toSched = 0 then { l with unsent := l.unsent ++ [m] }
  else { l with toSched := l.toSched - 1, replies := l.replies ++ [m] }

/-- A leaf tells the scheduler that a core of its cluster is fenced (R419). -/
def State.tellFenced (s : State) (core : Nat) : State :=
  s.modLink (core / 8) fun l => if l.fenced then l else l.tell (.fenced core)

/-- Whether every leaf has reported ready or is fenced. -/
def Hub.leavesDone (h : Hub) : Bool := h.links.all fun l => l.ready || l.fenced

/-- Boot goes on once no leaf is waited for any more (R411). -/
def Hub.settleBoot (h : Hub) : Hub := if h.boot == .scheduling && h.leavesDone then { h with boot := .up } else h

/-- A room without a cluster holds its journeys stopped (R396 step 5). -/
def State.emptyRoom (s : State) (room info : Nat) : State :=
  if (s.room? room).any fun m => m.clusters == 0 then
    (s.journeysOf room).foldl (fun t j => match j.state with
      | .stopped _ | .closing => t
      | _ => if j.stopFor.isSome then t else t.failJourney j (t.unitRec j 0x1E 0 info)) s
  else s

/-- A cluster leaves the sets of its room, of a resize in progress too (R395, R396). -/
def Room.without (m : Room) (cluster : Nat) : Room :=
  let gone : Word32 := ~~~((1 : Word32) <<< cluster)
  { m with clusters := m.clusters &&& gone, resize := m.resize.map fun x => (x.1 &&& gone, x.2) }

/-- Fences a cluster with its leaf (R396): its slices lose the lines that were homed in them before, and its one mark stands for all its
units. -/
def State.fenceCluster (s : State) (cluster : Nat) : State :=
  let info := (UnitId.cluster cluster).info
  let cores := (upTo 8).map (8 * cluster + ·)
  let owner := s.roomOf cluster
  let s1 := (s.modLink cluster Link.reset).mark (.cluster cluster)
  let s2 := match owner with
    | some m => s1.moveRequests cluster m
    | none => s1
  let s3 := match owner with
    | some m => (s2.fenceCores cores info).loseLines m.num fun l => cores.contains (s.homeSlice (some m) l)
    | none => s2.fenceCores cores info
  let s4 := { s3 with rooms := s3.rooms.map fun (m : Room) => m.without cluster }.modHub Hub.settleBoot
  match owner with
  | none => s4
  | some m => ((s4.moveEvents m.num cores true).judgeRoom m.num).emptyRoom m.num info

/-- Fences a unit that is not fenced yet. -/
def State.fence (s : State) (u : UnitId) : State :=
  if !u.exists? || s.hub.fenced.contains u then s else
    match u with
    | .core n =>
      let s1 := ((s.mark u).fenceCores [n] u.info).tellFenced n
      match s1.roomOf (n / 8) with
      | some m => (s1.moveEvents m.num [n] false).judgeRoom m.num
      | none => s1
    | .slice n => s.fenceSlice n
    | .port n => (s.mark u).fencePort n
    | .cluster n => s.fenceCluster n
    | .calendar _ | .hub _ => s.mark u

/-! ### Errors -/

/-- Nanoseconds of an hour. -/
abbrev hourNs : Nat := 3600000000000

/-- `CORRECTED_ERROR` (R392): the unit's count rises; one that passes its threshold within an hour fences the unit. -/
def execCorrectedError (u : UnitId) (s : State) : Out :=
  match u.kind with
  | none => .next s
  | some k =>
    if !u.exists? then .next s else
      let now := s.wallNs
      let log := (s.hub.errors ++ [(u, now)]).filter fun e => now < e.2 + hourNs
      let s1 := s.modHub fun h => { h with errors := log }
      let limit := ((s.hub.thresholds.find? fun e => e.1 == k).map Prod.snd).getD 1024
      .next (if limit < (log.filter fun e => e.1 == u).length then s1.fence u else s1)

/-- StateError against the journey of a band or group (R391, R394). -/
def State.stateError (s : State) (jn core group band : Nat) : State :=
  s.withNum jn fun j =>
    s.failJourney j { s.unitRec j 0x1B 0 (UnitId.core core).info with core := core, group := group, band := band }

/-! What an error has struck is lost, and nothing rebuilds it (R394): its place is any of those that the storage has, and its value is
undefined (assumption 60). -/

/-- An undefined byte of a struck word. -/
def State.lostByte (s : State) (i : Nat) : Byte := (s.freeWord (61 * 2 ^ 60)).extractLsb' (8 * i) 8

/-- A word of a band's scratchpad, or of an L1 line that its journey has not published, is lost. -/
def State.loseWord (s : State) (b : Band) : State :=
  let n := s.freeNat (60 * 2 ^ 60)
  let lines := ((s.journey? b.journey).map Journey.openLines).getD []
  let put (m : Memory) (at_ : Nat) : Memory := m.write at_ ((upTo 8).map s.lostByte)
  if !lines.isEmpty && (b.handler.allocation = 0 || s.freeBit (60 * 2 ^ 60)) then
    { s with mem := put s.mem (128 * lines.getD (n % lines.length) 0 + 8 * (n / lines.length % 16)) }
  else if b.handler.allocation = 0 then s
  else
    let at_ := 8 * (n % (b.handler.allocation / 8))
    s.putBand { b with spm := put b.spm at_, wide := put b.wide at_ }

/-- An element of one of a band's tiles is lost. -/
def State.loseElem (s : State) (b : Band) : State :=
  if b.handler.tiles = 0 then s else
    let key := s.freeNat (60 * 2 ^ 60) % (4096 * b.handler.tiles.toNat)
    s.putBand { b with tiles := SMap.set 0 key ((s.freeWord (61 * 2 ^ 60)).truncate 32) b.tiles }

/-- A register lane of a group is lost: of its lane or scalar registers, masks, predicates or future registers. -/
def State.loseReg (s : State) (g : Group) : State :=
  let n := s.freeNat (60 * 2 ^ 60)
  let r := n / 8
  let w := s.freeWord (61 * 2 ^ 60)
  let t := { s with g := g }
  let lost : State := match n % 8 with
    | 0 => { t with g := { g with s := g.s.setIfInBounds (r % 64) w } }
    | 1 => t.setK (BitVec.ofNat 4 (r % 15 + 1)) (w.truncate 32)
    | 2 => { t with g := { g with p := g.p.setIfInBounds (r % 12) (w.truncate 32) } }
    | 3 => t.setF (BitVec.ofNat 4 r) (.held w)
    | _ => t.replyV (r / 32 % g.handler.laneRegs) (r % 32) (w.truncate 32)
  { lost with g := s.g }.putGroup lost.g

/-- A pending event of a journey in a near store or a far tier is lost. -/
def State.loseEvent (s : State) (j : Journey) : State :=
  let held := j.pending.filter fun e => e.tier != 2
  match held[s.freeNat (60 * 2 ^ 60) % max 1 held.length]? with
  | some e => (({ s with j := j }).loseEvents fun x => x == e).putJ
  | none => s

/-- `UNCORRECTED_ERROR` (R391, R394 to R396). -/
def execUncorrectedError (e : ErrSite) (s : State) : Out :=
  match e with
  | .line l | .pool l => .next (s.poisonLine l)
  | .local core band => match s.band? core band with
    | some b => .next ((s.loseWord b).stateError b.journey core 0 band)
    | none => .next s
  | .tile core band => match s.band? core band with
    | some b => .next ((s.loseElem b).stateError b.journey core 0 band)
    | none => .next s
  | .regs core slot => match s.group? core slot with
    | some g => .next ((s.loseReg g).stateError g.journey core slot g.band)
    | none => .next s
  | .calendar jn =>
    .next (s.withNum jn fun j => let t := s.loseEvent j; t.withNum jn fun j =>
      t.failJourney j (t.unitRec j 0x1C 8 (UnitId.calendar (s.freeNat (62 * 2 ^ 60) % 4)).info))
  | .counters core =>
    .next { s with bands := s.bands.map fun b =>
      if b.core == core && b.handler.counts then
        { b with counting := { b.counting with parity := some (s.freeNat (60 * 2 ^ 60) % 2 ^ 19) } } else b }
  | .control u => .next (s.fence u)
  | .hub n => .next (s.fence (.hub n))

/-- `SET_ERROR_THRESHOLD`: the operator's threshold of a kind of unit. -/
def execSetErrorThreshold (k : UnitKind) (n : Nat) (s : State) : Out :=
  .next (s.modHub fun h => { h with thresholds := upsert (fun e => e.1 == k) (k, n) h.thresholds })

/-- `OPERATOR_FENCE`. -/
def execOperatorFence (u : UnitId) (s : State) : Out := .next (s.fence u)

/-- `LEAF_PERMIT_TIMEOUT` (R396): a leaf that returns no permit while commands wait is fenced with its cluster. -/
def execLeafPermitTimeout (leaf : Nat) (s : State) : Out :=
  match s.hub.links.find? fun l => l.leaf == leaf with
  | some l => if l.toLeaf = 0 && !l.waiting.isEmpty then .next (s.fence (.cluster leaf)) else .next s
  | none => .next s

end Sys2Proof.Machine
end

