-- ==== Sys2Proof/Machine/LaneInt.lean ====
section
/-! DEFINITION. Lane integer and logic words, compares, predicates, select and moves (R105 to R107, R112 to R114). -/

namespace Sys2Proof.Machine

/-- A 32-bit integer result, clamped under sat with the flag (R107). -/
def int32 (sat : Bool) (t : ITy) (x : Int) : FRes :=
  let r := intResult sat t.signed 32 x
  ⟨r.1.toNat, r.2⟩

/-- An integer lane source by its type. -/
def State.laneInt (s : State) (t : ITy) (r : VReg) (i : Nat) : Int := asInt t.signed (s.lane32 r i)

def execIadd (h : LaneHdr) (t : ITy) (sat : Bool) (d a b : VReg) (s : State) : Out :=
  finV s h false d fun i => int32 sat t (s.laneInt t a i + s.laneInt t b i)
def execIsub (h : LaneHdr) (t : ITy) (sat : Bool) (d a b : VReg) (s : State) : Out :=
  finV s h false d fun i => int32 sat t (s.laneInt t a i - s.laneInt t b i)
def execImul (h : LaneHdr) (t : ITy) (d a b : VReg) (s : State) : Out :=
  finV s h false d fun i => int32 false t (s.laneInt t a i * s.laneInt t b i)
def execImulhi (h : LaneHdr) (t : ITy) (d a b : VReg) (s : State) : Out :=
  finV s h false d fun i => int32 false t (s.laneInt t a i * s.laneInt t b i / 2 ^ 32)
def execImad (h : LaneHdr) (t : ITy) (sat : Bool) (d a b c : VReg) (s : State) : Out :=
  finV s h false d fun i => int32 sat t (s.laneInt t a i * s.laneInt t b i + s.laneInt t c i)
def execIabs (h : LaneHdr) (sat : Bool) (d a : VReg) (s : State) : Out :=
  finV s h false d fun i => int32 sat .s32 ((s.laneInt .s32 a i).natAbs : Int)
def execImin (h : LaneHdr) (t : ITy) (d a b : VReg) (s : State) : Out :=
  finV s h false d fun i => int32 false t (min (s.laneInt t a i) (s.laneInt t b i))
def execImax (h : LaneHdr) (t : ITy) (d a b : VReg) (s : State) : Out :=
  finV s h false d fun i => int32 false t (max (s.laneInt t a i) (s.laneInt t b i))
def execLaneAnd (h : LaneHdr) (d a b : VReg) (s : State) : Out :=
  finV0 s h false d fun i => (s.lane32 a i &&& s.lane32 b i).toNat
def execLaneOr (h : LaneHdr) (d a b : VReg) (s : State) : Out :=
  finV0 s h false d fun i => (s.lane32 a i ||| s.lane32 b i).toNat
def execLaneXor (h : LaneHdr) (d a b : VReg) (s : State) : Out :=
  finV0 s h false d fun i => (s.lane32 a i ^^^ s.lane32 b i).toNat

/-- A two-input function of bits by a table of four (R106). -/
def tableOf (tbl : BitVec 8) (lo : Nat) (a b : Word32) : Word32 :=
  let pick (k : Nat) (x : Word32) : Word32 := if tbl.getLsbD (lo + k) then x else 0
  pick 0 (~~~a &&& ~~~b) ||| pick 1 (a &&& ~~~b) ||| pick 2 (~~~a &&& b) ||| pick 3 (a &&& b)

def execBmux (h : LaneHdr) (d a b c : VReg) (tbl : BitVec 8) (s : State) : Out :=
  finV0 s h false d fun i =>
    let x := s.lane32 a i
    let y := s.lane32 b i
    let z := s.lane32 c i
    ((~~~z &&& tableOf tbl 0 x y) ||| (z &&& tableOf tbl 4 x y)).toNat
def execLaneShl (h : LaneHdr) (d a b : VReg) (s : State) : Out :=
  finV0 s h false d fun i => (s.lane32 a i <<< (s.lane32 b i).toNat).toNat
def execLaneShr (h : LaneHdr) (d a b : VReg) (s : State) : Out :=
  finV0 s h false d fun i => (s.lane32 a i >>> (s.lane32 b i).toNat).toNat
def execLaneSar (h : LaneHdr) (d a b : VReg) (s : State) : Out :=
  finV0 s h false d fun i => ((s.lane32 a i).sshiftRight (min 32 (s.lane32 b i).toNat)).toNat
def execIadd64 (h : LaneHdr) (d a b : VReg) (s : State) : Out :=
  finV0 s h true d fun i => (s.vpair a.toNat i + s.vpair b.toNat i).toNat
def execLaneBfx (h : LaneHdr) (t : ITy) (d a : VReg) (pos : BitVec 5) (len : BitVec 6) (s : State) : Out :=
  finV0 s h false d fun i => (bfxOf t.signed (s.lane32 a i) pos.toNat len.toNat).toNat
def execLaneBfi (h : LaneHdr) (d a : VReg) (pos : BitVec 5) (len : BitVec 6) (s : State) : Out :=
  finV0 s h false d fun i => (bfiOf (s.lane32 d i) (s.lane32 a i) pos.toNat len.toNat).toNat
def execLanePopc (h : LaneHdr) (d a : VReg) (s : State) : Out := finV0 s h false d fun i => popcOf (s.lane32 a i)
def execLaneClz (h : LaneHdr) (d a : VReg) (s : State) : Out := finV0 s h false d fun i => clzOf (s.lane32 a i)
def execLaneBrev (h : LaneHdr) (d a : VReg) (s : State) : Out := finV0 s h false d fun i => (brevOf (s.lane32 a i)).toNat

/-! ### Compares and predicates -/

/-- A compare's source by its type; 64-bit types read even pairs (R112). -/
def State.cmpSrc (s : State) (t : ICmpTy) (r : VReg) (i : Nat) : Int :=
  if t.is64 then asInt t.signed (s.vpair r.toNat i) else asInt t.signed (s.lane32 r i)

def execIcmpCc (h : LaneHdr) (t : ICmpTy) (cc : LCond) (d : PReg) (a b : VReg) (s : State) : Out :=
  finP s h d (mkMask fun i => cc.holds (s.cmpSrc t a i) (s.cmpSrc t b i))
def execPand (h : LaneHdr) (d a b : PReg) (s : State) : Out := finP s h d (s.pmask a &&& s.pmask b)
def execPor (h : LaneHdr) (d a b : PReg) (s : State) : Out := finP s h d (s.pmask a ||| s.pmask b)
def execPxor (h : LaneHdr) (d a b : PReg) (s : State) : Out := finP s h d (s.pmask a ^^^ s.pmask b)
def execPnot (h : LaneHdr) (d a : PReg) (s : State) : Out := finP s h d (~~~(s.pmask a))
def execPmov (h : LaneHdr) (d a : PReg) (s : State) : Out := finP s h d (s.pmask a)
def execPmovFromVreg (h : LaneHdr) (d : PReg) (a : VReg) (s : State) : Out :=
  finP s h d (mkMask fun i => s.lane32 a i != 0)
/-- `pmov vd, pall`: the twelve predicates in bits 11:0. -/
def execPmovToVreg (h : LaneHdr) (d : VReg) (s : State) : Out :=
  finV0 s h false d fun i => (upTo 12).foldl (fun n p => n + 2 ^ p * b2n (laneBit (s.pmask (BitVec.ofNat 4 p)) i)) 0
/-- `pmov pall, va`: bit i of the source goes to predicate i. -/
def execPmovAll (h : LaneHdr) (a : VReg) (s : State) : Out :=
  let m := s.active h
  .next ((upTo 12).foldl (fun t p => t.setP h.la (BitVec.ofNat 4 p) m (mkMask fun i => (s.lane32 a i).getLsbD p)) s).laneDone

/-! ### Select and moves -/

def execLaneSel (h : LaneHdr) (w64 : Bool) (d a b : VReg) (c : PReg) (s : State) : Out :=
  finV0 s h w64 d fun i => if laneBit (s.pmask c) i then s.vval w64 a i else s.vval w64 b i
def execLaneMov (h : LaneHdr) (w64 : Bool) (d a : VReg) (s : State) : Out := finV0 s h w64 d fun i => s.vval w64 a i
def execLaneMovi (h : LaneHdr) (d : VReg) (imm : Word32) (s : State) : Out := finV0 s h false d fun _ => imm.toNat

end Sys2Proof.Machine
end

