-- ==== Sys2Proof/Machine/LaneX.lean ====
section
/-! DEFINITION. Quad exchange, shuffles across lanes, scans and segmented reductions (R122 to R131). -/

namespace Sys2Proof.Machine

/-! ### Exchange (R125 to R127) -/

/-- Copies to each acting lane the value of its source lane; all lanes are read before any is written. -/
def exchange (s : State) (h : LaneHdr) (w64 : Bool) (d a : VReg) (src : Nat → Nat) : Out :=
  finV0 s h w64 d fun i => s.vval w64 a (src i)

def execQswapH (h : LaneHdr) (w64 : Bool) (d a : VReg) (s : State) : Out := exchange s h w64 d a fun i => i ^^^ 1
def execQswapV (h : LaneHdr) (w64 : Bool) (d a : VReg) (s : State) : Out := exchange s h w64 d a fun i => i ^^^ 2
def execQswapD (h : LaneHdr) (w64 : Bool) (d a : VReg) (s : State) : Out := exchange s h w64 d a fun i => i ^^^ 3
def execQbcast (h : LaneHdr) (w64 : Bool) (d a : VReg) (pos : BitVec 2) (s : State) : Out :=
  exchange s h w64 d a fun i => 4 * (i / 4) + pos.toNat

/-- First lane of a lane's segment of w lanes. -/
def segOf (w : XWidth) (i : Nat) : Nat := w.lanes * (i / w.lanes)
/-- A lane's place in its segment. -/
def placeOf (w : XWidth) (i : Nat) : Nat := i % w.lanes

def execXlanePick (h : LaneHdr) (w64 : Bool) (w : XWidth) (d a b : VReg) (s : State) : Out :=
  exchange s h w64 d a fun i => segOf w i + (s.lane32 b i).toNat % w.lanes
def execXlaneLift (h : LaneHdr) (w64 : Bool) (w : XWidth) (d a : VReg) (dist : BitVec 5) (s : State) : Out :=
  exchange s h w64 d a fun i => if dist.toNat ≤ placeOf w i then i - dist.toNat else i
def execXlaneDrop (h : LaneHdr) (w64 : Bool) (w : XWidth) (d a : VReg) (dist : BitVec 5) (s : State) : Out :=
  exchange s h w64 d a fun i => if placeOf w i + dist.toNat < w.lanes then i + dist.toNat else i
def execXlaneMirror (h : LaneHdr) (w64 : Bool) (w : XWidth) (d a : VReg) (pat : BitVec 5) (s : State) : Out :=
  exchange s h w64 d a fun i => segOf w i + (placeOf w i ^^^ pat.toNat)

/-! ### Scans (R128 to R131) -/

/-- The operation of a scan word (R130). -/
def scanOp (t : ScanTy) (op : ScanOp) (x y : Word32) : FRes :=
  match t, op with
  | .f32, .add => fAdd fp32 .rn false x.toNat y.toNat
  | .f32, .min => fMinMax fp32 false false x.toNat y.toNat
  | .f32, .max => fMinMax fp32 true false x.toNat y.toNat
  | _, .add => ⟨(x + y).toNat, 0⟩
  | .s32, .min => ⟨(if y.slt x then y else x).toNat, 0⟩
  | .s32, .max => ⟨(if x.slt y then y else x).toNat, 0⟩
  | .n32, .min => ⟨(if y.ult x then y else x).toNat, 0⟩
  | .n32, .max => ⟨(if x.ult y then y else x).toNat, 0⟩

/-- Identities of the exclusive form (R129). -/
def scanIdentity (t : ScanTy) (op : ScanOp) : Word32 :=
  match t, op with
  | _, .add => 0
  | .s32, .min => 0x7FFFFFFF
  | .s32, .max => 0x80000000
  | .n32, .min => 0xFFFFFFFF
  | .n32, .max => 0
  | .f32, .min => 0x7F800000
  | .f32, .max => 0xFF800000

/-- What a scan finds in one lane: whether it opens a segment, its exclusive value and its running value. -/
structure ScanAt where
  lane : Nat
  head : Bool
  out : Word32
  acc : Word32
deriving DecidableEq, Repr, Inhabited

/-- The running scan over the acting lanes in ascending order, with the flags raised; `prev` is the running value of the
segment, absent before the first lane. -/
def scanFrom (t : ScanTy) (op : ScanOp) (heads : Word32) (x : Nat → Word32) :
    Option Word32 → List Nat → List ScanAt × Word32
  | _, [] => ([], 0)
  | prev, i :: is =>
    match (if laneBit heads i then none else prev) with
    | none =>
      let r := scanFrom t op heads x (some (x i)) is
      (⟨i, true, scanIdentity t op, x i⟩ :: r.1, r.2)
    | some acc =>
      let y := scanOp t op acc (x i)
      let v := BitVec.ofNat 32 y.code
      let r := scanFrom t op heads x (some v) is
      (⟨i, false, acc, v⟩ :: r.1, y.fl ||| r.2)

/-- The scan's entry of a lane. -/
def scanIn (l : List ScanAt) (i : Nat) : ScanAt := (l.find? fun e => e.lane == i).getD ⟨i, false, 0, 0⟩

/-- `scan` and `sscan`: every acting lane receives the exclusive or the running value. -/
def scanWord (s : State) (h : LaneHdr) (t : ScanTy) (op : ScanOp) (excl : Bool) (d a : VReg) (heads : Word32) : Out :=
  let r := scanFrom t op heads (s.lane32 a) none (s.activeList h)
  finV0 (s.orFlags r.2) h false d fun i => (if excl then (scanIn r.1 i).out else (scanIn r.1 i).acc).toNat

def execScan (h : LaneHdr) (t : ScanTy) (op : ScanOp) (excl : Bool) (d a : VReg) (s : State) : Out :=
  scanWord s h t op excl d a 0
def execSscan (h : LaneHdr) (t : ScanTy) (op : ScanOp) (excl : Bool) (d a : VReg) (c : PReg) (s : State) : Out :=
  scanWord s h t op excl d a (s.pmask c)

/-- Tail lanes: those before the next head, and the last one (R131). -/
def tailsOf : List ScanAt → List Nat
  | [] => []
  | [e] => [e.lane]
  | e :: e' :: es => (if e'.head then [e.lane] else []) ++ tailsOf (e' :: es)

def execSred (h : LaneHdr) (t : ScanTy) (op : ScanOp) (d a : VReg) (b c : PReg) (s : State) : Out :=
  let r := scanFrom t op (s.pmask c) (s.lane32 a) none (s.activeList h)
  let tails := mkMask fun i => (tailsOf r.1).contains i
  let m := s.active h
  .next ((((s.orFlags r.2).setV h.la d.toNat (m &&& tails) fun i => (scanIn r.1 i).acc).setP h.la b m tails)).laneDone

end Sys2Proof.Machine
end

