-- ==== Sys2Proof/Machine/Links.lean ====
section
/-! DEFINITION. The command links between the scheduler and the leaves (R417, R418), and the training of CXL links (R421). -/

namespace Sys2Proof.Machine

def State.link? (s : State) (leaf : Nat) : Option Link := s.hub.links.find? fun l => l.leaf == leaf

/-- `LEAF_PLACEMENT_COMMAND` (R418): the leaf takes the oldest command; for a fenced core it refuses. -/
def execLeafPlacementCommand (leaf : Nat) (s : State) : Out :=
  match s.link? leaf with
  | none => .next s
  | some l =>
    match l.inbox with
    | [] => .next s
    | x :: xs =>
      let l1 := { l with inbox := xs, taken := l.taken + 1 }
      .next (s.modLink leaf fun _ => if s.hub.coreFenced x.core then l1.tell (.refusal x) else l1)

/-- `PERMIT_RETURN` (R417): the receiver of a direction returns the permit of a command it has taken, and a command that waited for
one is sent. -/
def execPermitReturn (leaf : Nat) (toLeaf : Bool) (s : State) : Out :=
  let back (l : Link) : Link :=
    if toLeaf then
      if l.taken = 0 then l else match l.waiting with
        | [] => { l with taken := l.taken - 1, toLeaf := l.toLeaf + 1 }
        | x :: xs => { l with taken := l.taken - 1, waiting := xs, inbox := l.inbox ++ [x] }
    else if l.takenBack = 0 then l else match l.unsent with
      | [] => { l with takenBack := l.takenBack - 1, toSched := l.toSched + 1 }
      | x :: xs => { l with takenBack := l.takenBack - 1, unsent := xs, replies := l.replies ++ [x] }
  .next (s.modLink leaf back)

/-- A band whose placement was refused goes to a new place: what it holds, its seats and its gang follow, and its new leaf is commanded. -/
def State.moveBand (s : State) (b : Band) (core : Nat) (p : Place) : State :=
  let old := (b.core, b.slot)
  let new := (core, p.band)
  let ref (x : Nat × Nat) : Nat × Nat := if x == old then new else x
  let mine (y : Band) : Bool := y.core == b.core && y.slot == b.slot
  let m : Moves := { bands := [(old, new)], slots := (b.members.zip p.slots).map fun z => ((b.core, z.1), (core, z.2)) }
  let own (g : Group) : Bool := g.core == b.core && g.band == b.slot
  let taken := s.dropEnginesOf mine
  let s1 := { taken with bands := taken.bands.filter fun y => !mine y, groups := taken.groups.filter fun g => !own g }
  let s2 := s1.putBack m b.journey b.room [(b, core, p)] (s.groups.filter own) [(b.core, s.enginesFor mine b.core)]
  let s3 := { s2 with bands := s2.bands.map fun (y : Band) => { y with gangBands := y.gangBands.map ref } }
  let seat (x : Seat) : Seat :=
    if x.core == b.core && x.band == b.slot then { x with core := core, slot := (m.slot x.core x.slot).2, band := p.band } else x
  let s4 := s3.modJourney b.journey fun j =>
    let living (x : GangBar) : List (Nat × Nat) := x.arrived.filter fun y => (s.membersOf x.bands).contains y
    let rebar (x : GangBar) : GangBar := { x with bands := x.bands.map ref, arrived := (living x).map fun y => m.slot y.1 y.2 }
    { j with seats := j.seats.map seat, gangs := j.gangs.map rebar }
  (s4.modRoom b.room fun r => { r with lastCore := some core }).command core p.band

/-- Cores where a refused band may go: a gang's bands stand on distinct cores, and under `.near` in one cluster (R358). -/
def coresFor (cores : List Nat) (b : Band) : List Nat :=
  let others := (b.gangBands.map Prod.fst).filter fun c => c != b.core
  cores.filter fun c => !others.contains c && (b.gangBands.isEmpty || b.handler.glat || c / 8 == b.core / 8)

/-- The band that a placement command names, while it still stands. -/
def State.bandOf (s : State) (c : PlaceCmd) : Option Band := (s.band? c.core c.band).filter fun b => b.cmd == c.num

/-- Whether nothing of a band is under way: no request of its groups and no operation of its core's engines. -/
def State.bandStill (s : State) (b : Band) : Bool :=
  !(s.reqs.any fun q => q.core == b.core && b.members.contains q.slot)
    && !((s.core b.core).ops.any fun o => o.band == b.slot && o.st == .pending)

/-- The bands of a `.near` gang with places in another cluster, where they all fit (R358): clusters are tried in ascending order, and the
gang moves once nothing of it is under way (DEDUCED, assumption 114). -/
def State.gangElsewhere (s : State) (r : Room) (b : Band) : Option (List ((Nat × Nat) × (Nat × Place))) :=
  let bands := b.gangBands.filterMap fun x => s.band? x.1 x.2
  if b.gangBands.isEmpty || b.handler.glat || !bands.all s.bandStill then none else
    let others := (upTo 32).filter fun k => k != b.core / 8
    (others.findSome? fun k => placeGang (s.occs r) ((s.roomCores r).filter fun c => c / 8 == k) (bands.map Band.need)).map fun ps =>
      (bands.map fun x => (x.core, x.slot)).zip ps

/-- The item that a placed band is part of, as the pass of R367 judges it, with the index of its first band in its round. -/
def State.itemOf (s : State) (b : Band) : List BandNeed × Nat :=
  match b.gangBands.filterMap fun x => s.band? x.1 x.2 with
  | [] => ([b.need], b.ord)
  | x :: xs => ((x :: xs).map Band.need, x.ord)

/-- `PLACEMENT_REFUSAL` (R418, R354): the scheduler takes its leaf's oldest message. After a refusal it places the band again, a `.near` gang
as a whole where its cluster has no core left for it. One that fits nowhere on the room taken as if empty stops its journey (R357), and
one that fits nowhere yet waits: the refusal stays where it is, so that nothing of the band runs meanwhile (DEDUCED, assumption 114). -/
def execPlacementRefusal (leaf : Nat) (s : State) : Out :=
  match s.link? leaf with
  | none => .next s
  | some l =>
    match l.replies with
    | [] => .next s
    | x :: xs =>
      let took := s.modLink leaf fun l => { l with replies := xs, takenBack := l.takenBack + 1 }
      match x with
      | .fenced _ => .next took
      | .refusal c => match s.bandOf c with
        | none => .next took
        | some b =>
          match s.room? b.room with
          | none => .next took
          | some r =>
            let cores := coresFor (rotateAfter (s.roomCores r) r.lastCore) b
            match placeOn (s.occs r) cores b.need with
            | some (core, p) => .next (took.moveBand b core p)
            | none =>
              match s.gangElsewhere r b with
              | some moves =>
                .next (moves.foldl (fun t x => match t.band? x.1.1 x.1.2 with
                  | some y => t.moveBand y x.2.1 x.2.2
                  | none => t) took)
              | none =>
                match s.judge r [s.itemOf b], s.journey? b.journey with
                | .inr st, some j =>
                  if j.stopFor.isSome then .next s
                  else .next (s.failJourney j { s.unitRec j 0x21 0 (st % 2 ^ 32) with syndrome := 0 })
                | _, _ => .next s

/-- `CXL_LINK_TRAINING` (R421): a port that trains below ×16 or below 64 GT/s is fenced. -/
def execCxlLinkTraining (port width rate : Nat) (s : State) : Out :=
  if width < 16 || rate < 64 then
    .next ((s.fence (.port port)).modHub fun h =>
      { h with cxlDown := if h.cxlDown.contains port then h.cxlDown else h.cxlDown ++ [port] })
  else .next (s.modHub fun h => { h with cxlDown := h.cxlDown.filter fun p => p != port })

end Sys2Proof.Machine
end

