-- ==== Sys2Proof/Machine/Manage.lean ====
section
/-! DEFINITION. The boot chain, firmware images, fuses and attestation (R411 to R416), and the transport side of connections (R371, R372,
R373, R381). -/

namespace Sys2Proof.Machine

/-! ### Firmware images (R412, R413) -/

/-- Octets of a field of an image. -/
def octets (l : List Byte) (at_ n : Nat) : List Byte := (l.drop at_).take n

def imageKind (l : List Byte) : Nat := fieldAt l 5 1
def imageSvn (l : List Byte) : Nat := fieldAt l 6 2
def imageKey (l : List Byte) : Nat := fieldAt l 16 1 % 4
def imageDigest (l : List Byte) : List Byte := octets l 64 48

/-- The vendor public key of an index, as flash holds it. -/
def Hub.vendorKey (h : Hub) (i : Nat) : Option (Nat × Nat) := (h.keys.find? fun k => k.1 == i).map Prod.snd

/-- Whether an image is accepted for a kind (R413). -/
def Hub.accepts (h : Hub) (kind : Nat) (l : List Byte) : Bool :=
  let body := l.drop 256
  256 ≤ l.length && fieldAt l 0 4 == 0x4C5A4657 && fieldAt l 4 1 == 1 && imageKind l == kind
    && fieldAt l 8 8 == body.length && body.length ≤ 2 ^ 26 && fieldAt l 16 1 < 4 && zeros (octets l 17 47) && zeros (octets l 208 48)
    && sha384 body == imageDigest l && !h.revoked.contains (imageKey l) && SMap.get 0 kind h.minSvn ≤ imageSvn l
    && match h.vendorKey (imageKey l) with
       | some k => ofBe (sha384 (keyBytes k)) == Config.romKeyHash (imageKey l)
           && ecdsaOk k (l.take 112) (ofBe (octets l 112 48)) (ofBe (octets l 160 48))
       | none => false

/-- A copy of a kind's image in flash. -/
def Hub.image? (h : Hub) (kind copy : Nat) : Option (List Byte) :=
  (h.flash.find? fun x => x.kind == kind && x.copy == copy).map (·.bytes)

/-- The image a stage runs: copy A, else copy B, of those that are accepted (R414). -/
def Hub.choose (h : Hub) (kind : Nat) : Option Running :=
  let good (c : Nat) : Option Running := match h.image? kind c with
    | some l => if h.accepts kind l then some ⟨kind, c, imageDigest l⟩ else none
    | none => none
  good 0 <|> good 1

/-! ### Reset and boot (R411, R414) -/

/-- What a reset leaves of the hub: flash, keys, fuses and the marks of fenced units; images of pool memory stand for what the pool
holds. -/
def Hub.afterReset (h : Hub) : Hub :=
  { flash := h.flash, keys := h.keys, opKey := h.opKey, cert := h.cert, revoked := h.revoked, minSvn := h.minSvn, fenced := h.fenced,
    secret := h.secret, images := h.images, nextImage := h.nextImage, outbox := h.outbox,
    thresholds := [(.core, 1024), (.slice, 1024), (.port, 1024), (.calendar, 1024)] }

/-- The links of the 32 leaves at boot: those of fenced clusters stay reset. The scheduler sends the leaf image over a link in commands
of 64 bytes, whose permits are back once the leaf has taken it; a leaf that reports ready has (R411, R417). -/
def bootLinks (h : Hub) (leafImage : List Byte) (ready : BitVec 32) : List Link :=
  (upTo 32).map fun n =>
    { leaf := n, ready := ready.getLsbD n, fenced := h.fenced.contains (.cluster n),
      image := if ready.getLsbD n && !h.fenced.contains (.cluster n) then leafImage else [] }

/-- The hub after its boot: ROM has derived the device identity, and every stage's image is verified, or the device is in recovery. -/
def Hub.boots (h0 : Hub) (ready : BitVec 32) : Hub :=
  let h := { h0 with identity := some (identityOf h0.secret) }
  match [1, 2, 3, 4, 5].map h.choose with
  | [some a, some b, some c, some d, some e] =>
    ({ h with running := [a, b, c, d, e], links := bootLinks h ((h.image? 5 e.copy).getD []) ready, boot := .scheduling }).settleBoot
  | _ => { h with boot := .recovery }

/-- `DEVICE_RESET` (R411): everything but flash, fuses and pool memory is lost; the hub boots. `ready` names the leaves that report
ready in time. -/
def execDeviceReset (ready : BitVec 32) (s : State) : Out :=
  .next { State.reset with
    script := s.script, draw := s.draw, mem := s.pool, pool := s.pool, poison := s.poison, hub := s.hub.afterReset.boots ready }

/-- `LEAF_READY_TIMEOUT` (R411): a leaf that has not reported ready is fenced with its cluster, and boot goes on. -/
def execLeafReadyTimeout (leaf : Nat) (s : State) : Out :=
  if s.hub.boot == .scheduling && s.hub.links.any (fun l => l.leaf == leaf && !l.ready && !l.fenced) then
    .next (s.fenceCluster leaf)
  else .next s

/-- The leaf image that the device runs. -/
def Hub.leafImage (h : Hub) : List Byte :=
  ((h.running.find? fun r => r.kind == 5).bind fun r => h.image? 5 r.copy).getD []

/-- `FENCE_CLEAR`: the operator clears a mark after repair. A repaired leaf has its image and takes commands again, unless the device waits
in recovery (R396, R411, R417; the image is DEDUCED, assumption 116). -/
def execFenceClear (u : UnitId) (s : State) : Out :=
  if !s.hub.fenced.contains u then .next s else
    let s1 := match u with
      | .cluster n => s.modLink n fun l => { l with fenced := false, ready := true, image := s.hub.leafImage }
      | _ => s
    .next (s1.modHub fun h => { h with fenced := h.fenced.filter fun x => x != u })

/-- The copy of a kind that is not in use; in recovery either copy, as the operator chooses. -/
def State.spareCopy (s : State) (kind : Nat) : Nat :=
  match s.hub.running.find? fun r => r.kind == kind with
  | some r => 1 - r.copy
  | none => b2n (s.freeBit (48 * 2 ^ 60))

/-- `FIRMWARE_IMAGE_WRITE` (R414): a signed image goes into the flash copy not in use. -/
def execFirmwareImageWrite (image : List Byte) (s : State) : Out :=
  let kind := imageKind image
  if s.hub.boot == .off || kind < 1 || 5 < kind || !s.hub.accepts kind image then .next s else
    let x : FlashImage := ⟨s.spareCopy kind, kind, image⟩
    .next (s.modHub fun h => { h with flash := upsert (fun y => y.kind == kind && y.copy == x.copy) x h.flash })

end Sys2Proof.Machine

namespace Sys2Proof

/-- The bytes that the operator signs to raise a fuse: a layout of the model's own (assumption 18). -/
def FuseArg.bytes : FuseArg → List Byte
  | .revoke k => [1, k.setWidth 8, 0, 0]
  | .minSvn kind svn => [2, kind, svn.setWidth 8, svn.extractLsb' 8 8]

end Sys2Proof

namespace Sys2Proof.Machine

/-- `RAISE_FUSES` (R413): a request signed by the operator revokes a key index or raises a least svn; neither can fall. -/
def execRaiseFuses (f : FuseArg) (msg : List Byte) (r n : Nat) (s : State) : Out :=
  match s.hub.opKey with
  | none => .next s
  | some k =>
    if msg != f.bytes || !ecdsaOk k msg r n then .next s else
      match f with
      | .revoke i =>
        .next (s.modHub fun h => { h with revoked := if h.revoked.contains i.toNat then h.revoked else h.revoked ++ [i.toNat] })
      | .minSvn kind svn =>
        .next (s.modHub fun h =>
          { h with minSvn := SMap.set 0 kind.toNat (max (SMap.get 0 kind.toNat h.minSvn) svn.toNat) h.minSvn })

/-! ### Attestation (R415, R416) -/

/-- Digest of the running image of a kind. -/
def Hub.digestOf (h : Hub) (kind : Nat) : List Byte :=
  match h.running.find? fun r => r.kind == kind with
  | some r => r.digest
  | none => List.replicate 48 0

/-- Bytes 0 to 335 of a report. -/
def State.reportBytes (s : State) (room journey : Nat) (named : Bool) (nonce hash : List Byte) : List Byte :=
  leBytes 8 (packBits [(0, 1), (8, room), (16, journey), (24, b2n named)]) ++ nonce
    ++ [1, 2, 3, 4, 5].flatMap s.hub.digestOf ++ hash ++ leBytes 8 s.wallNs

/-- The signature that ROM's signing service makes over a message with the device's private key (R413, R415, R416; assumption 63). -/
def State.romSign (s : State) (m : List Byte) : Nat × Nat :=
  match s.hub.identity with
  | some (d, _) => ecdsaSign d (ecScalar (Config.romNonce s.draw)) m
  | none => (0, 0)

/-- The signed report and the certificate. -/
def State.attestation (s : State) (room journey : Nat) (named : Bool) (nonce hash : List Byte) : List Byte :=
  let m := s.reportBytes room journey named nonce hash
  let sig := s.romSign m
  m ++ beBytes 48 sig.1 ++ beBytes 48 sig.2 ++ s.hub.cert

def reqAttest (r : Rq) (s : State) : State :=
  let f := fieldAt r.body 32 8
  let nonce := r.body.take 32
  let answer (room journey : Nat) (named : Bool) (hash : List Byte) : State := match r.p.conn with
    | some c => s.respond c r.p.h r.p.entry 0 (s.attestation room journey named nonce hash)
    | none => s
  let home := match r.st with
    | .room n => n
    | _ => 0xFF
  if r.st == .nobody then r.deny s 2
  else if r.body.length != 40 || 2 ≤ f then r.deny s 1
  else if f = 0 then answer home 0 false (List.replicate 48 0)
  else match s.journey? r.jn with
    | some j =>
      if r.st.covers j.room && j.state != .closing then answer (if home = 0xFF then j.room else home) j.num true j.packHash
      else r.deny s 3
    | none => r.deny s 3

/-- `ATTEST` (op 0x0B). -/
def execAttestReq (c : Nat) (h : MsgHdr) (body : List Byte) (s : State) : Out := request 11 c h body reqAttest s

/-! ### Connections -/

/-- Notices that a room's queue holds leave on the room's connection, oldest first (R384, R388). -/
def State.sendQueued (s : State) (m : Room) : State :=
  match s.roomConn m with
  | none => s
  | some c => m.notices.foldl (fun t n => t.sendMsg c 3 n.1 n.2.1 0 none [] n.2.2) (s.putRoom { m with notices := [] })

/-- `CONNECTION_OPEN` (R373): both sides number their messages from 1. -/
def execConnectionOpen (c endpoint : Nat) (s : State) : Out :=
  let known := endpoint == operatorEndpoint || s.rooms.any fun m => m.endpoints.contains endpoint
  if s.hub.boot != .up || !known || s.hub.conns.any (fun x => x.num == c) then .next s
  else
    let s1 := s.modHub fun h => { h with conns := h.conns ++ [{ num := c, endpoint := endpoint }] }
    .next ((s1.rooms.filter fun m => m.endpoints.contains endpoint).foldl State.sendQueued s1)

/-- `CONNECTION_CLOSE` (R404): kept responses and held requests go, and a debug session ends, which resumes its halted groups. -/
def execConnectionClose (c : Nat) (s : State) : Out :=
  let s1 := match s.sessionAt c with
    | some x => s.endSession x
    | none => s
  .next (s1.modHub fun h => { h with conns := h.conns.filter fun x => x.num != c })

/-- Whether a number is later than another in serial order (R373); after 0 every number is. -/
def laterThan (a b : Word32) : Bool := b == 0 || (1 ≤ (a - b).toNat && (a - b).toNat < 2 ^ 31)

/-- `RESYNC` (R381): answered with a resync, and every kept message after the peer's ack is sent again. -/
def execResync (c : Nat) (h : MsgHdr) (s : State) : Out :=
  if h.ver != 1 || h.type != 4 || s.hub.boot != .up then .next s else
    match s.hub.conns.find? fun x => x.num == c with
    | none => .next s
    | some x =>
      let own := hdrBytes 4 0 x.seq (x.next - 1) 0 0 0
      let again := (x.kept.filter fun m => laterThan m.1 h.ack).map fun m => m.2.2
      .next (s.modHub fun hub => { hub with outbox := hub.outbox ++ (own :: again).map fun l => ⟨c, l⟩ })

/-- Counts at an endpoint. -/
def State.countAt (s : State) (addr : Nat) (f : Endpoint → Endpoint) : State :=
  s.modHub fun h =>
    let e := (h.endpoints.find? fun x => x.addr == addr).getD ⟨addr, 0, 0⟩
    { h with endpoints := upsert (fun x => x.addr == addr) (f e) h.endpoints }

/-- Whether the endpoints run: in recovery the management port alone does (R414). -/
def Hub.serves (h : Hub) : Bool := h.boot == .scheduling || h.boot == .up

/-- `DROPPED_MESSAGE` (R372): a message with a bad version or type is dropped and counted. -/
def execDroppedMessage (endpoint : Nat) (h : MsgHdr) (s : State) : Out :=
  if !s.hub.serves then .next s
  else if h.ver == 1 && 1 ≤ h.type.toNat && h.type.toNat ≤ 4 then .next s
  else .next (s.countAt endpoint fun e => { e with dropped := e.dropped + 1 })

/-- `UNSUPPORTED_DELIVERY_PACKET` (R371). -/
def execUnsupportedDeliveryPacket (endpoint : Nat) (s : State) : Out :=
  if !s.hub.serves then .next s
  else .next (s.countAt endpoint fun e => { e with unsupported := e.unsupported + 1 })

end Sys2Proof.Machine
end

