-- ==== Sys2Proof/Machine/Power.lean ====
section
/-! DEFINITION. Power: the cap and the holding of issue (R424), the metering of energy (R425), and the power report (R426). -/

namespace Sys2Proof.Machine

/-- `SET_POWER_CAP`: from 1,200 W to 2,200 W. -/
def execSetPowerCap (watts : Nat) (s : State) : Out :=
  if 1200 ≤ watts && watts ≤ 2200 then .next (s.modHub fun h => { h with powerCap := watts, leastCap := min h.leastCap watts }) else .next s

/-- Units by a number of the meter: clusters 0 to 31, then ports. -/
def meterFenced (h : Hub) (n : Nat) : Bool := h.fenced.contains (if n < 32 then .cluster n else .port (n - 32))

/-- The owner of every metered unit that a room owns and that is not fenced. -/
def State.unitOwners (s : State) : List (Nat × Nat) :=
  s.rooms.flatMap fun m =>
    (((bitList 32 m.clusters.toNat) ++ (bitList 24 m.ports.toNat).map (32 + ·)).filter fun n => !meterFenced s.hub n).map
      fun n => (n, m.num)

/-- Sum of a list. -/
def sumOf (l : List Nat) : Nat := l.foldl (· + ·) 0

/-- Energy of the whole module over an interval: of the metered units and of the hub die, which no request shows. The module never takes
more than 2,200 W (R424). -/
def State.moduleMj (s : State) (units : List Nat) : Nat := sumOf units + s.freeNat (63 * 2 ^ 60) % (2201 - sumOf units)

/-- Whether the mean power of some 1 ms that ends in an interval may exceed the cap: issue was held when it began, or the interval and the
one before it together take more than a cap that was in force in it (R424). -/
def Hub.mayHold (h : Hub) (mj : Nat) : Bool := h.hold || h.leastCap < h.powerModule + mj

/-- Cycles of 1 ms in which issue was held on one core: some of its 600,000 where the interval may have held issue (R424). -/
def State.heldOf (s : State) (may : Bool) (core : Nat) : Nat := if may then s.freeNat (47 * 2 ^ 60 + core) % 600001 else 0

/-- `POWER_INTERVAL` (R425): the energy of 1 ms, in mJ, goes to the rooms that owned the units at its start; the module's mean power
against the cap says whether cores hold issue next. An interval of more than 2,200 W there is none (R424). -/
def execPowerInterval (clusterMj portMj : List Nat) (s : State) : Out :=
  let units := (clusterMj.take 32 ++ List.replicate (32 - clusterMj.length) 0) ++ portMj.take 24
  if 2200 < sumOf units then .next s else
    let total := s.moduleMj units
    let charge (m : Room) : Room :=
      let mj := sumOf ((s.hub.owners.filter fun o => o.2 == m.num).map fun o => units.getD o.1 0)
      let held := sumOf ((coresOf m.clusters).map (s.heldOf (s.hub.mayHold total)))
      { m with energy := m.energy + mj, powers := (mj :: m.powers).take 1000, held := (held :: m.held).take 1000,
               powerAt := s.wallNs }
    let s1 := { s with rooms := s.rooms.map charge }
    .next (s1.modHub fun h =>
      { h with owners := s1.unitOwners, powerLast := units, powerModule := total, hold := h.powerCap < total, leastCap := h.powerCap })

/-- The 32 bytes of a room's report. -/
def Room.powerReport (m : Room) : List Byte :=
  leBytes 32 (packBits [(0, m.num), (64, m.energy % 2 ^ 64), (128, sumOf m.powers / max 1 m.powers.length % 2 ^ 32),
    (160, min (sumOf m.held) (2 ^ 32 - 1)), (192, m.powerAt % 2 ^ 64)])

def reqPower (r : Rq) (s : State) : State :=
  let answer (l : List Room) : State := match r.p.conn with
    | some c => s.respond c r.p.h r.p.entry 0 (l.flatMap Room.powerReport)
    | none => s
  match r.st with
  | .nobody => r.deny s 2
  | .room n => match s.room? n with
    | some m => answer [m]
    | none => r.deny s 2
  | .operator => answer (sortBy (fun a b => a.num ≤ b.num) s.rooms)

/-- `POWER` (op 0x13). -/
def execPowerReq (c : Nat) (h : MsgHdr) (body : List Byte) (s : State) : Out := request 19 c h body reqPower s

end Sys2Proof.Machine
end

