-- ==== Sys2Proof/Machine/Settle.lean ====
section
/-! DEFINITION. What the device does by itself after a step: rounds end, stops and checkpoints take effect (R379), resizes go on (R386),
held requests begin in their order (R371), and replays go on (R402). -/

namespace Sys2Proof.Machine

/-- The effect of a request by its code (R372). -/
def effectOf (op : Nat) (r : Rq) (s : State) : State :=
  match op with
  | 0x01 => reqOpen r s
  | 0x02 => reqClose r s
  | 0x03 => reqRead r s
  | 0x04 => reqWrite r s
  | 0x05 => reqSeed r s
  | 0x06 => reqLaunch r s
  | 0x07 => reqStart r s
  | 0x08 => reqStop r s
  | 0x09 => reqCheckpoint r s
  | 0x0A => reqRestore r s
  | 0x0B => reqAttest r s
  | 0x0C => reqResume r s
  | 0x0D => reqMap r s
  | 0x0E => reqUnmap r s
  | 0x0F => reqExport r s
  | 0x10 => reqWindow r s
  | 0x11 => reqFaults r s
  | 0x12 => reqReplay r s
  | 0x13 => reqPower r s
  | 0x20 => reqRoomCreate r s
  | 0x21 => reqRoomResize r s
  | 0x22 => reqRoomDestroy r s
  | 0x30 => reqDebugOpen r s
  | 0x31 => reqDebugClose r s
  | 0x32 => reqDebugHalt r s
  | 0x33 => reqDebugResume r s
  | 0x34 => reqReadState r s
  | 0x35 => reqWriteState r s
  | 0x36 => reqSetPoint r s
  | 0x37 => reqSampling r s
  | 0x38 => reqDelegate r s
  | _ => r.deny s 1

/-- The held request that a connection may begin. -/
def State.heldRequest (s : State) (c : Conn) : Option (MsgHdr × List Byte × Nat) :=
  c.ahead.find? fun m => m.1.seq == c.expect && s.startable c.num m.1 m.2.1

/-- Begins one held request, if one may begin. -/
def State.settleHeld (s : State) : State :=
  match s.hub.conns.findSome? fun c => (s.heldRequest c).map fun m => (c.num, m) with
  | some (c, h, body, entry) => s.take c h body entry (effectOf h.op.toNat)
  | none => s

/-- A read or write whose failed page the Innkeeper has served is tried again (R343, R374). -/
def State.settleServed (s : State) : State :=
  match s.journeys.find? fun j => j.pend.any fun p => p.served && p.fail.isSome with
  | none => s
  | some j => match j.pend with
    | some p => effectOf p.h.op.toNat ⟨p, .room j.room⟩ (s.putJourney { j with pend := none })
    | none => s

/-- Executes the next request of a replay, or answers it when none is left. -/
def State.settleReplay (s : State) : State :=
  match s.journeys.find? fun j => j.replyTo.isSome && j.pend.isNone && j.state != .closing
      && !((s.room? j.room).any fun m => m.resize.isSome) && !j.replay.head?.any fun x => s.mapsPending x.op x.body with
  | none => s
  | some j =>
    match j.replay, j.replyTo with
    | x :: _, some (_, h, _) =>
      let h1 : MsgHdr := { h with op := BitVec.ofNat 8 x.op, journey := BitVec.ofNat 8 j.num }
      effectOf x.op ⟨{ conn := none, h := h1, entry := s.wallNs, body := x.body }, .room j.room⟩ s
    | _, _ => s.endReplay j

/-- Everything that is due after a step. -/
def settle (s : State) : State :=
  let s1 := s.settleJourneys
  let s2 := s1.rooms.foldl (fun t m => match t.room? m.num with
    | some r => t.settleResize r
    | none => t) s1
  s2.settleServed.settleHeld.settleReplay

end Sys2Proof.Machine
end

