-- ==== Sys2Proof/Machine/Dispatch.lean ====
section
/-! DEFINITION. One arm for each constructor of the instruction type: a direct call of its meaning. -/

namespace Sys2Proof.Machine

def exec (i : Instr) (s : State) : Host.Outcome State Fault Refusal :=
  match i with
  | .add d a b => Sys2Proof.Machine.execAdd d a b s
  | .addImm d a imm => Sys2Proof.Machine.execAddImm d a imm s
  | .addLong d a la imm => Sys2Proof.Machine.execAddLong d a la imm s
  | .sub d a b => Sys2Proof.Machine.execSub d a b s
  | .mul d a b => Sys2Proof.Machine.execMul d a b s
  | .mulImm d a imm => Sys2Proof.Machine.execMulImm d a imm s
  | .mulhiS64 d a b => Sys2Proof.Machine.execMulhiS64 d a b s
  | .mulhiN64 d a b => Sys2Proof.Machine.execMulhiN64 d a b s
  | .divS64 d a b => Sys2Proof.Machine.execDivS64 d a b s
  | .divN64 d a b => Sys2Proof.Machine.execDivN64 d a b s
  | .remS64 d a b => Sys2Proof.Machine.execRemS64 d a b s
  | .remN64 d a b => Sys2Proof.Machine.execRemN64 d a b s
  | .and d a b => Sys2Proof.Machine.execAnd d a b s
  | .andImm d a imm => Sys2Proof.Machine.execAndImm d a imm s
  | .andLong d a la imm => Sys2Proof.Machine.execAndLong d a la imm s
  | .or d a b => Sys2Proof.Machine.execOr d a b s
  | .orImm d a imm => Sys2Proof.Machine.execOrImm d a imm s
  | .orLong d a la imm => Sys2Proof.Machine.execOrLong d a la imm s
  | .xor d a b => Sys2Proof.Machine.execXor d a b s
  | .xorImm d a imm => Sys2Proof.Machine.execXorImm d a imm s
  | .xorLong d a la imm => Sys2Proof.Machine.execXorLong d a la imm s
  | .andn d a b => Sys2Proof.Machine.execAndn d a b s
  | .shl d a b => Sys2Proof.Machine.execShl d a b s
  | .shlImm d a count => Sys2Proof.Machine.execShlImm d a count s
  | .shr d a b => Sys2Proof.Machine.execShr d a b s
  | .shrImm d a count => Sys2Proof.Machine.execShrImm d a count s
  | .sar d a b => Sys2Proof.Machine.execSar d a b s
  | .sarImm d a count => Sys2Proof.Machine.execSarImm d a count s
  | .minS64 d a b => Sys2Proof.Machine.execMinS64 d a b s
  | .minS64Imm d a imm => Sys2Proof.Machine.execMinS64Imm d a imm s
  | .minN64 d a b => Sys2Proof.Machine.execMinN64 d a b s
  | .maxS64 d a b => Sys2Proof.Machine.execMaxS64 d a b s
  | .maxS64Imm d a imm => Sys2Proof.Machine.execMaxS64Imm d a imm s
  | .maxN64 d a b => Sys2Proof.Machine.execMaxN64 d a b s
  | .cmpCc cc d a b => Sys2Proof.Machine.execCmpCc cc d a b s
  | .mov d a => Sys2Proof.Machine.execMov d a s
  | .abs d a => Sys2Proof.Machine.execAbs d a s
  | .clz d a => Sys2Proof.Machine.execClz d a s
  | .popc d a => Sys2Proof.Machine.execPopc d a s
  | .brev d a => Sys2Proof.Machine.execBrev d a s
  | .movi d imm => Sys2Proof.Machine.execMovi d imm s
  | .moviLong d la imm => Sys2Proof.Machine.execMoviLong d la imm s
  | .sel d a b la c => Sys2Proof.Machine.execSel d a b la c s
  | .bfx signed d a la pos len => Sys2Proof.Machine.execBfx signed d a la pos len s
  | .bfi d a la pos len => Sys2Proof.Machine.execBfi d a la pos len s
  | .faddF64 d a b => Sys2Proof.Machine.execFaddF64 d a b s
  | .faddF32 d a b => Sys2Proof.Machine.execFaddF32 d a b s
  | .fmulF64 d a b => Sys2Proof.Machine.execFmulF64 d a b s
  | .fmulF32 d a b => Sys2Proof.Machine.execFmulF32 d a b s
  | .fmaF64 d a b la c => Sys2Proof.Machine.execFmaF64 d a b la c s
  | .fmaF32 d a b la c => Sys2Proof.Machine.execFmaF32 d a b la c s
  | .fcmpCcF64 cc d a b => Sys2Proof.Machine.execFcmpCcF64 cc d a b s
  | .fcmpCcF32 cc d a b => Sys2Proof.Machine.execFcmpCcF32 cc d a b s
  | .fcvtF32F64 d a => Sys2Proof.Machine.execFcvtF32F64 d a s
  | .fcvtF64F32 d a => Sys2Proof.Machine.execFcvtF64F32 d a s
  | .fcvtS64F64 d a => Sys2Proof.Machine.execFcvtS64F64 d a s
  | .fcvtN64F64 d a => Sys2Proof.Machine.execFcvtN64F64 d a s
  | .fcvtF64S64 d a => Sys2Proof.Machine.execFcvtF64S64 d a s
  | .fcvtF64N64 d a => Sys2Proof.Machine.execFcvtF64N64 d a s
  | .fcvtS64F32 d a => Sys2Proof.Machine.execFcvtS64F32 d a s
  | .fcvtN64F32 d a => Sys2Proof.Machine.execFcvtN64F32 d a s
  | .fcvtF32S64 d a => Sys2Proof.Machine.execFcvtF32S64 d a s
  | .fcvtF32N64 d a => Sys2Proof.Machine.execFcvtF32N64 d a s
  | .kand d a b => Sys2Proof.Machine.execKand d a b s
  | .kor d a b => Sys2Proof.Machine.execKor d a b s
  | .kxor d a b => Sys2Proof.Machine.execKxor d a b s
  | .kandn d a b => Sys2Proof.Machine.execKandn d a b s
  | .knot d a => Sys2Proof.Machine.execKnot d a s
  | .kmov d a => Sys2Proof.Machine.execKmov d a s
  | .kpop d a => Sys2Proof.Machine.execKpop d a s
  | .kffs d a => Sys2Proof.Machine.execKffs d a s
  | .kset d a => Sys2Proof.Machine.execKset d a s
  | .kball d p b => Sys2Proof.Machine.execKball d p b s
  | .modifierPrefix rnd sat ftz insn => Sys2Proof.Machine.execModifierPrefix rnd sat ftz insn s
  | .repPrefix cnt dstep astep bstep astride insn => Sys2Proof.Machine.execRepPrefix cnt dstep astep bstep astride insn s
  | .ld w d a off => Sys2Proof.Machine.execLd w d a off s
  | .ldLong w d a la off => Sys2Proof.Machine.execLdLong w d a la off s
  | .st w d a off => Sys2Proof.Machine.execSt w d a off s
  | .stLong w d a la off => Sys2Proof.Machine.execStLong w d a la off s
  | .ldsp w d a off => Sys2Proof.Machine.execLdsp w d a off s
  | .ldspLong w d a la off => Sys2Proof.Machine.execLdspLong w d a la off s
  | .stsp w d a off => Sys2Proof.Machine.execStsp w d a off s
  | .stspLong w d a la off => Sys2Proof.Machine.execStspLong w d a la off s
  | .sysr d n => Sys2Proof.Machine.execSysr d n s
  | .sysw a n => Sys2Proof.Machine.execSysw a n s
  | .trap code => Sys2Proof.Machine.execTrap code s
  | .brk code => Sys2Proof.Machine.execBrk code s
  | .lq n => Sys2Proof.Machine.execLq n s
  | .br off => Sys2Proof.Machine.execBr off s
  | .call off => Sys2Proof.Machine.execCall off s
  | .bz a off => Sys2Proof.Machine.execBz a off s
  | .bnz a off => Sys2Proof.Machine.execBnz a off s
  | .ball k off => Sys2Proof.Machine.execBall k off s
  | .bCc cc a b la off => Sys2Proof.Machine.execBCc cc a b la off s
  | .ret => Sys2Proof.Machine.execRet s
  | .jmpi a => Sys2Proof.Machine.execJmpi a s
  | .lret => Sys2Proof.Machine.execLret s
  | .exit => Sys2Proof.Machine.execExit s
  | .nop => Sys2Proof.Machine.execNop s
  | .ljmp off => Sys2Proof.Machine.execLjmp off s
  | .lcall off => Sys2Proof.Machine.execLcall off s
  | .fenceSc => Sys2Proof.Machine.execFenceSc s
  | .fenceEng => Sys2Proof.Machine.execFenceEng s
  | .fenceFabric => Sys2Proof.Machine.execFenceFabric s
  | .bar => Sys2Proof.Machine.execBar s
  | .barArrive => Sys2Proof.Machine.execBarArrive s
  | .barWait => Sys2Proof.Machine.execBarWait s
  | .gbar => Sys2Proof.Machine.execGbar s
  | .waitpLd a => Sys2Proof.Machine.execWaitpLd a s
  | .waitpSt a => Sys2Proof.Machine.execWaitpSt a s
  | .waitpSp a => Sys2Proof.Machine.execWaitpSp a s
  | .waitpGa a => Sys2Proof.Machine.execWaitpGa a s
  | .ftest d f => Sys2Proof.Machine.execFtest d f s
  | .fwait d f => Sys2Proof.Machine.execFwait d f s
  | .fcancel d f => Sys2Proof.Machine.execFcancel d f s
  | .fget d f => Sys2Proof.Machine.execFget d f s
  | .fput f a => Sys2Proof.Machine.execFput f a s
  | .swait d a b => Sys2Proof.Machine.execSwait d a b s
  | .sdone d a b => Sys2Proof.Machine.execSdone d a b s
  | .cclear => Sys2Proof.Machine.execCclear s
  | .enough a => Sys2Proof.Machine.execEnough a s
  | .itfree a => Sys2Proof.Machine.execItfree a s
  | .push q f a b la => Sys2Proof.Machine.execPush q f a b la s
  | .mloop f a b la aSp steps rnd ftz reuse tstep tile fmt areg => Sys2Proof.Machine.execMloop f a b la aSp steps rnd ftz reuse tstep tile fmt areg s
  | .mdrain f la lanes half e8 rs cs clear ftz rnd vd8 dtile stile cv rv => Sys2Proof.Machine.execMdrain f la lanes half e8 rs cs clear ftz rnd vd8 dtile stile cv rv s
  | .aset f b la tile count => Sys2Proof.Machine.execAset f b la tile count s
  | .cloop f a b la split steps fmt rg => Sys2Proof.Machine.execCloop f a b la split steps fmt rg s
  | .cdrain f la pairs e8 rs cs ftz rnd dtile cv rv => Sys2Proof.Machine.execCdrain f la pairs e8 rs cs ftz rnd dtile cv rv s
  | .cmerge f => Sys2Proof.Machine.execCmerge f s
  | .cspill f tile => Sys2Proof.Machine.execCspill f tile s
  | .itbind f a b la off => Sys2Proof.Machine.execItbind f a b la off s
  | .drvNext f a k la vd pd ph sc => Sys2Proof.Machine.execDrvNext f a k la vd pd ph sc s
  | .schedScalar d a la handler prio canc => Sys2Proof.Machine.execSchedScalar d a la handler prio canc s
  | .cancelScalar d a la => Sys2Proof.Machine.execCancelScalar d a la s
  | .iadd h t sat d a b => Sys2Proof.Machine.execIadd h t sat d a b s
  | .isub h t sat d a b => Sys2Proof.Machine.execIsub h t sat d a b s
  | .imul h t d a b => Sys2Proof.Machine.execImul h t d a b s
  | .imulhi h t d a b => Sys2Proof.Machine.execImulhi h t d a b s
  | .imad h t sat d a b c => Sys2Proof.Machine.execImad h t sat d a b c s
  | .iabs h sat d a => Sys2Proof.Machine.execIabs h sat d a s
  | .imin h t d a b => Sys2Proof.Machine.execImin h t d a b s
  | .imax h t d a b => Sys2Proof.Machine.execImax h t d a b s
  | .laneAnd h d a b => Sys2Proof.Machine.execLaneAnd h d a b s
  | .laneOr h d a b => Sys2Proof.Machine.execLaneOr h d a b s
  | .laneXor h d a b => Sys2Proof.Machine.execLaneXor h d a b s
  | .bmux h d a b c tbl => Sys2Proof.Machine.execBmux h d a b c tbl s
  | .laneShl h d a b => Sys2Proof.Machine.execLaneShl h d a b s
  | .laneShr h d a b => Sys2Proof.Machine.execLaneShr h d a b s
  | .laneSar h d a b => Sys2Proof.Machine.execLaneSar h d a b s
  | .iadd64 h d a b => Sys2Proof.Machine.execIadd64 h d a b s
  | .laneBfx h t d a pos len => Sys2Proof.Machine.execLaneBfx h t d a pos len s
  | .laneBfi h d a pos len => Sys2Proof.Machine.execLaneBfi h d a pos len s
  | .lanePopc h d a => Sys2Proof.Machine.execLanePopc h d a s
  | .laneClz h d a => Sys2Proof.Machine.execLaneClz h d a s
  | .laneBrev h d a => Sys2Proof.Machine.execLaneBrev h d a s
  | .icmpCc h t cc d a b => Sys2Proof.Machine.execIcmpCc h t cc d a b s
  | .fcmpCc h t cc d a b => Sys2Proof.Machine.execFcmpCc h t cc d a b s
  | .pand h d a b => Sys2Proof.Machine.execPand h d a b s
  | .por h d a b => Sys2Proof.Machine.execPor h d a b s
  | .pxor h d a b => Sys2Proof.Machine.execPxor h d a b s
  | .pnot h d a => Sys2Proof.Machine.execPnot h d a s
  | .pmov h d a => Sys2Proof.Machine.execPmov h d a s
  | .pmovFromVreg h d a => Sys2Proof.Machine.execPmovFromVreg h d a s
  | .pmovToVreg h d => Sys2Proof.Machine.execPmovToVreg h d s
  | .pmovAll h a => Sys2Proof.Machine.execPmovAll h a s
  | .laneSel h w64 d a b c => Sys2Proof.Machine.execLaneSel h w64 d a b c s
  | .laneMov h w64 d a => Sys2Proof.Machine.execLaneMov h w64 d a s
  | .laneMovi h d imm => Sys2Proof.Machine.execLaneMovi h d imm s
  | .fadd h t rnd ftz d a b => Sys2Proof.Machine.execFadd h t rnd ftz d a b s
  | .fsub h t rnd ftz d a b => Sys2Proof.Machine.execFsub h t rnd ftz d a b s
  | .fmul h t rnd ftz d a b => Sys2Proof.Machine.execFmul h t rnd ftz d a b s
  | .fma h t rnd ftz d a b c => Sys2Proof.Machine.execFma h t rnd ftz d a b c s
  | .fminNum h t d a b => Sys2Proof.Machine.execFminNum h t d a b s
  | .fminNan h t d a b => Sys2Proof.Machine.execFminNan h t d a b s
  | .fmaxNum h t d a b => Sys2Proof.Machine.execFmaxNum h t d a b s
  | .fmaxNan h t d a b => Sys2Proof.Machine.execFmaxNan h t d a b s
  | .frcp h t d a => Sys2Proof.Machine.execFrcp h t d a s
  | .frsq h d a => Sys2Proof.Machine.execFrsq h d a s
  | .fsqrt h t d a => Sys2Proof.Machine.execFsqrt h t d a s
  | .fex2 h d a => Sys2Proof.Machine.execFex2 h d a s
  | .flg2 h d a => Sys2Proof.Machine.execFlg2 h d a s
  | .fsin h d a => Sys2Proof.Machine.execFsin h d a s
  | .fcos h d a => Sys2Proof.Machine.execFcos h d a s
  | .fdot16 h e5m2 rnd reuse ftz d a b c => Sys2Proof.Machine.execFdot16 h e5m2 rnd reuse ftz d a b c s
  | .ddot16 h rnd reuse ftz d a b c => Sys2Proof.Machine.execDdot16 h rnd reuse ftz d a b c s
  | .idot4 h t sat d a b c => Sys2Proof.Machine.execIdot4 h t sat d a b c s
  | .scacc h e8 rnd d a b c x y => Sys2Proof.Machine.execScacc h e8 rnd d a b c x y s
  | .cvt h dst src rnd sat d a elem => Sys2Proof.Machine.execCvt h dst src rnd sat d a elem s
  | .evinfo h item d => Sys2Proof.Machine.execEvinfo h item d s
  | .qswapH h w64 d a => Sys2Proof.Machine.execQswapH h w64 d a s
  | .qswapV h w64 d a => Sys2Proof.Machine.execQswapV h w64 d a s
  | .qswapD h w64 d a => Sys2Proof.Machine.execQswapD h w64 d a s
  | .qbcast h w64 d a pos => Sys2Proof.Machine.execQbcast h w64 d a pos s
  | .xlanePick h w64 w d a b => Sys2Proof.Machine.execXlanePick h w64 w d a b s
  | .xlaneLift h w64 w d a dist => Sys2Proof.Machine.execXlaneLift h w64 w d a dist s
  | .xlaneDrop h w64 w d a dist => Sys2Proof.Machine.execXlaneDrop h w64 w d a dist s
  | .xlaneMirror h w64 w d a pat => Sys2Proof.Machine.execXlaneMirror h w64 w d a pat s
  | .scan h t op excl d a => Sys2Proof.Machine.execScan h t op excl d a s
  | .sscan h t op excl d a c => Sys2Proof.Machine.execSscan h t op excl d a c s
  | .sred h t op d a b c => Sys2Proof.Machine.execSred h t op d a b c s
  | .ldG h t d m => Sys2Proof.Machine.execLdG h t d m s
  | .stG h t d m => Sys2Proof.Machine.execStG h t d m s
  | .ldS h t d m => Sys2Proof.Machine.execLdS h t d m s
  | .stS h t d m => Sys2Proof.Machine.execStS h t d m s
  | .cpGs h t d m => Sys2Proof.Machine.execCpGs h t d m s
  | .ldx h t d m => Sys2Proof.Machine.execLdx h t d m s
  | .stx h t d m => Sys2Proof.Machine.execStx h t d m s
  | .atom h t op scope d a c m => Sys2Proof.Machine.execAtom h t op scope d a c m s
  | .red h t op scope a c m => Sys2Proof.Machine.execRed h t op scope a c m s
  | .sched h d a b handler prio canc => Sys2Proof.Machine.execSched h d a b handler prio canc s
  | .cancel h d a => Sys2Proof.Machine.execCancel h d a s
  | .acpyAr h d n c0 half tile => Sys2Proof.Machine.execAcpyAr h d n c0 half tile s
  | .acpyRa h a n c0 half tile => Sys2Proof.Machine.execAcpyRa h a n c0 half tile s
  | .illegalInstruction woff => Sys2Proof.Machine.execIllegalInstruction woff s
  | .mloopCompletion core => Sys2Proof.Machine.execMloopCompletion core s
  | .mdrainCompletion core => Sys2Proof.Machine.execMdrainCompletion core s
  | .asetCompletion core => Sys2Proof.Machine.execAsetCompletion core s
  | .cloopCompletion core => Sys2Proof.Machine.execCloopCompletion core s
  | .cmergeCompletion core => Sys2Proof.Machine.execCmergeCompletion core s
  | .cspillCompletion core => Sys2Proof.Machine.execCspillCompletion core s
  | .cdrainCompletion core => Sys2Proof.Machine.execCdrainCompletion core s
  | .itbindCompletion core op => Sys2Proof.Machine.execItbindCompletion core op s
  | .nextPullCompletion core op => Sys2Proof.Machine.execNextPullCompletion core op s
  | .droverDrain core op => Sys2Proof.Machine.execDroverDrain core op s
  | .seLoad core eng => Sys2Proof.Machine.execSeLoad core eng s
  | .seStore core eng => Sys2Proof.Machine.execSeStore core eng s
  | .seSet core eng => Sys2Proof.Machine.execSeSet core eng s
  | .seQuant core eng => Sys2Proof.Machine.execSeQuant core eng s
  | .ringSlotFill core eng => Sys2Proof.Machine.execRingSlotFill core eng s
  | .slotPublish core band off => Sys2Proof.Machine.execSlotPublish core band off s
  | .ringSlotDrain core eng => Sys2Proof.Machine.execRingSlotDrain core eng s
  | .cpGsCopy core slot => Sys2Proof.Machine.execCpGsCopy core slot s
  | .accessCompletion core slot path => Sys2Proof.Machine.execAccessCompletion core slot path s
  | .porterWindowClose core => Sys2Proof.Machine.execPorterWindowClose core s
  | .ostlerRequest cluster => Sys2Proof.Machine.execOstlerRequest cluster s
  | .barrierPhaseComplete core band gang => Sys2Proof.Machine.execBarrierPhaseComplete core band gang s
  | .faultService site install => Sys2Proof.Machine.execFaultService site install s
  | .parkedReplay core slot => Sys2Proof.Machine.execParkedReplay core slot s
  | .shootdownComplete room => Sys2Proof.Machine.execShootdownComplete room s
  | .tableMigration journey size => Sys2Proof.Machine.execTableMigration journey size s
  | .importAcc m => Sys2Proof.Machine.execImportAcc m s
  | .importRefused journey id code => Sys2Proof.Machine.execImportRefused journey id code s
  | .writeBack journey => Sys2Proof.Machine.execWriteBack journey s
  | .hareSearch journey => Sys2Proof.Machine.execHareSearch journey s
  | .roundFormation journey => Sys2Proof.Machine.execRoundFormation journey s
  | .dispatcherPick room => Sys2Proof.Machine.execDispatcherPick room s
  | .starvationPromotion journey => Sys2Proof.Machine.execStarvationPromotion journey s
  | .bandPlacement journey => Sys2Proof.Machine.execBandPlacement journey s
  | .gangPlacement journey => Sys2Proof.Machine.execGangPlacement journey s
  | .groupDispatch core slot => Sys2Proof.Machine.execGroupDispatch core slot s
  | .groupHalt core slot => Sys2Proof.Machine.execGroupHalt core slot s
  | .openReq c h body => Sys2Proof.Machine.execOpenReq c h body s
  | .closeReq c h body => Sys2Proof.Machine.execCloseReq c h body s
  | .teardownComplete journey => Sys2Proof.Machine.execTeardownComplete journey s
  | .readReq c h body => Sys2Proof.Machine.execReadReq c h body s
  | .writeReq c h body => Sys2Proof.Machine.execWriteReq c h body s
  | .seedReq c h body => Sys2Proof.Machine.execSeedReq c h body s
  | .launchReq c h body => Sys2Proof.Machine.execLaunchReq c h body s
  | .startReq c h body => Sys2Proof.Machine.execStartReq c h body s
  | .stopReq c h body => Sys2Proof.Machine.execStopReq c h body s
  | .checkpointReq c h body => Sys2Proof.Machine.execCheckpointReq c h body s
  | .restoreReq c h body => Sys2Proof.Machine.execRestoreReq c h body s
  | .restorePlacement journey => Sys2Proof.Machine.execRestorePlacement journey s
  | .attestReq c h body => Sys2Proof.Machine.execAttestReq c h body s
  | .resumeReq c h body => Sys2Proof.Machine.execResumeReq c h body s
  | .mapReq c h body => Sys2Proof.Machine.execMapReq c h body s
  | .unmapReq c h body => Sys2Proof.Machine.execUnmapReq c h body s
  | .exportReq c h body => Sys2Proof.Machine.execExportReq c h body s
  | .windowReq c h body => Sys2Proof.Machine.execWindowReq c h body s
  | .faultsReq c h body => Sys2Proof.Machine.execFaultsReq c h body s
  | .replayReq c h body => Sys2Proof.Machine.execReplayReq c h body s
  | .powerReq c h body => Sys2Proof.Machine.execPowerReq c h body s
  | .roomCreate c h body => Sys2Proof.Machine.execRoomCreate c h body s
  | .roomResize c h body => Sys2Proof.Machine.execRoomResize c h body s
  | .roomDestroy c h body => Sys2Proof.Machine.execRoomDestroy c h body s
  | .unknownRequest c h body => Sys2Proof.Machine.execUnknownRequest c h body s
  | .debugOpen c h body => Sys2Proof.Machine.execDebugOpen c h body s
  | .debugClose c h body => Sys2Proof.Machine.execDebugClose c h body s
  | .debugHalt c h body => Sys2Proof.Machine.execDebugHalt c h body s
  | .debugResume c h body => Sys2Proof.Machine.execDebugResume c h body s
  | .readState c h body => Sys2Proof.Machine.execReadState c h body s
  | .writeState c h body => Sys2Proof.Machine.execWriteState c h body s
  | .setPoint c h body => Sys2Proof.Machine.execSetPoint c h body s
  | .sampling c h body => Sys2Proof.Machine.execSampling c h body s
  | .delegate c h body => Sys2Proof.Machine.execDelegate c h body s
  | .sample core => Sys2Proof.Machine.execSample core s
  | .resync c h => Sys2Proof.Machine.execResync c h s
  | .droppedMessage endpoint h => Sys2Proof.Machine.execDroppedMessage endpoint h s
  | .unsupportedDeliveryPacket endpoint => Sys2Proof.Machine.execUnsupportedDeliveryPacket endpoint s
  | .tokenBucketRefill room periods => Sys2Proof.Machine.execTokenBucketRefill room periods s
  | .correctedError u => Sys2Proof.Machine.execCorrectedError u s
  | .uncorrectedError e => Sys2Proof.Machine.execUncorrectedError e s
  | .leafPermitTimeout leaf => Sys2Proof.Machine.execLeafPermitTimeout leaf s
  | .operatorFence u => Sys2Proof.Machine.execOperatorFence u s
  | .fenceClear u => Sys2Proof.Machine.execFenceClear u s
  | .setErrorThreshold k n => Sys2Proof.Machine.execSetErrorThreshold k n s
  | .setPowerCap watts => Sys2Proof.Machine.execSetPowerCap watts s
  | .raiseFuses f msg r t_s => Sys2Proof.Machine.execRaiseFuses f msg r t_s s
  | .firmwareImageWrite image => Sys2Proof.Machine.execFirmwareImageWrite image s
  | .deviceReset ready => Sys2Proof.Machine.execDeviceReset ready s
  | .leafReadyTimeout leaf => Sys2Proof.Machine.execLeafReadyTimeout leaf s
  | .leafPlacementCommand leaf => Sys2Proof.Machine.execLeafPlacementCommand leaf s
  | .placementRefusal leaf => Sys2Proof.Machine.execPlacementRefusal leaf s
  | .permitReturn leaf toLeaf => Sys2Proof.Machine.execPermitReturn leaf toLeaf s
  | .powerInterval clusterMj portMj => Sys2Proof.Machine.execPowerInterval clusterMj portMj s
  | .connectionOpen c endpoint => Sys2Proof.Machine.execConnectionOpen c endpoint s
  | .connectionClose c => Sys2Proof.Machine.execConnectionClose c s
  | .cxlLinkTraining port width rate => Sys2Proof.Machine.execCxlLinkTraining port width rate s
  | .linePublication line => Sys2Proof.Machine.execLinePublication line s

end Sys2Proof.Machine
end

