-- ==== Sys2Proof/Machine/Step.lean ====
section
/-! DEFINITION. One step of the machine: the agent that moves, the interlocks around `exec`, and what the device settles
after it. `withFetchWord` stands for loading a program: it places one journey with one dispatched group whose next scalar
instruction is the given one (assumption 2). -/

namespace Sys2Proof.Machine

/-- Runs a meaning on the focus, and puts the focus back. -/
def runFocus (i : Instr) (s : State) : Host.Outcome State Fault Refusal :=
  match exec i s with
  | .next s' => .next s'.unfocus
  | r => r

/-- A scalar instruction that may issue past a parked load (R48): plain arithmetic on registers that leaves the load's destination
alone. Others wait for the replay, which a lookahead allows (R46). -/
def goesPast (s : State) (i : Instr) : Bool :=
  (repForm i).any fun f => !f.mem && f.d != some s.g.ahead.reg

/-- The scalar stream moves past its parked load: the load stays parked as it is. -/
def stepPast (s : State) : Host.Outcome State Fault Refusal :=
  let (s1, ws, _) := s.fetchScalar
  match decodeScalar ws with
  | .ok i len =>
    let s2 := s1.modG fun g => { g with insAddr := g.spc, insLen := len, md := {}, repOff := 0, repped := false }
    if goesPast s i && s2.readyScalar i then
      match exec i s2 with
      | .next t => .next (t.modG fun g =>
          { g with park := s.g.park, scAcc := s.g.scAcc, wait := s.g.wait,
                   ahead := { s.g.ahead with left := s.g.ahead.left - 1, gone := s.g.ahead.gone + 1 } }).unfocus
      | r => r
    else .next s
  | _ => .next s

/-- The scalar stream of the focused group moves (R135): halt checks, fetch, decode, interlocks, execution. -/
def stepScalar (s : State) : Host.Outcome State Fault Refusal :=
  if s.g.scalarStuck then .next s else
    match s.haltCheck with
    | some t => .next t.unfocus
    | none =>
      if s.g.park.isSome then stepPast s else
      let (s1, ws, bad) := (s.modG fun g => { g with passed := true }).fetchScalar
      match decodeScalar ws with
      | .ok i len =>
        let s2 := s1.modG fun g => { g with insAddr := g.spc, insLen := len, md := {}, repOff := 0, repped := false }
        if s2.readyScalar i then runFocus i s2 else .next (s2.stall 3).unfocus
      | .bound k =>
        let a := s1.g.spc + BitVec.ofNat 64 (4 * k)
        let s2 := s1.modG fun g => { g with insAddr := g.spc, insLen := 1 }
        .next (fetchFail s2 bad a).unfocus
      | .illegal k =>
        runFocus (.illegalInstruction (BitVec.ofNat 64 (4 * k))) (s1.modG fun g => { g with insAddr := g.spc, insLen := 1 })

/-- The lane stream of the focused group moves: the head of its queue issues (R138), or a word inside the window of a parked head. -/
def stepLane (part : Nat) (s : State) : Host.Outcome State Fault Refusal :=
  if s.g.laneStuck then .next s else
    match s.g.laneNext with
    | none => .next s
    | some e =>
      let s1 := s.modG fun g => { g with ictx := ⟨e.mask, e.base, e.todo, e.addr, e.lqAddr, e.acc, part, e.lows, e.pages, e.kept⟩ }
      if s1.readyLane e.ins then
        match exec e.ins s1 with
        | .next t => .next (s1.keepSources e t).unfocus
        | r => r
      else .next s

/-- The group at a place, where its leaf has taken the placement of its band. -/
def State.runnable (s : State) (core slot : Nat) : Option Group :=
  (s.group? core slot).filter fun g => !s.commanded core g.band

/-- The agent that moves does its step. -/
def stepAgent (s : State) : Agent → Host.Outcome State Fault Refusal
  | .scalar core slot => match s.runnable core slot with
    | some g => stepScalar (s.focus g)
    | none => .next s
  | .lane core slot => match s.runnable core slot with
    | some g => stepLane 64 (s.focus g)
    | none => .next s
  | .lanePart core slot n => match s.runnable core slot with
    | some g => stepLane n (s.focus g)
    | none => .next s
  | .device ev => if ev.isStep then exec ev s else .next s
  | .devicePart ev n => if ev.isStep then exec ev { s with few := some n } else .next s

/-- The agent whose move is next: the head of the script, else any agent (assumption 1). -/
def State.nextAgent (s : State) : Agent :=
  match s.script with
  | a :: _ => a
  | [] => Config.agent s.draw

/-- The script after a move; time passes and the next free values are fresh. -/
def State.tick (s : State) : State :=
  { s with script := s.script.tail, few := none, draw := s.draw + 1, cycles := s.cycles + Config.elapsed s.draw }

/-- One step of the machine. -/
def step (s : State) : Host.Outcome State Fault Refusal :=
  match stepAgent s s.nextAgent with
  | .next s' => .next (settle s').tick
  | r => r

/-! ### Placing an instruction (assumption 2) -/

/-- Address of the code that `withFetchWord` places, virtual and physical: the second page of 64 KiB. -/
abbrev loadAt : Nat := 0x10000

/-- A handler whose sections share that page. -/
def loadHandler : Handler :=
  { sbase := 0x10000, ssize := 0x8000, lbase := 0x18000, lsize := 0x6000, valid := true }

/-- A current descriptor that maps the page. -/
def loadTable : Table :=
  let d : TableDesc := { live := true, lgn := 8 }
  { cur := { d with slots := [(d.entryAt 0 (tableSlot 1 0 d), ⟨1, 0, true, true, true, false, 0x10000⟩)] } }

/-- A state whose next step fetches and runs the instruction with the bits `w`: room 0 with journey 0, whose one group stands
on core 0 at the first word of its scalar section, and the scalar stream of that group named as the next agent. -/
def State.withFetchWord (s : State) (_nbits w : Nat) : State :=
  let g : Group := { handler := loadHandler, spc := 0x10000, lpc := 0x18000, llink := 0x18000, nev := 1, passed := true }
  let b : Band := { handler := loadHandler, members := [0] }
  let c : Core := { s.core 0 with ops := (s.core 0).ops.filter fun o => o.band != 0,
                                  tlb := (s.core 0).tlb.filter fun e => e.journey != 0 }
  let j : Journey := { state := .running, handlers := [loadHandler], tables := [loadTable, {}, {}, {}] }
  let r : Room := { clusters := 1, extents := [⟨0, 0x200000⟩] }
  let s1 := ((((s.putRoom r).putJourney j).putCore c).putBand b).putGroup g
  { s1 with script := .scalar 0 0 :: s.script, mem := s.mem.write loadAt (leBytes 16 w),
            poison := s.poison.filter fun l => l != lineOf loadAt,
            reqs := s.reqs.filter fun q => !(q.core == 0 && q.slot == 0) }

end Sys2Proof.Machine
end

