-- ==== Sys2Proof/Safety.lean ====
section
/-! DEFINITION. What a safe run is: no step of it ends in a fault or a refusal. -/

namespace Sys2Proof

/-- A state from which no run of `k` steps stops. -/
def SafeFor (k : Nat) (s : Machine.State) : Prop :=
  match Host.Core.run core k s with
  | .next _ => True
  | .fault _ => False
  | .refused _ => False

/-- A state from which no run stops. -/
def Safe (s : Machine.State) : Prop := ∀ k, SafeFor k s

end Sys2Proof
end

