-- ==== Sys2Proof/Certificates/Slice0/Obligations.lean ====
section
/-! DEFINITION. The statements for the provers. Each `Obligations.<Name>` cites the rules it formalises; the rules they compute
with (`Claims.…`) are written here from the manual's words, beside the model and not from it. A statement about `exec` is about
the acting group's focus, which `StepRunsDecodedInstruction` connects to a step of the machine. -/

namespace Sys2Proof.Claims
open Sys2Proof.Machine

/-! ### The scalar stream passes an instruction -/

/-- Where the scalar stream goes on behind an instruction that transfers nothing: behind it and its prefixes (R135), or, where it is a load
that replays inside its window, where the stream had come before the replay (R48). -/
def nextPc (s : State) : Word64 := s.g.ahead.back.getD (s.g.insAddr + BitVec.ofNat 64 (4 * s.g.insLen))

/-- `s` after its scalar instruction, with `g` in the place of the acting group: the scalar PC stands behind the instruction and its
prefixes, older windows are one position nearer to their end, and nothing else of the machine is changed. -/
def passed (s : State) (g : Group) : State :=
  { s with g := { g with spc := nextPc s, ahead := {}, winS := State.ageS g.winS, wait := 0, passed := false, mid := false,
                         lqPassed := false, waited := false, park := none, scAcc := none } }

/-- An instruction that writes a future waits for the pending operation that the future names (R148): nothing but the wait code changes, and
that the wait was for a future. -/
def awaits (s : State) : State := { s with g := { s.g with waited := true, wait := 3 } }

/-- The acting group with a scalar result: `s0` discards it (R75), and a lookahead opens a window with the old value (R45). -/
def scalarResult (g : Group) (la : BitVec 4) (d : SReg) (x : Word64) (fl : Word32) : Group :=
  if d = 0 then { g with fpflags := g.fpflags ||| fl }
  else { g with s := g.s.set d.toNat x, fpflags := g.fpflags ||| fl,
                winS := if la = 0 then g.winS else ⟨d, g.s[d.toNat], la.toNat + 1, none⟩ :: g.winS }

/-! ### Integer rules (R77 to R83) -/

/-- Exact sums, differences and products (R78): destination, lookahead and the exact value. -/
def exactRule (s : State) : Instr → Option (SReg × BitVec 4 × Int)
  | .add d a b => some (d, 0, (s.sreg a).toInt + (s.sreg b).toInt)
  | .addImm d a imm => some (d, 0, (s.sreg a).toInt + imm.toInt)
  | .addLong d a la imm => some (d, la, (s.sreg a).toInt + imm.toInt)
  | .sub d a b => some (d, 0, (s.sreg a).toInt - (s.sreg b).toInt)
  | .mul d a b => some (d, 0, (s.sreg a).toInt * (s.sreg b).toInt)
  | .mulImm d a imm => some (d, 0, (s.sreg a).toInt * imm.toInt)
  | _ => none

/-- Integer conditions by value (R33). -/
def condRule (cc : ICond) (a b : Word64) : Bool :=
  match cc with
  | .eq => decide (a.toNat = b.toNat)
  | .ne => decide (a.toNat ≠ b.toNat)
  | .ltS => decide (a.toInt < b.toInt)
  | .leS => decide (a.toInt ≤ b.toInt)
  | .gtS => decide (a.toInt > b.toInt)
  | .geS => decide (a.toInt ≥ b.toInt)
  | .ltN => decide (a.toNat < b.toNat)
  | .leN => decide (a.toNat ≤ b.toNat)
  | .gtN => decide (a.toNat > b.toNat)
  | .geN => decide (a.toNat ≥ b.toNat)

/-- Count of the numbers below `n` that pass. -/
def countBelow (n : Nat) (p : Nat → Bool) : Nat := (List.range n).countP p

/-- The 64-bit value whose bit k is `f k`. -/
def ofBits (f : Nat → Bool) : Word64 := BitVec.ofNat 64 ((List.range 64).foldr (fun k n => (f k).toNat * 2 ^ k + n) 0)

/-- The other integer, logic, move, bit-field and mask-to-register instructions, with the value of R78 to R83 and R88. -/
def valueRule (s : State) : Instr → Option (SReg × BitVec 4 × Word64)
  | .mulhiS64 d a b => some (d, 0, ((s.sreg a).signExtend 128 * (s.sreg b).signExtend 128).extractLsb' 64 64)
  | .mulhiN64 d a b => some (d, 0, ((s.sreg a).setWidth 128 * (s.sreg b).setWidth 128).extractLsb' 64 64)
  | .divS64 d a b => some (d, 0, if s.sreg b = 0 then BitVec.allOnes 64 else BitVec.ofInt 64 ((s.sreg a).toInt.tdiv (s.sreg b).toInt))
  | .divN64 d a b => some (d, 0, if s.sreg b = 0 then BitVec.allOnes 64 else BitVec.ofNat 64 ((s.sreg a).toNat / (s.sreg b).toNat))
  | .remS64 d a b => some (d, 0, if s.sreg b = 0 then s.sreg a else BitVec.ofInt 64 ((s.sreg a).toInt.tmod (s.sreg b).toInt))
  | .remN64 d a b => some (d, 0, if s.sreg b = 0 then s.sreg a else BitVec.ofNat 64 ((s.sreg a).toNat % (s.sreg b).toNat))
  | .and d a b => some (d, 0, ofBits fun k => (s.sreg a).getLsbD k && (s.sreg b).getLsbD k)
  | .andImm d a imm => some (d, 0, s.sreg a &&& imm.signExtend 64)
  | .andLong d a la imm => some (d, la, s.sreg a &&& imm.signExtend 64)
  | .or d a b => some (d, 0, ofBits fun k => (s.sreg a).getLsbD k || (s.sreg b).getLsbD k)
  | .orImm d a imm => some (d, 0, s.sreg a ||| imm.signExtend 64)
  | .orLong d a la imm => some (d, la, s.sreg a ||| imm.signExtend 64)
  | .xor d a b => some (d, 0, ofBits fun k => (s.sreg a).getLsbD k != (s.sreg b).getLsbD k)
  | .xorImm d a imm => some (d, 0, s.sreg a ^^^ imm.signExtend 64)
  | .xorLong d a la imm => some (d, la, s.sreg a ^^^ imm.signExtend 64)
  | .andn d a b => some (d, 0, ofBits fun k => (s.sreg a).getLsbD k && !(s.sreg b).getLsbD k)
  | .shl d a b => some (d, 0, BitVec.ofNat 64 ((s.sreg a).toNat * 2 ^ min (s.sreg b).toNat 64))
  | .shlImm d a c => some (d, 0, BitVec.ofNat 64 ((s.sreg a).toNat * 2 ^ c.toNat))
  | .shr d a b => some (d, 0, BitVec.ofNat 64 ((s.sreg a).toNat / 2 ^ min (s.sreg b).toNat 64))
  | .shrImm d a c => some (d, 0, BitVec.ofNat 64 ((s.sreg a).toNat / 2 ^ c.toNat))
  | .sar d a b => some (d, 0, BitVec.ofInt 64 ((s.sreg a).toInt / 2 ^ min (s.sreg b).toNat 64))
  | .sarImm d a c => some (d, 0, BitVec.ofInt 64 ((s.sreg a).toInt / 2 ^ c.toNat))
  | .minS64 d a b => some (d, 0, BitVec.ofInt 64 (min (s.sreg a).toInt (s.sreg b).toInt))
  | .minS64Imm d a imm => some (d, 0, BitVec.ofInt 64 (min (s.sreg a).toInt imm.toInt))
  | .minN64 d a b => some (d, 0, BitVec.ofNat 64 (min (s.sreg a).toNat (s.sreg b).toNat))
  | .maxS64 d a b => some (d, 0, BitVec.ofInt 64 (max (s.sreg a).toInt (s.sreg b).toInt))
  | .maxS64Imm d a imm => some (d, 0, BitVec.ofInt 64 (max (s.sreg a).toInt imm.toInt))
  | .maxN64 d a b => some (d, 0, BitVec.ofNat 64 (max (s.sreg a).toNat (s.sreg b).toNat))
  | .cmpCc cc d a b => some (d, 0, if condRule cc (s.sreg a) (s.sreg b) then 1 else 0)
  | .mov d a => some (d, 0, s.sreg a)
  | .abs d a => some (d, 0, BitVec.ofNat 64 (s.sreg a).toInt.natAbs)
  | .clz d a => some (d, 0, BitVec.ofNat 64 (countBelow 64 fun k => decide ((s.sreg a).toNat < 2 ^ k)))
  | .popc d a => some (d, 0, BitVec.ofNat 64 (countBelow 64 (s.sreg a).getLsbD))
  | .brev d a => some (d, 0, ofBits fun k => (s.sreg a).getLsbD (63 - k))
  | .movi d imm => some (d, 0, imm.signExtend 64)
  | .moviLong d la imm => some (d, la, imm.signExtend 64)
  | .sel d a b la c => some (d, la, if s.sreg c = 0 then s.sreg b else s.sreg a)
  | .bfx signed d a la pos len => some (d, la, ofBits fun k =>
      if k < len.toNat then (s.sreg a).getLsbD (pos.toNat + k) else signed && (s.sreg a).getLsbD (pos.toNat + len.toNat - 1))
  | .bfi d a la pos len => some (d, la, ofBits fun k =>
      if pos.toNat ≤ k ∧ k < pos.toNat + len.toNat then (s.sreg a).getLsbD (k - pos.toNat) else (s.sreg d).getLsbD k)
  | .kpop d a => some (d, 0, BitVec.ofNat 64 (countBelow 32 (s.kreg a).getLsbD))
  | .kffs d a => some (d, 0, BitVec.ofNat 64 (countBelow 32 fun k => countBelow (k + 1) (s.kreg a).getLsbD == 0))
  | _ => none

/-- Mask instructions: destination and value (R88). -/
def maskRule (s : State) : Instr → Option (KReg × Word32)
  | .kand d a b => some (d, s.kreg a &&& s.kreg b)
  | .kor d a b => some (d, s.kreg a ||| s.kreg b)
  | .kxor d a b => some (d, s.kreg a ^^^ s.kreg b)
  | .kandn d a b => some (d, s.kreg a &&& ~~~(s.kreg b))
  | .knot d a => some (d, ~~~(s.kreg a))
  | .kmov d a => some (d, s.kreg a)
  | .kset d a => some (d, (s.sreg a).extractLsb' 0 32)
  | _ => none

end Sys2Proof.Claims

open Sys2Proof Sys2Proof.Machine Sys2Proof.Claims

/-! ### Scalar registers -/

/-- R78, R81: sums, differences and products wrap, or under a sat prefix clamp with the sat flag. -/
def Obligations.ScalarSumsAndProducts : Prop :=
  ∀ (s : State) (i : Instr) (d : SReg) (la : BitVec 4) (x : Int), exactRule s i = some (d, la, x) → s.openS d = false →
    exec i s = .next (passed s (
      if s.g.md.sat = false then scalarResult s.g la d (BitVec.ofInt 64 x) 0
      else if x < -(2 ^ 63) then scalarResult s.g la d (BitVec.ofInt 64 (-(2 ^ 63))) 32
      else if 2 ^ 63 ≤ x then scalarResult s.g la d (BitVec.ofInt 64 (2 ^ 63 - 1)) 32
      else scalarResult s.g la d (BitVec.ofInt 64 x) 0))

/-- R79, R80, and the values of R78, R82, R83 and R88: every scalar integer instruction but sums, differences and products writes the value of
its rule to its destination, which no lookahead window (R45) holds open. -/
def Obligations.ScalarIntegerValues : Prop :=
  ∀ (s : State) (i : Instr) (d : SReg) (la : BitVec 4) (x : Word64), i.wf = true → valueRule s i = some (d, la, x) → s.openS d = false →
    exec i s = .next (passed s (scalarResult s.g la d x 0))

/-! ### Floating point and masks from lanes -/

namespace Sys2Proof.Claims

/-- Scalar floating instructions (R84 to R87): destination, lookahead, and the result code with its flags. Sources are the low
bits of their registers (R76). -/
def floatRule (s : State) : Instr → Option (SReg × BitVec 4 × Nat × Word32)
  | .faddF64 d a b => some (d, 0, r (fAdd fp64 m z (w a) (w b)))
  | .faddF32 d a b => some (d, 0, r (fAdd fp32 m z (h a) (h b)))
  | .fmulF64 d a b => some (d, 0, r (fMul fp64 m z (w a) (w b)))
  | .fmulF32 d a b => some (d, 0, r (fMul fp32 m z (h a) (h b)))
  | .fmaF64 d a b la c => some (d, la, r (fFma fp64 m z (w a) (w b) (w c)))
  | .fmaF32 d a b la c => some (d, la, r (fFma fp32 m z (h a) (h b) (h c)))
  | .fcmpCcF64 cc d a b => some (d, 0, c (fCmp fp64 z cc (w a) (w b)))
  | .fcmpCcF32 cc d a b => some (d, 0, c (fCmp fp32 z cc (h a) (h b)))
  | .fcvtF32F64 d a => some (d, 0, r (fcvtTo s fp32 (fp64.input z (w a))))
  | .fcvtF64F32 d a => some (d, 0, r (fcvtTo s fp64 (fp32.input z (h a))))
  | .fcvtS64F64 d a => some (d, 0, r (toIntVal true 64 m s.g.md.sat 0 (fp64.input z (w a))))
  | .fcvtN64F64 d a => some (d, 0, r (toIntVal false 64 m s.g.md.sat 0 (fp64.input z (w a))))
  | .fcvtF64S64 d a => some (d, 0, r (fcvtTo s fp64 (intVal (s.sreg a).toInt)))
  | .fcvtF64N64 d a => some (d, 0, r (fcvtTo s fp64 (intVal (s.sreg a).toNat)))
  | .fcvtS64F32 d a => some (d, 0, r (toIntVal true 64 m s.g.md.sat 0 (fp32.input z (h a))))
  | .fcvtN64F32 d a => some (d, 0, r (toIntVal false 64 m s.g.md.sat 0 (fp32.input z (h a))))
  | .fcvtF32S64 d a => some (d, 0, r (fcvtTo s fp32 (intVal (s.sreg a).toInt)))
  | .fcvtF32N64 d a => some (d, 0, r (fcvtTo s fp32 (intVal (s.sreg a).toNat)))
  | _ => none
where
  m : Rnd := s.g.md.rnd
  z : Bool := s.g.md.ftz
  w (x : SReg) : Nat := (s.sreg x).toNat
  h (x : SReg) : Nat := (s.sreg x).toNat % 2 ^ 32
  r (x : FRes) : Nat × Word32 := (x.code, x.fl)
  c (x : Bool × Word32) : Nat × Word32 := (if x.1 then 1 else 0, x.2)

/-- Which fields of a modifier prefix an instruction accepts: rounding, saturation, flushing (R26). -/
def modifierRule : Instr → Option (Bool × Bool × Bool)
  | .faddF64 .. | .faddF32 .. | .fmulF64 .. | .fmulF32 .. | .fmaF64 .. | .fmaF32 .. | .fcvtF32F64 .. | .fcvtF64F32 ..
  | .fcvtF64S64 .. | .fcvtF64N64 .. | .fcvtF32S64 .. | .fcvtF32N64 .. => some (true, false, true)
  | .fcvtS64F64 .. | .fcvtN64F64 .. | .fcvtS64F32 .. | .fcvtN64F32 .. => some (true, true, true)
  | .fcmpCcF64 .. | .fcmpCcF32 .. => some (false, false, true)
  | .add .. | .addImm .. | .addLong .. | .sub .. | .mul .. | .mulImm .. => some (false, true, false)
  | _ => none

/-- Whether a modifier prefix is accepted: every field that is not zero. -/
def modifierOk (rnd : Rnd) (sat ftz : Bool) (i : Instr) : Prop :=
  ∃ r t z, modifierRule i = some (r, t, z) ∧ (rnd ≠ .rn → r = true) ∧ (sat = true → t = true) ∧ (ftz = true → z = true)

/-- Three-register instructions whose value is a plain function of two registers. -/
inductive Binary : (SReg → SReg → SReg → Instr) → (Word64 → Word64 → Word64) → Prop
  | add : Binary .add (· + ·)
  | sub : Binary .sub (· - ·)
  | mul : Binary .mul (· * ·)
  | and : Binary .and (· &&& ·)
  | or : Binary .or (· ||| ·)
  | xor : Binary .xor (· ^^^ ·)

/-- A scalar register file read and written with `s0` hard-wired (R75). -/
def readS (v : Vector Word64 64) (r : SReg) : Word64 := if r = 0 then 0 else v[r.toNat]
def writeS (v : Vector Word64 64) (r : SReg) (x : Word64) : Vector Word64 64 := if r = 0 then v else v.set r.toNat x

/-- The register file after the repetitions 0 to n - 1 of a three-register instruction (R91): repetition k steps each register
field k times. -/
def repeated (op : Word64 → Word64 → Word64) (d a b : SReg) (ds as bs : BitVec 2) (v : Vector Word64 64) : Nat → Vector Word64 64
  | 0 => v
  | n + 1 =>
    let u := repeated op d a b ds as bs v n
    let reg (r : SReg) (st : BitVec 2) : SReg := BitVec.ofNat 6 (r.toNat + n * st.toNat)
    writeS u (reg d ds) (op (readS u (reg a as)) (readS u (reg b bs)))

/-- Control transfers (R29). -/
def isTransferRule : Instr → Bool
  | .br .. | .bz .. | .bnz .. | .ball .. | .bCc .. | .call .. | .ret | .jmpi .. | .exit => true
  | _ => false

/-- The registers that an instruction under `rep` names in its fields d, a and b, where the field is one that the instruction reads or writes
as a register, and whether it accesses memory: the instructions that R26 lists for `rep`. -/
def repFields : Instr → Option (Option SReg × Option SReg × Option SReg × Bool)
  | .add d a b | .sub d a b | .mul d a b | .mulhiS64 d a b | .mulhiN64 d a b | .divS64 d a b | .divN64 d a b | .remS64 d a b
  | .remN64 d a b | .and d a b | .or d a b | .xor d a b | .andn d a b | .shl d a b | .shr d a b | .sar d a b | .minS64 d a b
  | .minN64 d a b | .maxS64 d a b | .maxN64 d a b | .faddF64 d a b | .faddF32 d a b | .fmulF64 d a b | .fmulF32 d a b | .cmpCc _ d a b
  | .fcmpCcF64 _ d a b | .fcmpCcF32 _ d a b | .sel d a b _ _ | .fmaF64 d a b _ _ | .fmaF32 d a b _ _ =>
    some (some d, some a, some b, false)
  | .addImm d a _ | .mulImm d a _ | .andImm d a _ | .orImm d a _ | .xorImm d a _ | .shlImm d a _ | .shrImm d a _ | .sarImm d a _
  | .minS64Imm d a _ | .maxS64Imm d a _ | .addLong d a _ _ | .andLong d a _ _ | .orLong d a _ _ | .xorLong d a _ _ | .mov d a | .abs d a
  | .clz d a | .popc d a | .brev d a | .fcvtF32F64 d a | .fcvtF64F32 d a | .fcvtS64F64 d a | .fcvtN64F64 d a | .fcvtF64S64 d a
  | .fcvtF64N64 d a | .fcvtS64F32 d a | .fcvtN64F32 d a | .fcvtF32S64 d a | .fcvtF32N64 d a | .bfx _ d a _ _ _ | .bfi d a _ _ _ =>
    some (some d, some a, none, false)
  | .movi d _ | .moviLong d _ _ => some (some d, none, none, false)
  | .ld _ d a _ | .ldLong _ d a _ _ | .st _ d a _ | .stLong _ d a _ _ | .ldsp _ d a _ | .ldspLong _ d a _ _ | .stsp _ d a _
  | .stspLong _ d a _ _ => some (some d, some a, none, true)
  | _ => none

/-- An instruction under `rep` with other registers in its fields d, a and b; other fields are not stepped (R91). -/
def withFields (x y z : SReg) : Instr → Instr
  | .add _ _ _ => .add x y z | .sub _ _ _ => .sub x y z | .mul _ _ _ => .mul x y z | .mulhiS64 _ _ _ => .mulhiS64 x y z
  | .mulhiN64 _ _ _ => .mulhiN64 x y z | .divS64 _ _ _ => .divS64 x y z | .divN64 _ _ _ => .divN64 x y z | .remS64 _ _ _ => .remS64 x y z
  | .remN64 _ _ _ => .remN64 x y z | .and _ _ _ => .and x y z | .or _ _ _ => .or x y z | .xor _ _ _ => .xor x y z
  | .andn _ _ _ => .andn x y z | .shl _ _ _ => .shl x y z | .shr _ _ _ => .shr x y z | .sar _ _ _ => .sar x y z
  | .minS64 _ _ _ => .minS64 x y z | .minN64 _ _ _ => .minN64 x y z | .maxS64 _ _ _ => .maxS64 x y z | .maxN64 _ _ _ => .maxN64 x y z
  | .faddF64 _ _ _ => .faddF64 x y z | .faddF32 _ _ _ => .faddF32 x y z | .fmulF64 _ _ _ => .fmulF64 x y z
  | .fmulF32 _ _ _ => .fmulF32 x y z | .cmpCc cc _ _ _ => .cmpCc cc x y z | .fcmpCcF64 cc _ _ _ => .fcmpCcF64 cc x y z
  | .fcmpCcF32 cc _ _ _ => .fcmpCcF32 cc x y z | .sel _ _ _ la c => .sel x y z la c | .fmaF64 _ _ _ la c => .fmaF64 x y z la c
  | .fmaF32 _ _ _ la c => .fmaF32 x y z la c | .addImm _ _ imm => .addImm x y imm | .mulImm _ _ imm => .mulImm x y imm
  | .andImm _ _ imm => .andImm x y imm | .orImm _ _ imm => .orImm x y imm | .xorImm _ _ imm => .xorImm x y imm
  | .shlImm _ _ imm => .shlImm x y imm | .shrImm _ _ imm => .shrImm x y imm | .sarImm _ _ imm => .sarImm x y imm
  | .minS64Imm _ _ imm => .minS64Imm x y imm | .maxS64Imm _ _ imm => .maxS64Imm x y imm | .addLong _ _ la imm => .addLong x y la imm
  | .andLong _ _ la imm => .andLong x y la imm | .orLong _ _ la imm => .orLong x y la imm | .xorLong _ _ la imm => .xorLong x y la imm
  | .mov _ _ => .mov x y | .abs _ _ => .abs x y | .clz _ _ => .clz x y | .popc _ _ => .popc x y | .brev _ _ => .brev x y
  | .fcvtF32F64 _ _ => .fcvtF32F64 x y | .fcvtF64F32 _ _ => .fcvtF64F32 x y | .fcvtS64F64 _ _ => .fcvtS64F64 x y
  | .fcvtN64F64 _ _ => .fcvtN64F64 x y | .fcvtF64S64 _ _ => .fcvtF64S64 x y | .fcvtF64N64 _ _ => .fcvtF64N64 x y
  | .fcvtS64F32 _ _ => .fcvtS64F32 x y | .fcvtN64F32 _ _ => .fcvtN64F32 x y | .fcvtF32S64 _ _ => .fcvtF32S64 x y
  | .fcvtF32N64 _ _ => .fcvtF32N64 x y | .bfx sg _ _ la p n => .bfx sg x y la p n | .bfi _ _ la p n => .bfi x y la p n
  | .movi _ imm => .movi x imm | .moviLong _ la imm => .moviLong x la imm | .ld w _ _ off => .ld w x y off
  | .ldLong w _ _ la off => .ldLong w x y la off | .st w _ _ off => .st w x y off | .stLong w _ _ la off => .stLong w x y la off
  | .ldsp w _ _ off => .ldsp w x y off | .ldspLong w _ _ la off => .ldspLong w x y la off | .stsp w _ _ off => .stsp w x y off
  | .stspLong w _ _ la off => .stspLong w x y la off
  | i => i

/-- The fields of a `rep` prefix: cnt, dstep, astep, bstep, astride. -/
abbrev RepRule := BitVec 8 × BitVec 2 × BitVec 2 × BitVec 2 × BitVec 12

/-- A step keeps its field: it is zero where the field is no register, and else no repetition names a register above 63 (R27). -/
def stepFits (cnt : BitVec 8) (step : BitVec 2) (r : Option SReg) : Prop :=
  match r with
  | some x => x.toNat + cnt.toNat * step.toNat ≤ 63
  | none => step = 0

/-- The limits of `rep` before an instruction of some fields (R27). -/
def repFits (r : RepRule) (f : Option SReg × Option SReg × Option SReg × Bool) : Prop :=
  stepFits r.1 r.2.1 f.1 ∧ stepFits r.1 r.2.2.1 f.2.1 ∧ stepFits r.1 r.2.2.2.1 f.2.2.1 ∧ (f.2.2.2 = false → r.2.2.2.2 = 0)

/-- The instruction of repetition k (R91). -/
def repetition (r : RepRule) (k : Nat) (i : Instr) : Instr :=
  let reg (x : Option SReg) (step : BitVec 2) : SReg := x.getD 0 + BitVec.ofNat 6 (k * step.toNat)
  match repFields i with
  | some (d, a, b, _) => withFields (reg d r.2.1) (reg a r.2.2.1) (reg b r.2.2.2.1) i
  | none => i

def isPrefix : Instr → Bool
  | .modifierPrefix .. | .repPrefix .. => true
  | _ => false

/-- A prefix sequence: its modifiers, its `rep` with the place of the `rep` word in it, how many words it has, and its instruction (R25). -/
def prefixSeq : Instr → Option (Option (Rnd × Bool × Bool) × Option (RepRule × Nat) × Nat × Instr)
  | .modifierPrefix rnd sat ftz i => match i with
    | .repPrefix c ds as bs st k => if isPrefix k then none else some (some (rnd, sat, ftz), some ((c, ds, as, bs, st), 1), 2, k)
    | k => if isPrefix k then none else some (some (rnd, sat, ftz), none, 1, k)
  | .repPrefix c ds as bs st i => match i with
    | .modifierPrefix rnd sat ftz k => if isPrefix k then none else some (some (rnd, sat, ftz), some ((c, ds, as, bs, st), 0), 2, k)
    | k => if isPrefix k then none else some (none, some ((c, ds, as, bs, st), 0), 1, k)
  | _ => none

/-- The modifiers of a sequence are accepted: it has none, or every field that is not zero is. -/
def modsFit (m : Option (Rnd × Bool × Bool)) (i : Instr) : Prop :=
  match m with
  | some (rnd, sat, ftz) => modifierOk rnd sat ftz i
  | none => True

/-- The focus in which repetition k executes: the modifiers, and for memory forms k times the stride (R91). -/
def atRepetition (s : State) (m : Option (Rnd × Bool × Bool)) (r : RepRule) (k : Nat) : State :=
  { s with g := { s.g with md := (match m with | some (rnd, sat, ftz) => ⟨rnd, sat, ftz⟩ | none => {}),
                           repOff := r.2.2.2.2.signExtend 64 * BitVec.ofNat 64 k, repped := true } }

/-- The group after repetition k of an instruction that goes on to the next one. -/
def toNext (s t : State) : State :=
  { t with g := { t.g with repi := s.g.repi + 1, spc := s.g.insAddr, passed := true, mid := true }, draw := t.draw + 1 }

end Sys2Proof.Claims

/-- R84 to R87 with R76 and R68: result code, zero above its width, and the flags ORed into `%fpflags`. -/
def Obligations.ScalarFloatResults : Prop :=
  ∀ (s : State) (i : Instr) (d : SReg) (la : BitVec 4) (x : Nat) (fl : Word32), floatRule s i = some (d, la, x, fl) → s.openS d = false →
    exec i s = .next (passed s (scalarResult s.g la d (BitVec.ofNat 64 x) (fl &&& 0x7F)))

namespace Sys2Proof.Claims

/-- An exact magnitude: m · 2^e. -/
abbrev Mag := Nat × Int

/-- A magnitude in units of 2^q, for a q that is not above its exponent. -/
def inUnits (q : Int) (x : Mag) : Nat := x.1 * 2 ^ (x.2 - q).toNat
/-- The order of magnitudes. -/
abbrev magLe (x y : Mag) : Prop := inUnits (min x.2 y.2) x ≤ inUnits (min x.2 y.2) y
abbrev magLt (x y : Mag) : Prop := inUnits (min x.2 y.2) x < inUnits (min x.2 y.2) y

/-- Point c of a format's grid (R57, R61): the magnitude of code c, and above the greatest finite code the continuation with the format's
own precision. -/
def gridAt (t : Fmt) (c : Nat) : Mag :=
  (if c / 2 ^ t.f = 0 then c else 2 ^ t.f + c % 2 ^ t.f, (max (c / 2 ^ t.f) 1 : Nat) - (t.bias : Int) - t.f)

/-- Whether a mode takes a magnitude between two neighbours to the upper one (R61, R62); `odd` says that the lower one's last bit is 1. -/
def takesUpper (mode : Rnd) (neg : Bool) (draw : Nat) (x lo hi : Mag) (odd : Bool) : Bool :=
  let q := min x.2 (min lo.2 hi.2)
  let v := inUnits q x
  let l := inUnits q lo
  let h := inUnits q hi
  decide (l < v) && match mode with
    | .rn => decide (l + h < 2 * v) || (decide (l + h = 2 * v) && odd)
    | .rz => false
    | .rd => neg
    | .ru => !neg
    | .ra => decide (l + h ≤ 2 * v)
    | .rs => decide (draw < (v - l) * 2 ^ 16 / (h - l))

/-- What rounding of (-1)^neg · x delivers, where c is the grid point at or below x (R55, R61 to R63, R68). -/
def roundedRule (t : Fmt) (mode : Rnd) (sat ftz : Bool) (draw : Nat) (neg : Bool) (x : Mag) (c : Nat) : FRes :=
  let code (n : Nat) : Nat := (if neg then 2 ^ (t.width - 1) else 0) + n
  let up := takesUpper mode neg draw x (gridAt t c) (gridAt t (c + 1)) (c % 2 == 1)
  let n := if up then c + 1 else c
  let exact := decide (magLe x (gridAt t c))
  let nx : Word32 := if exact then 0 else 16
  let far := match mode with
    | .rn | .ra | .rs => true
    | .rz => false
    | .rd => neg
    | .ru => !neg
  -- the value rounded with the precision of the format and an unbounded exponent stays below the least normal one
  let e := 1 - (t.bias : Int) - t.f
  let tiny := decide (¬ exact) && match mode with
    | .rs => decide (n < 2 ^ t.f)
    | _ => decide (magLt x (2 ^ t.f, e)) && !takesUpper mode neg draw x (2 ^ (t.f + 1) - 1, e - 1) (2 ^ (t.f + 1), e - 1) true
  if t.maxMag < n then
    if sat || (t.infMag.isNone && !t.hasNan) then ⟨code t.maxMag, 32 + 16⟩
    else if far then
      match t.infMag with
      | some i => ⟨code i, 4 + 16⟩
      | none => ⟨t.nan, 1 + 4 + 16⟩
    else ⟨code t.maxMag, 4 + 16⟩
  else if ftz && decide (0 < n) && decide (n < 2 ^ t.f) then ⟨code 0, 8 + 16⟩
  else ⟨code n, nx + (if tiny then 8 else 0)⟩

/-- A magnitude lies at grid point c, or between it and the next. -/
def between (t : Fmt) (x : Mag) (c : Nat) : Prop := magLe (gridAt t c) x ∧ magLt x (gridAt t (c + 1))

/-- The binary formats of R54 and R57 that have signs and fractions. -/
def formats : List Fmt := [fp64, fp32, fp16, bf16, fe4m3, fe5m2, fe2m1]

/-- A signed magnitude as a whole number of units of 2^q. -/
def signedUnits (q : Int) (neg : Bool) (x : Mag) : Int := if neg then -(inUnits q x : Int) else inUnits q x

/-- The sum of two signed values is rounded once; an exact zero sum of opposite signs is +0, under rounding down -0 (R55, R85, R109). -/
def sumRule (t : Fmt) (mode : Rnd) (ftz : Bool) (na : Bool) (a : Mag) (nb : Bool) (b : Mag) (r : FRes) : Prop :=
  let q := min a.2 b.2
  let v := signedUnits q na a + signedUnits q nb b
  if v = 0 then r = ⟨if (if na = nb then na else decide (mode = .rd)) then 2 ^ (t.width - 1) else 0, 0⟩
  else ∀ c, between t (v.natAbs, q) c → r = roundedRule t mode false ftz 0 (decide (v < 0)) (v.natAbs, q) c

end Sys2Proof.Claims

/-- R61: a value that a format holds is not changed by rounding to that format, under any mode, and raises no flag. R55, R61 to R63, R68: any
other value is rounded to one of its two neighbours on the grid, as the mode says, with the inexact flag; one whose rounded magnitude lies
above the greatest finite one gives the overflow result and flags of its format, mode and saturation; a tiny one sets the underflow flag, and
under flushing a subnormal result is zero with both. That `.rs` judges tininess on the delivered code is the model's reading (log entry 25).
R85, R109: `fadd`, `fmul` and `fma` of finite values round their exact result once. -/
def Obligations.RoundingToFormats : Prop :=
  (∀ (t : Fmt) (mode : Rnd) (sat : Bool) (draw c : Nat) (neg : Bool) (m : Nat) (e : Int),
    t ∈ formats → c < 2 ^ t.width → t.decode c = .fin neg m e → roundTo t mode sat false draw neg m e = ⟨c, 0⟩) ∧
  (∀ (t : Fmt) (mode : Rnd) (sat ftz : Bool) (draw : Nat) (neg : Bool) (m : Nat) (e : Int) (c : Nat), t ∈ formats → between t (m, e) c →
    roundTo t mode sat ftz draw neg m e = roundedRule t mode sat ftz draw neg (m, e) c) ∧
  (∀ (t : Fmt) (mode : Rnd) (ftz : Bool) (a b c : Nat) (na nb nc : Bool) (ma mb mc : Nat) (ea eb ec : Int), t ∈ [fp64, fp32, fp16, bf16] → mode ≠ .rs →
    t.input ftz a = .fin na ma ea → t.input ftz b = .fin nb mb eb → t.input ftz c = .fin nc mc ec →
    sumRule t mode ftz na (ma, ea) nb (mb, eb) (fAdd t mode ftz a b) ∧
    (∀ k, between t (ma * mb, ea + eb) k → fMul t mode ftz a b = roundedRule t mode false ftz 0 (na != nb) (ma * mb, ea + eb) k) ∧
    sumRule t mode ftz (na != nb) (ma * mb, ea + eb) nc (mc, ec) (fFma t mode ftz a b c))

/-- R88, R89: the mask instructions write their masks, and `kball`, once no lane word is queued, the ballot of its predicate's lanes under the
mask. -/
def Obligations.MaskInstructions : Prop :=
  (∀ (s : State) (i : Instr) (d : KReg) (x : Word32), maskRule s i = some (d, x) →
    exec i s = .next (passed s { s.g with k := s.g.k.set d.toNat x })) ∧
  (∀ (s : State) (d b : KReg) (p : PReg), s.g.lq = [] → s.hasReqs = false → p.toNat < 12 →
    exec (.kball d p b) s = .next (passed s { s.g with k := s.g.k.set d.toNat (s.g.p.toList.getD p.toNat 0 &&& s.kreg b) }))

/-- R23 to R26: an accepted modifier prefix gives its instruction the rounding, saturation and flushing, and the pair completes. -/
def Obligations.ModifierPrefixApplies : Prop :=
  ∀ (s : State) (rnd : Rnd) (sat ftz : Bool) (i : Instr), modifierOk rnd sat ftz i →
    ∃ t, exec (.modifierPrefix rnd sat ftz i) s = .next t ∧ exec i { s with g := { s.g with md := ⟨rnd, sat, ftz⟩ } } = .next t

/-- R27, R91, R92: `rep` before a three-register instruction runs it cnt + 1 times, stepping its registers, and ends with `%repi` at 0. Before
every instruction that accepts it, with or without a modifier prefix, the repetition that `%repi` numbers executes the instruction with its
registers stepped and its address moved by as many strides; one that completes ends the `rep` with `%repi` at 0 where it is the last, and
else goes on to the next (an access may end the step between, being one of its own in S), and one that waits, parks or is held leaves
the group at the instruction. -/
def Obligations.RepPrefixRepeats : Prop :=
  (∀ (s : State) (mk : SReg → SReg → SReg → Instr) (op : Word64 → Word64 → Word64) (d a b : SReg) (cnt : BitVec 8) (ds as bs : BitVec 2),
    Binary mk op → d.toNat + cnt.toNat * ds.toNat ≤ 63 → a.toNat + cnt.toNat * as.toNat ≤ 63 → b.toNat + cnt.toNat * bs.toNat ≤ 63 →
    s.g.repi = 0 → s.g.winS = [] → s.g.ahead.back = none → s.c.ops = [] → s.reqs = [] → 1 ≤ s.g.insLen → s.g.insLen ≤ 4 →
    ∃ t, exec (.repPrefix cnt ds as bs 0 (mk d a b)) s = .next t ∧
      t.g.s = repeated op d a b ds as bs s.g.s (cnt.toNat + 1) ∧ t.g.repi = 0 ∧
      t.g.spc = s.g.insAddr + BitVec.ofNat 64 (4 * s.g.insLen) ∧ t.g.fpflags = s.g.fpflags ∧ t.g.v = s.g.v ∧ t.g.p = s.g.p ∧ t.g.k = s.g.k ∧
      t.b = s.b ∧ t.c = s.c ∧ t.j = s.j ∧ ∀ x, t.mem.byte x = s.mem.byte x) ∧
  (∀ (s t : State) (p i : Instr) (m : Option (Rnd × Bool × Bool)) (r : RepRule) (at_ words : Nat) (f : Option SReg × Option SReg × Option SReg × Bool),
    prefixSeq p = some (m, some (r, at_), words, i) → modsFit m i → repFields i = some f → repFits r f → s.c.ops = [] → s.reqs = [] →
    s.g.repi.toNat ≤ r.1.toNat → exec (repetition r s.g.repi.toNat i) (atRepetition s m r s.g.repi.toNat) = .next t → t.g.insAddr = s.g.insAddr →
    (t.g.spc ≠ s.g.insAddr → s.g.repi.toNat = r.1.toNat → exec p s = .next { t with g := { t.g with repi := 0 } }) ∧
    (t.g.spc ≠ s.g.insAddr → s.g.repi.toNat < r.1.toNat →
      exec p s = exec p (toNext s t) ∨ (f.2.2.2 = true ∧ exec p s = .next (toNext s t))) ∧
    (t.g.spc = s.g.insAddr → exec p s = .next (
      if t.g.park.isSome ∨ t.g.hold ≠ .none then { t with g := { t.g with mid := false } } else t)))

/-- R26, R27, R29: a prefix sequence before a transfer is the precise OrphanPrefix trap (0x02), naming the transfer; before any other
instruction that does not accept one of its prefixes or a field of its modifier that is not zero it is the precise IllegalInstruction trap
(0x01) at its first word, and a `rep` whose step or stride its instruction cannot take is that trap at the `rep` word. None has another
effect. -/
def Obligations.PrefixRefusals : Prop :=
  ∀ (s : State) (p i : Instr) (m : Option (Rnd × Bool × Bool)) (r : Option (RepRule × Nat)) (words : Nat), prefixSeq p = some (m, r, words, i) →
    (isTransferRule i = true → exec p s = .next (s.takeTrap 0x02 { waddr := s.g.insAddr + BitVec.ofNat 64 (4 * words) })) ∧
    (isTransferRule i = false → (¬ modsFit m i ∨ (r.isSome = true ∧ repFields i = none)) →
      exec p s = .next (s.takeTrap 0x01 { waddr := s.g.insAddr })) ∧
    (∀ f x at_, isTransferRule i = false → modsFit m i → r = some (x, at_) → repFields i = some f → ¬ repFits x f →
      exec p s = .next (s.takeTrap 0x01 { waddr := s.g.insAddr + BitVec.ofNat 64 (4 * at_) }))

/-! ### Traps -/

namespace Sys2Proof.Claims

/-- What a precise trap leaves alone beside its group: all that is no record of it. A debug session that holds the room has a record in its
buffer (R409); without one memory, its pool copy and the core are as they were. -/
def trapKeeps (s t : State) : Prop :=
  t.b = s.b ∧ t.j = s.j ∧ t.c = { s.c with clock := t.c.clock } ∧ t.groups = s.groups ∧ t.bands = s.bands ∧ t.journeys = s.journeys ∧
    t.cores = s.cores ∧ t.reqs = s.reqs ∧ t.poison = s.poison ∧
    (s.sessionOf s.g.room = none → t.c = s.c ∧ t.mem = s.mem ∧ t.pool = s.pool)

end Sys2Proof.Claims

/-- R7, R48, R98, R398: a precise trap whose group's earlier instructions have completed adds one 128-byte record, with its code, the precise
and held bits and the place of the group, to a room's fault queue that has room, and holds the group at the instruction; the group's
registers and its lane stream stay as they are, and no other group, band, request, byte of scratchpad or poison changes. A session that
holds the room has a record of it written to its buffer, with the core's clock (R409); without one no memory and no part of the core
changes. R48: while something earlier has neither completed nor parked the trap waits: nothing but the wait code changes. -/
def Obligations.TrapRecordsAndHolds : Prop :=
  (∀ (s : State) (code : Nat) (a : TrapArg) (m : Room), s.doneOrParked = true → s.room? s.g.room = some m → m.faultq.length < 1024 →
    code < 256 → s.g.journey < 256 → s.g.core < 256 → s.g.slot < 64 → s.g.band < 256 → a.info < 2 ^ 32 → a.access < 8 →
    ∃ r : List Byte, r.length = 128 ∧ fieldAt r 0 1 = code ∧ bitsOf (fieldAt r 1 1) 0 3 = 3 ∧ fieldAt r 2 1 = s.g.journey ∧
      fieldAt r 3 1 = s.g.core ∧ fieldAt r 4 1 = s.g.slot ∧ fieldAt r 5 1 = s.g.band ∧ fieldAt r 16 8 = s.g.insAddr.toNat ∧
      fieldAt r 24 8 = a.waddr.toNat ∧ fieldAt r 48 8 = a.vaddr.toNat ∧ fieldAt r 64 8 = s.g.span0.toNat ∧
      fieldAt r 72 4 = s.g.round.toNat ∧ fieldAt r 76 4 = a.info ∧
      ((s.takeTrap code a).room? s.g.room).map (·.faultq) = some (m.faultq ++ [r]) ∧
      (s.takeTrap code a).g = { s.g with hold := .trap a.next, spc := s.g.insAddr, wait := 7 } ∧
      trapKeeps s (s.takeTrap code a)) ∧
  (∀ (s : State) (code : Nat) (a : TrapArg), s.doneOrParked = false →
    s.takeTrap code a = { s with g := { s.g with wait := 3 } })

/-- R98: `trap` is the precise UserTrap (0x06): one record, with the code in its info field, is added to the fault queue, the group is held at
the `trap`, and nothing else of the group, its band, core or journey changes, nor another group, band, core, journey or request; where no
session holds the room, no byte of memory changes either (one that holds it has its trace record, R409). A resume goes on at the
instruction after the `trap`, with every register as it was. -/
def Obligations.UserTrap : Prop :=
  ∀ (s : State) (code : BitVec 12) (m : Room), s.doneOrParked = true → s.room? s.g.room = some m → m.faultq.length < 1024 →
    s.g.journey < 256 → s.g.core < 256 → s.g.slot < 64 → s.g.band < 256 → s.g.park = none → s.g.lpark = none →
    ∃ t r, exec (.trap code) s = .next t ∧ r.length = 128 ∧ fieldAt r 0 1 = 0x06 ∧ bitsOf (fieldAt r 1 1) 0 3 = 3 ∧
      fieldAt r 16 8 = s.g.insAddr.toNat ∧ fieldAt r 76 4 = code.toNat ∧ (t.room? s.g.room).map (·.faultq) = some (m.faultq ++ [r]) ∧
      t.g = { s.g with hold := .trap true, spc := s.g.insAddr, wait := 7 } ∧ trapKeeps s t ∧
      t.g.resume = { s.g with hold := .none, wait := 1, passed := false, spc := s.g.insAddr + BitVec.ofNat 64 (4 * s.g.insLen) } ∧
      decodeScalar [BitVec.ofNat 32 (0x19000000 + code.toNat)] = .ok (.trap code) 1

/-- R98, R345: a resume frees a group held by a trap: after `trap` it goes on behind the instruction, after every other trap at it. R98, R99,
R49: `trap` waits for everything earlier, `brk` is a no-op where no session holds the room, and a word that is no instruction takes
IllegalInstruction (0x01) naming the word. -/
def Obligations.TrapInstructions : Prop :=
  (∀ (g : Group) (next : Bool), g.hold = .trap next → g.park = none → g.lpark = none →
    g.resume = { g with hold := .none, wait := 1, passed := (if next then false else g.passed),
                        spc := (if next then g.insAddr + BitVec.ofNat 64 (4 * g.insLen) else g.spc) }) ∧
  ((∀ (s : State) (code : BitVec 12), exec (.trap code) s = .next (s.takeTrap 0x06 { info := code.toNat, next := true })) ∧
  (∀ (s : State) (code : BitVec 12), s.sessionOf s.g.room = none → exec (.brk code) s = .next (passed s s.g)) ∧
  (∀ (s : State) (w : Word64), exec (.illegalInstruction w) s = .next (s.takeTrap 0x01 { waddr := s.g.insAddr + w })))

/-! ### Scalar memory -/

namespace Sys2Proof.Claims

/-- Bytes of a scalar width, and whether a load of it sign-extends (R34). -/
def widthBytes : SWidth → Nat
  | .n8 | .s8 => 1
  | .n16 | .s16 => 2
  | .n32 | .s32 => 4
  | .b64 => 8
def widthSigned : SWidth → Bool
  | .s8 | .s16 | .s32 => true
  | _ => false

/-- The little-endian number of a run of bytes given by address (R5). -/
def leNat (byte : Nat → Byte) (a : Nat) : Nat → Nat
  | 0 => 0
  | n + 1 => (byte a).toNat + 256 * leNat byte (a + 1) n

/-- A loaded value (R95): sign- or zero-extended from its width. -/
def loaded (w : SWidth) (byte : Nat → Byte) (a : Nat) : Word64 :=
  let x := leNat byte a (widthBytes w)
  if widthSigned w && (BitVec.ofNat (8 * widthBytes w) x).msb then BitVec.ofInt 64 ((x : Int) - 2 ^ (8 * widthBytes w)) else BitVec.ofNat 64 x

/-- The address forms of scalar memory (R94, R95): base and offset of a short and of a long form. A repetition adds its strides (R91). -/
def shortAddr (s : State) (w : SWidth) (a : SReg) (off : BitVec 9) : Word64 := s.sreg a + BitVec.ofInt 64 (off.toInt * widthBytes w)
def longAddr (s : State) (a : SReg) (off : Word32) : Word64 := s.sreg a + off.signExtend 64

/-- An access path can take one more access, and no parked access of this instruction holds a count (R179). -/
def mayCount (s : State) (p : Path) : Prop := s.g.scAcc = none ∧ s.pathCount p < 63

/-- No engine write that no group has acquired, and no poison, lies in a run of pool bytes. -/
def quiet (s : State) (pa n : Nat) : Prop :=
  (∀ u ∈ s.j.unacq, u.addr < pa ∨ pa + n ≤ u.addr) ∧ s.poisoned pa n = false

/-- Scalar loads: width, destination, lookahead and effective address. -/
def loadRule (s : State) : Instr → Option (SWidth × SReg × BitVec 4 × Word64)
  | .ld w d a off => some (w, d, 0, shortAddr s w a off + s.g.repOff)
  | .ldLong w d a la off => some (w, d, la, longAddr s a off + s.g.repOff)
  | _ => none
def storeRule (s : State) : Instr → Option (SWidth × SReg × Word64)
  | .st w d a off => some (w, d, shortAddr s w a off + s.g.repOff)
  | .stLong w d a _ off => some (w, d, longAddr s a off + s.g.repOff)
  | _ => none
def localLoadRule (s : State) : Instr → Option (SWidth × SReg × BitVec 4 × Word64)
  | .ldsp w d a off => some (w, d, 0, shortAddr s w a off + s.g.repOff)
  | .ldspLong w d a la off => some (w, d, la, longAddr s a off + s.g.repOff)
  | _ => none
def localStoreRule (s : State) : Instr → Option (SWidth × SReg × Word64)
  | .stsp w d a off => some (w, d, shortAddr s w a off + s.g.repOff)
  | .stspLong w d a _ off => some (w, d, longAddr s a off + s.g.repOff)
  | _ => none

/-- A byte of the scratchpad is plain: no bound iterator block and no ring in use holds it, and no unacquired write (R203, R271, R323). -/
def plainSp (s : State) (off n : Nat) : Prop :=
  s.b.dstacks = [] ∧ s.b.rings = [] ∧ ∀ u ∈ s.b.unacq, u.addr < off ∨ off + n ≤ u.addr

/-- What a group keeps when a scalar instruction passes: all registers but the scalar ones. -/
def keepsLaneSide (s t : State) : Prop :=
  t.g.v = s.g.v ∧ t.g.p = s.g.p ∧ t.g.k = s.g.k ∧ t.g.f = s.g.f ∧ t.g.lq = s.g.lq ∧ t.g.fpflags = s.g.fpflags ∧ t.g.llink = s.g.llink ∧
    t.g.lpc = s.g.lpc ∧ t.g.repi = s.g.repi ∧ t.g.latch = s.g.latch ∧ t.g.hold = s.g.hold

end Sys2Proof.Claims

/-- R95, R161: an aligned load, through a mapping or from scratchpad within the band's allocation, reads its bytes little-endian, extends them,
and writes its register; nothing else of the group's registers and no memory changes. -/
def Obligations.ScalarLoads : Prop :=
  (∀ (s : State) (i : Instr) (w : SWidth) (d : SReg) (la : BitVec 4) (x : Word64) (pa : Nat), loadRule s i = some (w, d, la, x) →
    x.toNat % widthBytes w = 0 → mayCount s .ld → (s.xlate none needR x).2 = .pool pa → quiet s pa (widthBytes w) →
    s.openS d = false →
    ∃ t, exec i s = .next t ∧ t.g.s = (if d = 0 then s.g.s else s.g.s.set d.toNat (loaded w s.mem.byte pa)) ∧
      t.g.spc = nextPc s ∧ keepsLaneSide s t ∧ t.b = s.b ∧ (∀ a, t.mem.byte a = s.mem.byte a)) ∧
  (∀ (s : State) (i : Instr) (w : SWidth) (d : SReg) (la : BitVec 4) (x : Word64), localLoadRule s i = some (w, d, la, x) →
    x.toNat % widthBytes w = 0 → x.toNat + widthBytes w ≤ s.b.handler.allocation → s.b.handler.allocation < 2 ^ 32 →
    mayCount s .ld → plainSp s x.toNat (widthBytes w) → s.openS d = false →
    ∃ t, exec i s = .next t ∧ t.g.s = (if d = 0 then s.g.s else s.g.s.set d.toNat (loaded w s.b.spm.byte x.toNat)) ∧
      t.g.spc = nextPc s ∧ keepsLaneSide s t ∧ t.b = s.b ∧ (∀ a, t.mem.byte a = s.mem.byte a))

/-- R95, R175: an aligned store writes the register's low bytes, little-endian, at the translated address, or at its offset in the allocation,
and no other byte and no register; a scratchpad store also enters the write queue that the engines see behind. -/
def Obligations.ScalarStores : Prop :=
  (∀ (s : State) (i : Instr) (w : SWidth) (d : SReg) (x : Word64) (pa : Nat), i.wf = true → storeRule s i = some (w, d, x) →
    x.toNat % widthBytes w = 0 → mayCount s .st → (s.xlate none needW x).2 = .pool pa → quiet s pa (widthBytes w) →
    Memory.wf s.mem = true →
    ∃ t, exec i s = .next t ∧ (∀ k, k < widthBytes w → t.mem.byte (pa + k) = (s.sreg d).extractLsb' (8 * k) 8) ∧
      (∀ a, a < pa ∨ pa + widthBytes w ≤ a → t.mem.byte a = s.mem.byte a) ∧
      t.g.s = s.g.s ∧ t.g.spc = nextPc s ∧ keepsLaneSide s t ∧ t.b = s.b) ∧
  (∀ (s : State) (i : Instr) (w : SWidth) (d : SReg) (x : Word64), i.wf = true → localStoreRule s i = some (w, d, x) →
    x.toNat % widthBytes w = 0 → x.toNat + widthBytes w ≤ s.b.handler.allocation → s.b.handler.allocation < 2 ^ 32 →
    mayCount s .st → plainSp s x.toNat (widthBytes w) → Memory.wf s.b.spm = true →
    ∃ t, exec i s = .next t ∧ (∀ k, k < widthBytes w → t.b.spm.byte (x.toNat + k) = (s.sreg d).extractLsb' (8 * k) 8) ∧
      (∀ a, a < x.toNat ∨ x.toNat + widthBytes w ≤ a → t.b.spm.byte a = s.b.spm.byte a) ∧ t.b.wide = s.b.wide ∧
      t.b.wq.length = s.b.wq.length + widthBytes w ∧ t.g.s = s.g.s ∧ t.g.spc = nextPc s ∧
      keepsLaneSide s t ∧ (∀ a, t.mem.byte a = s.mem.byte a))

/-- R95, R96: a misaligned scalar access is the precise trap 0x08, and a scratchpad access outside the allocation the precise trap 0x09; the
access does not happen. That `waddr` of their record is zero is the model's reading (log entry 6). -/
def Obligations.ScalarAccessTraps : Prop :=
  (∀ (s : State) (i : Instr) (w : SWidth) (d : SReg) (la : BitVec 4) (x : Word64),
    (loadRule s i = some (w, d, la, x) ∨ localLoadRule s i = some (w, d, la, x)) → x.toNat % widthBytes w ≠ 0 →
    exec i s = .next (s.takeTrap 0x08 { vaddr := x })) ∧
  (∀ (s : State) (i : Instr) (w : SWidth) (d : SReg) (x : Word64),
    (storeRule s i = some (w, d, x) ∨ localStoreRule s i = some (w, d, x)) → x.toNat % widthBytes w ≠ 0 →
    exec i s = .next (s.takeTrap 0x08 { vaddr := x, access := 1 })) ∧
  (∀ (s : State) (i : Instr) (w : SWidth) (d : SReg) (la : BitVec 4) (x : Word64), localLoadRule s i = some (w, d, la, x) →
    x.toNat % widthBytes w = 0 → (x.toInt < 0 ∨ (s.b.handler.allocation : Int) < x.toInt + widthBytes w) →
    exec i s = .next (s.takeTrap 0x09 { vaddr := x })) ∧
  (∀ (s : State) (i : Instr) (w : SWidth) (d : SReg) (x : Word64), localStoreRule s i = some (w, d, x) →
    x.toNat % widthBytes w = 0 → (x.toInt < 0 ∨ (s.b.handler.allocation : Int) < x.toInt + widthBytes w) →
    exec i s = .next (s.takeTrap 0x09 { vaddr := x, access := 1 }))

/-! ### Special registers and control -/

namespace Sys2Proof.Claims

/-- The special registers of R154 by number. -/
def specialRule (s : State) (n : Nat) : Option Word64 :=
  match n with
  | 0x000 => some (s.g.fpflags.setWidth 64)
  | 0x001 => some (s.g.repi.setWidth 64)
  | 0x002 => some s.g.llink
  | 0x003 => some s.g.lpc
  | 0x004 => some (BitVec.ofNat 64 (32 - s.g.lq.length))
  | 0x010 => some (BitVec.ofNat 64 s.g.journey)
  | 0x011 => some (BitVec.ofNat 64 s.g.room)
  | 0x012 => some (BitVec.ofNat 64 s.g.core)
  | 0x013 => some (BitVec.ofNat 64 s.g.slot)
  | 0x014 => some (BitVec.ofNat 64 (256 * s.g.band + 16 * (s.g.size - 1) + s.g.idx))
  | 0x015 => some (s.g.gang.setWidth 64)
  | 0x016 => some (s.g.handler.id.setWidth 64)
  | 0x020 => some s.g.span0
  | 0x021 => some s.g.spanw
  | 0x022 => some (s.g.round.setWidth 64)
  | 0x030 => some (BitVec.ofNat 64 (if s.b.handler.counts then 65536 * s.b.counting.nspill + s.b.counting.depth else 0))
  | _ => none

/-- What `%cycle` may read: no less than the device's count and than the core has read before, and no more than the later of that reading and
65,536 cycles past the count (R154, R320). -/
def cycleMay (s : State) (n : Nat) : Prop := s.cycles ≤ n ∧ s.c.clock ≤ n ∧ n ≤ max s.c.clock (s.cycles + 65536)

/-- Transfers: whether it is taken, and its target (R142). -/
def transferRule (s : State) : Instr → Option (Bool × Word64)
  | .br off => some (true, s.g.insAddr + BitVec.ofInt 64 (4 * off.toInt))
  | .bz a off => some (decide (s.sreg a = 0), s.g.insAddr + BitVec.ofInt 64 (4 * off.toInt))
  | .bnz a off => some (decide (s.sreg a ≠ 0), s.g.insAddr + BitVec.ofInt 64 (4 * off.toInt))
  | .ball k off => some ((List.range 32).all fun i => s.g.nev ≤ i || (s.kreg k).getLsbD i, s.g.insAddr + BitVec.ofInt 64 (4 * off.toInt))
  | .bCc cc a b _ off => some (condRule cc (s.sreg a) (s.sreg b), s.g.insAddr + BitVec.ofInt 64 (4 * off.toInt))
  | .call off => some (true, s.g.insAddr + BitVec.ofInt 64 (4 * off.toInt))
  | .ret => some (true, s.sreg 63)
  | .jmpi a => some (true, s.sreg a)
  | _ => none

/-- An address lies in the handler's scalar section. -/
def inScalar (s : State) (a : Word64) : Prop := (a - s.g.handler.sbase).toNat < s.g.handler.ssize.toNat

/-- The acting group at a transfer's target; `call` links the address behind it in `s63`. -/
def jumped (s : State) (t : Word64) (link : Bool) : State :=
  { s with g := { s.g with s := (if link then s.g.s.set 63 (s.g.insAddr + 4) else s.g.s), spc := t, winS := State.ageS s.g.winS, wait := 1,
                           passed := false, mid := false, lqPassed := false, waited := false, park := none } }

def isCall : Instr → Bool
  | .call _ => true
  | _ => false

/-- What lane steering does to `%llink` and the lane PC (R143). -/
def laneRule (s : State) : Instr → Option (Word64 × Word64)
  | .ljmp off => some (s.g.llink, s.g.lpc + BitVec.ofInt 64 (12 * off.toInt))
  | .lcall off => some (s.g.lpc, s.g.lpc + BitVec.ofInt 64 (12 * off.toInt))
  | .nop => some (s.g.llink, s.g.lpc)
  | _ => none

/-- The engine writes of the band's scratchpad and of memory, each changed in some way. -/
def overWrites (s : State) (f : Unacq → Unacq) : State :=
  { s with b := { s.b with unacq := s.b.unacq.map f }, j := { s.j with unacq := s.j.unacq.map f } }

/-- Another journey of the focused journey's room. -/
def roomMate (s : State) (k : Journey) : Prop := k ∈ s.journeys ∧ k.room = s.j.room ∧ k.num ≠ s.j.num

/-- A line that `fence.fabric` publishes (R331): it holds a write of the journey, or an engine write that the group has acquired, or a write of
another journey of the room to a page of the journey's too, whose publication has not completed. -/
def unpublished (s : State) (line : Nat) : Prop :=
  line ∈ s.j.dirty ∨ (∃ u ∈ s.j.unacq, u.pub = false ∧ (s.g.core, s.g.slot) ∈ u.seen ∧ u.addr / 128 = line) ∨
    ∃ k, roomMate s k ∧ line ∈ k.dirty ∧ s.j.holdsLine line = true

/-- A write-back of a line is queued for another journey of the room. -/
def queuedAbroad (s : State) (line : Nat) : Prop := ∃ k, roomMate s k ∧ ∃ w ∈ k.wbs, w.line = line

/-- R323: what the group has acquired before it arrives in a barrier phase is handed on through that phase. -/
def handedOn (s : State) (p : BarPhase) : State :=
  overWrites s fun u => if (s.g.core, s.g.slot) ∈ u.seen then { u with rel := p :: u.rel } else u

/-- R323: a group that passes a completed phase has acquired what was handed on through it. -/
def takenOver (s : State) (p : Option BarPhase) : State :=
  overWrites s fun u => match p with
    | some x => if x ∈ u.rel then
        { u with acq := true, seen := if (s.g.core, s.g.slot) ∈ u.seen then u.seen else (s.g.core, s.g.slot) :: u.seen } else u
    | none => u

end Sys2Proof.Claims

/-- R97, R154, R155: `sysr` of every assigned number reads the register it names, once everything earlier has completed where that is
`%fpflags` (R69); `%cycle` reads a count of the core's own, which never falls and need not agree with S (R320; how far it may stand off is
the model's reading, log entry 12). R97, R68, R143: `sysw` writes `%fpflags`, once everything earlier has completed, where its reserved bits
stay 0, or the whole of `%llink`. -/
def Obligations.SpecialRegisters : Prop :=
  (∀ (s : State) (d : SReg) (n : BitVec 12) (x : Word64), specialRule s n.toNat = some x → (n = 0 → s.allDone = true) → s.openS d = false →
    exec (.sysr d n) s = .next (passed s (scalarResult s.g 0 d x 0))) ∧
  (∀ (s : State) (d : SReg), s.openS d = false →
    ∃ n, cycleMay s n ∧ exec (.sysr d 0x040) s =
      .next { passed s (scalarResult s.g 0 d (BitVec.ofNat 64 n) 0) with c := { s.c with clock := n } }) ∧
  ((∀ (s : State) (a : SReg), s.allDone = true →
    exec (.sysw a 0) s = .next (passed s { s.g with fpflags := (s.sreg a).setWidth 32 &&& 0x7F })) ∧
  (∀ (s : State) (a : SReg), exec (.sysw a 2) s = .next (passed s { s.g with llink := s.sreg a })))

/-- R142, R30: a transfer that is not taken passes; one that is taken reaches its target where no landing check is due, and `call` writes `s63`. -/
def Obligations.TransfersReachTargets : Prop :=
  ∀ (s : State) (i : Instr) (c : Bool) (t : Word64), transferRule s i = some (c, t) → t.toNat % 4 = 0 → s.openS 63 = false →
    (c = true → ¬ (inScalar s t ∧ inScalar s (t - 4))) →
    exec i s = .next (if c then jumped s t (isCall i) else passed s s.g)

/-- R30: a taken transfer whose target and the word before it lie in the scalar section reads that word: a prefix there is the precise
OrphanPrefix trap (0x02) at the transfer, and with any other word the transfer is made. R142, R144: a register transfer to an address that
is no multiple of 4, and an `lret` whose link stands off the lane words, are the precise TargetAlign trap (0x05); any other `lret` moves the
lane PC to its link. That the difference of link and lane section is a signed one is the model's choice (log entry 82). -/
def Obligations.LandingCheckAndTargetAlign : Prop :=
  (∀ (s s1 : State) (i : Instr) (t : Word64) (w : Word32), transferRule s i = some (true, t) → t.toNat % 4 = 0 →
    inScalar s t → inScalar s (t - 4) → s.wordAt (t - 4) = (s1, .inl w) → s1.openS 63 = false → s1.g = s.g →
    exec i s = .next (if w.toNat / 2 ^ 30 = 2 then s1.takeTrap 0x02 { waddr := t - 4 } else jumped s1 t (isCall i))) ∧
  ((∀ (s : State) (a : SReg), (s.sreg a).toNat % 4 ≠ 0 → exec (.jmpi a) s = .next (s.takeTrap 0x05 { waddr := s.g.insAddr })) ∧
  (∀ (s : State), (s.sreg 63).toNat % 4 ≠ 0 → exec .ret s = .next (s.takeTrap 0x05 { waddr := s.g.insAddr })) ∧
  (∀ (s : State), (s.g.llink.toInt - s.g.handler.lbase.toInt) % 12 ≠ 0 → exec .lret s = .next (s.takeTrap 0x05 { waddr := s.g.insAddr })) ∧
  (∀ (s : State), (s.g.llink.toInt - s.g.handler.lbase.toInt) % 12 = 0 → exec .lret s = .next (passed s { s.g with lpc := s.g.llink })))

/-- R143, R146: `ljmp` and `lcall` move the lane PC and `%llink` alone, and `nop` nothing. -/
def Obligations.LaneSteering : Prop :=
  (∀ (s : State) (i : Instr) (l p : Word64), laneRule s i = some (l, p) → exec i s = .next (passed s { s.g with llink := l, lpc := p })) ∧
  decodeScalar [0x04000004] = .ok .nop 1

/-- R136, R137, R170: `lq` with room for its words enqueues them in order, each with its address, the `lq`'s, and the mask and base register as
they are now, and moves the lane PC behind them. -/
def Obligations.LqEnqueues : Prop :=
  ∀ (s s1 : State) (n : BitVec 12) (ws : List (Instr × Word64)), s.g.lq.length + n.toNat ≤ 32 →
    s.laneWords n.toNat s.g.lpc = (s1, ws, none) → s1.laneBreak ws = false → s1.busyS (ws.filterMap fun w => laneBase w.1) = false →
    exec (.lq n) s = .next (passed s1 { s1.g with
      lq := s1.g.lq ++ ws.map (fun w => { ins := w.1, addr := w.2, lqAddr := s1.g.insAddr,
                                          mask := (match w.1.hdr with | some h => s1.kreg h.mask | none => 0),
                                          base := (match laneBase w.1 with | some r => s1.sreg r | none => 0) }),
      lpc := s1.g.lpc + BitVec.ofNat 64 (12 * n.toNat) })

/-- R145: `exit` of a group whose work has completed ends it: it is dead, and it leaves its band. -/
def Obligations.ExitRetiresGroup : Prop :=
  ∀ (s : State), s.allDone = true → s.anyPending = false → s.g.guard = none → s.sessionOf s.g.room = none →
    ∃ t, exec .exit s = .next t ∧ t.g.dead = true ∧ t.b.members = s.b.members.filter (· != s.g.slot) ∧
      (∀ a, t.mem.byte a = s.mem.byte a) ∧ t.b.spm = s.b.spm ∧ t.groups = s.groups

/-! ### Fences, barriers, waits, futures, rings -/

/-- R327, R328, R46: a fence whose earlier work has completed passes and closes every lookahead window; `fence.eng` also drains the band's
scratchpad write queues to the wide port in their order (R238). R331: `fence.fabric` queues one write-back for each unpublished line of its
journey, and each line of an unpublished engine write that the group has acquired, where none is queued for it, and counts on the `st` path. -/
def Obligations.FencesPassAndPublish : Prop :=
  ((∀ (s : State), s.allDone = true → s.anyPending = false → s.pathCount .sp = 0 → s.pathCount .ga = 0 →
    ∃ t, exec .fenceSc s = .next t ∧ t.g = (passed s { s.g with winS := [], winV := [], winP := [] }).g ∧ t.b.spm = s.b.spm ∧
      (∀ a, t.mem.byte a = s.mem.byte a)) ∧
  (∀ (s : State), s.allDone = true →
    exec .fenceEng s = .next { passed s { s.g with winS := [], winV := [], winP := [] } with
      b := { s.b with wide := s.b.wq.foldl (fun m e => Memory.put m e.1 e.2) s.b.wide, wq := [] } })) ∧
  (∀ (s : State), s.allDone = true → s.pathCount .st < 63 →
    ∃ t, exec .fenceFabric s = .next t ∧ (∀ l, unpublished s l → (∃ w ∈ t.j.wbs, w.line = l) ∨ queuedAbroad s l) ∧
      (∀ w ∈ s.j.wbs, w ∈ t.j.wbs) ∧ t.journeys = s.journeys ∧
      (∀ w ∈ t.j.wbs, w ∈ s.j.wbs ∨ unpublished s w.line ∧ (∀ v ∈ s.j.wbs, v.line ≠ w.line) ∧ ¬ queuedAbroad s w.line) ∧ t.pathCount .st = s.pathCount .st + 1 ∧
      t.g.spc = nextPc s ∧ t.g.s = s.g.s ∧ ∀ a, t.mem.byte a = s.mem.byte a)

/-- R183, R185, R46, R323: `bar.arrive` joins the phase and passes; `bar` and, in a gang, `gbar` join it and stay; both, once the phase of the
arrival is complete, and `bar.wait`, pass; an arrival hands on the engine writes that the group has acquired, and a passing group, or one
that arrives again once the phase of its earlier arrival is complete, takes over those handed on in that phase; none of them writes a
register or memory. R166, R167, R186: a barrier or `exit` of a group that holds a guard record reports it instead, once everything earlier
has completed (R46; `bar.wait` at once), whatever arrival or future is pending, and holds the group before the instruction; that the report
comes before any other wait is the model's reading (log entry 10). -/
def Obligations.BarriersAndGuardRecords : Prop :=
  ((∀ (s s1 : State), s.g.guard = none → s.allDone = true → s.g.arrB ≠ some s.b.phase →
    s1 = handedOn (takenOver s (s.g.arrB.map fun p => .band s.g.core s.g.band p)) (.band s.g.core s.g.band s.b.phase) →
    exec .barArrive s = .next { passed s1 { s.g with arrB := some s.b.phase, winS := [], winV := [], winP := [] } with
      b := { s1.b with arrived := s.b.arrived ++ [s.g.slot] } } ∧
    (s.g.mid = false →
      exec .bar s = .next { s1 with g := { s.g with arrB := some s.b.phase, winS := [], winV := [], winP := [], mid := true, wait := 4 },
                                    b := { s1.b with arrived := s.b.arrived ++ [s.g.slot] } })) ∧
  (∀ (s s1 : State) (x : GangBar), s.gangBar = some x → s.g.mid = false → s.g.guard = none → s.allDone = true → s.g.arrG ≠ some x.phase →
    s1 = handedOn (takenOver s (s.g.arrG.map fun p => .gang x.num p)) (.gang x.num x.phase) →
    exec .gbar s = .next { s1 with
      g := { s.g with arrG := some x.phase, winS := [], winV := [], winP := [], mid := true, wait := 4 },
      j := { s1.j with gangs := s.j.gangs.map fun y =>
        if y.num = x.num then { x with arrived := x.arrived ++ [(s.g.core, s.g.slot)] } else y } }) ∧
  (∀ (s : State) (i : Instr), s.g.arrB ≠ some s.b.phase →
    (i = .bar ∧ s.g.mid = true ∨ i = .barWait ∧ s.g.guard = none ∨ i = .gbar ∧ s.g.mid = true ∧ s.gangBar = none) →
    exec i s = .next (passed (takenOver s (s.g.arrB.map fun p => .band s.g.core s.g.band p)) { s.g with arrB := none })) ∧
  (∀ (s : State) (x : GangBar), s.gangBar = some x → s.g.mid = true → s.g.arrG ≠ some x.phase →
    exec .gbar s = .next (passed (takenOver s (s.g.arrG.map fun p => .gang x.num p)) { s.g with arrG := none }))) ∧
  ((∀ (s : State) (i : Instr) (r : Guard), i ∈ [.bar, .barArrive, .gbar, .exit] → s.g.guard = some r → s.allDone = true →
    s.g.mid = false → exec i s = .next ({ s with g := { s.g with winS := [], winV := [], winP := [] } }.reportGuard r)) ∧
  (∀ (s : State) (r : Guard), s.g.guard = some r → exec .barWait s = .next (s.reportGuard r)))

/-- R180: `waitp` passes when its path's count is at or below the threshold, read as unsigned, and waits above it, whatever other instruction is
outstanding; its words have op 0x05 and fn 8 to 11, with the threshold's register in a. So a threshold of 63, the counts' limit, never
waits. -/
def Obligations.WaitpThreshold : Prop :=
  ∀ (s : State) (p : Path) (i : Instr) (a : SReg), (i, p) ∈ [(.waitpLd a, .ld), (.waitpSt a, .st), (.waitpSp a, .sp), (.waitpGa a, .ga)] →
    (s.pathCount p ≤ (s.sreg a).toNat → ∃ t, exec i s = .next t ∧ t.g = (passed s s.g).g ∧ t.b.spm = s.b.spm ∧ ∀ x, t.mem.byte x = s.mem.byte x) ∧
    ((s.sreg a).toNat < s.pathCount p → exec i s = .next { s with g := { s.g with wait := 4 } }) ∧
    decodeScalar [BitVec.ofNat 32 (0x05000008 + (match p with | .ld => 0 | .st => 1 | .sp => 2 | .ga => 3) + 2 ^ 12 * a.toNat)] = .ok i 1

/-- R151, R152: the future instructions on a future that is not pending: each writes the status word (`fget` the token) and passes; `fget`
leaves the future empty; `fput` of zero empties its future, and of another token claims the live operation of the band that the token names
and no future holds, or leaves the future stale. On a pending future `ftest` writes 1 and passes, and `fwait`, `fget` and `fput` wait;
`fcancel` waits where the engine has refused, or refuses (an `itbind`, a Drover operation that has taken an item), and else the operation
leaves its queue and is cancelled, with no register destination changed, and `fcancel` writes 4 and passes. -/
def Obligations.FuturesAnswer : Prop :=
  (∀ (s : State) (d : SReg) (f : FReg) (i : Instr), i ∈ [.ftest d f, .fwait d f, .fcancel d f] → s.fPending f = false → s.openS d = false →
    ∃ t, exec i s = .next t ∧ t.g = (passed s (scalarResult s.g 0 d (s.futureStatus f) 0)).g ∧ t.mem = s.mem ∧ t.b.spm = s.b.spm ∧ t.c = s.c) ∧
  (∀ (s : State) (d : SReg) (f : FReg) (k : Word64), s.fPending f = false → s.openS d = false →
    (s.g.f[f.toNat] = .held k ∨ s.g.f[f.toNat] = .stale k ∨ (s.g.f[f.toNat] = .empty ∧ k = 0)) →
    ∃ t, exec (.fget d f) s = .next t ∧ t.g = (passed s (scalarResult { s.g with f := s.g.f.set f.toNat .empty } 0 d k 0)).g ∧
      t.mem = s.mem ∧ t.b.spm = s.b.spm ∧ t.c = s.c) ∧
  (∀ (s : State) (f : FReg) (a : SReg), s.fPending f = false → s.sreg a = 0 →
    ∃ t, exec (.fput f a) s = .next t ∧ t.g = (passed s { s.g with f := s.g.f.set f.toNat .empty }).g ∧ t.mem = s.mem ∧ t.b.spm = s.b.spm) ∧
  (∀ (s : State) (f : FReg) (a : SReg) (o : Op), s.fPending f = false → s.opOf f = none → s.sreg a ≠ 0 → (s.sreg a).toNat < 2 ^ 40 →
    s.opOfToken (s.sreg a) = some o →
    ∃ t, exec (.fput f a) s = .next t ∧ t.mem = s.mem ∧ t.b.spm = s.b.spm ∧
      t.g = (passed s { s.g with f := s.g.f.set f.toNat (if s.opHeld o then .stale (s.sreg a) else .held (s.sreg a)) }).g ∧
      (s.opHeld o = false → ∃ p ∈ t.c.ops, p.slot = o.slot ∧ p.gen = o.gen ∧ p.st = o.st ∧ p.group = s.g.slot)) ∧
  (∀ (s : State) (f : FReg) (a : SReg), s.fPending f = false → s.sreg a ≠ 0 → (s.sreg a).toNat < 2 ^ 40 → s.opOfToken (s.sreg a) = none →
    ∃ t, exec (.fput f a) s = .next t ∧ t.g = (passed s { s.g with f := s.g.f.set f.toNat (.stale (s.sreg a)) }).g ∧ t.mem = s.mem ∧
      t.b.spm = s.b.spm) ∧
  (∀ (s : State) (d : SReg) (f : FReg) (a : SReg), s.fPending f = true →
    (s.openS d = false → exec (.ftest d f) s = .next (passed s (scalarResult s.g 0 d 1 0))) ∧
    exec (.fwait d f) s = .next { s with g := { s.g with wait := 3 } } ∧ exec (.fget d f) s = .next { s with g := { s.g with wait := 3 } } ∧
    exec (.fput f a) s = .next (awaits s)) ∧
  (∀ (s : State) (d : SReg) (f : FReg) (o : Op), s.opOf f = some o → o.st = .pending → o.noCancel = true →
    exec (.fcancel d f) s = .next { s with g := { s.g with wait := 3 } }) ∧
  (∀ (s : State) (d : SReg) (f : FReg) (o : Op) (e : DrvEnt), s.opOf f = some o → o.st = .pending → o.noCancel = false → s.c.eng = [] →
    s.c.se0 = [] → s.c.se1 = [] → s.c.drv = [e] → e.op = some o.slot →
    ((e.got ≠ [] ∨ ∃ i, e.cmd = .bind i) → ∃ t, exec (.fcancel d f) s = .next t ∧ t.g = { s.g with wait := 3 } ∧ t.c.drv = [e] ∧
      (∃ p ∈ t.c.ops, p.slot = o.slot ∧ p.st = .pending ∧ p.noCancel = true) ∧ t.b = s.b ∧ t.mem = s.mem) ∧
    (s.openS d = false → e.got = [] → ((∃ i lanes vd pd ph sc, e.cmd = .pull i lanes vd pd ph sc) ∨ ∃ i regs, e.cmd = .drain i regs) →
      ∃ t, exec (.fcancel d f) s = .next t ∧ t.g = (passed s (scalarResult s.g 0 d 4 0)).g ∧ t.c.drv = [] ∧
        (∃ p ∈ t.c.ops, p.slot = o.slot ∧ p.st = .cancelled) ∧ t.b.spm = s.b.spm ∧ t.mem = s.mem)) ∧
  (∀ (s : State) (d : SReg) (f : FReg) (o : Op) (c : SeCmd) (cs : List SeCmd), s.opOf f = some o → o.st = .pending → o.noCancel = false →
    s.openS d = false → s.c.eng = [] → s.c.se0 = c :: cs → c.op = o.slot → (∀ x ∈ cs, x.op ≠ o.slot) → c.started = false → c.elems = [] →
    c.put = 0 → c.fl = 0 →
    ∃ t, exec (.fcancel d f) s = .next t ∧ t.g = (passed s (scalarResult s.g 0 d 4 0)).g ∧ t.c.se0 = cs ∧
      (∃ p ∈ t.c.ops, p.slot = o.slot ∧ p.st = .cancelled) ∧ t.b.spm = s.b.spm ∧ t.b.fills = s.b.fills ∧ t.mem = s.mem)

namespace Sys2Proof.Claims

/-- The ring that `swait` and `sdone` name: `x` is the offset of a well-formed ring of the band, which no write has broken, and `m` a number
below its modulus (R271, R274, R276). -/
def namesRing (s : State) (x m : Word64) (r : Ring) : Prop :=
  0 ≤ x.toInt ∧ x.toInt % 64 = 0 ∧ s.scratchOk x.toInt 128 = true ∧ s.b.broken.contains x.toNat = false ∧
    ringAt s.b.spm s.b.handler.allocation x.toNat = some r ∧ m.toNat < r.modulus

/-- The control byte of the slot that number `m` takes, and whether its full and its empty phase are those of m's lap (R272). -/
def ctlOf (s : State) (m : Word64) (r : Ring) : Byte := s.b.spm.byte (r.off + 64 + m.toNat % r.slots)
def fullNow (s : State) (m : Word64) (r : Ring) : Bool := (ctlOf s m r).getLsbD 0 == decide (m.toNat / r.slots % 2 = 0)
def emptyNow (s : State) (m : Word64) (r : Ring) : Bool := (ctlOf s m r).getLsbD 1 == decide (m.toNat / r.slots % 2 = 1)

/-- Every lookahead window closed (R46). -/
def closed (s : State) : State := { s with g := { s.g with winS := [], winV := [], winP := [] } }

end Sys2Proof.Claims

/-- R272, R274, R275: on a well-formed ring, `swait` on a slot whose phase has come (full on an input ring, empty on an output ring) writes the
slot's data offset (with the end mark above it on an input ring) and passes, and before that waits. R46, R238, R273, R275: `sdone`, once
everything earlier has completed, closes every lookahead window; on an input ring it releases the slot by its empty phase alone, and on an
output ring it drains the band's scratchpad write queues and queues the slot's publication with the end mark of its register's bit 0. -/
def Obligations.RingSlots : Prop :=
  (∀ (s : State) (d a b : SReg) (r : Ring), namesRing s (s.sreg a) (s.sreg b) r → s.openS d = false →
    ((if r.out then emptyNow s (s.sreg b) r else fullNow s (s.sreg b) r) = true →
      ∃ t, exec (.swait d a b) s = .next t ∧
        t.g = (passed s (scalarResult s.g 0 d (BitVec.ofNat 64 (r.doff + (s.sreg b).toNat % r.slots * r.sbytes +
          (if r.out = false ∧ (ctlOf s (s.sreg b) r).getLsbD 2 then 2 ^ 32 else 0))) 0)).g ∧
        t.b.spm = s.b.spm ∧ t.mem = s.mem) ∧
    ((if r.out then emptyNow s (s.sreg b) r else fullNow s (s.sreg b) r) = false →
      ∃ t, exec (.swait d a b) s = .next t ∧ t.g = { s.g with wait := 4 } ∧ t.b.spm = s.b.spm ∧ t.mem = s.mem)) ∧
  (∀ (s : State) (d a b : SReg) (r : Ring), s.allDone = true → Memory.wf s.b.spm = true →
    namesRing s ((closed s).sreg a) ((closed s).sreg b) r → r.out = false →
    fullNow s ((closed s).sreg b) r = true → emptyNow s ((closed s).sreg b) r = true →
    ∃ t, exec (.sdone d a b) s = .next t ∧ t.g = (passed (closed s) (closed s).g).g ∧ t.mem = s.mem ∧
      (∀ x, x ≠ r.off + 64 + ((closed s).sreg b).toNat % r.slots → t.b.spm.byte x = s.b.spm.byte x) ∧
      (t.b.spm.byte (r.off + 64 + ((closed s).sreg b).toNat % r.slots)).getLsbD 1 =
        decide (((closed s).sreg b).toNat / r.slots % 2 = 0)) ∧
  (∀ (s : State) (d a b : SReg) (r : Ring), s.allDone = true → namesRing s ((closed s).sreg a) ((closed s).sreg b) r → r.out = true →
    emptyNow s ((closed s).sreg b) r = true → fullNow s ((closed s).sreg b) r = false →
    ∃ t, exec (.sdone d a b) s = .next t ∧ t.g = (passed (closed s) (closed s).g).g ∧ t.mem = s.mem ∧ t.b.spm = s.b.spm ∧
      t.b.wide = s.b.wq.foldl (fun m e => Memory.put m e.1 e.2) s.b.wide ∧ t.b.wq = [] ∧
      t.b.fills = s.b.fills ++ [⟨r.off, ((closed s).sreg b).toNat, ((closed s).sreg d).getLsbD 0⟩])

/-! ### Engines -/

namespace Sys2Proof.Claims

/-- Offset and increment of an operand descriptor (R234, R255). -/
def descLo (x : Word64) : Nat := (x.setWidth 32).toNat
def descHi (x : Word64) : Int := (x.extractLsb' 32 32).toInt

/-- A descriptor whose fields are multiples of 16 and whose first and last blocks lie in the allocation. -/
def descFits (s : State) (x : Word64) (steps size : Nat) : Prop :=
  descLo x % 16 = 0 ∧ descHi x % 16 = 0 ∧ (descLo x : Int) + size ≤ s.b.handler.allocation ∧
    0 ≤ descLo x + descHi x * ((steps : Int) - 1) ∧ descLo x + descHi x * ((steps : Int) - 1) + size ≤ s.b.handler.allocation

/-- The lane registers of a handler (R311). -/
def laneCount (s : State) : Nat := 8 * (s.g.handler.lregs.toNat + 1)
/-- A run of scale registers that is read exists in the handler. -/
def runFits (s : State) (present : Bool) (r n : Nat) : Prop := present = true → r + n ≤ laneCount s

/-- The conditions under which an engine instruction of the matrix engine or the counting array issues (R232 to R260): the registers, tiles,
blocks and counting states it names are legal. -/
def engFits (s : State) : Instr → Prop
  | .mloop _ a b _ aSp steps _ _ _ tstep tile _ areg =>
    (aSp = false → areg.toNat + 8 ≤ laneCount s) ∧ tile.toNat + (if tstep then steps.toNat else 0) < s.g.handler.tiles.toNat ∧
      descFits s (s.sreg a) (steps.toNat + 1) 1024 ∧ (aSp = true → descFits s (s.sreg b) (steps.toNat + 1) 1024)
  | .mdrain _ _ lanes _ e8 rs cs _ _ _ vd8 dtile stile cv rv =>
    runFits s rs rv.toNat (if e8 then 1 else 2) ∧ runFits s cs cv.toNat (if e8 then 1 else 2) ∧ runFits s lanes (8 * vd8.toNat) 64 ∧
      stile.toNat < s.g.handler.tiles.toNat ∧ (lanes = false → dtile.toNat < s.g.handler.tiles.toNat)
  | .aset _ _ _ tile n => tile.toNat + n.toNat ≤ s.g.handler.tiles.toNat
  | .cloop _ a b _ split steps fmt rg =>
    s.b.handler.counts = true ∧ (s.b.counting.fmt = none ∨ s.b.counting.fmt = some fmt) ∧
      (s.b.counting.nspill = 0 ∨ 8 * (rg.toNat + 1) ≤ s.b.counting.extent) ∧ s.b.counting.depth + 16 * (steps.toNat + 1) ≤ 32767 ∧
      descFits s (s.sreg a) (steps.toNat + 1) ((if split then 16 else 8) * (8 * (rg.toNat + 1))) ∧ descFits s (s.sreg b) (steps.toNat + 1) 1024
  | .cmerge _ => s.b.handler.counts = true ∧ s.b.counting.nspill = 0 ∧ 2 * s.b.counting.depth ≤ 32767
  | .cspill _ tile =>
    s.b.handler.counts = true ∧ s.b.counting.extent ≠ 0 ∧ (s.b.counting.nspill = 0 ∨ s.b.counting.sbase = tile.toNat) ∧
      s.b.counting.nspill ≠ 65535 ∧ tile.toNat + s.b.counting.extent ≤ s.g.handler.tiles.toNat
  | .cdrain _ _ pairs e8 rs cs _ _ dtile cv rv =>
    s.b.handler.counts = true ∧ runFits s rs rv.toNat (if e8 then 1 else 4) ∧ runFits s cs cv.toNat (if e8 then 1 else 4) ∧
      (s.b.counting.extent = 0 ∨ dtile.toNat + drainTiles pairs s.b.counting.extent ≤ s.g.handler.tiles.toNat)
  | _ => False

/-- The command that an engine instruction puts into the queue: its operands as they are at issue. -/
def engCommand (s : State) (i : Instr) (cmd : EngCmd) : Prop :=
  match i with
  | .mloop _ a b _ true steps rnd ftz _ tstep tile fmt _ =>
    cmd = .mloop none 0 (descLo (s.sreg b)) (descHi (s.sreg b)) (descLo (s.sreg a)) (descHi (s.sreg a)) (steps.toNat + 1) rnd ftz tstep
      tile.toNat fmt
  | .mloop _ a _ _ false steps rnd ftz reuse tstep tile fmt areg => ∃ block,
    cmd = .mloop (some block) areg.toNat 0 0 (descLo (s.sreg a)) (descHi (s.sreg a)) (steps.toNat + 1) rnd ftz tstep tile.toNat fmt ∧
      (reuse = false → block = (upTo 8).map fun k => (s.g.v[areg.toNat + k]?).getD (Vector.replicate 32 0))
  | .mdrain _ _ lanes half e8 rs cs clear ftz rnd vd8 dtile stile cv rv =>
    cmd = .mdrain lanes half e8 rs cs clear ftz rnd (8 * vd8.toNat) dtile.toNat stile.toNat cv.toNat rv.toNat
  | .aset _ b _ tile n => cmd = .aset tile.toNat n.toNat ((s.sreg b).setWidth 32)
  | .cloop _ a b _ split steps fmt rg =>
    cmd = .cloop (descLo (s.sreg a)) (descHi (s.sreg a)) (descLo (s.sreg b)) (descHi (s.sreg b)) split (steps.toNat + 1)
      (8 * (rg.toNat + 1)) fmt
  | .cmerge _ => cmd = .cmerge
  | .cspill _ tile => ∃ u, cmd = .cspill tile.toNat (decide (s.b.counting.nspill = 0)) s.b.counting.extent u
  | .cdrain _ _ pairs e8 rs cs ftz rnd dtile cv rv => ∃ u, cmd = .cdrain pairs e8 rs cs ftz rnd dtile.toNat cv.toNat rv.toNat u
  | _ => False

/-- The future register of an engine instruction. -/
def engFuture : Instr → FReg
  | .mloop f .. | .mdrain f .. | .aset f .. | .cloop f .. | .cmerge f | .cspill f _ | .cdrain f .. => f
  | _ => 0

/-- A pending operation of the acting group's band that a future register holds. -/
def holdsPending (s t : State) (f : FReg) (op : Nat) : Prop :=
  ∃ o ∈ t.c.ops, o.slot = op ∧ o.st = .pending ∧ o.band = s.b.slot ∧ o.group = s.g.slot ∧
    t.g.f[f.toNat] = .held (State.tokenOf s.b.slot o.gen op)

/-- What the issue of an engine operation leaves alone. -/
def issueKeeps (s t : State) : Prop :=
  t.g.spc = nextPc s ∧ t.g.v = s.g.v ∧ t.g.p = s.g.p ∧ t.g.k = s.g.k ∧
    t.g.fpflags = s.g.fpflags ∧ t.b.spm = s.b.spm ∧ t.b.tiles = s.b.tiles ∧ ∀ a, t.mem.byte a = s.mem.byte a

/-- The lane registers that an engine instruction names exist in the handler (R50). -/
def engRegs (s : State) : Instr → Prop
  | .mloop _ _ _ _ aSp _ _ _ _ _ _ _ areg => aSp = false → areg.toNat + 8 ≤ laneCount s
  | .mdrain _ _ lanes _ e8 rs cs _ _ _ vd8 _ _ cv rv =>
    runFits s rs rv.toNat (if e8 then 1 else 2) ∧ runFits s cs cv.toNat (if e8 then 1 else 2) ∧ runFits s lanes (8 * vd8.toNat) 64
  | .cdrain _ _ _ e8 rs cs _ _ _ cv rv => runFits s rs rv.toNat (if e8 then 1 else 4) ∧ runFits s cs cv.toNat (if e8 then 1 else 4)
  | _ => True

/-- The instructions that queue an engine command under a future. -/
def isEngine : Instr → Bool
  | .mloop .. | .mdrain .. | .aset .. | .cloop .. | .cmerge _ | .cspill .. | .cdrain .. => true
  | _ => false

/-- The instructions of the counting array. -/
def isCounting : Instr → Bool
  | .cloop .. | .cmerge _ | .cspill .. | .cdrain .. | .cclear => true
  | _ => false

/-- The counting bookkeeping after an instruction: depth, spills, extent (R251, R255, R257, R258, R260). -/
def countingAfter (s : State) : Instr → Nat × Nat × Nat
  | .cloop _ _ _ _ _ steps _ rg => (s.b.counting.depth + 16 * (steps.toNat + 1), s.b.counting.nspill, max s.b.counting.extent (8 * (rg.toNat + 1)))
  | .cmerge _ => (2 * s.b.counting.depth, s.b.counting.nspill, s.b.counting.extent)
  | .cspill .. => (0, s.b.counting.nspill + 1, s.b.counting.extent)
  | .cdrain .. => (0, 0, 0)
  | _ => (s.b.counting.depth, s.b.counting.nspill, s.b.counting.extent)

end Sys2Proof.Claims

/-- R148, R239 with R232, R241, R245, R254, R257, R258, R260: an engine instruction whose checks pass, with a future that is not pending, a free
queue entry and no own `acpy` word queued, puts its command last in the core's engine queue, gives its future a pending operation, and
passes; the counting array's depth and spill counts change as it executes (R251). R259: `cclear` queues the clearing of the array without a
future, and its depth and spill counts are 0 at once. A lane register that the handler does not have is the precise trap 0x03 (R50), and
behind it an instruction waits while its future is pending (R148). -/
def Obligations.EngineInstructionsIssue : Prop :=
  (∀ (s : State) (i : Instr), engFits s i → s.fPending (engFuture i) = false → s.c.eng.length < 16 → (∀ e ∈ s.g.lq, acpyTile e.ins = none) →
    ∃ t e op, exec i s = .next t ∧ t.c.eng.getLast? = some e ∧ t.c.eng.length = s.c.eng.length + 1 ∧ e.op = some op ∧ e.band = s.b.slot ∧
      e.group = s.g.slot ∧ engCommand s i e.cmd ∧ holdsPending s t (engFuture i) op ∧ issueKeeps s t ∧ t.g.s = s.g.s ∧
      (t.b.counting.depth, t.b.counting.nspill, t.b.counting.extent) = countingAfter s i) ∧
  (∀ (s : State), s.b.handler.counts = true → s.c.eng.length < 16 →
    ∃ t e, exec .cclear s = .next t ∧ t.c.eng = s.c.eng ++ [e] ∧ e.cmd = .cclear ∧ e.op = none ∧ t.b.counting.depth = 0 ∧
      t.b.counting.nspill = 0 ∧ t.g.f = s.g.f ∧ issueKeeps s t ∧ t.g.s = s.g.s) ∧
  (∀ (s : State) (i : Instr), isEngine i = true →
    (¬ engRegs s i → exec i s = .next (s.takeTrap 0x03 { waddr := s.g.insAddr })) ∧
    (engRegs s i → s.fPending (engFuture i) = true → exec i s = .next (awaits s)))

/-- R250, R251: counting work of a band without the array, and a loop that would pass the depth limit, are the precise traps CountState (0x0F)
and CountDepth (0x0E), once no operation is pending under the instruction's future (R148); that `waddr` of their record is zero is the
model's reading (log entry 6). -/
def Obligations.CountingTraps : Prop :=
  (∀ (s : State) (i : Instr), isCounting i = true → s.b.handler.counts = false → (s.fPending (engFuture i) = false ∨ i = .cclear) → engRegs s i →
    exec i s = .next (s.takeTrap 0x0F {})) ∧
  (∀ (s : State) (f : FReg) (a b : SReg) (la rg : BitVec 4) (split : Bool) (steps : BitVec 11) (fmt : CFmt), s.fPending f = false →
    s.b.handler.counts = true → s.b.counting.fmt = none → s.b.counting.nspill = 0 → 32767 < s.b.counting.depth + 16 * (steps.toNat + 1) →
    exec (.cloop f a b la split steps fmt rg) s = .next (s.takeTrap 0x0E {}))

/-- R277: `push` waits while its future is pending; then `push` into a queue with room gives it the eight registers as they are, holds a pending
operation and answers 0; into a full queue it answers 1, leaves the future empty and queues nothing. -/
def Obligations.PushQueuesOrRefuses : Prop :=
  (∀ (s : State) (q : PushQ) (f : FReg) (a b : SReg) (la : BitVec 4), s.fPending f = false → queueLen s q < 16 → s.openS b = false →
    ∃ t op, exec (.push q f a b la) s = .next t ∧ holdsPending s t f op ∧
      (match q with
        | .se0 => ∃ c, t.c.se0 = s.c.se0 ++ [c] ∧ c.op = op ∧ c.regs = (upTo 8).map fun k => s.sreg (a + BitVec.ofNat 6 k)
        | .se1 => ∃ c, t.c.se1 = s.c.se1 ++ [c] ∧ c.op = op ∧ c.regs = (upTo 8).map fun k => s.sreg (a + BitVec.ofNat 6 k)
        | .drover => ∃ c ix, t.c.drv = s.c.drv ++ [c] ∧ c.op = some op ∧ c.cmd = .drain ix ((upTo 8).map fun k => s.sreg (a + BitVec.ofNat 6 k))) ∧
      t.g.s = (if b = 0 then s.g.s else s.g.s.set b.toNat 0) ∧ issueKeeps s t) ∧
  (∀ (s : State) (q : PushQ) (f : FReg) (a b : SReg) (la : BitVec 4), s.fPending f = false → 16 ≤ queueLen s q → s.openS b = false →
    ∃ t, exec (.push q f a b la) s = .next t ∧ t.g.f = s.g.f.set f.toNat .empty ∧ t.c.se0 = s.c.se0 ∧ t.c.se1 = s.c.se1 ∧ t.c.drv = s.c.drv ∧
      t.g.s = (if b = 0 then s.g.s else s.g.s.set b.toNat 1) ∧ issueKeeps s t) ∧
  (∀ (s : State) (q : PushQ) (f : FReg) (a b : SReg) (la : BitVec 4), s.fPending f = true →
    exec (.push q f a b la) s = .next (awaits s)) ∧
  decodeScalar [0x500481C0, 0x00000000] = .ok (.push .se0 1 8 7 0) 2

/-! ### The Drover -/

/-- R148, R212 to R214: `itbind` of an aligned block in the allocation whose layout is good, on a core with a stack free, binds the stack: it is
listed with an index, its operation is pending, and the handle of that index is written; a block off its alignment, outside the allocation
or of a bad layout is the precise trap 0x08, 0x09 or 0x0B, and without a free stack the operation fails and the handle is 0. R215, R218:
`next` on a live handle queues one pull with the mask of its event lanes; a destination beyond the handler's registers is the precise trap
0x03. R219, R220: `enough` of a stack without queued operations ends it, and behind queued ones takes its place in their order; in every
case it passes. `itfree` waits while an operation of the stack is queued, then unbinds its whole tree and passes; a stack without children
is written back to its block. On any value that is no live handle, `next`, `enough` and `itfree` are the precise trap StaleHandle (0x0C).
`itbind` and `next` first wait while their future is pending (R148), and look at the block or the handle behind the wait.
That `waddr` of the records is zero is the model's reading (log entry 6). -/
def Obligations.DroverInstructions : Prop :=
  ((∀ (s : State) (f : FReg) (a b : SReg) (la : BitVec 4) (off : Word32) (k : Stack), (longAddr s a off).toNat % 64 = 0 →
    (longAddr s a off).toNat + 512 ≤ s.b.handler.allocation → s.b.handler.allocation < 2 ^ 32 →
    layoutStack s.b (longAddr s a off).toNat (s.wideRead (longAddr s a off).toNat 256) = .inr k → s.fPending f = false → s.coreStacks < 64 →
    s.openS b = false →
    ∃ t op i, exec (.itbind f a b la off) s = .next t ∧ holdsPending s t f op ∧ { k with index := i } ∈ t.b.dstacks ∧
      t.b.dstacks.length = s.b.dstacks.length + 1 ∧
      t.g.s = (if b = 0 then s.g.s else s.g.s.set b.toNat (handleOf (s.b.stackGenOf i) i)) ∧ (∃ e, t.c.drv = s.c.drv ++ [e] ∧ e.cmd = .bind i) ∧
      issueKeeps s t) ∧
  (∀ (s : State) (f : FReg) (a b : SReg) (la : BitVec 4) (off : Word32) (x : Word64), x = longAddr s a off → s.fPending f = false →
    (x.toNat % 64 ≠ 0 → exec (.itbind f a b la off) s = .next (s.takeTrap 0x08 { vaddr := x })) ∧
    (x.toNat % 64 = 0 → (x.toInt < 0 ∨ (s.b.handler.allocation : Int) < x.toInt + 512) →
      exec (.itbind f a b la off) s = .next (s.takeTrap 0x09 { vaddr := x })) ∧
    (∀ n, x.toNat % 64 = 0 → 0 ≤ x.toInt → x.toInt + 512 ≤ s.b.handler.allocation →
      layoutStack s.b x.toNat (s.wideRead x.toNat 256) = .inl n →
      exec (.itbind f a b la off) s = .next (s.takeTrap 0x0B { vaddr := x, info := n })) ∧
    (∀ k, x.toNat % 64 = 0 → 0 ≤ x.toInt → x.toInt + 512 ≤ s.b.handler.allocation →
      layoutStack s.b x.toNat (s.wideRead x.toNat 256) = .inr k → 64 ≤ s.coreStacks → s.openS b = false →
      ∃ t, exec (.itbind f a b la off) s = .next t ∧ t.b.dstacks = s.b.dstacks ∧ t.c.drv = s.c.drv ∧
        t.g.s = (if b = 0 then s.g.s else s.g.s.set b.toNat 0) ∧ (∃ o ∈ t.c.ops, o.st = .failed 2 ∧
          t.g.f[f.toNat] = .held (State.tokenOf s.b.slot o.gen o.slot)) ∧ issueKeeps s t))) ∧
  ((∀ (s : State) (f : FReg) (a sc : SReg) (k : KReg) (la : BitVec 4) (vd : VReg) (pd ph : PReg) (u : Stack), vd.toNat + 2 ≤ laneCount s →
    s.b.live (s.sreg a) = some u → s.fPending f = false →
    ∃ t op e, exec (.drvNext f a k la vd pd ph sc) s = .next t ∧ holdsPending s t f op ∧ t.c.drv = s.c.drv ++ [e] ∧ e.op = some op ∧
      e.cmd = .pull u.index (s.kreg k &&& s.k0) vd pd ph sc ∧ issueKeeps s t ∧ t.g.s = s.g.s) ∧
  (∀ (s : State) (f : FReg) (a sc : SReg) (k : KReg) (la : BitVec 4) (vd : VReg) (pd ph : PReg), laneCount s < vd.toNat + 2 →
    exec (.drvNext f a k la vd pd ph sc) s = .next (s.takeTrap 0x03 { waddr := s.g.insAddr }))) ∧
  ((∀ (s : State) (a : SReg) (u : Stack), s.b.live (s.sreg a) = some u → ∃ t, exec (.enough a) s = .next t ∧ t.g.spc = nextPc s) ∧
  (∀ (s : State) (a : SReg) (u : Stack), s.b.live (s.sreg a) = some u → (∃ e ∈ s.c.drv, e.on s.b.slot u.index = true) → (∀ o ∈ s.c.ops, o.park = none) →
    ∃ t e, exec (.enough a) s = .next t ∧ t.c.drv = s.c.drv ++ [e] ∧ e.op = none ∧ e.cmd = .ending u.index ∧ issueKeeps s t ∧ t.g.s = s.g.s) ∧
  (∀ (s : State) (a : SReg) (u : Stack), s.b.live (s.sreg a) = some u → (∀ e ∈ s.c.drv, e.on s.b.slot u.index = false) →
    ∃ t, exec (.enough a) s = .next t ∧ (∃ v ∈ t.b.dstacks, v.index = u.index ∧ v.state = 3 ∧ v.staged = []) ∧ issueKeeps s t ∧
      t.g.s = s.g.s)) ∧
  ((∀ (s : State) (a : SReg) (u : Stack), s.b.live (s.sreg a) = some u → (∃ e ∈ s.c.drv, e.on s.b.slot u.index = true) →
    exec (.itfree a) s = .next { s with g := { s.g with wait := 3 } }) ∧
  (∀ (s : State) (a : SReg) (u : Stack), s.b.live (s.sreg a) = some u → (∀ e ∈ s.c.drv, e.on s.b.slot u.index = false) →
    ∃ t, exec (.itfree a) s = .next t ∧ (∀ v ∈ t.b.dstacks, v.index ≠ u.index) ∧
      t.g.spc = nextPc s ∧ t.g.s = s.g.s ∧ t.g.v = s.g.v ∧ (∀ x, t.mem.byte x = s.mem.byte x) ∧
      (s.b.stack u.index = some u → u.kids = [] → s.b.unacq = [] → Memory.wf s.b.spm = true → u.bytes.length ≤ 256 →
        (∀ k x, u.bytes[k]? = some x → t.b.spm.byte (u.isb + k) = x) ∧
        (∀ k x, u.staging[k]? = some x → t.b.spm.byte (u.isb + 256 + k) = x) ∧
        ∀ x, x < u.isb ∨ u.isb + 256 + u.staging.length ≤ x → t.b.spm.byte x = s.b.spm.byte x))) ∧
  (∀ (s : State) (f : FReg) (a sc : SReg) (k : KReg) (la : BitVec 4) (vd : VReg) (pd ph : PReg), s.b.live (s.sreg a) = none →
    (vd.toNat + 2 ≤ laneCount s → s.fPending f = false → exec (.drvNext f a k la vd pd ph sc) s = .next (s.takeTrap 0x0C {})) ∧
    exec (.enough a) s = .next (s.takeTrap 0x0C {}) ∧ exec (.itfree a) s = .next (s.takeTrap 0x0C {})) ∧
  (∀ (s : State) (f : FReg) (a b sc : SReg) (k : KReg) (la : BitVec 4) (off : Word32) (vd : VReg) (pd ph : PReg), s.fPending f = true →
    exec (.itbind f a b la off) s = .next (awaits s) ∧
    (vd.toNat + 2 ≤ laneCount s → exec (.drvNext f a k la vd pd ph sc) s = .next (awaits s)))

/-! ### Events -/

namespace Sys2Proof.Claims

/-- The state code of a handle (R287): 0 live, 1 not cancellable, 2 refused. -/
def handleState (h : Word64) : Nat := h.toNat / 2 ^ 62

/-- The payload of a scalar `sched`: the low and high halves of five registers from s[a+2] on (R290). -/
def schedPayload (s : State) (a : SReg) : List Word32 :=
  (upTo 10).map fun k => (s.sreg (a + BitVec.ofNat 6 (2 + k / 2))).extractLsb' (32 * (k % 2)) 32

/-- A handle value without its reserved bits 61:56, which name nothing (R287). -/
def handleBits (x : Word64) : Word64 := x &&& 0xC0FFFFFFFFFFFFFF

/-- An event's time: the creating event's plus the delay, exactly (R291). -/
def schedTime (s : State) (lane : Nat) (delay : Word64) : Nat := ((s.g.events[lane]?.map Event.time).getD 0).toNat + delay.toNat

end Sys2Proof.Claims

/-- R286, R290, R291: a scalar `sched` whose time does not pass 2^64 - 1, whose handler is valid, and for which the journey's quota and the
calendar's tiers have room, completes with exactly one pending event more, which has the next acceptance number, the creator's time plus the
delay, and the entity, tie and payload of its registers, and writes its handle. R291, R292: one whose time passes 2^64 - 1 completes with the
handle refused for reason 2, else one whose handler is not valid for reason 3, else one into a full quota or full tiers for reason 1; a
refusal changes nothing but the destination. -/
def Obligations.SchedAcceptsOrRefuses : Prop :=
  (∀ (s : State) (d a : SReg) (la : BitVec 4) (hd : BitVec 16) (pr : BitVec 2) (cn : Bool), s.openS d = false →
    schedTime s 0 (s.sreg a) < 2 ^ 64 → (∃ h ∈ s.j.handlers, h.id = hd ∧ h.valid = true) → s.j.pending.length < s.j.quota →
    (s.tierFor (s.homeCore ((s.sreg (a + 1)).extractLsb' 0 32)) (schedTime s 0 (s.sreg a))).isSome = true →
    ∃ t h, ∃ ev : Event, exec (.schedScalar d a la hd pr cn) s = .next t ∧ t.g.s = (if d = 0 then s.g.s else s.g.s.set d.toNat h) ∧
      t.g.spc = nextPc s ∧ (∀ x, t.mem.byte x = s.mem.byte x) ∧ t.b = s.b ∧ t.j.pending = s.j.pending ++ [ev] ∧ ev.seq = s.j.accepted ∧
      t.j.accepted = s.j.accepted + 1 ∧ ev.time.toNat = schedTime s 0 (s.sreg a) ∧ ev.handler = hd ∧ ev.prio = pr ∧ ev.canc = cn ∧
      ev.handle = h ∧ (cn = false → h = 0x4000000000000000) ∧ (cn = true → handleState h = 0 ∧ ∃ e ∈ t.j.handles, e.dispatched = false ∧
        handleWord 0 e.gen.toNat e.core e.entry = h) ∧
      ev.entity = (s.sreg (a + 1)).extractLsb' 0 32 ∧ ev.tie = (s.sreg (a + 1)).extractLsb' 32 32 ∧ ev.payload = schedPayload s a) ∧
  (∀ (s : State) (d a : SReg) (la : BitVec 4) (hd : BitVec 16) (pr : BitVec 2) (cn : Bool) (reason : Nat), s.openS d = false →
    (2 ^ 64 ≤ schedTime s 0 (s.sreg a) ∧ reason = 2 ∨
      schedTime s 0 (s.sreg a) < 2 ^ 64 ∧ (∀ h ∈ s.j.handlers, h.id = hd → h.valid = false) ∧ reason = 3 ∨
      schedTime s 0 (s.sreg a) < 2 ^ 64 ∧ (∃ h ∈ s.j.handlers, h.id = hd ∧ h.valid = true) ∧ reason = 1 ∧
        (s.j.quota ≤ s.j.pending.length ∨
          s.tierFor (s.homeCore ((s.sreg (a + 1)).extractLsb' 0 32)) (schedTime s 0 (s.sreg a)) = none)) →
    exec (.schedScalar d a la hd pr cn) s = .next (passed s (scalarResult s.g la d (BitVec.ofNat 64 (2 * 2 ^ 62 + reason)) 0)))

/-- R295, R296, R297: a scalar `cancel` answers 2 for a value that names no live handle, 1 for an event a round has selected, and otherwise 0
with the event gone from the pending ones, its handle entry free, and every other event and entry kept. Handle entries in use are distinct
(R288). -/
def Obligations.ScalarCancelOutcomes : Prop :=
  (∀ (s : State) (d a : SReg) (la : BitVec 4), (∀ e ∈ s.j.handles, handleWord 0 e.gen.toNat e.core e.entry ≠ handleBits (s.sreg a)) → s.openS d = false →
    exec (.cancelScalar d a la) s = .next (passed s (scalarResult s.g la d 2 0))) ∧
  (∀ (s : State) (d a : SReg) (la : BitVec 4) (e : HandleEnt), (s.j.handles.map fun x => handleWord 0 x.gen.toNat x.core x.entry).Nodup →
    e ∈ s.j.handles → handleWord 0 e.gen.toNat e.core e.entry = handleBits (s.sreg a) → s.openS d = false →
    (e.dispatched = true → exec (.cancelScalar d a la) s = .next (passed s (scalarResult s.g la d 1 0))) ∧
    (e.dispatched = false →
      ∃ t, exec (.cancelScalar d a la) s = .next t ∧ t.g = (passed s (scalarResult s.g la d 0 0)).g ∧
        t.j.pending = s.j.pending.filter (fun v => v.handle ≠ handleBits (s.sreg a)) ∧
        (∀ x, x ∈ t.j.handles ↔ x ∈ s.j.handles ∧ x ≠ e) ∧ ∀ x, t.mem.byte x = s.mem.byte x))

/-! ### Lane words -/

namespace Sys2Proof.Claims

/-- Whether a lane word acts in lane i (R102, R123, R124): its guard holds, and the lane holds an event under the captured mask, or is a
helper lane of a quad with such an event and the word's helper bit is set. A word that has issued before, and has its count, acts in its
unfinished lanes: its guard was read at that issue (R137). -/
def laneActs (s : State) (h : LaneHdr) (i : Nat) : Bool :=
  decide (i < 32) && s.g.ictx.todo.getLsbD i && (s.g.ictx.acc.isSome || h.guard == 15 || (s.pmask h.guard).getLsbD i != h.gneg) &&
    (if i < s.g.nev then s.g.ictx.mask.getLsbD i
     else h.h && (List.range s.g.nev).any fun k => k / 4 == i / 4 && decide (k < 32) && s.g.ictx.mask.getLsbD k)

/-- The acting lanes in ascending order. -/
def actors (s : State) (h : LaneHdr) : List Nat := (List.range 32).filter (laneActs s h)

/-- The lane queue after a lane word: the head has left it, or behind a parked head, inside its window, the word after the head (R48). -/
def queueAfter (s : State) : List LqEnt := if s.g.lpark = none then s.g.lq.tail else s.g.lq.eraseIdx 1

/-- The acting group after its lane word: the word has left the queue, and windows are one lane position nearer to their end. -/
def lanePassed (s : State) (g : Group) : State :=
  { s with g := { g with lq := queueAfter s, past := (if s.g.lpark = none then 0 else s.g.past + 1), winV := State.ageV g.winV,
                         winP := State.ageP g.winP } }

/-- Lane register number r with new values in the acting lanes. -/
def withLanes (v : Vector (Vector Word32 32) 256) (r : Nat) (act : Nat → Bool) (f : Nat → Word32) : Vector (Vector Word32 32) 256 :=
  v.setIfInBounds r (Vector.ofFn fun i => if act i.val then f i.val else ((v[r]?).getD (Vector.replicate 32 0))[i])

/-- The window that a lane result with lookahead opens (R45). -/
def laneWindow (v : Vector (Vector Word32 32) 256) (r : Nat) (la : BitVec 4) : List WinV :=
  if la = 0 then [] else [⟨BitVec.ofNat 8 r, (v[r]?).getD (Vector.replicate 32 0), la.toNat + 1, none⟩]

/-- The acting group with a lane result: one register, or an even pair with the low half in the even register (R60), in the acting lanes
alone; the flags of those lanes enter `%fpflags` (R68). -/
def laneResult (s : State) (h : LaneHdr) (w64 : Bool) (d : VReg) (f : Nat → Word64 × Word32) : Group :=
  let lo := withLanes s.g.v d.toNat (laneActs s h) fun i => (f i).1.setWidth 32
  let fl := (actors s h).foldl (fun x i => x ||| (f i).2) 0
  { s.g with
    v := if w64 then withLanes lo (d.toNat + 1) (laneActs s h) (fun i => (f i).1.extractLsb' 32 32) else lo,
    winV := (if w64 then laneWindow s.g.v (d.toNat + 1) h.la else []) ++ laneWindow s.g.v d.toNat h.la ++ s.g.winV,
    fpflags := s.g.fpflags ||| (fl &&& 0x7F) }

/-- A lane register that nothing earlier may still change or read: no window is open on it (R45), and no queued engine operation of the group
reads it (R149, R237, R242). -/
def laneFree (s : State) (r : Nat) : Prop :=
  s.openV r = false ∧ ∀ e ∈ s.c.eng, e.band = s.b.slot → e.group = s.g.slot → ∀ x ∈ e.srcV, r < x.first ∨ x.first + x.count ≤ r

/-- The destination of a lane result is free. -/
def destFree (s : State) (w64 : Bool) (d : VReg) : Prop := laneFree s d.toNat ∧ (w64 = true → laneFree s (d.toNat + 1))

/-- A lane's value of a register or of an even pair (R60). -/
def laneVal (s : State) (w64 : Bool) (r : VReg) (i : Nat) : Word64 :=
  if w64 then s.vlane (r.toNat + 1) i ++ s.vlane r.toNat i else (s.vlane r.toNat i).setWidth 64

/-- A 32-bit lane source as an integer of its type. -/
def laneInt (s : State) (t : ITy) (r : VReg) (i : Nat) : Int :=
  match t with
  | .s32 => (s.vlane r.toNat i).toInt
  | .n32 => (s.vlane r.toNat i).toNat

/-- An exact 32-bit integer result (R63, R105): wrapped, or under sat clamped with the flag. -/
def narrow (t : ITy) (sat : Bool) (x : Int) : Word64 × Word32 :=
  let lo : Int := match t with | .s32 => -(2 ^ 31) | .n32 => 0
  let hi : Int := match t with | .s32 => 2 ^ 31 - 1 | .n32 => 2 ^ 32 - 1
  if sat && decide (x < lo) then ((BitVec.ofInt 32 lo).setWidth 64, 32)
  else if sat && decide (hi < x) then ((BitVec.ofInt 32 hi).setWidth 64, 32)
  else ((BitVec.ofInt 32 x).setWidth 64, 0)

/-- Element k of four packed bytes as an integer of the type (R120). -/
def byteInt (t : ITy) (x : Word32) (k : Nat) : Int :=
  match t with
  | .s32 => (x.extractLsb' (8 * k) 8).toInt
  | .n32 => (x.extractLsb' (8 * k) 8).toNat

/-- Exact integer lane words (R105 to R107, R120): header, type, sat, destination and the exact value in a lane. -/
def laneExact (s : State) : Instr → Option (LaneHdr × ITy × Bool × VReg × (Nat → Int))
  | .iadd h t sat d a b => some (h, t, sat, d, fun i => laneInt s t a i + laneInt s t b i)
  | .isub h t sat d a b => some (h, t, sat, d, fun i => laneInt s t a i - laneInt s t b i)
  | .imul h t d a b => some (h, t, false, d, fun i => laneInt s t a i * laneInt s t b i)
  | .imulhi h t d a b => some (h, t, false, d, fun i => laneInt s t a i * laneInt s t b i / 2 ^ 32)
  | .imad h t sat d a b c => some (h, t, sat, d, fun i => laneInt s t a i * laneInt s t b i + laneInt s t c i)
  | .iabs h sat d a => some (h, .s32, sat, d, fun i => ((laneInt s .s32 a i).natAbs : Int))
  | .imin h t d a b => some (h, t, false, d, fun i => min (laneInt s t a i) (laneInt s t b i))
  | .imax h t d a b => some (h, t, false, d, fun i => max (laneInt s t a i) (laneInt s t b i))
  | .idot4 h t sat d a b c => some (h, t, sat, d, fun i => laneInt s t c i + ((List.range 4).map fun k =>
      byteInt t (s.vlane a.toNat i) k * byteInt t (s.vlane b.toNat i) k).sum)
  | _ => none

/-- The 32-bit value whose bit k is `f k`. -/
def ofBits32 (f : Nat → Bool) : Word64 := BitVec.ofNat 64 ((List.range 32).foldr (fun k n => (f k).toNat * 2 ^ k + n) 0)

/-- Lanes of an exchange width, and the first lane of a lane's segment (R126). -/
def segLanes : XWidth → Nat
  | .w32 => 32 | .w16 => 16 | .w8 => 8 | .w4 => 4

/-- An item of a lane's event (R298). A lane without an event has none but the round. -/
def itemRule (s : State) (it : EvItem) (i : Nat) : Word64 :=
  match it, (if i < s.g.nev then s.g.events[i]? else none) with
  | .round, _ => s.g.round.setWidth 64
  | _, none => 0
  | .time, some e => e.time
  | .entity, some e => e.entity.setWidth 64
  | .tie, some e => e.tie.setWidth 64
  | .seq, some e => e.seq
  | .handle, some e => e.handle
  | .rank, some _ => BitVec.ofNat 64 (i + 32 * s.g.rank)
  | .hdr, some e => BitVec.ofNat 64 (e.handler.toNat + 2 ^ 16 * e.prio.toNat + 2 ^ 18 * e.gang.toNat + 2 ^ 19 * e.canc.toNat)

/-- Lane words whose value is a plain function of the lanes (R106, R114, R122, R125 to R127, R298): header, width, destination, value. -/
def laneMoves (s : State) : Instr → Option (LaneHdr × Bool × VReg × (Nat → Word64))
  | .laneAnd h d a b => some (h, false, d, fun i => (w a i &&& w b i).setWidth 64)
  | .laneOr h d a b => some (h, false, d, fun i => (w a i ||| w b i).setWidth 64)
  | .laneXor h d a b => some (h, false, d, fun i => (w a i ^^^ w b i).setWidth 64)
  | .bmux h d a b c tbl => some (h, false, d, fun i => ofBits32 fun k =>
      tbl.getLsbD (((w a i).getLsbD k).toNat + 2 * ((w b i).getLsbD k).toNat + 4 * ((w c i).getLsbD k).toNat))
  | .laneShl h d a b => some (h, false, d, fun i => (BitVec.ofNat 32 ((w a i).toNat * 2 ^ min 32 (w b i).toNat)).setWidth 64)
  | .laneShr h d a b => some (h, false, d, fun i => BitVec.ofNat 64 ((w a i).toNat / 2 ^ min 32 (w b i).toNat))
  | .laneSar h d a b => some (h, false, d, fun i => (BitVec.ofInt 32 ((w a i).toInt / 2 ^ min 32 (w b i).toNat)).setWidth 64)
  | .iadd64 h d a b => some (h, true, d, fun i => laneVal s true a i + laneVal s true b i)
  | .laneBfx h t d a pos len => some (h, false, d, fun i => ofBits32 fun k =>
      if k < len.toNat then (w a i).getLsbD (pos.toNat + k) else t == .s32 && (w a i).getLsbD (pos.toNat + len.toNat - 1))
  | .laneBfi h d a pos len => some (h, false, d, fun i => ofBits32 fun k =>
      if pos.toNat ≤ k ∧ k < pos.toNat + len.toNat then (w a i).getLsbD (k - pos.toNat) else (w d i).getLsbD k)
  | .lanePopc h d a => some (h, false, d, fun i => BitVec.ofNat 64 (countBelow 32 (w a i).getLsbD))
  | .laneClz h d a => some (h, false, d, fun i => BitVec.ofNat 64 (countBelow 32 fun k => decide ((w a i).toNat < 2 ^ k)))
  | .laneBrev h d a => some (h, false, d, fun i => ofBits32 fun k => (w a i).getLsbD (31 - k))
  | .pmovToVreg h d => some (h, false, d, fun i => ofBits32 fun k => decide (k < 12) && (s.pmask (BitVec.ofNat 4 k)).getLsbD i)
  | .laneSel h w64 d a b c => some (h, w64, d, fun i => if (s.pmask c).getLsbD i then laneVal s w64 a i else laneVal s w64 b i)
  | .laneMov h w64 d a => some (h, w64, d, laneVal s w64 a)
  | .laneMovi h d imm => some (h, false, d, fun _ => imm.setWidth 64)
  | .qswapH h w64 d a => some (h, w64, d, fun i => laneVal s w64 a (if i % 2 = 0 then i + 1 else i - 1))
  | .qswapV h w64 d a => some (h, w64, d, fun i => laneVal s w64 a (if i % 4 < 2 then i + 2 else i - 2))
  | .qswapD h w64 d a => some (h, w64, d, fun i => laneVal s w64 a (4 * (i / 4) + (3 - i % 4)))
  | .qbcast h w64 d a pos => some (h, w64, d, fun i => laneVal s w64 a (4 * (i / 4) + pos.toNat))
  | .xlanePick h w64 x d a b => some (h, w64, d, fun i => laneVal s w64 a (i - i % segLanes x + (w b i).toNat % segLanes x))
  | .xlaneLift h w64 x d a n => some (h, w64, d, fun i => laneVal s w64 a (if n.toNat ≤ i % segLanes x then i - n.toNat else i))
  | .xlaneDrop h w64 x d a n => some (h, w64, d, fun i => laneVal s w64 a (if i % segLanes x + n.toNat < segLanes x then i + n.toNat else i))
  | .xlaneMirror h w64 x d a n => some (h, w64, d, fun i => laneVal s w64 a (i - i % segLanes x + Nat.xor (i % segLanes x) n.toNat))
  | .evinfo h it d => some (h, it.wide, d, itemRule s it)
  | _ => none
where
  w (r : VReg) (i : Nat) : Word32 := s.vlane r.toNat i

/-- Floating lane words (R108 to R111, R115 to R121) without a latch or stochastic rounding: header, width, destination, and in each lane
the result code with its flags. Packed types are computed element by element (R109). -/
def laneFloats (s : State) : Instr → Option (LaneHdr × Bool × VReg × (Nat → FRes))
  | .fadd h t rnd ftz d a b => some (h, t.is64, d, packed t fun k i => fAdd t.fmt rnd ftz (e t a k i) (e t b k i))
  | .fsub h t rnd ftz d a b => some (h, t.is64, d, packed t fun k i => fSub t.fmt rnd ftz (e t a k i) (e t b k i))
  | .fmul h t rnd ftz d a b => some (h, t.is64, d, packed t fun k i => fMul t.fmt rnd ftz (e t a k i) (e t b k i))
  | .fma h t rnd ftz d a b c => some (h, t.is64, d, packed t fun k i => fFma t.fmt rnd ftz (e t a k i) (e t b k i) (e t c k i))
  | .fminNum h t d a b => some (h, t.is64, d, packed t fun k i => fMinMax t.fmt false false (e t a k i) (e t b k i))
  | .fminNan h t d a b => some (h, t.is64, d, packed t fun k i => fMinMax t.fmt false true (e t a k i) (e t b k i))
  | .fmaxNum h t d a b => some (h, t.is64, d, packed t fun k i => fMinMax t.fmt true false (e t a k i) (e t b k i))
  | .fmaxNan h t d a b => some (h, t.is64, d, packed t fun k i => fMinMax t.fmt true true (e t a k i) (e t b k i))
  | .frcp h t d a => some (h, t.is64, d, fun i => fRcp t.fmt (laneVal s t.is64 a i).toNat)
  | .fsqrt h t d a => some (h, t.is64, d, fun i => fSqrt t.fmt (laneVal s t.is64 a i).toNat)
  | .frsq h d a => some (h, false, d, fun i => fRsq (cand 0 s a i) (s.vlane a.toNat i).toNat)
  | .fex2 h d a => some (h, false, d, fun i => fEx2 (cand 1 s a i) (s.vlane a.toNat i).toNat)
  | .flg2 h d a => some (h, false, d, fun i => fLg2 (cand 2 s a i) (s.vlane a.toNat i).toNat)
  | .fsin h d a => some (h, false, d, fun i => fSinCos false (cand 3 s a i) (s.vlane a.toNat i).toNat)
  | .fcos h d a => some (h, false, d, fun i => fSinCos true (cand 4 s a i) (s.vlane a.toNat i).toNat)
  | .scacc h false rnd d a b c _ _ => some (h, false, d, fun i =>
      scaleAdd rnd false (s.vlane a.toNat i).toNat [fp32.decode (s.vlane b.toNat i).toNat, fp32.decode (s.vlane (b.toNat + 1) i).toNat] false
        (s.vlane c.toNat i).toNat)
  | .scacc h true rnd d a b c x y => some (h, false, d, fun i =>
      let sc (k : BitVec 2) : Nat := (s.vlane b.toNat i).toNat / 2 ^ (8 * k.toNat) % 256
      scaleAdd rnd false (s.vlane a.toNat i).toNat [e8m0Decode (sc x), e8m0Decode (sc y)] (sc x == 0xFF || sc y == 0xFF)
        (s.vlane c.toNat i).toNat)
  | _ => none
where
  e (t : FTy) (r : VReg) (k i : Nat) : Nat :=
    match t with
    | .f32 | .f64 => (laneVal s t.is64 r i).toNat
    | .f16x2 | .bf16x2 => (s.vlane r.toNat i).toNat / 2 ^ (16 * k) % 2 ^ 16
  packed (t : FTy) (f : Nat → Nat → FRes) (i : Nat) : FRes :=
    match t with
    | .f32 | .f64 => f 0 i
    | .f16x2 | .bf16x2 => ⟨(f 0 i).code + (f 1 i).code * 2 ^ 16, (f 0 i).fl ||| (f 1 i).fl⟩

/-- The terms of a dot word (R117, R118): sixteen products, or for DS8 weights thirty-two, of the registers' bytes. -/
def dotRule (ds8 e5m2 : Bool) (x y : Nat → Nat) : List (FVal × FVal) :=
  (List.range 16).flatMap fun j =>
    if ds8 then [(ds8Term (x j / 16), fe4m3.decode (y j)), (ds8Term (x j), fe4m3.decode (y j))]
    else if e5m2 then [(fe5m2.decode (x j), fe5m2.decode (y j))] else [(fe4m3.decode (x j), fe4m3.decode (y j))]

/-- Byte j of the sixteen that a lane holds in a run of four registers (R60). -/
def runByte (regs : List (Vector Word32 32)) (i j : Nat) : Nat :=
  ((regs[j / 4]?).map fun v => (v.toList.getD i 0).toNat / 2 ^ (8 * (j % 4)) % 256).getD 0

/-- Operand A of a dot word and the operand latch after it (R119). -/
def latchRule (s : State) (reuse : Bool) (a : VReg) : List (Vector Word32 32) × Option Latch :=
  let regs := (List.range 4).map fun k => s.vregs (a.toNat + k)
  match reuse, s.g.latch with
  | false, _ => (regs, none)
  | true, some l => if l.first = a.toNat ∧ l.count = 4 then (l.regs, some l) else (regs, some ⟨a.toNat, 4, regs⟩)
  | true, none => (regs, some ⟨a.toNat, 4, regs⟩)

/-- Dot words (R117): header, DS8 weights, E5M2 elements, rounding, reuse, flush and the registers. -/
def dotForm : Instr → Option (LaneHdr × Bool × Bool × Rnd × Bool × Bool × VReg × VReg × VReg × VReg)
  | .fdot16 h e5m2 rnd reuse ftz d a b c => some (h, false, e5m2, rnd, reuse, ftz, d, a, b, c)
  | .ddot16 h rnd reuse ftz d a b c => some (h, true, false, rnd, reuse, ftz, d, a, b, c)
  | _ => none

/-- Bits of an element of a type, and the number of elements that a 32-bit register holds of it (R60, R115). -/
def elemBits : LTy → Nat
  | .s32 | .n32 | .b32 | .f32 => 32
  | .s64 | .n64 | .b64 | .f64 => 64
  | .f16x2 | .bf16x2 => 16
  | .e4m3 | .e5m2 | .ds8 | .e8m0 => 8
  | .e2m1 | .i4 => 4
def elemCount (t : LTy) : Nat := if elemBits t = 64 then 1 else 32 / elemBits t

/-- Source element k of a conversion in a lane (R115): packs take consecutive registers, selects one element or pair. -/
def cvtSource (s : State) (dst src : LTy) (a : VReg) (elem i k : Nat) : Nat :=
  let b := elemBits src
  if elemCount src = 1 then (if b = 64 then (laneVal s true a i).toNat else (s.vlane (a.toNat + k) i).toNat)
  else
    let n := if elemCount dst = 1 then elem else if elemCount dst = 2 ∧ b < 16 then 2 * elem + k else k
    (s.vlane (a.toNat + n / elemCount src) i).toNat / 2 ^ (b * (n % elemCount src)) % 2 ^ b

/-- The stochastic state of a lane after n elements (R62): it steps only under `.rs`. -/
def stochAfter (rnd : Rnd) (x : Word32) : Nat → Word32
  | 0 => x
  | n + 1 => if rnd = .rs then stochNext (stochAfter rnd x n) else x

/-- The element results of a conversion in a lane. -/
def cvtResult (s : State) (dst src : LTy) (rnd : Rnd) (sat : Bool) (a : VReg) (elem i k : Nat) : FRes :=
  cvtElem dst src rnd sat ((stochAfter rnd (s.g.stoch.toList.getD i 0) (k + 1)).toNat / 2 ^ 16) (cvtSource s dst src a elem i k)

end Sys2Proof.Claims

/-- R105 to R107, R120: an exact integer lane word gives every acting lane its value, wrapped or clamped with the flag; every other lane and
register, and memory, keep theirs. -/
def Obligations.LaneIntegerValues : Prop :=
  ∀ (s : State) (i : Instr) (h : LaneHdr) (t : ITy) (sat : Bool) (d : VReg) (f : Nat → Int), laneExact s i = some (h, t, sat, d, f) →
    destFree s false d → exec i s = .next (lanePassed s (laneResult s h false d fun k => narrow t sat (f k)))

/-- R106, R114, R122, R125 to R127, R298: logic, shifts, fields, counts, moves, selects, exchanges and event items. All sources are read before
a lane is written (R125). -/
def Obligations.LaneMoveValues : Prop :=
  ∀ (s : State) (i : Instr) (h : LaneHdr) (w64 : Bool) (d : VReg) (f : Nat → Word64), i.wf = true → laneMoves s i = some (h, w64, d, f) →
    destFree s w64 d → exec i s = .next (lanePassed s (laneResult s h w64 d fun k => (f k, 0)))

/-- R108 to R111, R117 to R119, R121: floating lane words give every acting lane its result code and OR its flags; a dot word takes A by the
latch rule and leaves the latch as it says. -/
def Obligations.LaneFloatValues : Prop :=
  (∀ (s : State) (i : Instr) (h : LaneHdr) (w64 : Bool) (d : VReg) (f : Nat → FRes), i.wf = true → laneFloats s i = some (h, w64, d, f) →
    destFree s w64 d → exec i s = .next (lanePassed s (laneResult s h w64 d fun k => (BitVec.ofNat 64 (f k).code, (f k).fl)))) ∧
  (∀ (s : State) (i : Instr) (h : LaneHdr) (ds8 e5m2 ftz reuse : Bool) (rnd : Rnd) (d a b c : VReg),
    dotForm i = some (h, ds8, e5m2, rnd, reuse, ftz, d, a, b, c) → (∀ e ∈ s.c.eng, e.empties = false) → destFree s false d →
    exec i s = .next (lanePassed s { laneResult s h false d (fun k =>
      let r := aligner 12 (dotRule ds8 e5m2 (runByte (latchRule s reuse a).1 k) (runByte ((List.range 4).map fun n => s.vregs (b.toNat + n)) k))
        (s.vlane c.toNat k).toNat rnd ftz
      (BitVec.ofNat 64 r.code, r.fl)) with latch := (latchRule s reuse a).2 }))

/-- R115, R116, R62: `cvt` converts each element it reads in order, packs the results, ORs their flags, and steps the stochastic state of the
acting lanes under `.rs` alone. -/
def Obligations.LaneConversions : Prop :=
  ∀ (s : State) (h : LaneHdr) (dst src : LTy) (rnd : Rnd) (sat : Bool) (d a : VReg) (elem : BitVec 3),
    (Instr.cvt h dst src rnd sat d a elem).wf = true → destFree s dst.is64 d →
    exec (.cvt h dst src rnd sat d a elem) s = .next (lanePassed s { laneResult s h dst.is64 d (fun i =>
      let r := cvtResult s dst src rnd sat a elem.toNat i
      (BitVec.ofNat 64 ((List.range (elemCount dst)).map fun k => (r k).code * 2 ^ (k * elemBits dst)).sum,
        (List.range (elemCount dst)).foldl (fun x k => x ||| (r k).fl) 0)) with
      stoch := Vector.ofFn fun i => if laneActs s h i.val then stochAfter rnd s.g.stoch[i] (elemCount dst) else s.g.stoch[i] })

/-! ### Predicates and scans -/

namespace Sys2Proof.Claims

/-- The 32-lane mask of a rule. -/
def mask32 (f : Nat → Bool) : Word32 := BitVec.ofNat 32 ((List.range 32).foldr (fun k n => (f k).toNat * 2 ^ k + n) 0)

/-- The acting group with a predicate's acting lanes rewritten, and the lookahead window of that predicate (R45, R112, R113). -/
def predResult (s : State) (h : LaneHdr) (g : Group) (d : PReg) (f : Nat → Bool) : Group :=
  let old := g.p.toList.getD d.toNat 0
  { g with p := g.p.setIfInBounds d.toNat (mask32 fun i => if laneActs s h i then f i else old.getLsbD i),
           winP := if h.la = 0 then g.winP else ⟨d, old, h.la.toNat + 1⟩ :: g.winP }

/-- A source of `icmp` by its type (R112). -/
def cmpInt (s : State) (t : ICmpTy) (r : VReg) (i : Nat) : Int :=
  match t with
  | .s32 => (s.vlane r.toNat i).toInt
  | .n32 => (s.vlane r.toNat i).toNat
  | .s64 => (laneVal s true r i).toInt
  | .n64 => (laneVal s true r i).toNat
def laneCond (cc : LCond) (a b : Int) : Bool :=
  match cc with
  | .eq => decide (a = b)
  | .ne => decide (a ≠ b)
  | .lt => decide (a < b)
  | .le => decide (a ≤ b)
  | .gt => decide (a > b)
  | .ge => decide (a ≥ b)

/-- Words that write one predicate: header, predicate, the bit in a lane and its flags (R112, R113). -/
def predRule (s : State) : Instr → Option (LaneHdr × PReg × (Nat → Bool) × (Nat → Word32))
  | .icmpCc h t cc d a b => some (h, d, fun i => laneCond cc (cmpInt s t a i) (cmpInt s t b i), fun _ => 0)
  | .fcmpCc h t cc d a b => some (h, d, fun i => (fc t cc a b i).1, fun i => (fc t cc a b i).2)
  | .pand h d a b => some (h, d, fun i => q a i && q b i, fun _ => 0)
  | .por h d a b => some (h, d, fun i => q a i || q b i, fun _ => 0)
  | .pxor h d a b => some (h, d, fun i => q a i != q b i, fun _ => 0)
  | .pnot h d a => some (h, d, fun i => !q a i, fun _ => 0)
  | .pmov h d a => some (h, d, q a, fun _ => 0)
  | .pmovFromVreg h d a => some (h, d, fun i => decide (s.vlane a.toNat i ≠ 0), fun _ => 0)
  | _ => none
where
  q (r : PReg) (i : Nat) : Bool := (s.pmask r).getLsbD i
  fc (t : F2) (cc : FCond) (a b : VReg) (i : Nat) : Bool × Word32 :=
    fCmp t.fmt false cc (laneVal s t.is64 a i).toNat (laneVal s t.is64 b i).toNat

/-- Where a segment starts in a list of lanes: the lanes of the last segment of a list, in order (R129, R131). -/
def lastSegment (head : Nat → Bool) (l : List Nat) : List Nat :=
  l.foldl (fun seg i => if head i then [i] else seg ++ [i]) []

/-- The running value of a segment with its flags (R129, R130): the operation from left to right. -/
def runOver (t : ScanTy) (op : ScanOp) (x : Nat → Word32) : List Nat → Word32 × Word32
  | [] => (scanIdentity t op, 0)
  | i :: l => l.foldl (fun a k => (BitVec.ofNat 32 (scanOp t op a.1 (x k)).code, a.2 ||| (scanOp t op a.1 (x k)).fl)) (x i, 0)

/-- What a scan gives lane i: the running value of its segment up to the lane, or up to the lane before it. -/
def scanValue (t : ScanTy) (op : ScanOp) (excl : Bool) (head : Nat → Bool) (x : Nat → Word32) (lanes : List Nat) (i : Nat) : Word32 :=
  let seg := lastSegment head (lanes.takeWhile (· ≠ i) ++ [i])
  (runOver t op x (if excl then seg.dropLast else seg)).1

/-- The flags of a whole scan: those of every step in every segment. -/
def scanFlags (t : ScanTy) (op : ScanOp) (head : Nat → Bool) (x : Nat → Word32) (lanes : List Nat) : Word32 :=
  lanes.foldl (fun fl i => fl ||| (runOver t op x (lastSegment head (lanes.takeWhile (· ≠ i) ++ [i]))).2) 0

/-- Scans: header, type, operation, exclusive form, destination, source, and where segments start (R128, R131). -/
def scanForm (s : State) : Instr → Option (LaneHdr × ScanTy × ScanOp × Bool × VReg × VReg × (Nat → Bool))
  | .scan h t op excl d a => some (h, t, op, excl, d, a, fun _ => false)
  | .sscan h t op excl d a c => some (h, t, op, excl, d, a, fun i => (s.pmask c).getLsbD i)
  | _ => none

/-- Whether a lane is the last of its segment (R131): no acting lane follows it, or the next one is a head. -/
def isTail (head : Nat → Bool) (lanes : List Nat) (i : Nat) : Bool :=
  lanes.contains i && match (lanes.dropWhile (· ≠ i)).tail with
    | [] => true
    | k :: _ => head k

end Sys2Proof.Claims

/-- R112, R113, R114: compares and predicate words write one predicate in the acting lanes, `pmov` from a register its whole set. -/
def Obligations.LanePredicates : Prop :=
  (∀ (s : State) (i : Instr) (h : LaneHdr) (d : PReg) (f : Nat → Bool) (fl : Nat → Word32), i.wf = true → predRule s i = some (h, d, f, fl) →
    (∀ w ∈ s.g.winP, w.reg ≠ d) →
    exec i s = .next (lanePassed s { predResult s h s.g d f with
      fpflags := s.g.fpflags ||| ((actors s h).foldl (fun x k => x ||| fl k) 0 &&& 0x7F) })) ∧
  (∀ (s : State) (h : LaneHdr) (a : VReg), s.g.winP = [] →
    exec (.pmovAll h a) s = .next (lanePassed s ((List.range 12).foldl (fun g k =>
      predResult s h g (BitVec.ofNat 4 k) fun i => (s.vlane a.toNat i).getLsbD k) s.g)))

/-- R128 to R131: `scan` and `sscan` give every acting lane the running or the exclusive value of its segment; `sred` gives the last acting lane
of each segment the segment's value and marks those lanes in a predicate. -/
def Obligations.LaneScans : Prop :=
  (∀ (s : State) (i : Instr) (h : LaneHdr) (t : ScanTy) (op : ScanOp) (excl : Bool) (d a : VReg) (head : Nat → Bool),
    scanForm s i = some (h, t, op, excl, d, a, head) → destFree s false d →
    exec i s = .next (lanePassed s { laneResult s h false d (fun k =>
      ((scanValue t op excl head (s.vlane a.toNat) (actors s h) k).setWidth 64, 0)) with
      fpflags := s.g.fpflags ||| (scanFlags t op head (s.vlane a.toNat) (actors s h) &&& 0x7F) })) ∧
  (∀ (s : State) (h : LaneHdr) (t : ScanTy) (op : ScanOp) (d a : VReg) (b c : PReg), (Instr.sred h t op d a b c).wf = true → destFree s false d →
    (∀ w ∈ s.g.winP, w.reg ≠ b) →
    ∃ u, exec (.sred h t op d a b c) s = .next u ∧
      u.g.v = withLanes s.g.v d.toNat (fun k => laneActs s h k && isTail (fun i => (s.pmask c).getLsbD i) (actors s h) k)
        (scanValue t op false (fun i => (s.pmask c).getLsbD i) (s.vlane a.toNat) (actors s h)) ∧
      u.g.p = (predResult s h s.g b (isTail (fun i => (s.pmask c).getLsbD i) (actors s h))).p ∧
      u.g.fpflags = s.g.fpflags ||| (scanFlags t op (fun i => (s.pmask c).getLsbD i) (s.vlane a.toNat) (actors s h) &&& 0x7F) ∧
      u.g.lq = queueAfter s ∧ u.g.s = s.g.s ∧ u.g.k = s.g.k ∧ u.mem = s.mem ∧ u.b.spm = s.b.spm)

/-! ### Lane memory -/

namespace Sys2Proof.Claims

/-- Bytes and destination registers of a lane access type (R39, R172). -/
def accBytes : MTy → Nat
  | .n8 | .s8 => 1
  | .n16 | .s16 => 2
  | .b32 => 4
  | .b64 => 8
  | .b128 => 16
def accRegs : MTy → Nat
  | .b64 => 2
  | .b128 => 4
  | _ => 1

/-- A lane's access address (R169 to R171): the captured base, the offset and the scaled index, aligned down to the access size. -/
def laneAddress (s : State) (m : LaneAddr) (size i : Nat) : Word64 :=
  let x := s.g.ictx.base + m.off.signExtend 64 + (if m.idx then (s.vlane m.b.toNat i).signExtend 64 <<< m.scale.toNat else 0)
  BitVec.ofNat 64 (x.toNat / size * size)

/-- The j-th register of a loaded value (R172). -/
def loadedWord (t : MTy) (byte : Nat → Byte) (a j : Nat) : Word32 :=
  match t with
  | .n8 => (byte a).setWidth 32
  | .s8 => (byte a).signExtend 32
  | .n16 => BitVec.ofNat 32 (leNat byte a 2)
  | .s16 => (BitVec.ofNat 16 (leNat byte a 2)).signExtend 32
  | _ => BitVec.ofNat 32 (leNat byte (a + 4 * j) 4)

/-- Byte k of the value that a lane stores: the low bytes of its register, or its registers from the first on (R172). -/
def storedByte (s : State) (d : VReg) (i k : Nat) : Byte := (s.vlane (d.toNat + k / 4) i).extractLsb' (8 * (k % 4)) 8

/-- Lanes that store: acting event lanes (R124). -/
def storers (s : State) (h : LaneHdr) : List Nat := (actors s h).filter (· < s.g.nev)

/-- A lane's access lies in the band's allocation (R165). -/
def inScratch (s : State) (x : Word64) (n : Nat) : Bool := decide (0 ≤ x.toInt) && decide (x.toInt + n ≤ s.b.handler.allocation)

/-- The whole word is performed at once, and its path can count it (R179). -/
def wholeWord (s : State) (p : Path) : Prop :=
  64 ≤ s.g.ictx.part ∧ s.g.ictx.acc = none ∧ s.g.ictx.lows = 0 ∧ s.pathCount p < 63

/-- The lane registers after a load: register j of the destination gets the j-th part. -/
def loadInto (s : State) (h : LaneHdr) (t : MTy) (d : VReg) (f : Nat → Nat → Word32) : Vector (Vector Word32 32) 256 :=
  (List.range (accRegs t)).foldl (fun v j => withLanes v (d.toNat + j) (laneActs s h) fun i => f i j) s.g.v

/-- Every destination register of a load is free. -/
def loadFree (s : State) (t : MTy) (d : VReg) : Prop := ∀ j, j < accRegs t → laneFree s (d.toNat + j)

/-- The byte at x after the lanes of a list store n bytes each, in their order: the last lane that covers x (R173). -/
def overlaid (lanes : List Nat) (at_ : Nat → Nat) (n : Nat) (data : Nat → Nat → Byte) (x : Nat) (old : Byte) : Byte :=
  lanes.foldl (fun y i => if at_ i ≤ x ∧ x < at_ i + n then data i (x - at_ i) else y) old

/-- The lanes of a list translate to pool places, once the word is counted (R177, R341). -/
def placed (s : State) (p : Path) (n : Need) (lanes : List Nat) (va : Nat → Word64) (pa : Nat → Nat) : Prop :=
  ∃ s1 tag, s.countAcc p = some (s1, tag) ∧ (xlateLanes s1 n va lanes).2 = lanes.map fun i => (i, .pool (pa i))

/-- What a lane word keeps beside its destination. -/
def laneKeeps (s t : State) : Prop :=
  t.g.lq = queueAfter s ∧ t.g.s = s.g.s ∧ t.g.p = s.g.p ∧ t.g.k = s.g.k ∧ t.g.f = s.g.f ∧ t.g.spc = s.g.spc ∧ t.g.lpc = s.g.lpc ∧
    t.g.llink = s.g.llink ∧ t.g.fpflags = s.g.fpflags ∧ t.g.latch = s.g.latch ∧ t.g.hold = s.g.hold

/-- The guard record after a scratchpad word (R166): the lowest lane out of bounds, where no record is held yet. -/
def guardAfter (s : State) (lanes : List Nat) (at_ : Nat → Word64) (n : Nat) (kind : BitVec 2) : Option Guard :=
  match lanes.find? fun i => !inScratch s (at_ i) n, s.g.guard with
  | none, r => r
  | some i, none => some ⟨s.g.ictx.addr, s.g.ictx.lqAddr, i, at_ i, kind, 0⟩
  | some _, some r => some { r with further := min 255 (r.further + 1) }

end Sys2Proof.Claims

/-- R165, R166, R171, R172: `ld.s` and `st.s`: lanes within the allocation load their bytes or store them in ascending lane order; a lane out of
bounds loads zero or stores nothing, and the group holds a guard record. R170 to R173: `ld.g` and `st.g` whose lanes all translate to the
pool: the acting lanes load their bytes, and the acting event lanes store theirs in ascending order; no other byte changes. -/
def Obligations.LaneMemoryWords : Prop :=
  ((∀ (s : State) (h : LaneHdr) (t : MTy) (d : VReg) (m : LaneAddr), (Instr.ldS h t d m).wf = true → wholeWord s .ld → loadFree s t d →
    s.b.dstacks = [] → s.b.rings = [] → s.b.unacq = [] →
    ∃ u, exec (.ldS h t d m) s = .next u ∧ u.g.v = loadInto s h t d (fun i j =>
        if inScratch s (laneAddress s m (accBytes t) i) (accBytes t) then loadedWord t s.b.spm.byte (laneAddress s m (accBytes t) i).toNat j else 0) ∧
      u.g.guard = guardAfter s (actors s h) (laneAddress s m (accBytes t)) (accBytes t) 0 ∧ laneKeeps s u ∧ u.mem = s.mem ∧ u.b = s.b) ∧
  (∀ (s : State) (h : LaneHdr) (t : MTy) (d : VReg) (m : LaneAddr), (Instr.stS h t d m).wf = true → wholeWord s .st → Memory.wf s.b.spm = true → s.b.dstacks = [] →
    s.b.rings = [] → s.b.unacq = [] →
    ∃ u, exec (.stS h t d m) s = .next u ∧ (∀ x, u.b.spm.byte x =
        overlaid ((storers s h).filter fun i => inScratch s (laneAddress s m (accBytes t) i) (accBytes t))
          (fun i => (laneAddress s m (accBytes t) i).toNat) (accBytes t) (storedByte s d) x (s.b.spm.byte x)) ∧
      u.g.guard = guardAfter s (storers s h) (laneAddress s m (accBytes t)) (accBytes t) 1 ∧ laneKeeps s u ∧ u.g.v = s.g.v ∧ u.mem = s.mem ∧
      u.b.wide = s.b.wide)) ∧
  ((∀ (s : State) (h : LaneHdr) (t : MTy) (d : VReg) (m : LaneAddr) (pa : Nat → Nat), (Instr.ldG h t d m).wf = true → wholeWord s .ld →
    loadFree s t d → placed s .ld needR (actors s h) (laneAddress s m (accBytes t)) pa → (∀ i ∈ actors s h, quiet s (pa i) (accBytes t)) →
    ∃ u, exec (.ldG h t d m) s = .next u ∧ u.g.v = loadInto s h t d (fun i j => loadedWord t s.mem.byte (pa i) j) ∧ laneKeeps s u ∧
      u.g.guard = s.g.guard ∧ u.mem = s.mem ∧ u.b = s.b) ∧
  (∀ (s : State) (h : LaneHdr) (t : MTy) (d : VReg) (m : LaneAddr) (pa : Nat → Nat), (Instr.stG h t d m).wf = true → wholeWord s .st → Memory.wf s.mem = true →
    placed s .st needW (storers s h) (laneAddress s m (accBytes t)) pa → (∀ i ∈ storers s h, quiet s (pa i) (accBytes t)) →
    ∃ u, exec (.stG h t d m) s = .next u ∧
      (∀ x, u.mem.byte x = overlaid (storers s h) pa (accBytes t) (storedByte s d) x (s.mem.byte x)) ∧ laneKeeps s u ∧ u.g.v = s.g.v ∧
      u.g.guard = s.g.guard ∧ u.b = s.b))

namespace Sys2Proof.Claims

/-- Words whose accesses are performed apart from the word (R176, R187, R188): path, rights, header, lanes, address and size. -/
def apart (s : State) : Instr → Option (Path × Need × List Nat × LaneAddr × Nat)
  | .ldx h t _ m => some (.ga, needR, actors s h, m, accBytes t)
  | .stx h t _ m => some (.ga, needW, storers s h, m, accBytes t)
  | .atom h t _ _ _ _ _ m => some (.ld, needRW, storers s h, m, if t.is64 then 8 else 4)
  | .red h t _ _ _ _ m => some (.st, needRW, storers s h, m, if t.is64 then 8 else 4)
  | _ => none

/-- What a lane's request asks (R176, R192, R193). -/
def asks (s : State) (i : Nat) : Instr → Option ReqKind
  | .ldx _ t d _ => some (.load t d)
  | .stx _ t d _ => some (.store ((List.range (accBytes t)).map (storedByte s d i)))
  | .atom _ t op _ d a c _ => some (.atom op t (laneVal s t.is64 a i) (laneVal s t.is64 c i) (some d))
  | .red _ t op _ a c _ => some (.atom op t (laneVal s t.is64 a i) (laneVal s t.is64 c i) none)
  | _ => none

/-- The accesses of a lane's request, with the place of each in it: a 16-byte one is two of 8 bytes (R319). -/
def halves : ReqKind → List (Nat × ReqKind)
  | .load .b128 d => [(0, .load .b64 d), (8, .load .b64 (d + 2))]
  | .store l => if l.length = 16 then [(0, .store (l.take 8)), (8, .store (l.drop 8))] else [(0, .store l)]
  | k => [(0, k)]

/-- Lane registers that a word's answers will write are free. -/
def answersFree (s : State) : Instr → Prop
  | .ldx _ t d _ => loadFree s t d
  | .atom _ t _ _ d _ _ _ => destFree s t.is64 d
  | _ => True

/-- Requests of the core's Porter fit its capacity (R176). -/
def porterFits (s : State) (n : Nat) : Instr → Prop
  | .ldx .. | .stx .. => s.porterHeld + n ≤ Config.porterRequests
  | _ => True

end Sys2Proof.Claims

/-- R174, R176, R187, R188, R190 to R193: `ldx`, `stx`, `atom` and `red` whose lanes translate to the pool send one request for each lane, or
two for the halves of a 16-byte one, with its address and operands, count once, and leave the queue; memory and lane registers are unchanged until the requests are performed. `cp.gs`
queues one copy for each acting event lane whose destination lies in the allocation. -/
def Obligations.LaneRequestWords : Prop :=
  (∀ (s : State) (i : Instr) (p : Path) (n : Need) (lanes : List Nat) (m : LaneAddr) (size : Nat) (pa : Nat → Nat), i.wf = true →
    apart s i = some (p, n, lanes, m, size) → wholeWord s p → placed s p n lanes (laneAddress s m size) pa → answersFree s i →
    porterFits s lanes.length i →
    ∃ u qs, exec i s = .next u ∧ u.reqs = s.reqs ++ qs ∧ (∀ q ∈ qs, q.core = s.g.core ∧ q.slot = s.g.slot) ∧
      qs.map (fun q => (q.lane, q.pa, q.va, q.kind)) = lanes.flatMap (fun l => match asks s l i with
        | some k => (halves k).map fun x => (l, pa l + x.1, laneAddress s m size l + BitVec.ofNat 64 x.1, x.2)
        | none => []) ∧
      u.pathCount p = s.pathCount p + 1 ∧ laneKeeps s u ∧ u.g.v = s.g.v ∧ u.mem = s.mem ∧ u.b = s.b) ∧
  (∀ (s : State) (h : LaneHdr) (t : MTy) (d : VReg) (m : LaneAddr) (pa : Nat → Nat), (Instr.cpGs h t d m).wf = true → wholeWord s .sp →
    placed s .sp needR (storers s h) (laneAddress s m (accBytes t)) pa →
    ∃ u cs, exec (.cpGs h t d m) s = .next u ∧ u.b.copies = s.b.copies ++ cs ∧
      cs.map (fun c => (c.lane, c.pa, c.dst, c.size)) =
        ((storers s h).filter fun i => inScratch s (BitVec.ofInt 64 ((s.vlane d.toNat i).toInt / accBytes t * accBytes t)) (accBytes t)).map
          (fun i => (i, pa i, (s.vlane d.toNat i).toInt / accBytes t * accBytes t, accBytes t)) ∧
      u.pathCount .sp = s.pathCount .sp + 1 ∧ laneKeeps s u ∧ u.g.v = s.g.v ∧ u.mem = s.mem ∧ u.b.spm = s.b.spm)

/-! ### Lane events and tile copies -/

namespace Sys2Proof.Claims

/-- The lanes of a `sched` in ascending order (R291), each accepted or refused by the calendar as it then stands. -/
def schedLanes (s : State) (a b : VReg) (hd : BitVec 16) (pr : BitVec 2) (cn : Bool) : State → List Nat → State × List Word64
  | u, [] => (u, [])
  | u, i :: l =>
    let payload := (List.range 10).map fun k => s.vlane (a.toNat + k) i
    let r := u.schedOne i (laneVal s true b i) hd pr cn (s.vlane (b.toNat + 2) i) (s.vlane (b.toNat + 3) i) payload
    let q := schedLanes s a b hd pr cn r.1 l
    (q.1, r.2 :: q.2)

/-- The lanes of a `cancel` in ascending order (R295). -/
def cancelLanes (s : State) (a : VReg) : State → List Nat → State × List Nat
  | u, [] => (u, [])
  | u, i :: l =>
    let r := u.cancelOne (laneVal s true a i)
    let q := cancelLanes s a r.1 l
    (q.1, r.2 :: q.2)

/-- The answer of a lane in a list of answers. -/
def answerOf {α : Type} (lanes : List Nat) (l : List α) (i : Nat) : Option α := ((lanes.zip l).find? fun e => e.1 = i).map Prod.snd

/-- No queued engine operation of the group's band holds a tile. -/
def tileQuiet (s : State) : Prop := ∀ e ∈ s.c.eng, e.band ≠ s.b.slot

end Sys2Proof.Claims

/-- R289, R291, R295, R297: lane `sched` and `cancel` act for the acting event lanes in ascending order, each on the calendar that the lane
before it left, and write the handles or the outcome codes in those lanes. -/
def Obligations.LaneEventWords : Prop :=
  (∀ (s : State) (h : LaneHdr) (d a b : VReg) (hd : BitVec 16) (pr : BitVec 2) (cn : Bool), (Instr.sched h d a b hd pr cn).wf = true →
    destFree s true d →
    ∃ u, exec (.sched h d a b hd pr cn) s = .next u ∧ u.j = (schedLanes s a b hd pr cn s (storers s h)).1.j ∧
      u.g.v = (laneResult s { h with h := false } true d fun i =>
        ((answerOf (storers s h) (schedLanes s a b hd pr cn s (storers s h)).2 i).getD 0, 0)).v ∧ laneKeeps s u ∧ u.mem = s.mem ∧ u.b = s.b) ∧
  (∀ (s : State) (h : LaneHdr) (d a : VReg), (Instr.cancel h d a).wf = true → destFree s false d →
    ∃ u, exec (.cancel h d a) s = .next u ∧ u.j = (cancelLanes s a s (storers s h)).1.j ∧
      u.g.v = (laneResult s { h with h := false } false d fun i =>
        (BitVec.ofNat 64 ((answerOf (storers s h) (cancelLanes s a s (storers s h)).2 i).getD 0), 0)).v ∧ laneKeeps s u ∧ u.mem = s.mem ∧ u.b = s.b)

/-- R246: where no operation of the band is queued, `acpy.ar` copies tile elements into lane registers and `acpy.ra` lane registers into tile
elements: register j of lane i is column c0 + j of row i, or of row 32 + i with the half bit. -/
def Obligations.TileCopies : Prop :=
  (∀ (s : State) (h : LaneHdr) (d : VReg) (n : BitVec 7) (c0 : BitVec 6) (half : Bool) (tile : BitVec 5),
    (Instr.acpyAr h d n c0 half tile).wf = true → tileQuiet s → (∀ j, j < n.toNat → s.openV (d.toNat + j) = false) →
    ∃ u, exec (.acpyAr h d n c0 half tile) s = .next u ∧
      u.g.v = (List.range n.toNat).foldl (fun v j => withLanes v (d.toNat + j) (laneActs s h) fun i =>
        s.b.tile tile.toNat (i + (if half then 32 else 0)) (c0.toNat + j)) s.g.v ∧ laneKeeps s u ∧ u.mem = s.mem ∧ u.b = s.b) ∧
  (∀ (s : State) (h : LaneHdr) (a : VReg) (n : BitVec 7) (c0 : BitVec 6) (half : Bool) (tile : BitVec 5),
    (Instr.acpyRa h a n c0 half tile).wf = true → tileQuiet s → SMap.wf 0 s.b.tiles = true →
    ∃ u, exec (.acpyRa h a n c0 half tile) s = .next u ∧
      (∀ t r c, r < 64 → c < 64 → u.b.tile t r c =
        if t = tile.toNat ∧ r / 32 = half.toNat ∧ laneActs s h (r % 32) ∧ c0.toNat ≤ c ∧ c < c0.toNat + n.toNat
        then s.vlane (a.toNat + (c - c0.toNat)) (r % 32) else s.b.tile t r c) ∧
      laneKeeps s u ∧ u.g.v = s.g.v ∧ u.mem = s.mem ∧ u.b.spm = s.b.spm)

/-! ### The device's own steps: engines -/

namespace Sys2Proof.Claims

/-- A core's engine queue has `e` at its head, of a band and a group that live; no register or element that `e` uses was written meanwhile
(R237, R240), and the band's stores have drained to the wide port (R238). -/
def engAt (s : State) (core : Nat) (e : EngEnt) (es : List EngEnt) (b : Band) (g : Group) : Prop :=
  (s.core core).eng = e :: es ∧ s.band? core e.band = some b ∧ s.group? core e.group = some g ∧ g.dead = false ∧ b.members ≠ [] ∧
    b.wq = [] ∧ SMap.wf 0 b.tiles = true ∧ SMap.wf 0 b.counting.cnt = true ∧ b.counting.parity = none ∧ b.counting.undefd = false ∧
    e.spoiled = false ∧ e.empties = false

/-- The head is gone, its operation is done under the same token, and the group's scalar registers and memory are as before. -/
def engDid (s t : State) (core : Nat) (e : EngEnt) (es : List EngEnt) (g : Group) : Prop :=
  (t.core core).eng = es ∧ (t.group? core e.group).map (·.s) = some g.s ∧ t.mem = s.mem ∧
    ∀ o ∈ (s.core core).ops, e.op = some o.slot → ∃ o' ∈ (t.core core).ops, o'.slot = o.slot ∧ o'.gen = o.gen ∧ o'.st = .done

/-- A tile element of a band after the step. -/
def tileOf (t : State) (core band tile r c : Nat) : Option Word32 := (t.band? core band).map fun b => b.tile tile r c
/-- A counter of a band after the step. -/
def counterOf (t : State) (core band r c k : Nat) : Option Int := (t.band? core band).map fun b => b.counting.at r c k

/-- Byte j of row or column r of the block that a step k of a loop reads through the wide port (R231, R233). -/
def wideOf (b : Band) (off : Nat) (inc : Int) (k r j : Nat) : Nat := (b.wide.byte (((off : Int) + inc * k).toNat + (16 * r + j))).toNat

/-- One K-step of an element (R230, R231, R235): A from the eight registers read at issue or through the wide port. -/
def kElem (b : Band) (aReg : Option (List (Vector Word32 32))) (aOff : Nat) (aInc : Int) (bOff : Nat) (bInc : Int) (rnd : Rnd) (ftz : Bool)
    (fmt : MFmt) (k r c : Nat) (acc : Word32) : Word32 :=
  let a (j : Nat) : Nat := match aReg with
    | some regs => ((regs[4 * (r / 32) + j / 4]?).map fun v => (v.toList.getD (r % 32) 0).toNat / 2 ^ (8 * (j % 4)) % 256).getD 0
    | none => wideOf b aOff aInc k r j
  BitVec.ofNat 32 (aligner fmt.alignBits (mTerms fmt ftz a (wideOf b bOff bInc k c)) acc.toNat rnd ftz).code

/-- An accumulator after the K-steps 0 to n - 1. -/
def kFold (f : Nat → Word32 → Word32) (acc : Word32) : Nat → Word32
  | 0 => acc
  | n + 1 => f n (kFold f acc n)

/-- Code j of row or column r of a counting block (R253): four bits, in rows of eight or sixteen bytes. -/
def codeOf (b : Band) (off : Nat) (inc : Int) (bytes k r j : Nat) : Nat :=
  (b.wide.byte (((off : Int) + inc * k).toNat + (bytes * r + j / 2))).toNat / 2 ^ (4 * (j % 2)) % 16

/-- What one K-step adds to a counter (R253, R256): sixteen products. In split form, columns 2c and 2c + 1 take the halves of a row of 32
codes. -/
def stepCount (b : Band) (aOff : Nat) (aInc : Int) (bOff : Nat) (bInc : Int) (split : Bool) (fmt : CFmt) (r c k i : Nat) : Int :=
  ((List.range 16).map fun j =>
    if split then countOf fmt (codeOf b aOff aInc 16 i r (16 * (c % 2) + j)) (codeOf b bOff bInc 16 i (c / 2) (16 * (c % 2) + j)) k
    else countOf fmt (codeOf b aOff aInc 8 i r j) (codeOf b bOff bInc 8 i c j) k).sum

/-- A counter is 16 bits wide. -/
def wrap16 (x : Int) : Int := (BitVec.ofInt 16 x).toInt

/-- What a drain leaves in the tiles, as a function of tile, row and column: its cells in their order, each with the counts of its counters and
of its row's count tile as the earlier cells have left it, scaled and added to its destination (R261, R262). -/
def drainedTiles (s : State) (b : Band) (pairs e8 rs cs ftz : Bool) (rnd : Rnd) (dtile cv rv : Nat) (m : Counting) :
    List (Nat × Nat) → (Nat → Nat → Nat → Word32) → Nat → Nat → Nat → Word32
  | [], t => t
  | (r, c) :: l, t =>
    let w := if pairs then c / 2 else c
    let n := dtile + (if pairs then r / 64 else 2 * (r / 64) + c / 64)
    let fmt := m.fmt.getD .e2m1
    let d : Int := ((List.range 32).map fun k => magOf fmt k * (b.counting.at r c k +
      if m.nspill = 0 then 0 else (t (m.sbase + r) (c / 2) (32 * (c % 2) + k)).toInt)).sum
    let x := scaleOf s rs e8 false rv r
    let y := scaleOf s cs e8 false cv w
    let v : Word32 := BitVec.ofNat 32 (scaleAddVal rnd ftz (.fin (decide (d < 0)) d.natAbs (if fmt = .e2m1 then -2 else 0)) (x.1 ++ y.1)
      (x.2 || y.2) (t n (r % 64) (w % 64)).toNat).code
    drainedTiles s b pairs e8 rs cs ftz rnd dtile cv rv m l fun a i j => if a = n ∧ i = r % 64 ∧ j = w % 64 then v else t a i j

/-- The cells of a drain in their order: rows, and in a row the columns, or the even ones under `.pairs` (R262). -/
def cellsOf (pairs : Bool) (extent : Nat) : List (Nat × Nat) :=
  (List.range extent).flatMap fun r => ((List.range 128).filter fun c => !(pairs && c % 2 == 1)).map fun c => (r, c)

end Sys2Proof.Claims

/-- R231, R235, R243, R245: the completions of the matrix engine. `mloop` accumulates its K-steps in its tile, or step n in the tile after the
n-th; `mdrain` adds the scaled source to the destination, tile or lane registers, and clears the source where it says so; `aset` fills its
tiles. No other element changes. -/
def Obligations.MatrixCompletions : Prop :=
  (∀ (s : State) (core : Nat) (e : EngEnt) (es : List EngEnt) (b : Band) (g : Group) (aReg : Option (List (Vector Word32 32)))
    (areg aOff bOff steps tile : Nat) (aInc bInc : Int) (rnd : Rnd) (ftz tstep : Bool) (fmt : MFmt), engAt s core e es b g →
    e.cmd = .mloop aReg areg aOff aInc bOff bInc steps rnd ftz tstep tile fmt →
    ∃ t, exec (.mloopCompletion core) s = .next t ∧ engDid s t core e es g ∧ ∀ n r c, r < 64 → c < 64 → tileOf t core e.band n r c = some (
      let f (k : Nat) : Word32 → Word32 := kElem b aReg aOff aInc bOff bInc rnd ftz fmt k r c
      if tstep then (if tile ≤ n ∧ n < tile + steps then f (n - tile) (b.tile n r c) else b.tile n r c)
      else if n = tile then kFold f (b.tile n r c) steps else b.tile n r c)) ∧
  (∀ (s : State) (core : Nat) (e : EngEnt) (es : List EngEnt) (b : Band) (g : Group) (half e8 rs cs clear ftz : Bool) (rnd : Rnd)
    (vd dtile stile cv rv : Nat), engAt s core e es b g →
    e.cmd = .mdrain false half e8 rs cs clear ftz rnd vd dtile stile cv rv →
    ∃ t, exec (.mdrainCompletion core) s = .next t ∧ engDid s t core e es g ∧ ∀ n r c, r < 64 → c < 64 → tileOf t core e.band n r c = some (
      let x := scaleOf { s with g := g } rs e8 ftz rv r
      let y := scaleOf { s with g := g } cs e8 ftz cv c
      if n = stile ∧ clear = true then 0
      else if n = dtile then BitVec.ofNat 32 (scaleAdd rnd ftz (b.tile stile r c).toNat (x.1 ++ y.1) (x.2 || y.2) (b.tile dtile r c).toNat).code
      else b.tile n r c)) ∧
  (∀ (s : State) (core : Nat) (e : EngEnt) (b : Band) (g : Group) (half e8 rs cs clear ftz : Bool) (rnd : Rnd)
    (vd dtile stile cv rv : Nat), engAt s core e [] b g → g.winV = [] → vd + 64 ≤ 256 →
    e.cmd = .mdrain true half e8 rs cs clear ftz rnd vd dtile stile cv rv →
    ∃ t g', exec (.mdrainCompletion core) s = .next t ∧ engDid s t core e [] g ∧ t.group? core e.group = some g' ∧
      (∀ c i, c < 64 → i < 32 → (g'.v[vd + c]?).map (laneOf · i) = some (
        let r := i + (if half then 32 else 0)
        let x := scaleOf { s with g := g } rs e8 ftz rv r
        let y := scaleOf { s with g := g } cs e8 ftz cv c
        BitVec.ofNat 32 (scaleAdd rnd ftz (b.tile stile r c).toNat (x.1 ++ y.1) (x.2 || y.2)
          ((g.v[vd + c]?).map fun v => (laneOf v i).toNat).get!).code)) ∧
      (∀ k, k < vd ∨ vd + 64 ≤ k → g'.v[k]? = g.v[k]?) ∧
      ∀ n r c, r < 64 → c < 64 → tileOf t core e.band n r c = some (
        if n = stile ∧ clear = true ∧ r / 32 = half.toNat then 0 else b.tile n r c)) ∧
  (∀ (s : State) (core : Nat) (e : EngEnt) (es : List EngEnt) (b : Band) (g : Group) (tile count : Nat) (v : Word32), engAt s core e es b g →
    e.cmd = .aset tile count v →
    ∃ t, exec (.asetCompletion core) s = .next t ∧ engDid s t core e es g ∧ ∀ n r c, r < 64 → c < 64 →
      tileOf t core e.band n r c = some (if tile ≤ n ∧ n < tile + count then v else b.tile n r c))

/-- R253, R256 to R262: the completions of the counting array. A loop adds its products' counts in its rows; a merge adds odd columns to even
ones and clears the odd ones; a spill adds the counters to the count tiles and clears them; a drain adds every cell's value, scaled, to its
tile element, cell after cell, and clears the array. -/
def Obligations.CountingCompletions : Prop :=
  (∀ (s : State) (core : Nat) (e : EngEnt) (es : List EngEnt) (b : Band) (g : Group) (aOff bOff steps rows : Nat) (aInc bInc : Int) (split : Bool)
    (fmt : CFmt), engAt s core e es b g → e.cmd = .cloop aOff aInc bOff bInc split steps rows fmt →
    ∃ t, exec (.cloopCompletion core) s = .next t ∧ engDid s t core e es g ∧ ∀ r c k, c < 128 → k < 32 → counterOf t core e.band r c k = some (
      if r < rows then wrap16 (b.counting.at r c k + ((List.range steps).map fun i => stepCount b aOff aInc bOff bInc split fmt r c k i).sum)
      else b.counting.at r c k)) ∧
  (∀ (s : State) (core : Nat) (e : EngEnt) (es : List EngEnt) (b : Band) (g : Group), engAt s core e es b g → e.cmd = .cmerge →
    ∃ t, exec (.cmergeCompletion core) s = .next t ∧ engDid s t core e es g ∧ ∀ r c k, r < 128 → c < 128 → k < 32 →
      counterOf t core e.band r c k = some (if c % 2 = 0 then wrap16 (b.counting.at r c k + b.counting.at r (c + 1) k) else 0)) ∧
  (∀ (s : State) (core : Nat) (e : EngEnt) (es : List EngEnt) (b : Band) (g : Group) (tile extent : Nat) (first : Bool) (m : Counting),
    engAt s core e es b g → e.cmd = .cspill tile first extent m →
    ∃ t, exec (.cspillCompletion core) s = .next t ∧ engDid s t core e es g ∧
      (∀ r i j, r < extent → i < 64 → j < 64 → tileOf t core e.band (tile + r) i j = some ((if first then 0 else b.tile (tile + r) i j) +
        BitVec.ofInt 32 (b.counting.at r (2 * i + j / 32) (j % 32)))) ∧
      (∀ r c k, r < extent → c < 128 → k < 32 → counterOf t core e.band r c k = some 0)) ∧
  (∀ (s : State) (core : Nat) (e : EngEnt) (es : List EngEnt) (b : Band) (g : Group) (pairs e8 rs cs ftz : Bool) (rnd : Rnd) (dtile cv rv : Nat)
    (m : Counting), engAt s core e es b g → e.cmd = .cdrain pairs e8 rs cs ftz rnd dtile cv rv m →
    ∃ t, exec (.cdrainCompletion core) s = .next t ∧ engDid s t core e es g ∧
      (∀ n i j, i < 64 → j < 64 → tileOf t core e.band n i j =
        some (drainedTiles { s with g := g } b pairs e8 rs cs ftz rnd dtile cv rv m (cellsOf pairs m.extent) b.tile n i j)) ∧
      (∀ r c k, counterOf t core e.band r c k = some 0))

namespace Sys2Proof.Claims

/-- A stream engine's queue on a core. -/
def seQueue (s : State) (core eng : Nat) : List SeCmd := if eng = 0 then (s.core core).se0 else (s.core core).se1

/-- The state in which a stream engine reads and writes for its head command. -/
def seView (s : State) (core : Nat) (cmd : SeCmd) : State := s.focusBand core cmd.band cmd.group

/-- A stream engine has `cmd` at its head with no box begun and nothing read ahead, of a band and a group that live and whose leaf has taken the band (R418); the
engine does the whole of its next box in this step (R281), no group holds a ring of the band broken (R271), no failed access holds the
command (R282), and no store made meanwhile contends with it (R324). -/
def seAt (s : State) (core eng : Nat) (cmd : SeCmd) (cs : List SeCmd) (b : Band) (g : Group) : Prop :=
  eng < 2 ∧ seQueue s core eng = cmd :: cs ∧ s.band? core cmd.band = some b ∧ s.group? core cmd.group = some g ∧ g.dead = false ∧
    b.members ≠ [] ∧ b.broken = [] ∧ (∀ o ∈ (s.core core).ops, o.park = none) ∧ Memory.wf b.spm = true ∧ Memory.wf b.wide = true ∧
    s.commanded core cmd.band = false ∧ s.few = none ∧ cmd.elems = [] ∧ cmd.put = 0 ∧ cmd.pre = [] ∧ b.kept = [] ∧ (seView s core cmd).j.kept = []

/-- An operation of a core has ended done, under its own token. -/
def opDone (s t : State) (core op : Nat) : Prop :=
  ∀ o ∈ (s.core core).ops, o.slot = op → ∃ o' ∈ (t.core core).ops, o'.slot = op ∧ o'.gen = o.gen ∧ o'.st = .done

/-- The address of element k of box i translates through the core's TLB to a pool place. -/
def elemAt (u : State) (n : Need) (cmd : SeCmd) (y : Layout) (i k pa : Nat) : Prop :=
  ∃ va, y.addr (cmd.startOf i) k = some va ∧ u.xlate none n va = (u, .pool pa)

/-- Elements that a command writes: each in-bounds one has its place, places of two elements are equal or apart (R268), and no failing or
window address is met. -/
def elemsPlaced (u : State) (n : Need) (cmd : SeCmd) (y : Layout) (lo hi : Nat) : Prop :=
  (∀ i k va, lo ≤ i → i < hi → k < prodOf (y.box.take y.ndim) → y.addr (cmd.startOf i) k = some va → ∃ pa, u.xlate none n va = (u, .pool pa)) ∧
  ∀ i k i' k' pa pa', lo ≤ i → i < hi → lo ≤ i' → i' < hi → k < prodOf (y.box.take y.ndim) → k' < prodOf (y.box.take y.ndim) →
    elemAt u n cmd y i k pa → elemAt u n cmd y i' k' pa' → pa = pa' ∨ pa + y.size ≤ pa' ∨ pa' + y.size ≤ pa

/-- The instruction that starts a command of a kind (R278). -/
def startsKind (core eng : Nat) : Nat → Option Instr
  | 1 => some (.seLoad core eng)
  | 2 => some (.seStore core eng)
  | 4 => some (.seQuant core eng)
  | _ => none

end Sys2Proof.Claims

/-- R270 to R273, R279, R280: the stream engines. A load, store or quant command without a failure cause starts and claims its numbers on its
ring; a claimed slot that is free is filled with the box's elements at their places, or with the quant arrays, and waits for its
publication; the fill whose turn it is becomes full, with its type; a full outbound slot is written to memory element by element and
released; a set command writes its value to every in-bounds element of its boxes. -/
def Obligations.StreamEngineSteps : Prop :=
  (∀ (s : State) (core eng : Nat) (cmd : SeCmd) (cs : List SeCmd) (b : Band) (g : Group) (i : Instr) (r : Ring), seAt s core eng cmd cs b g →
    startsKind core eng cmd.kind = some i → cmd.started = false → seCauses (seView s core cmd) cmd = [] → seRing (seView s core cmd) cmd = some r →
    cmd.ringOff = some r.off →
    ∃ t b' c, exec i s = .next t ∧ t.band? core cmd.band = some b' ∧ seQueue t core eng = c :: cs ∧ c.op = cmd.op ∧ c.started = true ∧
      c.first = (if r.out then r.take else r.claim) ∧ t.mem = s.mem ∧
      leNat b'.spm.byte (r.off + (if r.out then 24 else 16)) 4 =
        ((if r.out then r.take else r.claim) + (if r.out then cmd.boxes else cmd.total)) % (2 * r.slots * (2 ^ 31 / r.slots))) ∧
  (∀ (s u : State) (core eng : Nat) (cmd : SeCmd) (cs : List SeCmd) (b : Band) (g : Group) (r : Ring) (y : Layout) (elems : List (List Byte)),
    seAt s core eng cmd cs b g → cmd.started = true → cmd.kind = 1 → cmd.next < cmd.boxes → seRing (seView s core cmd) cmd = some r →
    cmd.ringOff = some r.off → seLayout (seView s core cmd) cmd = some y → y.bytes ≤ r.sbytes →
    (∀ e ∈ b.wq, e.1 ≠ r.off + 64 + cmd.number r cmd.next % r.slots) →
    (b.wide.byte (r.off + 64 + cmd.number r cmd.next % r.slots)).getLsbD 1 = decide (cmd.number r cmd.next / r.slots % 2 = 1) →
    readBox (seView s core cmd) (seRec (seView s core cmd) eng cmd 4) y (cmd.startOf cmd.next) (prodOf (y.box.take y.ndim)) 0 = (u, elems, none) →
    ∃ t b' c, exec (.ringSlotFill core eng) s = .next t ∧ t.band? core cmd.band = some b' ∧ seQueue t core eng = c :: cs ∧
      c.next = cmd.next + 1 ∧ b'.fills = b.fills ++ [⟨r.off, cmd.number r cmd.next, false⟩] ∧ t.mem = s.mem ∧
      ∀ k j e, elems[k]? = some e → j < y.size →
        some (b'.spm.byte (r.doff + cmd.number r cmd.next % r.slots * r.sbytes + y.place k + j)) = e[j]?) ∧
  (∀ (s u : State) (core eng : Nat) (cmd : SeCmd) (cs : List SeCmd) (b : Band) (g : Group) (r : Ring) (y : Layout) (elems : List (List Byte)),
    seAt s core eng cmd cs b g → cmd.started = true → cmd.kind = 4 → cmd.next < cmd.boxes → seRing (seView s core cmd) cmd = some r →
    cmd.ringOff = some r.off → seLayout (seView s core cmd) cmd = some y →
    (∀ e ∈ b.wq, e.1 ≠ r.off + 64 + cmd.number r cmd.next % r.slots) →
    (b.wide.byte (r.off + 64 + cmd.number r cmd.next % r.slots)).getLsbD 1 = decide (cmd.number r cmd.next / r.slots % 2 = 1) →
    readBox (seView s core cmd) (seRec (seView s core cmd) eng cmd 4) y (cmd.startOf cmd.next) (prodOf (y.box.take y.ndim)) 0 = (u, elems, none) →
    ∃ t b' c, exec (.ringSlotFill core eng) s = .next t ∧ t.band? core cmd.band = some b' ∧ seQueue t core eng = c :: cs ∧
      c.next = cmd.next + 1 ∧ c.fl = cmd.fl ||| (quantBox y cmd elems).2 ∧
      b'.fills = b.fills ++ [⟨r.off, cmd.number r cmd.next, false⟩] ∧ t.mem = s.mem ∧
      ∀ j x, (quantBox y cmd elems).1[j]? = some x → b'.spm.byte (r.doff + cmd.number r cmd.next % r.slots * r.sbytes + j) = x) ∧
  (∀ (s : State) (core band off : Nat) (b : Band) (g : Group) (r : Ring) (f : Fill), s.band? core band = some b → b.members ≠ [] →
    s.group? core (b.members.headD 0) = some g → g.dead = false → b.broken = [] → Memory.wf b.spm = true →
    ringAt b.spm b.handler.allocation off = some r → b.fills = [f] → f.ring = off → (off, f.n) ∈ b.rings → s.commanded core band = false →
    (b.spm.byte (r.off + 64 + f.n % r.slots)).getLsbD 1 = decide (f.n / r.slots % 2 = 1) →
    ∃ t b', exec (.slotPublish core band off) s = .next t ∧ t.band? core band = some b' ∧ b'.fills = [] ∧ t.mem = s.mem ∧
      (b'.spm.byte (r.off + 64 + f.n % r.slots)).getLsbD 0 = decide (f.n / r.slots % 2 = 0) ∧
      (b'.spm.byte (r.off + 64 + f.n % r.slots)).getLsbD 2 = f.eos ∧ (off, (f.n + 1) % (2 * r.slots * (2 ^ 31 / r.slots))) ∈ b'.rings ∧
      ∀ x, x ≠ r.off + 64 + f.n % r.slots → b'.spm.byte x = b.spm.byte x) ∧
  (∀ (s : State) (core eng : Nat) (cmd : SeCmd) (cs : List SeCmd) (b : Band) (g : Group) (r : Ring) (y : Layout),
    seAt s core eng cmd cs b g → cmd.started = true → cmd.kind = 2 → cmd.next < cmd.boxes → seRing (seView s core cmd) cmd = some r → r.out = true →
    cmd.ringOff = some r.off → seLayout (seView s core cmd) cmd = some y → b.wq = [] → Memory.wf s.mem = true →
    (b.wide.byte (r.off + 64 + cmd.number r cmd.next % r.slots)).getLsbD 0 = decide (cmd.number r cmd.next / r.slots % 2 = 0) →
    (b.wide.byte (r.off + 64 + cmd.number r cmd.next % r.slots)).getLsbD 2 = false →
    elemsPlaced (seView s core cmd) needW cmd y cmd.next (cmd.next + 1) →
    ∃ t b', exec (.ringSlotDrain core eng) s = .next t ∧ t.band? core cmd.band = some b' ∧
      (b'.spm.byte (r.off + 64 + cmd.number r cmd.next % r.slots)).getLsbD 1 = decide (cmd.number r cmd.next / r.slots % 2 = 0) ∧
      (if cmd.boxes = cmd.next + 1 then seQueue t core eng = cs ∧ opDone s t core cmd.op
       else ∃ c, seQueue t core eng = c :: cs ∧ c.next = cmd.next + 1) ∧
      ∀ k pa j, k < prodOf (y.box.take y.ndim) → j < y.size → elemAt (seView s core cmd) needW cmd y cmd.next k pa →
        (∀ k' , k < k' → k' < prodOf (y.box.take y.ndim) → ¬ elemAt (seView s core cmd) needW cmd y cmd.next k' pa) →
        t.mem.byte (pa + j) = b.wide.byte (r.doff + cmd.number r cmd.next % r.slots * r.sbytes + y.place k + j)) ∧
  (∀ (s : State) (core eng : Nat) (cmd : SeCmd) (cs : List SeCmd) (b : Band) (g : Group) (y : Layout), seAt s core eng cmd cs b g →
    cmd.kind = 3 → cmd.started = false → cmd.next = 0 → seCauses (seView s core cmd) cmd = [] → seLayout (seView s core cmd) cmd = some y →
    Memory.wf s.mem = true → elemsPlaced (seView s core cmd) needW cmd y 0 cmd.boxes →
    ∃ t, exec (.seSet core eng) s = .next t ∧ seQueue t core eng = cs ∧ opDone s t core cmd.op ∧
      ∀ i k pa j, i < cmd.boxes → k < prodOf (y.box.take y.ndim) → j < y.size → elemAt (seView s core cmd) needW cmd y i k pa →
        t.mem.byte (pa + j) = BitVec.ofNat 8 (cmd.r 5 / 2 ^ (8 * j)))

/-! ### The Drover's steps -/

namespace Sys2Proof.Claims

/-- The Drover holds one entry on a core, of a band and a group that live, with its operation. -/
def drvAt (s : State) (core op : Nat) (e : DrvEnt) (b : Band) (g : Group) : Prop :=
  (s.core core).drv = [e] ∧ e.op = some op ∧ s.band? core e.band = some b ∧ s.group? core e.group = some g ∧ g.dead = false ∧ b.members ≠ [] ∧
    (∃ o ∈ (s.core core).ops, o.slot = op) ∧ (∀ o ∈ (s.core core).ops, o.park = none) ∧ s.commanded core e.band = false ∧ s.few = none ∧
    b.kept = []

/-- A delivering stack of a band has at least n items staged, and no store has met its block (R203). -/
def stagedIn (b : Band) (i n : Nat) (k : Stack) : Prop := b.stack i = some k ∧ k.state = 1 ∧ n ≤ k.staged.length ∧ k.spoiled = false

/-- The places that a drain of n items writes (R224, R225), each with its bytes: the components a, the status word, the components b of a
stack of arity 2, and the head marks where the command asks for them. -/
def drainTargets (regs : List Word64) (two : Bool) (n : Nat) : List (Nat × Nat) :=
  let r (k : Nat) : Nat := (regs.getD k 0).toNat
  [(r 2, 4 * n), (r 4, 8)] ++ (if two then [(r 3, 4 * n)] else []) ++ (if r 5 = 2 ^ 64 - 1 then [] else [(r 5, (n + 7) / 8)])

/-- How many lanes of a mask lie below lane l. -/
def rankIn (m : Word32) (l : Nat) : Nat := countBelow l m.getLsbD

end Sys2Proof.Claims

/-- R212, R215 to R217, R224, R225: `itbind` completes; a pull whose items are staged writes item k to its k-th lane in ascending order, the
predicates and the status word with their count; a drain whose items are staged writes their components to its arrays, their head marks to
its bitmap and their count to its status word, and no other byte of the scratchpad. -/
def Obligations.DroverSteps : Prop :=
  (∀ (s : State) (core op i : Nat) (e : DrvEnt) (b : Band) (g : Group), drvAt s core op e b g → e.cmd = .bind i →
    ∃ t, exec (.itbindCompletion core op) s = .next t ∧ (t.core core).drv = [] ∧ opDone s t core op) ∧
  (∀ (s : State) (core op i : Nat) (e : DrvEnt) (b : Band) (g : Group) (lanes : Word32) (vd : VReg) (pd ph : PReg) (sc : SReg) (k : Stack),
    drvAt s core op e b g → e.cmd = .pull i lanes vd pd ph sc → e.got = [] → stagedIn b i (countBelow 32 lanes.getLsbD) k →
    (s.core core).eng = [] → g.winS = [] → g.winV = [] → g.winP = [] → vd.toNat + 1 < 256 → pd.toNat < 12 → pd ≠ ph →
    ∃ t g', exec (.nextPullCompletion core op) s = .next t ∧ t.group? core e.group = some g' ∧ (t.core core).drv = [] ∧ opDone s t core op ∧
      g'.s = writeS g.s sc (BitVec.ofNat 64 (countBelow 32 lanes.getLsbD)) ∧
      (∀ l, l < 32 → lanes.getLsbD l = true → (g'.v[vd.toNat]?).map (laneOf · l) = (k.staged[rankIn lanes l]?).map (·.a) ∧
        (k.arity2 = true → (g'.v[vd.toNat + 1]?).map (laneOf · l) = (k.staged[rankIn lanes l]?).map (·.b))) ∧
      (∀ l, l < 32 → lanes.getLsbD l = false → (g'.v[vd.toNat]?).map (laneOf · l) = (g.v[vd.toNat]?).map (laneOf · l)) ∧
      g'.p[pd.toNat]? = some lanes ∧
      (ph.toNat < 12 → g'.p[ph.toNat]? = some (mask32 fun l => lanes.getLsbD l && ((k.staged[rankIn lanes l]?).map (·.head)).getD false)) ∧
      t.mem = s.mem) ∧
  (∀ (s : State) (core op i n : Nat) (e : DrvEnt) (b : Band) (g : Group) (regs : List Word64) (k : Stack),
    drvAt s core op e b g → e.cmd = .drain (some i) regs → e.got = [] → e.wrote = 0 → stagedIn b i n k →
    n = (regs.getD 0 0).toNat / 2 ^ 32 → drainBad regs k.arity2 = false → drainOutside b.handler.allocation regs k.arity2 = false →
    Memory.wf b.spm = true →
    (drainTargets regs k.arity2 n).Pairwise (fun x y => x.1 + x.2 ≤ y.1 ∨ y.1 + y.2 ≤ x.1) →
    ∃ t b', exec (.droverDrain core op) s = .next t ∧ t.band? core e.band = some b' ∧ (t.core core).drv = [] ∧ opDone s t core op ∧
      (∀ q, q < n → some (BitVec.ofNat 32 (leNat b'.spm.byte ((regs.getD 2 0).toNat + 4 * q) 4)) = (k.staged[q]?).map (·.a)) ∧
      (k.arity2 = true → ∀ q, q < n →
        some (BitVec.ofNat 32 (leNat b'.spm.byte ((regs.getD 3 0).toNat + 4 * q) 4)) = (k.staged[q]?).map (·.b)) ∧
      ((regs.getD 5 0).toNat ≠ 2 ^ 64 - 1 → ∀ q, q < 8 * ((n + 7) / 8) →
        (b'.spm.byte ((regs.getD 5 0).toNat + q / 8)).getLsbD (q % 8) =
          if q < n then ((k.staged[q]?).map (·.head)).getD false
          else (b.spm.byte ((regs.getD 5 0).toNat + q / 8)).getLsbD (q % 8)) ∧
      leNat b'.spm.byte (regs.getD 4 0).toNat 8 = n ∧ t.mem = s.mem ∧
      ∀ a, (∀ x ∈ drainTargets regs k.arity2 n, a < x.1 ∨ x.1 + x.2 ≤ a) → b'.spm.byte a = b.spm.byte a)

/-! ### Accesses performed apart -/

namespace Sys2Proof.Claims

/-- A request stands alone on the device, of a group that lives; no poison and no unacquired engine write lies at its place. -/
def alone (s : State) (q : Req) (g : Group) (b : Band) (j : Journey) (n : Nat) : Prop :=
  s.reqs = [q] ∧ s.group? q.core q.slot = some g ∧ g.dead = false ∧ s.band? q.core g.band = some b ∧ b.members ≠ [] ∧ b.copies = [] ∧ g.lq = [] ∧
    s.journey? g.journey = some j ∧ j.unacq = [] ∧ s.poison = [] ∧ Memory.wf s.mem = true ∧ q.lost = [] ∧ q.pa % n = 0

/-- The count of a request's word is finished in its group. -/
def counted (t : State) (q : Req) : Prop :=
  ∃ g, t.group? q.core q.slot = some g ∧ ∀ a ∈ g.acc, a.tag = q.acc → a.fin = true

/-- A binary32 NaN, and the order of the other values, -0 below +0 (R194). -/
def nan32 (y : Nat) : Bool := y / 2 ^ 23 % 256 = 255 && y % 2 ^ 23 != 0
def rank32 (y : Nat) : Int := if y < 2 ^ 31 then y else 2 ^ 31 - 1 - y

/-- The atomic steps (R192 to R194): the new value, from the old one, the operand and the compared value. -/
def atomicRule (op : AOp) (ty : ATy) (o v cmp : Nat) : Nat :=
  let w := if ty.is64 then 64 else 32
  let x (n : Nat) : Int := match ty with
    | .s32 | .s64 => if 2 ^ (w - 1) ≤ n then (n : Int) - 2 ^ w else n
    | .f32 => rank32 n
    | _ => n
  let sel (better : Bool) : Nat :=
    if ty = .f32 && nan32 o && nan32 v then 0x7FC00000 else if ty = .f32 && nan32 o then v else if ty = .f32 && nan32 v then o
    else if better then v else o
  match op with
  | .add => if ty = .f32 then (fAdd fp32 .rn false o v).code else (o + v) % 2 ^ w
  | .min => sel (decide (x v < x o))
  | .max => sel (decide (x o < x v))
  | .and => Nat.land o v
  | .or => Nat.lor o v
  | .xor => Nat.xor o v
  | .exch => v
  | .cas => if o = cmp then v else o
  | .inc => if v = 0 then (o + 1) % 2 ^ w else (o + 1) % v
  | .dec => if v = 0 then (o + 2 ^ w - 1) % 2 ^ w else (o + v - 1) % v

end Sys2Proof.Claims

/-- R174 to R176, R179, R188, R189, R193, R194, R348: a request at an Ostler's place performs one atomic step and answers with the old value;
the Porter performs a load or a store of its own; a copy writes its bytes into scratchpad; the bytes that a peer answers enter their
registers, and a finished count falls. -/
def Obligations.AccessSteps : Prop :=
  (∀ (s : State) (c : Nat) (q : Req) (g : Group) (b : Band) (j : Journey) (op : AOp) (ty : ATy) (v cmp : Word64) (d : VReg),
    q.agent = .ostler c → q.kind = .atom op ty v cmp (some d) → alone s q g b j (if ty.is64 then 8 else 4) → d.toNat + 1 < 256 → q.lane < 32 →
    v.toNat < 2 ^ (if ty.is64 then 64 else 32) → cmp.toNat < 2 ^ (if ty.is64 then 64 else 32) →
    ∃ t g', exec (.ostlerRequest c) s = .next t ∧ t.reqs = [] ∧ t.group? q.core q.slot = some g' ∧ counted t q ∧
      (let n := if ty.is64 then 8 else 4
       let old := leNat s.mem.byte q.pa n
       leNat t.mem.byte q.pa n = atomicRule op ty old v.toNat cmp.toNat % 2 ^ (8 * n) ∧
       (g'.v[d.toNat]?).map (laneOf · q.lane) = some (BitVec.ofNat 32 old) ∧
       (ty.is64 = true → (g'.v[d.toNat + 1]?).map (laneOf · q.lane) = some (BitVec.ofNat 32 (old / 2 ^ 32))) ∧
       (∀ a, a < q.pa ∨ q.pa + n ≤ a → t.mem.byte a = s.mem.byte a))) ∧
  (∀ (s : State) (core : Nat) (q : Req) (g : Group) (b : Band) (j : Journey) (ty : MTy) (d : VReg), q.core = core → q.agent = .porter →
    q.kind = .load ty d → alone s q g b j (accBytes ty) → d.toNat + accRegs ty ≤ 256 → q.lane < 32 →
    ∃ t g', exec (.porterWindowClose core) s = .next t ∧ t.reqs = [] ∧ t.group? q.core q.slot = some g' ∧ counted t q ∧
      (∀ k, k < accRegs ty → (g'.v[d.toNat + k]?).map (laneOf · q.lane) = some (loadedWord ty s.mem.byte q.pa k)) ∧
      (∀ a, t.mem.byte a = s.mem.byte a)) ∧
  (∀ (s : State) (core : Nat) (q : Req) (g : Group) (b : Band) (j : Journey) (l : List Byte), q.core = core → q.agent = .porter →
    q.kind = .store l → alone s q g b j 1 →
    ∃ t, exec (.porterWindowClose core) s = .next t ∧ t.reqs = [] ∧ counted t q ∧ (∀ k x, l[k]? = some x → t.mem.byte (q.pa + k) = x) ∧
      (∀ a, a < q.pa ∨ q.pa + l.length ≤ a → t.mem.byte a = s.mem.byte a)) ∧
  (∀ (s : State) (core slot : Nat) (b : Band) (g : Group) (j : Journey) (x : Copy), s.bands = [b] → b.core = core → b.copies = [x] → x.slot = slot →
    x.window = false → s.group? core slot = some g → g.dead = false → s.journey? b.journey = some j → j.state ≠ .closing →
    j.unacq = [] → s.poison = [] → b.members ≠ [] → b.dstacks = [] → b.rings = [] → b.kept = [] → Memory.wf b.spm = true → 0 ≤ x.dst →
    ∃ t b', exec (.cpGsCopy core slot) s = .next t ∧ t.band? core b.slot = some b' ∧ b'.copies = [] ∧
      (∀ k, k < x.size → b'.spm.byte (x.dst.toNat + k) = s.mem.byte (x.pa + k)) ∧
      (∀ a, a < x.dst.toNat ∨ x.dst.toNat + x.size ≤ a → b'.spm.byte a = b.spm.byte a) ∧ t.mem = s.mem) ∧
  (∀ (s : State) (core slot : Nat) (p : Path) (q : Req) (g : Group) (b : Band) (j : Journey) (n w : Nat) (ty : MTy) (d : VReg), q.core = core →
    q.slot = slot → q.agent = .peer n w → q.kind = .load ty d → g.pathOf q.acc = some p → alone s q g b j 1 → d.toNat + accRegs ty ≤ 256 →
    q.lane < 32 →
    ∃ t g', exec (.accessCompletion core slot p) s = .next t ∧ t.reqs = [] ∧ t.group? core slot = some g' ∧ counted t q ∧ t.mem = s.mem ∧
      (∀ k, k < accRegs ty → (g'.v[d.toNat + k]?).map (laneOf · q.lane) =
        some (loadedWord ty (Config.peerByte s.draw) (n * 2 ^ 48 + q.pa) k)) ∧
      (∀ r, r < d.toNat ∨ d.toNat + accRegs ty ≤ r → g'.v[r]? = g.v[r]?)) ∧
  (∀ (s : State) (core slot : Nat) (p : Path) (g : Group) (a : Acc) (l : List Acc), s.reqs = [] → s.group? core slot = some g → g.dead = false →
    g.acc = a :: l → a.path = p → a.fin = true →
    ∃ t g', exec (.accessCompletion core slot p) s = .next t ∧ t.group? core slot = some g' ∧ g'.acc = l ∧ t.mem = s.mem ∧ t.bands = s.bands)

/-- R330, R331, R332, R350, R351: an import within its entry reads the pool copy, or writes both coherent and pool memory, an atomic one with
its new value; a refused store of a journey leaves a record; a write-back and a publication carry a line of coherent memory to the pool. The
bytes of an answer on the fabric are the model's choice (log entry 37). -/
def Obligations.FabricSteps : Prop :=
  (∀ (s : State) (m : ImportMsg) (e : Import) (j : Journey) (pa : Nat), m.kind = .read → s.hub.boot = .up →
    s.hub.imports.find? (fun e => e.slot == m.islot.toNat && e.key == m.key) = some e → m.off + m.size ≤ e.length.toNat → e.r = true →
    s.journey? e.journey = some j → s.walkOf j needR (e.base + BitVec.ofNat 64 m.off) = .pool pa → s.poison = [] →
    exec (.importAcc m) s = .next { s with hub := { s.hub with outbox := s.hub.outbox ++
      [⟨2 ^ 16 + m.peer.toNat, 0 :: (List.range m.size).map fun k => s.pool.byte (pa + k)⟩] } }) ∧
  (∀ (s : State) (m : ImportMsg) (e : Import) (j : Journey) (l : List Byte) (pa : Nat), m.kind = .write l → l.length = m.size → s.hub.boot = .up →
    s.hub.imports.find? (fun e => e.slot == m.islot.toNat && e.key == m.key) = some e → m.off + m.size ≤ e.length.toNat → e.w = true →
    s.journey? e.journey = some j → s.walkOf j needW (e.base + BitVec.ofNat 64 m.off) = .pool pa → j.unacq = [] → Memory.wf s.mem = true →
    Memory.wf s.pool = true →
    ∃ t, exec (.importAcc m) s = .next t ∧ (∀ k x, l[k]? = some x → t.mem.byte (pa + k) = x ∧ t.pool.byte (pa + k) = x) ∧
      (∀ a, a < pa ∨ pa + l.length ≤ a → t.mem.byte a = s.mem.byte a ∧ t.pool.byte a = s.pool.byte a)) ∧
  (∀ (s : State) (m : ImportMsg) (e : Import) (j : Journey) (op : AOp) (ty : ATy) (v cmp : Word64) (pa : Nat), m.kind = .atomic op ty v cmp →
    s.hub.boot = .up → s.hub.imports.find? (fun e => e.slot == m.islot.toNat && e.key == m.key) = some e →
    m.off + (if ty.is64 then 8 else 4) ≤ e.length.toNat → e.a = true → s.journey? e.journey = some j →
    s.walkOf j needRW (e.base + BitVec.ofNat 64 m.off) = .pool pa → j.unacq = [] → s.poison = [] → Memory.wf s.mem = true →
    Memory.wf s.pool = true →
    ∃ t, exec (.importAcc m) s = .next t ∧
      (let n := if ty.is64 then 8 else 4
       let old := leNat s.mem.byte pa n
       leNat t.mem.byte pa n = atomicRule op ty old v.toNat cmp.toNat % 2 ^ (8 * n) ∧ leNat t.pool.byte pa n = leNat t.mem.byte pa n ∧
       t.hub.outbox = s.hub.outbox ++ [⟨2 ^ 16 + m.peer.toNat, 0 :: (List.range n).map fun k => s.mem.byte (pa + k)⟩] ∧
       ∀ a, a < pa ∨ pa + n ≤ a → t.mem.byte a = s.mem.byte a ∧ t.pool.byte a = s.pool.byte a)) ∧
  (∀ (s : State) (jn n w : Nat) (code : BitVec 8) (q : Req) (g : Group) (b : Band) (j : Journey) (m : Room) (l : List Byte), q.agent = .peer n w →
    q.kind = .store l → alone s q g b j 1 → s.groups = [g] → g.journey = jn → j.state ≠ .closing → s.room? g.room = some m → m.faultq.length < 1024 → s.hub.conns = [] →
    g.journey < 256 → g.core < 256 → g.slot < 64 → g.band < 256 → q.lane < 32 →
    ∃ t r, exec (.importRefused jn 0 code) s = .next t ∧ t.reqs = [] ∧ (t.room? g.room).map (·.faultq) = some (m.faultq ++ [r]) ∧
      fieldAt r 0 1 = code.toNat ∧ fieldAt r 48 8 = q.va.toNat ∧ t.mem = s.mem) ∧
  (∀ (s : State) (jn : Nat) (j : Journey) (w : WriteBack) (m : Room), s.journey? jn = some j → j.wbs = [w] → j.fences = [] → s.room? j.room = some m →
    m.holds (128 * w.line) 128 = true → Memory.wf s.pool = true →
    ∃ t j', exec (.writeBack jn) s = .next t ∧ t.journey? jn = some j' ∧ j'.wbs = [] ∧ w.line ∉ j'.dirty ∧ t.mem = s.mem ∧
      (∀ k, k < 128 → t.pool.byte (128 * w.line + k) = s.mem.byte (128 * w.line + k))) ∧
  (∀ (s : State) (line : Nat) (j : Journey), s.journeys = [j] → line ∈ j.dirty → j.wbs = [] → Memory.wf s.pool = true →
    ∃ t j', exec (.linePublication line) s = .next t ∧ t.journeys = [j'] ∧ line ∉ j'.dirty ∧ t.mem = s.mem ∧
      (∀ k, k < 128 → t.pool.byte (128 * line + k) = s.mem.byte (128 * line + k)) ∧
      ∀ a, a < 128 * line ∨ 128 * line + 128 ≤ a → t.pool.byte a = s.pool.byte a)

/-- R183, R185, R340, R342 to R347: barrier phases, the service of translation failures, replay, shootdowns and table migration. -/
def Obligations.TranslationSteps : Prop :=
  (∀ (s : State) (core band : Nat) (b : Band), s.band? core band = some b → (∀ m ∈ b.members, m ∈ b.arrived) →
    exec (.barrierPhaseComplete core band false) s = .next (s.putBand { b with phase := b.phase + 1, arrived := [] })) ∧
  (∀ (s : State) (core band : Nat) (b : Band) (j : Journey) (x : GangBar), s.band? core band = some b → s.journey? b.journey = some j → j.gangs = [x] →
    (core, band) ∈ x.bands → (∀ p ∈ x.bands, ∀ k, s.band? p.1 p.2 = some k → ∀ m ∈ k.members, (p.1, m) ∈ x.arrived) →
    exec (.barrierPhaseComplete core band true) s = .next (s.putJourney { j with gangs := [{ x with phase := x.phase + 1, arrived := [] }] })) ∧
  (∀ (s : State) (core slot : Nat) (g : Group) (p : Park) (j : Journey) (pa : Nat), s.group? core slot = some g → g.dead = false → g.park = some p →
    p.ready = false → p.recorded = false → s.journey? g.journey = some j → j.state ≠ .closing → s.walkOf j (needOf p.access) p.va = .pool pa →
    exec (.faultService (.scalar core slot) none) s = .next (s.putGroup { g with park := some { p with ready := true } })) ∧
  (∀ (s : State) (core slot : Nat) (g : Group) (p : Park) (j : Journey) (m : Room) (c : Nat), s.group? core slot = some g → g.dead = false →
    g.park = some p → p.ready = false → p.recorded = false → s.journey? g.journey = some j → j.state ≠ .closing →
    s.walkOf j (needOf p.access) p.va = .fail c → c < 256 → s.room? g.room = some m → m.faultq.length < 1024 → s.hub.conns = [] →
    ∃ t r, exec (.faultService (.scalar core slot) none) s = .next t ∧ (t.group? core slot).map (·.park) = some (some { p with recorded := true }) ∧
      (t.room? g.room).map (·.faultq) = some (m.faultq ++ [r]) ∧ fieldAt r 0 1 = c ∧ t.mem = s.mem) ∧
  (∀ (s : State) (core slot : Nat) (g : Group) (p : Park), s.group? core slot = some g → g.lpark = none → g.park = some p → p.ready = true →
    g.halted = false → g.ahead.from' = none →
    exec (.parkedReplay core slot) s = .next (s.putGroup { g with park := none, wait := 1 })) ∧
  (∀ (s : State) (core slot : Nat) (g : Group), s.group? core slot = some g → g.lpark = none → g.halted = true →
    exec (.parkedReplay core slot) s = .next (s.putGroup g)) ∧
  (∀ (s : State) (core slot : Nat) (g : Group) (p : Park) (a : Word64), s.group? core slot = some g → g.lpark = none → g.park = some p →
    p.ready = true → g.halted = false → g.ahead.from' = some a →
    exec (.parkedReplay core slot) s = .next (s.putGroup
      { g with park := none, wait := 1, spc := a, passed := true,
               ahead := { g.ahead with left := 0, from' := none, back := if g.spc = a then none else some g.spc } })) ∧
  (∀ (s : State) (core slot : Nat) (g : Group) (p : Park), s.group? core slot = some g → g.park = none → g.lpark = some p → p.ready = true →
    exec (.parkedReplay core slot) s = .next (s.putGroup { g with lpark := none })) ∧
  (∀ (s : State) (room : Nat) (j : Journey) (p : Pending), s.journeys = [j] → j.room = room → j.pend = some p → p.h.op = 14 → p.conn = none →
    s.reqs = [] → s.bands = [] → (∀ g ∈ s.groups, g.lq = []) → j.log = none → j.replay = [] → (s.room? room).isSome = true →
    ∃ t, exec (.shootdownComplete room) s = .next t ∧ (∀ k ∈ t.journeys, k.pend = none) ∧ (∀ c ∈ t.cores, ∀ e ∈ c.tlb, e.journey ≠ j.num) ∧
      (∀ g ∈ t.groups, g.room = room → g.pages = []) ∧
      (t.room? room).map (·.tableGen) = (s.room? room).map (fun r => r.tableGen + 1) ∧ t.mem = s.mem) ∧
  (∀ (s : State) (jn : Nat) (size : BitVec 2) (j : Journey) (u : Table), s.journey? jn = some j → j.tables[size.toNat]? = some u → u.old.live = true →
    (∀ e ∈ u.old.slots, ∀ w, w < 3 → e.1 ≠ u.old.base.toNat + (w * 2 ^ u.old.lgn + u.old.cursor) * 16) →
    ∃ t j' u', exec (.tableMigration jn size) s = .next t ∧ t.journey? jn = some j' ∧ j'.tables[size.toNat]? = some u' ∧ u'.cur = u.cur ∧
      (if u.old.cursor + 1 < 2 ^ u.old.lgn then u'.old = { u.old with cursor := u.old.cursor + 1 } else u'.old = {}) ∧ t.mem = s.mem)

/-! ### The calendar and the dispatcher -/

namespace Sys2Proof.Claims

/-- A journey that runs, between rounds, with no group, no seat and no restore (R300). -/
def betweenRounds (s : State) (n : Nat) (j : Journey) : Prop :=
  s.journey? n = some j ∧ j.state = .running ∧ j.stopFor = none ∧ j.inRound = false ∧ j.queue = [] ∧ j.seats = [] ∧ j.restore = none ∧
    ∀ g ∈ s.groups, g.journey ≠ n

/-- The order of a journey's events for one entity (R300): time, tie, acceptance. -/
def earlier (a b : Event) : Prop := (a.time.toNat, a.tie.toNat, a.seq.toNat) = (b.time.toNat, b.tie.toNat, b.seq.toNat) ∨
  a.time.toNat < b.time.toNat ∨ (a.time = b.time ∧ (a.tie.toNat < b.tie.toNat ∨ (a.tie = b.tie ∧ a.seq.toNat < b.seq.toNat)))

/-- An event that the next round selects (R300): of its span, and the earliest of its entity, or of entity 0. -/
def selected (j : Journey) (e : Event) : Prop :=
  e ∈ j.pending ∧ j.t0.toNat ≤ e.time.toNat ∧ e.time.toNat ≤ j.t1.toNat ∧
    (e.entity = 0 ∨ ∀ x ∈ j.pending, j.t0.toNat ≤ x.time.toNat → x.time.toNat ≤ j.t1.toNat → x.entity = e.entity → earlier e x)

/-- Every event of a dispatch queue. -/
def queuedEvents (q : List QItem) : List Event := q.flatMap fun i => i.bands.flatMap fun b => b.groups.flatMap Prod.snd

end Sys2Proof.Claims

/-- R300 to R302, R308, R309, R315, R316: a round takes exactly the selected events out of the pending ones and into the dispatch queue; the
leap begins a span at the least pending time, or lets a journey without events rest; a pick names the one journey that can place; a journey
passed over 4,096 times is promoted. -/
def Obligations.CalendarSteps : Prop :=
  (∀ (s : State) (n : Nat) (j : Journey) (e0 : Event), betweenRounds s n j → j.spanOn = true → selected j e0 →
    ∃ t j', exec (.roundFormation n) s = .next t ∧ t.journey? n = some j' ∧ j'.inRound = true ∧
      (∀ e, e ∈ j'.pending ↔ e ∈ j.pending ∧ ¬ selected j e) ∧
      (∀ e, e ∈ queuedEvents j'.queue ↔ selected j e) ∧ j'.accepted = j.accepted ∧ t.mem = s.mem) ∧
  (∀ (s : State) (n : Nat) (j : Journey) (e0 : Event), betweenRounds s n j → (∀ e, ¬ (j.spanOn = true ∧ selected j e)) → e0 ∈ j.pending →
    ∃ t j', exec (.hareSearch n) s = .next t ∧ t.journey? n = some j' ∧ j'.spanOn = true ∧ j'.round = 0 ∧ j'.state = .running ∧
      (∃ e ∈ j.pending, e.time = j'.t0) ∧ (∀ e ∈ j.pending, j'.t0.toNat ≤ e.time.toNat) ∧
      j'.t1.toNat = min (j'.t0.toNat + (if j.lookahead = 0 then 1 else j.lookahead.toNat) - 1) (2 ^ 64 - 1) ∧
      j'.spanw = (if j.lookahead = 0 then 1 else j.lookahead) ∧ (∀ h ∈ j'.handles, h.dispatched = false) ∧ t.mem = s.mem) ∧
  (∀ (s : State) (n : Nat) (j : Journey), betweenRounds s n j → j.pending = [] →
    ∃ t j', exec (.hareSearch n) s = .next t ∧ t.journey? n = some j' ∧ j'.state = .resting ∧ t.mem = s.mem) ∧
  (∀ (s : State) (room : Nat) (r : Room) (j : Journey), s.room? room = some r → s.journeys = [j] → j.room = room → j.places = true →
    (s.headPlace j).isSome = true → j.picked = false → j.promoted = false →
    ∃ t j', exec (.dispatcherPick room) s = .next t ∧ t.journeys = [j'] ∧ j'.num = j.num ∧ j'.picked = true ∧ j'.passed = 0 ∧ j'.queue = j.queue ∧
      (t.room? room).map (fun m => (m.lastPick.find? fun p => p.1 = j.headClass).map Prod.snd) = some (some j.num) ∧ t.mem = s.mem) ∧
  (∀ (s : State) (n : Nat) (j : Journey), s.journey? n = some j → (j.queue ≠ [] ∨ j.restore ≠ none) → 4096 ≤ j.passed →
    exec (.starvationPromotion n) s = .next (s.putJourney { j with promoted := true }))

/-- R133, R353 to R358, R405: the head item of a picked journey, where it has a place, leaves the queue, its bands stand on their cores and its
groups take their seats; a seated group whose leaf has taken its band starts with the registers, PCs, events and stochastic states that R62
and R133 give, and with no access counted and no guard record, which R133 does not list (the model's reading, log entry 75); a group at a boundary with a halt request, a watchpoint hit or a breakpoint halts there. -/
def Obligations.PlacementSteps : Prop :=
  (∀ (s : State) (n : Nat) (j : Journey) (q : QItem) (ps : List (Nat × Place)) (i : Instr), s.journey? n = some j → j.picked = true → j.places = true →
    ({ s with j := j }).headPlace j = some (q, ps) → (i = .bandPlacement n ∧ q.bands.length = 1 ∨ i = .gangPlacement n ∧ 2 ≤ q.bands.length) →
    ps.length = q.bands.length → (∀ b ∈ q.bands, ∀ p ∈ ps, b.groups.length ≤ p.2.slots.length) →
    ∃ t j', exec i s = .next t ∧ t.journey? n = some j' ∧ j'.queue = j.queue.tail ∧ j'.picked = false ∧ j'.passed = 0 ∧
      (j'.seats.drop j.seats.length).map (·.events) = (q.bands.flatMap (·.groups)).map Prod.snd ∧
      (∀ p ∈ ps, (t.band? p.1 p.2.band).isSome = true) ∧ t.mem = s.mem ∧ t.groups = s.groups) ∧
  (∀ (s : State) (core slot : Nat) (j : Journey) (x : Seat) (b : Band), s.journeys = [j] → j.places = true → j.seats = [x] → x.core = core →
    x.slot = slot → s.band? core x.band = some b → b.members ≠ [] → s.commanded core x.band = false → s.hub.sessions = [] → x.events.length ≤ 32 →
    ∃ t g j', exec (.groupDispatch core slot) s = .next t ∧ t.group? core slot = some g ∧ t.journeys = [j'] ∧ j'.seats = [] ∧
      g.spc = b.handler.sbase + b.handler.sentry.setWidth 64 ∧ g.lpc = b.handler.lbase + b.handler.lentry.setWidth 64 ∧ g.llink = g.lpc ∧
      g.events = x.events ∧ g.nev = x.events.length ∧ (∀ k, k < 64 → g.s[k]? = some 0) ∧ (∀ k, k < 12 → g.p[k]? = some 0) ∧
      (∀ k, k < 16 → g.k[k]? = some 0) ∧ (∀ k, k < 16 → g.f[k]? = some .empty) ∧ g.lq = [] ∧ g.fpflags = 0 ∧ g.latch = none ∧
      g.repi = 0 ∧ g.acc = [] ∧ g.guard = none ∧ g.span0 = j.t0 ∧ g.spanw = j.spanw ∧ g.round = j.round ∧
      (∀ i, i < 32 → laneOf g.stoch i =
        let y := j.seed.setWidth 32 ^^^ BitVec.ofNat 32 (core * 2 ^ 16 + slot * 2 ^ 5 + i) ^^^ (j.round * 0x9E3779B9)
        if y = 0 then 1 else y) ∧
      (∀ k i, k < min 10 (8 * (b.handler.lregs.toNat + 1)) → i < 32 →
        (g.v[k]?).map (laneOf · i) = some ((x.events[i]?.map fun e => e.payload.getD k 0).getD 0)) ∧
      (∀ k, 10 ≤ k → k < 256 → g.v[k]? = some (Vector.replicate 32 0)) ∧ t.mem = s.mem) ∧
  (∀ (s : State) (core slot : Nat) (g : Group) (b : Band), s.group? core slot = some g → g.dead = false → g.halted = false → g.hold = .none →
    g.inside = false → s.band? g.core g.band = some b → b.members ≠ [] →
    (g.haltReq = true ∨ g.watchHit = true ∨ (g.passed = false ∧ ∃ v p, s.sessionOf g.room = some v ∧ p ∈ v.bps ∧ p.2 = g.spc)) →
    ∃ t g', exec (.groupHalt core slot) s = .next t ∧ t.group? core slot = some g' ∧ g'.halted = true ∧ g'.haltReq = false ∧
      g'.watchHit = false ∧ g'.spc = g.spc ∧ g'.s = g.s ∧ g'.v = g.v ∧ (s.hub.sessions = [] → t.mem = s.mem))

/-! ### Requests -/

namespace Sys2Proof.Claims

/-- A well-formed request of a code arrives in its turn on connection `x`, no other request is in execution, and no frame that an
unmap released is still being shot down (R371 to R374, R342). -/
def arrives (s : State) (c op : Nat) (h : MsgHdr) (body : List Byte) (x : Conn) : Prop :=
  s.hub.boot = .up ∧ s.hub.conns.find? (fun y => y.num == c) = some x ∧ h.seq = x.expect ∧ h.ver = 1 ∧ h.type = 1 ∧ h.op.toNat = op ∧
    h.length.toNat = body.length ∧ body.length ≤ 2 ^ 26 ∧ h.rsv0 = 0 ∧ h.rsv1 = 0 ∧ h.rsv2 = 0 ∧ h.status = 0 ∧
    (∀ j ∈ s.journeys, j.pend = none ∧ j.replyTo = none ∧ j.unmapped = []) ∧ ∀ m ∈ s.rooms, m.resize = none

/-- The last message sent is the response to a request: its code, the last number that its connection has received in order, its journey, a
status, and a body behind the header and the time record; it is kept under the request's number (R372 to R374, R380, R382). -/
def answered (t : State) (c op status : Nat) (h : MsgHdr) (body : List Byte) : Prop :=
  ∃ l y k, t.hub.outbox.getLast? = some ⟨c, l⟩ ∧ t.hub.conns.find? (fun z => z.num == c) = some y ∧
    y.kept.getLast? = some (k, some h.seq, l) ∧ l.length = 96 + body.length ∧ fieldAt l 1 1 = 2 ∧ fieldAt l 2 1 = op ∧
    fieldAt l 8 4 = (y.next - 1).toNat ∧ fieldAt l 12 1 = h.journey.toNat ∧ fieldAt l 14 2 = status ∧ l.drop 96 = body

/-- The request comes from the room of the journey that its header names; the journey keeps no log. -/
def ownJourney (s : State) (c : Nat) (h : MsgHdr) (j : Journey) : Prop :=
  s.journey? h.journey.toNat = some j ∧ s.standing c = .room j.room ∧ j.log = none ∧ j.state ≠ .closing

/-- A field of eight bytes of a body, and a body of such fields (R375). -/
def q8 (b : List Byte) (i : Nat) : Nat := leNat (fun k => b.getD k 0) (8 * i) 8
def body8 (l : List Nat) : List Byte := l.flatMap fun x => (List.range 8).map fun k => BitVec.ofNat 8 (x / 2 ^ (8 * k))

/-- Event i of a flat launch (R377). -/
def launchEvent (b : List Byte) (i : Nat) : NewEvent :=
  { time := q8 b 1, handler := BitVec.ofNat 16 (q8 b 2), prio := BitVec.ofNat 2 (q8 b 2 / 2 ^ 16), canc := false, entity := 0, tie := BitVec.ofNat 32 i,
    payload := BitVec.ofNat 32 i :: (List.range 9).map fun k => BitVec.ofNat 32 (leNat (fun a => b.getD a 0) (24 + 4 * k) 4) }

/-- A page run of a request: flags of R378. -/
def pageBytes (flags : Nat) : Nat := 2 ^ pageShift (BitVec.ofNat 2 flags)

end Sys2Proof.Claims

/-- R352, R374 to R379, R400, R402, R416, R426: the requests of a room on its journeys, each with its effect and its response where nothing stands
against it. A close, a stop, a checkpoint, a restore or an unmap is pending from its arrival on; the end of a close's teardown and the
placement of a restore answer theirs. A read whose page fails is pending while the Innkeeper serves the page (R343). That a resume frees a
group halted by a debugger too, and that an open lays the whole code of the pack with its handlers' records into the code region, are the
model's readings (log entries 66 and 50). -/
def Obligations.JourneyRequests : Prop :=
  (∀ (s : State) (c n : Nat) (h : MsgHdr) (body : List Byte) (x : Conn) (m : Room) (o : Opened), arrives s c 1 h body x → s.standing c = .room m.num →
    s.room? m.num = some m → openStatus s m body = 0 → openPack ((body.drop 120).take (q8 body 14)) = some o →
    o.code.length ≤ q8 body 6 → ((q8 body 0).testBit 1 = true → o.data.length ≤ q8 body 9) → s.openRoom m (q8 body 2) (fieldAt body 25 1) = true → s.hub.nextJourney = some n → n < 256 → s.journey? n = none →
    Memory.wf s.mem = true →
    ∃ t j, exec (.openReq c h body) s = .next t ∧ answered t c 1 0 h (body8 [n]) ∧ t.journey? n = some j ∧ j.state = .opened ∧ j.room = m.num ∧
      j.quota = q8 body 2 ∧ j.seed = BitVec.ofNat 64 (q8 body 1) ∧ j.lookahead = BitVec.ofNat 64 o.lookahead ∧ j.accepted = 0 ∧ j.pending = [] ∧
      j.handlers.map (·.id) = o.handlers.map (·.id) ∧ (q8 body 0 = 0 → ∀ k y, o.code[k]? = some y → t.mem.byte (q8 body 5 + k) = y)) ∧
  (∀ (s : State) (c : Nat) (h : MsgHdr) (body : List Byte) (x : Conn) (j : Journey), arrives s c 2 h body x → ownJourney s c h j →
    ∃ t k p, exec (.closeReq c h body) s = .next t ∧ t.journey? h.journey.toNat = some k ∧ k.state = .closing ∧ k.tag = j.tag + 1 ∧ k.queue = [] ∧
      k.windows = [] ∧ k.pend = some p ∧ p.conn = some c ∧ p.h = h ∧
      (∀ g ∈ t.groups, g.journey = j.num → g.halted = true ∧ g.park = none ∧ g.lpark = none) ∧
      (∀ e ∈ t.hub.imports, e.journey ≠ j.num) ∧ t.mem = s.mem) ∧
  (∀ (s : State) (n c : Nat) (j : Journey) (p : Pending) (x : Conn), s.journey? n = some j → j.state = .closing → j.pend = some p → p.conn = some c →
    s.hub.conns.find? (fun y => y.num == c) = some x → j.log = none → j.replyTo = none →
    j.wbs = [] → s.reqs = [] → s.bands = [] → (∀ g ∈ s.groups, g.journey = n → g.lq = []) →
    ∃ t, exec (.teardownComplete n) s = .next t ∧ answered t c p.h.op.toNat 0 p.h [] ∧ (∀ k ∈ t.journeys, k.num ≠ n) ∧
      (∀ g ∈ t.groups, g.journey ≠ n) ∧ t.hub.freed = s.hub.freed ++ [n] ∧ t.mem = s.mem) ∧
  (∀ (s : State) (c : Nat) (h : MsgHdr) (body : List Byte) (x : Conn) (j : Journey), arrives s c 7 h body x → ownJourney s c h j → j.state = .opened →
    ∃ t, exec (.startReq c h body) s = .next t ∧ answered t c 7 0 h [] ∧ t.journey? h.journey.toNat = some { j with state := .running, publishFailed := false } ∧
      t.mem = s.mem) ∧
  (∀ (s : State) (c : Nat) (h : MsgHdr) (body : List Byte) (x : Conn) (j : Journey), arrives s c 8 h body x → ownJourney s c h j →
    (∀ i, j.state ≠ .stopped i) → 24 ≤ body.length → q8 body 0 < 2 →
    (q8 body 1 ≠ 0 → q8 body 1 % 65536 = 0 ∧ q8 body 2 % 65536 = 0 ∧ s.inRoom j.room (q8 body 1) (q8 body 2) = true) →
    ∃ t k p, exec (.stopReq c h body) s = .next t ∧ t.journey? h.journey.toNat = some k ∧ k.state = .stopping (q8 body 0 == 1) ∧
      k.pend = some p ∧ p.conn = some c ∧ p.h = h ∧ t.mem = s.mem) ∧
  (∀ (s : State) (c : Nat) (h : MsgHdr) (body : List Byte) (x : Conn) (j : Journey), arrives s c 9 h body x → ownJourney s c h j →
    (∀ i, j.state ≠ .stopped i) → 24 ≤ body.length → q8 body 0 < 2 → q8 body 1 % 65536 = 0 → q8 body 2 % 65536 = 0 →
    s.inRoom j.room (q8 body 1) (q8 body 2) = true →
    ∃ t k p, exec (.checkpointReq c h body) s = .next t ∧ t.journey? h.journey.toNat = some k ∧ k.state = .checkpointing (q8 body 0 == 1) ∧
      k.pend = some p ∧ p.pa = q8 body 1 ∧ p.len = q8 body 2 ∧ t.mem = s.mem) ∧
  (∀ (s : State) (c : Nat) (h : MsgHdr) (body : List Byte) (x : Conn) (j : Journey) (m : Room) (y : Saved), arrives s c 10 h body x →
    ownJourney s c h j → j.state = .opened ∨ j.state = .stopped true → 16 ≤ body.length → q8 body 0 % 65536 = 0 → q8 body 1 % 65536 = 0 →
    s.room? j.room = some m → m.holds (q8 body 0) (q8 body 1) = true → s.readImage (q8 body 0) (q8 body 1) = some y →
    s.restoreCheck j m (some y) = 0 →
    ∃ t k p, exec (.restoreReq c h body) s = .next t ∧ t.journey? h.journey.toNat = some k ∧ k.state = .restoring ∧ k.restore = some y.token ∧
      k.pend = some p ∧ p.conn = some c ∧ p.h = h ∧ t.mem = s.mem) ∧
  (∀ (s : State) (n c : Nat) (j : Journey) (y : Saved) (m : Room) (p : Pending) (x : Conn) (ps : List (Nat × Place)), s.journey? n = some j →
    j.restore = some y.token → j.stopFor = none → j.state = .restoring → j.picked = true →
    s.hub.images.find? (fun z => z.token == y.token) = some y → s.room? j.room = some m →
    j.pend = some p → p.h.op = 10 → p.resize = false → p.conn = some c → s.hub.conns.find? (fun y => y.num == c) = some x →
    j.log = none → s.restorePlaces (s.heldOccs j m) m y = some ps →
    ∃ t k, exec (.restorePlacement n) s = .next t ∧ answered t c 10 0 p.h (body8 [0]) ∧ t.journey? n = some k ∧ k.state = .running ∧ k.pend = none ∧ k.restore = none ∧
      k.seed = y.j.seed ∧ k.accepted = y.j.accepted ∧ k.t0 = y.j.t0 ∧ k.t1 = y.j.t1 ∧ k.round = y.j.round ∧
      k.pending.map (fun e => (e.time, e.entity, e.seq, e.payload)) = y.j.pending.map (fun e => (e.time, e.entity, e.seq, e.payload)) ∧
      t.mem = s.mem) ∧
  (∀ (s : State) (c : Nat) (h : MsgHdr) (body : List Byte) (x : Conn) (j : Journey) (g : Group), arrives s c 12 h body x → ownJourney s c h j →
    16 ≤ body.length → q8 body 0 < 256 → q8 body 1 < 64 → s.group? (q8 body 0) (q8 body 1) = some g → g.journey = j.num → g.isHeld = true →
    ∃ t, exec (.resumeReq c h body) s = .next t ∧ answered t c 12 0 h [] ∧ t.group? (q8 body 0) (q8 body 1) = some { g.resume with halted := false } ∧
      t.mem = s.mem) ∧
  (∀ (s : State) (c pa : Nat) (h : MsgHdr) (body : List Byte) (x : Conn) (j : Journey), arrives s c 3 h body x → ownJourney s c h j →
    16 ≤ body.length → 1 ≤ q8 body 1 → q8 body 0 % 65536 + q8 body 1 ≤ 65536 → s.walkOf j needR (BitVec.ofNat 64 (q8 body 0)) = .pool pa →
    j.unacq = [] → s.poison = [] →
    ∃ t, exec (.readReq c h body) s = .next t ∧ answered t c 3 0 h ((List.range (q8 body 1)).map fun k => s.mem.byte (pa + k)) ∧ t.mem = s.mem) ∧
  (∀ (s : State) (c code : Nat) (h : MsgHdr) (body : List Byte) (x : Conn) (j : Journey), arrives s c 3 h body x → ownJourney s c h j →
    16 ≤ body.length → 1 ≤ q8 body 1 → q8 body 0 % 65536 + q8 body 1 ≤ 65536 → s.walkOf j needR (BitVec.ofNat 64 (q8 body 0)) = .fail code →
    ∃ t k p, exec (.readReq c h body) s = .next t ∧ t.journey? h.journey.toNat = some k ∧ k.pend = some p ∧ p.conn = some c ∧ p.h = h ∧
      p.fail = some (BitVec.ofNat 64 (q8 body 0), code) ∧ p.served = false ∧ t.hub.outbox = s.hub.outbox ∧ t.mem = s.mem) ∧
  (∀ (s : State) (c pa : Nat) (h : MsgHdr) (body : List Byte) (x : Conn) (j : Journey), arrives s c 4 h body x → ownJourney s c h j →
    1 ≤ q8 body 1 → 16 + q8 body 1 ≤ body.length → q8 body 0 % 65536 + q8 body 1 ≤ 65536 →
    s.walkOf j needW (BitVec.ofNat 64 (q8 body 0)) = .pool pa → j.unacq = [] → Memory.wf s.mem = true →
    ∃ t, exec (.writeReq c h body) s = .next t ∧ answered t c 4 0 h [] ∧
      (∀ k, k < q8 body 1 → some (t.mem.byte (pa + k)) = body[16 + k]?) ∧
      ∀ a, a < pa ∨ pa + q8 body 1 ≤ a → t.mem.byte a = s.mem.byte a) ∧
  (∀ (s s1 : State) (c : Nat) (h : MsgHdr) (body : List Byte) (x : Conn) (j : Journey) (hd : Word64), arrives s c 5 h body x → ownJourney s c h j →
    (∀ i, j.state = .stopped i → i = true) → q8 body 0 = 1 → 72 ≤ body.length → q8 body 2 / 2 ^ 20 % 2 ^ 12 = 0 →
    ({ s with j := j }).acceptEvent true (seedEvent (body.drop 8)) = (s1, hd) → handleState hd ≠ 2 →
    ∃ t k e, exec (.seedReq c h body) s = .next t ∧ answered t c 5 0 h (body8 [hd.toNat]) ∧ t.journey? h.journey.toNat = some k ∧
      k.pending = j.pending ++ [e] ∧ e.time.toNat = q8 body 1 ∧ e.handler.toNat = q8 body 2 % 2 ^ 16 ∧ e.prio.toNat = q8 body 2 / 2 ^ 16 % 4 ∧
      e.entity.toNat = q8 body 2 / 2 ^ 32 ∧ e.tie.toNat = q8 body 3 % 2 ^ 32 ∧ e.seq = j.accepted ∧ k.accepted = j.accepted + 1 ∧
      e.payload = (List.range 10).map (fun i => BitVec.ofNat 32 (leNat (fun a => body.getD a 0) (32 + 4 * i) 4)) ∧
      k.state = (if j.state = .resting then .running else j.state) ∧ t.mem = s.mem) ∧
  (∀ (s : State) (c : Nat) (h : MsgHdr) (body : List Byte) (x : Conn) (j : Journey), arrives s c 6 h body x → ownJourney s c h j →
    (∀ i, j.state = .stopped i → i = true) → 64 ≤ body.length → 1 ≤ q8 body 0 → q8 body 0 ≤ 2 ^ 32 → q8 body 2 < 2 ^ 18 → q8 body 7 / 2 ^ 32 = 0 →
    (({ s with j := j }).launchAll (launchEvent body) 0 (q8 body 0)).2 = none →
    ∃ t k l, exec (.launchReq c h body) s = .next t ∧ answered t c 6 0 h (body8 [q8 body 0, 2 ^ 64 - 1, 0]) ∧ t.journey? h.journey.toNat = some k ∧
      k.pending = j.pending ++ l ∧ l.length = q8 body 0 ∧ (∀ i e, l[i]? = some e → e.time.toNat = q8 body 1 ∧ e.entity = 0 ∧ e.tie = BitVec.ofNat 32 i ∧
        e.payload[0]? = some (BitVec.ofNat 32 i) ∧ e.handler = BitVec.ofNat 16 (q8 body 2) ∧ e.canc = false) ∧ t.mem = s.mem) ∧
  (∀ (s : State) (c : Nat) (h : MsgHdr) (body : List Byte) (x : Conn) (j : Journey) (w : Table), arrives s c 13 h body x → ownJourney s c h j →
    40 ≤ body.length → q8 body 3 < 64 → q8 body 0 % pageBytes (q8 body 3) = 0 → q8 body 1 % pageBytes (q8 body 3) = 0 →
    q8 body 2 = pageBytes (q8 body 3) → q8 body 0 + q8 body 2 ≤ 2 ^ 57 →
    (if (q8 body 3).testBit 5 then q8 body 4 < Config.windows ∧ ∃ v ∈ j.windows, v.idx = q8 body 4
     else q8 body 4 = 0 ∧ s.inRoom j.room (q8 body 1) (q8 body 2) = true) →
    j.mapped (BitVec.ofNat 2 (q8 body 3)) (q8 body 0 / pageBytes (q8 body 3)) 1 = false → j.tables[q8 body 3 % 4]? = some w →
    w.cur.live = true →
    ((w.cur.remove (q8 body 0 / pageBytes (q8 body 3))).room? (q8 body 0 / pageBytes (q8 body 3))).isSome = true →
    ∃ t k u, exec (.mapReq c h body) s = .next t ∧ answered t c 13 0 h [] ∧ t.journey? h.journey.toNat = some k ∧ k.tables[q8 body 3 % 4]? = some u ∧
      u.probe (q8 body 0 / pageBytes (q8 body 3)) = some ⟨q8 body 0 / pageBytes (q8 body 3), BitVec.ofNat 2 (q8 body 3), (q8 body 3).testBit 2,
        (q8 body 3).testBit 3, (q8 body 3).testBit 4, (q8 body 3).testBit 5, BitVec.ofNat 64 (q8 body 1 + q8 body 4)⟩ ∧ t.mem = s.mem) ∧
  (∀ (s : State) (c : Nat) (h : MsgHdr) (body : List Byte) (x : Conn) (j : Journey), arrives s c 14 h body x → ownJourney s c h j →
    16 ≤ body.length → q8 body 0 % 65536 = 0 → q8 body 1 % 65536 = 0 →
    ∃ t k p, exec (.unmapReq c h body) s = .next t ∧ t.journey? h.journey.toNat = some k ∧ k.pend = some p ∧ p.conn = some c ∧ p.h = h ∧
      (∀ u ∈ k.tables, ∀ e ∈ u.entries,
        ¬ (q8 body 0 ≤ e.vpn * 2 ^ pageShift e.size ∧ (e.vpn + 1) * 2 ^ pageShift e.size ≤ q8 body 0 + q8 body 1)) ∧ t.mem = s.mem) ∧
  (∀ (s : State) (c : Nat) (h : MsgHdr) (body : List Byte) (x : Conn) (j : Journey), arrives s c 15 h body x → ownJourney s c h j →
    32 ≤ body.length → q8 body 0 % 65536 = 0 → q8 body 1 % 65536 = 0 → q8 body 2 < 8 → s.hub.imports.length < Config.imports →
    ∃ t e, exec (.exportReq c h body) s = .next t ∧ answered t c 15 0 h (body8 [e.slot]) ∧ t.hub.imports = e :: s.hub.imports ∧
      (∀ z ∈ s.hub.imports, z.slot ≠ e.slot) ∧ e.journey = j.num ∧ e.base.toNat = q8 body 0 ∧ e.length.toNat = q8 body 1 ∧
      e.key.toNat = q8 body 3 ∧ e.r = (q8 body 2).testBit 0 ∧ e.w = (q8 body 2).testBit 1 ∧ e.a = (q8 body 2).testBit 2 ∧ e.refusals = 0 ∧
      t.mem = s.mem) ∧
  (∀ (s : State) (c : Nat) (h : MsgHdr) (body : List Byte) (x : Conn) (j : Journey), arrives s c 16 h body x → ownJourney s c h j →
    24 ≤ body.length → q8 body 0 < 2 ^ 16 → q8 body 1 < 2 ^ 16 → j.windows.length < Config.windows →
    ∃ t k w, exec (.windowReq c h body) s = .next t ∧ answered t c 16 0 h (body8 [w.idx]) ∧ t.journey? h.journey.toNat = some k ∧
      k.windows = w :: j.windows ∧ (∀ v ∈ j.windows, v.idx ≠ w.idx) ∧ w.peer.toNat = q8 body 0 ∧ w.islot.toNat = q8 body 1 ∧
      w.key.toNat = q8 body 2 ∧ t.mem = s.mem) ∧
  (∀ (s : State) (c : Nat) (h : MsgHdr) (body : List Byte) (x : Conn) (m : Room), arrives s c 17 h body x → s.standing c = .room m.num →
    s.room? m.num = some m → 8 ≤ body.length → 1 ≤ q8 body 0 → q8 body 0 ≤ 1024 →
    ∃ t, exec (.faultsReq c h body) s = .next t ∧ answered t c 17 0 h
        ((List.range 4).map (fun k => m.drops.extractLsb' (8 * k) 8) ++ (m.faultq.take (q8 body 0)).flatten) ∧
      (t.room? m.num).map (·.faultq) = some (m.faultq.drop (q8 body 0)) ∧ (t.room? m.num).map (·.drops) = some 0 ∧ t.mem = s.mem) ∧
  (∀ (s s1 : State) (c n : Nat) (h : MsgHdr) (body : List Byte) (x : Conn) (m : Room) (f : LogRec) (l : List LogRec), arrives s c 18 h body x →
    s.standing c = .room m.num → s.room? m.num = some m → 16 ≤ body.length → q8 body 0 % 65536 = 0 → q8 body 1 % 65536 = 0 →
    m.holds (q8 body 0) (q8 body 1) = true → logRecords s.mem (q8 body 0) (q8 body 1 / 32) (q8 body 1) = f :: l → f.op = 1 →
    (s.modHub fun u => u.putConn { x with expect := x.expect + 1, ahead := x.ahead.filter fun e => e.1.seq != h.seq }).openJourney m f.body =
      .inl (s1, n) →
    ∃ t k q, exec (.replayReq c h body) s = .next t ∧ t.journey? n = some k ∧ k.replay = l ∧ k.replayed = 1 ∧ k.replyTo = some q ∧ q.1 = c ∧
      q.2.1 = h) ∧
  (∀ (s : State) (c : Nat) (h : MsgHdr) (body : List Byte) (x : Conn) (m : Room), arrives s c 19 h body x → s.standing c = .room m.num →
    s.room? m.num = some m → m.num < 256 →
    ∃ t l, exec (.powerReq c h body) s = .next t ∧ answered t c 19 0 h l ∧ l.length = 32 ∧ fieldAt l 0 8 = m.num ∧
      fieldAt l 8 8 = m.energy % 2 ^ 64 ∧ t.mem = s.mem) ∧
  (∀ (s : State) (c : Nat) (h : MsgHdr) (body : List Byte) (x : Conn) (m : Room), arrives s c 11 h body x → s.standing c = .room m.num →
    m.num < 256 → body.length = 40 → q8 body 4 = 0 →
    ∃ t l, exec (.attestReq c h body) s = .next t ∧ answered t c 11 0 h l ∧ fieldAt l 0 1 = 1 ∧ fieldAt l 1 1 = m.num ∧ fieldAt l 3 1 = 0 ∧
      (l.drop 8).take 32 = body.take 32 ∧ t.mem = s.mem)

namespace Sys2Proof.Claims

/-- The session of a connection, whose scope holds a room (R403). -/
def inDebug (s : State) (c room : Nat) : Prop := ∃ v, s.sessionAt c = some v ∧ (v.scope = 0xFF ∨ v.scope = room)

/-- The codes that the request table lists (R373). -/
def listedCode (n : Nat) : Prop := 0x01 ≤ n ∧ n ≤ 0x13 ∨ 0x20 ≤ n ∧ n ≤ 0x22 ∨ 0x30 ≤ n ∧ n ≤ 0x38

/-- A body that names a group, and the group. -/
def namesGroup (s : State) (body : List Byte) (j : Journey) (g : Group) : Prop :=
  24 ≤ body.length ∧ q8 body 0 < 256 ∧ q8 body 1 < 256 ∧ q8 body 2 < 64 ∧ s.journey? (q8 body 0) = some j ∧ j.state ≠ .closing ∧
    s.ownsCore j (q8 body 1) = true ∧ s.group? (q8 body 1) (q8 body 2) = some g ∧ g.journey = j.num

end Sys2Proof.Claims

/-- R372, R384 to R387, R403 to R408: requests on rooms, from the operator's endpoint, and on debug sessions; the layouts of the debug bodies
and what a resume does for a group that a trap holds are the model's (log entries 17 and 66). -/
def Obligations.RoomAndDebugRequests : Prop :=
  (∀ (s : State) (c : Nat) (h : MsgHdr) (body : List Byte) (x : Conn), arrives s c 32 h body x → s.standing c = .operator → createStatus s body = 0 →
    ∃ t m, exec (.roomCreate c h body) s = .next t ∧ answered t c 32 0 h [] ∧ t.room? (q8 body 0) = some m ∧ m.clusters.toNat = q8 body 1 ∧
      m.ports.toNat = q8 body 2 ∧ m.rate = q8 body 3 ∧ m.depth = q8 body 4 ∧ m.tokens = m.depth ∧ m.farBytes = q8 body 5 ∧
      m.endpoints.length = q8 body 6 ∧ m.extents.length = q8 body 7 ∧ m.faultq = [] ∧ t.mem = s.mem) ∧
  (∀ (s : State) (c : Nat) (h : MsgHdr) (body : List Byte) (x : Conn) (m : Room), arrives s c 33 h body x → s.standing c = .operator →
    24 ≤ body.length → s.room? (q8 body 0) = some m → q8 body 1 ≠ 0 → q8 body 1 < 2 ^ 32 → q8 body 2 < 2 →
    s.clustersFree m.num (q8 body 1) = true → farFits (q8 body 1) m.farBytes = true →
    ∃ t p, exec (.roomResize c h body) s = .next t ∧ t.room? (q8 body 0) = some { m with resize := some (BitVec.ofNat 32 (q8 body 1), p) } ∧
      p.conn = some c ∧ p.h = h ∧
      (∀ j ∈ s.journeys, j.room = m.num → (j.state = .opened ∨ j.state = .running ∨ j.state = .resting) →
        ∃ k ∈ t.journeys, k.num = j.num ∧ k.state = .stopping (q8 body 2 == 1)) ∧ t.mem = s.mem) ∧
  (∀ (s : State) (c : Nat) (h : MsgHdr) (body : List Byte) (x : Conn), arrives s c 34 h body x → s.standing c = .operator → 8 ≤ body.length →
    (s.room? (q8 body 0)).isSome = true → (∀ j ∈ s.journeys, j.room ≠ q8 body 0) →
    ∃ t, exec (.roomDestroy c h body) s = .next t ∧ answered t c 34 0 h [] ∧ (∀ m ∈ t.rooms, m.num ≠ q8 body 0) ∧
      (∀ v ∈ t.hub.sessions, v.scope ≠ q8 body 0) ∧ t.mem = s.mem) ∧
  (∀ (s : State) (c : Nat) (h : MsgHdr) (body : List Byte) (x : Conn), arrives s c h.op.toNat h body x →
    ¬ listedCode h.op.toNat →
    ∃ t, exec (.unknownRequest c h body) s = .next t ∧ answered t c h.op.toNat 1 h [] ∧ t.mem = s.mem ∧ t.journeys = s.journeys ∧
      t.rooms = s.rooms) ∧
  (∀ (s : State) (c : Nat) (h : MsgHdr) (body : List Byte) (x : Conn), arrives s c 0x30 h body x → s.standing c = .room (q8 body 0) →
    body.length = 8 → q8 body 0 < 32 →
    ∃ t l, exec (.debugOpen c h body) s = .next t ∧ answered t c 0x30 0 h l ∧ l.length = 32 ∧
      (t.hub.conns.find? fun y => y.num == c).map (·.nonce) = some (some l) ∧ t.hub.sessions = s.hub.sessions ∧ t.mem = s.mem) ∧
  (∀ (s : State) (c : Nat) (h : MsgHdr) (body n : List Byte) (x : Conn) (m : Room) (key : Nat × Nat), arrives s c 0x30 h body x →
    s.standing c = .room m.num → s.room? m.num = some m → body.length = 104 → q8 body 0 = m.num → m.num < 32 → x.nonce = some n →
    m.debugKey = some key → ecdsaOk key (n ++ body.take 8) (ofBe ((body.drop 8).take 48)) (ofBe ((body.drop 56).take 48)) = true →
    (∀ v ∈ s.hub.sessions, v.conn ≠ c ∧ v.scope ≠ m.num ∧ v.scope ≠ 0xFF) →
    ∃ t, exec (.debugOpen c h body) s = .next t ∧ answered t c 0x30 0 h [] ∧
      t.hub.sessions = s.hub.sessions ++ [{ conn := c, scope := m.num }] ∧ t.mem = s.mem) ∧
  (∀ (s : State) (c : Nat) (h : MsgHdr) (body : List Byte) (x : Conn) (v : Session), arrives s c 0x31 h body x → s.sessionAt c = some v →
    ∃ t, exec (.debugClose c h body) s = .next t ∧ answered t c 0x31 0 h [] ∧ (∀ y ∈ t.hub.sessions, y.conn ≠ c) ∧
      (∀ g ∈ t.groups, (v.scope = 0xFF ∨ v.scope = g.room) → (∃ j, s.journey? g.journey = some j ∧ j.state ≠ .closing) →
        g.halted = false ∧ g.haltReq = false) ∧ t.mem = s.mem) ∧
  (∀ (s : State) (c : Nat) (h : MsgHdr) (body : List Byte) (x : Conn) (j : Journey) (g : Group), arrives s c 0x32 h body x → inDebug s c j.room →
    namesGroup s body j g →
    ∃ t, exec (.debugHalt c h body) s = .next t ∧ answered t c 0x32 0 h [] ∧
      (g.halted = true ∨ g.hold = .none → t.mem = s.mem) ∧ t.group? (q8 body 1) (q8 body 2) = some (
      if g.halted then g else if g.hold = .none then { g with haltReq := true } else { g with halted := true, wait := 6 })) ∧
  (∀ (s : State) (c : Nat) (h : MsgHdr) (body : List Byte) (x : Conn) (j : Journey) (g : Group), arrives s c 0x33 h body x → inDebug s c j.room →
    namesGroup s body j g → g.halted = true →
    ∃ t g', exec (.debugResume c h body) s = .next t ∧ answered t c 0x33 0 h [] ∧ t.group? (q8 body 1) (q8 body 2) = some g' ∧
      g'.halted = false ∧ g'.haltReq = false ∧ g'.hold = .none ∧ g'.s = g.s ∧ g'.v = g.v ∧
      g'.spc = (if g.hold = .brk true ∨ g.hold = .trap true then g.insAddr + BitVec.ofNat 64 (4 * g.insLen) else g.spc) ∧ t.mem = s.mem) ∧
  (∀ (s : State) (c : Nat) (h : MsgHdr) (body : List Byte) (x : Conn) (j : Journey) (g : Group), arrives s c 0x34 h body x → inDebug s c j.room →
    namesGroup s body j g → g.lq = [] →
    ∃ t l, exec (.readState c h body) s = .next t ∧ answered t c 0x34 0 h l ∧ fieldAt l 0 8 = g.spc.toNat ∧ fieldAt l 8 8 = g.lpc.toNat ∧
      fieldAt l 24 8 = g.llink.toNat ∧ (∀ k y, 1 ≤ k → g.s[k]? = some y → fieldAt l (32 + 8 * k) 8 = y.toNat) ∧ t.mem = s.mem ∧
      t.groups = s.groups) ∧
  (∀ (s : State) (c n : Nat) (h : MsgHdr) (body : List Byte) (x : Conn) (j : Journey) (g : Group), arrives s c 0x35 h body x →
    inDebug s c j.room → namesGroup s body j g → g.halted = true → 40 ≤ body.length → q8 body 3 = n → 1 ≤ n → n < 64 → (s.core g.core).ops = [] →
    ∃ t g', exec (.writeState c h body) s = .next t ∧ answered t c 0x35 0 h [] ∧ t.group? (q8 body 1) (q8 body 2) = some g' ∧
      g'.s[n]? = some (BitVec.ofNat 64 (q8 body 4)) ∧ (∀ k, k ≠ n → g'.s[k]? = g.s[k]?) ∧ g'.v = g.v ∧ g'.spc = g.spc ∧ g'.halted = true ∧
      t.mem = s.mem) ∧
  (∀ (s : State) (c : Nat) (h : MsgHdr) (body : List Byte) (x : Conn) (v : Session), arrives s c 0x36 h body x → s.sessionAt c = some v →
    24 ≤ body.length → (q8 body 0 < 8 ∧ q8 body 1 = 1) ∨ (8 ≤ q8 body 0 ∧ q8 body 0 < 16 ∧ q8 body 1 = 2) →
    ∃ t w, exec (.setPoint c h body) s = .next t ∧ answered t c 0x36 0 h [] ∧ t.sessionAt c = some w ∧ w.scope = v.scope ∧
      (q8 body 0, BitVec.ofNat 64 (q8 body 2)) ∈ (if q8 body 1 = 1 then w.bps else w.lbps) ∧ t.mem = s.mem) ∧
  (∀ (s : State) (c : Nat) (h : MsgHdr) (body : List Byte) (x : Conn) (v : Session) (m : Room), arrives s c 0x37 h body x →
    s.sessionAt c = some v → 24 ≤ body.length → 64 ≤ q8 body 0 → q8 body 0 ≤ 2 ^ 32 → q8 body 1 % 65536 = 0 → q8 body 2 % 65536 = 0 →
    m ∈ s.rooms → (v.scope = 0xFF ∨ v.scope = m.num) → m.holds (q8 body 1) (q8 body 2) = true →
    ∃ t w, exec (.sampling c h body) s = .next t ∧ answered t c 0x37 0 h [] ∧ t.sessionAt c = some w ∧ w.period = q8 body 0 ∧
      w.bufPa = q8 body 1 ∧ w.bufLen = q8 body 2 ∧ t.mem = s.mem) ∧
  (∀ (s : State) (c : Nat) (h : MsgHdr) (body : List Byte) (x : Conn) (m : Room), arrives s c 0x38 h body x → s.standing c = .operator →
    104 ≤ body.length → s.room? (q8 body 0) = some m →
    ∃ t, exec (.delegate c h body) s = .next t ∧ answered t c 0x38 0 h [] ∧
      t.room? (q8 body 0) = some { m with debugKey := some (ofBe ((body.drop 8).take 48), ofBe ((body.drop 56).take 48)) } ∧ t.mem = s.mem) ∧
  (∀ (s : State) (core : Nat) (v : Session) (g : Group), s.hub.sessions = [v] → v.due s core = true → s.groups = [g] → g.core = core → g.inRep = false →
    core < 256 → g.slot < 64 → g.journey < 256 → g.band < 256 → Memory.wf s.mem = true →
    ∃ t w n, exec (.sample core) s = .next t ∧ t.hub.sessions = [w] ∧ (core, s.cycles) ∈ w.lastAt ∧ (core, g.slot) ∈ w.turn ∧
      t.groups = s.groups ∧ s.cycles ≤ n ∧ (s.core core).clock ≤ n ∧ n ≤ max (s.core core).clock (s.cycles + 65536) ∧ (t.core core).clock = n ∧
      (if v.wr - v.rd < v.bufLen / 48 then
        ∃ r : List Byte, r.length = 48 ∧ fieldAt r 0 1 = 1 ∧ fieldAt r 2 1 = g.journey ∧ fieldAt r 3 1 = core ∧ fieldAt r 4 1 = g.slot ∧
          fieldAt r 8 8 = g.spc.toNat ∧ fieldAt r 32 8 = n % 2 ^ 64 ∧ w.wr = v.wr + 1 ∧
          ∀ k y, r[k]? = some y → t.mem.byte (v.bufPa + 48 * (v.wr % (v.bufLen / 48)) + k) = y
       else w.dropped = v.dropped + 1 ∧ t.mem = s.mem))

/-! ### Management, errors, boot, power -/

namespace Sys2Proof.Claims

/-- Room `m` with its one journey `j`, which runs, with no event, item or restore that a smaller room would be judged for, and a journey `k`
of another room; no placement is on its way to a leaf. -/
def fenceAt (s : State) (m : Room) (j k : Journey) : Prop :=
  s.rooms = [m] ∧ m.faultq.length < 1024 ∧ s.journeys = [j, k] ∧ j.num ≠ k.num ∧ j.room = m.num ∧ k.room ≠ m.num ∧ j.num < 256 ∧
    j.state = .running ∧ j.stopFor = none ∧ j.restore = none ∧ j.queue = [] ∧ j.pending = [] ∧ k.seats = [] ∧
    ∀ core band, s.commanded core band = false

/-- A 128-byte record of a code about a journey that names a unit by kind and number (R398). -/
def unitRecord (r : List Byte) (code jn kind n : Nat) : Prop :=
  r.length = 128 ∧ fieldAt r 0 1 = code ∧ fieldAt r 2 1 = jn ∧ fieldAt r 76 4 = n + 65536 * kind

/-- A journey of a room is to be stopped for a cause, with one more record in the room's fault queue (R395); the other room's journey is as it
was (R397). -/
def stoppedFor (s t : State) (m : Room) (j k : Journey) (code kind n : Nat) : Prop :=
  ∃ j' r, t.journeys = [j', k] ∧ j'.num = j.num ∧ j'.stopFor = some code ∧ unitRecord r code j.num kind n ∧
    (t.room? m.num).map (·.faultq) = some (m.faultq ++ [r]) ∧ t.mem = s.mem

/-- Cores that pass a test lose their bands and groups, and no other does. -/
def lostCores (s t : State) (lost : Nat → Bool) : Prop :=
  (∀ b, b ∈ t.bands ↔ b ∈ s.bands ∧ lost b.core = false) ∧ (∀ g, g ∈ t.groups ↔ g ∈ s.groups ∧ lost g.core = false) ∧
    ∀ c ∈ t.cores, lost c.num = false

/-- Each open line of a journey that is homed in a lost slice is written back or poisoned, and no other byte of the pool copy changes. -/
def lostLines (s t : State) (m : Room) (j : Journey) (lost : Nat → Bool) : Prop :=
  (∀ l ∈ j.openLines, lost (s.homeSlice (some m) l) = true →
    l ∈ t.poison ∨ ∀ i, i < 128 → t.pool.byte (128 * l + i) = s.mem.byte (128 * l + i)) ∧
  (∀ a, (∀ l ∈ j.openLines, lost (s.homeSlice (some m) l) = true → a < 128 * l ∨ 128 * l + 128 ≤ a) → t.pool.byte a = s.pool.byte a) ∧
  ∀ l, l ∈ t.poison → l ∈ s.poison ∨ (l ∈ j.openLines ∧ lost (s.homeSlice (some m) l) = true)

end Sys2Proof.Claims

/-- R371 to R373, R381, R385, R391 to R397, R404, R411 to R414, R417, R418, R421, R424, R425: the messages and the events of the module around
the journeys. A fenced core's bands and groups are lost and their journey is to be stopped, with a record; a fenced slice's dirty lines are
written back or poisoned and its room's journey goes on; a fenced port's extents leave the room, and a journey with a page behind it is to be
stopped; a fenced cluster loses all three, and its Ostler's requests pass to another cluster or their lines are poisoned; no journey of
another room changes. Which connection a notice takes, which bytes and which key a fuse request has, what a connection's close does to its
session and to halted groups, how many tokens line requests have taken before a refill, what a struck word holds, what a reset leaves of the
hub's state and what the rest of the module draws are the model's choices (log entries 14, 18, 48, 66, 56, 60, 62 and 65). -/
def Obligations.DeviceManagement : Prop :=
  (∀ (s : State) (c : Nat) (h : MsgHdr) (x : Conn), s.hub.boot = .up → h.ver = 1 → h.type = 4 → s.hub.conns.find? (fun y => y.num == c) = some x →
    ∃ t l, exec (.resync c h) s = .next t ∧ l.length = 32 ∧ fieldAt l 1 1 = 4 ∧ fieldAt l 4 4 = x.seq.toNat ∧ fieldAt l 8 4 = (x.next - 1).toNat ∧
      t.hub.outbox = s.hub.outbox ++ ⟨c, l⟩ :: (x.kept.filter fun m => laterThan m.1 h.ack).map (fun m => ⟨c, m.2.2⟩) ∧ t.mem = s.mem) ∧
  (∀ (s : State) (a : Nat) (h : MsgHdr) (e : Endpoint), (h.ver ≠ 1 ∨ h.type = 0 ∨ 4 < h.type.toNat) →
    (s.hub.boot = .scheduling ∨ s.hub.boot = .up) → s.hub.endpoints = [e] → e.addr = a →
    exec (.droppedMessage a h) s = .next { s with hub := { s.hub with endpoints := [{ e with dropped := e.dropped + 1 }] } }) ∧
  (∀ (s : State) (a : Nat) (e : Endpoint), (s.hub.boot = .scheduling ∨ s.hub.boot = .up) → s.hub.endpoints = [e] → e.addr = a →
    exec (.unsupportedDeliveryPacket a) s = .next { s with hub := { s.hub with endpoints := [{ e with unsupported := e.unsupported + 1 }] } }) ∧
  (∀ (s : State) (room n : Nat) (m : Room), s.rooms = [m] → m.num = room →
    ∃ t k, exec (.tokenBucketRefill room n) s = .next t ∧ t.rooms = [k] ∧ k.tokens ≤ m.depth ∧
      k.tokens ≤ m.tokens + (m.periods + m.rate * n) / 1024 ∧ min m.depth ((m.periods + m.rate * n) / 1024) ≤ k.tokens ∧
      (k.tokens < m.depth → k.periods = (m.periods + m.rate * n) % 1024) ∧ (k.tokens = m.depth → k.periods = 0) ∧ t.mem = s.mem) ∧
  (∀ (s : State) (c a : Nat) (m : Room), s.hub.boot = .up → (a = 0 ∨ (m ∈ s.rooms ∧ a ∈ m.endpoints)) → (∀ y ∈ s.hub.conns, y.num ≠ c) →
    (∀ m ∈ s.rooms, a ∈ m.endpoints → m.notices = []) →
    ∃ t y, exec (.connectionOpen c a) s = .next t ∧ t.hub.conns = s.hub.conns ++ [y] ∧ y.num = c ∧ y.endpoint = a ∧ y.expect = 1 ∧ y.seq = 1 ∧
      y.kept = [] ∧ t.hub.outbox = s.hub.outbox ∧ t.mem = s.mem) ∧
  (∀ (s : State) (c a kind jn : Nat) (l : List Byte) (m : Room), s.hub.boot = .up → s.rooms = [m] → a ∈ m.endpoints → s.hub.conns = [] →
    m.notices = [(kind, jn, l)] → kind < 256 → jn < 256 →
    ∃ t b, exec (.connectionOpen c a) s = .next t ∧ t.rooms = [{ m with notices := [] }] ∧ t.hub.outbox = s.hub.outbox ++ [⟨c, b⟩] ∧
      fieldAt b 1 1 = 3 ∧ fieldAt b 2 1 = kind ∧ fieldAt b 4 4 = 1 ∧ fieldAt b 12 1 = jn ∧ b.drop 32 = l ∧ t.mem = s.mem) ∧
  (∀ (s : State) (c : Nat) (g : Group) (v : Session), s.sessionAt c = some v → s.groups = [g] → (v.scope = 0xFF ∨ v.scope = g.room) →
    (∃ j, s.journey? g.journey = some j ∧ j.state ≠ .closing) →
    ∃ t g', exec (.connectionClose c) s = .next t ∧ (∀ y ∈ t.hub.conns, y.num ≠ c) ∧ t.sessionAt c = none ∧ t.groups = [g'] ∧ g'.halted = false ∧
      t.mem = s.mem) ∧
  (∀ (s : State) (port width rate : Nat), (width < 16 ∨ rate < 64) → port < 24 → UnitId.port port ∉ s.hub.fenced → s.rooms = [] →
    ∃ t, exec (.cxlLinkTraining port width rate) s = .next t ∧ UnitId.port port ∈ t.hub.fenced ∧ t.mem = s.mem) ∧
  (∀ (s : State) (port width rate : Nat), 16 ≤ width → 64 ≤ rate → ∃ t, exec (.cxlLinkTraining port width rate) s = .next t ∧
    t.hub.fenced = s.hub.fenced ∧ t.mem = s.mem) ∧
  (∀ (s : State) (n : Nat), n < 256 → s.hub.errors = [] → s.hub.thresholds = [(.core, 1)] →
    exec (.correctedError (.core n)) s = .next { s with hub := { s.hub with errors := [(.core n, s.wallNs)] } }) ∧
  (∀ (s : State) (n : Nat), n < 256 → s.hub.errors = [] → s.hub.thresholds = [(.core, 0)] → UnitId.core n ∉ s.hub.fenced → s.rooms = [] → s.bands = [] → s.reqs = [] →
    ∃ t, exec (.correctedError (.core n)) s = .next t ∧ t.hub.fenced = s.hub.fenced ++ [.core n] ∧ (∀ g ∈ t.groups, g.core ≠ n)) ∧
  (∀ (s : State) (l : Nat), ∃ t, exec (.uncorrectedError (.line l)) s = .next t ∧ (∀ k, k ∈ t.poison ↔ k = l ∨ k ∈ s.poison) ∧ t.mem = s.mem ∧
    t.journeys = s.journeys) ∧
  (∀ (s : State) (core band : Nat) (b : Band) (j : Journey) (m : Room), s.band? core band = some b → s.journeys = [j] → b.journey = j.num →
    s.room? j.room = some m → m.faultq.length < 1024 → s.hub.conns = [] → j.stopFor = none → j.state = .running → core < 256 → band < 256 → j.num < 256 →
    Memory.wf s.mem = true →
    ∃ t r k, exec (.uncorrectedError (.local core band)) s = .next t ∧ (t.room? j.room).map (·.faultq) = some (m.faultq ++ [r]) ∧
      fieldAt r 0 1 = 0x1B ∧ fieldAt r 3 1 = core ∧ fieldAt r 5 1 = band ∧ t.journeys = [k] ∧ k.stopFor = some 0x1B ∧
      ∀ a, (∀ l ∈ j.openLines, a < 128 * l ∨ 128 * l + 128 ≤ a) → t.mem.byte a = s.mem.byte a) ∧
  (∀ (s : State) (n : Nat) (l : Link), n < 32 → s.hub.links = [l] → l.leaf = n → l.toLeaf = 0 → l.waiting ≠ [] → UnitId.cluster n ∉ s.hub.fenced →
    s.rooms = [] → s.bands = [] → s.journeys = [] → s.reqs = [] →
    ∃ t k, exec (.leafPermitTimeout n) s = .next t ∧ UnitId.cluster n ∈ t.hub.fenced ∧ t.hub.links = [k] ∧ k.fenced = true ∧ t.mem = s.mem) ∧
  (∀ (s : State) (n : Nat), n < 256 → UnitId.core n ∉ s.hub.fenced → s.rooms = [] → s.bands = [] → s.reqs = [] →
    ∃ t, exec (.operatorFence (.core n)) s = .next t ∧ t.hub.fenced = s.hub.fenced ++ [.core n] ∧ (∀ g ∈ t.groups, g.core ≠ n) ∧ t.mem = s.mem) ∧
  (∀ (s : State) (n : Nat) (m : Room) (j k : Journey), fenceAt s m j k → n < 256 → m.clusters.toNat.testBit (n / 8) = true →
    UnitId.core n ∉ s.hub.fenced → s.reqs = [] → (∃ b ∈ s.bands, b.core = n) → (∀ b ∈ s.bands, b.core = n → b.journey = j.num) →
    ∃ t, exec (.operatorFence (.core n)) s = .next t ∧ t.hub.fenced = s.hub.fenced ++ [.core n] ∧ lostCores s t (· == n) ∧
      stoppedFor s t m j k 0x1E 0 n) ∧
  (∀ (s : State) (n : Nat) (m : Room) (j k : Journey), fenceAt s m j k → n < 256 → m.clusters.toNat.testBit (n / 8) = true →
    UnitId.slice n ∉ s.hub.fenced → Memory.wf s.pool = true →
    ∃ t j', exec (.operatorFence (.slice n)) s = .next t ∧ t.hub.fenced = s.hub.fenced ++ [.slice n] ∧ t.journeys = [j', k] ∧
      j'.state = .running ∧ j'.stopFor = none ∧ (∀ l ∈ j'.dirty, l ∈ j.dirty) ∧
      (∀ l ∈ j'.dirty, s.homeSlice (some m) l = n → l ∈ t.poison) ∧ lostLines s t m j (· == n) ∧
      t.mem = s.mem ∧ t.rooms = s.rooms ∧ t.bands = s.bands ∧ t.groups = s.groups) ∧
  (∀ (s : State) (n : Nat) (m : Room) (j k : Journey), fenceAt s m j k → n < 24 → UnitId.port n ∉ s.hub.fenced →
    ∃ t, exec (.operatorFence (.port n)) s = .next t ∧ t.hub.fenced = s.hub.fenced ++ [.port n] ∧
      (t.room? m.num).map (·.extents) = some (m.extents.filter fun e => e.port ≠ n) ∧ t.bands = s.bands ∧ t.groups = s.groups ∧
      ((∃ e ∈ m.extents, e.port = n ∧ ∃ u ∈ j.tables, ∃ p ∈ u.entries, p.window = false ∧ e.base ≤ p.target.toNat ∧
          p.target.toNat < e.base + e.len) → stoppedFor s t m j k 0x1F 2 n) ∧
      ((∀ e ∈ m.extents, e.port = n → j.mapsExtent e = false) → t.journeys = s.journeys ∧ t.mem = s.mem)) ∧
  (∀ (s : State) (n : Nat) (m : Room) (j k : Journey), fenceAt s m j k → n < 32 → m.clusters.toNat.testBit n = true →
    m.clusters ≠ (1 : Word32) <<< n → UnitId.cluster n ∉ s.hub.fenced → s.reqs = [] → Memory.wf s.pool = true →
    (∃ b ∈ s.bands, b.core / 8 = n) → (∀ b ∈ s.bands, b.core / 8 = n → b.journey = j.num) →
    ∃ t, exec (.operatorFence (.cluster n)) s = .next t ∧ t.hub.fenced = s.hub.fenced ++ [.cluster n] ∧ lostCores s t (· / 8 == n) ∧
      stoppedFor s t m j k 0x1E 4 n ∧ lostLines s t m j (· / 8 == n) ∧
      (t.room? m.num).map (·.clusters) = some (m.clusters &&& ~~~((1 : Word32) <<< n))) ∧
  (∀ (s : State) (n : Nat) (m : Room) (j k : Journey) (q : Req) (g : Group), fenceAt s m j k → n < 32 → m.clusters.toNat.testBit n = true →
    m.clusters ≠ (1 : Word32) <<< n → UnitId.cluster n ∉ s.hub.fenced → (∀ b ∈ s.bands, b.core / 8 ≠ n) → (∀ v ∈ s.groups, v.core / 8 ≠ n) → j.dirty = [] → j.unacq = [] → s.reqs = [q] →
    q.agent = .ostler n → q.core / 8 ≠ n → s.group? q.core q.slot = some g → g.dead = false → g.room = m.num → g.journey = j.num →
    ∃ t, exec (.operatorFence (.cluster n)) s = .next t ∧ t.mem = s.mem ∧
      ((∃ c, c ≠ n ∧ m.clusters.toNat.testBit c = true ∧ t.reqs = [{ q with agent := .ostler c }] ∧ t.poison = s.poison ∧ t.groups = s.groups) ∨
       (t.reqs = [] ∧ q.pa / 128 ∈ t.poison ∧ ∃ r, (t.room? m.num).map (·.faultq) = some (m.faultq ++ [r]) ∧ fieldAt r 0 1 = 0x1A))) ∧
  (∀ (s : State) (n : Nat), n < 256 → s.hub.errors = [] → s.hub.thresholds = [(.core, 0)] →
    exec (.correctedError (.core n)) s = exec (.operatorFence (.core n)) { s with hub := { s.hub with errors := [(.core n, s.wallNs)] } }) ∧
  (∀ (s : State) (u : UnitId), exec (.uncorrectedError (.control u)) s = exec (.operatorFence u) s) ∧
  (∀ (s : State) (n : Nat) (l : Link), s.hub.links.find? (fun x => x.leaf == n) = some l → l.toLeaf = 0 → l.waiting ≠ [] →
    exec (.leafPermitTimeout n) s = exec (.operatorFence (.cluster n)) s) ∧
  (∀ (s : State) (n : Nat) (l : Link), n < 32 → s.hub.boot = .scheduling → l ∈ s.hub.links → l.leaf = n → l.ready = false → l.fenced = false →
    UnitId.cluster n ∉ s.hub.fenced → exec (.leafReadyTimeout n) s = exec (.operatorFence (.cluster n)) s) ∧
  (∀ (s : State) (port width rate : Nat), (width < 16 ∨ rate < 64) →
    ∃ t, exec (.operatorFence (.port port)) s = .next t ∧ exec (.cxlLinkTraining port width rate) s = .next { t with hub := { t.hub with
      cxlDown := if t.hub.cxlDown.contains port then t.hub.cxlDown else t.hub.cxlDown ++ [port] } }) ∧
  (∀ (s : State) (u : UnitId), ∃ t, exec (.fenceClear u) s = .next t ∧ (∀ v, v ∈ t.hub.fenced ↔ v ∈ s.hub.fenced ∧ v ≠ u) ∧ t.mem = s.mem ∧
    t.rooms = s.rooms) ∧
  (∀ (s : State) (k : UnitKind) (n : Nat), ∃ t, exec (.setErrorThreshold k n) s = .next t ∧ (k, n) ∈ t.hub.thresholds ∧ t.mem = s.mem ∧
    t.rooms = s.rooms) ∧
  (∀ (s : State) (w : Nat), 1200 ≤ w → w ≤ 2200 → exec (.setPowerCap w) s = .next { s with hub :=
    { s.hub with powerCap := w, leastCap := min s.hub.leastCap w } }) ∧
  (∀ (s : State) (f : FuseArg) (r n : Nat) (key : Nat × Nat), s.hub.opKey = some key → ecdsaOk key f.bytes r n = true →
    ∃ t, exec (.raiseFuses f f.bytes r n) s = .next t ∧ t.mem = s.mem ∧ match f with
      | .revoke i => ∀ k, k ∈ t.hub.revoked ↔ k = i.toNat ∨ k ∈ s.hub.revoked
      | .minSvn kind svn => SMap.wf 0 s.hub.minSvn = true →
        SMap.get 0 kind.toNat t.hub.minSvn = max (SMap.get 0 kind.toNat s.hub.minSvn) svn.toNat) ∧
  (∀ (s : State) (l : List Byte) (v : Running), s.hub.boot ≠ .off → 1 ≤ fieldAt l 5 1 → fieldAt l 5 1 ≤ 5 →
    s.hub.running.find? (fun r => r.kind == fieldAt l 5 1) = some v → v.copy < 2 →
    ∃ t, exec (.firmwareImageWrite l) s = .next t ∧ t.mem = s.mem ∧
      (s.hub.accepts (fieldAt l 5 1) l = true → (⟨1 - v.copy, fieldAt l 5 1, l⟩ : FlashImage) ∈ t.hub.flash ∧
        ∀ y ∈ s.hub.flash, (y.kind ≠ fieldAt l 5 1 ∨ y.copy = v.copy) → y ∈ t.hub.flash) ∧
      (s.hub.accepts (fieldAt l 5 1) l = false → t.hub.flash = s.hub.flash)) ∧
  (∀ (s : State) (ready : BitVec 32), ∃ t, exec (.deviceReset ready) s = .next t ∧ t.mem = s.pool ∧ t.pool = s.pool ∧ t.journeys = [] ∧
    t.rooms = [] ∧ t.groups = [] ∧ t.bands = [] ∧ t.cores = [] ∧ t.cycles = 0 ∧ t.hub.flash = s.hub.flash ∧ t.hub.revoked = s.hub.revoked ∧
    t.hub.minSvn = s.hub.minSvn ∧ t.hub.fenced = s.hub.fenced ∧ t.hub.secret = s.hub.secret ∧ t.hub.identity = some (identityOf s.hub.secret) ∧ t.hub.conns = [] ∧ t.hub.sessions = [] ∧ t.hub.imports = [] ∧
    ((∃ k, 1 ≤ k ∧ k ≤ 5 ∧ s.hub.choose k = none) → t.hub.boot = .recovery) ∧
    ((∀ k, 1 ≤ k → k ≤ 5 → s.hub.choose k ≠ none) → (∀ n, n < 32 → ready.getLsbD n = true ∨ UnitId.cluster n ∈ s.hub.fenced) →
      t.hub.boot = .up)) ∧
  (∀ (s : State) (n : Nat) (l : Link), s.hub.boot = .scheduling → s.hub.links = [l] → l.leaf = n → l.ready = false → l.fenced = false →
    s.rooms = [] → s.bands = [] → s.journeys = [] → s.reqs = [] →
    ∃ t, exec (.leafReadyTimeout n) s = .next t ∧ UnitId.cluster n ∈ t.hub.fenced ∧ t.hub.boot = .up ∧ t.mem = s.mem) ∧
  (∀ (s : State) (n : Nat) (l : Link) (p : PlaceCmd) (ps : List PlaceCmd), s.hub.links = [l] → l.leaf = n → l.inbox = p :: ps →
    ∃ t k, exec (.leafPlacementCommand n) s = .next t ∧ t.hub.links = [k] ∧ k.inbox = ps ∧ k.taken = l.taken + 1 ∧
      (s.hub.coreFenced p.core = false → k.replies = l.replies ∧ k.unsent = l.unsent) ∧
      (s.hub.coreFenced p.core = true → 0 < l.toSched → k.replies = l.replies ++ [.refusal p] ∧ k.toSched = l.toSched - 1) ∧
      (s.hub.coreFenced p.core = true → l.toSched = 0 → k.unsent = l.unsent ++ [.refusal p]) ∧ t.mem = s.mem) ∧
  (∀ (s : State) (n : Nat) (l : Link) (p : LeafMsg) (ps : List LeafMsg), s.hub.links = [l] → l.leaf = n → l.replies = p :: ps →
    (∀ c, p = .refusal c → s.bandOf c = none) →
    ∃ t k, exec (.placementRefusal n) s = .next t ∧ t.hub.links = [k] ∧ k.replies = ps ∧ k.takenBack = l.takenBack + 1 ∧ t.mem = s.mem) ∧
  (∀ (s : State) (n : Nat) (l : Link) (p : PlaceCmd) (ps : List LeafMsg) (b : Band) (m : Room) (core : Nat) (y : Place), s.hub.links = [l] →
    l.leaf = n → l.replies = .refusal p :: ps → s.bandOf p = some b → b.gangBands = [] → b.members.Nodup → s.room? b.room = some m →
    placeOn (s.occs m) (coresFor (rotateAfter (s.roomCores m) m.lastCore) b) b.need = some (core, y) →
    ∃ t b', exec (.placementRefusal n) s = .next t ∧ t.band? core y.band = some b' ∧ b'.members = y.slots ∧ b'.handler = b.handler ∧
      b'.journey = b.journey ∧ t.mem = s.mem) ∧
  (∀ (s : State) (n : Nat) (l : Link), s.hub.links = [l] → l.leaf = n → 0 < l.taken → l.waiting = [] →
    exec (.permitReturn n true) s = .next { s with hub := { s.hub with links := [{ l with taken := l.taken - 1, toLeaf := l.toLeaf + 1 }] } }) ∧
  (∀ (s : State) (n : Nat) (l : Link) (p : LeafMsg) (ps : List LeafMsg), s.hub.links = [l] → l.leaf = n → 0 < l.takenBack → l.unsent = p :: ps →
    exec (.permitReturn n false) s = .next { s with hub := { s.hub with links :=
      [{ l with takenBack := l.takenBack - 1, unsent := ps, replies := l.replies ++ [p] }] } }) ∧
  (∀ (s : State) (u v : List Nat), u.length = 32 → v.length = 24 → 2200 < (u ++ v).sum → exec (.powerInterval u v) s = .next s) ∧
  (∀ (s : State) (u v : List Nat) (m : Room), u.length = 32 → v.length = 24 → (u ++ v).sum ≤ 2200 → s.rooms = [m] →
    (∀ o ∈ s.hub.owners, o.1 < 56 ∧ o.2 = m.num) →
    ∃ t k, exec (.powerInterval u v) s = .next t ∧ t.rooms = [k] ∧ k.energy = m.energy + (s.hub.owners.map fun o => (u ++ v).getD o.1 0).sum ∧
      k.powerAt = s.wallNs ∧ (u ++ v).sum ≤ t.hub.powerModule ∧ t.hub.powerModule ≤ 2200 ∧
      t.hub.hold = decide (s.hub.powerCap < t.hub.powerModule) ∧ t.hub.leastCap = s.hub.powerCap ∧ t.mem = s.mem)

/-! ### Lookahead windows -/

/-- R43 to R45, R75: `s0` reads zero; a register outside every window reads what it holds; inside a window a read gives the old or the new
value, and a write leaves the written value or the one before it. -/
def Obligations.WindowsShowOldOrNew : Prop :=
  (∀ (s : State), s.sreg 0 = 0) ∧
  (∀ (s : State) (r : SReg), r ≠ 0 → (∀ w ∈ s.g.winS, w.reg ≠ r) → s.sreg r = s.g.s[r.toNat]) ∧
  (∀ (s : State) (r : SReg), (∃ w ∈ s.g.winS, w.reg = r) → r ≠ 0 → s.sreg r = s.g.s[r.toNat] ∨ ∃ w ∈ s.g.winS, w.reg = r ∧ s.sreg r = w.old) ∧
  (∀ (s : State) (d : SReg) (la : BitVec 4) (imm : BitVec 32), d ≠ 0 → s.openS d = true →
    ∃ t, exec (.moviLong d la imm) s = .next t ∧ (t.g.s[d.toNat] = imm.signExtend 64 ∨ t.g.s[d.toNat] = s.g.s[d.toNat]) ∧
      ∀ r, r ≠ d → t.g.s[r.toNat] = s.g.s[r.toNat])

/-! ### Steps -/

namespace Sys2Proof.Claims

/-- The scalar stream of a group moves next: its leaf has taken its band (R418), and nothing halts or holds the group. -/
def scalarTurn (s : State) (core slot : Nat) (g : Group) : Prop :=
  s.nextAgent = .scalar core slot ∧ s.group? core slot = some g ∧ s.commanded core g.band = false ∧ g.scalarStuck = false ∧
    (s.focus g).haltCheck = none

/-- It moves, and is not parked. -/
def scalarMoves (s : State) (core slot : Nat) (g : Group) : Prop := scalarTurn s core slot g ∧ g.park = none

/-- The focus with the words of the instruction at the scalar PC, as a fetch reads them. -/
def fetched (s : State) (g : Group) : State × List Word32 × Option Nat := ({ s.focus g with g := { g with passed := true } }).fetchScalar

/-- The focus in which a scalar instruction of some length executes. -/
def atInstr (s : State) (len : Nat) : State := { s with g := { s.g with insAddr := s.g.spc, insLen := len, md := {}, repOff := 0, repped := false } }

/-- The focus in which a scalar word that is no instruction traps. -/
def illegalAt (s : State) : State := { s with g := { s.g with insAddr := s.g.spc, insLen := 1 } }

/-- What a step makes of an answer of `exec`: the focus goes back, the device settles, and the machine's clock and free values go on. -/
def stepsTo : Host.Outcome State Fault Refusal → Host.Outcome State Fault Refusal
  | .next t => .next (settle t.unfocus).tick
  | .fault f => .fault f
  | .refused r => .refused r

/-- The group's lane stream moves next, wholly or up to some access of its word, and that word is the head of its queue, or behind a parked
head the next one of its window (R48). -/
def laneTurn (s : State) (core slot part : Nat) (g : Group) (e : LqEnt) : Prop :=
  ((s.nextAgent = .lane core slot ∧ part = 64) ∨ s.nextAgent = .lanePart core slot part) ∧ s.group? core slot = some g ∧
    s.commanded core g.band = false ∧ g.laneStuck = false ∧
    ((g.lpark = none ∧ g.lq.head? = some e) ∨
     (g.lpark.isSome = true ∧ g.lq[1]? = some e ∧ ∃ x h, g.lq.head? = some x ∧ x.ins.hdr = some h ∧ g.past < h.la.toNat))

/-- The focus in which a queued lane word executes: its mask, base register and addresses as `lq` captured them, and what an earlier part of
it has left, the sources that it read among it. -/
def atLaneWord (s : State) (part : Nat) (g : Group) (e : LqEnt) : State :=
  { s.focus g with g := { g with ictx := ⟨e.mask, e.base, e.todo, e.addr, e.lqAddr, e.acc, part, e.lows, e.pages, e.kept⟩ } }

end Sys2Proof.Claims

/-- R18, R48, R135, R136, R138: a step of a group's scalar stream runs `exec` of the instruction that the words at its PC decode to, and behind a
parked load `exec` of one that may go past it; a step of its lane stream runs `exec` of the word at the head of its queue, or behind a parked
head of the next one; a word that is no instruction runs the trap of R49, and one that the section's end cuts off takes FetchBound (0x04);
an instruction that an interlock holds changes nothing but the wait code; a step of the device runs `exec` of it. A fetched word is the
little-endian word at the address's translation. -/
def Obligations.StepRunsDecodedInstruction : Prop :=
  (∀ (s s1 : State) (core slot : Nat) (g : Group) (ws : List Word32) (bad : Option Nat) (i : Instr) (len : Nat), scalarMoves s core slot g →
    fetched s g = (s1, ws, bad) → decodeScalar ws = .ok i len → (atInstr s1 len).readyScalar i = true → step s = stepsTo (exec i (atInstr s1 len))) ∧
  (∀ (s s1 : State) (core slot k : Nat) (g : Group) (ws : List Word32) (bad : Option Nat), scalarMoves s core slot g → fetched s g = (s1, ws, bad) →
    decodeScalar ws = .illegal k → step s = stepsTo (exec (.illegalInstruction (BitVec.ofNat 64 (4 * k))) (illegalAt s1))) ∧
  (∀ (s s1 : State) (core slot : Nat) (g : Group) (ws : List Word32) (bad : Option Nat) (i : Instr) (len : Nat), scalarMoves s core slot g →
    fetched s g = (s1, ws, bad) → decodeScalar ws = .ok i len → (atInstr s1 len).readyScalar i = false →
    step s = stepsTo (.next { atInstr s1 len with g := { (atInstr s1 len).g with wait := 3 } })) ∧
  (∀ (s s1 : State) (core slot k : Nat) (g : Group) (ws : List Word32), scalarMoves s core slot g → fetched s g = (s1, ws, none) →
    decodeScalar ws = .bound k →
    step s = stepsTo (.next ((illegalAt s1).takeTrap 0x04 { waddr := s1.g.spc + BitVec.ofNat 64 (4 * k) }))) ∧
  (∀ (s s1 : State) (core slot : Nat) (g : Group) (ws : List Word32) (bad : Option Nat) (i : Instr) (len : Nat), scalarTurn s core slot g →
    g.park.isSome = true → (s.focus g).fetchScalar = (s1, ws, bad) → decodeScalar ws = .ok i len → goesPast (s.focus g) i = true →
    (atInstr s1 len).readyScalar i = true →
    step s = match exec i (atInstr s1 len) with
      | .next t => stepsTo (.next { t with g := { t.g with park := g.park, scAcc := g.scAcc, wait := g.wait,
                                                           ahead := { g.ahead with left := g.ahead.left - 1, gone := g.ahead.gone + 1 } } })
      | r => r) ∧
  (∀ (s : State) (ev : Instr), s.nextAgent = .device ev → ev.isStep = true →
    step s = match exec ev s with | .next t => .next (settle t).tick | r => r) ∧
  (∀ (s : State) (ev : Instr) (n : Nat), s.nextAgent = .devicePart ev n → ev.isStep = true →
    step s = match exec ev { s with few := some n } with | .next t => .next (settle t).tick | r => r) ∧
  (∀ (s : State) (core slot part : Nat) (g : Group) (e : LqEnt), laneTurn s core slot part g e →
    (atLaneWord s part g e).readyLane e.ins = true →
    step s = match exec e.ins (atLaneWord s part g e) with
      | .next t => stepsTo (.next ((atLaneWord s part g e).keepSources e t))
      | r => r) ∧
  (∀ (s s1 : State) (a : Word64) (pa : Nat), s.xlate none needX a = (s1, .pool pa) → s1.poison = [] → s1.j.unacq = [] →
    s.wordAt a = (s1, .inl (BitVec.ofNat 32 (leNat s1.mem.byte pa 4)))) ∧
  (∀ (s s1 : State) (a : Word64) (n : Nat) (w : Word32), inScalar s a → (a - s.g.handler.sbase).toNat + 4 ≤ s.g.handler.ssize.toNat →
    s.wordAt a = (s1, .inl w) → s.fetchWords (n + 1) a = ((s1.fetchWords n (a + 4)).1, w :: (s1.fetchWords n (a + 4)).2.1, (s1.fetchWords n (a + 4)).2.2))

/-! ### Encodings -/

namespace Sys2Proof.Claims

/-- A lane word's header without guard, mask or lookahead. -/
def plainHdr : LaneHdr := ⟨15, false, 0, false, 0⟩

end Sys2Proof.Claims

/-- R20, R21, R23, R24, R38, R40: words that the manual's worked encodings give decode to the instructions they stand for, and a word of an
unassigned cell is no instruction. -/
def Obligations.WorkedWordsDecode : Prop :=
  decodeScalar [0x001461C0] = .ok (.add 5 6 7) 1 ∧
  decodeScalar [0x84800000, 0x02209280] = .ok (.modifierPrefix .rz false false (.faddF64 8 9 10)) 2 ∧
  decodeScalar [0x4B30418C, 0x00001000] = .ok (.ldLong .b64 12 4 3 0x1000) 2 ∧
  decodeScalar [0x88095000, 0x007DE540] = .ok (.repPrefix 2 1 1 1 0 (.add 31 30 21)) 2 ∧
  decodeScalar [0x0C61803E] = .ok (.shlImm 24 24 62) 1 ∧ decodeScalar [0x1257FFF9] = .ok (.movi 21 0x3FFF9) 1 ∧
  decodeScalar [0x1B00000B] = .ok (.lq 11) 1 ∧ decodeScalar [0x04000003] = .ok .exit 1 ∧ decodeScalar [0x04000004] = .ok .nop 1 ∧
  decodeScalar [0x06000000] = .ok .cclear 1 ∧ decodeScalar [0x07000000] = .illegal 0 ∧
  decodeLane 0x231404050631000600000000 = some (.fma ⟨3, false, 2, false, 0⟩ .f32 .rn false 20 4 5 6) ∧
  decodeLane 0x390A000000F000023E99999A = some (.laneMovi plainHdr 10 0x3E99999A) ∧
  decodeLane 0x34140A0006F0000C00000000 = some (.cvt plainHdr .e2m1 .f32 .rn false 20 10 0) ∧
  decodeLane 0x4A0A000100F0000000000000 = some (.sred plainHdr .s32 .add 10 0 1 0) ∧
  decodeLane 0x410D000000F0400200000000 = some (.qswapV ⟨15, false, 0, true, 0⟩ false 13 0) ∧
  decodeLane 0x1F00010000F0000000000001 = some (.pmovFromVreg plainHdr 0 1) ∧ decodeLane 0x600000000000000000000000 = none

/-- R19 to R25, R35, R37: every well-formed instruction of the scalar stream, prefixes included, encodes to words that decode to it, with every
operand at every value the encoding admits. -/
def Obligations.ScalarEncodingRoundTrip : Prop :=
  ∀ (i : Instr) (tail : List Word32), i.wf = true → i.isLane = false →
    ∃ ws, encode i = some ws ∧ decodeScalar (ws ++ tail) = .ok i ws.length

/-- R16, R17, R38 to R42: every well-formed lane instruction encodes to a lane word that decodes to it. -/
def Obligations.LaneEncodingRoundTrip : Prop :=
  ∀ (i : Instr), i.wf = true → i.isLane = true → ∃ w, encodeLane i = some w ∧ encode i = some (laneWords w) ∧ decodeLane w = some i

/-! ### Memory's form -/

namespace Sys2Proof.Claims

/-- Both memories are in canonical form: equal memories are equal lists. -/
def memoriesCanonical (s : State) : Prop := Memory.wf s.mem = true ∧ Memory.wf s.pool = true

end Sys2Proof.Claims

/-- Every step of the machine keeps coherent memory and the pool copy in canonical form: addresses strictly rising, no entry equal to what an
unlisted address reads as. -/
def Obligations.StepKeepsMemoryCanonical : Prop :=
  ∀ (s t : State), memoriesCanonical s → step s = .next t → memoriesCanonical t

/-- R411 and the model's choices (assumptions 3 and 4): the machine right after reset has canonical memories, no room, journey, band, group or
request, a hub that has not booted, and every error threshold at 1,024. -/
def Obligations.ResetState : Prop :=
  memoriesCanonical State.reset ∧ State.reset.journeys = [] ∧ State.reset.rooms = [] ∧ State.reset.groups = [] ∧ State.reset.bands = [] ∧
    State.reset.reqs = [] ∧ State.reset.hub.boot = .off ∧ State.reset.hub.powerCap = 2200 ∧ (∀ k, (k, 1024) ∈ State.reset.hub.thresholds)
end

