-- ==== Sys2Proof/Laws/Memory.lean ====
section
/-! SUPPORT. The laws of sparse maps and memory: read after write, other places, the canonical form that every write keeps, and the
little-endian numbers of bytes. -/

namespace Sys2Proof.Machine

/-! ### Sparse maps -/

section
variable {α : Type} [DecidableEq α]

omit [DecidableEq α] in
/-- A map whose keys lie at or above a number reads the default below it. -/
theorem SMap.get_below (d : α) : ∀ (m : List (Nat × α)) (lo k : Nat), SMap.sortedFrom lo m = true → k < lo → SMap.get d k m = d
  | [], _, _, _, _ => rfl
  | (a, x) :: m, lo, k, h, hk => by
    simp only [SMap.sortedFrom, Bool.and_eq_true, decide_eq_true_eq] at h
    simp only [SMap.get]
    rw [if_neg (by omega), if_pos (by omega)]

omit [DecidableEq α] in
theorem SMap.sortedFrom_mono : ∀ (m : List (Nat × α)) (lo lo' : Nat), lo' ≤ lo → SMap.sortedFrom lo m = true → SMap.sortedFrom lo' m = true
  | [], _, _, _, _ => rfl
  | (a, x) :: m, lo, lo', hl, h => by
    simp only [SMap.sortedFrom, Bool.and_eq_true, decide_eq_true_eq] at h ⊢
    exact ⟨by omega, h.2⟩

theorem SMap.get_set_same (d : α) (k : Nat) (x : α) : ∀ (m : List (Nat × α)) (lo : Nat), SMap.sortedFrom lo m = true →
    SMap.get d k (SMap.set d k x m) = x
  | [], _, _ => by
    unfold SMap.set
    split
    · simp_all [SMap.get]
    · simp [SMap.get]
  | (a, y) :: m, lo, h => by
    simp only [SMap.sortedFrom, Bool.and_eq_true, decide_eq_true_eq] at h
    unfold SMap.set
    split
    · next e =>
      split
      · next ex => rw [SMap.get_below d m (a + 1) k h.2 (by omega), ex]
      · simp [SMap.get, e]
    · next ne =>
      split
      · next lt =>
        split
        · next ex => simp [SMap.get, ne, lt, ex]
        · simp [SMap.get]
      · next nlt =>
        simp only [SMap.get, if_neg ne, if_neg nlt]
        exact SMap.get_set_same d k x m (a + 1) h.2

theorem SMap.get_set_other (d : α) (k q : Nat) (x : α) (hne : q ≠ k) : ∀ (m : List (Nat × α)) (lo : Nat), SMap.sortedFrom lo m = true →
    SMap.get d q (SMap.set d k x m) = SMap.get d q m
  | [], _, _ => by
    unfold SMap.set
    split
    · rfl
    · simp only [SMap.get]
      split
      · omega
      · split <;> rfl
  | (a, y) :: m, lo, h => by
    simp only [SMap.sortedFrom, Bool.and_eq_true, decide_eq_true_eq] at h
    unfold SMap.set
    split
    · next e =>
      split
      · simp only [SMap.get]
        split
        · omega
        · split
          · next lt => exact SMap.get_below d m (a + 1) q h.2 (by omega)
          · rfl
      · simp only [SMap.get]
        split
        · omega
        · rfl
    · next ne =>
      split
      · next lt =>
        split
        · rfl
        · simp only [SMap.get]
          split
          · omega
          · split
            · next l2 =>
              split
              · omega
              · split
                · rfl
                · omega
            · rfl
      · simp only [SMap.get]
        split
        · rfl
        · split
          · rfl
          · exact SMap.get_set_other d k q x hne m (a + 1) h.2

theorem SMap.set_sorted (d : α) (k : Nat) (x : α) : ∀ (m : List (Nat × α)) (lo : Nat), lo ≤ k → SMap.sortedFrom lo m = true →
    SMap.sortedFrom lo (SMap.set d k x m) = true
  | [], lo, hk, _ => by
    unfold SMap.set
    split
    · rfl
    · simp [SMap.sortedFrom, hk]
  | (a, y) :: m, lo, hk, h => by
    have h' := h
    simp only [SMap.sortedFrom, Bool.and_eq_true, decide_eq_true_eq] at h
    unfold SMap.set
    split
    · split
      · exact SMap.sortedFrom_mono m (a + 1) lo (by omega) h.2
      · exact h'
    · split
      · next lt =>
        split
        · exact h'
        · simp only [SMap.sortedFrom, Bool.and_eq_true, decide_eq_true_eq]
          exact ⟨hk, by omega, h.2⟩
      · next ne nlt =>
        simp only [SMap.sortedFrom, Bool.and_eq_true, decide_eq_true_eq]
        exact ⟨h.1, SMap.set_sorted d k x m (a + 1) (by omega) h.2⟩

theorem SMap.set_nonDefault (d : α) (k : Nat) (x : α) : ∀ (m : List (Nat × α)), (m.all fun e => e.2 != d) = true →
    ((SMap.set d k x m).all fun e => e.2 != d) = true
  | [], _ => by
    unfold SMap.set
    split
    · rfl
    · next hx => simp [hx]
  | (a, y) :: m, h => by
    have h' := h
    simp only [List.all_cons, Bool.and_eq_true] at h
    unfold SMap.set
    split
    · split
      · exact h.2
      · next hx => simp only [List.all_cons, Bool.and_eq_true]; exact ⟨by simp [hx], h.2⟩
    · split
      · split
        · exact h'
        · next hx => simp only [List.all_cons, Bool.and_eq_true]; exact ⟨by simp [hx], h⟩
      · simp only [List.all_cons, Bool.and_eq_true]
        exact ⟨h.1, SMap.set_nonDefault d k x m h.2⟩

/-- A write keeps the canonical form. -/
theorem SMap.set_wf (d : α) (k : Nat) (x : α) (m : List (Nat × α)) (h : SMap.wf d m = true) : SMap.wf d (SMap.set d k x m) = true := by
  simp only [SMap.wf, Bool.and_eq_true] at h ⊢
  exact ⟨SMap.set_sorted d k x m 0 (Nat.zero_le k) h.1, SMap.set_nonDefault d k x m h.2⟩

/-- Read after write. -/
theorem SMap.get_set (d : α) (k q : Nat) (x : α) (m : List (Nat × α)) (h : SMap.wf d m = true) :
    SMap.get d q (SMap.set d k x m) = if q = k then x else SMap.get d q m := by
  simp only [SMap.wf, Bool.and_eq_true] at h
  split
  · next e => rw [e]; exact SMap.get_set_same d k x m 0 h.1
  · next ne => exact SMap.get_set_other d k q x ne m 0 h.1

end

/-! ### Memory -/

theorem Memory.put_wf (m : Memory) (a : Nat) (x : Byte) (h : Memory.wf m = true) : Memory.wf (m.put a x) = true := SMap.set_wf 0 a x m h

theorem Memory.byte_put (m : Memory) (a q : Nat) (x : Byte) (h : Memory.wf m = true) : (m.put a x).byte q = if q = a then x else m.byte q :=
  SMap.get_set 0 a q x m h

theorem Memory.write_wf : ∀ (l : List Byte) (m : Memory) (a : Nat), Memory.wf m = true → Memory.wf (m.write a l) = true
  | [], _, _, h => h
  | x :: xs, m, a, h => Memory.write_wf xs (m.put a x) (a + 1) (Memory.put_wf m a x h)

/-- A run of bytes written reads back, and no other byte is changed. -/
theorem Memory.byte_write : ∀ (l : List Byte) (m : Memory) (a q : Nat), Memory.wf m = true →
    (m.write a l).byte q = if a ≤ q ∧ q < a + l.length then l.getD (q - a) 0 else m.byte q
  | [], m, a, q, _ => by simp only [Memory.write, List.length_nil]; rw [if_neg (by omega)]
  | x :: xs, m, a, q, h => by
    simp only [Memory.write]
    rw [Memory.byte_write xs (m.put a x) (a + 1) q (Memory.put_wf m a x h), Memory.byte_put m a q x h]
    simp only [List.length_cons]
    by_cases e : q = a
    · rw [if_neg (by omega), if_pos e, if_pos (by omega), e, Nat.sub_self]; rfl
    · by_cases hr : a + 1 ≤ q ∧ q < a + 1 + xs.length
      · rw [if_pos hr, if_pos (by omega), show q - a = (q - (a + 1)) + 1 by omega]; rfl
      · rw [if_neg hr, if_neg e, if_neg (by omega)]

theorem Memory.reset_wf : Memory.wf State.reset.mem = true ∧ Memory.wf State.reset.pool = true := by decide

/-! ### Bytes of numbers -/

@[simp] theorem leBytes_length : ∀ (n x : Nat), (leBytes n x).length = n
  | 0, _ => rfl
  | n + 1, x => by simp [leBytes, leBytes_length n]

theorem ofLe_leBytes : ∀ (n x : Nat), ofLe (leBytes n x) = x % 256 ^ n
  | 0, x => by simp [leBytes, ofLe, Nat.mod_one]
  | n + 1, x => by
    have e := Nat.mod_mul (x := x) (a := 256) (b := 256 ^ n)
    rw [leBytes, ofLe, ofLe_leBytes n, BitVec.toNat_ofNat, show 256 ^ (n + 1) = 256 * 256 ^ n from Nat.pow_succ', e]

/-! ### State operations on memory keep the canonical form -/

/-- Coherent memory, the pool copy, and the scratchpad views of the focused band are in canonical form. -/
def State.Canonical (s : State) : Prop :=
  Memory.wf s.mem = true ∧ Memory.wf s.pool = true ∧ Memory.wf s.b.spm = true ∧ Memory.wf s.b.wide = true

theorem State.putByte_canonical (s : State) (pa : Nat) (x : Byte) (h : s.Canonical) : (s.putByte pa x).Canonical := by
  refine ⟨?_, h.2⟩
  simp only [State.putByte]
  split
  · exact h.1
  · exact Memory.put_wf _ _ _ h.1

theorem State.markDirty_canonical (s : State) (pa : Nat) (h : s.Canonical) : (s.markDirty pa).Canonical := by
  simp only [State.markDirty]
  split <;> exact h

theorem State.memWrite_canonical : ∀ (l : List Byte) (s : State) (pa : Nat), s.Canonical → (s.memWrite pa l).Canonical
  | [], _, _, h => h
  | x :: xs, s, pa, h => State.memWrite_canonical xs _ _ (State.markDirty_canonical _ pa (State.putByte_canonical s pa x h))

theorem State.engPut_canonical (s : State) (w : Writer) (pa : Nat) (x : Byte) (h : s.Canonical) : (s.engPut w pa x).Canonical := by
  simp only [State.engPut]
  split
  · exact h
  · exact ⟨Memory.put_wf _ _ _ h.1, h.2⟩

theorem State.engWrite_canonical : ∀ (l : List Byte) (s : State) (w : Writer) (pa : Nat), s.Canonical → (s.engWrite w pa l).Canonical
  | [], _, _, _, h => h
  | x :: xs, s, w, pa, h => State.engWrite_canonical xs _ _ _ (State.engPut_canonical s w pa x h)

theorem State.widePut_canonical (s : State) (w : Writer) (off : Nat) (x : Byte) (h : s.Canonical) : (s.widePut w off x).Canonical := by
  simp only [State.widePut, State.wideMap]
  split
  · exact h
  · exact ⟨h.1, h.2.1, Memory.put_wf _ _ _ h.2.2.1, Memory.put_wf _ _ _ h.2.2.2⟩

theorem State.wideWrite_canonical : ∀ (l : List Byte) (s : State) (w : Writer) (off : Nat), s.Canonical → (s.wideWrite w off l).Canonical
  | [], _, _, _, h => h
  | x :: xs, s, w, off, h => State.wideWrite_canonical xs _ _ _ (State.widePut_canonical s w off x h)

theorem State.ringPut_canonical : ∀ (l : List Byte) (s : State) (off : Nat), s.Canonical → (s.ringPut off l).Canonical
  | [], _, _, h => h
  | _ :: xs, _, _, h =>
    State.ringPut_canonical xs _ _ ⟨h.1, h.2.1, Memory.put_wf _ _ _ h.2.2.1, Memory.put_wf _ _ _ h.2.2.2⟩

/-- What every agent reads at once keeps the form. -/
theorem State.poolWrite_canonical (s : State) (pa : Nat) (l : List Byte) (h : s.Canonical) : (s.poolWrite pa l).Canonical :=
  ⟨Memory.write_wf l s.mem pa h.1, Memory.write_wf l s.pool pa h.2.1, h.2.2⟩

/-- A trace record writes memory alone, beside the session's counts. -/
theorem State.traceTo_b (s : State) (x : Session) (kind : Nat) (g : Group) (state cycle : Nat) : (s.traceTo x kind g state cycle).b = s.b := by
  unfold State.traceTo
  dsimp only
  generalize leBytes 48 _ = l
  split <;> rfl
/-- The record stands in coherent memory and in the pool, or it is dropped. -/
theorem State.traceTo_mem (s : State) (x : Session) (kind : Nat) (g : Group) (state cycle : Nat) :
    ((s.traceTo x kind g state cycle).mem = s.mem ∧ (s.traceTo x kind g state cycle).pool = s.pool) ∨
      ∃ a l, (s.traceTo x kind g state cycle).mem = s.mem.write a l ∧ (s.traceTo x kind g state cycle).pool = s.pool.write a l := by
  unfold State.traceTo
  dsimp only
  generalize leBytes 48 _ = l
  split
  · exact .inr ⟨_, l, rfl, rfl⟩
  · exact .inl ⟨rfl, rfl⟩
theorem State.traceTo_canonical (s : State) (x : Session) (kind : Nat) (g : Group) (state cycle : Nat) (h : s.Canonical) :
    (s.traceTo x kind g state cycle).Canonical := by
  unfold State.Canonical at h ⊢
  rw [State.traceTo_b]
  rcases State.traceTo_mem s x kind g state cycle with ⟨e, f⟩ | ⟨a, l, e, f⟩
  · rw [e, f]; exact h
  · rw [e, f]; exact ⟨Memory.write_wf l s.mem a h.1, Memory.write_wf l s.pool a h.2.1, h.2.2⟩

/-! ### The wide port with an empty write queue (R238) -/

theorem State.wideByteAt_drained (s : State) (t off : Nat) (h : s.b.wq = []) : s.wideByteAt t off = s.b.wide.byte off := by
  simp [State.wideByteAt, h, Nat.mod_one]

theorem State.wideReadAt_drained : ∀ (n : Nat) (s : State) (t off : Nat), s.b.wq = [] → s.wideReadAt t off n = s.b.wide.read off n
  | 0, _, _, _, _ => rfl
  | n + 1, s, t, off, h => by
    simp only [State.wideReadAt, Memory.read, State.wideByteAt_drained s t off h, State.wideReadAt_drained n s t (off + 1) h]

theorem State.wideRead_drained (s : State) (off n : Nat) (h : s.b.wq = []) : s.wideRead off n = s.b.wide.read off n :=
  State.wideReadAt_drained n s 0 off h

end Sys2Proof.Machine
end

