-- ==== Sys2Proof/Laws/State.lean ====
section
/-! SUPPORT. What each helper that updates the state does to each field, by `rfl`: later proofs never unfold a record update. -/

namespace Sys2Proof.Machine.State

/-! ### `modG` -/

@[simp] theorem modG_script (s : State) (f : Group → Group) : (s.modG f).script = s.script := rfl
@[simp] theorem modG_draw (s : State) (f : Group → Group) : (s.modG f).draw = s.draw := rfl
@[simp] theorem modG_cycles (s : State) (f : Group → Group) : (s.modG f).cycles = s.cycles := rfl
@[simp] theorem modG_g (s : State) (f : Group → Group) : (s.modG f).g = f s.g := rfl
@[simp] theorem modG_b (s : State) (f : Group → Group) : (s.modG f).b = s.b := rfl
@[simp] theorem modG_c (s : State) (f : Group → Group) : (s.modG f).c = s.c := rfl
@[simp] theorem modG_j (s : State) (f : Group → Group) : (s.modG f).j = s.j := rfl
@[simp] theorem modG_few (s : State) (f : Group → Group) : (s.modG f).few = s.few := rfl
@[simp] theorem modG_groups (s : State) (f : Group → Group) : (s.modG f).groups = s.groups := rfl
@[simp] theorem modG_bands (s : State) (f : Group → Group) : (s.modG f).bands = s.bands := rfl
@[simp] theorem modG_cores (s : State) (f : Group → Group) : (s.modG f).cores = s.cores := rfl
@[simp] theorem modG_journeys (s : State) (f : Group → Group) : (s.modG f).journeys = s.journeys := rfl
@[simp] theorem modG_rooms (s : State) (f : Group → Group) : (s.modG f).rooms = s.rooms := rfl
@[simp] theorem modG_hub (s : State) (f : Group → Group) : (s.modG f).hub = s.hub := rfl
@[simp] theorem modG_mem (s : State) (f : Group → Group) : (s.modG f).mem = s.mem := rfl
@[simp] theorem modG_pool (s : State) (f : Group → Group) : (s.modG f).pool = s.pool := rfl
@[simp] theorem modG_poison (s : State) (f : Group → Group) : (s.modG f).poison = s.poison := rfl
@[simp] theorem modG_reqs (s : State) (f : Group → Group) : (s.modG f).reqs = s.reqs := rfl
@[simp] theorem modG_nextReq (s : State) (f : Group → Group) : (s.modG f).nextReq = s.nextReq := rfl

/-! ### `modB` -/

@[simp] theorem modB_script (s : State) (f : Band → Band) : (s.modB f).script = s.script := rfl
@[simp] theorem modB_draw (s : State) (f : Band → Band) : (s.modB f).draw = s.draw := rfl
@[simp] theorem modB_cycles (s : State) (f : Band → Band) : (s.modB f).cycles = s.cycles := rfl
@[simp] theorem modB_g (s : State) (f : Band → Band) : (s.modB f).g = s.g := rfl
@[simp] theorem modB_b (s : State) (f : Band → Band) : (s.modB f).b = f s.b := rfl
@[simp] theorem modB_c (s : State) (f : Band → Band) : (s.modB f).c = s.c := rfl
@[simp] theorem modB_j (s : State) (f : Band → Band) : (s.modB f).j = s.j := rfl
@[simp] theorem modB_few (s : State) (f : Band → Band) : (s.modB f).few = s.few := rfl
@[simp] theorem modB_groups (s : State) (f : Band → Band) : (s.modB f).groups = s.groups := rfl
@[simp] theorem modB_bands (s : State) (f : Band → Band) : (s.modB f).bands = s.bands := rfl
@[simp] theorem modB_cores (s : State) (f : Band → Band) : (s.modB f).cores = s.cores := rfl
@[simp] theorem modB_journeys (s : State) (f : Band → Band) : (s.modB f).journeys = s.journeys := rfl
@[simp] theorem modB_rooms (s : State) (f : Band → Band) : (s.modB f).rooms = s.rooms := rfl
@[simp] theorem modB_hub (s : State) (f : Band → Band) : (s.modB f).hub = s.hub := rfl
@[simp] theorem modB_mem (s : State) (f : Band → Band) : (s.modB f).mem = s.mem := rfl
@[simp] theorem modB_pool (s : State) (f : Band → Band) : (s.modB f).pool = s.pool := rfl
@[simp] theorem modB_poison (s : State) (f : Band → Band) : (s.modB f).poison = s.poison := rfl
@[simp] theorem modB_reqs (s : State) (f : Band → Band) : (s.modB f).reqs = s.reqs := rfl
@[simp] theorem modB_nextReq (s : State) (f : Band → Band) : (s.modB f).nextReq = s.nextReq := rfl

/-! ### `modC` -/

@[simp] theorem modC_script (s : State) (f : Core → Core) : (s.modC f).script = s.script := rfl
@[simp] theorem modC_draw (s : State) (f : Core → Core) : (s.modC f).draw = s.draw := rfl
@[simp] theorem modC_cycles (s : State) (f : Core → Core) : (s.modC f).cycles = s.cycles := rfl
@[simp] theorem modC_g (s : State) (f : Core → Core) : (s.modC f).g = s.g := rfl
@[simp] theorem modC_b (s : State) (f : Core → Core) : (s.modC f).b = s.b := rfl
@[simp] theorem modC_c (s : State) (f : Core → Core) : (s.modC f).c = f s.c := rfl
@[simp] theorem modC_j (s : State) (f : Core → Core) : (s.modC f).j = s.j := rfl
@[simp] theorem modC_few (s : State) (f : Core → Core) : (s.modC f).few = s.few := rfl
@[simp] theorem modC_groups (s : State) (f : Core → Core) : (s.modC f).groups = s.groups := rfl
@[simp] theorem modC_bands (s : State) (f : Core → Core) : (s.modC f).bands = s.bands := rfl
@[simp] theorem modC_cores (s : State) (f : Core → Core) : (s.modC f).cores = s.cores := rfl
@[simp] theorem modC_journeys (s : State) (f : Core → Core) : (s.modC f).journeys = s.journeys := rfl
@[simp] theorem modC_rooms (s : State) (f : Core → Core) : (s.modC f).rooms = s.rooms := rfl
@[simp] theorem modC_hub (s : State) (f : Core → Core) : (s.modC f).hub = s.hub := rfl
@[simp] theorem modC_mem (s : State) (f : Core → Core) : (s.modC f).mem = s.mem := rfl
@[simp] theorem modC_pool (s : State) (f : Core → Core) : (s.modC f).pool = s.pool := rfl
@[simp] theorem modC_poison (s : State) (f : Core → Core) : (s.modC f).poison = s.poison := rfl
@[simp] theorem modC_reqs (s : State) (f : Core → Core) : (s.modC f).reqs = s.reqs := rfl
@[simp] theorem modC_nextReq (s : State) (f : Core → Core) : (s.modC f).nextReq = s.nextReq := rfl

/-! ### `modJ` -/

@[simp] theorem modJ_script (s : State) (f : Journey → Journey) : (s.modJ f).script = s.script := rfl
@[simp] theorem modJ_draw (s : State) (f : Journey → Journey) : (s.modJ f).draw = s.draw := rfl
@[simp] theorem modJ_cycles (s : State) (f : Journey → Journey) : (s.modJ f).cycles = s.cycles := rfl
@[simp] theorem modJ_g (s : State) (f : Journey → Journey) : (s.modJ f).g = s.g := rfl
@[simp] theorem modJ_b (s : State) (f : Journey → Journey) : (s.modJ f).b = s.b := rfl
@[simp] theorem modJ_c (s : State) (f : Journey → Journey) : (s.modJ f).c = s.c := rfl
@[simp] theorem modJ_j (s : State) (f : Journey → Journey) : (s.modJ f).j = f s.j := rfl
@[simp] theorem modJ_few (s : State) (f : Journey → Journey) : (s.modJ f).few = s.few := rfl
@[simp] theorem modJ_groups (s : State) (f : Journey → Journey) : (s.modJ f).groups = s.groups := rfl
@[simp] theorem modJ_bands (s : State) (f : Journey → Journey) : (s.modJ f).bands = s.bands := rfl
@[simp] theorem modJ_cores (s : State) (f : Journey → Journey) : (s.modJ f).cores = s.cores := rfl
@[simp] theorem modJ_journeys (s : State) (f : Journey → Journey) : (s.modJ f).journeys = s.journeys := rfl
@[simp] theorem modJ_rooms (s : State) (f : Journey → Journey) : (s.modJ f).rooms = s.rooms := rfl
@[simp] theorem modJ_hub (s : State) (f : Journey → Journey) : (s.modJ f).hub = s.hub := rfl
@[simp] theorem modJ_mem (s : State) (f : Journey → Journey) : (s.modJ f).mem = s.mem := rfl
@[simp] theorem modJ_pool (s : State) (f : Journey → Journey) : (s.modJ f).pool = s.pool := rfl
@[simp] theorem modJ_poison (s : State) (f : Journey → Journey) : (s.modJ f).poison = s.poison := rfl
@[simp] theorem modJ_reqs (s : State) (f : Journey → Journey) : (s.modJ f).reqs = s.reqs := rfl
@[simp] theorem modJ_nextReq (s : State) (f : Journey → Journey) : (s.modJ f).nextReq = s.nextReq := rfl

/-! ### `modHub` -/

@[simp] theorem modHub_script (s : State) (f : Hub → Hub) : (s.modHub f).script = s.script := rfl
@[simp] theorem modHub_draw (s : State) (f : Hub → Hub) : (s.modHub f).draw = s.draw := rfl
@[simp] theorem modHub_cycles (s : State) (f : Hub → Hub) : (s.modHub f).cycles = s.cycles := rfl
@[simp] theorem modHub_g (s : State) (f : Hub → Hub) : (s.modHub f).g = s.g := rfl
@[simp] theorem modHub_b (s : State) (f : Hub → Hub) : (s.modHub f).b = s.b := rfl
@[simp] theorem modHub_c (s : State) (f : Hub → Hub) : (s.modHub f).c = s.c := rfl
@[simp] theorem modHub_j (s : State) (f : Hub → Hub) : (s.modHub f).j = s.j := rfl
@[simp] theorem modHub_few (s : State) (f : Hub → Hub) : (s.modHub f).few = s.few := rfl
@[simp] theorem modHub_groups (s : State) (f : Hub → Hub) : (s.modHub f).groups = s.groups := rfl
@[simp] theorem modHub_bands (s : State) (f : Hub → Hub) : (s.modHub f).bands = s.bands := rfl
@[simp] theorem modHub_cores (s : State) (f : Hub → Hub) : (s.modHub f).cores = s.cores := rfl
@[simp] theorem modHub_journeys (s : State) (f : Hub → Hub) : (s.modHub f).journeys = s.journeys := rfl
@[simp] theorem modHub_rooms (s : State) (f : Hub → Hub) : (s.modHub f).rooms = s.rooms := rfl
@[simp] theorem modHub_hub (s : State) (f : Hub → Hub) : (s.modHub f).hub = f s.hub := rfl
@[simp] theorem modHub_mem (s : State) (f : Hub → Hub) : (s.modHub f).mem = s.mem := rfl
@[simp] theorem modHub_pool (s : State) (f : Hub → Hub) : (s.modHub f).pool = s.pool := rfl
@[simp] theorem modHub_poison (s : State) (f : Hub → Hub) : (s.modHub f).poison = s.poison := rfl
@[simp] theorem modHub_reqs (s : State) (f : Hub → Hub) : (s.modHub f).reqs = s.reqs := rfl
@[simp] theorem modHub_nextReq (s : State) (f : Hub → Hub) : (s.modHub f).nextReq = s.nextReq := rfl

/-! ### `putGroup` -/

@[simp] theorem putGroup_script (s : State) (g : Group) : (s.putGroup g).script = s.script := rfl
@[simp] theorem putGroup_draw (s : State) (g : Group) : (s.putGroup g).draw = s.draw := rfl
@[simp] theorem putGroup_cycles (s : State) (g : Group) : (s.putGroup g).cycles = s.cycles := rfl
@[simp] theorem putGroup_g (s : State) (g : Group) : (s.putGroup g).g = s.g := rfl
@[simp] theorem putGroup_b (s : State) (g : Group) : (s.putGroup g).b = s.b := rfl
@[simp] theorem putGroup_c (s : State) (g : Group) : (s.putGroup g).c = s.c := rfl
@[simp] theorem putGroup_j (s : State) (g : Group) : (s.putGroup g).j = s.j := rfl
@[simp] theorem putGroup_few (s : State) (g : Group) : (s.putGroup g).few = s.few := rfl
@[simp] theorem putGroup_bands (s : State) (g : Group) : (s.putGroup g).bands = s.bands := rfl
@[simp] theorem putGroup_cores (s : State) (g : Group) : (s.putGroup g).cores = s.cores := rfl
@[simp] theorem putGroup_journeys (s : State) (g : Group) : (s.putGroup g).journeys = s.journeys := rfl
@[simp] theorem putGroup_rooms (s : State) (g : Group) : (s.putGroup g).rooms = s.rooms := rfl
@[simp] theorem putGroup_hub (s : State) (g : Group) : (s.putGroup g).hub = s.hub := rfl
@[simp] theorem putGroup_mem (s : State) (g : Group) : (s.putGroup g).mem = s.mem := rfl
@[simp] theorem putGroup_pool (s : State) (g : Group) : (s.putGroup g).pool = s.pool := rfl
@[simp] theorem putGroup_poison (s : State) (g : Group) : (s.putGroup g).poison = s.poison := rfl
@[simp] theorem putGroup_reqs (s : State) (g : Group) : (s.putGroup g).reqs = s.reqs := rfl
@[simp] theorem putGroup_nextReq (s : State) (g : Group) : (s.putGroup g).nextReq = s.nextReq := rfl

/-! ### `putBand` -/

@[simp] theorem putBand_script (s : State) (b : Band) : (s.putBand b).script = s.script := rfl
@[simp] theorem putBand_draw (s : State) (b : Band) : (s.putBand b).draw = s.draw := rfl
@[simp] theorem putBand_cycles (s : State) (b : Band) : (s.putBand b).cycles = s.cycles := rfl
@[simp] theorem putBand_g (s : State) (b : Band) : (s.putBand b).g = s.g := rfl
@[simp] theorem putBand_b (s : State) (b : Band) : (s.putBand b).b = s.b := rfl
@[simp] theorem putBand_c (s : State) (b : Band) : (s.putBand b).c = s.c := rfl
@[simp] theorem putBand_j (s : State) (b : Band) : (s.putBand b).j = s.j := rfl
@[simp] theorem putBand_few (s : State) (b : Band) : (s.putBand b).few = s.few := rfl
@[simp] theorem putBand_groups (s : State) (b : Band) : (s.putBand b).groups = s.groups := rfl
@[simp] theorem putBand_bands (s : State) (b : Band) : (s.putBand b).bands = upsert (Band.at b.core b.slot) b s.bands := rfl
@[simp] theorem putBand_cores (s : State) (b : Band) : (s.putBand b).cores = s.cores := rfl
@[simp] theorem putBand_journeys (s : State) (b : Band) : (s.putBand b).journeys = s.journeys := rfl
@[simp] theorem putBand_rooms (s : State) (b : Band) : (s.putBand b).rooms = s.rooms := rfl
@[simp] theorem putBand_hub (s : State) (b : Band) : (s.putBand b).hub = s.hub := rfl
@[simp] theorem putBand_mem (s : State) (b : Band) : (s.putBand b).mem = s.mem := rfl
@[simp] theorem putBand_pool (s : State) (b : Band) : (s.putBand b).pool = s.pool := rfl
@[simp] theorem putBand_poison (s : State) (b : Band) : (s.putBand b).poison = s.poison := rfl
@[simp] theorem putBand_reqs (s : State) (b : Band) : (s.putBand b).reqs = s.reqs := rfl
@[simp] theorem putBand_nextReq (s : State) (b : Band) : (s.putBand b).nextReq = s.nextReq := rfl

/-! ### `dropBand` -/

@[simp] theorem dropBand_script (s : State) (core slot : Nat) : (s.dropBand core slot).script = s.script := rfl
@[simp] theorem dropBand_draw (s : State) (core slot : Nat) : (s.dropBand core slot).draw = s.draw := rfl
@[simp] theorem dropBand_cycles (s : State) (core slot : Nat) : (s.dropBand core slot).cycles = s.cycles := rfl
@[simp] theorem dropBand_g (s : State) (core slot : Nat) : (s.dropBand core slot).g = s.g := rfl
@[simp] theorem dropBand_b (s : State) (core slot : Nat) : (s.dropBand core slot).b = s.b := rfl
@[simp] theorem dropBand_c (s : State) (core slot : Nat) : (s.dropBand core slot).c = s.c := rfl
@[simp] theorem dropBand_j (s : State) (core slot : Nat) : (s.dropBand core slot).j = s.j := rfl
@[simp] theorem dropBand_few (s : State) (core slot : Nat) : (s.dropBand core slot).few = s.few := rfl
@[simp] theorem dropBand_groups (s : State) (core slot : Nat) : (s.dropBand core slot).groups = s.groups := rfl
@[simp] theorem dropBand_bands (s : State) (core slot : Nat) : (s.dropBand core slot).bands = dropFirst (Band.at core slot) s.bands := rfl
@[simp] theorem dropBand_cores (s : State) (core slot : Nat) : (s.dropBand core slot).cores = s.cores := rfl
@[simp] theorem dropBand_journeys (s : State) (core slot : Nat) : (s.dropBand core slot).journeys = s.journeys := rfl
@[simp] theorem dropBand_rooms (s : State) (core slot : Nat) : (s.dropBand core slot).rooms = s.rooms := rfl
@[simp] theorem dropBand_hub (s : State) (core slot : Nat) : (s.dropBand core slot).hub = s.hub := rfl
@[simp] theorem dropBand_mem (s : State) (core slot : Nat) : (s.dropBand core slot).mem = s.mem := rfl
@[simp] theorem dropBand_pool (s : State) (core slot : Nat) : (s.dropBand core slot).pool = s.pool := rfl
@[simp] theorem dropBand_poison (s : State) (core slot : Nat) : (s.dropBand core slot).poison = s.poison := rfl
@[simp] theorem dropBand_reqs (s : State) (core slot : Nat) : (s.dropBand core slot).reqs = s.reqs := rfl
@[simp] theorem dropBand_nextReq (s : State) (core slot : Nat) : (s.dropBand core slot).nextReq = s.nextReq := rfl

/-! ### `putCore` -/

@[simp] theorem putCore_script (s : State) (c : Core) : (s.putCore c).script = s.script := rfl
@[simp] theorem putCore_draw (s : State) (c : Core) : (s.putCore c).draw = s.draw := rfl
@[simp] theorem putCore_cycles (s : State) (c : Core) : (s.putCore c).cycles = s.cycles := rfl
@[simp] theorem putCore_g (s : State) (c : Core) : (s.putCore c).g = s.g := rfl
@[simp] theorem putCore_b (s : State) (c : Core) : (s.putCore c).b = s.b := rfl
@[simp] theorem putCore_c (s : State) (c : Core) : (s.putCore c).c = s.c := rfl
@[simp] theorem putCore_j (s : State) (c : Core) : (s.putCore c).j = s.j := rfl
@[simp] theorem putCore_few (s : State) (c : Core) : (s.putCore c).few = s.few := rfl
@[simp] theorem putCore_groups (s : State) (c : Core) : (s.putCore c).groups = s.groups := rfl
@[simp] theorem putCore_bands (s : State) (c : Core) : (s.putCore c).bands = s.bands := rfl
@[simp] theorem putCore_cores (s : State) (c : Core) : (s.putCore c).cores = upsert (fun x => x.num == c.num) c s.cores := rfl
@[simp] theorem putCore_journeys (s : State) (c : Core) : (s.putCore c).journeys = s.journeys := rfl
@[simp] theorem putCore_rooms (s : State) (c : Core) : (s.putCore c).rooms = s.rooms := rfl
@[simp] theorem putCore_hub (s : State) (c : Core) : (s.putCore c).hub = s.hub := rfl
@[simp] theorem putCore_mem (s : State) (c : Core) : (s.putCore c).mem = s.mem := rfl
@[simp] theorem putCore_pool (s : State) (c : Core) : (s.putCore c).pool = s.pool := rfl
@[simp] theorem putCore_poison (s : State) (c : Core) : (s.putCore c).poison = s.poison := rfl
@[simp] theorem putCore_reqs (s : State) (c : Core) : (s.putCore c).reqs = s.reqs := rfl
@[simp] theorem putCore_nextReq (s : State) (c : Core) : (s.putCore c).nextReq = s.nextReq := rfl

/-! ### `putJourney` -/

@[simp] theorem putJourney_script (s : State) (j : Journey) : (s.putJourney j).script = s.script := rfl
@[simp] theorem putJourney_draw (s : State) (j : Journey) : (s.putJourney j).draw = s.draw := rfl
@[simp] theorem putJourney_cycles (s : State) (j : Journey) : (s.putJourney j).cycles = s.cycles := rfl
@[simp] theorem putJourney_g (s : State) (j : Journey) : (s.putJourney j).g = s.g := rfl
@[simp] theorem putJourney_b (s : State) (j : Journey) : (s.putJourney j).b = s.b := rfl
@[simp] theorem putJourney_c (s : State) (j : Journey) : (s.putJourney j).c = s.c := rfl
@[simp] theorem putJourney_j (s : State) (j : Journey) : (s.putJourney j).j = s.j := rfl
@[simp] theorem putJourney_few (s : State) (j : Journey) : (s.putJourney j).few = s.few := rfl
@[simp] theorem putJourney_groups (s : State) (j : Journey) : (s.putJourney j).groups = s.groups := rfl
@[simp] theorem putJourney_bands (s : State) (j : Journey) : (s.putJourney j).bands = s.bands := rfl
@[simp] theorem putJourney_cores (s : State) (j : Journey) : (s.putJourney j).cores = s.cores := rfl
@[simp] theorem putJourney_journeys (s : State) (j : Journey) : (s.putJourney j).journeys = upsert (fun x => x.num == j.num) j s.journeys := rfl
@[simp] theorem putJourney_rooms (s : State) (j : Journey) : (s.putJourney j).rooms = s.rooms := rfl
@[simp] theorem putJourney_hub (s : State) (j : Journey) : (s.putJourney j).hub = s.hub := rfl
@[simp] theorem putJourney_mem (s : State) (j : Journey) : (s.putJourney j).mem = s.mem := rfl
@[simp] theorem putJourney_pool (s : State) (j : Journey) : (s.putJourney j).pool = s.pool := rfl
@[simp] theorem putJourney_poison (s : State) (j : Journey) : (s.putJourney j).poison = s.poison := rfl
@[simp] theorem putJourney_reqs (s : State) (j : Journey) : (s.putJourney j).reqs = s.reqs := rfl
@[simp] theorem putJourney_nextReq (s : State) (j : Journey) : (s.putJourney j).nextReq = s.nextReq := rfl

/-! ### `putRoom` -/

@[simp] theorem putRoom_script (s : State) (r : Room) : (s.putRoom r).script = s.script := rfl
@[simp] theorem putRoom_draw (s : State) (r : Room) : (s.putRoom r).draw = s.draw := rfl
@[simp] theorem putRoom_cycles (s : State) (r : Room) : (s.putRoom r).cycles = s.cycles := rfl
@[simp] theorem putRoom_g (s : State) (r : Room) : (s.putRoom r).g = s.g := rfl
@[simp] theorem putRoom_b (s : State) (r : Room) : (s.putRoom r).b = s.b := rfl
@[simp] theorem putRoom_c (s : State) (r : Room) : (s.putRoom r).c = s.c := rfl
@[simp] theorem putRoom_j (s : State) (r : Room) : (s.putRoom r).j = s.j := rfl
@[simp] theorem putRoom_few (s : State) (r : Room) : (s.putRoom r).few = s.few := rfl
@[simp] theorem putRoom_groups (s : State) (r : Room) : (s.putRoom r).groups = s.groups := rfl
@[simp] theorem putRoom_bands (s : State) (r : Room) : (s.putRoom r).bands = s.bands := rfl
@[simp] theorem putRoom_cores (s : State) (r : Room) : (s.putRoom r).cores = s.cores := rfl
@[simp] theorem putRoom_journeys (s : State) (r : Room) : (s.putRoom r).journeys = s.journeys := rfl
@[simp] theorem putRoom_rooms (s : State) (r : Room) : (s.putRoom r).rooms = upsert (fun x => x.num == r.num) r s.rooms := rfl
@[simp] theorem putRoom_hub (s : State) (r : Room) : (s.putRoom r).hub = s.hub := rfl
@[simp] theorem putRoom_mem (s : State) (r : Room) : (s.putRoom r).mem = s.mem := rfl
@[simp] theorem putRoom_pool (s : State) (r : Room) : (s.putRoom r).pool = s.pool := rfl
@[simp] theorem putRoom_poison (s : State) (r : Room) : (s.putRoom r).poison = s.poison := rfl
@[simp] theorem putRoom_reqs (s : State) (r : Room) : (s.putRoom r).reqs = s.reqs := rfl
@[simp] theorem putRoom_nextReq (s : State) (r : Room) : (s.putRoom r).nextReq = s.nextReq := rfl

/-! ### `focus` -/

@[simp] theorem focus_script (s : State) (g : Group) : (s.focus g).script = s.script := rfl
@[simp] theorem focus_draw (s : State) (g : Group) : (s.focus g).draw = s.draw := rfl
@[simp] theorem focus_cycles (s : State) (g : Group) : (s.focus g).cycles = s.cycles := rfl
@[simp] theorem focus_g (s : State) (g : Group) : (s.focus g).g = g := rfl
@[simp] theorem focus_few (s : State) (g : Group) : (s.focus g).few = s.few := rfl
@[simp] theorem focus_groups (s : State) (g : Group) : (s.focus g).groups = s.groups := rfl
@[simp] theorem focus_bands (s : State) (g : Group) : (s.focus g).bands = s.bands := rfl
@[simp] theorem focus_cores (s : State) (g : Group) : (s.focus g).cores = s.cores := rfl
@[simp] theorem focus_journeys (s : State) (g : Group) : (s.focus g).journeys = s.journeys := rfl
@[simp] theorem focus_rooms (s : State) (g : Group) : (s.focus g).rooms = s.rooms := rfl
@[simp] theorem focus_hub (s : State) (g : Group) : (s.focus g).hub = s.hub := rfl
@[simp] theorem focus_mem (s : State) (g : Group) : (s.focus g).mem = s.mem := rfl
@[simp] theorem focus_pool (s : State) (g : Group) : (s.focus g).pool = s.pool := rfl
@[simp] theorem focus_poison (s : State) (g : Group) : (s.focus g).poison = s.poison := rfl
@[simp] theorem focus_reqs (s : State) (g : Group) : (s.focus g).reqs = s.reqs := rfl
@[simp] theorem focus_nextReq (s : State) (g : Group) : (s.focus g).nextReq = s.nextReq := rfl

/-! ### `focusBand` -/

@[simp] theorem focusBand_script (s : State) (core band slot : Nat) : (s.focusBand core band slot).script = s.script := rfl
@[simp] theorem focusBand_draw (s : State) (core band slot : Nat) : (s.focusBand core band slot).draw = s.draw := rfl
@[simp] theorem focusBand_cycles (s : State) (core band slot : Nat) : (s.focusBand core band slot).cycles = s.cycles := rfl
@[simp] theorem focusBand_few (s : State) (core band slot : Nat) : (s.focusBand core band slot).few = s.few := rfl
@[simp] theorem focusBand_groups (s : State) (core band slot : Nat) : (s.focusBand core band slot).groups = s.groups := rfl
@[simp] theorem focusBand_bands (s : State) (core band slot : Nat) : (s.focusBand core band slot).bands = s.bands := rfl
@[simp] theorem focusBand_cores (s : State) (core band slot : Nat) : (s.focusBand core band slot).cores = s.cores := rfl
@[simp] theorem focusBand_journeys (s : State) (core band slot : Nat) : (s.focusBand core band slot).journeys = s.journeys := rfl
@[simp] theorem focusBand_rooms (s : State) (core band slot : Nat) : (s.focusBand core band slot).rooms = s.rooms := rfl
@[simp] theorem focusBand_hub (s : State) (core band slot : Nat) : (s.focusBand core band slot).hub = s.hub := rfl
@[simp] theorem focusBand_mem (s : State) (core band slot : Nat) : (s.focusBand core band slot).mem = s.mem := rfl
@[simp] theorem focusBand_pool (s : State) (core band slot : Nat) : (s.focusBand core band slot).pool = s.pool := rfl
@[simp] theorem focusBand_poison (s : State) (core band slot : Nat) : (s.focusBand core band slot).poison = s.poison := rfl
@[simp] theorem focusBand_reqs (s : State) (core band slot : Nat) : (s.focusBand core band slot).reqs = s.reqs := rfl
@[simp] theorem focusBand_nextReq (s : State) (core band slot : Nat) : (s.focusBand core band slot).nextReq = s.nextReq := rfl

/-! ### `loseReply` -/

@[simp] theorem loseReply_script (s : State) (r : Nat) (p : Req → Bool) : (s.loseReply r p).script = s.script := rfl
@[simp] theorem loseReply_draw (s : State) (r : Nat) (p : Req → Bool) : (s.loseReply r p).draw = s.draw := rfl
@[simp] theorem loseReply_cycles (s : State) (r : Nat) (p : Req → Bool) : (s.loseReply r p).cycles = s.cycles := rfl
@[simp] theorem loseReply_g (s : State) (r : Nat) (p : Req → Bool) : (s.loseReply r p).g = s.g := rfl
@[simp] theorem loseReply_b (s : State) (r : Nat) (p : Req → Bool) : (s.loseReply r p).b = s.b := rfl
@[simp] theorem loseReply_c (s : State) (r : Nat) (p : Req → Bool) : (s.loseReply r p).c = s.c := rfl
@[simp] theorem loseReply_j (s : State) (r : Nat) (p : Req → Bool) : (s.loseReply r p).j = s.j := rfl
@[simp] theorem loseReply_few (s : State) (r : Nat) (p : Req → Bool) : (s.loseReply r p).few = s.few := rfl
@[simp] theorem loseReply_groups (s : State) (r : Nat) (p : Req → Bool) : (s.loseReply r p).groups = s.groups := rfl
@[simp] theorem loseReply_bands (s : State) (r : Nat) (p : Req → Bool) : (s.loseReply r p).bands = s.bands := rfl
@[simp] theorem loseReply_cores (s : State) (r : Nat) (p : Req → Bool) : (s.loseReply r p).cores = s.cores := rfl
@[simp] theorem loseReply_journeys (s : State) (r : Nat) (p : Req → Bool) : (s.loseReply r p).journeys = s.journeys := rfl
@[simp] theorem loseReply_rooms (s : State) (r : Nat) (p : Req → Bool) : (s.loseReply r p).rooms = s.rooms := rfl
@[simp] theorem loseReply_hub (s : State) (r : Nat) (p : Req → Bool) : (s.loseReply r p).hub = s.hub := rfl
@[simp] theorem loseReply_mem (s : State) (r : Nat) (p : Req → Bool) : (s.loseReply r p).mem = s.mem := rfl
@[simp] theorem loseReply_pool (s : State) (r : Nat) (p : Req → Bool) : (s.loseReply r p).pool = s.pool := rfl
@[simp] theorem loseReply_poison (s : State) (r : Nat) (p : Req → Bool) : (s.loseReply r p).poison = s.poison := rfl
@[simp] theorem loseReply_nextReq (s : State) (r : Nat) (p : Req → Bool) : (s.loseReply r p).nextReq = s.nextReq := rfl

/-! ### `setK` -/

@[simp] theorem setK_script (s : State) (r : KReg) (x : Word32) : (s.setK r x).script = s.script := rfl
@[simp] theorem setK_draw (s : State) (r : KReg) (x : Word32) : (s.setK r x).draw = s.draw := rfl
@[simp] theorem setK_cycles (s : State) (r : KReg) (x : Word32) : (s.setK r x).cycles = s.cycles := rfl
@[simp] theorem setK_b (s : State) (r : KReg) (x : Word32) : (s.setK r x).b = s.b := rfl
@[simp] theorem setK_c (s : State) (r : KReg) (x : Word32) : (s.setK r x).c = s.c := rfl
@[simp] theorem setK_j (s : State) (r : KReg) (x : Word32) : (s.setK r x).j = s.j := rfl
@[simp] theorem setK_few (s : State) (r : KReg) (x : Word32) : (s.setK r x).few = s.few := rfl
@[simp] theorem setK_groups (s : State) (r : KReg) (x : Word32) : (s.setK r x).groups = s.groups := rfl
@[simp] theorem setK_bands (s : State) (r : KReg) (x : Word32) : (s.setK r x).bands = s.bands := rfl
@[simp] theorem setK_cores (s : State) (r : KReg) (x : Word32) : (s.setK r x).cores = s.cores := rfl
@[simp] theorem setK_journeys (s : State) (r : KReg) (x : Word32) : (s.setK r x).journeys = s.journeys := rfl
@[simp] theorem setK_rooms (s : State) (r : KReg) (x : Word32) : (s.setK r x).rooms = s.rooms := rfl
@[simp] theorem setK_hub (s : State) (r : KReg) (x : Word32) : (s.setK r x).hub = s.hub := rfl
@[simp] theorem setK_mem (s : State) (r : KReg) (x : Word32) : (s.setK r x).mem = s.mem := rfl
@[simp] theorem setK_pool (s : State) (r : KReg) (x : Word32) : (s.setK r x).pool = s.pool := rfl
@[simp] theorem setK_poison (s : State) (r : KReg) (x : Word32) : (s.setK r x).poison = s.poison := rfl
@[simp] theorem setK_reqs (s : State) (r : KReg) (x : Word32) : (s.setK r x).reqs = s.reqs := rfl
@[simp] theorem setK_nextReq (s : State) (r : KReg) (x : Word32) : (s.setK r x).nextReq = s.nextReq := rfl

/-! ### `setF` -/

@[simp] theorem setF_script (s : State) (f : FReg) (x : Future) : (s.setF f x).script = s.script := rfl
@[simp] theorem setF_draw (s : State) (f : FReg) (x : Future) : (s.setF f x).draw = s.draw := rfl
@[simp] theorem setF_cycles (s : State) (f : FReg) (x : Future) : (s.setF f x).cycles = s.cycles := rfl
@[simp] theorem setF_b (s : State) (f : FReg) (x : Future) : (s.setF f x).b = s.b := rfl
@[simp] theorem setF_c (s : State) (f : FReg) (x : Future) : (s.setF f x).c = s.c := rfl
@[simp] theorem setF_j (s : State) (f : FReg) (x : Future) : (s.setF f x).j = s.j := rfl
@[simp] theorem setF_few (s : State) (f : FReg) (x : Future) : (s.setF f x).few = s.few := rfl
@[simp] theorem setF_groups (s : State) (f : FReg) (x : Future) : (s.setF f x).groups = s.groups := rfl
@[simp] theorem setF_bands (s : State) (f : FReg) (x : Future) : (s.setF f x).bands = s.bands := rfl
@[simp] theorem setF_cores (s : State) (f : FReg) (x : Future) : (s.setF f x).cores = s.cores := rfl
@[simp] theorem setF_journeys (s : State) (f : FReg) (x : Future) : (s.setF f x).journeys = s.journeys := rfl
@[simp] theorem setF_rooms (s : State) (f : FReg) (x : Future) : (s.setF f x).rooms = s.rooms := rfl
@[simp] theorem setF_hub (s : State) (f : FReg) (x : Future) : (s.setF f x).hub = s.hub := rfl
@[simp] theorem setF_mem (s : State) (f : FReg) (x : Future) : (s.setF f x).mem = s.mem := rfl
@[simp] theorem setF_pool (s : State) (f : FReg) (x : Future) : (s.setF f x).pool = s.pool := rfl
@[simp] theorem setF_poison (s : State) (f : FReg) (x : Future) : (s.setF f x).poison = s.poison := rfl
@[simp] theorem setF_reqs (s : State) (f : FReg) (x : Future) : (s.setF f x).reqs = s.reqs := rfl
@[simp] theorem setF_nextReq (s : State) (f : FReg) (x : Future) : (s.setF f x).nextReq = s.nextReq := rfl

/-! ### `orFlags` -/

@[simp] theorem orFlags_script (s : State) (f : Word32) : (s.orFlags f).script = s.script := rfl
@[simp] theorem orFlags_draw (s : State) (f : Word32) : (s.orFlags f).draw = s.draw := rfl
@[simp] theorem orFlags_cycles (s : State) (f : Word32) : (s.orFlags f).cycles = s.cycles := rfl
@[simp] theorem orFlags_b (s : State) (f : Word32) : (s.orFlags f).b = s.b := rfl
@[simp] theorem orFlags_c (s : State) (f : Word32) : (s.orFlags f).c = s.c := rfl
@[simp] theorem orFlags_j (s : State) (f : Word32) : (s.orFlags f).j = s.j := rfl
@[simp] theorem orFlags_few (s : State) (f : Word32) : (s.orFlags f).few = s.few := rfl
@[simp] theorem orFlags_groups (s : State) (f : Word32) : (s.orFlags f).groups = s.groups := rfl
@[simp] theorem orFlags_bands (s : State) (f : Word32) : (s.orFlags f).bands = s.bands := rfl
@[simp] theorem orFlags_cores (s : State) (f : Word32) : (s.orFlags f).cores = s.cores := rfl
@[simp] theorem orFlags_journeys (s : State) (f : Word32) : (s.orFlags f).journeys = s.journeys := rfl
@[simp] theorem orFlags_rooms (s : State) (f : Word32) : (s.orFlags f).rooms = s.rooms := rfl
@[simp] theorem orFlags_hub (s : State) (f : Word32) : (s.orFlags f).hub = s.hub := rfl
@[simp] theorem orFlags_mem (s : State) (f : Word32) : (s.orFlags f).mem = s.mem := rfl
@[simp] theorem orFlags_pool (s : State) (f : Word32) : (s.orFlags f).pool = s.pool := rfl
@[simp] theorem orFlags_poison (s : State) (f : Word32) : (s.orFlags f).poison = s.poison := rfl
@[simp] theorem orFlags_reqs (s : State) (f : Word32) : (s.orFlags f).reqs = s.reqs := rfl
@[simp] theorem orFlags_nextReq (s : State) (f : Word32) : (s.orFlags f).nextReq = s.nextReq := rfl

/-! ### `modOp` -/

@[simp] theorem modOp_script (s : State) (slot : Nat) (f : Op → Op) : (s.modOp slot f).script = s.script := rfl
@[simp] theorem modOp_draw (s : State) (slot : Nat) (f : Op → Op) : (s.modOp slot f).draw = s.draw := rfl
@[simp] theorem modOp_cycles (s : State) (slot : Nat) (f : Op → Op) : (s.modOp slot f).cycles = s.cycles := rfl
@[simp] theorem modOp_g (s : State) (slot : Nat) (f : Op → Op) : (s.modOp slot f).g = s.g := rfl
@[simp] theorem modOp_b (s : State) (slot : Nat) (f : Op → Op) : (s.modOp slot f).b = s.b := rfl
@[simp] theorem modOp_j (s : State) (slot : Nat) (f : Op → Op) : (s.modOp slot f).j = s.j := rfl
@[simp] theorem modOp_few (s : State) (slot : Nat) (f : Op → Op) : (s.modOp slot f).few = s.few := rfl
@[simp] theorem modOp_groups (s : State) (slot : Nat) (f : Op → Op) : (s.modOp slot f).groups = s.groups := rfl
@[simp] theorem modOp_bands (s : State) (slot : Nat) (f : Op → Op) : (s.modOp slot f).bands = s.bands := rfl
@[simp] theorem modOp_cores (s : State) (slot : Nat) (f : Op → Op) : (s.modOp slot f).cores = s.cores := rfl
@[simp] theorem modOp_journeys (s : State) (slot : Nat) (f : Op → Op) : (s.modOp slot f).journeys = s.journeys := rfl
@[simp] theorem modOp_rooms (s : State) (slot : Nat) (f : Op → Op) : (s.modOp slot f).rooms = s.rooms := rfl
@[simp] theorem modOp_hub (s : State) (slot : Nat) (f : Op → Op) : (s.modOp slot f).hub = s.hub := rfl
@[simp] theorem modOp_mem (s : State) (slot : Nat) (f : Op → Op) : (s.modOp slot f).mem = s.mem := rfl
@[simp] theorem modOp_pool (s : State) (slot : Nat) (f : Op → Op) : (s.modOp slot f).pool = s.pool := rfl
@[simp] theorem modOp_poison (s : State) (slot : Nat) (f : Op → Op) : (s.modOp slot f).poison = s.poison := rfl
@[simp] theorem modOp_reqs (s : State) (slot : Nat) (f : Op → Op) : (s.modOp slot f).reqs = s.reqs := rfl
@[simp] theorem modOp_nextReq (s : State) (slot : Nat) (f : Op → Op) : (s.modOp slot f).nextReq = s.nextReq := rfl

/-! ### `advance` -/

@[simp] theorem advance_script (s : State) : (s.advance).script = s.script := rfl
@[simp] theorem advance_draw (s : State) : (s.advance).draw = s.draw := rfl
@[simp] theorem advance_cycles (s : State) : (s.advance).cycles = s.cycles := rfl
@[simp] theorem advance_b (s : State) : (s.advance).b = s.b := rfl
@[simp] theorem advance_c (s : State) : (s.advance).c = s.c := rfl
@[simp] theorem advance_j (s : State) : (s.advance).j = s.j := rfl
@[simp] theorem advance_few (s : State) : (s.advance).few = s.few := rfl
@[simp] theorem advance_groups (s : State) : (s.advance).groups = s.groups := rfl
@[simp] theorem advance_bands (s : State) : (s.advance).bands = s.bands := rfl
@[simp] theorem advance_cores (s : State) : (s.advance).cores = s.cores := rfl
@[simp] theorem advance_journeys (s : State) : (s.advance).journeys = s.journeys := rfl
@[simp] theorem advance_rooms (s : State) : (s.advance).rooms = s.rooms := rfl
@[simp] theorem advance_hub (s : State) : (s.advance).hub = s.hub := rfl
@[simp] theorem advance_mem (s : State) : (s.advance).mem = s.mem := rfl
@[simp] theorem advance_pool (s : State) : (s.advance).pool = s.pool := rfl
@[simp] theorem advance_poison (s : State) : (s.advance).poison = s.poison := rfl
@[simp] theorem advance_reqs (s : State) : (s.advance).reqs = s.reqs := rfl
@[simp] theorem advance_nextReq (s : State) : (s.advance).nextReq = s.nextReq := rfl

/-! ### `jumpTo` -/

@[simp] theorem jumpTo_script (s : State) (t : Word64) : (s.jumpTo t).script = s.script := rfl
@[simp] theorem jumpTo_draw (s : State) (t : Word64) : (s.jumpTo t).draw = s.draw := rfl
@[simp] theorem jumpTo_cycles (s : State) (t : Word64) : (s.jumpTo t).cycles = s.cycles := rfl
@[simp] theorem jumpTo_b (s : State) (t : Word64) : (s.jumpTo t).b = s.b := rfl
@[simp] theorem jumpTo_c (s : State) (t : Word64) : (s.jumpTo t).c = s.c := rfl
@[simp] theorem jumpTo_j (s : State) (t : Word64) : (s.jumpTo t).j = s.j := rfl
@[simp] theorem jumpTo_few (s : State) (t : Word64) : (s.jumpTo t).few = s.few := rfl
@[simp] theorem jumpTo_groups (s : State) (t : Word64) : (s.jumpTo t).groups = s.groups := rfl
@[simp] theorem jumpTo_bands (s : State) (t : Word64) : (s.jumpTo t).bands = s.bands := rfl
@[simp] theorem jumpTo_cores (s : State) (t : Word64) : (s.jumpTo t).cores = s.cores := rfl
@[simp] theorem jumpTo_journeys (s : State) (t : Word64) : (s.jumpTo t).journeys = s.journeys := rfl
@[simp] theorem jumpTo_rooms (s : State) (t : Word64) : (s.jumpTo t).rooms = s.rooms := rfl
@[simp] theorem jumpTo_hub (s : State) (t : Word64) : (s.jumpTo t).hub = s.hub := rfl
@[simp] theorem jumpTo_mem (s : State) (t : Word64) : (s.jumpTo t).mem = s.mem := rfl
@[simp] theorem jumpTo_pool (s : State) (t : Word64) : (s.jumpTo t).pool = s.pool := rfl
@[simp] theorem jumpTo_poison (s : State) (t : Word64) : (s.jumpTo t).poison = s.poison := rfl
@[simp] theorem jumpTo_reqs (s : State) (t : Word64) : (s.jumpTo t).reqs = s.reqs := rfl
@[simp] theorem jumpTo_nextReq (s : State) (t : Word64) : (s.jumpTo t).nextReq = s.nextReq := rfl

/-! ### `stall` -/

@[simp] theorem stall_script (s : State) (code : BitVec 4) : (s.stall code).script = s.script := rfl
@[simp] theorem stall_draw (s : State) (code : BitVec 4) : (s.stall code).draw = s.draw := rfl
@[simp] theorem stall_cycles (s : State) (code : BitVec 4) : (s.stall code).cycles = s.cycles := rfl
@[simp] theorem stall_b (s : State) (code : BitVec 4) : (s.stall code).b = s.b := rfl
@[simp] theorem stall_c (s : State) (code : BitVec 4) : (s.stall code).c = s.c := rfl
@[simp] theorem stall_j (s : State) (code : BitVec 4) : (s.stall code).j = s.j := rfl
@[simp] theorem stall_few (s : State) (code : BitVec 4) : (s.stall code).few = s.few := rfl
@[simp] theorem stall_groups (s : State) (code : BitVec 4) : (s.stall code).groups = s.groups := rfl
@[simp] theorem stall_bands (s : State) (code : BitVec 4) : (s.stall code).bands = s.bands := rfl
@[simp] theorem stall_cores (s : State) (code : BitVec 4) : (s.stall code).cores = s.cores := rfl
@[simp] theorem stall_journeys (s : State) (code : BitVec 4) : (s.stall code).journeys = s.journeys := rfl
@[simp] theorem stall_rooms (s : State) (code : BitVec 4) : (s.stall code).rooms = s.rooms := rfl
@[simp] theorem stall_hub (s : State) (code : BitVec 4) : (s.stall code).hub = s.hub := rfl
@[simp] theorem stall_mem (s : State) (code : BitVec 4) : (s.stall code).mem = s.mem := rfl
@[simp] theorem stall_pool (s : State) (code : BitVec 4) : (s.stall code).pool = s.pool := rfl
@[simp] theorem stall_poison (s : State) (code : BitVec 4) : (s.stall code).poison = s.poison := rfl
@[simp] theorem stall_reqs (s : State) (code : BitVec 4) : (s.stall code).reqs = s.reqs := rfl
@[simp] theorem stall_nextReq (s : State) (code : BitVec 4) : (s.stall code).nextReq = s.nextReq := rfl

/-! ### `laneDone` -/

@[simp] theorem laneDone_script (s : State) : (s.laneDone).script = s.script := rfl
@[simp] theorem laneDone_draw (s : State) : (s.laneDone).draw = s.draw := rfl
@[simp] theorem laneDone_cycles (s : State) : (s.laneDone).cycles = s.cycles := rfl
@[simp] theorem laneDone_b (s : State) : (s.laneDone).b = s.b := rfl
@[simp] theorem laneDone_c (s : State) : (s.laneDone).c = s.c := rfl
@[simp] theorem laneDone_j (s : State) : (s.laneDone).j = s.j := rfl
@[simp] theorem laneDone_few (s : State) : (s.laneDone).few = s.few := rfl
@[simp] theorem laneDone_groups (s : State) : (s.laneDone).groups = s.groups := rfl
@[simp] theorem laneDone_bands (s : State) : (s.laneDone).bands = s.bands := rfl
@[simp] theorem laneDone_cores (s : State) : (s.laneDone).cores = s.cores := rfl
@[simp] theorem laneDone_journeys (s : State) : (s.laneDone).journeys = s.journeys := rfl
@[simp] theorem laneDone_rooms (s : State) : (s.laneDone).rooms = s.rooms := rfl
@[simp] theorem laneDone_hub (s : State) : (s.laneDone).hub = s.hub := rfl
@[simp] theorem laneDone_mem (s : State) : (s.laneDone).mem = s.mem := rfl
@[simp] theorem laneDone_pool (s : State) : (s.laneDone).pool = s.pool := rfl
@[simp] theorem laneDone_poison (s : State) : (s.laneDone).poison = s.poison := rfl
@[simp] theorem laneDone_reqs (s : State) : (s.laneDone).reqs = s.reqs := rfl
@[simp] theorem laneDone_nextReq (s : State) : (s.laneDone).nextReq = s.nextReq := rfl

/-! ### `closeWindows` -/

@[simp] theorem closeWindows_script (s : State) : (s.closeWindows).script = s.script := rfl
@[simp] theorem closeWindows_draw (s : State) : (s.closeWindows).draw = s.draw := rfl
@[simp] theorem closeWindows_cycles (s : State) : (s.closeWindows).cycles = s.cycles := rfl
@[simp] theorem closeWindows_b (s : State) : (s.closeWindows).b = s.b := rfl
@[simp] theorem closeWindows_c (s : State) : (s.closeWindows).c = s.c := rfl
@[simp] theorem closeWindows_j (s : State) : (s.closeWindows).j = s.j := rfl
@[simp] theorem closeWindows_few (s : State) : (s.closeWindows).few = s.few := rfl
@[simp] theorem closeWindows_groups (s : State) : (s.closeWindows).groups = s.groups := rfl
@[simp] theorem closeWindows_bands (s : State) : (s.closeWindows).bands = s.bands := rfl
@[simp] theorem closeWindows_cores (s : State) : (s.closeWindows).cores = s.cores := rfl
@[simp] theorem closeWindows_journeys (s : State) : (s.closeWindows).journeys = s.journeys := rfl
@[simp] theorem closeWindows_rooms (s : State) : (s.closeWindows).rooms = s.rooms := rfl
@[simp] theorem closeWindows_hub (s : State) : (s.closeWindows).hub = s.hub := rfl
@[simp] theorem closeWindows_mem (s : State) : (s.closeWindows).mem = s.mem := rfl
@[simp] theorem closeWindows_pool (s : State) : (s.closeWindows).pool = s.pool := rfl
@[simp] theorem closeWindows_poison (s : State) : (s.closeWindows).poison = s.poison := rfl
@[simp] theorem closeWindows_reqs (s : State) : (s.closeWindows).reqs = s.reqs := rfl
@[simp] theorem closeWindows_nextReq (s : State) : (s.closeWindows).nextReq = s.nextReq := rfl

/-! ### `closeLane` -/

@[simp] theorem closeLane_script (s : State) : (s.closeLane).script = s.script := rfl
@[simp] theorem closeLane_draw (s : State) : (s.closeLane).draw = s.draw := rfl
@[simp] theorem closeLane_cycles (s : State) : (s.closeLane).cycles = s.cycles := rfl
@[simp] theorem closeLane_b (s : State) : (s.closeLane).b = s.b := rfl
@[simp] theorem closeLane_c (s : State) : (s.closeLane).c = s.c := rfl
@[simp] theorem closeLane_j (s : State) : (s.closeLane).j = s.j := rfl
@[simp] theorem closeLane_few (s : State) : (s.closeLane).few = s.few := rfl
@[simp] theorem closeLane_groups (s : State) : (s.closeLane).groups = s.groups := rfl
@[simp] theorem closeLane_bands (s : State) : (s.closeLane).bands = s.bands := rfl
@[simp] theorem closeLane_cores (s : State) : (s.closeLane).cores = s.cores := rfl
@[simp] theorem closeLane_journeys (s : State) : (s.closeLane).journeys = s.journeys := rfl
@[simp] theorem closeLane_rooms (s : State) : (s.closeLane).rooms = s.rooms := rfl
@[simp] theorem closeLane_hub (s : State) : (s.closeLane).hub = s.hub := rfl
@[simp] theorem closeLane_mem (s : State) : (s.closeLane).mem = s.mem := rfl
@[simp] theorem closeLane_pool (s : State) : (s.closeLane).pool = s.pool := rfl
@[simp] theorem closeLane_poison (s : State) : (s.closeLane).poison = s.poison := rfl
@[simp] theorem closeLane_reqs (s : State) : (s.closeLane).reqs = s.reqs := rfl
@[simp] theorem closeLane_nextReq (s : State) : (s.closeLane).nextReq = s.nextReq := rfl

/-! ### `acquire` -/

@[simp] theorem acquire_script (s : State) (tag : Nat) : (s.acquire tag).script = s.script := rfl
@[simp] theorem acquire_draw (s : State) (tag : Nat) : (s.acquire tag).draw = s.draw := rfl
@[simp] theorem acquire_cycles (s : State) (tag : Nat) : (s.acquire tag).cycles = s.cycles := rfl
@[simp] theorem acquire_g (s : State) (tag : Nat) : (s.acquire tag).g = s.g := rfl
@[simp] theorem acquire_c (s : State) (tag : Nat) : (s.acquire tag).c = s.c := rfl
@[simp] theorem acquire_few (s : State) (tag : Nat) : (s.acquire tag).few = s.few := rfl
@[simp] theorem acquire_groups (s : State) (tag : Nat) : (s.acquire tag).groups = s.groups := rfl
@[simp] theorem acquire_bands (s : State) (tag : Nat) : (s.acquire tag).bands = s.bands := rfl
@[simp] theorem acquire_cores (s : State) (tag : Nat) : (s.acquire tag).cores = s.cores := rfl
@[simp] theorem acquire_journeys (s : State) (tag : Nat) : (s.acquire tag).journeys = s.journeys := rfl
@[simp] theorem acquire_rooms (s : State) (tag : Nat) : (s.acquire tag).rooms = s.rooms := rfl
@[simp] theorem acquire_hub (s : State) (tag : Nat) : (s.acquire tag).hub = s.hub := rfl
@[simp] theorem acquire_mem (s : State) (tag : Nat) : (s.acquire tag).mem = s.mem := rfl
@[simp] theorem acquire_pool (s : State) (tag : Nat) : (s.acquire tag).pool = s.pool := rfl
@[simp] theorem acquire_poison (s : State) (tag : Nat) : (s.acquire tag).poison = s.poison := rfl
@[simp] theorem acquire_reqs (s : State) (tag : Nat) : (s.acquire tag).reqs = s.reqs := rfl
@[simp] theorem acquire_nextReq (s : State) (tag : Nat) : (s.acquire tag).nextReq = s.nextReq := rfl

/-! ### `releaseOp` -/

@[simp] theorem releaseOp_script (s : State) (slot : Nat) : (s.releaseOp slot).script = s.script := rfl
@[simp] theorem releaseOp_draw (s : State) (slot : Nat) : (s.releaseOp slot).draw = s.draw := rfl
@[simp] theorem releaseOp_cycles (s : State) (slot : Nat) : (s.releaseOp slot).cycles = s.cycles := rfl
@[simp] theorem releaseOp_g (s : State) (slot : Nat) : (s.releaseOp slot).g = s.g := rfl
@[simp] theorem releaseOp_b (s : State) (slot : Nat) : (s.releaseOp slot).b = s.b := rfl
@[simp] theorem releaseOp_j (s : State) (slot : Nat) : (s.releaseOp slot).j = s.j := rfl
@[simp] theorem releaseOp_few (s : State) (slot : Nat) : (s.releaseOp slot).few = s.few := rfl
@[simp] theorem releaseOp_groups (s : State) (slot : Nat) : (s.releaseOp slot).groups = s.groups := rfl
@[simp] theorem releaseOp_bands (s : State) (slot : Nat) : (s.releaseOp slot).bands = s.bands := rfl
@[simp] theorem releaseOp_cores (s : State) (slot : Nat) : (s.releaseOp slot).cores = s.cores := rfl
@[simp] theorem releaseOp_journeys (s : State) (slot : Nat) : (s.releaseOp slot).journeys = s.journeys := rfl
@[simp] theorem releaseOp_rooms (s : State) (slot : Nat) : (s.releaseOp slot).rooms = s.rooms := rfl
@[simp] theorem releaseOp_hub (s : State) (slot : Nat) : (s.releaseOp slot).hub = s.hub := rfl
@[simp] theorem releaseOp_mem (s : State) (slot : Nat) : (s.releaseOp slot).mem = s.mem := rfl
@[simp] theorem releaseOp_pool (s : State) (slot : Nat) : (s.releaseOp slot).pool = s.pool := rfl
@[simp] theorem releaseOp_poison (s : State) (slot : Nat) : (s.releaseOp slot).poison = s.poison := rfl
@[simp] theorem releaseOp_reqs (s : State) (slot : Nat) : (s.releaseOp slot).reqs = s.reqs := rfl
@[simp] theorem releaseOp_nextReq (s : State) (slot : Nat) : (s.releaseOp slot).nextReq = s.nextReq := rfl

/-! ### The acting group after an update -/

@[simp] theorem advance_g_core (s : State) : (s.advance).g.core = s.g.core := rfl
@[simp] theorem advance_g_slot (s : State) : (s.advance).g.slot = s.g.slot := rfl
@[simp] theorem advance_g_band (s : State) : (s.advance).g.band = s.g.band := rfl
@[simp] theorem advance_g_idx (s : State) : (s.advance).g.idx = s.g.idx := rfl
@[simp] theorem advance_g_size (s : State) : (s.advance).g.size = s.g.size := rfl
@[simp] theorem advance_g_gang (s : State) : (s.advance).g.gang = s.g.gang := rfl
@[simp] theorem advance_g_journey (s : State) : (s.advance).g.journey = s.g.journey := rfl
@[simp] theorem advance_g_room (s : State) : (s.advance).g.room = s.g.room := rfl
@[simp] theorem advance_g_handler (s : State) : (s.advance).g.handler = s.g.handler := rfl
@[simp] theorem advance_g_spc (s : State) : (s.advance).g.spc = s.g.ahead.back.getD (s.g.insAddr + BitVec.ofNat 64 (4 * s.g.insLen)) := rfl
@[simp] theorem advance_g_lpc (s : State) : (s.advance).g.lpc = s.g.lpc := rfl
@[simp] theorem advance_g_llink (s : State) : (s.advance).g.llink = s.g.llink := rfl
@[simp] theorem advance_g_s (s : State) : (s.advance).g.s = s.g.s := rfl
@[simp] theorem advance_g_v (s : State) : (s.advance).g.v = s.g.v := rfl
@[simp] theorem advance_g_p (s : State) : (s.advance).g.p = s.g.p := rfl
@[simp] theorem advance_g_k (s : State) : (s.advance).g.k = s.g.k := rfl
@[simp] theorem advance_g_f (s : State) : (s.advance).g.f = s.g.f := rfl
@[simp] theorem advance_g_lq (s : State) : (s.advance).g.lq = s.g.lq := rfl
@[simp] theorem advance_g_latch (s : State) : (s.advance).g.latch = s.g.latch := rfl
@[simp] theorem advance_g_fpflags (s : State) : (s.advance).g.fpflags = s.g.fpflags := rfl
@[simp] theorem advance_g_repi (s : State) : (s.advance).g.repi = s.g.repi := rfl
@[simp] theorem advance_g_stoch (s : State) : (s.advance).g.stoch = s.g.stoch := rfl
@[simp] theorem advance_g_nev (s : State) : (s.advance).g.nev = s.g.nev := rfl
@[simp] theorem advance_g_events (s : State) : (s.advance).g.events = s.g.events := rfl
@[simp] theorem advance_g_rank (s : State) : (s.advance).g.rank = s.g.rank := rfl
@[simp] theorem advance_g_span0 (s : State) : (s.advance).g.span0 = s.g.span0 := rfl
@[simp] theorem advance_g_spanw (s : State) : (s.advance).g.spanw = s.g.spanw := rfl
@[simp] theorem advance_g_round (s : State) : (s.advance).g.round = s.g.round := rfl
@[simp] theorem advance_g_acc (s : State) : (s.advance).g.acc = s.g.acc := rfl
@[simp] theorem advance_g_scAcc (s : State) : (s.advance).g.scAcc = none := rfl
@[simp] theorem advance_g_guard (s : State) : (s.advance).g.guard = s.g.guard := rfl
@[simp] theorem advance_g_arrB (s : State) : (s.advance).g.arrB = s.g.arrB := rfl
@[simp] theorem advance_g_arrG (s : State) : (s.advance).g.arrG = s.g.arrG := rfl
@[simp] theorem advance_g_hold (s : State) : (s.advance).g.hold = s.g.hold := rfl
@[simp] theorem advance_g_park (s : State) : (s.advance).g.park = none := rfl
@[simp] theorem advance_g_lpark (s : State) : (s.advance).g.lpark = s.g.lpark := rfl
@[simp] theorem advance_g_ahead (s : State) : (s.advance).g.ahead = {} := rfl
@[simp] theorem advance_g_past (s : State) : (s.advance).g.past = s.g.past := rfl
@[simp] theorem advance_g_halted (s : State) : (s.advance).g.halted = s.g.halted := rfl
@[simp] theorem advance_g_haltReq (s : State) : (s.advance).g.haltReq = s.g.haltReq := rfl
@[simp] theorem advance_g_passed (s : State) : (s.advance).g.passed = false := rfl
@[simp] theorem advance_g_mid (s : State) : (s.advance).g.mid = false := rfl
@[simp] theorem advance_g_lqPassed (s : State) : (s.advance).g.lqPassed = false := rfl
@[simp] theorem advance_g_waited (s : State) : (s.advance).g.waited = false := rfl
@[simp] theorem advance_g_watchHit (s : State) : (s.advance).g.watchHit = s.g.watchHit := rfl
@[simp] theorem advance_g_dead (s : State) : (s.advance).g.dead = s.g.dead := rfl
@[simp] theorem advance_g_wait (s : State) : (s.advance).g.wait = 0 := rfl
@[simp] theorem advance_g_pages (s : State) : (s.advance).g.pages = s.g.pages := rfl
@[simp] theorem advance_g_winS (s : State) : (s.advance).g.winS = ageS s.g.winS := rfl
@[simp] theorem advance_g_winV (s : State) : (s.advance).g.winV = s.g.winV := rfl
@[simp] theorem advance_g_winP (s : State) : (s.advance).g.winP = s.g.winP := rfl
@[simp] theorem advance_g_insAddr (s : State) : (s.advance).g.insAddr = s.g.insAddr := rfl
@[simp] theorem advance_g_insLen (s : State) : (s.advance).g.insLen = s.g.insLen := rfl
@[simp] theorem advance_g_md (s : State) : (s.advance).g.md = s.g.md := rfl
@[simp] theorem advance_g_repOff (s : State) : (s.advance).g.repOff = s.g.repOff := rfl
@[simp] theorem advance_g_repped (s : State) : (s.advance).g.repped = s.g.repped := rfl
@[simp] theorem advance_g_ictx (s : State) : (s.advance).g.ictx = s.g.ictx := rfl

@[simp] theorem stall_g_core (s : State) (code : BitVec 4) : (s.stall code).g.core = s.g.core := rfl
@[simp] theorem stall_g_slot (s : State) (code : BitVec 4) : (s.stall code).g.slot = s.g.slot := rfl
@[simp] theorem stall_g_band (s : State) (code : BitVec 4) : (s.stall code).g.band = s.g.band := rfl
@[simp] theorem stall_g_idx (s : State) (code : BitVec 4) : (s.stall code).g.idx = s.g.idx := rfl
@[simp] theorem stall_g_size (s : State) (code : BitVec 4) : (s.stall code).g.size = s.g.size := rfl
@[simp] theorem stall_g_gang (s : State) (code : BitVec 4) : (s.stall code).g.gang = s.g.gang := rfl
@[simp] theorem stall_g_journey (s : State) (code : BitVec 4) : (s.stall code).g.journey = s.g.journey := rfl
@[simp] theorem stall_g_room (s : State) (code : BitVec 4) : (s.stall code).g.room = s.g.room := rfl
@[simp] theorem stall_g_handler (s : State) (code : BitVec 4) : (s.stall code).g.handler = s.g.handler := rfl
@[simp] theorem stall_g_spc (s : State) (code : BitVec 4) : (s.stall code).g.spc = s.g.spc := rfl
@[simp] theorem stall_g_lpc (s : State) (code : BitVec 4) : (s.stall code).g.lpc = s.g.lpc := rfl
@[simp] theorem stall_g_llink (s : State) (code : BitVec 4) : (s.stall code).g.llink = s.g.llink := rfl
@[simp] theorem stall_g_s (s : State) (code : BitVec 4) : (s.stall code).g.s = s.g.s := rfl
@[simp] theorem stall_g_v (s : State) (code : BitVec 4) : (s.stall code).g.v = s.g.v := rfl
@[simp] theorem stall_g_p (s : State) (code : BitVec 4) : (s.stall code).g.p = s.g.p := rfl
@[simp] theorem stall_g_k (s : State) (code : BitVec 4) : (s.stall code).g.k = s.g.k := rfl
@[simp] theorem stall_g_f (s : State) (code : BitVec 4) : (s.stall code).g.f = s.g.f := rfl
@[simp] theorem stall_g_lq (s : State) (code : BitVec 4) : (s.stall code).g.lq = s.g.lq := rfl
@[simp] theorem stall_g_latch (s : State) (code : BitVec 4) : (s.stall code).g.latch = s.g.latch := rfl
@[simp] theorem stall_g_fpflags (s : State) (code : BitVec 4) : (s.stall code).g.fpflags = s.g.fpflags := rfl
@[simp] theorem stall_g_repi (s : State) (code : BitVec 4) : (s.stall code).g.repi = s.g.repi := rfl
@[simp] theorem stall_g_stoch (s : State) (code : BitVec 4) : (s.stall code).g.stoch = s.g.stoch := rfl
@[simp] theorem stall_g_nev (s : State) (code : BitVec 4) : (s.stall code).g.nev = s.g.nev := rfl
@[simp] theorem stall_g_events (s : State) (code : BitVec 4) : (s.stall code).g.events = s.g.events := rfl
@[simp] theorem stall_g_rank (s : State) (code : BitVec 4) : (s.stall code).g.rank = s.g.rank := rfl
@[simp] theorem stall_g_span0 (s : State) (code : BitVec 4) : (s.stall code).g.span0 = s.g.span0 := rfl
@[simp] theorem stall_g_spanw (s : State) (code : BitVec 4) : (s.stall code).g.spanw = s.g.spanw := rfl
@[simp] theorem stall_g_round (s : State) (code : BitVec 4) : (s.stall code).g.round = s.g.round := rfl
@[simp] theorem stall_g_acc (s : State) (code : BitVec 4) : (s.stall code).g.acc = s.g.acc := rfl
@[simp] theorem stall_g_scAcc (s : State) (code : BitVec 4) : (s.stall code).g.scAcc = s.g.scAcc := rfl
@[simp] theorem stall_g_guard (s : State) (code : BitVec 4) : (s.stall code).g.guard = s.g.guard := rfl
@[simp] theorem stall_g_arrB (s : State) (code : BitVec 4) : (s.stall code).g.arrB = s.g.arrB := rfl
@[simp] theorem stall_g_arrG (s : State) (code : BitVec 4) : (s.stall code).g.arrG = s.g.arrG := rfl
@[simp] theorem stall_g_hold (s : State) (code : BitVec 4) : (s.stall code).g.hold = s.g.hold := rfl
@[simp] theorem stall_g_park (s : State) (code : BitVec 4) : (s.stall code).g.park = s.g.park := rfl
@[simp] theorem stall_g_lpark (s : State) (code : BitVec 4) : (s.stall code).g.lpark = s.g.lpark := rfl
@[simp] theorem stall_g_ahead (s : State) (code : BitVec 4) : (s.stall code).g.ahead = s.g.ahead := rfl
@[simp] theorem stall_g_past (s : State) (code : BitVec 4) : (s.stall code).g.past = s.g.past := rfl
@[simp] theorem stall_g_halted (s : State) (code : BitVec 4) : (s.stall code).g.halted = s.g.halted := rfl
@[simp] theorem stall_g_haltReq (s : State) (code : BitVec 4) : (s.stall code).g.haltReq = s.g.haltReq := rfl
@[simp] theorem stall_g_passed (s : State) (code : BitVec 4) : (s.stall code).g.passed = s.g.passed := rfl
@[simp] theorem stall_g_mid (s : State) (code : BitVec 4) : (s.stall code).g.mid = s.g.mid := rfl
@[simp] theorem stall_g_lqPassed (s : State) (code : BitVec 4) : (s.stall code).g.lqPassed = s.g.lqPassed := rfl
@[simp] theorem stall_g_waited (s : State) (code : BitVec 4) : (s.stall code).g.waited = s.g.waited := rfl
@[simp] theorem stall_g_watchHit (s : State) (code : BitVec 4) : (s.stall code).g.watchHit = s.g.watchHit := rfl
@[simp] theorem stall_g_dead (s : State) (code : BitVec 4) : (s.stall code).g.dead = s.g.dead := rfl
@[simp] theorem stall_g_wait (s : State) (code : BitVec 4) : (s.stall code).g.wait = code := rfl
@[simp] theorem stall_g_pages (s : State) (code : BitVec 4) : (s.stall code).g.pages = s.g.pages := rfl
@[simp] theorem stall_g_winS (s : State) (code : BitVec 4) : (s.stall code).g.winS = s.g.winS := rfl
@[simp] theorem stall_g_winV (s : State) (code : BitVec 4) : (s.stall code).g.winV = s.g.winV := rfl
@[simp] theorem stall_g_winP (s : State) (code : BitVec 4) : (s.stall code).g.winP = s.g.winP := rfl
@[simp] theorem stall_g_insAddr (s : State) (code : BitVec 4) : (s.stall code).g.insAddr = s.g.insAddr := rfl
@[simp] theorem stall_g_insLen (s : State) (code : BitVec 4) : (s.stall code).g.insLen = s.g.insLen := rfl
@[simp] theorem stall_g_md (s : State) (code : BitVec 4) : (s.stall code).g.md = s.g.md := rfl
@[simp] theorem stall_g_repOff (s : State) (code : BitVec 4) : (s.stall code).g.repOff = s.g.repOff := rfl
@[simp] theorem stall_g_repped (s : State) (code : BitVec 4) : (s.stall code).g.repped = s.g.repped := rfl
@[simp] theorem stall_g_ictx (s : State) (code : BitVec 4) : (s.stall code).g.ictx = s.g.ictx := rfl

@[simp] theorem laneDone_g_core (s : State) : (s.laneDone).g.core = s.g.core := rfl
@[simp] theorem laneDone_g_slot (s : State) : (s.laneDone).g.slot = s.g.slot := rfl
@[simp] theorem laneDone_g_band (s : State) : (s.laneDone).g.band = s.g.band := rfl
@[simp] theorem laneDone_g_idx (s : State) : (s.laneDone).g.idx = s.g.idx := rfl
@[simp] theorem laneDone_g_size (s : State) : (s.laneDone).g.size = s.g.size := rfl
@[simp] theorem laneDone_g_gang (s : State) : (s.laneDone).g.gang = s.g.gang := rfl
@[simp] theorem laneDone_g_journey (s : State) : (s.laneDone).g.journey = s.g.journey := rfl
@[simp] theorem laneDone_g_room (s : State) : (s.laneDone).g.room = s.g.room := rfl
@[simp] theorem laneDone_g_handler (s : State) : (s.laneDone).g.handler = s.g.handler := rfl
@[simp] theorem laneDone_g_spc (s : State) : (s.laneDone).g.spc = s.g.spc := rfl
@[simp] theorem laneDone_g_lpc (s : State) : (s.laneDone).g.lpc = s.g.lpc := rfl
@[simp] theorem laneDone_g_llink (s : State) : (s.laneDone).g.llink = s.g.llink := rfl
@[simp] theorem laneDone_g_s (s : State) : (s.laneDone).g.s = s.g.s := rfl
@[simp] theorem laneDone_g_v (s : State) : (s.laneDone).g.v = s.g.v := rfl
@[simp] theorem laneDone_g_p (s : State) : (s.laneDone).g.p = s.g.p := rfl
@[simp] theorem laneDone_g_k (s : State) : (s.laneDone).g.k = s.g.k := rfl
@[simp] theorem laneDone_g_f (s : State) : (s.laneDone).g.f = s.g.f := rfl
@[simp] theorem laneDone_g_lq (s : State) : (s.laneDone).g.lq = (if s.g.lpark.isNone then s.g.lq.tail else s.g.lq.eraseIdx 1) := rfl
@[simp] theorem laneDone_g_latch (s : State) : (s.laneDone).g.latch = s.g.latch := rfl
@[simp] theorem laneDone_g_fpflags (s : State) : (s.laneDone).g.fpflags = s.g.fpflags := rfl
@[simp] theorem laneDone_g_repi (s : State) : (s.laneDone).g.repi = s.g.repi := rfl
@[simp] theorem laneDone_g_stoch (s : State) : (s.laneDone).g.stoch = s.g.stoch := rfl
@[simp] theorem laneDone_g_nev (s : State) : (s.laneDone).g.nev = s.g.nev := rfl
@[simp] theorem laneDone_g_events (s : State) : (s.laneDone).g.events = s.g.events := rfl
@[simp] theorem laneDone_g_rank (s : State) : (s.laneDone).g.rank = s.g.rank := rfl
@[simp] theorem laneDone_g_span0 (s : State) : (s.laneDone).g.span0 = s.g.span0 := rfl
@[simp] theorem laneDone_g_spanw (s : State) : (s.laneDone).g.spanw = s.g.spanw := rfl
@[simp] theorem laneDone_g_round (s : State) : (s.laneDone).g.round = s.g.round := rfl
@[simp] theorem laneDone_g_acc (s : State) : (s.laneDone).g.acc = s.g.acc := rfl
@[simp] theorem laneDone_g_scAcc (s : State) : (s.laneDone).g.scAcc = s.g.scAcc := rfl
@[simp] theorem laneDone_g_guard (s : State) : (s.laneDone).g.guard = s.g.guard := rfl
@[simp] theorem laneDone_g_arrB (s : State) : (s.laneDone).g.arrB = s.g.arrB := rfl
@[simp] theorem laneDone_g_arrG (s : State) : (s.laneDone).g.arrG = s.g.arrG := rfl
@[simp] theorem laneDone_g_hold (s : State) : (s.laneDone).g.hold = s.g.hold := rfl
@[simp] theorem laneDone_g_park (s : State) : (s.laneDone).g.park = s.g.park := rfl
@[simp] theorem laneDone_g_lpark (s : State) : (s.laneDone).g.lpark = s.g.lpark := rfl
@[simp] theorem laneDone_g_ahead (s : State) : (s.laneDone).g.ahead = s.g.ahead := rfl
@[simp] theorem laneDone_g_past (s : State) : (s.laneDone).g.past = (if s.g.lpark.isNone then 0 else s.g.past + 1) := rfl
@[simp] theorem laneDone_g_halted (s : State) : (s.laneDone).g.halted = s.g.halted := rfl
@[simp] theorem laneDone_g_haltReq (s : State) : (s.laneDone).g.haltReq = s.g.haltReq := rfl
@[simp] theorem laneDone_g_passed (s : State) : (s.laneDone).g.passed = s.g.passed := rfl
@[simp] theorem laneDone_g_mid (s : State) : (s.laneDone).g.mid = s.g.mid := rfl
@[simp] theorem laneDone_g_lqPassed (s : State) : (s.laneDone).g.lqPassed = s.g.lqPassed := rfl
@[simp] theorem laneDone_g_waited (s : State) : (s.laneDone).g.waited = s.g.waited := rfl
@[simp] theorem laneDone_g_watchHit (s : State) : (s.laneDone).g.watchHit = s.g.watchHit := rfl
@[simp] theorem laneDone_g_dead (s : State) : (s.laneDone).g.dead = s.g.dead := rfl
@[simp] theorem laneDone_g_wait (s : State) : (s.laneDone).g.wait = s.g.wait := rfl
@[simp] theorem laneDone_g_pages (s : State) : (s.laneDone).g.pages = s.g.pages := rfl
@[simp] theorem laneDone_g_winS (s : State) : (s.laneDone).g.winS = s.g.winS := rfl
@[simp] theorem laneDone_g_winV (s : State) : (s.laneDone).g.winV = ageV s.g.winV := rfl
@[simp] theorem laneDone_g_winP (s : State) : (s.laneDone).g.winP = ageP s.g.winP := rfl
@[simp] theorem laneDone_g_insAddr (s : State) : (s.laneDone).g.insAddr = s.g.insAddr := rfl
@[simp] theorem laneDone_g_insLen (s : State) : (s.laneDone).g.insLen = s.g.insLen := rfl
@[simp] theorem laneDone_g_md (s : State) : (s.laneDone).g.md = s.g.md := rfl
@[simp] theorem laneDone_g_repOff (s : State) : (s.laneDone).g.repOff = s.g.repOff := rfl
@[simp] theorem laneDone_g_repped (s : State) : (s.laneDone).g.repped = s.g.repped := rfl
@[simp] theorem laneDone_g_ictx (s : State) : (s.laneDone).g.ictx = s.g.ictx := rfl

@[simp] theorem closeWindows_g_core (s : State) : (s.closeWindows).g.core = s.g.core := rfl
@[simp] theorem closeWindows_g_slot (s : State) : (s.closeWindows).g.slot = s.g.slot := rfl
@[simp] theorem closeWindows_g_band (s : State) : (s.closeWindows).g.band = s.g.band := rfl
@[simp] theorem closeWindows_g_idx (s : State) : (s.closeWindows).g.idx = s.g.idx := rfl
@[simp] theorem closeWindows_g_size (s : State) : (s.closeWindows).g.size = s.g.size := rfl
@[simp] theorem closeWindows_g_gang (s : State) : (s.closeWindows).g.gang = s.g.gang := rfl
@[simp] theorem closeWindows_g_journey (s : State) : (s.closeWindows).g.journey = s.g.journey := rfl
@[simp] theorem closeWindows_g_room (s : State) : (s.closeWindows).g.room = s.g.room := rfl
@[simp] theorem closeWindows_g_handler (s : State) : (s.closeWindows).g.handler = s.g.handler := rfl
@[simp] theorem closeWindows_g_spc (s : State) : (s.closeWindows).g.spc = s.g.spc := rfl
@[simp] theorem closeWindows_g_lpc (s : State) : (s.closeWindows).g.lpc = s.g.lpc := rfl
@[simp] theorem closeWindows_g_llink (s : State) : (s.closeWindows).g.llink = s.g.llink := rfl
@[simp] theorem closeWindows_g_s (s : State) : (s.closeWindows).g.s = s.g.s := rfl
@[simp] theorem closeWindows_g_v (s : State) : (s.closeWindows).g.v = s.g.v := rfl
@[simp] theorem closeWindows_g_p (s : State) : (s.closeWindows).g.p = s.g.p := rfl
@[simp] theorem closeWindows_g_k (s : State) : (s.closeWindows).g.k = s.g.k := rfl
@[simp] theorem closeWindows_g_f (s : State) : (s.closeWindows).g.f = s.g.f := rfl
@[simp] theorem closeWindows_g_lq (s : State) : (s.closeWindows).g.lq = s.g.lq := rfl
@[simp] theorem closeWindows_g_latch (s : State) : (s.closeWindows).g.latch = s.g.latch := rfl
@[simp] theorem closeWindows_g_fpflags (s : State) : (s.closeWindows).g.fpflags = s.g.fpflags := rfl
@[simp] theorem closeWindows_g_repi (s : State) : (s.closeWindows).g.repi = s.g.repi := rfl
@[simp] theorem closeWindows_g_stoch (s : State) : (s.closeWindows).g.stoch = s.g.stoch := rfl
@[simp] theorem closeWindows_g_nev (s : State) : (s.closeWindows).g.nev = s.g.nev := rfl
@[simp] theorem closeWindows_g_events (s : State) : (s.closeWindows).g.events = s.g.events := rfl
@[simp] theorem closeWindows_g_rank (s : State) : (s.closeWindows).g.rank = s.g.rank := rfl
@[simp] theorem closeWindows_g_span0 (s : State) : (s.closeWindows).g.span0 = s.g.span0 := rfl
@[simp] theorem closeWindows_g_spanw (s : State) : (s.closeWindows).g.spanw = s.g.spanw := rfl
@[simp] theorem closeWindows_g_round (s : State) : (s.closeWindows).g.round = s.g.round := rfl
@[simp] theorem closeWindows_g_acc (s : State) : (s.closeWindows).g.acc = s.g.acc := rfl
@[simp] theorem closeWindows_g_scAcc (s : State) : (s.closeWindows).g.scAcc = s.g.scAcc := rfl
@[simp] theorem closeWindows_g_guard (s : State) : (s.closeWindows).g.guard = s.g.guard := rfl
@[simp] theorem closeWindows_g_arrB (s : State) : (s.closeWindows).g.arrB = s.g.arrB := rfl
@[simp] theorem closeWindows_g_arrG (s : State) : (s.closeWindows).g.arrG = s.g.arrG := rfl
@[simp] theorem closeWindows_g_hold (s : State) : (s.closeWindows).g.hold = s.g.hold := rfl
@[simp] theorem closeWindows_g_park (s : State) : (s.closeWindows).g.park = s.g.park := rfl
@[simp] theorem closeWindows_g_lpark (s : State) : (s.closeWindows).g.lpark = s.g.lpark := rfl
@[simp] theorem closeWindows_g_ahead (s : State) : (s.closeWindows).g.ahead = s.g.ahead := rfl
@[simp] theorem closeWindows_g_past (s : State) : (s.closeWindows).g.past = s.g.past := rfl
@[simp] theorem closeWindows_g_halted (s : State) : (s.closeWindows).g.halted = s.g.halted := rfl
@[simp] theorem closeWindows_g_haltReq (s : State) : (s.closeWindows).g.haltReq = s.g.haltReq := rfl
@[simp] theorem closeWindows_g_passed (s : State) : (s.closeWindows).g.passed = s.g.passed := rfl
@[simp] theorem closeWindows_g_mid (s : State) : (s.closeWindows).g.mid = s.g.mid := rfl
@[simp] theorem closeWindows_g_lqPassed (s : State) : (s.closeWindows).g.lqPassed = s.g.lqPassed := rfl
@[simp] theorem closeWindows_g_waited (s : State) : (s.closeWindows).g.waited = s.g.waited := rfl
@[simp] theorem closeWindows_g_watchHit (s : State) : (s.closeWindows).g.watchHit = s.g.watchHit := rfl
@[simp] theorem closeWindows_g_dead (s : State) : (s.closeWindows).g.dead = s.g.dead := rfl
@[simp] theorem closeWindows_g_wait (s : State) : (s.closeWindows).g.wait = s.g.wait := rfl
@[simp] theorem closeWindows_g_pages (s : State) : (s.closeWindows).g.pages = s.g.pages := rfl
@[simp] theorem closeWindows_g_winS (s : State) : (s.closeWindows).g.winS = [] := rfl
@[simp] theorem closeWindows_g_winV (s : State) : (s.closeWindows).g.winV = [] := rfl
@[simp] theorem closeWindows_g_winP (s : State) : (s.closeWindows).g.winP = [] := rfl
@[simp] theorem closeWindows_g_insAddr (s : State) : (s.closeWindows).g.insAddr = s.g.insAddr := rfl
@[simp] theorem closeWindows_g_insLen (s : State) : (s.closeWindows).g.insLen = s.g.insLen := rfl
@[simp] theorem closeWindows_g_md (s : State) : (s.closeWindows).g.md = s.g.md := rfl
@[simp] theorem closeWindows_g_repOff (s : State) : (s.closeWindows).g.repOff = s.g.repOff := rfl
@[simp] theorem closeWindows_g_repped (s : State) : (s.closeWindows).g.repped = s.g.repped := rfl
@[simp] theorem closeWindows_g_ictx (s : State) : (s.closeWindows).g.ictx = s.g.ictx := rfl

@[simp] theorem setF_g_core (s : State) (f : FReg) (x : Future) : (s.setF f x).g.core = s.g.core := rfl
@[simp] theorem setF_g_slot (s : State) (f : FReg) (x : Future) : (s.setF f x).g.slot = s.g.slot := rfl
@[simp] theorem setF_g_band (s : State) (f : FReg) (x : Future) : (s.setF f x).g.band = s.g.band := rfl
@[simp] theorem setF_g_idx (s : State) (f : FReg) (x : Future) : (s.setF f x).g.idx = s.g.idx := rfl
@[simp] theorem setF_g_size (s : State) (f : FReg) (x : Future) : (s.setF f x).g.size = s.g.size := rfl
@[simp] theorem setF_g_gang (s : State) (f : FReg) (x : Future) : (s.setF f x).g.gang = s.g.gang := rfl
@[simp] theorem setF_g_journey (s : State) (f : FReg) (x : Future) : (s.setF f x).g.journey = s.g.journey := rfl
@[simp] theorem setF_g_room (s : State) (f : FReg) (x : Future) : (s.setF f x).g.room = s.g.room := rfl
@[simp] theorem setF_g_handler (s : State) (f : FReg) (x : Future) : (s.setF f x).g.handler = s.g.handler := rfl
@[simp] theorem setF_g_spc (s : State) (f : FReg) (x : Future) : (s.setF f x).g.spc = s.g.spc := rfl
@[simp] theorem setF_g_lpc (s : State) (f : FReg) (x : Future) : (s.setF f x).g.lpc = s.g.lpc := rfl
@[simp] theorem setF_g_llink (s : State) (f : FReg) (x : Future) : (s.setF f x).g.llink = s.g.llink := rfl
@[simp] theorem setF_g_s (s : State) (f : FReg) (x : Future) : (s.setF f x).g.s = s.g.s := rfl
@[simp] theorem setF_g_v (s : State) (f : FReg) (x : Future) : (s.setF f x).g.v = s.g.v := rfl
@[simp] theorem setF_g_p (s : State) (f : FReg) (x : Future) : (s.setF f x).g.p = s.g.p := rfl
@[simp] theorem setF_g_k (s : State) (f : FReg) (x : Future) : (s.setF f x).g.k = s.g.k := rfl
@[simp] theorem setF_g_f (s : State) (f : FReg) (x : Future) : (s.setF f x).g.f = s.g.f.set f.toNat x := rfl
@[simp] theorem setF_g_lq (s : State) (f : FReg) (x : Future) : (s.setF f x).g.lq = s.g.lq := rfl
@[simp] theorem setF_g_latch (s : State) (f : FReg) (x : Future) : (s.setF f x).g.latch = s.g.latch := rfl
@[simp] theorem setF_g_fpflags (s : State) (f : FReg) (x : Future) : (s.setF f x).g.fpflags = s.g.fpflags := rfl
@[simp] theorem setF_g_repi (s : State) (f : FReg) (x : Future) : (s.setF f x).g.repi = s.g.repi := rfl
@[simp] theorem setF_g_stoch (s : State) (f : FReg) (x : Future) : (s.setF f x).g.stoch = s.g.stoch := rfl
@[simp] theorem setF_g_nev (s : State) (f : FReg) (x : Future) : (s.setF f x).g.nev = s.g.nev := rfl
@[simp] theorem setF_g_events (s : State) (f : FReg) (x : Future) : (s.setF f x).g.events = s.g.events := rfl
@[simp] theorem setF_g_rank (s : State) (f : FReg) (x : Future) : (s.setF f x).g.rank = s.g.rank := rfl
@[simp] theorem setF_g_span0 (s : State) (f : FReg) (x : Future) : (s.setF f x).g.span0 = s.g.span0 := rfl
@[simp] theorem setF_g_spanw (s : State) (f : FReg) (x : Future) : (s.setF f x).g.spanw = s.g.spanw := rfl
@[simp] theorem setF_g_round (s : State) (f : FReg) (x : Future) : (s.setF f x).g.round = s.g.round := rfl
@[simp] theorem setF_g_acc (s : State) (f : FReg) (x : Future) : (s.setF f x).g.acc = s.g.acc := rfl
@[simp] theorem setF_g_scAcc (s : State) (f : FReg) (x : Future) : (s.setF f x).g.scAcc = s.g.scAcc := rfl
@[simp] theorem setF_g_guard (s : State) (f : FReg) (x : Future) : (s.setF f x).g.guard = s.g.guard := rfl
@[simp] theorem setF_g_arrB (s : State) (f : FReg) (x : Future) : (s.setF f x).g.arrB = s.g.arrB := rfl
@[simp] theorem setF_g_arrG (s : State) (f : FReg) (x : Future) : (s.setF f x).g.arrG = s.g.arrG := rfl
@[simp] theorem setF_g_hold (s : State) (f : FReg) (x : Future) : (s.setF f x).g.hold = s.g.hold := rfl
@[simp] theorem setF_g_park (s : State) (f : FReg) (x : Future) : (s.setF f x).g.park = s.g.park := rfl
@[simp] theorem setF_g_lpark (s : State) (f : FReg) (x : Future) : (s.setF f x).g.lpark = s.g.lpark := rfl
@[simp] theorem setF_g_ahead (s : State) (f : FReg) (x : Future) : (s.setF f x).g.ahead = s.g.ahead := rfl
@[simp] theorem setF_g_past (s : State) (f : FReg) (x : Future) : (s.setF f x).g.past = s.g.past := rfl
@[simp] theorem setF_g_halted (s : State) (f : FReg) (x : Future) : (s.setF f x).g.halted = s.g.halted := rfl
@[simp] theorem setF_g_haltReq (s : State) (f : FReg) (x : Future) : (s.setF f x).g.haltReq = s.g.haltReq := rfl
@[simp] theorem setF_g_passed (s : State) (f : FReg) (x : Future) : (s.setF f x).g.passed = s.g.passed := rfl
@[simp] theorem setF_g_mid (s : State) (f : FReg) (x : Future) : (s.setF f x).g.mid = s.g.mid := rfl
@[simp] theorem setF_g_lqPassed (s : State) (f : FReg) (x : Future) : (s.setF f x).g.lqPassed = s.g.lqPassed := rfl
@[simp] theorem setF_g_waited (s : State) (f : FReg) (x : Future) : (s.setF f x).g.waited = s.g.waited := rfl
@[simp] theorem setF_g_watchHit (s : State) (f : FReg) (x : Future) : (s.setF f x).g.watchHit = s.g.watchHit := rfl
@[simp] theorem setF_g_dead (s : State) (f : FReg) (x : Future) : (s.setF f x).g.dead = s.g.dead := rfl
@[simp] theorem setF_g_wait (s : State) (f : FReg) (x : Future) : (s.setF f x).g.wait = s.g.wait := rfl
@[simp] theorem setF_g_pages (s : State) (f : FReg) (x : Future) : (s.setF f x).g.pages = s.g.pages := rfl
@[simp] theorem setF_g_winS (s : State) (f : FReg) (x : Future) : (s.setF f x).g.winS = s.g.winS := rfl
@[simp] theorem setF_g_winV (s : State) (f : FReg) (x : Future) : (s.setF f x).g.winV = s.g.winV := rfl
@[simp] theorem setF_g_winP (s : State) (f : FReg) (x : Future) : (s.setF f x).g.winP = s.g.winP := rfl
@[simp] theorem setF_g_insAddr (s : State) (f : FReg) (x : Future) : (s.setF f x).g.insAddr = s.g.insAddr := rfl
@[simp] theorem setF_g_insLen (s : State) (f : FReg) (x : Future) : (s.setF f x).g.insLen = s.g.insLen := rfl
@[simp] theorem setF_g_md (s : State) (f : FReg) (x : Future) : (s.setF f x).g.md = s.g.md := rfl
@[simp] theorem setF_g_repOff (s : State) (f : FReg) (x : Future) : (s.setF f x).g.repOff = s.g.repOff := rfl
@[simp] theorem setF_g_repped (s : State) (f : FReg) (x : Future) : (s.setF f x).g.repped = s.g.repped := rfl
@[simp] theorem setF_g_ictx (s : State) (f : FReg) (x : Future) : (s.setF f x).g.ictx = s.g.ictx := rfl

@[simp] theorem setK_g_core (s : State) (r : KReg) (x : Word32) : (s.setK r x).g.core = s.g.core := rfl
@[simp] theorem setK_g_slot (s : State) (r : KReg) (x : Word32) : (s.setK r x).g.slot = s.g.slot := rfl
@[simp] theorem setK_g_band (s : State) (r : KReg) (x : Word32) : (s.setK r x).g.band = s.g.band := rfl
@[simp] theorem setK_g_idx (s : State) (r : KReg) (x : Word32) : (s.setK r x).g.idx = s.g.idx := rfl
@[simp] theorem setK_g_size (s : State) (r : KReg) (x : Word32) : (s.setK r x).g.size = s.g.size := rfl
@[simp] theorem setK_g_gang (s : State) (r : KReg) (x : Word32) : (s.setK r x).g.gang = s.g.gang := rfl
@[simp] theorem setK_g_journey (s : State) (r : KReg) (x : Word32) : (s.setK r x).g.journey = s.g.journey := rfl
@[simp] theorem setK_g_room (s : State) (r : KReg) (x : Word32) : (s.setK r x).g.room = s.g.room := rfl
@[simp] theorem setK_g_handler (s : State) (r : KReg) (x : Word32) : (s.setK r x).g.handler = s.g.handler := rfl
@[simp] theorem setK_g_spc (s : State) (r : KReg) (x : Word32) : (s.setK r x).g.spc = s.g.spc := rfl
@[simp] theorem setK_g_lpc (s : State) (r : KReg) (x : Word32) : (s.setK r x).g.lpc = s.g.lpc := rfl
@[simp] theorem setK_g_llink (s : State) (r : KReg) (x : Word32) : (s.setK r x).g.llink = s.g.llink := rfl
@[simp] theorem setK_g_s (s : State) (r : KReg) (x : Word32) : (s.setK r x).g.s = s.g.s := rfl
@[simp] theorem setK_g_v (s : State) (r : KReg) (x : Word32) : (s.setK r x).g.v = s.g.v := rfl
@[simp] theorem setK_g_p (s : State) (r : KReg) (x : Word32) : (s.setK r x).g.p = s.g.p := rfl
@[simp] theorem setK_g_k (s : State) (r : KReg) (x : Word32) : (s.setK r x).g.k = s.g.k.set r.toNat x := rfl
@[simp] theorem setK_g_f (s : State) (r : KReg) (x : Word32) : (s.setK r x).g.f = s.g.f := rfl
@[simp] theorem setK_g_lq (s : State) (r : KReg) (x : Word32) : (s.setK r x).g.lq = s.g.lq := rfl
@[simp] theorem setK_g_latch (s : State) (r : KReg) (x : Word32) : (s.setK r x).g.latch = s.g.latch := rfl
@[simp] theorem setK_g_fpflags (s : State) (r : KReg) (x : Word32) : (s.setK r x).g.fpflags = s.g.fpflags := rfl
@[simp] theorem setK_g_repi (s : State) (r : KReg) (x : Word32) : (s.setK r x).g.repi = s.g.repi := rfl
@[simp] theorem setK_g_stoch (s : State) (r : KReg) (x : Word32) : (s.setK r x).g.stoch = s.g.stoch := rfl
@[simp] theorem setK_g_nev (s : State) (r : KReg) (x : Word32) : (s.setK r x).g.nev = s.g.nev := rfl
@[simp] theorem setK_g_events (s : State) (r : KReg) (x : Word32) : (s.setK r x).g.events = s.g.events := rfl
@[simp] theorem setK_g_rank (s : State) (r : KReg) (x : Word32) : (s.setK r x).g.rank = s.g.rank := rfl
@[simp] theorem setK_g_span0 (s : State) (r : KReg) (x : Word32) : (s.setK r x).g.span0 = s.g.span0 := rfl
@[simp] theorem setK_g_spanw (s : State) (r : KReg) (x : Word32) : (s.setK r x).g.spanw = s.g.spanw := rfl
@[simp] theorem setK_g_round (s : State) (r : KReg) (x : Word32) : (s.setK r x).g.round = s.g.round := rfl
@[simp] theorem setK_g_acc (s : State) (r : KReg) (x : Word32) : (s.setK r x).g.acc = s.g.acc := rfl
@[simp] theorem setK_g_scAcc (s : State) (r : KReg) (x : Word32) : (s.setK r x).g.scAcc = s.g.scAcc := rfl
@[simp] theorem setK_g_guard (s : State) (r : KReg) (x : Word32) : (s.setK r x).g.guard = s.g.guard := rfl
@[simp] theorem setK_g_arrB (s : State) (r : KReg) (x : Word32) : (s.setK r x).g.arrB = s.g.arrB := rfl
@[simp] theorem setK_g_arrG (s : State) (r : KReg) (x : Word32) : (s.setK r x).g.arrG = s.g.arrG := rfl
@[simp] theorem setK_g_hold (s : State) (r : KReg) (x : Word32) : (s.setK r x).g.hold = s.g.hold := rfl
@[simp] theorem setK_g_park (s : State) (r : KReg) (x : Word32) : (s.setK r x).g.park = s.g.park := rfl
@[simp] theorem setK_g_lpark (s : State) (r : KReg) (x : Word32) : (s.setK r x).g.lpark = s.g.lpark := rfl
@[simp] theorem setK_g_ahead (s : State) (r : KReg) (x : Word32) : (s.setK r x).g.ahead = s.g.ahead := rfl
@[simp] theorem setK_g_past (s : State) (r : KReg) (x : Word32) : (s.setK r x).g.past = s.g.past := rfl
@[simp] theorem setK_g_halted (s : State) (r : KReg) (x : Word32) : (s.setK r x).g.halted = s.g.halted := rfl
@[simp] theorem setK_g_haltReq (s : State) (r : KReg) (x : Word32) : (s.setK r x).g.haltReq = s.g.haltReq := rfl
@[simp] theorem setK_g_passed (s : State) (r : KReg) (x : Word32) : (s.setK r x).g.passed = s.g.passed := rfl
@[simp] theorem setK_g_mid (s : State) (r : KReg) (x : Word32) : (s.setK r x).g.mid = s.g.mid := rfl
@[simp] theorem setK_g_lqPassed (s : State) (r : KReg) (x : Word32) : (s.setK r x).g.lqPassed = s.g.lqPassed := rfl
@[simp] theorem setK_g_waited (s : State) (r : KReg) (x : Word32) : (s.setK r x).g.waited = s.g.waited := rfl
@[simp] theorem setK_g_watchHit (s : State) (r : KReg) (x : Word32) : (s.setK r x).g.watchHit = s.g.watchHit := rfl
@[simp] theorem setK_g_dead (s : State) (r : KReg) (x : Word32) : (s.setK r x).g.dead = s.g.dead := rfl
@[simp] theorem setK_g_wait (s : State) (r : KReg) (x : Word32) : (s.setK r x).g.wait = s.g.wait := rfl
@[simp] theorem setK_g_pages (s : State) (r : KReg) (x : Word32) : (s.setK r x).g.pages = s.g.pages := rfl
@[simp] theorem setK_g_winS (s : State) (r : KReg) (x : Word32) : (s.setK r x).g.winS = s.g.winS := rfl
@[simp] theorem setK_g_winV (s : State) (r : KReg) (x : Word32) : (s.setK r x).g.winV = s.g.winV := rfl
@[simp] theorem setK_g_winP (s : State) (r : KReg) (x : Word32) : (s.setK r x).g.winP = s.g.winP := rfl
@[simp] theorem setK_g_insAddr (s : State) (r : KReg) (x : Word32) : (s.setK r x).g.insAddr = s.g.insAddr := rfl
@[simp] theorem setK_g_insLen (s : State) (r : KReg) (x : Word32) : (s.setK r x).g.insLen = s.g.insLen := rfl
@[simp] theorem setK_g_md (s : State) (r : KReg) (x : Word32) : (s.setK r x).g.md = s.g.md := rfl
@[simp] theorem setK_g_repOff (s : State) (r : KReg) (x : Word32) : (s.setK r x).g.repOff = s.g.repOff := rfl
@[simp] theorem setK_g_repped (s : State) (r : KReg) (x : Word32) : (s.setK r x).g.repped = s.g.repped := rfl
@[simp] theorem setK_g_ictx (s : State) (r : KReg) (x : Word32) : (s.setK r x).g.ictx = s.g.ictx := rfl

@[simp] theorem orFlags_g_core (s : State) (f : Word32) : (s.orFlags f).g.core = s.g.core := rfl
@[simp] theorem orFlags_g_slot (s : State) (f : Word32) : (s.orFlags f).g.slot = s.g.slot := rfl
@[simp] theorem orFlags_g_band (s : State) (f : Word32) : (s.orFlags f).g.band = s.g.band := rfl
@[simp] theorem orFlags_g_idx (s : State) (f : Word32) : (s.orFlags f).g.idx = s.g.idx := rfl
@[simp] theorem orFlags_g_size (s : State) (f : Word32) : (s.orFlags f).g.size = s.g.size := rfl
@[simp] theorem orFlags_g_gang (s : State) (f : Word32) : (s.orFlags f).g.gang = s.g.gang := rfl
@[simp] theorem orFlags_g_journey (s : State) (f : Word32) : (s.orFlags f).g.journey = s.g.journey := rfl
@[simp] theorem orFlags_g_room (s : State) (f : Word32) : (s.orFlags f).g.room = s.g.room := rfl
@[simp] theorem orFlags_g_handler (s : State) (f : Word32) : (s.orFlags f).g.handler = s.g.handler := rfl
@[simp] theorem orFlags_g_spc (s : State) (f : Word32) : (s.orFlags f).g.spc = s.g.spc := rfl
@[simp] theorem orFlags_g_lpc (s : State) (f : Word32) : (s.orFlags f).g.lpc = s.g.lpc := rfl
@[simp] theorem orFlags_g_llink (s : State) (f : Word32) : (s.orFlags f).g.llink = s.g.llink := rfl
@[simp] theorem orFlags_g_s (s : State) (f : Word32) : (s.orFlags f).g.s = s.g.s := rfl
@[simp] theorem orFlags_g_v (s : State) (f : Word32) : (s.orFlags f).g.v = s.g.v := rfl
@[simp] theorem orFlags_g_p (s : State) (f : Word32) : (s.orFlags f).g.p = s.g.p := rfl
@[simp] theorem orFlags_g_k (s : State) (f : Word32) : (s.orFlags f).g.k = s.g.k := rfl
@[simp] theorem orFlags_g_f (s : State) (f : Word32) : (s.orFlags f).g.f = s.g.f := rfl
@[simp] theorem orFlags_g_lq (s : State) (f : Word32) : (s.orFlags f).g.lq = s.g.lq := rfl
@[simp] theorem orFlags_g_latch (s : State) (f : Word32) : (s.orFlags f).g.latch = s.g.latch := rfl
@[simp] theorem orFlags_g_fpflags (s : State) (f : Word32) : (s.orFlags f).g.fpflags = s.g.fpflags ||| (f &&& flMask) := rfl
@[simp] theorem orFlags_g_repi (s : State) (f : Word32) : (s.orFlags f).g.repi = s.g.repi := rfl
@[simp] theorem orFlags_g_stoch (s : State) (f : Word32) : (s.orFlags f).g.stoch = s.g.stoch := rfl
@[simp] theorem orFlags_g_nev (s : State) (f : Word32) : (s.orFlags f).g.nev = s.g.nev := rfl
@[simp] theorem orFlags_g_events (s : State) (f : Word32) : (s.orFlags f).g.events = s.g.events := rfl
@[simp] theorem orFlags_g_rank (s : State) (f : Word32) : (s.orFlags f).g.rank = s.g.rank := rfl
@[simp] theorem orFlags_g_span0 (s : State) (f : Word32) : (s.orFlags f).g.span0 = s.g.span0 := rfl
@[simp] theorem orFlags_g_spanw (s : State) (f : Word32) : (s.orFlags f).g.spanw = s.g.spanw := rfl
@[simp] theorem orFlags_g_round (s : State) (f : Word32) : (s.orFlags f).g.round = s.g.round := rfl
@[simp] theorem orFlags_g_acc (s : State) (f : Word32) : (s.orFlags f).g.acc = s.g.acc := rfl
@[simp] theorem orFlags_g_scAcc (s : State) (f : Word32) : (s.orFlags f).g.scAcc = s.g.scAcc := rfl
@[simp] theorem orFlags_g_guard (s : State) (f : Word32) : (s.orFlags f).g.guard = s.g.guard := rfl
@[simp] theorem orFlags_g_arrB (s : State) (f : Word32) : (s.orFlags f).g.arrB = s.g.arrB := rfl
@[simp] theorem orFlags_g_arrG (s : State) (f : Word32) : (s.orFlags f).g.arrG = s.g.arrG := rfl
@[simp] theorem orFlags_g_hold (s : State) (f : Word32) : (s.orFlags f).g.hold = s.g.hold := rfl
@[simp] theorem orFlags_g_park (s : State) (f : Word32) : (s.orFlags f).g.park = s.g.park := rfl
@[simp] theorem orFlags_g_lpark (s : State) (f : Word32) : (s.orFlags f).g.lpark = s.g.lpark := rfl
@[simp] theorem orFlags_g_ahead (s : State) (f : Word32) : (s.orFlags f).g.ahead = s.g.ahead := rfl
@[simp] theorem orFlags_g_past (s : State) (f : Word32) : (s.orFlags f).g.past = s.g.past := rfl
@[simp] theorem orFlags_g_halted (s : State) (f : Word32) : (s.orFlags f).g.halted = s.g.halted := rfl
@[simp] theorem orFlags_g_haltReq (s : State) (f : Word32) : (s.orFlags f).g.haltReq = s.g.haltReq := rfl
@[simp] theorem orFlags_g_passed (s : State) (f : Word32) : (s.orFlags f).g.passed = s.g.passed := rfl
@[simp] theorem orFlags_g_mid (s : State) (f : Word32) : (s.orFlags f).g.mid = s.g.mid := rfl
@[simp] theorem orFlags_g_lqPassed (s : State) (f : Word32) : (s.orFlags f).g.lqPassed = s.g.lqPassed := rfl
@[simp] theorem orFlags_g_waited (s : State) (f : Word32) : (s.orFlags f).g.waited = s.g.waited := rfl
@[simp] theorem orFlags_g_watchHit (s : State) (f : Word32) : (s.orFlags f).g.watchHit = s.g.watchHit := rfl
@[simp] theorem orFlags_g_dead (s : State) (f : Word32) : (s.orFlags f).g.dead = s.g.dead := rfl
@[simp] theorem orFlags_g_wait (s : State) (f : Word32) : (s.orFlags f).g.wait = s.g.wait := rfl
@[simp] theorem orFlags_g_pages (s : State) (f : Word32) : (s.orFlags f).g.pages = s.g.pages := rfl
@[simp] theorem orFlags_g_winS (s : State) (f : Word32) : (s.orFlags f).g.winS = s.g.winS := rfl
@[simp] theorem orFlags_g_winV (s : State) (f : Word32) : (s.orFlags f).g.winV = s.g.winV := rfl
@[simp] theorem orFlags_g_winP (s : State) (f : Word32) : (s.orFlags f).g.winP = s.g.winP := rfl
@[simp] theorem orFlags_g_insAddr (s : State) (f : Word32) : (s.orFlags f).g.insAddr = s.g.insAddr := rfl
@[simp] theorem orFlags_g_insLen (s : State) (f : Word32) : (s.orFlags f).g.insLen = s.g.insLen := rfl
@[simp] theorem orFlags_g_md (s : State) (f : Word32) : (s.orFlags f).g.md = s.g.md := rfl
@[simp] theorem orFlags_g_repOff (s : State) (f : Word32) : (s.orFlags f).g.repOff = s.g.repOff := rfl
@[simp] theorem orFlags_g_repped (s : State) (f : Word32) : (s.orFlags f).g.repped = s.g.repped := rfl
@[simp] theorem orFlags_g_ictx (s : State) (f : Word32) : (s.orFlags f).g.ictx = s.g.ictx := rfl

end Sys2Proof.Machine.State
end

