-- ==== Sys2Proof/Laws/Ops.lean ====
section
/-! SUPPORT. What the shared operations do, said once: registers outside windows, fault records, traps, translation, and the
counting of accesses. -/

namespace Sys2Proof.Machine

/-! ### Scalar registers (R45, R75) -/

@[simp] theorem State.sreg_zero (s : State) : s.sreg 0 = 0 := rfl

theorem State.sreg_closed (s : State) (r : SReg) (h : s.openS r = false) : s.sreg r = if r = 0 then 0 else s.g.s[r.toNat] := by
  unfold State.sreg
  split
  · rfl
  · have hn : s.oldS r = [] := by
      unfold State.oldS
      rw [List.map_eq_nil_iff, List.filter_eq_nil_iff]
      exact fun w hw => by simpa using List.any_eq_false.mp h w hw
    rw [hn]; rfl

/-- A write outside every window: `s0` discards it, and a lookahead opens a window with the old value. -/
theorem State.setSla_closed (s : State) (la : BitVec 4) (r : SReg) (x : Word64) (acc : Option Nat) (h : s.openS r = false) :
    s.setSla la r x acc = if r = 0 then s else
      { s with g := { s.g with s := s.g.s.set r.toNat x,
                               winS := if la = 0 then s.g.winS else ⟨r, s.g.s[r.toNat], la.toNat + 1, acc⟩ :: s.g.winS } } := by
  unfold State.setSla
  split
  · rfl
  · simp [h]

/-! ### Messages, notices and records -/

theorem State.sendMsg_eq (s : State) (conn type op journey status : Nat) (reqSeq : Option Word32) (pre body : List Byte) :
    ∃ u : Hub, s.sendMsg conn type op journey status reqSeq pre body = { s with hub := u } := by
  unfold State.sendMsg
  split
  · exact ⟨s.hub, rfl⟩
  · exact ⟨_, rfl⟩

/-- A notice is sent, or it waits in its room's queue. -/
theorem State.notice_eq (s : State) (room kind journey : Nat) (body : List Byte) :
    ∃ (m : List Room) (u : Hub), s.notice room kind journey body = { s with rooms := m, hub := u } := by
  unfold State.notice
  split
  · exact ⟨s.rooms, s.hub, rfl⟩
  · split
    · exact ⟨_, s.hub, rfl⟩
    · exact ⟨s.rooms, State.sendMsg_eq ..⟩

theorem State.stopJourney_eq (s : State) (n cause : Nat) :
    ∃ (l : List Journey) (k : Journey), s.stopJourney n cause = { s with journeys := l, j := k } := by
  unfold State.stopJourney State.modJourney
  dsimp only
  split
  · split
    · exact ⟨_, _, rfl⟩
    · exact ⟨_, s.j, rfl⟩
  · split
    · exact ⟨s.journeys, _, rfl⟩
    · exact ⟨s.journeys, s.j, rfl⟩

/-- A record changes rooms, the hub's messages and, in a full queue, the journey it names. -/
theorem State.postRecord_eq (s : State) (room : Nat) (r : FaultRec) :
    ∃ (m : List Room) (u : Hub) (l : List Journey) (k : Journey), s.postRecord room r = { s with rooms := m, hub := u, journeys := l, j := k } := by
  unfold State.postRecord
  split
  · exact ⟨s.rooms, s.hub, s.journeys, s.j, rfl⟩
  · split
    · dsimp only
      split
      · obtain ⟨m, u, hu⟩ := State.notice_eq (s.putRoom _) room 3 r.journey (leBytes 8 1)
        exact ⟨m, u, s.journeys, s.j, by rw [hu]; rfl⟩
      · exact ⟨_, s.hub, s.journeys, s.j, rfl⟩
    · obtain ⟨l, k, hl⟩ := State.stopJourney_eq (s.putRoom _) r.journey 0x20
      exact ⟨_, s.hub, l, k, by rw [hl]; rfl⟩

theorem State.traceTo_eq (s : State) (x : Session) (kind : Nat) (g : Group) (state cycle : Nat) :
    ∃ (m p : Memory) (u : Hub), s.traceTo x kind g state cycle = { s with mem := m, pool := p, hub := u } := by
  unfold State.traceTo
  dsimp only
  generalize leBytes 48 _ = l
  split
  · exact ⟨_, _, _, rfl⟩
  · exact ⟨s.mem, s.pool, _, rfl⟩

/-- A trace record changes memory, the session and the core's clock alone; without a session nothing. -/
theorem State.trace_eq (s : State) (kind : Nat) :
    ∃ (m p : Memory) (u : Hub) (c : Core), s.trace kind = { s with mem := m, pool := p, hub := u, c := c } := by
  unfold State.trace
  split
  · obtain ⟨m, p, u, h⟩ := State.traceTo_eq s _ kind s.g s.g.stateCode (s.clockOf s.c)
    exact ⟨m, p, u, _, by rw [h]⟩
  · exact ⟨s.mem, s.pool, s.hub, s.c, rfl⟩

theorem State.trace_none (s : State) (kind : Nat) (h : s.sessionOf s.g.room = none) : s.trace kind = s := by
  unfold State.trace
  rw [h]

/-! ### Traps (R48, R98) -/

/-- A trap behind unfinished work waits. -/
theorem State.takeTrap_waits (s : State) (code : Nat) (a : TrapArg) (h : s.doneOrParked = false) : s.takeTrap code a = s.stall 3 := by
  unfold State.takeTrap
  rw [h]; rfl

/-- A trap that is taken holds the group at its instruction; only rooms, the hub, memory and the core's clock (the trace) and
the journey's standing change beside. -/
theorem State.takeTrap_eq (s : State) (code : Nat) (a : TrapArg) (h : s.doneOrParked = true) :
    ∃ (m : List Room) (u : Hub) (l : List Journey) (k : Journey) (y p : Memory) (q : Core), s.takeTrap code a =
      { s with g := { s.g with hold := .trap a.next, spc := s.g.insAddr, wait := 7 }, rooms := m, hub := u, journeys := l, j := k,
               mem := y, pool := p, c := q } := by
  unfold State.takeTrap
  rw [if_pos h]
  dsimp only
  generalize ({ s.groupRec code with precise := true, held := true, waddr := a.waddr, lqaddr := a.lqaddr, vaddr := a.vaddr,
                                     info := a.info, access := a.access } : FaultRec) = r
  obtain ⟨m, u, l, k, hp⟩ := State.postRecord_eq s s.g.room r
  rw [hp]
  obtain ⟨y, p, v, q, ht⟩ := State.trace_eq
    (({ s with rooms := m, hub := u, journeys := l, j := k } : State).modG fun g => { g with hold := .trap a.next, spc := g.insAddr, wait := 7 }) 7
  exact ⟨m, v, l, k, y, p, q, by rw [ht]; rfl⟩

/-- The return from a trap, where no access is parked. -/
theorem Group.resume_trap (g : Group) (next : Bool) (h : g.hold = .trap next) (hp : g.park = none) (hl : g.lpark = none) :
    g.resume = { g with hold := .none, wait := 1, passed := (if next then false else g.passed),
                        spc := (if next then g.insAddr + BitVec.ofNat 64 (4 * g.insLen) else g.spc) } := by
  unfold Group.resume
  rw [h]
  cases next <;> simp [hp, hl]

/-! ### Translation (R177, R341) -/

/-- A page loaded into a last-page register changes that register alone. -/
theorem State.loadPage_eq (s : State) (lane : Option Nat) (p : PageReg) :
    ∃ l : List (Nat × PageReg), s.loadPage lane p = { s with g := { s.g with pages := l } } := by
  cases lane <;> exact ⟨_, rfl⟩

theorem State.translate_eq (s : State) (lane : Option Nat) (n : Need) (va : Word64) :
    ∃ (t : List TlbEnt) (p : List (Nat × PageReg)),
      (s.translate lane n va).1 = { s with c := { s.c with tlb := t }, g := { s.g with pages := p } } := by
  unfold State.translate
  split
  · exact ⟨s.c.tlb, s.g.pages, rfl⟩
  · dsimp only
    split
    · exact ⟨s.c.tlb, s.g.pages, rfl⟩
    · split
      · obtain ⟨l, h⟩ := s.loadPage_eq lane _
        exact ⟨s.c.tlb, l, h⟩
      · split
        · exact ⟨s.c.tlb, s.g.pages, rfl⟩
        · split
          · exact ⟨s.c.tlb, s.g.pages, rfl⟩
          · obtain ⟨l, h⟩ := State.loadPage_eq (s.modC _) lane _
            exact ⟨_, l, h⟩

/-- Translation changes the caches alone: the core's TLB and the group's last-page registers. -/
theorem State.xlate_eq (s : State) (lane : Option Nat) (n : Need) (va : Word64) :
    ∃ (t : List TlbEnt) (p : List (Nat × PageReg)),
      (s.xlate lane n va).1 = { s with c := { s.c with tlb := t }, g := { s.g with pages := p } } := by
  obtain ⟨t, p, h⟩ := State.translate_eq s lane n va
  refine ⟨t, p, ?_⟩
  rw [← h]
  unfold State.xlate
  split <;> next e => rw [e]

theorem State.xlate_mem (s : State) (lane : Option Nat) (n : Need) (va : Word64) : (s.xlate lane n va).1.mem = s.mem := by
  obtain ⟨t, p, h⟩ := State.xlate_eq s lane n va
  rw [h]
theorem State.xlate_b (s : State) (lane : Option Nat) (n : Need) (va : Word64) : (s.xlate lane n va).1.b = s.b := by
  obtain ⟨t, p, h⟩ := State.xlate_eq s lane n va
  rw [h]
theorem State.xlate_j (s : State) (lane : Option Nat) (n : Need) (va : Word64) : (s.xlate lane n va).1.j = s.j := by
  obtain ⟨t, p, h⟩ := State.xlate_eq s lane n va
  rw [h]

/-! ### Counted accesses (R179) -/

/-- A path below its limit counts one more access, with a tag of its own. -/
theorem State.countAcc_below (s : State) (p : Path) (h : s.pathCount p < 63) :
    s.countAcc p = some ({ s with g := { s.g with acc := s.g.acc ++ [⟨p, false, s.nextReq⟩] }, nextReq := s.nextReq + 1 }, s.nextReq) := by
  have hf : s.pathFull p = false := by
    unfold State.pathFull
    exact decide_eq_false (by show ¬ 63 ≤ s.pathCount p; omega)
  have hl : s.lowerFull p = s := by unfold State.lowerFull; rw [hf]; rfl
  unfold State.countAcc
  simp only [hl, hf]
  rfl

/-! ### Reading coherent memory (R323, R393) -/

/-- Bytes without poison and without an unacquired engine write read as they are. -/
theorem State.memRead_quiet : ∀ (n : Nat) (s : State) (pa : Nat), (∀ k, k < n → s.poison.contains (lineOf (pa + k)) = false) →
    (∀ u ∈ s.j.unacq, u.addr < pa ∨ pa + n ≤ u.addr) → s.memRead pa n = s.mem.read pa n
  | 0, _, _, _, _ => rfl
  | n + 1, s, pa, hp, hu => by
    unfold State.memRead Memory.read
    rw [State.memRead_quiet n s (pa + 1) (fun k hk => by rw [Nat.add_assoc, Nat.add_comm 1 k]; exact hp (k + 1) (by omega))
      (fun u h => by have := hu u h; omega)]
    have h0 := hp 0 (by omega)
    rw [Nat.add_zero] at h0
    have hn : (s.j.unacq.filter fun (u : Unacq) => u.addr == pa) = [] := by
      rw [List.filter_eq_nil_iff]
      intro u h
      have := hu u h
      simp; omega
    simp only [State.memByte, olds, hn, h0]
    rfl

end Sys2Proof.Machine
end

