-- ==== Sys2Proof/Laws/PerInstr.lean ====
section
/-! SUPPORT. For every constructor: a well-formed instruction has an encoding, and it is a lane word or one to four words of the scalar stream. -/

namespace Sys2Proof.Laws.Encodes

/-- A well-formed instruction encodes: a lane word to three words, a scalar one to one or two, and one more for each prefix. -/
def Statement (i : Instr) : Prop :=
  i.wf = true → ∃ ws, encode i = some ws ∧ (if i.isLane then ws.length = 3 else 1 ≤ ws.length ∧ ws.length ≤ 4)

/-- The same without prefixes, with the length of the scalar forms. -/
theorem core_length (i : Instr) (h : i.wfCore = true) :
    ∃ ws, encode i = some ws ∧ (if i.isLane then ws.length = 3 else 1 ≤ ws.length ∧ ws.length ≤ 2) := by
  cases i <;> first
    | exact ⟨_, rfl, rfl⟩
    | exact ⟨_, rfl, (by decide : 1 ≤ 1 ∧ 1 ≤ 2)⟩
    | exact ⟨_, rfl, (by decide : 1 ≤ 2 ∧ 2 ≤ 2)⟩
    | exact absurd h (by simp [Instr.wfCore, Instr.isStep, Instr.isPfx])

/-- A scalar instruction without prefixes, with up to two prefix words before it. -/
theorem prefixed (i : Instr) (h : i.wfScalar = true) : ∃ ws, encode i = some ws ∧ 1 ≤ ws.length ∧ ws.length ≤ 2 := by
  simp only [Instr.wfScalar, Bool.and_eq_true, Bool.not_eq_true'] at h
  obtain ⟨ws, he, hl⟩ := core_length i h.1
  rw [h.2] at hl
  exact ⟨ws, he, hl⟩

/-- Every instruction without prefixes. -/
theorem of_core (i : Instr) (h : i.wfCore = true) : ∃ ws, encode i = some ws ∧ (if i.isLane then ws.length = 3 else 1 ≤ ws.length ∧ ws.length ≤ 4) := by
  obtain ⟨ws, he, hl⟩ := core_length i h
  refine ⟨ws, he, ?_⟩
  cases hi : i.isLane <;> simp only [hi] at hl ⊢ <;> simp_all <;> omega

theorem modifierPrefix (rnd : Rnd) (sat ftz : Bool) (i : Instr) : Statement (.modifierPrefix rnd sat ftz i) := by
  intro h
  have hs : (∃ c d a b st j, i = .repPrefix c d a b st j ∧ j.wfScalar = true) ∨ i.wfScalar = true := by
    cases i <;> simp only [Instr.wf, Bool.and_eq_true] at h <;> first
      | exact .inr h.2
      | exact .inl ⟨_, _, _, _, _, _, rfl, h.2⟩
  obtain ⟨c, d, a, b, st, j, rfl, hj⟩ | hi := hs
  · obtain ⟨ws, he, hl⟩ := prefixed j hj
    refine ⟨encModifier rnd sat ftz :: encRep c d a b st :: ws, by simp [encode, he], ?_⟩
    simp [Instr.isLane, Instr.hdr]
    omega
  · obtain ⟨ws, he, hl⟩ := prefixed i hi
    refine ⟨encModifier rnd sat ftz :: ws, by simp [encode, he], ?_⟩
    simp [Instr.isLane, Instr.hdr]
    omega

theorem repPrefix (cnt : BitVec 8) (dstep astep bstep : BitVec 2) (astride : BitVec 12) (i : Instr) :
    Statement (.repPrefix cnt dstep astep bstep astride i) := by
  intro h
  have hs : (∃ r s f j, i = .modifierPrefix r s f j ∧ j.wfScalar = true) ∨ i.wfScalar = true := by
    cases i <;> simp only [Instr.wf, Bool.and_eq_true] at h <;> first
      | exact .inr h
      | exact .inl ⟨_, _, _, _, rfl, h.2⟩
  obtain ⟨r, s, f, j, rfl, hj⟩ | hi := hs
  · obtain ⟨ws, he, hl⟩ := prefixed j hj
    refine ⟨encRep cnt dstep astep bstep astride :: encModifier r s f :: ws, by simp [encode, he], ?_⟩
    simp [Instr.isLane, Instr.hdr]
    omega
  · obtain ⟨ws, he, hl⟩ := prefixed i hi
    refine ⟨encRep cnt dstep astep bstep astride :: ws, by simp [encode, he], ?_⟩
    simp [Instr.isLane, Instr.hdr]
    omega

theorem add (d a b : SReg) : Statement (.add d a b) := fun h => of_core _ h
theorem addImm (d a : SReg) (imm : BitVec 12) : Statement (.addImm d a imm) := fun h => of_core _ h
theorem addLong (d a : SReg) (la : BitVec 4) (imm : Word32) : Statement (.addLong d a la imm) := fun h => of_core _ h
theorem sub (d a b : SReg) : Statement (.sub d a b) := fun h => of_core _ h
theorem mul (d a b : SReg) : Statement (.mul d a b) := fun h => of_core _ h
theorem mulImm (d a : SReg) (imm : BitVec 12) : Statement (.mulImm d a imm) := fun h => of_core _ h
theorem mulhiS64 (d a b : SReg) : Statement (.mulhiS64 d a b) := fun h => of_core _ h
theorem mulhiN64 (d a b : SReg) : Statement (.mulhiN64 d a b) := fun h => of_core _ h
theorem divS64 (d a b : SReg) : Statement (.divS64 d a b) := fun h => of_core _ h
theorem divN64 (d a b : SReg) : Statement (.divN64 d a b) := fun h => of_core _ h
theorem remS64 (d a b : SReg) : Statement (.remS64 d a b) := fun h => of_core _ h
theorem remN64 (d a b : SReg) : Statement (.remN64 d a b) := fun h => of_core _ h
theorem and (d a b : SReg) : Statement (.and d a b) := fun h => of_core _ h
theorem andImm (d a : SReg) (imm : BitVec 12) : Statement (.andImm d a imm) := fun h => of_core _ h
theorem andLong (d a : SReg) (la : BitVec 4) (imm : Word32) : Statement (.andLong d a la imm) := fun h => of_core _ h
theorem or (d a b : SReg) : Statement (.or d a b) := fun h => of_core _ h
theorem orImm (d a : SReg) (imm : BitVec 12) : Statement (.orImm d a imm) := fun h => of_core _ h
theorem orLong (d a : SReg) (la : BitVec 4) (imm : Word32) : Statement (.orLong d a la imm) := fun h => of_core _ h
theorem xor (d a b : SReg) : Statement (.xor d a b) := fun h => of_core _ h
theorem xorImm (d a : SReg) (imm : BitVec 12) : Statement (.xorImm d a imm) := fun h => of_core _ h
theorem xorLong (d a : SReg) (la : BitVec 4) (imm : Word32) : Statement (.xorLong d a la imm) := fun h => of_core _ h
theorem andn (d a b : SReg) : Statement (.andn d a b) := fun h => of_core _ h
theorem shl (d a b : SReg) : Statement (.shl d a b) := fun h => of_core _ h
theorem shlImm (d a : SReg) (count : BitVec 6) : Statement (.shlImm d a count) := fun h => of_core _ h
theorem shr (d a b : SReg) : Statement (.shr d a b) := fun h => of_core _ h
theorem shrImm (d a : SReg) (count : BitVec 6) : Statement (.shrImm d a count) := fun h => of_core _ h
theorem sar (d a b : SReg) : Statement (.sar d a b) := fun h => of_core _ h
theorem sarImm (d a : SReg) (count : BitVec 6) : Statement (.sarImm d a count) := fun h => of_core _ h
theorem minS64 (d a b : SReg) : Statement (.minS64 d a b) := fun h => of_core _ h
theorem minS64Imm (d a : SReg) (imm : BitVec 12) : Statement (.minS64Imm d a imm) := fun h => of_core _ h
theorem minN64 (d a b : SReg) : Statement (.minN64 d a b) := fun h => of_core _ h
theorem maxS64 (d a b : SReg) : Statement (.maxS64 d a b) := fun h => of_core _ h
theorem maxS64Imm (d a : SReg) (imm : BitVec 12) : Statement (.maxS64Imm d a imm) := fun h => of_core _ h
theorem maxN64 (d a b : SReg) : Statement (.maxN64 d a b) := fun h => of_core _ h
theorem cmpCc (cc : ICond) (d a b : SReg) : Statement (.cmpCc cc d a b) := fun h => of_core _ h
theorem mov (d a : SReg) : Statement (.mov d a) := fun h => of_core _ h
theorem abs (d a : SReg) : Statement (.abs d a) := fun h => of_core _ h
theorem clz (d a : SReg) : Statement (.clz d a) := fun h => of_core _ h
theorem popc (d a : SReg) : Statement (.popc d a) := fun h => of_core _ h
theorem brev (d a : SReg) : Statement (.brev d a) := fun h => of_core _ h
theorem movi (d : SReg) (imm : BitVec 18) : Statement (.movi d imm) := fun h => of_core _ h
theorem moviLong (d : SReg) (la : BitVec 4) (imm : Word32) : Statement (.moviLong d la imm) := fun h => of_core _ h
theorem sel (d a b : SReg) (la : BitVec 4) (c : SReg) : Statement (.sel d a b la c) := fun h => of_core _ h
theorem bfx (signed : Bool) (d a : SReg) (la : BitVec 4) (pos : BitVec 6) (len : BitVec 7) : Statement (.bfx signed d a la pos len) := fun h => of_core _ h
theorem bfi (d a : SReg) (la : BitVec 4) (pos : BitVec 6) (len : BitVec 7) : Statement (.bfi d a la pos len) := fun h => of_core _ h
theorem faddF64 (d a b : SReg) : Statement (.faddF64 d a b) := fun h => of_core _ h
theorem faddF32 (d a b : SReg) : Statement (.faddF32 d a b) := fun h => of_core _ h
theorem fmulF64 (d a b : SReg) : Statement (.fmulF64 d a b) := fun h => of_core _ h
theorem fmulF32 (d a b : SReg) : Statement (.fmulF32 d a b) := fun h => of_core _ h
theorem fmaF64 (d a b : SReg) (la : BitVec 4) (c : SReg) : Statement (.fmaF64 d a b la c) := fun h => of_core _ h
theorem fmaF32 (d a b : SReg) (la : BitVec 4) (c : SReg) : Statement (.fmaF32 d a b la c) := fun h => of_core _ h
theorem fcmpCcF64 (cc : FCond) (d a b : SReg) : Statement (.fcmpCcF64 cc d a b) := fun h => of_core _ h
theorem fcmpCcF32 (cc : FCond) (d a b : SReg) : Statement (.fcmpCcF32 cc d a b) := fun h => of_core _ h
theorem fcvtF32F64 (d a : SReg) : Statement (.fcvtF32F64 d a) := fun h => of_core _ h
theorem fcvtF64F32 (d a : SReg) : Statement (.fcvtF64F32 d a) := fun h => of_core _ h
theorem fcvtS64F64 (d a : SReg) : Statement (.fcvtS64F64 d a) := fun h => of_core _ h
theorem fcvtN64F64 (d a : SReg) : Statement (.fcvtN64F64 d a) := fun h => of_core _ h
theorem fcvtF64S64 (d a : SReg) : Statement (.fcvtF64S64 d a) := fun h => of_core _ h
theorem fcvtF64N64 (d a : SReg) : Statement (.fcvtF64N64 d a) := fun h => of_core _ h
theorem fcvtS64F32 (d a : SReg) : Statement (.fcvtS64F32 d a) := fun h => of_core _ h
theorem fcvtN64F32 (d a : SReg) : Statement (.fcvtN64F32 d a) := fun h => of_core _ h
theorem fcvtF32S64 (d a : SReg) : Statement (.fcvtF32S64 d a) := fun h => of_core _ h
theorem fcvtF32N64 (d a : SReg) : Statement (.fcvtF32N64 d a) := fun h => of_core _ h
theorem kand (d a b : KReg) : Statement (.kand d a b) := fun h => of_core _ h
theorem kor (d a b : KReg) : Statement (.kor d a b) := fun h => of_core _ h
theorem kxor (d a b : KReg) : Statement (.kxor d a b) := fun h => of_core _ h
theorem kandn (d a b : KReg) : Statement (.kandn d a b) := fun h => of_core _ h
theorem knot (d a : KReg) : Statement (.knot d a) := fun h => of_core _ h
theorem kmov (d a : KReg) : Statement (.kmov d a) := fun h => of_core _ h
theorem kpop (d : SReg) (a : KReg) : Statement (.kpop d a) := fun h => of_core _ h
theorem kffs (d : SReg) (a : KReg) : Statement (.kffs d a) := fun h => of_core _ h
theorem kset (d : KReg) (a : SReg) : Statement (.kset d a) := fun h => of_core _ h
theorem kball (d : KReg) (p : PReg) (b : KReg) : Statement (.kball d p b) := fun h => of_core _ h
theorem ld (w : SWidth) (d a : SReg) (off : BitVec 9) : Statement (.ld w d a off) := fun h => of_core _ h
theorem ldLong (w : SWidth) (d a : SReg) (la : BitVec 4) (off : Word32) : Statement (.ldLong w d a la off) := fun h => of_core _ h
theorem st (w : SWidth) (d a : SReg) (off : BitVec 9) : Statement (.st w d a off) := fun h => of_core _ h
theorem stLong (w : SWidth) (d a : SReg) (la : BitVec 4) (off : Word32) : Statement (.stLong w d a la off) := fun h => of_core _ h
theorem ldsp (w : SWidth) (d a : SReg) (off : BitVec 9) : Statement (.ldsp w d a off) := fun h => of_core _ h
theorem ldspLong (w : SWidth) (d a : SReg) (la : BitVec 4) (off : Word32) : Statement (.ldspLong w d a la off) := fun h => of_core _ h
theorem stsp (w : SWidth) (d a : SReg) (off : BitVec 9) : Statement (.stsp w d a off) := fun h => of_core _ h
theorem stspLong (w : SWidth) (d a : SReg) (la : BitVec 4) (off : Word32) : Statement (.stspLong w d a la off) := fun h => of_core _ h
theorem sysr (d : SReg) (n : BitVec 12) : Statement (.sysr d n) := fun h => of_core _ h
theorem sysw (a : SReg) (n : BitVec 12) : Statement (.sysw a n) := fun h => of_core _ h
theorem trap (code : BitVec 12) : Statement (.trap code) := fun h => of_core _ h
theorem brk (code : BitVec 12) : Statement (.brk code) := fun h => of_core _ h
theorem lq (n : BitVec 12) : Statement (.lq n) := fun h => of_core _ h
theorem br (off : BitVec 24) : Statement (.br off) := fun h => of_core _ h
theorem call (off : BitVec 24) : Statement (.call off) := fun h => of_core _ h
theorem bz (a : SReg) (off : BitVec 18) : Statement (.bz a off) := fun h => of_core _ h
theorem bnz (a : SReg) (off : BitVec 18) : Statement (.bnz a off) := fun h => of_core _ h
theorem ball (k : KReg) (off : BitVec 18) : Statement (.ball k off) := fun h => of_core _ h
theorem bCc (cc : ICond) (a b : SReg) (la : BitVec 4) (off : Word32) : Statement (.bCc cc a b la off) := fun h => of_core _ h
theorem ret : Statement (.ret) := fun h => of_core _ h
theorem jmpi (a : SReg) : Statement (.jmpi a) := fun h => of_core _ h
theorem lret : Statement (.lret) := fun h => of_core _ h
theorem exit : Statement (.exit) := fun h => of_core _ h
theorem nop : Statement (.nop) := fun h => of_core _ h
theorem ljmp (off : BitVec 24) : Statement (.ljmp off) := fun h => of_core _ h
theorem lcall (off : BitVec 24) : Statement (.lcall off) := fun h => of_core _ h
theorem fenceSc : Statement (.fenceSc) := fun h => of_core _ h
theorem fenceEng : Statement (.fenceEng) := fun h => of_core _ h
theorem fenceFabric : Statement (.fenceFabric) := fun h => of_core _ h
theorem bar : Statement (.bar) := fun h => of_core _ h
theorem barArrive : Statement (.barArrive) := fun h => of_core _ h
theorem barWait : Statement (.barWait) := fun h => of_core _ h
theorem gbar : Statement (.gbar) := fun h => of_core _ h
theorem waitpLd (a : SReg) : Statement (.waitpLd a) := fun h => of_core _ h
theorem waitpSt (a : SReg) : Statement (.waitpSt a) := fun h => of_core _ h
theorem waitpSp (a : SReg) : Statement (.waitpSp a) := fun h => of_core _ h
theorem waitpGa (a : SReg) : Statement (.waitpGa a) := fun h => of_core _ h
theorem ftest (d : SReg) (f : FReg) : Statement (.ftest d f) := fun h => of_core _ h
theorem fwait (d : SReg) (f : FReg) : Statement (.fwait d f) := fun h => of_core _ h
theorem fcancel (d : SReg) (f : FReg) : Statement (.fcancel d f) := fun h => of_core _ h
theorem fget (d : SReg) (f : FReg) : Statement (.fget d f) := fun h => of_core _ h
theorem fput (f : FReg) (a : SReg) : Statement (.fput f a) := fun h => of_core _ h
theorem swait (d a b : SReg) : Statement (.swait d a b) := fun h => of_core _ h
theorem sdone (d a b : SReg) : Statement (.sdone d a b) := fun h => of_core _ h
theorem cclear : Statement (.cclear) := fun h => of_core _ h
theorem enough (a : SReg) : Statement (.enough a) := fun h => of_core _ h
theorem itfree (a : SReg) : Statement (.itfree a) := fun h => of_core _ h
theorem push (q : PushQ) (f : FReg) (a b : SReg) (la : BitVec 4) : Statement (.push q f a b la) := fun h => of_core _ h
theorem mloop (f : FReg) (a b : SReg) (la : BitVec 4) (aSp : Bool) (steps : BitVec 9) (rnd : Rnd) (ftz reuse tstep : Bool) (tile : BitVec 5) (fmt : MFmt) (areg : VReg) : Statement (.mloop f a b la aSp steps rnd ftz reuse tstep tile fmt areg) := fun h => of_core _ h
theorem mdrain (f : FReg) (la : BitVec 4) (lanes half e8 rs cs clear ftz : Bool) (rnd : Rnd) (vd8 : BitVec 5) (dtile stile : BitVec 5) (cv rv : VReg) : Statement (.mdrain f la lanes half e8 rs cs clear ftz rnd vd8 dtile stile cv rv) := fun h => of_core _ h
theorem aset (f : FReg) (b : SReg) (la : BitVec 4) (tile : BitVec 5) (count : BitVec 6) : Statement (.aset f b la tile count) := fun h => of_core _ h
theorem cloop (f : FReg) (a b : SReg) (la : BitVec 4) (split : Bool) (steps : BitVec 11) (fmt : CFmt) (rg : BitVec 4) : Statement (.cloop f a b la split steps fmt rg) := fun h => of_core _ h
theorem cdrain (f : FReg) (la : BitVec 4) (pairs e8 rs cs ftz : Bool) (rnd : Rnd) (dtile : BitVec 5) (cv rv : VReg) : Statement (.cdrain f la pairs e8 rs cs ftz rnd dtile cv rv) := fun h => of_core _ h
theorem cmerge (f : FReg) : Statement (.cmerge f) := fun h => of_core _ h
theorem cspill (f : FReg) (tile : BitVec 5) : Statement (.cspill f tile) := fun h => of_core _ h
theorem itbind (f : FReg) (a b : SReg) (la : BitVec 4) (off : Word32) : Statement (.itbind f a b la off) := fun h => of_core _ h
theorem drvNext (f : FReg) (a : SReg) (k : KReg) (la : BitVec 4) (vd : VReg) (pd ph : PReg) (sc : SReg) : Statement (.drvNext f a k la vd pd ph sc) := fun h => of_core _ h
theorem schedScalar (d a : SReg) (la : BitVec 4) (handler : BitVec 16) (prio : BitVec 2) (canc : Bool) : Statement (.schedScalar d a la handler prio canc) := fun h => of_core _ h
theorem cancelScalar (d a : SReg) (la : BitVec 4) : Statement (.cancelScalar d a la) := fun h => of_core _ h
theorem iadd (h : LaneHdr) (t : ITy) (sat : Bool) (d a b : VReg) : Statement (.iadd h t sat d a b) := fun h => of_core _ h
theorem isub (h : LaneHdr) (t : ITy) (sat : Bool) (d a b : VReg) : Statement (.isub h t sat d a b) := fun h => of_core _ h
theorem imul (h : LaneHdr) (t : ITy) (d a b : VReg) : Statement (.imul h t d a b) := fun h => of_core _ h
theorem imulhi (h : LaneHdr) (t : ITy) (d a b : VReg) : Statement (.imulhi h t d a b) := fun h => of_core _ h
theorem imad (h : LaneHdr) (t : ITy) (sat : Bool) (d a b c : VReg) : Statement (.imad h t sat d a b c) := fun h => of_core _ h
theorem iabs (h : LaneHdr) (sat : Bool) (d a : VReg) : Statement (.iabs h sat d a) := fun h => of_core _ h
theorem imin (h : LaneHdr) (t : ITy) (d a b : VReg) : Statement (.imin h t d a b) := fun h => of_core _ h
theorem imax (h : LaneHdr) (t : ITy) (d a b : VReg) : Statement (.imax h t d a b) := fun h => of_core _ h
theorem laneAnd (h : LaneHdr) (d a b : VReg) : Statement (.laneAnd h d a b) := fun h => of_core _ h
theorem laneOr (h : LaneHdr) (d a b : VReg) : Statement (.laneOr h d a b) := fun h => of_core _ h
theorem laneXor (h : LaneHdr) (d a b : VReg) : Statement (.laneXor h d a b) := fun h => of_core _ h
theorem bmux (h : LaneHdr) (d a b c : VReg) (tbl : BitVec 8) : Statement (.bmux h d a b c tbl) := fun h => of_core _ h
theorem laneShl (h : LaneHdr) (d a b : VReg) : Statement (.laneShl h d a b) := fun h => of_core _ h
theorem laneShr (h : LaneHdr) (d a b : VReg) : Statement (.laneShr h d a b) := fun h => of_core _ h
theorem laneSar (h : LaneHdr) (d a b : VReg) : Statement (.laneSar h d a b) := fun h => of_core _ h
theorem iadd64 (h : LaneHdr) (d a b : VReg) : Statement (.iadd64 h d a b) := fun h => of_core _ h
theorem laneBfx (h : LaneHdr) (t : ITy) (d a : VReg) (pos : BitVec 5) (len : BitVec 6) : Statement (.laneBfx h t d a pos len) := fun h => of_core _ h
theorem laneBfi (h : LaneHdr) (d a : VReg) (pos : BitVec 5) (len : BitVec 6) : Statement (.laneBfi h d a pos len) := fun h => of_core _ h
theorem lanePopc (h : LaneHdr) (d a : VReg) : Statement (.lanePopc h d a) := fun h => of_core _ h
theorem laneClz (h : LaneHdr) (d a : VReg) : Statement (.laneClz h d a) := fun h => of_core _ h
theorem laneBrev (h : LaneHdr) (d a : VReg) : Statement (.laneBrev h d a) := fun h => of_core _ h
theorem icmpCc (h : LaneHdr) (t : ICmpTy) (cc : LCond) (d : PReg) (a b : VReg) : Statement (.icmpCc h t cc d a b) := fun h => of_core _ h
theorem fcmpCc (h : LaneHdr) (t : F2) (cc : FCond) (d : PReg) (a b : VReg) : Statement (.fcmpCc h t cc d a b) := fun h => of_core _ h
theorem pand (h : LaneHdr) (d a b : PReg) : Statement (.pand h d a b) := fun h => of_core _ h
theorem por (h : LaneHdr) (d a b : PReg) : Statement (.por h d a b) := fun h => of_core _ h
theorem pxor (h : LaneHdr) (d a b : PReg) : Statement (.pxor h d a b) := fun h => of_core _ h
theorem pnot (h : LaneHdr) (d a : PReg) : Statement (.pnot h d a) := fun h => of_core _ h
theorem pmov (h : LaneHdr) (d a : PReg) : Statement (.pmov h d a) := fun h => of_core _ h
theorem pmovFromVreg (h : LaneHdr) (d : PReg) (a : VReg) : Statement (.pmovFromVreg h d a) := fun h => of_core _ h
theorem pmovToVreg (h : LaneHdr) (d : VReg) : Statement (.pmovToVreg h d) := fun h => of_core _ h
theorem pmovAll (h : LaneHdr) (a : VReg) : Statement (.pmovAll h a) := fun h => of_core _ h
theorem laneSel (h : LaneHdr) (w64 : Bool) (d a b : VReg) (c : PReg) : Statement (.laneSel h w64 d a b c) := fun h => of_core _ h
theorem laneMov (h : LaneHdr) (w64 : Bool) (d a : VReg) : Statement (.laneMov h w64 d a) := fun h => of_core _ h
theorem laneMovi (h : LaneHdr) (d : VReg) (imm : Word32) : Statement (.laneMovi h d imm) := fun h => of_core _ h
theorem fadd (h : LaneHdr) (t : FTy) (rnd : Rnd) (ftz : Bool) (d a b : VReg) : Statement (.fadd h t rnd ftz d a b) := fun h => of_core _ h
theorem fsub (h : LaneHdr) (t : FTy) (rnd : Rnd) (ftz : Bool) (d a b : VReg) : Statement (.fsub h t rnd ftz d a b) := fun h => of_core _ h
theorem fmul (h : LaneHdr) (t : FTy) (rnd : Rnd) (ftz : Bool) (d a b : VReg) : Statement (.fmul h t rnd ftz d a b) := fun h => of_core _ h
theorem fma (h : LaneHdr) (t : FTy) (rnd : Rnd) (ftz : Bool) (d a b c : VReg) : Statement (.fma h t rnd ftz d a b c) := fun h => of_core _ h
theorem fminNum (h : LaneHdr) (t : FTy) (d a b : VReg) : Statement (.fminNum h t d a b) := fun h => of_core _ h
theorem fminNan (h : LaneHdr) (t : FTy) (d a b : VReg) : Statement (.fminNan h t d a b) := fun h => of_core _ h
theorem fmaxNum (h : LaneHdr) (t : FTy) (d a b : VReg) : Statement (.fmaxNum h t d a b) := fun h => of_core _ h
theorem fmaxNan (h : LaneHdr) (t : FTy) (d a b : VReg) : Statement (.fmaxNan h t d a b) := fun h => of_core _ h
theorem frcp (h : LaneHdr) (t : F2) (d a : VReg) : Statement (.frcp h t d a) := fun h => of_core _ h
theorem frsq (h : LaneHdr) (d a : VReg) : Statement (.frsq h d a) := fun h => of_core _ h
theorem fsqrt (h : LaneHdr) (t : F2) (d a : VReg) : Statement (.fsqrt h t d a) := fun h => of_core _ h
theorem fex2 (h : LaneHdr) (d a : VReg) : Statement (.fex2 h d a) := fun h => of_core _ h
theorem flg2 (h : LaneHdr) (d a : VReg) : Statement (.flg2 h d a) := fun h => of_core _ h
theorem fsin (h : LaneHdr) (d a : VReg) : Statement (.fsin h d a) := fun h => of_core _ h
theorem fcos (h : LaneHdr) (d a : VReg) : Statement (.fcos h d a) := fun h => of_core _ h
theorem fdot16 (h : LaneHdr) (e5m2 : Bool) (rnd : Rnd) (reuse ftz : Bool) (d a b c : VReg) : Statement (.fdot16 h e5m2 rnd reuse ftz d a b c) := fun h => of_core _ h
theorem ddot16 (h : LaneHdr) (rnd : Rnd) (reuse ftz : Bool) (d a b c : VReg) : Statement (.ddot16 h rnd reuse ftz d a b c) := fun h => of_core _ h
theorem idot4 (h : LaneHdr) (t : ITy) (sat : Bool) (d a b c : VReg) : Statement (.idot4 h t sat d a b c) := fun h => of_core _ h
theorem scacc (h : LaneHdr) (e8 : Bool) (rnd : Rnd) (d a b c : VReg) (x y : BitVec 2) : Statement (.scacc h e8 rnd d a b c x y) := fun h => of_core _ h
theorem cvt (h : LaneHdr) (dst src : LTy) (rnd : Rnd) (sat : Bool) (d a : VReg) (elem : BitVec 3) : Statement (.cvt h dst src rnd sat d a elem) := fun h => of_core _ h
theorem evinfo (h : LaneHdr) (item : EvItem) (d : VReg) : Statement (.evinfo h item d) := fun h => of_core _ h
theorem qswapH (h : LaneHdr) (w64 : Bool) (d a : VReg) : Statement (.qswapH h w64 d a) := fun h => of_core _ h
theorem qswapV (h : LaneHdr) (w64 : Bool) (d a : VReg) : Statement (.qswapV h w64 d a) := fun h => of_core _ h
theorem qswapD (h : LaneHdr) (w64 : Bool) (d a : VReg) : Statement (.qswapD h w64 d a) := fun h => of_core _ h
theorem qbcast (h : LaneHdr) (w64 : Bool) (d a : VReg) (pos : BitVec 2) : Statement (.qbcast h w64 d a pos) := fun h => of_core _ h
theorem xlanePick (h : LaneHdr) (w64 : Bool) (w : XWidth) (d a b : VReg) : Statement (.xlanePick h w64 w d a b) := fun h => of_core _ h
theorem xlaneLift (h : LaneHdr) (w64 : Bool) (w : XWidth) (d a : VReg) (dist : BitVec 5) : Statement (.xlaneLift h w64 w d a dist) := fun h => of_core _ h
theorem xlaneDrop (h : LaneHdr) (w64 : Bool) (w : XWidth) (d a : VReg) (dist : BitVec 5) : Statement (.xlaneDrop h w64 w d a dist) := fun h => of_core _ h
theorem xlaneMirror (h : LaneHdr) (w64 : Bool) (w : XWidth) (d a : VReg) (pat : BitVec 5) : Statement (.xlaneMirror h w64 w d a pat) := fun h => of_core _ h
theorem scan (h : LaneHdr) (t : ScanTy) (op : ScanOp) (excl : Bool) (d a : VReg) : Statement (.scan h t op excl d a) := fun h => of_core _ h
theorem sscan (h : LaneHdr) (t : ScanTy) (op : ScanOp) (excl : Bool) (d a : VReg) (c : PReg) : Statement (.sscan h t op excl d a c) := fun h => of_core _ h
theorem sred (h : LaneHdr) (t : ScanTy) (op : ScanOp) (d a : VReg) (b c : PReg) : Statement (.sred h t op d a b c) := fun h => of_core _ h
theorem ldG (h : LaneHdr) (t : MTy) (d : VReg) (m : LaneAddr) : Statement (.ldG h t d m) := fun h => of_core _ h
theorem stG (h : LaneHdr) (t : MTy) (d : VReg) (m : LaneAddr) : Statement (.stG h t d m) := fun h => of_core _ h
theorem ldS (h : LaneHdr) (t : MTy) (d : VReg) (m : LaneAddr) : Statement (.ldS h t d m) := fun h => of_core _ h
theorem stS (h : LaneHdr) (t : MTy) (d : VReg) (m : LaneAddr) : Statement (.stS h t d m) := fun h => of_core _ h
theorem cpGs (h : LaneHdr) (t : MTy) (d : VReg) (m : LaneAddr) : Statement (.cpGs h t d m) := fun h => of_core _ h
theorem ldx (h : LaneHdr) (t : MTy) (d : VReg) (m : LaneAddr) : Statement (.ldx h t d m) := fun h => of_core _ h
theorem stx (h : LaneHdr) (t : MTy) (d : VReg) (m : LaneAddr) : Statement (.stx h t d m) := fun h => of_core _ h
theorem atom (h : LaneHdr) (t : ATy) (op : AOp) (scope : Scope) (d a c : VReg) (m : LaneAddr) : Statement (.atom h t op scope d a c m) := fun h => of_core _ h
theorem red (h : LaneHdr) (t : ATy) (op : AOp) (scope : Scope) (a c : VReg) (m : LaneAddr) : Statement (.red h t op scope a c m) := fun h => of_core _ h
theorem sched (h : LaneHdr) (d a b : VReg) (handler : BitVec 16) (prio : BitVec 2) (canc : Bool) : Statement (.sched h d a b handler prio canc) := fun h => of_core _ h
theorem cancel (h : LaneHdr) (d a : VReg) : Statement (.cancel h d a) := fun h => of_core _ h
theorem acpyAr (h : LaneHdr) (d : VReg) (n : BitVec 7) (c0 : BitVec 6) (half : Bool) (tile : BitVec 5) : Statement (.acpyAr h d n c0 half tile) := fun h => of_core _ h
theorem acpyRa (h : LaneHdr) (a : VReg) (n : BitVec 7) (c0 : BitVec 6) (half : Bool) (tile : BitVec 5) : Statement (.acpyRa h a n c0 half tile) := fun h => of_core _ h
theorem illegalInstruction (woff : Word64) : Statement (.illegalInstruction woff) := fun h => of_core _ h
theorem mloopCompletion (core : Nat) : Statement (.mloopCompletion core) := fun h => of_core _ h
theorem mdrainCompletion (core : Nat) : Statement (.mdrainCompletion core) := fun h => of_core _ h
theorem asetCompletion (core : Nat) : Statement (.asetCompletion core) := fun h => of_core _ h
theorem cloopCompletion (core : Nat) : Statement (.cloopCompletion core) := fun h => of_core _ h
theorem cmergeCompletion (core : Nat) : Statement (.cmergeCompletion core) := fun h => of_core _ h
theorem cspillCompletion (core : Nat) : Statement (.cspillCompletion core) := fun h => of_core _ h
theorem cdrainCompletion (core : Nat) : Statement (.cdrainCompletion core) := fun h => of_core _ h
theorem itbindCompletion (core op : Nat) : Statement (.itbindCompletion core op) := fun h => of_core _ h
theorem nextPullCompletion (core op : Nat) : Statement (.nextPullCompletion core op) := fun h => of_core _ h
theorem droverDrain (core op : Nat) : Statement (.droverDrain core op) := fun h => of_core _ h
theorem seLoad (core eng : Nat) : Statement (.seLoad core eng) := fun h => of_core _ h
theorem seStore (core eng : Nat) : Statement (.seStore core eng) := fun h => of_core _ h
theorem seSet (core eng : Nat) : Statement (.seSet core eng) := fun h => of_core _ h
theorem seQuant (core eng : Nat) : Statement (.seQuant core eng) := fun h => of_core _ h
theorem ringSlotFill (core eng : Nat) : Statement (.ringSlotFill core eng) := fun h => of_core _ h
theorem slotPublish (core band off : Nat) : Statement (.slotPublish core band off) := fun h => of_core _ h
theorem ringSlotDrain (core eng : Nat) : Statement (.ringSlotDrain core eng) := fun h => of_core _ h
theorem cpGsCopy (core slot : Nat) : Statement (.cpGsCopy core slot) := fun h => of_core _ h
theorem accessCompletion (core slot : Nat) (path : Path) : Statement (.accessCompletion core slot path) := fun h => of_core _ h
theorem porterWindowClose (core : Nat) : Statement (.porterWindowClose core) := fun h => of_core _ h
theorem ostlerRequest (cluster : Nat) : Statement (.ostlerRequest cluster) := fun h => of_core _ h
theorem barrierPhaseComplete (core band : Nat) (gang : Bool) : Statement (.barrierPhaseComplete core band gang) := fun h => of_core _ h
theorem faultService (site : FailSite) (install : Option MapArg) : Statement (.faultService site install) := fun h => of_core _ h
theorem parkedReplay (core slot : Nat) : Statement (.parkedReplay core slot) := fun h => of_core _ h
theorem shootdownComplete (room : Nat) : Statement (.shootdownComplete room) := fun h => of_core _ h
theorem tableMigration (journey : Nat) (size : BitVec 2) : Statement (.tableMigration journey size) := fun h => of_core _ h
theorem importAcc (m : ImportMsg) : Statement (.importAcc m) := fun h => of_core _ h
theorem importRefused (journey id : Nat) (code : BitVec 8) : Statement (.importRefused journey id code) := fun h => of_core _ h
theorem writeBack (journey : Nat) : Statement (.writeBack journey) := fun h => of_core _ h
theorem hareSearch (journey : Nat) : Statement (.hareSearch journey) := fun h => of_core _ h
theorem roundFormation (journey : Nat) : Statement (.roundFormation journey) := fun h => of_core _ h
theorem dispatcherPick (room : Nat) : Statement (.dispatcherPick room) := fun h => of_core _ h
theorem starvationPromotion (journey : Nat) : Statement (.starvationPromotion journey) := fun h => of_core _ h
theorem bandPlacement (journey : Nat) : Statement (.bandPlacement journey) := fun h => of_core _ h
theorem gangPlacement (journey : Nat) : Statement (.gangPlacement journey) := fun h => of_core _ h
theorem groupDispatch (core slot : Nat) : Statement (.groupDispatch core slot) := fun h => of_core _ h
theorem groupHalt (core slot : Nat) : Statement (.groupHalt core slot) := fun h => of_core _ h
theorem openReq (c : Nat) (h : MsgHdr) (body : List Byte) : Statement (.openReq c h body) := fun h => of_core _ h
theorem closeReq (c : Nat) (h : MsgHdr) (body : List Byte) : Statement (.closeReq c h body) := fun h => of_core _ h
theorem teardownComplete (journey : Nat) : Statement (.teardownComplete journey) := fun h => of_core _ h
theorem readReq (c : Nat) (h : MsgHdr) (body : List Byte) : Statement (.readReq c h body) := fun h => of_core _ h
theorem writeReq (c : Nat) (h : MsgHdr) (body : List Byte) : Statement (.writeReq c h body) := fun h => of_core _ h
theorem seedReq (c : Nat) (h : MsgHdr) (body : List Byte) : Statement (.seedReq c h body) := fun h => of_core _ h
theorem launchReq (c : Nat) (h : MsgHdr) (body : List Byte) : Statement (.launchReq c h body) := fun h => of_core _ h
theorem startReq (c : Nat) (h : MsgHdr) (body : List Byte) : Statement (.startReq c h body) := fun h => of_core _ h
theorem stopReq (c : Nat) (h : MsgHdr) (body : List Byte) : Statement (.stopReq c h body) := fun h => of_core _ h
theorem checkpointReq (c : Nat) (h : MsgHdr) (body : List Byte) : Statement (.checkpointReq c h body) := fun h => of_core _ h
theorem restoreReq (c : Nat) (h : MsgHdr) (body : List Byte) : Statement (.restoreReq c h body) := fun h => of_core _ h
theorem restorePlacement (journey : Nat) : Statement (.restorePlacement journey) := fun h => of_core _ h
theorem attestReq (c : Nat) (h : MsgHdr) (body : List Byte) : Statement (.attestReq c h body) := fun h => of_core _ h
theorem resumeReq (c : Nat) (h : MsgHdr) (body : List Byte) : Statement (.resumeReq c h body) := fun h => of_core _ h
theorem mapReq (c : Nat) (h : MsgHdr) (body : List Byte) : Statement (.mapReq c h body) := fun h => of_core _ h
theorem unmapReq (c : Nat) (h : MsgHdr) (body : List Byte) : Statement (.unmapReq c h body) := fun h => of_core _ h
theorem exportReq (c : Nat) (h : MsgHdr) (body : List Byte) : Statement (.exportReq c h body) := fun h => of_core _ h
theorem windowReq (c : Nat) (h : MsgHdr) (body : List Byte) : Statement (.windowReq c h body) := fun h => of_core _ h
theorem faultsReq (c : Nat) (h : MsgHdr) (body : List Byte) : Statement (.faultsReq c h body) := fun h => of_core _ h
theorem replayReq (c : Nat) (h : MsgHdr) (body : List Byte) : Statement (.replayReq c h body) := fun h => of_core _ h
theorem powerReq (c : Nat) (h : MsgHdr) (body : List Byte) : Statement (.powerReq c h body) := fun h => of_core _ h
theorem roomCreate (c : Nat) (h : MsgHdr) (body : List Byte) : Statement (.roomCreate c h body) := fun h => of_core _ h
theorem roomResize (c : Nat) (h : MsgHdr) (body : List Byte) : Statement (.roomResize c h body) := fun h => of_core _ h
theorem roomDestroy (c : Nat) (h : MsgHdr) (body : List Byte) : Statement (.roomDestroy c h body) := fun h => of_core _ h
theorem unknownRequest (c : Nat) (h : MsgHdr) (body : List Byte) : Statement (.unknownRequest c h body) := fun h => of_core _ h
theorem debugOpen (c : Nat) (h : MsgHdr) (body : List Byte) : Statement (.debugOpen c h body) := fun h => of_core _ h
theorem debugClose (c : Nat) (h : MsgHdr) (body : List Byte) : Statement (.debugClose c h body) := fun h => of_core _ h
theorem debugHalt (c : Nat) (h : MsgHdr) (body : List Byte) : Statement (.debugHalt c h body) := fun h => of_core _ h
theorem debugResume (c : Nat) (h : MsgHdr) (body : List Byte) : Statement (.debugResume c h body) := fun h => of_core _ h
theorem readState (c : Nat) (h : MsgHdr) (body : List Byte) : Statement (.readState c h body) := fun h => of_core _ h
theorem writeState (c : Nat) (h : MsgHdr) (body : List Byte) : Statement (.writeState c h body) := fun h => of_core _ h
theorem setPoint (c : Nat) (h : MsgHdr) (body : List Byte) : Statement (.setPoint c h body) := fun h => of_core _ h
theorem sampling (c : Nat) (h : MsgHdr) (body : List Byte) : Statement (.sampling c h body) := fun h => of_core _ h
theorem delegate (c : Nat) (h : MsgHdr) (body : List Byte) : Statement (.delegate c h body) := fun h => of_core _ h
theorem sample (core : Nat) : Statement (.sample core) := fun h => of_core _ h
theorem resync (c : Nat) (h : MsgHdr) : Statement (.resync c h) := fun h => of_core _ h
theorem droppedMessage (endpoint : Nat) (h : MsgHdr) : Statement (.droppedMessage endpoint h) := fun h => of_core _ h
theorem unsupportedDeliveryPacket (endpoint : Nat) : Statement (.unsupportedDeliveryPacket endpoint) := fun h => of_core _ h
theorem tokenBucketRefill (room periods : Nat) : Statement (.tokenBucketRefill room periods) := fun h => of_core _ h
theorem correctedError (u : UnitId) : Statement (.correctedError u) := fun h => of_core _ h
theorem uncorrectedError (e : ErrSite) : Statement (.uncorrectedError e) := fun h => of_core _ h
theorem leafPermitTimeout (leaf : Nat) : Statement (.leafPermitTimeout leaf) := fun h => of_core _ h
theorem operatorFence (u : UnitId) : Statement (.operatorFence u) := fun h => of_core _ h
theorem fenceClear (u : UnitId) : Statement (.fenceClear u) := fun h => of_core _ h
theorem setErrorThreshold (k : UnitKind) (n : Nat) : Statement (.setErrorThreshold k n) := fun h => of_core _ h
theorem setPowerCap (watts : Nat) : Statement (.setPowerCap watts) := fun h => of_core _ h
theorem raiseFuses (f : FuseArg) (msg : List Byte) (r s : Nat) : Statement (.raiseFuses f msg r s) := fun h => of_core _ h
theorem firmwareImageWrite (image : List Byte) : Statement (.firmwareImageWrite image) := fun h => of_core _ h
theorem deviceReset (ready : BitVec 32) : Statement (.deviceReset ready) := fun h => of_core _ h
theorem leafReadyTimeout (leaf : Nat) : Statement (.leafReadyTimeout leaf) := fun h => of_core _ h
theorem leafPlacementCommand (leaf : Nat) : Statement (.leafPlacementCommand leaf) := fun h => of_core _ h
theorem placementRefusal (leaf : Nat) : Statement (.placementRefusal leaf) := fun h => of_core _ h
theorem permitReturn (leaf : Nat) (toLeaf : Bool) : Statement (.permitReturn leaf toLeaf) := fun h => of_core _ h
theorem powerInterval (clusterMj portMj : List Nat) : Statement (.powerInterval clusterMj portMj) := fun h => of_core _ h
theorem connectionOpen (c endpoint : Nat) : Statement (.connectionOpen c endpoint) := fun h => of_core _ h
theorem connectionClose (c : Nat) : Statement (.connectionClose c) := fun h => of_core _ h
theorem cxlLinkTraining (port width rate : Nat) : Statement (.cxlLinkTraining port width rate) := fun h => of_core _ h
theorem linePublication (line : Nat) : Statement (.linePublication line) := fun h => of_core _ h

end Sys2Proof.Laws.Encodes
end

