-- ==== Sys2Proof/Machine/Disassembler.lean ====
section
/-! DEFINITION. The disassembly of a scalar section (R157): which words are instructions, and what stands on each line. -/

namespace Sys2Proof.Machine

/-- A line of a disassembly, with the offset of the first word that it shows: an instruction with its modifiers, a `pfx` line, a `rep` line,
or a word that begins no legal instruction. -/
inductive DisLine where
  | instr (off : Nat) (i : Instr)
  | pfx (off : Nat) (rnd : Rnd) (sat ftz : Bool)
  | rep (off : Nat) (cnt : BitVec 8) (dstep astep bstep : BitVec 2) (astride : BitVec 12)
  | word (off : Nat) (w : Word32)
deriving DecidableEq, Repr

/-- Folds a modifier prefix at `off` into the line of its instruction; the line of the word behind it, a `rep` or the instruction, then begins
at the prefix, the instruction's address (R25, R156). -/
def foldPfx (off : Nat) (rnd : Rnd) (sat ftz : Bool) : DisLine → DisLine
  | .instr o i => .instr (if o == off + 4 then off else o) (.modifierPrefix rnd sat ftz i)
  | .rep o c d a b st => .rep (if o == off + 4 then off else o) c d a b st
  | l => l

/-- Whether an instruction accepts its prefixes (R26, R27, R29). -/
def prefixesFit (m : Option Mods) (r : Option RepArg) (i : Instr) : Bool :=
  !isTransfer i && (repForm i).any fun f => m.all (fun x => x.accepted i) && r.all fun x => x.ok f

/-- Whether a decoded instruction is a legal one with its prefixes. -/
def legalSequence : Instr → Bool
  | .modifierPrefix rnd sat ftz (.repPrefix c d a b st i) => prefixesFit (some ⟨rnd, sat, ftz⟩) (some (repArg c d a b st 1)) i
  | .repPrefix c d a b st (.modifierPrefix rnd sat ftz i) => prefixesFit (some ⟨rnd, sat, ftz⟩) (some (repArg c d a b st 0)) i
  | .modifierPrefix rnd sat ftz i => prefixesFit (some ⟨rnd, sat, ftz⟩) none i
  | .repPrefix c d a b st i => prefixesFit none (some (repArg c d a b st 0)) i
  | _ => true

/-- The lines of one decoded instruction (R157): a `rep` prefix stands on its own line, and a modifier prefix does where a label falls on the
word after it; `labels` are the offsets that labels name. -/
def disInstr (labels : List Nat) (off : Nat) : Instr → List DisLine
  | .modifierPrefix r s f i =>
    if labels.contains (off + 4) then .pfx off r s f :: disInstr labels (off + 4) i
    else (disInstr labels (off + 4) i).map (foldPfx off r s f)
  | .repPrefix c d a b st i => .rep off c d a b st :: disInstr labels (off + 4) i
  | i => [.instr off i]

/-- The lines of a scalar section from offset `off` on, at most as many instructions as `fuel`: it is decoded forward, one instruction at a
time, and the second word of an S64 instruction stands on no line (R157, R19). Behind a word that begins no legal instruction the very next
word is a start again, whatever it was meant for: the manual does not say where decoding goes on (DESIGN CHOICE, assumption 106). -/
def disWords (labels : List Nat) : Nat → Nat → List Word32 → List DisLine
  | 0, _, _ => []
  | _, _, [] => []
  | fuel + 1, off, w :: rest =>
    match decodeScalar (w :: rest) with
    | .ok i len =>
      if legalSequence i then disInstr labels off i ++ disWords labels fuel (off + 4 * len) ((w :: rest).drop len)
      else .word off w :: disWords labels fuel (off + 4) rest
    | _ => .word off w :: disWords labels fuel (off + 4) rest

/-- The disassembly of a scalar section whose labels name the offsets `labels` (R157). -/
def disassemble (labels : List Nat) (ws : List Word32) : List DisLine := disWords labels ws.length 0 ws

end Sys2Proof.Machine
end

