-- ==== Sys2Proof/Tests/Slice0.lean ====
section
/-! SUPPORT. Tests: ill-formed terms that WellFormed refuses, words that decode, one step of an instruction with results taken from the
manual's examples, and for every statement with hypotheses a state and operands that meet them. -/

namespace Sys2Proof.Tests
open Sys2Proof.Machine Sys2Proof.Claims

set_option Elab.async false

/-! ### Small states -/

/-- A handler with code in one page, 4 KiB of scratchpad, four tiles, all lane registers and the counting array. -/
def hand : Handler :=
  { sbase := 0x10000, ssize := 0x1000, lbase := 0x18000, lsize := 0x1200, scratch := 4096, lregs := 31, tiles := 4, counts := true, valid := true }
/-- A group of three events on core 0, slot 0. -/
def grp : Group := { handler := hand, spc := 0x10000, lpc := 0x18000, llink := 0x18000, nev := 3, insAddr := 0x10000, insLen := 1 }
def bnd : Band := { handler := hand, members := [0] }
/-- A table that maps the page of 64 KiB with number 1 to pool address 0x10000, with all rights. -/
def tbl : Table :=
  let d : TableDesc := { live := true }
  { cur := { d with slots := [(d.entryAt 0 (tableSlot 1 0 d), ⟨1, 0, true, true, true, false, 0x10000⟩)] } }
def jrn : Journey := { state := .running, handlers := [hand], tables := [tbl, {}, {}, {}], quota := 100 }
def rm : Room := { clusters := 1, extents := [⟨0, 0x200000⟩] }
/-- A small machine: one room, journey, band, group and core, with the group's focus taken. -/
def st (g : Group) (b : Band) (c : Core) (j : Journey) (r : Room) : State :=
  { State.reset with
    g := g, b := b, c := c, j := j, groups := [g], bands := [b], cores := [c], journeys := [j], rooms := [r] }
def st0 : State := st grp bnd {} jrn rm
/-- That machine with other scalar registers. -/
def stS (l : List (Nat × Word64)) : State := st { grp with s := l.foldl (fun v x => v.setIfInBounds x.1 x.2) grp.s } bnd {} jrn rm
/-- A pending operation of that group. -/
def opn (n : Nat) : Op := { slot := n, gen := 1, band := 0, group := 0, st := .pending, dstV := [], dstP := [], dstS := [], iaddr := 0x10000 }
/-- A request of that group's lane 1. -/
def rq : Req :=
  { core := 0, slot := 0, lane := 1, agent := .porter, pa := 0x10000, va := 0x10000, kind := .load .b32 12, acc := 3, iaddr := 0x10000, waddr := 0x18000 }


/-! ### Well-formedness: for each limit an instruction that breaks it -/

/-- A lane header without guard, mask or lookahead. -/
def h0 : LaneHdr := ⟨15, false, 0, false, 0⟩
/-- Address operands: without and with an index. -/
def m0 : LaneAddr := { base := 4, idx := false, b := 0, scale := 0, off := 0 }
theorem test_wf_scalar_fields :
    [Instr.bfx true 5 6 0 60 5, .bfx true 5 6 0 0 0, .bfi 5 6 0 1 64, .kand 0 1 2, .kball 1 12 0, .st .s8 5 6 0, .stspLong .s32 5 6 0 0, .sysr 5 5,
     .sysw 1 5, .lq 0, .lq 33, .push .se0 1 9 5 0, .push .se0 1 0 5 0].map Instr.wf = List.replicate 13 false := by decide
theorem test_wf_steps : [Instr.setPowerCap 1500, .illegalInstruction 0, .hareSearch 0].map Instr.wf = [false, false, false] := by decide
theorem test_wf_prefixes :
    [Instr.modifierPrefix .rs false false (.add 5 6 7), .modifierPrefix .rz false false (.modifierPrefix .rn true false (.add 5 6 7)),
     .repPrefix 1 0 0 0 0 (.repPrefix 1 0 0 0 0 (.add 5 6 7)), .modifierPrefix .rz false false (.laneMovi h0 10 5), .repPrefix 1 0 0 0 0 (.lq 0)].map Instr.wf =
    List.replicate 5 false := by decide
theorem test_wf_lane_registers :
    [Instr.iadd64 h0 7 2 4, .iadd64 h0 6 3 4, .fadd h0 .f64 .rn false 255 2 4, .ldG h0 .b128 6 m0, .ldG h0 .b64 255 m0, .acpyAr h0 250 7 0 false 0,
     .fdot16 h0 false .rn false false 20 253 4 8].map Instr.wf = List.replicate 7 false := by decide
theorem test_wf_lane_fields :
    [Instr.laneBfx h0 .s32 5 6 30 3, .fadd h0 .f32 .rs false 5 6 7, .cvt h0 .f32 .e4m3 .rn false 5 6 4, .cvt h0 .f64 .e4m3 .rn false 6 6 0,
     .xlaneLift h0 false .w4 5 6 4, .stS h0 .s8 5 m0, .cpGs h0 .n8 5 m0, .ldG h0 .b32 5 { m0 with b := 3 },
     .atom h0 .f32 .and .device 5 6 0 m0, .atom h0 .b32 .and .device 5 6 1 m0, .acpyRa h0 5 0 0 false 0, .acpyRa h0 5 2 63 false 0].map Instr.wf =
    List.replicate 12 false := by decide
theorem test_wf_guards_and_predicates :
    [Instr.laneMovi ⟨12, false, 0, false, 0⟩ 5 6, .laneMovi ⟨15, true, 0, false, 0⟩ 5 6, .pand h0 12 0 1, .pand h0 1 14 1].map Instr.wf =
    List.replicate 4 false := by decide

/-! ### Words of the manual -/

/-- R180: `waitp.sp s6`; R277: `push.se0 f1, s8, s7`; R27: a `rep` pair of chapter 02; R146: `nop`. -/
theorem test_decode_examples : decodeScalar [0x0500600A] = .ok (.waitpSp 6) 1 ∧ decodeScalar [0x500481C0, 0] = .ok (.push .se0 1 8 7 0) 2 ∧
    decodeScalar [0x05000003] = .ok .bar 1 ∧ decodeScalar [0x05000005] = .ok .barWait 1 := by decide
/-- R77, R82: fn 42 of op 0x00 and fn 5 of op 0x01 are illegal. -/
theorem test_decode_illegal : decodeScalar [0x0014602A] = .illegal 0 ∧ decodeScalar [0x01147005] = .illegal 0 := by decide
/-- FIPS 180-4: SHA-384 of "abc". -/
theorem test_sha384 : ofBe (sha384 [0x61, 0x62, 0x63]) =
    0xcb00753f45a35e8bb5a03d699ac65007272c32ab0eded1631a8b605a43ff5bed8086072ba1e7cc2358baeca134c825a7 := by decide +kernel

/-! ### One step, with results from the manual -/

/-- What a view sees of the state after an answer. -/
def after {α : Type} (o : Host.Outcome State Fault Refusal) (f : State → α) : Option α :=
  match o with
  | .next t => some (f t)
  | _ => none
/-- Scalar register after an answer. -/
def sAfter (o : Host.Outcome State Fault Refusal) (k : Nat) : Option Word64 := after o fun t => t.g.s.toList.getD k 0
/-- R79: a zero divisor gives all ones and leaves the dividend. -/
theorem test_div_zero : sAfter (exec (.divS64 5 6 7) (stS [(6, 9)])) 5 = some 0xFFFFFFFFFFFFFFFF ∧ sAfter (exec (.remN64 5 6 7) (stS [(6, 9)])) 5 = some 9 := by
  decide +kernel
/-- R79: the most negative number by minus one; a remainder takes its dividend's sign. -/
theorem test_div_signed : sAfter (exec (.divS64 5 6 7) (stS [(6, 0x8000000000000000), (7, 0xFFFFFFFFFFFFFFFF)])) 5 = some 0x8000000000000000 ∧
    sAfter (exec (.remS64 5 6 7) (stS [(6, 0xFFFFFFFFFFFFFFF9), (7, 2)])) 5 = some 0xFFFFFFFFFFFFFFFF := by decide +kernel
/-- R80: a count of 64 is not reduced. -/
theorem test_shift_by_64 : sAfter (exec (.shl 5 6 7) (stS [(6, 1), (7, 64)])) 5 = some 0 ∧
    sAfter (exec (.sar 5 6 7) (stS [(6, 0x8000000000000000), (7, 64)])) 5 = some 0xFFFFFFFFFFFFFFFF := by decide +kernel
/-- The 64-bit constant of chapter 04: its low half cleared above bit 31. -/
theorem test_constant : sAfter (exec (.bfx false 6 6 0 0 32) (stS [(6, 0xFFFFFFFF89ABCDEF)])) 6 = some 0x89ABCDEF := by decide +kernel
/-- R81: under sat a sum clamps, with the sat flag. -/
theorem test_add_sat : after (exec (.add 5 6 7) { stS [(6, 0x7FFFFFFFFFFFFFFF), (7, 1)] with
    g := { (stS [(6, 0x7FFFFFFFFFFFFFFF), (7, 1)]).g with md := { sat := true } } }) (fun t => (t.g.s.toList.getD 5 0, t.g.fpflags)) =
    some (0x7FFFFFFFFFFFFFFF, 32) := by decide +kernel
/-- R82: the absolute value of the most negative number. -/
theorem test_abs_min : sAfter (exec (.abs 5 6) (stS [(6, 0x8000000000000000)])) 5 = some 0x8000000000000000 := by decide +kernel
/-- R75: `s0` discards. -/
theorem test_write_s0 : sAfter (exec (.movi 0 5) st0) 0 = some 0 := by decide +kernel
/-- A lane word over registers 4, 5 and 6 of every lane. -/
def laneSt (a b c : Word32) : State :=
  let g := { grp with v := (((grp.v.set 4 (Vector.replicate 32 a)).set 5 (Vector.replicate 32 b)).set 6 (Vector.replicate 32 c)),
                      lq := [{ ins := .laneMovi h0 0 0, addr := 0x18000, lqAddr := 0x10000, mask := 0xFFFFFFFF, base := 0 }],
                      ictx := { mask := 0xFFFFFFFF, base := 0, addr := 0x18000, lqAddr := 0x10000 } }
  st g bnd {} jrn rm
/-- Lane register and flags after an answer. -/
def vAfter (o : Host.Outcome State Fault Refusal) (k i : Nat) : Option (Word32 × Word32) :=
  after o fun t => (laneOf (t.g.v.toList.getD k (Vector.replicate 32 0)) i, t.g.fpflags)
/-- R106: table 0x28 is a AND (b XOR c); helper and empty lanes do not act (R101). -/
theorem test_bmux : vAfter (exec (.bmux h0 10 4 5 6 0x28) (laneSt 0xF0F0F0F0 0xCCCCCCCC 0xAAAAAAAA)) 10 0 = some (0x60606060, 0) ∧
    vAfter (exec (.bmux h0 10 4 5 6 0x28) (laneSt 0xF0F0F0F0 0xCCCCCCCC 0xAAAAAAAA)) 10 3 = some (0, 0) := by decide +kernel
/-- R65: 2^-129 is delivered as code 0 with underflow and inexact; a value that rounds to 2^-127 gives code 0 with inexact alone. -/
def packSt (x : Word32) : State :=
  let s := laneSt x x x
  { s with g := { s.g with v := Vector.replicate 256 (Vector.replicate 32 x) } }
theorem test_e8m0_tiny : vAfter (exec (.cvt h0 .e8m0 .f32 .rn false 10 4 0) (packSt 0x00100000)) 10 0 = some (0, 24) ∧
    vAfter (exec (.cvt h0 .e8m0 .f32 .rn false 10 4 0) (packSt 0x0039999A)) 10 0 = some (0, 16) := by decide +kernel
/-- Chapter 06's segsum: six event lanes that hold 10 to 60, and head flags in lanes 2 and 4. -/
def segSt : State :=
  let s := laneSt 0 0 0
  let v0 : Vector Word32 32 := Vector.ofFn fun i => if i.val < 6 then BitVec.ofNat 32 (10 * (i.val + 1)) else 0
  { s with g := { s.g with nev := 6, v := s.g.v.set 0 v0, p := s.g.p.set 0 0x14 } }
theorem test_segsum_sred : after (exec (.sred h0 .s32 .add 10 0 1 0) segSt)
    (fun t => ((List.range 8).map fun i => laneOf (t.g.v.toList.getD 10 (Vector.replicate 32 0)) i, t.g.p.toList.getD 1 0)) =
    some ([0, 30, 0, 70, 0, 110, 0, 0], 0x2A) := by decide +kernel
theorem test_segsum_scan : after (exec (.scan h0 .s32 .add false 11 0) segSt)
    (fun t => (List.range 8).map fun i => laneOf (t.g.v.toList.getD 11 (Vector.replicate 32 0)) i) = some [10, 30, 60, 100, 150, 210, 0, 0] := by
  decide +kernel
theorem test_segsum_qswap : after (exec (.qswapV ⟨15, false, 0, true, 0⟩ false 13 0) segSt)
    (fun t => (List.range 8).map fun i => laneOf (t.g.v.toList.getD 13 (Vector.replicate 32 0)) i) = some [30, 40, 10, 20, 0, 0, 50, 60] := by
  decide +kernel

/-! ### Witnesses: scalar registers -/

/-- Two registers at the ends of the signed range. -/
def sEnds : State := stS [(6, 0x7FFFFFFFFFFFFFFF), (7, 1), (8, 0x8000000000000000)]
def sEndsSat : State := { sEnds with g := { sEnds.g with md := { sat := true } } }

theorem wit_ScalarSumsAndProducts_wrap : exactRule sEnds (.add 5 6 7) = some (5, 0, 2 ^ 63) ∧ sEnds.openS 5 = false ∧
    sEnds.g.md.sat = false := by decide
theorem wit_ScalarSumsAndProducts_high : exactRule sEndsSat (.add 5 6 7) = some (5, 0, 2 ^ 63) ∧ sEndsSat.openS 5 = false ∧
    sEndsSat.g.md.sat = true := by decide
theorem wit_ScalarSumsAndProducts_low : exactRule sEndsSat (.sub 5 8 7) = some (5, 0, -(2 ^ 63) - 1) ∧ sEndsSat.openS 5 = false := by decide
theorem wit_ScalarSumsAndProducts_inside : exactRule sEndsSat (.addLong 5 6 2 0) = some (5, 2, 2 ^ 63 - 1) ∧ sEndsSat.openS 5 = false := by decide
theorem wit_ScalarIntegerValues : (Instr.divS64 5 8 9).wf = true ∧
    valueRule sEnds (.divS64 5 8 9) = some (5, 0, 0xFFFFFFFFFFFFFFFF) ∧ sEnds.openS 5 = false := by decide
theorem wit_ScalarIntegerValues_discarded : (Instr.clz 0 7).wf = true ∧ valueRule sEnds (.clz 0 7) = some (0, 0, 63) ∧
    sEnds.openS 0 = false := by decide
theorem wit_ScalarFloatResults : floatRule (stS [(6, 0x3FF0000000000000), (7, 0x4000000000000000)]) (.faddF64 5 6 7) =
    some (5, 0, 0x4008000000000000, 0) ∧ (stS [(6, 0x3FF0000000000000), (7, 0x4000000000000000)]).openS 5 = false := by decide
theorem wit_RoundingToFormats_one : fp32 ∈ formats ∧ 0x3F800000 < 2 ^ fp32.width ∧ fp32.decode 0x3F800000 = .fin false (2 ^ 23) (-23) := by decide
theorem wit_RoundingToFormats_smallest : fe2m1 ∈ formats ∧ 0xF < 2 ^ fe2m1.width ∧ fe2m1.decode 0xF = .fin true 3 1 := by decide
/-- R61, R63: 2.5 ties between 2 and 3 in E2M1; 2^-150 is half the smallest binary32 subnormal; 480 lies above the greatest E4M3 number. -/
theorem wit_RoundingToFormats_between : fe2m1 ∈ formats ∧ between fe2m1 (5, -1) 4 ∧ fp32 ∈ formats ∧ between fp32 (1, -150) 0 ∧ fe4m3 ∈ formats ∧
    between fe4m3 (480, 0) 0x7F := by
  simp only [between]; decide
theorem wit_RoundingToFormats_operations : fp32 ∈ [fp64, fp32, fp16, bf16] ∧ Rnd.rn ≠ .rs ∧
    fp32.input false 0x3F800000 = .fin false (2 ^ 23) (-23) ∧ fp32.input false 0xB3800000 = .fin true (2 ^ 23) (-47) ∧
    between fp32 (2 ^ 23 * 2 ^ 23, -23 + -47) 0x33800000 ∧ between fp32 (2 ^ 47 - 2 ^ 23, -47) 0x3F7FFFFF := by
  simp only [between]; decide
theorem wit_MaskInstructions : maskRule st0 (.knot 3 0) = some (3, 0xFFFFFFF8) := by decide
theorem wit_MaskInstructions_ballot : st0.g.lq = [] ∧ st0.hasReqs = false ∧ (11 : PReg).toNat < 12 := by decide
theorem wit_ModifierPrefixApplies : modifierOk .rz false true (.faddF64 8 9 10) :=
  ⟨true, false, true, rfl, by decide⟩
theorem wit_RepPrefixRepeats : Binary Instr.add (· + ·) ∧ (5 : SReg).toNat + (29 : BitVec 8).toNat * (2 : BitVec 2).toNat ≤ 63 ∧
    (0 : SReg).toNat + (29 : BitVec 8).toNat * (1 : BitVec 2).toNat ≤ 63 ∧ (63 : SReg).toNat + (29 : BitVec 8).toNat * (0 : BitVec 2).toNat ≤ 63 ∧
    st0.g.repi = 0 ∧ st0.g.winS = [] ∧ st0.g.ahead.back = none ∧ st0.c.ops = [] ∧ st0.reqs = [] ∧ 1 ≤ st0.g.insLen ∧ st0.g.insLen ≤ 4 :=
  ⟨.add, by decide⟩
/-- `add` under both prefixes, and a store under `rep` with a stride, in the midst of their repetitions and in their last. -/
def sRep (k : Nat) : State := { stS [(6, 7), (8, 5)] with g := { (stS [(6, 7), (8, 5)]).g with repi := BitVec.ofNat 9 k, insLen := 3 } }
def repAdd : RepRule := (2, 1, 0, 0, 0)
def repStsp : RepRule := (2, 0, 0, 0, 8)
theorem wit_RepPrefixRepeats_add (k : Nat) (h : k = 1 ∨ k = 2) :
    prefixSeq (.modifierPrefix .rn true false (.repPrefix 2 1 0 0 0 (.addImm 9 6 1))) = some (some (.rn, true, false), some (repAdd, 1), 2, .addImm 9 6 1) ∧
    modsFit (some (.rn, true, false)) (.addImm 9 6 1) ∧ repFields (.addImm 9 6 1) = some (some 9, some 6, none, false) ∧
    repFits repAdd (some 9, some 6, none, false) ∧ (sRep k).c.ops = [] ∧ (sRep k).reqs = [] ∧ (sRep k).g.repi.toNat ≤ (2 : BitVec 8).toNat ∧
    ∃ t, exec (repetition repAdd (sRep k).g.repi.toNat (.addImm 9 6 1)) (atRepetition (sRep k) (some (.rn, true, false)) repAdd (sRep k).g.repi.toNat) = .next t ∧
      t.g.insAddr = (sRep k).g.insAddr ∧ t.g.spc ≠ (sRep k).g.insAddr := by
  rcases h with rfl | rfl <;>
    exact ⟨rfl, ⟨false, true, false, rfl, by decide⟩, rfl, by simp only [repFits, stepFits]; decide, rfl, rfl, by decide, _, rfl, rfl, by decide⟩
/-- A store waits while its path's counter is full. -/
theorem wit_RepPrefixRepeats_waits : prefixSeq (.repPrefix 2 0 0 0 8 (.stsp .b64 8 0 8)) = some (none, some (repStsp, 0), 1, .stsp .b64 8 0 8) ∧
    repFields (.stsp .b64 8 0 8) = some (some 8, some 0, none, true) ∧ repFits repStsp (some 8, some 0, none, true) ∧
    let s : State := st { grp with acc := List.replicate 63 ⟨.st, false, 1⟩, repi := 1 } bnd {} jrn rm
    s.c.ops = [] ∧ s.reqs = [] ∧ s.g.repi.toNat ≤ (2 : BitVec 8).toNat ∧
    ∃ t, exec (repetition repStsp s.g.repi.toNat (.stsp .b64 8 0 8)) (atRepetition s none repStsp s.g.repi.toNat) = .next t ∧
      t.g.insAddr = s.g.insAddr ∧ t.g.spc = s.g.insAddr :=
  ⟨rfl, rfl, by simp only [repFits, stepFits]; decide, rfl, rfl, by decide, _, rfl, rfl, rfl⟩
theorem wit_PrefixRefusals_transfer : isTransferRule .exit = true ∧
    prefixSeq (.modifierPrefix .rz false false (.repPrefix 1 0 0 0 0 (.bCc .eq 1 2 0 5))) =
      some (some (.rz, false, false), some ((1, 0, 0, 0, 0), 1), 2, .bCc .eq 1 2 0 5) ∧ isTransferRule (.bCc .eq 1 2 0 5) = true := ⟨rfl, rfl, rfl⟩
/-- Saturation before `fadd`, `rep` before `nop`, and a step past register 63. -/
theorem wit_PrefixRefusals_field : prefixSeq (.modifierPrefix .rn true false (.faddF64 5 6 7)) = some (some (.rn, true, false), none, 1, .faddF64 5 6 7) ∧
    isTransferRule (.faddF64 5 6 7) = false ∧ ¬ modsFit (some (.rn, true, false)) (.faddF64 5 6 7) :=
  ⟨rfl, rfl, by rintro ⟨r, t, z, h, -, ht, -⟩; cases h; exact absurd (ht rfl) (by decide)⟩
theorem wit_PrefixRefusals_rep : prefixSeq (.repPrefix 1 0 0 0 0 .nop) = some (none, some ((1, 0, 0, 0, 0), 0), 1, .nop) ∧ isTransferRule .nop = false ∧
    repFields .nop = none := ⟨rfl, rfl, rfl⟩
theorem wit_PrefixRefusals_step : prefixSeq (.repPrefix 4 3 0 0 0 (.mov 52 6)) = some (none, some ((4, 3, 0, 0, 0), 0), 1, .mov 52 6) ∧
    isTransferRule (.mov 52 6) = false ∧ modsFit none (.mov 52 6) ∧ repFields (.mov 52 6) = some (some 52, some 6, none, false) ∧
    ¬ repFits (4, 3, 0, 0, 0) (some 52, some 6, none, false) :=
  ⟨rfl, rfl, trivial, rfl, by simp only [repFits, stepFits]; decide⟩

/-! ### Witnesses: traps -/

theorem wit_TrapRecordsAndHolds : st0.doneOrParked = true ∧ st0.room? st0.g.room = some rm ∧ rm.faultq.length < 1024 ∧ 0x1B < 256 ∧
    st0.g.journey < 256 ∧ st0.g.core < 256 ∧ st0.g.slot < 64 ∧ st0.g.band < 256 ∧ ({ info := 4095 } : TrapArg).info < 2 ^ 32 ∧
    ({ info := 4095 } : TrapArg).access < 8 := by decide
theorem wit_TrapRecordsAndHolds_waits :
    ({ st0 with reqs := [rq] } : State).doneOrParked = false := by decide
theorem wit_UserTrap : st0.doneOrParked = true ∧ st0.room? st0.g.room = some rm ∧ rm.faultq.length < 1024 ∧ st0.g.journey < 256 ∧
    st0.g.core < 256 ∧ st0.g.slot < 64 ∧ st0.g.band < 256 ∧ st0.g.park = none ∧ st0.g.lpark = none := by decide
theorem wit_TrapInstructions_resume : ({ grp with hold := .trap true } : Group).hold = .trap true ∧
    ({ grp with hold := .trap true } : Group).park = none ∧ ({ grp with hold := .trap true } : Group).lpark = none := by decide
theorem wit_TrapInstructions_noSession : st0.sessionOf st0.g.room = none := by decide

/-! ### Witnesses: scalar memory -/

/-- Memory and scratchpad with a few bytes, and addresses at the page's last word and the allocation's last byte. -/
def sMem : State :=
  { st { grp with s := ((grp.s.set 6 0x10000).set 7 0x1FFF8).set 8 0x11223344556677F8 }
      { bnd with spm := [(8, 0x11), (9, 0x92), (4095, 0x80)], wide := [(8, 1)] } {} jrn rm with
    mem := [(0x10004, 3), (0x1FFF8, 0xF1), (0x1FFFF, 0x82)] }

theorem wit_ScalarLoads_short : loadRule sMem (.ld .s16 5 6 2) = some (.s16, 5, 0, 0x10004) ∧ sMem.g.repOff = 0 ∧
    (0x10004 : Word64).toNat % widthBytes .s16 = 0 ∧ mayCount sMem .ld ∧ (sMem.xlate none needR 0x10004).2 = .pool 0x10004 ∧
    quiet sMem 0x10004 2 ∧ sMem.openS 5 = false := by
  simp only [mayCount, quiet]; decide
theorem wit_ScalarLoads_last : loadRule sMem (.ldLong .b64 0 6 1 0xFFF8) = some (.b64, 0, 1, 0x1FFF8) ∧ sMem.g.repOff = 0 ∧
    (0x1FFF8 : Word64).toNat % widthBytes .b64 = 0 ∧ mayCount sMem .ld ∧ (sMem.xlate none needR 0x1FFF8).2 = .pool 0x1FFF8 ∧
    quiet sMem 0x1FFF8 8 ∧ sMem.openS 0 = false := by
  simp only [mayCount, quiet]; decide
theorem wit_ScalarLoads_scratch : localLoadRule sMem (.ldspLong .s8 5 0 0 0xFFF) = some (.s8, 5, 0, 0xFFF) ∧ sMem.g.repOff = 0 ∧
    (0xFFF : Word64).toNat % widthBytes .s8 = 0 ∧ (0xFFF : Word64).toNat + widthBytes .s8 ≤ sMem.b.handler.allocation ∧
    sMem.b.handler.allocation < 2 ^ 32 ∧ mayCount sMem .ld ∧ plainSp sMem 0xFFF 1 ∧ sMem.openS 5 = false := by
  simp only [mayCount, plainSp]; decide
theorem wit_ScalarStores : (Instr.st .b64 8 7 0).wf = true ∧ storeRule sMem (.st .b64 8 7 0) = some (.b64, 8, 0x1FFF8) ∧ sMem.g.repOff = 0 ∧
    (0x1FFF8 : Word64).toNat % widthBytes .b64 = 0 ∧ mayCount sMem .st ∧ (sMem.xlate none needW 0x1FFF8).2 = .pool 0x1FFF8 ∧
    quiet sMem 0x1FFF8 8 ∧ Memory.wf sMem.mem = true := by
  simp only [mayCount, quiet]; decide
theorem wit_ScalarStores_scratch : (Instr.stsp .n16 8 0 4).wf = true ∧ localStoreRule sMem (.stsp .n16 8 0 4) = some (.n16, 8, 8) ∧
    sMem.g.repOff = 0 ∧ (8 : Word64).toNat % widthBytes .n16 = 0 ∧ (8 : Word64).toNat + widthBytes .n16 ≤ sMem.b.handler.allocation ∧
    sMem.b.handler.allocation < 2 ^ 32 ∧ mayCount sMem .st ∧ plainSp sMem 8 2 ∧ Memory.wf sMem.b.spm = true := by
  simp only [mayCount, plainSp]; decide
theorem wit_ScalarAccessTraps_load : loadRule sMem (.ldLong .b64 5 6 0 4) = some (.b64, 5, 0, 0x10004) ∧ sMem.g.repOff = 0 ∧
    (0x10004 : Word64).toNat % widthBytes .b64 ≠ 0 := by decide
theorem wit_ScalarAccessTraps_store : localStoreRule sMem (.stspLong .n16 8 6 0 1) = some (.n16, 8, 0x10001) ∧ sMem.g.repOff = 0 ∧
    (0x10001 : Word64).toNat % widthBytes .n16 ≠ 0 := by decide
theorem wit_ScalarAccessTraps_loadOutside : localLoadRule sMem (.ldspLong .b64 5 0 0 0x1000) = some (.b64, 5, 0, 0x1000) ∧ sMem.g.repOff = 0 ∧
    (0x1000 : Word64).toNat % widthBytes .b64 = 0 ∧ (sMem.b.handler.allocation : Int) < (0x1000 : Word64).toInt + widthBytes .b64 := by decide
theorem wit_ScalarAccessTraps_storeBelow : localStoreRule sMem (.stsp .b64 8 0 (-1)) = some (.b64, 8, -8) ∧ sMem.g.repOff = 0 ∧
    (-8 : Word64).toNat % widthBytes .b64 = 0 ∧ (-8 : Word64).toInt < 0 := by decide

/-! ### Witnesses: special registers and control -/

/-- Code in memory: `add` at the section's start, a prefix behind it, the words that precede two targets. -/
def sCode : State :=
  { st { grp with s := ((grp.s.set 6 0x10008).set 7 0x10006).set 63 0x20000, llink := 0x18018, lpc := 0x1800C } bnd {} jrn rm with
    mem := [(0x10000, 0xC0), (0x10001, 0x61), (0x10002, 0x14), (0x10007, 0x84), (0x1000A, 0x80), (0x1800B, 0x04)] }

theorem wit_SpecialRegisters_read : specialRule st0 (0x020 : BitVec 12).toNat = some 0 ∧ st0.openS 5 = false := by decide
theorem wit_SpecialRegisters_flags : specialRule st0 (0 : BitVec 12).toNat = some 0 ∧ st0.allDone = true ∧ st0.openS 5 = false := by decide
theorem wit_TransfersReachTargets_taken : transferRule sCode .ret = some (true, 0x20000) ∧ (0x20000 : Word64).toNat % 4 = 0 ∧
    sCode.openS 63 = false ∧ ¬ (inScalar sCode 0x20000 ∧ inScalar sCode (0x20000 - 4)) := by
  simp only [inScalar]; decide
theorem wit_TransfersReachTargets_start : transferRule sCode (.call 0) = some (true, 0x10000) ∧ (0x10000 : Word64).toNat % 4 = 0 ∧
    sCode.openS 63 = false ∧ ¬ (inScalar sCode 0x10000 ∧ inScalar sCode (0x10000 - 4)) := by
  simp only [inScalar]; decide
theorem wit_TransfersReachTargets_not : transferRule sCode (.bz 6 3) = some (false, 0x1000C) ∧ (0x1000C : Word64).toNat % 4 = 0 ∧
    sCode.openS 63 = false := by decide
theorem wit_LandingCheckAndTargetAlign_prefix : (sCode.wordAt (0x10008 - 4)).1.g = sCode.g ∧ transferRule sCode (.jmpi 6) = some (true, 0x10008) ∧ (0x10008 : Word64).toNat % 4 = 0 ∧
    inScalar sCode 0x10008 ∧ inScalar sCode (0x10008 - 4) ∧ (sCode.wordAt (0x10008 - 4)).2 = .inl 0x84000000 ∧
    (sCode.wordAt (0x10008 - 4)).1.openS 63 = false := by
  refine ⟨rfl, ?_⟩; simp only [inScalar]; decide +kernel
theorem wit_LandingCheckAndTargetAlign_plain : (sCode.wordAt (0x10004 - 4)).1.g = sCode.g ∧ transferRule sCode (.br 1) = some (true, 0x10004) ∧ (0x10004 : Word64).toNat % 4 = 0 ∧
    inScalar sCode 0x10004 ∧ inScalar sCode (0x10004 - 4) ∧ (sCode.wordAt (0x10004 - 4)).2 = .inl 0x001461C0 ∧
    (sCode.wordAt (0x10004 - 4)).1.openS 63 = false := by
  refine ⟨rfl, ?_⟩; simp only [inScalar]; decide +kernel
theorem wit_LandingCheckAndTargetAlign_jmpi : (sCode.sreg 7).toNat % 4 ≠ 0 := by decide
theorem wit_LandingCheckAndTargetAlign_ret : ((stS [(63, 0x10002)]).sreg 63).toNat % 4 ≠ 0 := by decide
theorem wit_LandingCheckAndTargetAlign_lret :
    (({ grp with llink := 0x18004 } : Group).llink.toInt - grp.handler.lbase.toInt) % 12 ≠ 0 := by decide
theorem wit_LaneSteering : laneRule st0 (.lcall (-1)) = some (0x18000, 0x17FF4) := by decide
theorem wit_LandingCheckAndTargetAlign_lretOn : (sCode.g.llink.toInt - sCode.g.handler.lbase.toInt) % 12 = 0 := by decide
/-- The nonzero bytes of a little-endian number of n bytes at an address. -/
def place (a n x : Nat) : Memory :=
  (List.range n).filterMap fun k => let y : Byte := BitVec.ofNat 8 (x / 2 ^ (8 * k)); if y = 0 then none else some (a + k, y)

/-- Two lane words at the lane section's start: `movi v10, 0.3` and `pand p5, p0, p0`. -/
def sLane : State :=
  { st0 with mem := place 0x18000 12 0x390A000000F000023E99999A ++ place 0x1800C 12 0x1905000000F0000000000000 }

theorem wit_LqEnqueues : (sLane.laneWords (1 : BitVec 12).toNat sLane.g.lpc).2 = ([(.laneMovi plainHdr 10 0x3E99999A, 0x18000)], none) ∧
    sLane.g.lq.length + (1 : BitVec 12).toNat ≤ 32 ∧
    (sLane.laneWords (1 : BitVec 12).toNat sLane.g.lpc).1.laneBreak [(.laneMovi plainHdr 10 0x3E99999A, 0x18000)] = false ∧
    (sLane.laneWords (1 : BitVec 12).toNat sLane.g.lpc).1.busyS
      ([((Instr.laneMovi plainHdr 10 0x3E99999A), (0x18000 : Word64))].filterMap fun w => laneBase w.1) = false :=
  ⟨rfl, by decide +kernel⟩
theorem wit_ExitRetiresGroup : st0.allDone = true ∧ st0.anyPending = false ∧ st0.g.guard = none ∧ st0.sessionOf st0.g.room = none := by decide

/-! ### Witnesses: fences, barriers, waits, futures, rings -/

/-- Two unpublished lines, one with a write-back queued; a write queue of the band. -/
def sFab : State :=
  st { grp with winS := [⟨5, 1, 3, none⟩] } { bnd with spm := [(4, 2)], wq := [(4, 2)] } {} { jrn with dirty := [3, 9], wbs := [⟨9, 0⟩], nextFence := 1 } rm
theorem wit_FencesPassAndPublish_sc : sFab.allDone = true ∧ sFab.anyPending = false ∧ sFab.pathCount .sp = 0 ∧ sFab.pathCount .ga = 0 := by decide
theorem wit_FencesPassAndPublish_fabric : sFab.allDone = true ∧ sFab.pathCount .st < 63 := by decide
/-- A line of a page of the journey that another journey of the room has stored to. -/
def jMate : Journey := { jrn with num := 1, dirty := [0x201] }
theorem wit_FencesPassAndPublish_roomMate : ({ sFab with journeys := [sFab.j, jMate] } : State).allDone = true ∧
    unpublished { sFab with journeys := [sFab.j, jMate] } 0x201 :=
  ⟨by decide, .inr (.inr ⟨jMate, ⟨List.mem_cons_of_mem _ (List.mem_singleton.mpr rfl), rfl, by decide⟩, by decide, by decide +kernel⟩)⟩

/-- A band of two groups in phase 1, whose group 1 has arrived. -/
def sBar : State := st grp { bnd with members := [0, 1], size := 2, phase := 1, arrived := [1] } {} jrn rm
/-- The same with the group waiting behind its arrival; phase 1 is complete. -/
def sBarMid : State := st { grp with mid := true, arrB := some 1 } { bnd with members := [0, 1], size := 2, phase := 2 } {} jrn rm
/-- A gang of two bands. -/
def gangB : GangBar := ⟨3, [(0, 0), (1, 0)], 5, [(1, 0)]⟩
def sGang : State := st { grp with gang := 3, mid := true, arrG := some 4 } { bnd with gang := 3 } {} { jrn with gangs := [gangB] } rm
def grd : Guard := ⟨0x1800C, 0x10000, 2, 0x1000, 1, 3⟩
def sGuard : State := st { grp with guard := some grd } bnd {} jrn rm
theorem wit_BarriersAndGuardRecords_arrive : sBar.g.guard = none ∧ sBar.allDone = true ∧ sBar.g.arrB ≠ some sBar.b.phase ∧
    sBar.g.mid = false := by decide
theorem wit_BarriersAndGuardRecords_pass : sBarMid.g.mid = true ∧ sBarMid.g.arrB ≠ some sBarMid.b.phase ∧ sBarMid.g.guard = none ∧
    sBarMid.gangBar = none := by decide
/-- The gang's group before its arrival. -/
def sGangIn : State := st { grp with gang := 3 } { bnd with gang := 3 } {} { jrn with gangs := [gangB] } rm
theorem wit_BarriersAndGuardRecords_gang_arrive : sGangIn.gangBar = some gangB ∧ sGangIn.g.mid = false ∧ sGangIn.g.guard = none ∧
    sGangIn.allDone = true ∧ sGangIn.g.arrG ≠ some gangB.phase := by decide
theorem wit_BarriersAndGuardRecords_gang : sGang.gangBar = some gangB ∧ sGang.g.mid = true ∧ sGang.g.arrG ≠ some gangB.phase := by decide
theorem wit_BarriersAndGuardRecords_guard : Instr.gbar ∈ [Instr.bar, .barArrive, .gbar, .exit] ∧ sGuard.g.guard = some grd ∧
    sGuard.allDone = true ∧ sGuard.g.mid = false := by
  decide

/-- 63 counted accesses on a path. -/
def sFull : State := st { grp with acc := List.replicate 63 ⟨.ld, false, 1⟩, s := grp.s.set 6 62 } bnd {} jrn rm
theorem wit_WaitpThreshold_waits : (Instr.waitpLd 6, Path.ld) ∈ [(.waitpLd 6, .ld), (.waitpSt 6, .st), (.waitpSp 6, .sp), (.waitpGa 6, Path.ga)] ∧
    (sFull.sreg 6).toNat < sFull.pathCount .ld := by decide
theorem wit_WaitpThreshold_passes : (Instr.waitpSt 6, Path.st) ∈ [(.waitpLd 6, .ld), (.waitpSt 6, .st), (.waitpSp 6, .sp), (.waitpGa 6, Path.ga)] ∧
    sFull.pathCount .st ≤ (sFull.sreg 6).toNat := by decide

/-- Futures: f1 done, f2 pending, f3 stale, the others empty. -/
def sFut : State :=
  st { grp with f := ((grp.f.set 1 (.held (State.tokenOf 0 1 4))).set 2 (.held (State.tokenOf 0 1 5))).set 3 (.stale 9) } bnd
    { ops := [{ opn 4 with st := .done }, opn 5] } jrn rm
theorem wit_FuturesAnswer_done : Instr.fcancel 7 1 ∈ [Instr.ftest 7 1, .fwait 7 1, .fcancel 7 1] ∧ sFut.fPending 1 = false ∧
    sFut.openS 7 = false ∧ sFut.futureStatus 1 = 2 := by decide
theorem wit_FuturesAnswer_get : sFut.fPending 3 = false ∧ sFut.openS 7 = false ∧ sFut.g.f[(3 : FReg).toNat] = .stale 9 := by decide
theorem wit_FuturesAnswer_put : sFut.fPending 15 = false ∧ sFut.sreg 0 = 0 := by decide
/-- Tokens of an operation that no future holds, of one that a future holds, and of none. -/
def sPut (n : Nat) : State := st { sFut.g with s := grp.s.set 6 (State.tokenOf 0 1 n) } bnd { ops := [{ opn 4 with st := .done }, opn 5, opn 6] } jrn rm
theorem wit_FuturesAnswer_putLive : (sPut 6).fPending 15 = false ∧ (sPut 6).opOf 15 = none ∧ (sPut 6).sreg 6 ≠ 0 ∧ ((sPut 6).sreg 6).toNat < 2 ^ 40 ∧
    (sPut 6).opOfToken ((sPut 6).sreg 6) = some (opn 6) ∧ (sPut 6).opHeld (opn 6) = false := by decide
theorem wit_FuturesAnswer_putHeld : (sPut 5).fPending 15 = false ∧ (sPut 5).opOf 15 = none ∧ (sPut 5).sreg 6 ≠ 0 ∧ ((sPut 5).sreg 6).toNat < 2 ^ 40 ∧
    (sPut 5).opOfToken ((sPut 5).sreg 6) = some (opn 5) ∧ (sPut 5).opHeld (opn 5) = true := by decide
theorem wit_FuturesAnswer_putStale : (sPut 9).fPending 15 = false ∧ (sPut 9).sreg 6 ≠ 0 ∧ ((sPut 9).sreg 6).toNat < 2 ^ 40 ∧
    (sPut 9).opOfToken ((sPut 9).sreg 6) = none := by decide
theorem wit_FuturesAnswer_pending : sFut.fPending 2 = true ∧ sFut.openS 7 = false := by decide
/-- Future f2 pending on an operation of the Drover, or of a stream engine. -/
def sCan (o : Op) (drv : List DrvEnt) (se : List SeCmd) : State :=
  st { grp with f := grp.f.set 2 (.held (State.tokenOf 0 1 5)) } bnd { ops := [o], drv := drv, se0 := se } jrn rm
theorem wit_FuturesAnswer_noCancel : (sCan { opn 5 with noCancel := true } [] []).opOf 2 = some { opn 5 with noCancel := true } ∧
    ({ opn 5 with noCancel := true } : Op).st = .pending := by decide
def drvC (cmd : DrvCmd) (got : List Item) : DrvEnt := { op := some 5, band := 0, group := 0, cmd := cmd, got := got }
theorem wit_FuturesAnswer_drover (cmd : DrvCmd) (got : List Item) : (sCan (opn 5) [drvC cmd got] []).opOf 2 = some (opn 5) ∧ (opn 5).st = .pending ∧
    (opn 5).noCancel = false ∧ (sCan (opn 5) [drvC cmd got] []).c.eng = [] ∧ (sCan (opn 5) [drvC cmd got] []).c.se0 = [] ∧
    (sCan (opn 5) [drvC cmd got] []).c.se1 = [] ∧ (sCan (opn 5) [drvC cmd got] []).c.drv = [drvC cmd got] ∧ (drvC cmd got).op = some (opn 5).slot ∧
    (sCan (opn 5) [drvC cmd got] []).openS 7 = false := ⟨rfl, rfl, rfl, rfl, rfl, rfl, rfl, rfl, rfl⟩
def seW : SeCmd := { op := 5, band := 0, group := 0, regs := [1 + 2 * 2 ^ 32, 0x200, 0, 0, 0, 0, 0, 0] }
theorem wit_FuturesAnswer_stream : (sCan (opn 5) [] [seW]).opOf 2 = some (opn 5) ∧ (sCan (opn 5) [] [seW]).c.eng = [] ∧
    (sCan (opn 5) [] [seW]).c.se0 = seW :: [] ∧ seW.op = (opn 5).slot ∧ seW.started = false ∧ seW.elems = [] ∧ seW.put = 0 ∧ seW.fl = 0 ∧
    (sCan (opn 5) [] [seW]).openS 7 = false := ⟨rfl, rfl, rfl, rfl, rfl, rfl, rfl, rfl, rfl⟩

/-- An input ring of three slots at 0 with its data from 0x400 on: slot 0 full with an end mark, slot 1 filled, released and
full again. -/
def ringIn : Memory :=
  [(0, 3), (4, 128), (9, 4), (16, 5), (64, 5), (65, 2), (66, 2)]
def sRing : State := st { grp with s := (grp.s.set 7 6).set 8 2 } { bnd with spm := ringIn, wide := ringIn } {} jrn rm
def ring3 : Ring := ⟨0, 3, false, 128, 0x400, 5, 0⟩
theorem wit_RingSlots_wait : namesRing sRing (sRing.sreg 0) (sRing.sreg 7) ring3 ∧ sRing.openS 5 = false ∧ fullNow sRing (sRing.sreg 7) ring3 = true ∧
    namesRing sRing (sRing.sreg 0) 7 ring3 ∧ fullNow sRing 7 ring3 = false := by
  simp only [namesRing]; decide +kernel
theorem wit_RingSlots_done : sRing.allDone = true ∧ Memory.wf sRing.b.spm = true ∧ namesRing sRing ((closed sRing).sreg 0) ((closed sRing).sreg 7) ring3 ∧
    ring3.out = false ∧ fullNow sRing ((closed sRing).sreg 7) ring3 = true ∧ emptyNow sRing ((closed sRing).sreg 7) ring3 = true := by
  simp only [namesRing]; decide +kernel
/-- An output ring of three slots at 0x80: slot 0 empty, slot 1 full. -/
def ringMid : Memory := [(128, 0x83), (132, 128), (137, 4), (193, 1)]
def sRingOut : State :=
  st { grp with s := ((grp.s.set 6 0x80).set 7 4).set 8 6, winS := [⟨8, 1, 3, none⟩] } { bnd with spm := ringMid, wide := ringMid.put 193 0, wq := [(193, 1)] } {} jrn rm
def ring3o : Ring := ⟨128, 3, true, 128, 0x400, 0, 0⟩
theorem wit_RingSlots_waitOut : namesRing sRingOut (sRingOut.sreg 6) 6 ring3o ∧ sRingOut.openS 5 = false ∧ emptyNow sRingOut 6 ring3o = true ∧
    namesRing sRingOut (sRingOut.sreg 6) (sRingOut.sreg 7) ring3o ∧ emptyNow sRingOut (sRingOut.sreg 7) ring3o = false := by
  simp only [namesRing]; decide +kernel
theorem wit_RingSlots_doneOut : sRingOut.allDone = true ∧ namesRing sRingOut ((closed sRingOut).sreg 6) ((closed sRingOut).sreg 8) ring3o ∧ ring3o.out = true ∧
    emptyNow sRingOut ((closed sRingOut).sreg 8) ring3o = true ∧ fullNow sRingOut ((closed sRingOut).sreg 8) ring3o = false := by
  simp only [namesRing]; decide +kernel
/-! ### Witnesses: engines, push, the Drover, events -/

/-- Descriptors in s8 (offset 16, increment -16 does not fit; 1024) and s9. -/
def sEng : State :=
  st { grp with s := ((grp.s.set 8 0x0000040000000010).set 9 0x0000000000000000).set 10 0x3F800000 } bnd {} jrn rm
def sCnt : State :=
  st { grp with s := sEng.g.s, handler := { hand with tiles := 24 } } { bnd with counting := { depth := 32719, nspill := 1, extent := 16, sbase := 8 } } {}
    jrn rm
theorem wit_EngineInstructionsIssue_mloop : engFits sEng (.mloop 3 8 9 0 true 1 .rn false false true 2 .e4m3 0) ∧
    sEng.fPending (engFuture (.mloop 3 8 9 0 true 1 .rn false false true 2 .e4m3 0)) = false ∧ sEng.c.eng.length < 16 ∧
    ∀ e ∈ sEng.g.lq, acpyTile e.ins = none := by
  simp only [engFits, descFits]; decide +kernel
theorem wit_EngineInstructionsIssue_regs : engFits sEng (.mloop 3 8 0 0 false 1 .rn false true false 3 .f16 248) := by
  simp only [engFits, descFits]; decide +kernel
theorem wit_EngineInstructionsIssue_mdrain : engFits sEng (.mdrain 3 0 true false true true false false false .rn 24 31 3 254 255) := by
  simp only [engFits, runFits]; decide +kernel
theorem wit_EngineInstructionsIssue_aset : engFits sEng (.aset 3 10 0 0 4) := by
  simp only [engFits]; decide +kernel
theorem wit_EngineInstructionsIssue_cloop : engFits sCnt (.cloop 3 9 9 0 false 2 .e2m1 1) := by
  simp only [engFits, descFits]; decide +kernel
theorem wit_EngineInstructionsIssue_cspill : engFits sCnt (.cspill 3 8) := by
  simp only [engFits]; decide +kernel
theorem wit_EngineInstructionsIssue_cmerge : engFits sEng (.cmerge 3) := by
  simp only [engFits]; decide
theorem wit_EngineInstructionsIssue_cdrain : engFits sEng (.cdrain 3 0 false false true true false .rn 3 252 252) := by
  simp only [engFits, runFits]; decide +kernel
theorem wit_EngineInstructionsIssue_cclear : sEng.b.handler.counts = true ∧ sEng.c.eng.length < 16 := by decide

theorem wit_EngineInstructionsIssue_noRegisters : isEngine (.mdrain 3 0 true false true true false false false .rn 25 31 3 254 255) = true ∧
    ¬ engRegs sEng (.mdrain 3 0 true false true true false false false .rn 25 31 3 254 255) := by
  simp only [engRegs, runFits]; decide +kernel
theorem wit_EngineInstructionsIssue_waits : isEngine (.cmerge 2) = true ∧ engRegs sFut (.cmerge 2) ∧ sFut.fPending (engFuture (.cmerge 2)) = true :=
  ⟨rfl, trivial, by decide⟩

def sNoCnt : State := st grp { bnd with handler := { hand with counts := false } } {} jrn rm
theorem wit_CountingTraps_state : isCounting .cclear = true ∧ sNoCnt.b.handler.counts = false ∧ engRegs sNoCnt .cclear ∧
    isCounting (.cspill 3 0) = true ∧ sNoCnt.fPending (engFuture (.cspill 3 0)) = false ∧ engRegs sNoCnt (.cspill 3 0) :=
  ⟨rfl, rfl, trivial, rfl, by decide, trivial⟩
def sDeep : State := st sEng.g { bnd with counting := { depth := 32752 } } {} jrn rm
theorem wit_CountingTraps_depth : sDeep.fPending 3 = false ∧ sDeep.b.handler.counts = true ∧ sDeep.b.counting.fmt = none ∧ sDeep.b.counting.nspill = 0 ∧
    32767 < sDeep.b.counting.depth + 16 * ((0 : BitVec 11).toNat + 1) := by decide

theorem wit_PushQueuesOrRefuses : sEng.fPending 4 = false ∧ queueLen sEng .drover < 16 ∧ sEng.openS 0 = false := by decide
def sPushFull : State := st grp bnd { se0 := List.replicate 16 { op := 1, band := 0, group := 0, regs := [] } } jrn rm
theorem wit_PushQueuesOrRefuses_full : sPushFull.fPending 4 = false ∧ 16 ≤ queueLen sPushFull .se0 ∧ sPushFull.openS 7 = false := by decide
theorem wit_PushQueuesOrRefuses_waits : sFut.fPending 2 = true := by decide

/-- A block at 0x40 with one stack of an index source; a bound stack with index 0. -/
def stk : Stack :=
  { index := 0, isb := 0x400, arity2 := false, state := 1, produced := 0, top := 0, slots := [⟨[1, 0, 9, 1, 0, 0, 0], 0⟩], staged := [⟨7, 0, true⟩, ⟨8, 0, false⟩], parent := none, kids := [] }
def isbMem : Memory := [(0x40, 1), (0x60, 1), (0x68, 9), (0x6C, 1)]
def bDrv0 : Band := { bnd with spm := isbMem, wide := isbMem }
def sDrv (drv : List DrvEnt) : State :=
  st { grp with s := (grp.s.set 6 0x40).set 7 0x10000 } { bnd with spm := isbMem, wide := isbMem, dstacks := [stk] } { drv := drv } jrn rm
def pull1 : DrvEnt := { op := some 5, band := 0, group := 0, cmd := .pull 0 5 20 2 3 9 }
theorem wit_DroverInstructions_itbind : (longAddr (sDrv []) 6 0).toNat % 64 = 0 ∧
    (longAddr (sDrv []) 6 0).toNat + 512 ≤ (sDrv []).b.handler.allocation ∧ (sDrv []).b.handler.allocation < 2 ^ 32 ∧
    layoutStack (sDrv []).b (longAddr (sDrv []) 6 0).toNat ((sDrv []).wideRead (longAddr (sDrv []) 6 0).toNat 256) =
      .inr { index := 0, isb := 0x40, arity2 := false, state := 1, produced := 0, top := 0, slots := [⟨[1, 0, 9, 1, 0, 0, 0], 0⟩], staged := [],
             parent := none, kids := [] } ∧ (sDrv []).fPending 4 = false ∧ (sDrv []).coreStacks < 64 ∧ (sDrv []).openS 9 = false := by
  rw [State.wideRead_drained _ _ _ rfl]
  exact ⟨by decide, by decide, by decide, rfl, by decide⟩
/-- Blocks off their alignment, outside the allocation and with a kind that does not exist; a core whose 64 stacks are bound. -/
theorem wit_DroverInstructions_misaligned : (sDrv []).fPending 4 = false ∧ (longAddr (sDrv []) 6 4).toNat % 64 ≠ 0 := by decide
theorem wit_DroverInstructions_outside : (longAddr (sDrv []) 6 0xE00).toNat % 64 = 0 ∧
    ((sDrv []).b.handler.allocation : Int) < (longAddr (sDrv []) 6 0xE00).toInt + 512 := by decide
theorem wit_DroverInstructions_below : (longAddr (sDrv []) 6 0xFFFFFF80).toNat % 64 = 0 ∧ (longAddr (sDrv []) 6 0xFFFFFF80).toInt < 0 := by decide
theorem wit_DroverInstructions_layout : ∃ n, (longAddr (sDrv []) 6 0x40).toNat % 64 = 0 ∧ 0 ≤ (longAddr (sDrv []) 6 0x40).toInt ∧
    (longAddr (sDrv []) 6 0x40).toInt + 512 ≤ (sDrv []).b.handler.allocation ∧
    layoutStack (sDrv []).b (longAddr (sDrv []) 6 0x40).toNat ((sDrv []).wideRead (longAddr (sDrv []) 6 0x40).toNat 256) = .inl n := by
  rw [State.wideRead_drained _ _ _ rfl]
  exact ⟨_, by decide, by decide, by decide, rfl⟩
def sDrvFull : State :=
  let b : Band := { bDrv0 with dstacks := (List.range 64).map fun i => { stk with index := i } }
  st { grp with s := grp.s.set 6 0x40 } b {} jrn rm
theorem wit_DroverInstructions_full : ∃ k, (longAddr sDrvFull 6 0).toNat % 64 = 0 ∧ 0 ≤ (longAddr sDrvFull 6 0).toInt ∧
    (longAddr sDrvFull 6 0).toInt + 512 ≤ sDrvFull.b.handler.allocation ∧
    layoutStack sDrvFull.b (longAddr sDrvFull 6 0).toNat (sDrvFull.wideRead (longAddr sDrvFull 6 0).toNat 256) = .inr k ∧
    sDrvFull.fPending 4 = false ∧ 64 ≤ sDrvFull.coreStacks ∧ sDrvFull.openS 9 = false := by
  rw [State.wideRead_drained _ _ _ rfl]
  exact ⟨_, by decide, by decide, by decide, rfl, by decide +kernel⟩
/-- A pending future over the same stack. -/
def sDrvWait : State := { sDrv [] with g := { (sDrv []).g with f := sFut.g.f }, c := sFut.c }
theorem wit_DroverInstructions_waits : sDrvWait.fPending 2 = true ∧ (20 : VReg).toNat + 2 ≤ laneCount sDrvWait := by decide
theorem wit_DroverInstructions_registers : laneCount (sDrv []) < (255 : VReg).toNat + 2 := by decide
theorem wit_DroverInstructions_next : (254 : VReg).toNat + 2 ≤ laneCount (sDrv []) ∧ (sDrv []).b.live ((sDrv []).sreg 7) = some stk ∧
    (sDrv []).fPending 4 = false := by decide +kernel
theorem wit_DroverInstructions_enoughQueues : (sDrv [pull1]).b.live ((sDrv [pull1]).sreg 7) = some stk ∧
    (∃ e ∈ (sDrv [pull1]).c.drv, e.on (sDrv [pull1]).b.slot stk.index = true) ∧ (∀ o ∈ (sDrv [pull1]).c.ops, o.park = none) := by decide +kernel
theorem wit_DroverInstructions_enough : (sDrv []).b.live ((sDrv []).sreg 7) = some stk ∧
    (∀ e ∈ (sDrv []).c.drv, e.on (sDrv []).b.slot stk.index = false) := by decide +kernel
theorem wit_DroverInstructions_free : (sDrv []).b.stack stk.index = some stk ∧ stk.kids = [] ∧ (sDrv []).b.unacq = [] ∧
    Memory.wf (sDrv []).b.spm = true ∧ stk.bytes.length ≤ 256 := by decide +kernel
theorem wit_DroverInstructions_stale : (20 : VReg).toNat + 2 ≤ laneCount (sDrv []) ∧ (sDrv []).fPending 4 = false ∧ (sDrv []).b.live ((sDrv []).sreg 6) = none := by decide +kernel

/-- A journey with one pending event of a handle, and one with a selected event. -/
def hev : Word64 := handleWord 0 1 0 5
def evt : Event :=
  { time := 100, handler := 0, prio := 1, gang := false, canc := true, entity := 7, tie := 2, seq := 4, payload := List.replicate 10 3, handle := hev, home := 0, tier := 0 }
def hent (d : Bool) : HandleEnt := ⟨0, 5, 1, d⟩
def sEvt (d : Bool) : State :=
  st { grp with s := (grp.s.set 6 (hev ||| 0x2100000000000000)).set 8 10, events := [{ evt with time := 90 }, { evt with time := 2 ^ 64 - 5 }, evt] } bnd {}
    { jrn with pending := [{ evt with handle := 0, seq := 3 }, evt], handles := [hent d, ⟨0, 6, 1, true⟩], accepted := 5 } rm
/-- A group that handles an event of time 2^64 - 5, a delay in s6, and a journey of a quota. -/
def sSched (delay : Word64) (quota : Nat) : State :=
  st { grp with s := grp.s.set 6 delay, events := [{ evt with time := 2 ^ 64 - 5 }] } bnd {}
    { jrn with pending := [evt], accepted := 5, quota := quota } rm
theorem wit_SchedAcceptsOrRefuses : (sSched 4 2).openS 5 = false ∧ schedTime (sSched 4 2) 0 ((sSched 4 2).sreg 6) < 2 ^ 64 ∧
    (∃ h ∈ (sSched 4 2).j.handlers, h.id = 0 ∧ h.valid = true) ∧ (sSched 4 2).j.pending.length < (sSched 4 2).j.quota ∧
    ((sSched 4 2).tierFor ((sSched 4 2).homeCore (((sSched 4 2).sreg 7).extractLsb' 0 32))
      (schedTime (sSched 4 2) 0 ((sSched 4 2).sreg 6))).isSome = true := by decide +kernel
theorem wit_SchedAcceptsOrRefuses_time : 2 ^ 64 ≤ schedTime (sSched 5 2) 0 ((sSched 5 2).sreg 6) := by decide +kernel
theorem wit_SchedAcceptsOrRefuses_handler : schedTime (sSched 4 2) 0 ((sSched 4 2).sreg 6) < 2 ^ 64 ∧
    (∀ h ∈ (sSched 4 2).j.handlers, h.id = 9 → h.valid = false) := by decide +kernel
theorem wit_SchedAcceptsOrRefuses_quota : schedTime (sSched 4 1) 0 ((sSched 4 1).sreg 6) < 2 ^ 64 ∧
    (∃ h ∈ (sSched 4 1).j.handlers, h.id = 0 ∧ h.valid = true) ∧ (sSched 4 1).j.quota ≤ (sSched 4 1).j.pending.length := by decide +kernel
/-- No tier has room: the time stands far ahead of the near window, the room's region holds no record, and the overflow tier is full. -/
def sTiers (n : Nat) : State :=
  st { grp with s := grp.s.set 6 4, events := [{ evt with time := 2 ^ 64 - 5 }] } bnd {} { jrn with pending := List.replicate n { evt with tier := 2 }, quota := n + 1 } rm
theorem wit_SchedAcceptsOrRefuses_tiers (n : Nat) (h : Config.overflowEvents ≤ n) : schedTime (sTiers n) 0 ((sTiers n).sreg 6) < 2 ^ 64 ∧
    (∃ h ∈ (sTiers n).j.handlers, h.id = 0 ∧ h.valid = true) ∧
    (sTiers n).tierFor ((sTiers n).homeCore (((sTiers n).sreg 7).extractLsb' 0 32)) (schedTime (sTiers n) 0 ((sTiers n).sreg 6)) = none := by
  have hs : (sTiers n).sreg 6 = 4 := rfl
  have ht : schedTime (sTiers n) 0 4 = 2 ^ 64 - 1 := by
    unfold schedTime
    rw [show (sTiers n).g.events = [{ evt with time := 2 ^ 64 - 5 }] from rfl]
    decide +kernel
  have hj : (sTiers n).j.nearWindow (2 ^ 64 - 1) = false := by
    show Journey.nearWindow { jrn with pending := List.replicate n { evt with tier := 2 }, quota := n + 1 } _ = false
    simp [Journey.nearWindow, jrn]
  refine ⟨by rw [hs, ht]; decide, ⟨hand, List.mem_singleton.mpr rfl, rfl, rfl⟩, ?_⟩
  rw [hs, ht]
  unfold State.tierFor
  have hr : (sTiers n).room? (sTiers n).j.room = some rm := rfl
  have hp : (sTiers n).j.pending = List.replicate n { evt with tier := 2 } := rfl
  rw [hr, hp, hj]
  simp only [Bool.false_and, Bool.false_eq_true, if_false, List.filter_replicate, beq_self_eq_true, if_true, List.length_replicate]
  rw [if_neg (by show ¬ _ < min _ (0 / 64); omega), if_neg (by omega)]
theorem wit_ScalarCancelOutcomes_gone : (∀ e ∈ (sEvt false).j.handles, handleWord 0 e.gen.toNat e.core e.entry ≠ handleBits ((sEvt false).sreg 8)) ∧
    (sEvt false).openS 5 = false := by decide +kernel
theorem wit_ScalarCancelOutcomes_selected : ((sEvt true).j.handles.map fun x => handleWord 0 x.gen.toNat x.core x.entry).Nodup ∧ hent true ∈ (sEvt true).j.handles ∧
    handleWord 0 (hent true).gen.toNat (hent true).core (hent true).entry = handleBits ((sEvt true).sreg 6) ∧
    (hent true).dispatched = true ∧ (sEvt true).openS 5 = false := by decide
theorem wit_ScalarCancelOutcomes_pending : ((sEvt false).j.handles.map fun x => handleWord 0 x.gen.toNat x.core x.entry).Nodup ∧ hent false ∈ (sEvt false).j.handles ∧
    handleWord 0 (hent false).gen.toNat (hent false).core (hent false).entry = handleBits ((sEvt false).sreg 6) ∧
    (hent false).dispatched = false ∧ (sEvt false).openS 0 = false := by decide
/-! ### Witnesses: lane words -/

/-- Lane registers with different values in every lane; guard and masks. -/
def laneVals (n : Nat) : Vector Word32 32 := Vector.ofFn fun i => BitVec.ofNat 32 (n + 0x01000193 * i.val)
def gLane : Group :=
  { grp with v := (((grp.v.set 4 (laneVals 1)).set 5 (laneVals 0x7FFFFFF0)).set 6 (laneVals 0x3F800000)).set 7 (laneVals 0),
             p := (grp.p.set 3 0xFFFF0005).set 0 5, k := grp.k.set 2 6, ictx := { mask := 7, base := 0x10000 } }
def sL : State := st gLane { bnd with spm := [(0, 0x81), (4095, 0x92)] } {} jrn rm
def sLm : State := { sL with mem := [(0x10000, 0x11), (0x1FFFC, 0x22)] }
def hdr (g : BitVec 4) (neg : Bool) (la : BitVec 4) : LaneHdr := ⟨g, neg, 0, false, la⟩

theorem wit_LaneIntegerValues : laneExact sL (.imad (hdr 3 true 1) .s32 true 255 4 5 6) =
    some (hdr 3 true 1, .s32, true, 255, fun i => laneInt sL .s32 4 i * laneInt sL .s32 5 i + laneInt sL .s32 6 i) ∧ destFree sL false 255 :=
  ⟨rfl, by simp only [destFree, laneFree]; decide⟩
theorem wit_LaneMoveValues : (Instr.laneMov (hdr 15 false 2) true 254 4).wf = true ∧
    laneMoves sL (.laneMov (hdr 15 false 2) true 254 4) = some (hdr 15 false 2, true, 254, laneVal sL true 4) ∧ destFree sL true 254 :=
  ⟨by decide, rfl, by simp only [destFree, laneFree]; decide⟩
theorem wit_LaneFloatValues : (Instr.fmul (hdr 15 false 0) .f64 .ru false 8 4 6).wf = true ∧
    (laneFloats sL (.fmul (hdr 15 false 0) .f64 .ru false 8 4 6)).map (fun x => (x.1, x.2.1, x.2.2.1)) = some (hdr 15 false 0, true, 8) ∧
    destFree sL true 8 :=
  ⟨by decide, rfl, by simp only [destFree, laneFree]; decide⟩
theorem wit_LaneFloatValues_dot : dotForm (.fdot16 (hdr 15 false 0) true .rz true true 20 4 8 16) =
    some (hdr 15 false 0, false, true, .rz, true, true, 20, 4, 8, 16) ∧ (∀ e ∈ sL.c.eng, e.empties = false) ∧ destFree sL false 20 :=
  ⟨rfl, by decide, by simp only [destFree, laneFree]; decide⟩
theorem wit_LaneConversions : (Instr.cvt (hdr 15 false 0) .e2m1 .f32 .rs true 20 4 0).wf = true ∧ destFree sL (LTy.e2m1).is64 20 :=
  ⟨by decide, by simp only [destFree, laneFree]; decide⟩
theorem wit_LanePredicates : (Instr.icmpCc (hdr 3 false 1) .s64 .lt 11 4 6).wf = true ∧
    (predRule sL (.icmpCc (hdr 3 false 1) .s64 .lt 11 4 6)).map (fun x => (x.1, x.2.1)) = some (hdr 3 false 1, 11) ∧ (∀ w ∈ sL.g.winP, w.reg ≠ 11) :=
  ⟨by decide, rfl, by decide⟩
theorem wit_LanePredicates_all : sL.g.winP = [] := by decide
theorem wit_LaneScans : (scanForm sL (.sscan (hdr 15 false 0) .f32 .add true 9 6 3)).map (fun x => (x.1, x.2.1, x.2.2.1, x.2.2.2.1, x.2.2.2.2.1, x.2.2.2.2.2.1)) =
    some (hdr 15 false 0, .f32, .add, true, 9, 6) ∧ destFree sL false 9 :=
  ⟨rfl, by simp only [destFree, laneFree]; decide⟩
theorem wit_LaneScans_sred : (Instr.sred (hdr 15 false 0) .s32 .add 9 4 1 3).wf = true ∧ destFree sL false 9 ∧ (∀ w ∈ sL.g.winP, w.reg ≠ 1) :=
  ⟨by decide, by simp only [destFree, laneFree]; decide, by decide⟩

theorem wit_LaneMemoryWords_scratchLoad : (Instr.ldS (hdr 15 false 0) .s8 20 ⟨0, false, 0, 0, 4095⟩).wf = true ∧ wholeWord sL .ld ∧ loadFree sL .s8 20 ∧
    sL.b.dstacks = [] ∧ sL.b.rings = [] ∧ sL.b.unacq = [] :=
  ⟨by decide, by simp only [wholeWord]; decide, by simp only [loadFree, laneFree]; decide, by decide⟩
theorem wit_LaneMemoryWords_scratchStore : (Instr.stS (hdr 15 false 0) .b64 4 ⟨0, true, 9, 2, 4088⟩).wf = true ∧ wholeWord sL .st ∧
    Memory.wf sL.b.spm = true ∧ sL.b.dstacks = [] ∧ sL.b.rings = [] ∧ sL.b.unacq = [] :=
  ⟨by decide, by simp only [wholeWord]; decide, by decide⟩
/-- Every acting lane of `[base + 0xFFFC]` accesses the page's last word. -/
theorem wit_LaneMemoryWords_load : (Instr.ldG (hdr 15 false 0) .b32 20 ⟨6, false, 0, 0, 0xFFFC⟩).wf = true ∧ wholeWord sLm .ld ∧ loadFree sLm .b32 20 ∧
    placed sLm .ld needR (actors sLm (hdr 15 false 0)) (laneAddress sLm ⟨6, false, 0, 0, 0xFFFC⟩ 4) (fun _ => 0x1FFFC) ∧
    ∀ i ∈ actors sLm (hdr 15 false 0), quiet sLm 0x1FFFC 4 :=
  ⟨by decide, by simp only [wholeWord]; decide, by simp only [loadFree, laneFree]; decide, ⟨_, _, rfl, by decide +kernel⟩,
    by simp only [quiet]; decide +kernel⟩
theorem wit_LaneMemoryWords_store : (Instr.stG (hdr 3 false 0) .b128 4 ⟨6, true, 9, 3, 0⟩).wf = true ∧ wholeWord sLm .st ∧ Memory.wf sLm.mem = true ∧
    placed sLm .st needW (storers sLm (hdr 3 false 0)) (laneAddress sLm ⟨6, true, 9, 3, 0⟩ 16) (fun _ => 0x10000) ∧
    ∀ i ∈ storers sLm (hdr 3 false 0), quiet sLm 0x10000 16 :=
  ⟨by decide, by simp only [wholeWord]; decide, by decide, ⟨_, _, rfl, by decide +kernel⟩, by simp only [quiet]; decide +kernel⟩
theorem wit_LaneRequestWords_atom : (Instr.atom (hdr 15 false 0) .b64 .cas .device 8 4 6 ⟨6, false, 0, 0, 8⟩).wf = true ∧
    apart sLm (.atom (hdr 15 false 0) .b64 .cas .device 8 4 6 ⟨6, false, 0, 0, 8⟩) =
      some (.ld, needRW, storers sLm (hdr 15 false 0), ⟨6, false, 0, 0, 8⟩, 8) ∧ wholeWord sLm .ld ∧
    placed sLm .ld needRW (storers sLm (hdr 15 false 0)) (laneAddress sLm ⟨6, false, 0, 0, 8⟩ 8) (fun _ => 0x10008) ∧
    answersFree sLm (.atom (hdr 15 false 0) .b64 .cas .device 8 4 6 ⟨6, false, 0, 0, 8⟩) ∧
    porterFits sLm (storers sLm (hdr 15 false 0)).length (.atom (hdr 15 false 0) .b64 .cas .device 8 4 6 ⟨6, false, 0, 0, 8⟩) :=
  ⟨by decide, rfl, by simp only [wholeWord]; decide, ⟨_, _, rfl, by decide +kernel⟩, by simp only [answersFree, destFree, laneFree]; decide, trivial⟩
theorem wit_LaneRequestWords_ldx : (Instr.ldx (hdr 15 false 0) .b128 8 ⟨6, false, 0, 0, 16⟩).wf = true ∧
    apart sLm (.ldx (hdr 15 false 0) .b128 8 ⟨6, false, 0, 0, 16⟩) =
      some (.ga, needR, actors sLm (hdr 15 false 0), ⟨6, false, 0, 0, 16⟩, 16) ∧ wholeWord sLm .ga ∧
    placed sLm .ga needR (actors sLm (hdr 15 false 0)) (laneAddress sLm ⟨6, false, 0, 0, 16⟩ 16) (fun _ => 0x10010) ∧
    answersFree sLm (.ldx (hdr 15 false 0) .b128 8 ⟨6, false, 0, 0, 16⟩) ∧
    porterFits sLm (actors sLm (hdr 15 false 0)).length (.ldx (hdr 15 false 0) .b128 8 ⟨6, false, 0, 0, 16⟩) :=
  ⟨by decide, rfl, by simp only [wholeWord]; decide, ⟨_, _, rfl, by decide +kernel⟩, by simp only [answersFree, loadFree, laneFree]; decide +kernel,
    by simp only [porterFits]; decide +kernel⟩
theorem wit_LaneRequestWords_copy : (Instr.cpGs (hdr 15 false 0) .b128 7 ⟨6, false, 0, 0, 16⟩).wf = true ∧ wholeWord sLm .sp ∧
    placed sLm .sp needR (storers sLm (hdr 15 false 0)) (laneAddress sLm ⟨6, false, 0, 0, 16⟩ 16) (fun _ => 0x10010) :=
  ⟨by decide, by simp only [wholeWord]; decide, ⟨_, _, rfl, by decide +kernel⟩⟩
theorem wit_LaneEventWords_sched : (Instr.sched (hdr 15 false 0) 8 16 32 0 1 true).wf = true ∧ destFree sL true 8 :=
  ⟨by decide, by simp only [destFree, laneFree]; decide⟩
theorem wit_LaneEventWords_cancel : (Instr.cancel (hdr 15 false 0) 8 4).wf = true ∧ destFree sL false 8 :=
  ⟨by decide, by simp only [destFree, laneFree]; decide⟩
theorem wit_TileCopies_fromTile : (Instr.acpyAr (hdr 15 false 0) 192 64 0 true 3).wf = true ∧ tileQuiet sL ∧
    (∀ j, j < (64 : BitVec 7).toNat → sL.openV ((192 : VReg).toNat + j) = false) :=
  ⟨by decide, by simp only [tileQuiet]; decide, by decide +kernel⟩
theorem wit_TileCopies_toTile : (Instr.acpyRa (hdr 15 false 0) 4 1 63 false 0).wf = true ∧ tileQuiet sL ∧ SMap.wf 0 sL.b.tiles = true :=
  ⟨by decide, by simp only [tileQuiet]; decide, by decide⟩
/-! ### Witnesses: engine completions -/

def engE (cmd : EngCmd) : EngEnt := { op := some 5, band := 0, group := 0, cmd := cmd, srcV := [] }
/-- A band with some tile elements, bytes at the wide port and counters. -/
def bEng : Band :=
  { bnd with tiles := [(0, 0x3F800000), (4097, 0x40000000)], wide := [(0, 0x38), (17, 0x12)],
             counting := { cnt := [(0, 3), (130, 0xFFFF)], depth := 16, extent := 8, fmt := some .e2m1 } }
def sEngQ (cmd : EngCmd) (es : List EngEnt) : State := st grp bEng { ops := [opn 5], eng := engE cmd :: es } jrn rm
theorem engAt_sEngQ (cmd : EngCmd) (es : List EngEnt) : engAt (sEngQ cmd es) 0 (engE cmd) es bEng grp :=
  ⟨rfl, rfl, rfl, rfl, by decide, rfl, by decide, by decide, rfl, rfl, rfl, rfl⟩
theorem wit_MatrixCompletions_mloop : engAt (sEngQ (.mloop none 0 16 32 0 64 3 .rz true false 2 .f16) []) 0
    (engE (.mloop none 0 16 32 0 64 3 .rz true false 2 .f16)) [] bEng grp := engAt_sEngQ _ _
theorem wit_MatrixCompletions_mdrain : engAt (sEngQ (.mdrain false true false true true true false .rn 0 1 0 2 4) []) 0
    (engE (.mdrain false true false true true true false .rn 0 1 0 2 4)) [] bEng grp ∧ 1 ≠ 0 := ⟨engAt_sEngQ _ _, by decide⟩
theorem wit_MatrixCompletions_mdrainLanes : engAt (sEngQ (.mdrain true true true false true false true .ra 192 0 3 2 4) []) 0
    (engE (.mdrain true true true false true false true .ra 192 0 3 2 4)) [] bEng grp ∧ grp.winV = [] ∧ 192 + 64 ≤ 256 :=
  ⟨engAt_sEngQ _ _, rfl, by decide⟩
theorem wit_MatrixCompletions_aset : engAt (sEngQ (.aset 3 1 0xDEAD) [engE .cmerge]) 0 (engE (.aset 3 1 0xDEAD)) [engE .cmerge] bEng grp :=
  engAt_sEngQ _ _
theorem wit_CountingCompletions_cloop : engAt (sEngQ (.cloop 0 8 16 0 true 1 8 .i4) []) 0 (engE (.cloop 0 8 16 0 true 1 8 .i4)) [] bEng grp :=
  engAt_sEngQ _ _
theorem wit_CountingCompletions_cspill : engAt (sEngQ (.cspill 1 true 8 {}) []) 0 (engE (.cspill 1 true 8 {})) [] bEng grp := engAt_sEngQ _ _
theorem wit_CountingCompletions_cdrain : engAt (sEngQ (.cdrain true true true false false .rn 0 2 4 { extent := 128 }) []) 0
    (engE (.cdrain true true true false false .rn 0 2 4 { extent := 128 })) [] bEng grp ∧ ({ extent := 128 } : Counting).extent ≤ 128 :=
  ⟨engAt_sEngQ _ _, by decide⟩
/-! ### Witnesses: stream engines -/

/-- A layout record: base 0x10000, 32-bit elements, boxes of 4 by 1 in 8 by 3, rows of 64 bytes. -/
def layN (etype fill : Nat) : Nat :=
  0x10000 + 2 ^ 64 + 2 * 2 ^ 72 + etype * 2 ^ 80 + fill * 2 ^ 96 + 8 * 2 ^ 128 + 3 * 2 ^ 160 + 64 * 2 ^ 320 + 4 * 2 ^ 576 + 2 ^ 592
def layY : Layout :=
  { base := 0x10000, ndim := 2, size := 4, etype := 2, stag := 0, fill := 7, extent := [8, 3, 0, 0, 0], stride := [0, 64, 0, 0, 0], box := [4, 1, 0, 0, 0] }
/-- A ring of two slots of 128 bytes at 0 with data at 0x400, and the record at 0x200. -/
def ringMem (out : Nat) (ctl0 : Byte) : Memory :=
  [(0, 2 + BitVec.ofNat 8 (128 * out)), (4, 128), (9, 4)] ++ (if ctl0 = 0 then [] else [(64, ctl0)]) ++ place 0x200 128 (layN 2 7) ++
    [(0x400, 0xAA), (0x404, 0xBB)]
def ring2 (out : Bool) : Ring := ⟨0, 2, out, 128, 0x400, 0, 0⟩
/-- A command of a kind on that ring: boxes, start coordinates and value. -/
def seC (kind boxes start v : Nat) : SeCmd :=
  { op := 5, band := 0, group := 0,
    regs := [BitVec.ofNat 64 (kind + boxes * 2 ^ 32), 0x200, BitVec.ofNat 64 start, 0, 0, BitVec.ofNat 64 v, 0, 0] }
def begun (c : SeCmd) : SeCmd := { c with started := true, lay := (List.range 128).map fun k => BitVec.ofNat 8 (layN 2 7 / 2 ^ (8 * k)) }
def tlb1 : List TlbEnt := [⟨0, ⟨1, 0, true, true, true, false, 0x10000, 0, 0⟩⟩]
def bSe (out : Nat) (ctl0 : Byte) : Band := { bnd with spm := ringMem out ctl0, wide := ringMem out ctl0 }
def sSe (out : Nat) (ctl0 : Byte) (c : SeCmd) : State :=
  { st grp (bSe out ctl0) { ops := [opn 5], se0 := [c], tlb := tlb1 } jrn rm with mem := [(0x10000, 1), (0x10004, 2), (0x1000B, 3)] }

theorem seLayout_sSe (out : Nat) (ctl0 : Byte) (c : SeCmd) (h : (seView (sSe out ctl0 c) 0 c).b = bSe out ctl0)
    (hs : c.started = false) (hl : c.layOff = 0x200) (hr : layoutOf ((ringMem out ctl0).read 0x200 128) = some layY) :
    seLayout (seView (sSe out ctl0 c) 0 c) c = some layY := by
  unfold seLayout
  rw [hs, State.wideRead_drained _ _ _ (by rw [h]; rfl), h, hl, show (bSe out ctl0).handler.allocation = 4096 from by show hand.allocation = 4096; decide]
  exact hr
theorem seCauses_sSe (s : State) (c : SeCmd) (r : Option Ring) (h : seLayout s c = some layY) (hr : seRing s c = r)
    (hb : (c.bad || decide (layY.ndim ≤ c.stepDim)) = false) (hk : c.kind = 3 ∨ (c.kind ≠ 4 ∧ ∃ x, r = some x ∧ 16 ≤ x.sbytes ∧ x.out = (c.kind == 2))) :
    seCauses s c = [] := by
  unfold seCauses
  rw [h, hr]
  obtain ⟨hb, hd⟩ := Bool.or_eq_false_iff.mp hb
  have hst : layY.stag = 0 := rfl
  rcases hk with hk | ⟨hk, x, rfl, hx, ho⟩
  · simp [hk, hb, hd]
  · have : ¬ x.sbytes < layY.bytes := by show ¬ x.sbytes < 16; omega
    by_cases h2 : c.kind = 2 <;> simp [hk, hb, hd, this, ho, hst, h2]
/-- The ring that a command names, read where every write has drained. -/
theorem seRing_at (s : State) (c : SeCmd) (off : Nat) (r : Ring) (hw : s.b.wq = []) (hn : c.ring = none) (ho : c.ringOff = some off)
    (hr : ringOf (s.b.wide.read off 128) s.b.handler.allocation off = some r) : seRing s c = some r := by
  unfold seRing
  rw [hn, ho]
  show ringOf (s.wideRead off 128) _ _ = _
  rw [State.wideRead_drained _ _ _ hw, hr]
theorem seRing_sSe (out : Nat) (ctl0 : Byte) (c : SeCmd) (o : Bool) (h : (seView (sSe out ctl0 c) 0 c).b = bSe out ctl0)
    (hn : c.ring = none) (ho : c.ringOff = some 0) (hr : ringOf ((ringMem out ctl0).read 0 128) 4096 0 = some (ring2 o)) :
    seRing (seView (sSe out ctl0 c) 0 c) c = some (ring2 o) :=
  seRing_at _ _ _ _ (by rw [h]; rfl) hn ho
    (by rw [h]; show ringOf ((ringMem out ctl0).read 0 128) hand.allocation 0 = _; rw [show hand.allocation = 4096 by decide, hr])

theorem seAt_sSe (out : Nat) (ctl0 : Byte) (c : SeCmd) (hb : c.band = 0) (hg : c.group = 0) (hw : Memory.wf (ringMem out ctl0) = true)
    (he : c.elems = [] ∧ c.put = 0 ∧ c.pre = []) : seAt (sSe out ctl0 c) 0 0 c [] (bSe out ctl0) grp :=
  ⟨by decide, rfl, by rw [hb]; rfl, by rw [hg]; rfl, rfl, List.cons_ne_nil _ _, rfl,
    fun o ho => by rw [List.mem_singleton.mp (show o ∈ [opn 5] from ho)]; rfl, hw, hw, by rw [hb]; rfl, rfl, he.1, he.2.1, he.2.2, rfl,
    by unfold seView; rw [hb, hg]; rfl⟩

theorem wit_StreamEngineSteps_load : seAt (sSe 0 0 (seC 1 2 0 0)) 0 0 (seC 1 2 0 0) [] (bSe 0 0) grp ∧
    startsKind 0 0 (seC 1 2 0 0).kind = some (.seLoad 0 0) ∧ (seC 1 2 0 0).started = false ∧
    seCauses (seView (sSe 0 0 (seC 1 2 0 0)) 0 (seC 1 2 0 0)) (seC 1 2 0 0) = [] ∧
    seRing (seView (sSe 0 0 (seC 1 2 0 0)) 0 (seC 1 2 0 0)) (seC 1 2 0 0) = some (ring2 false) ∧ (seC 1 2 0 0).ringOff = some (ring2 false).off :=
  ⟨seAt_sSe _ _ _ rfl rfl (by decide +kernel) ⟨rfl, rfl, rfl⟩, rfl, rfl,
    seCauses_sSe _ _ (some (ring2 false)) (seLayout_sSe 0 0 _ rfl rfl rfl (by decide +kernel)) (seRing_sSe 0 0 _ false rfl rfl (by decide) (by decide +kernel)) (by decide +kernel)
      (.inr ⟨by decide, _, rfl, by decide, by decide⟩), seRing_sSe 0 0 _ false rfl rfl (by decide) (by decide +kernel), by decide⟩
theorem wit_StreamEngineSteps_store : seAt (sSe 1 0 (seC 2 3 0 0)) 0 0 (seC 2 3 0 0) [] (bSe 1 0) grp ∧
    startsKind 0 0 (seC 2 3 0 0).kind = some (.seStore 0 0) ∧ (seC 2 3 0 0).started = false ∧
    seCauses (seView (sSe 1 0 (seC 2 3 0 0)) 0 (seC 2 3 0 0)) (seC 2 3 0 0) = [] ∧
    seRing (seView (sSe 1 0 (seC 2 3 0 0)) 0 (seC 2 3 0 0)) (seC 2 3 0 0) = some (ring2 true) ∧ (seC 2 3 0 0).ringOff = some (ring2 true).off :=
  ⟨seAt_sSe _ _ _ rfl rfl (by decide +kernel) ⟨rfl, rfl, rfl⟩, rfl, rfl,
    seCauses_sSe _ _ (some (ring2 true)) (seLayout_sSe 1 0 _ rfl rfl rfl (by decide +kernel)) (seRing_sSe 1 0 _ true rfl rfl (by decide) (by decide +kernel)) (by decide +kernel)
      (.inr ⟨by decide, _, rfl, by decide, by decide⟩), seRing_sSe 1 0 _ true rfl rfl (by decide) (by decide +kernel), by decide⟩
/-- The box that starts at element 6 of 8 lies half outside. -/
theorem wit_StreamEngineSteps_fill : seAt (sSe 0 0 (begun (seC 1 2 6 0))) 0 0 (begun (seC 1 2 6 0)) [] (bSe 0 0) grp ∧
    (begun (seC 1 2 6 0)).started = true ∧ (begun (seC 1 2 6 0)).kind = 1 ∧ (begun (seC 1 2 6 0)).next < (begun (seC 1 2 6 0)).boxes ∧
    seRing (seView (sSe 0 0 (begun (seC 1 2 6 0))) 0 (begun (seC 1 2 6 0))) (begun (seC 1 2 6 0)) = some (ring2 false) ∧
    (begun (seC 1 2 6 0)).ringOff = some (ring2 false).off ∧
    seLayout (seView (sSe 0 0 (begun (seC 1 2 6 0))) 0 (begun (seC 1 2 6 0))) (begun (seC 1 2 6 0)) = some layY ∧ layY.bytes ≤ (ring2 false).sbytes ∧
    (∀ e ∈ (bSe 0 0).wq, e.1 ≠ (ring2 false).off + 64 + (begun (seC 1 2 6 0)).number (ring2 false) (begun (seC 1 2 6 0)).next % (ring2 false).slots) ∧
    ((bSe 0 0).wide.byte ((ring2 false).off + 64 + (begun (seC 1 2 6 0)).number (ring2 false) (begun (seC 1 2 6 0)).next % (ring2 false).slots)).getLsbD 1 =
      decide ((begun (seC 1 2 6 0)).number (ring2 false) (begun (seC 1 2 6 0)).next / (ring2 false).slots % 2 = 1) ∧
    (readBox (seView (sSe 0 0 (begun (seC 1 2 6 0))) 0 (begun (seC 1 2 6 0)))
      (seRec (seView (sSe 0 0 (begun (seC 1 2 6 0))) 0 (begun (seC 1 2 6 0))) 0 (begun (seC 1 2 6 0)) 4) layY ((begun (seC 1 2 6 0)).startOf (begun (seC 1 2 6 0)).next)
      (prodOf (layY.box.take layY.ndim)) 0).2 = ([[0, 0, 0, 0], [0, 0, 0, 0], [7, 0, 0, 0], [7, 0, 0, 0]], none) :=
  ⟨seAt_sSe _ _ _ rfl rfl (by decide +kernel) ⟨rfl, rfl, rfl⟩, rfl, by decide, by decide, seRing_sSe 0 0 _ false rfl rfl (by decide) (by decide +kernel), by decide, by decide +kernel, by decide,
    fun e he => (List.not_mem_nil he).elim, by decide +kernel, rfl⟩
def bPub : Band := { bSe 0 0 with fills := [⟨0, 0, true⟩], rings := [(0, 0)] }
def sPub : State := st grp bPub { ops := [opn 5] } jrn rm
theorem wit_StreamEngineSteps_publish : sPub.band? 0 0 = some bPub ∧ bPub.members ≠ [] ∧ sPub.group? 0 (bPub.members.headD 0) = some grp ∧
    grp.dead = false ∧ bPub.broken = [] ∧ Memory.wf bPub.spm = true ∧ ringAt bPub.spm bPub.handler.allocation 0 = some (ring2 false) ∧
    bPub.fills = [⟨0, 0, true⟩] ∧ (0, 0) ∈ bPub.rings ∧ sPub.commanded 0 0 = false ∧
    (bPub.spm.byte ((ring2 false).off + 64 + 0 % (ring2 false).slots)).getLsbD 1 = decide (0 / (ring2 false).slots % 2 = 1) :=
  ⟨rfl, by decide, rfl, rfl, rfl, by decide +kernel, by decide +kernel, rfl, by decide, rfl, by decide +kernel⟩

theorem elemsPlaced_sSe (u : State) (c : SeCmd) (hX : ∀ k, k < 4 → layY.addr (c.startOf 0) k = some (BitVec.ofNat 64 (0x10000 + 4 * k)))
    (hT : ∀ k, k < 4 → u.xlate none needW (BitVec.ofNat 64 (0x10000 + 4 * k)) = (u, .pool (0x10000 + 4 * k))) : elemsPlaced u needW c layY 0 1 := by
  have hp : prodOf (layY.box.take layY.ndim) = 4 := rfl
  have key : ∀ k pa, k < 4 → elemAt u needW c layY 0 k pa → pa = 0x10000 + 4 * k := by
    rintro k pa hk ⟨va, h1, h2⟩
    rw [hX k hk] at h1
    cases h1
    rw [hT k hk] at h2
    cases h2
    rfl
  constructor
  · intro i k va _ hi hk h
    rw [hp] at hk
    obtain rfl : i = 0 := by omega
    rw [hX k hk] at h
    cases h
    exact ⟨_, hT k hk⟩
  · intro i k i' k' pa pa' _ hi _ hi' hk hk' h h'
    rw [hp] at hk hk'
    obtain rfl : i = 0 := by omega
    obtain rfl : i' = 0 := by omega
    have := key k pa hk h
    have := key k' pa' hk' h'
    show pa = pa' ∨ pa + 4 ≤ pa' ∨ pa' + 4 ≤ pa
    omega
theorem wit_StreamEngineSteps_drain : seAt (sSe 1 1 (begun (seC 2 1 0 0))) 0 0 (begun (seC 2 1 0 0)) [] (bSe 1 1) grp ∧
    (begun (seC 2 1 0 0)).started = true ∧ (begun (seC 2 1 0 0)).kind = 2 ∧ (begun (seC 2 1 0 0)).next < (begun (seC 2 1 0 0)).boxes ∧
    seRing (seView (sSe 1 1 (begun (seC 2 1 0 0))) 0 (begun (seC 2 1 0 0))) (begun (seC 2 1 0 0)) = some (ring2 true) ∧ (ring2 true).out = true ∧
    (begun (seC 2 1 0 0)).ringOff = some (ring2 true).off ∧
    seLayout (seView (sSe 1 1 (begun (seC 2 1 0 0))) 0 (begun (seC 2 1 0 0))) (begun (seC 2 1 0 0)) = some layY ∧ (bSe 1 1).wq = [] ∧
    Memory.wf (sSe 1 1 (begun (seC 2 1 0 0))).mem = true ∧ ((bSe 1 1).wide.byte (0 + 64 + 0 % 2)).getLsbD 0 = decide (0 / 2 % 2 = 0) ∧
    ((bSe 1 1).wide.byte (0 + 64 + 0 % 2)).getLsbD 2 = false ∧ (begun (seC 2 1 0 0)).number (ring2 true) 0 = 0 ∧
    elemsPlaced (seView (sSe 1 1 (begun (seC 2 1 0 0))) 0 (begun (seC 2 1 0 0))) needW (begun (seC 2 1 0 0)) layY 0 1 :=
  ⟨seAt_sSe _ _ _ rfl rfl (by decide +kernel) ⟨rfl, rfl, rfl⟩, rfl, by decide, by decide, seRing_sSe 1 1 _ true rfl rfl (by decide) (by decide +kernel), rfl, by decide, by decide +kernel, rfl, by decide,
    by decide +kernel, by decide +kernel, by decide,
    elemsPlaced_sSe _ _ (by decide +kernel) fun k hk => by match k, hk with | 0, _ => rfl | 1, _ => rfl | 2, _ => rfl | 3, _ => rfl⟩
theorem wit_StreamEngineSteps_set : seAt (sSe 0 0 (seC 3 1 0 9)) 0 0 (seC 3 1 0 9) [] (bSe 0 0) grp ∧ (seC 3 1 0 9).kind = 3 ∧
    (seC 3 1 0 9).started = false ∧ (seC 3 1 0 9).next = 0 ∧ seCauses (seView (sSe 0 0 (seC 3 1 0 9)) 0 (seC 3 1 0 9)) (seC 3 1 0 9) = [] ∧
    seLayout (seView (sSe 0 0 (seC 3 1 0 9)) 0 (seC 3 1 0 9)) (seC 3 1 0 9) = some layY ∧ Memory.wf (sSe 0 0 (seC 3 1 0 9)).mem = true ∧
    (seC 3 1 0 9).boxes = 1 ∧ elemsPlaced (seView (sSe 0 0 (seC 3 1 0 9)) 0 (seC 3 1 0 9)) needW (seC 3 1 0 9) layY 0 1 :=
  ⟨seAt_sSe _ _ _ rfl rfl (by decide +kernel) ⟨rfl, rfl, rfl⟩, by decide, rfl, rfl,
    seCauses_sSe _ _ _ (seLayout_sSe 0 0 _ rfl rfl rfl (by decide +kernel)) rfl (by decide +kernel) (.inl (by decide)),
    seLayout_sSe 0 0 _ rfl rfl rfl (by decide +kernel), by decide, by decide,
    elemsPlaced_sSe _ _ (by decide +kernel) fun k hk => by match k, hk with | 0, _ => rfl | 1, _ => rfl | 2, _ => rfl | 3, _ => rfl⟩

/-- A quant command of one box of 32 by 32 bfloat16 elements, its record and a ring of one slot. -/
def layQ : Nat := 0x10000 + 2 ^ 64 + 2 * 2 ^ 72 + 5 * 2 ^ 80 + 32 * 2 ^ 128 + 32 * 2 ^ 160 + 64 * 2 ^ 320 + 32 * 2 ^ 576 + 32 * 2 ^ 592
def layQY : Layout :=
  { base := 0x10000, ndim := 2, size := 2, etype := 5, stag := 0, fill := 0, extent := [32, 32, 0, 0, 0], stride := [0, 64, 0, 0, 0], box := [32, 32, 0, 0, 0] }
def cmdQ : SeCmd :=
  { op := 5, band := 0, group := 0, regs := [BitVec.ofNat 64 (4 + 2 ^ 32), 0x200, 0, 0, 0, 0, 0, 0], started := true,
    lay := (List.range 128).map fun k => BitVec.ofNat 8 (layQ / 2 ^ (8 * k)) }
def ringQ : Ring := ⟨0, 1, false, 2176, 0x400, 0, 0⟩
def bQ : Band := { bnd with spm := [(0, 1), (4, 0x80), (5, 8), (9, 4)], wide := [(0, 1), (4, 0x80), (5, 8), (9, 4)] }
def sQ : State := { st grp bQ { ops := [opn 5], se0 := [cmdQ], tlb := tlb1 } jrn rm with mem := [(0x10000, 0x80), (0x10001, 0x3F)] }
theorem wit_StreamEngineSteps_quant : seAt sQ 0 0 cmdQ [] bQ grp ∧ cmdQ.started = true ∧ cmdQ.kind = 4 ∧ cmdQ.next < cmdQ.boxes ∧
    seRing (seView sQ 0 cmdQ) cmdQ = some ringQ ∧ cmdQ.ringOff = some ringQ.off ∧ seLayout (seView sQ 0 cmdQ) cmdQ = some layQY ∧
    (∀ e ∈ bQ.wq, e.1 ≠ ringQ.off + 64 + cmdQ.number ringQ cmdQ.next % ringQ.slots) ∧
    (bQ.wide.byte (ringQ.off + 64 + cmdQ.number ringQ cmdQ.next % ringQ.slots)).getLsbD 1 = decide (cmdQ.number ringQ cmdQ.next / ringQ.slots % 2 = 1) ∧
    (readBox (seView sQ 0 cmdQ) (seRec (seView sQ 0 cmdQ) 0 cmdQ 4) layQY (cmdQ.startOf cmdQ.next) (prodOf (layQY.box.take layQY.ndim)) 0).2.2.isNone = true :=
  ⟨⟨by decide, rfl, rfl, rfl, rfl, List.cons_ne_nil _ _, rfl,
    fun o ho => by rw [List.mem_singleton.mp (show o ∈ [opn 5] from ho)]; rfl, by decide +kernel, by decide +kernel, rfl, rfl, rfl, rfl, rfl, rfl, rfl⟩,
    rfl, by decide, by decide, seRing_at _ _ 0 _ rfl rfl (by decide) (by decide +kernel), by decide, by decide +kernel,
    fun e he => (List.not_mem_nil he).elim, by decide +kernel, by decide +kernel⟩
/-! ### Witnesses: the Drover's steps -/

/-- The Drover with one entry, over two staged items. -/
def drvE (cmd : DrvCmd) : DrvEnt := { op := some 5, band := 0, group := 0, cmd := cmd }
def bDrv : Band := { bnd with spm := isbMem, wide := isbMem, dstacks := [stk] }
def sDrvQ (cmd : DrvCmd) : State := st grp bDrv { ops := [opn 5], drv := [drvE cmd] } jrn rm
theorem drvAt_sDrvQ (cmd : DrvCmd) : drvAt (sDrvQ cmd) 0 5 (drvE cmd) bDrv grp :=
  ⟨rfl, rfl, rfl, rfl, rfl, List.cons_ne_nil _ _, ⟨opn 5, List.mem_singleton.mpr rfl, rfl⟩,
    fun o ho => by rw [List.mem_singleton.mp (show o ∈ [opn 5] from ho)]; rfl, rfl, rfl, rfl⟩
theorem wit_DroverSteps_bind : drvAt (sDrvQ (.bind 0)) 0 5 (drvE (.bind 0)) bDrv grp := drvAt_sDrvQ _
theorem wit_DroverSteps_pull : drvAt (sDrvQ (.pull 0 0x80000001 254 2 11 9)) 0 5 (drvE (.pull 0 0x80000001 254 2 11 9)) bDrv grp ∧
    stagedIn bDrv 0 (countBelow 32 (0x80000001 : Word32).getLsbD) stk ∧ ((sDrvQ (.pull 0 0x80000001 254 2 11 9)).core 0).eng = [] ∧ grp.winS = [] ∧
    grp.winV = [] ∧ grp.winP = [] ∧ (254 : VReg).toNat + 1 < 256 ∧ (2 : PReg).toNat < 12 ∧ (2 : PReg) ≠ 11 :=
  ⟨drvAt_sDrvQ _, ⟨rfl, rfl, by decide, rfl⟩, rfl, rfl, rfl, rfl, by decide⟩
/-- A drain of two items into 0x800, with its status at 0x808, with and without a bitmap. -/
def drnRegs (heads : Nat) : List Word64 := [BitVec.ofNat 64 (1 + 2 * 2 ^ 32), 0x10000, 0x800, 0, 0x808, BitVec.ofNat 64 heads, 0, 0]
theorem wit_DroverSteps_drain (heads : Nat) (h : heads = 2 ^ 64 - 1 ∨ heads = 0x810) :
    drvAt (sDrvQ (.drain (some 0) (drnRegs heads))) 0 5 (drvE (.drain (some 0) (drnRegs heads))) bDrv grp ∧ stagedIn bDrv 0 2 stk ∧
    2 = ((drnRegs heads).getD 0 0).toNat / 2 ^ 32 ∧ drainBad (drnRegs heads) stk.arity2 = false ∧
    drainOutside bDrv.handler.allocation (drnRegs heads) stk.arity2 = false ∧ Memory.wf bDrv.spm = true ∧
    (drainTargets (drnRegs heads) stk.arity2 2).Pairwise (fun x y => x.1 + x.2 ≤ y.1 ∨ y.1 + y.2 ≤ x.1) := by
  refine ⟨drvAt_sDrvQ _, ⟨rfl, rfl, by decide, rfl⟩, ?_⟩
  rcases h with rfl | rfl <;> decide +kernel
/-- Two items of a stack of arity 2, into 0x800 and 0x820. -/
def stk2 : Stack := { stk with arity2 := true, staged := [⟨7, 70, true⟩, ⟨8, 80, false⟩] }
def bDrv2 : Band := { bDrv with dstacks := [stk2] }
def drnRegs2 : List Word64 := [BitVec.ofNat 64 (1 + 2 * 2 ^ 32), 0x10000, 0x800, 0x820, 0x808, 0x810, 0, 0]
theorem wit_DroverSteps_drainTwo : stagedIn bDrv2 0 2 stk2 ∧ stk2.arity2 = true ∧ 2 = (drnRegs2.getD 0 0).toNat / 2 ^ 32 ∧
    drainBad drnRegs2 stk2.arity2 = false ∧ drainOutside bDrv2.handler.allocation drnRegs2 stk2.arity2 = false ∧
    (drainTargets drnRegs2 stk2.arity2 2).Pairwise (fun x y => x.1 + x.2 ≤ y.1 ∨ y.1 + y.2 ≤ x.1) :=
  ⟨⟨rfl, rfl, by decide, rfl⟩, by decide +kernel⟩

/-! ### Witnesses: accesses performed apart -/

def accG : Group := { grp with acc := [⟨.ld, false, 3⟩] }
def sReq (agent : ReqAgent) (kind : ReqKind) : State :=
  { st accG bnd {} jrn rm with mem := [(0x10000, 5), (0x10007, 0x80)], reqs := [{ rq with agent := agent, kind := kind }] }
theorem alone_sReq (agent : ReqAgent) (kind : ReqKind) (n : Nat) (h : 0x10000 % n = 0) :
    alone (sReq agent kind) { rq with agent := agent, kind := kind } accG bnd jrn n :=
  ⟨rfl, rfl, rfl, rfl, List.cons_ne_nil _ _, rfl, rfl, rfl, rfl, rfl, by show Memory.wf [(0x10000, 5), (0x10007, 0x80)] = true; decide, rfl, h⟩
theorem wit_AccessSteps_atom : alone (sReq (.ostler 1) (.atom .min .s64 7 0 (some 254)))
    { rq with agent := .ostler 1, kind := .atom .min .s64 7 0 (some 254) } accG bnd jrn (if ATy.s64.is64 then 8 else 4) ∧ (254 : VReg).toNat + 1 < 256 ∧
    rq.lane < 32 ∧ (7 : Word64).toNat < 2 ^ (if ATy.s64.is64 then 64 else 32) ∧ (0 : Word64).toNat < 2 ^ (if ATy.s64.is64 then 64 else 32) :=
  ⟨alone_sReq _ _ _ (by decide), by decide⟩
/-- The maximum of a float and a NaN. -/
theorem wit_AccessSteps_atomFloat : alone (sReq (.ostler 1) (.atom .max .f32 0xFFFFFFFF 0 (some 20)))
    { rq with agent := .ostler 1, kind := .atom .max .f32 0xFFFFFFFF 0 (some 20) } accG bnd jrn (if ATy.f32.is64 then 8 else 4) ∧
    (0xFFFFFFFF : Word64).toNat < 2 ^ (if ATy.f32.is64 then 64 else 32) := ⟨alone_sReq _ _ _ (by decide), by decide⟩
theorem wit_AccessSteps_load : alone (sReq .porter (.load .b128 252)) { rq with agent := .porter, kind := .load .b128 252 } accG bnd jrn (accBytes .b128) ∧
    (252 : VReg).toNat + accRegs .b128 ≤ 256 ∧ rq.lane < 32 := ⟨alone_sReq _ _ _ (by decide), by decide⟩
theorem wit_AccessSteps_store : alone (sReq .porter (.store [1, 2])) { rq with agent := .porter, kind := .store [1, 2] } accG bnd jrn 1 := alone_sReq _ _ _ (by decide)
theorem wit_AccessSteps_peer : (accG.pathOf rq.acc) = some .ld ∧
    alone (sReq (.peer 3 0) (.load .s8 255)) { rq with agent := .peer 3 0, kind := .load .s8 255 } accG bnd jrn 1 ∧
    (255 : VReg).toNat + accRegs .s8 ≤ 256 := ⟨by decide, alone_sReq _ _ _ (by decide), by decide⟩
def cpy : Copy := { slot := 0, lane := 2, pa := 0x10000, window := false, dst := 0xFF8, size := 8, tag := 3, va := 0x10000, lqAddr := 0x10000, waddr := 0x18000 }
def bCp : Band := { bnd with copies := [cpy], spm := [(0xFFF, 1)] }
def sCp : State := { st { grp with acc := [⟨.sp, false, 3⟩] } bCp {} jrn rm with mem := [(0x10000, 5), (0x10007, 0x80)] }
theorem wit_AccessSteps_copy : sCp.bands = [bCp] ∧ bCp.core = 0 ∧ bCp.copies = [cpy] ∧ cpy.slot = 0 ∧ cpy.window = false ∧
    sCp.group? 0 0 = some { grp with acc := [⟨.sp, false, 3⟩] } ∧ sCp.journey? bCp.journey = some jrn ∧ jrn.state ≠ .closing ∧ jrn.unacq = [] ∧ sCp.poison = [] ∧ bCp.members ≠ [] ∧
    bCp.dstacks = [] ∧ bCp.rings = [] ∧ bCp.kept = [] ∧ Memory.wf bCp.spm = true ∧ 0 ≤ cpy.dst :=
  ⟨rfl, rfl, rfl, rfl, rfl, rfl, rfl, by decide, rfl, rfl, List.cons_ne_nil _ _, rfl, rfl, rfl, by decide, by decide⟩
def finG : Group := { grp with acc := [⟨.st, true, 9⟩, ⟨.ld, false, 3⟩] }
theorem wit_AccessSteps_count : (st finG bnd {} jrn rm).reqs = [] ∧ (st finG bnd {} jrn rm).group? 0 0 = some finG ∧ finG.dead = false ∧
    finG.acc = ⟨.st, true, 9⟩ :: [⟨.ld, false, 3⟩] := ⟨rfl, rfl, rfl, rfl⟩

/-! ### Witnesses: imports and publication -/

/-- An export of page 1 in entry 2. -/
def imp : Import := { slot := 2, journey := 0, r := true, w := true, a := true, key := 77, base := 0x10000, length := 0x10000, refusals := 0 }
def impMsg (kind : ImportKind) (size : Nat) : ImportMsg := { peer := 4, islot := 2, key := 77, off := 0xFFF8, size := size, kind := kind }
def sImp : State :=
  { st grp bnd {} jrn rm with hub := { State.reset.hub with boot := .up, imports := [imp] }, pool := [(0x1FFF8, 9)], mem := [(0x1FFF8, 8)] }
theorem wit_FabricSteps_read : sImp.hub.imports.find? (fun e => e.slot == (impMsg .read 8).islot.toNat && e.key == (impMsg .read 8).key) = some imp ∧
    (impMsg .read 8).off + (impMsg .read 8).size ≤ imp.length.toNat ∧ imp.r = true ∧ sImp.journey? imp.journey = some jrn ∧
    sImp.walkOf jrn needR (imp.base + BitVec.ofNat 64 (impMsg .read 8).off) = .pool 0x1FFF8 ∧ sImp.poison = [] ∧ sImp.hub.boot = .up :=
  ⟨rfl, by decide, rfl, rfl, by decide +kernel, rfl, rfl⟩
theorem wit_FabricSteps_write : ([1, 2] : List Byte).length = (impMsg (.write [1, 2]) 2).size ∧ imp.w = true ∧
    sImp.walkOf jrn needW (imp.base + BitVec.ofNat 64 (impMsg (.write [1, 2]) 2).off) = .pool 0x1FFF8 ∧ jrn.unacq = [] ∧ Memory.wf sImp.mem = true ∧
    Memory.wf sImp.pool = true := ⟨rfl, rfl, by decide +kernel, rfl, by decide, by decide⟩
theorem wit_FabricSteps_atomic : (impMsg (.atomic .add .n64 5 0) 8).off + (if ATy.n64.is64 then 8 else 4) ≤ imp.length.toNat ∧ imp.a = true ∧
    sImp.walkOf jrn needRW (imp.base + BitVec.ofNat 64 (impMsg (.atomic .add .n64 5 0) 8).off) = .pool 0x1FFF8 :=
  ⟨by decide, rfl, by decide +kernel⟩
theorem wit_FabricSteps_refused : alone (sReq (.peer 3 0) (.store [1])) { rq with agent := .peer 3 0, kind := .store [1] } accG bnd jrn 1 ∧
    (sReq (.peer 3 0) (.store [1])).groups = [accG] ∧ accG.journey = 0 ∧ (sReq (.peer 3 0) (.store [1])).room? accG.room = some rm ∧
    rm.faultq.length < 1024 ∧ (sReq (.peer 3 0) (.store [1])).hub.conns = [] ∧ accG.core < 256 ∧ accG.slot < 64 ∧ accG.band < 256 ∧ rq.lane < 32 ∧
    jrn.state ≠ .closing :=
  ⟨alone_sReq _ _ _ (by decide), rfl, rfl, rfl, by decide, rfl, by decide, by decide, by decide, by decide, by decide⟩
def jWb : Journey := { jrn with wbs := [⟨0x200, 0⟩], dirty := [0x200, 0x201] }
def sWb : State := { st grp bnd {} jWb rm with mem := [(0x10000, 5), (0x1007F, 6), (0x10080, 7)] }
theorem wit_FabricSteps_writeBack : sWb.journey? 0 = some jWb ∧ jWb.wbs = [⟨0x200, 0⟩] ∧ jWb.fences = [] ∧ sWb.room? jWb.room = some rm ∧
    rm.holds (128 * 0x200) 128 = true ∧ Memory.wf sWb.pool = true := ⟨rfl, rfl, rfl, rfl, by decide, by decide⟩
theorem wit_FabricSteps_line : (st grp bnd {} { jWb with wbs := [] } rm).journeys = [{ jWb with wbs := [] }] ∧ 0x201 ∈ jWb.dirty ∧
    Memory.wf (st grp bnd {} { jWb with wbs := [] } rm).pool = true := ⟨rfl, by decide, by decide⟩

/-! ### Witnesses: barriers, translation -/

def bAll : Band := { bnd with members := [0, 1], arrived := [1, 0], phase := 4 }
theorem wit_TranslationSteps_phase : (st grp bAll {} jrn rm).band? 0 0 = some bAll ∧ (∀ m ∈ bAll.members, m ∈ bAll.arrived) := ⟨rfl, by decide⟩
def gangDone : GangBar := ⟨3, [(0, 0)], 5, [(0, 0)]⟩
theorem wit_TranslationSteps_gang : (st grp bnd {} { jrn with gangs := [gangDone] } rm).journey? bnd.journey = some { jrn with gangs := [gangDone] } ∧
    (0, 0) ∈ gangDone.bands ∧
    (∀ p ∈ gangDone.bands, ∀ k, (st grp bnd {} { jrn with gangs := [gangDone] } rm).band? p.1 p.2 = some k → ∀ m ∈ k.members, (p.1, m) ∈ gangDone.arrived) := by
  refine ⟨rfl, by decide, ?_⟩
  intro p hp k hk m hm
  rw [List.mem_singleton.mp hp] at hk ⊢
  cases hk
  rw [List.mem_singleton.mp hm]
  decide
def prk (va : Word64) : Park := { code := 0x13, va := va, lane := 0, access := 1, atAddr := 0x10000 }
def sPrk (va : Word64) : State := st { grp with park := some (prk va) } bnd {} jrn rm
theorem wit_TranslationSteps_open : jrn.state ≠ .closing := by decide
theorem wit_TranslationSteps_service : (sPrk 0x10008).group? 0 0 = some { grp with park := some (prk 0x10008) } ∧ (prk 0x10008).ready = false ∧
    (prk 0x10008).recorded = false ∧ (sPrk 0x10008).walkOf jrn (needOf (prk 0x10008).access) (prk 0x10008).va = .pool 0x10008 :=
  ⟨rfl, rfl, rfl, by decide +kernel⟩
theorem wit_TranslationSteps_record : (sPrk 0x30000).walkOf jrn (needOf (prk 0x30000).access) (prk 0x30000).va = .fail 0x13 ∧ 0x13 < 256 ∧
    (sPrk 0x30000).room? grp.room = some rm ∧ rm.faultq.length < 1024 ∧ (sPrk 0x30000).hub.conns = [] := ⟨by decide +kernel, by decide, rfl, by decide, rfl⟩
def rdyG : Group := { grp with park := some { prk 0x10008 with ready := true } }
theorem wit_TranslationSteps_replay : (st rdyG bnd {} jrn rm).group? 0 0 = some rdyG ∧ rdyG.lpark = none ∧
    rdyG.park = some { prk 0x10008 with ready := true } ∧ rdyG.halted = false ∧ rdyG.ahead.from' = none := ⟨rfl, rfl, rfl, rfl, rfl⟩
def haltG : Group := { rdyG with halted := true }
theorem wit_TranslationSteps_replayHalted : (st haltG bnd {} jrn rm).group? 0 0 = some haltG ∧ haltG.lpark = none ∧ haltG.halted = true := ⟨rfl, rfl, rfl⟩
/-- A parked load behind which the stream has gone on inside its window. -/
def rdyGa : Group := { rdyG with spc := 0x1000C, ahead := { left := 2, from' := some 0x10000 } }
theorem wit_TranslationSteps_replayWindow : (st rdyGa bnd {} jrn rm).group? 0 0 = some rdyGa ∧ rdyGa.lpark = none ∧
    rdyGa.park = some { prk 0x10008 with ready := true } ∧ rdyGa.halted = false ∧ rdyGa.ahead.from' = some 0x10000 := ⟨rfl, rfl, rfl, rfl, rfl⟩
def rdyL : Group := { grp with lpark := some { prk 0x10008 with ready := true } }
theorem wit_TranslationSteps_replayLane : (st rdyL bnd {} jrn rm).group? 0 0 = some rdyL ∧ rdyL.park = none := ⟨rfl, rfl⟩
def hdrOf (op : BitVec 8) (len : Word32) : MsgHdr :=
  { ver := 1, type := 1, op := op, rsv0 := 0, seq := 1, ack := 0, journey := 0, rsv1 := 0, status := 0, length := len, rsv2 := 0 }
def pnd (op : BitVec 8) (conn : Option Nat) : Pending := { conn := conn, h := hdrOf op 0, entry := 0, body := [] }
def jShoot : Journey := { jrn with pend := some (pnd 14 none) }
def sShoot : State := { st { grp with pages := [(1, ⟨1, 0, true, true, true, false, 0x10000, 0, 0⟩)] } bnd { tlb := tlb1 } jShoot rm with bands := [] }
theorem wit_TranslationSteps_shootdown : sShoot.journeys = [jShoot] ∧ jShoot.room = 0 ∧ jShoot.pend = some (pnd 14 none) ∧ (pnd 14 none).h.op = 14 ∧
    (pnd 14 none).conn = none ∧ sShoot.reqs = [] ∧ sShoot.bands = [] ∧ jShoot.log = none ∧ jShoot.replay = [] ∧ (∀ g ∈ sShoot.groups, g.lq = []) ∧
    (sShoot.room? 0).isSome = true := ⟨rfl, rfl, rfl, rfl, rfl, rfl, rfl, rfl, rfl, by decide, rfl⟩
/-- An old table at its last slot and before it, with an entry of another slot. -/
def tblOld (cur : Nat) : Table := { tbl with old := { live := true, base := 0x4000, lgn := 8, cursor := cur, slots := [(0x4010, ⟨1, 0, true, true, true, false, 0x10000⟩)] } }
def sMig (cur : Nat) : State := st grp bnd {} { jrn with tables := [tblOld cur, {}, {}, {}] } rm
theorem wit_TranslationSteps_migrate (cur : Nat) (h : cur = 254 ∨ cur = 255) : (sMig cur).journey? 0 = some { jrn with tables := [tblOld cur, {}, {}, {}] } ∧
    (tblOld cur).old.live = true ∧
    (∀ e ∈ (tblOld cur).old.slots, ∀ w, w < 3 → e.1 ≠ (tblOld cur).old.base.toNat + (w * 2 ^ (tblOld cur).old.lgn + (tblOld cur).old.cursor) * 16) := by
  refine ⟨rfl, rfl, ?_⟩
  rcases h with rfl | rfl <;> decide

/-! ### Witnesses: the calendar, placement -/

def ev (time tie seq : Nat) (entity : Word32) : Event :=
  { time := BitVec.ofNat 64 time, handler := 0, prio := 0, gang := false, canc := false, entity := entity, tie := BitVec.ofNat 32 tie,
    seq := BitVec.ofNat 64 seq, payload := [7, 8], handle := 0, home := 0, tier := 0 }
/-- Five pending events of which three are of the span and of two entities. -/
def jCal : Journey :=
  { jrn with spanOn := true, t0 := 4, t1 := 9, lookahead := 6, spanw := 6, accepted := 9,
             pending := [ev 9 0 1 5, ev 4 2 8 5, ev 4 1 3 5, ev 10 0 2 6, ev 9 7 4 0], q := 1 }
def sCal (j : Journey) : State := { st grp bnd { } j rm with groups := [], bands := [] }
theorem betweenRounds_sCal (j : Journey) (h : j.num = 0 ∧ j.state = .running ∧ j.stopFor = none ∧ j.inRound = false ∧ j.queue = [] ∧ j.seats = [] ∧
    j.restore = none) : betweenRounds (sCal j) 0 j := by
  refine ⟨?_, h.2.1, h.2.2.1, h.2.2.2.1, h.2.2.2.2.1, h.2.2.2.2.2.1, h.2.2.2.2.2.2, fun g hg => nomatch hg⟩
  show ([j].find? fun k => k.num == 0) = some j
  simp [h.1]
theorem selected_jCal : selected jCal (ev 4 1 3 5) :=
  ⟨by decide, by decide, by decide, .inr fun x hx _ _ _ => by
    have h : x = ev 9 0 1 5 ∨ x = ev 4 2 8 5 ∨ x = ev 4 1 3 5 ∨ x = ev 10 0 2 6 ∨ x = ev 9 7 4 0 := by simpa [jCal] using hx
    rcases h with rfl | rfl | rfl | rfl | rfl
    · exact .inr (.inl (by decide))
    · exact .inr (.inr ⟨rfl, .inl (by decide)⟩)
    · exact .inl rfl
    · exact .inr (.inl (by decide))
    · exact .inr (.inl (by decide))⟩
theorem wit_CalendarSteps_round : betweenRounds (sCal jCal) 0 jCal ∧ jCal.spanOn = true ∧ selected jCal (ev 4 1 3 5) :=
  ⟨betweenRounds_sCal _ ⟨rfl, rfl, rfl, rfl, rfl, rfl, rfl⟩, rfl, selected_jCal⟩
def jLeap (l : Word64) : Journey := { jCal with t0 := 0, t1 := 3, lookahead := l, handles := [] }
theorem wit_CalendarSteps_leap : betweenRounds (sCal (jLeap 6)) 0 (jLeap 6) ∧ (∀ e, ¬ ((jLeap 6).spanOn = true ∧ selected (jLeap 6) e)) ∧
    ev 9 0 1 5 ∈ (jLeap 6).pending :=
  ⟨betweenRounds_sCal _ ⟨rfl, rfl, rfl, rfl, rfl, rfl, rfl⟩, fun e h => by
    have hx := h.2.1
    have hb := h.2.2.2.1
    have h : e = ev 9 0 1 5 ∨ e = ev 4 2 8 5 ∨ e = ev 4 1 3 5 ∨ e = ev 10 0 2 6 ∨ e = ev 9 7 4 0 := by simpa [jLeap, jCal] using hx
    rcases h with rfl | rfl | rfl | rfl | rfl <;> revert hb <;> decide, by decide⟩
theorem wit_CalendarSteps_rest : betweenRounds (sCal jrn) 0 jrn ∧ jrn.pending = [] := ⟨betweenRounds_sCal _ ⟨rfl, rfl, rfl, rfl, rfl, rfl, rfl⟩, rfl⟩
def qi : QItem := { bands := [{ handler := hand, gang := 0, groups := [(0, [ev 4 1 3 5, ev 9 7 4 0])] }] }
def jQ : Journey := { jCal with inRound := true, queue := [qi], pending := [] }
theorem wit_CalendarSteps_pick : (sCal jQ).room? 0 = some rm ∧ (sCal jQ).journeys = [jQ] ∧ jQ.room = 0 ∧ jQ.places = true ∧
    ((sCal jQ).headPlace jQ).isSome = true ∧ jQ.picked = false ∧ jQ.promoted = false := ⟨rfl, rfl, rfl, rfl, by rfl, rfl, rfl⟩
theorem wit_CalendarSteps_promote : (sCal { jQ with passed := 4096 }).journey? 0 = some { jQ with passed := 4096 } ∧ jQ.queue ≠ [] := ⟨rfl, by decide⟩
def jPick : Journey := { jQ with picked := true }
theorem wit_PlacementSteps_band : (sCal jPick).journey? 0 = some jPick ∧ jPick.picked = true ∧ jPick.places = true ∧
    ({ sCal jPick with j := jPick }).headPlace jPick = some (qi, [(0, ⟨0, [0], [0], 1, 0⟩)]) ∧ qi.bands.length = 1 ∧
    (∀ b ∈ qi.bands, ∀ p ∈ [((0 : Nat), (⟨0, [0], [0], 1, 0⟩ : Place))], b.groups.length ≤ p.2.slots.length) := ⟨rfl, rfl, rfl, by rfl, rfl, by decide⟩
def hand2 : Handler := { hand with gang := 1 }
def qg : QItem :=
  { bands := [{ handler := hand2, gang := 0, groups := [(0, [ev 4 1 3 5])] }, { handler := hand2, gang := 0, groups := [(1, [ev 4 1 3 6])] }] }
def jGang : Journey := { jPick with queue := [qg, qi], handlers := [hand2] }
theorem wit_PlacementSteps_gang : ((({ sCal jGang with j := jGang }).headPlace jGang).map fun (p : QItem × List (Nat × Place)) => p.2.length) = some 2 := by rfl
def seat : Seat := { core := 0, slot := 0, band := 0, idx := 0, rank := 0, events := [ev 4 1 3 5, ev 9 7 4 0] }
def jSeat : Journey := { jQ with queue := [], seats := [seat] }
def sSeat : State := { st grp bnd {} jSeat rm with groups := [] }
theorem wit_PlacementSteps_dispatch : sSeat.journeys = [jSeat] ∧ jSeat.places = true ∧ jSeat.seats = [seat] ∧ sSeat.band? 0 seat.band = some bnd ∧
    bnd.members ≠ [] ∧ sSeat.commanded 0 seat.band = false ∧ sSeat.hub.sessions = [] ∧ seat.events.length ≤ 32 :=
  ⟨rfl, rfl, rfl, rfl, by decide, rfl, rfl, by decide⟩
def gHr : Group := { grp with haltReq := true }
theorem wit_PlacementSteps_halt : (st gHr bnd {} jrn rm).group? 0 0 = some gHr ∧ gHr.dead = false ∧ gHr.halted = false ∧ gHr.hold = .none ∧
    gHr.inside = false ∧ gHr.haltReq = true ∧ (st gHr bnd {} jrn rm).band? gHr.core gHr.band = some bnd ∧ bnd.members ≠ [] :=
  ⟨rfl, rfl, rfl, rfl, rfl, rfl, rfl, by decide⟩
theorem wit_PlacementSteps_breakpoint : ({ st0 with hub := { st0.hub with sessions := [{ conn := 3, scope := 0, bps := [(2, 0x10000)] }] } } : State).sessionOf
    grp.room = some { conn := 3, scope := 0, bps := [(2, 0x10000)] } ∧ grp.passed = false ∧ grp.inside = false ∧ (0x10000 : Word64) = grp.spc :=
  ⟨rfl, rfl, rfl, rfl⟩

/-! ### Witnesses: requests on journeys -/

def conn3 (ep : Nat) : Conn := { num := 3, endpoint := ep }
def hd (op : BitVec 8) (body : List Byte) : MsgHdr := hdrOf op (BitVec.ofNat 32 body.length)
def rmE : Room := { rm with endpoints := [9], faultq := [List.replicate 96 1, List.replicate 96 2, List.replicate 96 3], drops := 7 }
/-- The small machine, booted, with connection 3 of the room's endpoint and a memory. -/
def sBase (j : Journey) (mem : Memory) : State :=
  { st grp bnd {} j rmE with hub := { State.reset.hub with boot := .up, conns := [conn3 9] }, mem := mem }
/-- A request of connection 3 arrives in its turn, in a state of one journey and that room. -/
theorem arrives_of (s : State) (j : Journey) (ep : Nat) (op : BitVec 8) (body : List Byte) (hb : s.hub.boot = .up) (hc : s.hub.conns = [conn3 ep])
    (hj : s.journeys = [j]) (hr : ∀ m ∈ s.rooms, m.resize = none) (h : j.pend = none ∧ j.replyTo = none ∧ body.length < 2 ^ 20)
    (hu : j.unmapped = [] := by rfl) : arrives s 3 op.toNat (hd op body) body (conn3 ep) := by
  refine ⟨hb, ?_, rfl, rfl, rfl, rfl, ?_, by omega, rfl, rfl, rfl, rfl, ?_, hr⟩
  · rw [hc]
    rfl
  · show (BitVec.ofNat 32 body.length).toNat = _
    rw [BitVec.toNat_ofNat]
    omega
  · intro k hk
    rw [hj] at hk
    rw [List.mem_singleton.mp hk]
    exact ⟨h.1, h.2.1, hu⟩
theorem arrives_sBase (j : Journey) (mem : Memory) (op : BitVec 8) (body : List Byte)
    (h : j.pend = none ∧ j.replyTo = none ∧ body.length < 2 ^ 20) (hu : j.unmapped = [] := by rfl) : arrives (sBase j mem) 3 op.toNat (hd op body) body (conn3 9) :=
  arrives_of _ j 9 op body rfl rfl rfl (fun m hm => by rw [List.mem_singleton.mp (show m ∈ [rmE] from hm)]; rfl) h hu
/-- The request comes from that room, for journey 0. -/
theorem own_of (s : State) (j : Journey) (op : BitVec 8) (body : List Byte) (hj : s.journeys = [j]) (hs : s.standing 3 = .room j.room)
    (h : j.num = 0 ∧ j.log = none ∧ j.state ≠ .closing) : ownJourney s 3 (hd op body) j := by
  refine ⟨?_, hs, h.2.1, h.2.2⟩
  show (s.journeys.find? fun k => k.num == 0) = some j
  rw [hj]
  simp [h.1]
theorem own_sBase (j : Journey) (mem : Memory) (op : BitVec 8) (body : List Byte) (h : j.num = 0 ∧ j.room = 0 ∧ j.log = none ∧ j.state ≠ .closing) :
    ownJourney (sBase j mem) 3 (hd op body) j :=
  own_of _ j op body rfl (by rw [h.2.1]; rfl) ⟨h.1, h.2.2⟩
/-- A pack with one native handler of one `exit`. -/
def packPart : List Byte :=
  ({ hand with sbase := 64, ssize := 4, sentry := 0, lbase := 80, lsize := 0, lentry := 0 } : Handler).record ++ leBytes 16 0x04000003
def pack : List Byte :=
  leBytes 4 0x4C5A504B ++ [1, 1, 0, 0] ++ body8 [176, 6, 1] ++ List.replicate 32 0 ++ [1, 1] ++ List.replicate 6 0 ++ body8 [96, 80, 0] ++ packPart
def openBody : List Byte := body8 [0, 77, 100, 1 + 4 * 256, 0x40000, 0x10000, 0x10000, 0, 0, 0, 0, 0, 0, 0, 176] ++ pack
def jFar : Journey := { jrn with num := 5 }
theorem openPack_pack : ((openPack ((openBody.drop 120).take (q8 openBody 14))).map fun o => (o.code.length, o.handlers.length, o.lookahead)) =
    some (80, 1, 6) := by decide +kernel
theorem wit_JourneyRequests_open : ∃ o, arrives (sBase jFar []) 3 1 (hd 1 openBody) openBody (conn3 9) ∧ (sBase jFar []).standing 3 = .room rmE.num ∧
    (sBase jFar []).room? rmE.num = some rmE ∧ openStatus (sBase jFar []) rmE openBody = 0 ∧
    openPack ((openBody.drop 120).take (q8 openBody 14)) = some o ∧ o.code.length ≤ q8 openBody 6 ∧ (q8 openBody 0).testBit 1 = false ∧
    (sBase jFar []).openRoom rmE (q8 openBody 2) (fieldAt openBody 25 1) = true ∧ (sBase jFar []).hub.nextJourney = some 0 ∧
    (sBase jFar []).journey? 0 = none ∧ Memory.wf (sBase jFar []).mem = true := by
  cases h : openPack ((openBody.drop 120).take (q8 openBody 14)) with
  | none => have := openPack_pack; rw [h] at this; cases this
  | some o =>
    have := openPack_pack
    rw [h] at this
    injection this with this
    injection this with this _
    exact ⟨o, arrives_sBase jFar [] 1 openBody ⟨rfl, rfl, by decide +kernel⟩, rfl, rfl, by decide +kernel, rfl,
      by rw [this]; decide +kernel, by decide +kernel, by decide +kernel, by decide +kernel, by rfl, by rfl⟩
theorem wit_JourneyRequests_close : arrives (sBase jrn []) 3 2 (hd 2 []) [] (conn3 9) ∧ ownJourney (sBase jrn []) 3 (hd 2 []) jrn :=
  ⟨arrives_sBase _ _ 2 _ ⟨rfl, rfl, by decide⟩, own_sBase _ _ _ _ ⟨rfl, rfl, rfl, by decide⟩⟩
def jClosing : Journey := { jrn with state := .closing, pend := some (pnd 2 (some 3)) }
def sClosing : State :=
  { sBase jClosing [] with bands := [], hub := { State.reset.hub with boot := .up, conns := [{ conn3 9 with expect := 2 }] } }
theorem wit_JourneyRequests_teardown : sClosing.journey? 0 = some jClosing ∧ jClosing.state = .closing ∧ jClosing.pend = some (pnd 2 (some 3)) ∧
    (pnd 2 (some 3)).body.length ≤ 2 ^ 26 ∧ sClosing.hub.conns.find? (fun y => y.num == 3) = some { conn3 9 with expect := 2 } ∧
    (2 : Word32) = (pnd 2 (some 3)).h.seq + 1 ∧ jClosing.log = none ∧ jClosing.wbs = [] ∧ sClosing.reqs = [] ∧ sClosing.bands = [] :=
  ⟨rfl, rfl, rfl, by decide, rfl, rfl, rfl, rfl, rfl, rfl⟩
def jOpen : Journey := { jrn with state := .opened }
theorem wit_JourneyRequests_start : arrives (sBase jOpen []) 3 7 (hd 7 []) [] (conn3 9) ∧ ownJourney (sBase jOpen []) 3 (hd 7 []) jOpen ∧
    jOpen.state = .opened := ⟨arrives_sBase _ _ 7 _ ⟨rfl, rfl, by decide⟩, own_sBase _ _ _ _ ⟨rfl, rfl, rfl, by decide⟩, rfl⟩
def stopBody (pa : Nat) : List Byte := body8 [1, pa, 0x10000]
theorem wit_JourneyRequests_stop : arrives (sBase jrn []) 3 8 (hd 8 (stopBody 0x1F0000)) (stopBody 0x1F0000) (conn3 9) ∧
    ownJourney (sBase jrn []) 3 (hd 8 (stopBody 0x1F0000)) jrn ∧ (∀ i, jrn.state ≠ .stopped i) ∧ 24 ≤ (stopBody 0x1F0000).length ∧
    q8 (stopBody 0x1F0000) 0 < 2 ∧ q8 (stopBody 0x1F0000) 1 ≠ 0 ∧ q8 (stopBody 0x1F0000) 1 % 65536 = 0 ∧ q8 (stopBody 0x1F0000) 2 % 65536 = 0 ∧
    (sBase jrn []).inRoom jrn.room (q8 (stopBody 0x1F0000) 1) (q8 (stopBody 0x1F0000) 2) = true :=
  ⟨arrives_sBase _ _ 8 _ ⟨rfl, rfl, by decide⟩, own_sBase _ _ _ _ ⟨rfl, rfl, rfl, by decide⟩, fun _ h => (by cases h), by decide, by decide, by decide,
    by decide, by decide, by decide +kernel⟩
/-- An image of a journey between rounds, and a memory that holds it at 0x20000. -/
def img : Saved :=
  { token := 1, mid := false, packId := 0, j := { jrn with seed := 5, accepted := 9, t0 := 4, t1 := 9, round := 2, spanOn := true, pending := [ev 9 0 1 0] },
    bands := [], groups := [], engines := [], held := [] }
def sImg (j : Journey) : State :=
  { sBase j (Memory.write [] 0x20000 img.bytes) with
    hub := { State.reset.hub with boot := .up, conns := [conn3 9], images := [img] }, groups := [], bands := [] }
def restBody : List Byte := body8 [0x20000, 0x10000]
theorem wit_JourneyRequests_restore : arrives (sImg jOpen) 3 10 (hd 10 restBody) restBody (conn3 9) ∧ ownJourney (sImg jOpen) 3 (hd 10 restBody) jOpen ∧
    16 ≤ restBody.length ∧ q8 restBody 0 % 65536 = 0 ∧ q8 restBody 1 % 65536 = 0 ∧ (sImg jOpen).room? jOpen.room = some rmE ∧
    rmE.holds (q8 restBody 0) (q8 restBody 1) = true ∧ (sImg jOpen).readImage (q8 restBody 0) (q8 restBody 1) = some img ∧
    (sImg jOpen).restoreCheck jOpen rmE (some img) = 0 :=
  ⟨arrives_of _ jOpen 9 10 _ rfl rfl rfl (fun m hm => by rw [List.mem_singleton.mp (show m ∈ [rmE] from hm)]; rfl) ⟨rfl, rfl, by decide⟩,
    own_of _ jOpen _ _ rfl rfl ⟨rfl, rfl, by decide⟩, by decide, by decide, by decide, rfl, by decide,
    by decide +kernel, by decide +kernel⟩
def jRest : Journey := { jOpen with state := .restoring, picked := true, restore := some 1, pend := some (pnd 10 (some 3)) }
def sRest : State := { sImg jRest with hub := { (sImg jRest).hub with conns := [{ conn3 9 with expect := 2 }] } }
theorem wit_JourneyRequests_placed : sRest.journey? 0 = some jRest ∧ jRest.restore = some img.token ∧ jRest.stopFor = none ∧
    sRest.hub.images.find? (fun z => z.token == img.token) = some img ∧ sRest.room? jRest.room = some rmE ∧ jRest.pend = some (pnd 10 (some 3)) ∧
    (pnd 10 (some 3)).h.op = 10 ∧ (pnd 10 (some 3)).resize = false ∧ sRest.hub.conns.find? (fun y => y.num == 3) = some { conn3 9 with expect := 2 } ∧
    (2 : Word32) = (pnd 10 (some 3)).h.seq + 1 ∧ jRest.log = none ∧ sRest.restorePlaces (sRest.heldOccs jRest rmE) rmE img = some [] ∧
    jRest.state = .restoring ∧ jRest.picked = true :=
  ⟨rfl, rfl, rfl, rfl, rfl, rfl, rfl, rfl, rfl, rfl, rfl, by decide +kernel, rfl, rfl⟩
def gHeld : Group := { grp with hold := .trap true }
def sHeld : State := { sBase jrn [] with groups := [gHeld] }
def resBody : List Byte := body8 [0, 0]
theorem wit_JourneyRequests_resume : arrives sHeld 3 12 (hd 12 resBody) resBody (conn3 9) ∧ ownJourney sHeld 3 (hd 12 resBody) jrn ∧
    16 ≤ resBody.length ∧ q8 resBody 0 < 256 ∧ q8 resBody 1 < 64 ∧ sHeld.group? (q8 resBody 0) (q8 resBody 1) = some gHeld ∧
    gHeld.journey = jrn.num ∧ gHeld.isHeld = true :=
  ⟨arrives_of _ jrn 9 12 _ rfl rfl rfl (fun m hm => by rw [List.mem_singleton.mp (show m ∈ [rmE] from hm)]; rfl) ⟨rfl, rfl, by decide⟩,
    own_of _ jrn _ _ rfl rfl ⟨rfl, rfl, by decide⟩, by decide, by decide, by decide, by rfl, rfl, rfl⟩
def readBody : List Byte := body8 [0x1FFF8, 8]
theorem wit_JourneyRequests_read : arrives (sBase jrn [(0x1FFFF, 5)]) 3 3 (hd 3 readBody) readBody (conn3 9) ∧
    ownJourney (sBase jrn [(0x1FFFF, 5)]) 3 (hd 3 readBody) jrn ∧ 16 ≤ readBody.length ∧ 1 ≤ q8 readBody 1 ∧
    q8 readBody 0 % 65536 + q8 readBody 1 ≤ 65536 ∧
    (sBase jrn [(0x1FFFF, 5)]).walkOf jrn needR (BitVec.ofNat 64 (q8 readBody 0)) = .pool 0x1FFF8 ∧ jrn.unacq = [] :=
  ⟨arrives_sBase _ _ 3 _ ⟨rfl, rfl, by decide⟩, own_sBase _ _ _ _ ⟨rfl, rfl, rfl, by decide⟩, by decide, by decide, by decide, by decide +kernel, rfl⟩
def readFar : List Byte := body8 [0x30000, 8]
theorem wit_JourneyRequests_readFails : arrives (sBase jrn []) 3 3 (hd 3 readFar) readFar (conn3 9) ∧ ownJourney (sBase jrn []) 3 (hd 3 readFar) jrn ∧
    16 ≤ readFar.length ∧ 1 ≤ q8 readFar 1 ∧ q8 readFar 0 % 65536 + q8 readFar 1 ≤ 65536 ∧
    (sBase jrn []).walkOf jrn needR (BitVec.ofNat 64 (q8 readFar 0)) = .fail 0x13 :=
  ⟨arrives_sBase _ _ 3 _ ⟨rfl, rfl, by decide⟩, own_sBase _ _ _ _ ⟨rfl, rfl, rfl, by decide⟩, by decide, by decide, by decide, by decide +kernel⟩
def writeBody : List Byte := body8 [0x1FFFE, 2] ++ [5, 0]
theorem wit_JourneyRequests_write : arrives (sBase jrn [(0x1FFFF, 5)]) 3 4 (hd 4 writeBody) writeBody (conn3 9) ∧
    ownJourney (sBase jrn [(0x1FFFF, 5)]) 3 (hd 4 writeBody) jrn ∧ 1 ≤ q8 writeBody 1 ∧ 16 + q8 writeBody 1 ≤ writeBody.length ∧
    q8 writeBody 0 % 65536 + q8 writeBody 1 ≤ 65536 ∧
    (sBase jrn [(0x1FFFF, 5)]).walkOf jrn needW (BitVec.ofNat 64 (q8 writeBody 0)) = .pool 0x1FFFE ∧ Memory.wf (sBase jrn [(0x1FFFF, 5)]).mem = true :=
  ⟨arrives_sBase _ _ 4 _ ⟨rfl, rfl, by decide⟩, own_sBase _ _ _ _ ⟨rfl, rfl, rfl, by decide⟩, by decide, by decide, by decide, by decide +kernel, rfl⟩
def jSeed : Journey := { jrn with handlers := [{ hand with id := 7 }], accepted := 4, state := .resting, q := 1 }
def seedBody : List Byte := body8 [1, 12, 7 + 2 * 2 ^ 16, 6 + 5 * 2 ^ 32, 1 + 2 * 2 ^ 32, 3, 0, 0, 9 * 2 ^ 32]
theorem wit_JourneyRequests_seed : ∃ s1 w, arrives (sBase jSeed []) 3 5 (hd 5 seedBody) seedBody (conn3 9) ∧
    ownJourney (sBase jSeed []) 3 (hd 5 seedBody) jSeed ∧ (∀ i, jSeed.state = .stopped i → i = true) ∧ q8 seedBody 0 = 1 ∧ 72 ≤ seedBody.length ∧
    q8 seedBody 2 / 2 ^ 20 % 2 ^ 12 = 0 ∧ ({ sBase jSeed [] with j := jSeed }).acceptEvent true (seedEvent (seedBody.drop 8)) = (s1, w) ∧
    handleState w ≠ 2 :=
  ⟨_, _, arrives_sBase _ _ 5 _ ⟨rfl, rfl, by decide⟩, own_sBase _ _ _ _ ⟨rfl, rfl, rfl, by decide⟩, fun _ h => (by cases h), by decide, by decide,
    by decide, rfl, by decide +kernel⟩
def launchBody : List Byte := body8 [2, 12, 7 + 2 * 2 ^ 16, 6 + 5 * 2 ^ 32, 1 + 2 * 2 ^ 32, 3, 0, 11]
theorem wit_JourneyRequests_launch : arrives (sBase jSeed []) 3 6 (hd 6 launchBody) launchBody (conn3 9) ∧
    ownJourney (sBase jSeed []) 3 (hd 6 launchBody) jSeed ∧ 64 ≤ launchBody.length ∧ 1 ≤ q8 launchBody 0 ∧ q8 launchBody 0 ≤ 2 ^ 32 ∧
    q8 launchBody 2 < 2 ^ 18 ∧ q8 launchBody 7 / 2 ^ 32 = 0 ∧
    (({ sBase jSeed [] with j := jSeed }).launchAll (launchEvent launchBody) 0 (q8 launchBody 0)).2 = none :=
  ⟨arrives_sBase _ _ 6 _ ⟨rfl, rfl, by decide⟩, own_sBase _ _ _ _ ⟨rfl, rfl, rfl, by decide⟩, by decide, by decide, by decide, by decide, by decide,
    by decide +kernel⟩
/-- A page of 64 KiB with the rights r and w; the window form names window 0. -/
def mapBody (window : Bool) : List Byte := if window then body8 [0x50000, 0x30000, 0x10000, 4 + 8 + 32, 0] else body8 [0x50000, 0x30000, 0x10000, 4 + 8, 0]
def jWin : Journey := { jrn with windows := [⟨0, 1, 2, 3⟩] }
theorem wit_JourneyRequests_map (b : Bool) : arrives (sBase jWin []) 3 13 (hd 13 (mapBody b)) (mapBody b) (conn3 9) ∧
    ownJourney (sBase jWin []) 3 (hd 13 (mapBody b)) jWin ∧ 40 ≤ (mapBody b).length ∧ q8 (mapBody b) 3 < 64 ∧
    q8 (mapBody b) 0 % pageBytes (q8 (mapBody b) 3) = 0 ∧ q8 (mapBody b) 1 % pageBytes (q8 (mapBody b) 3) = 0 ∧
    q8 (mapBody b) 2 = pageBytes (q8 (mapBody b) 3) ∧ q8 (mapBody b) 0 + q8 (mapBody b) 2 ≤ 2 ^ 57 ∧
    (if (q8 (mapBody b) 3).testBit 5 then q8 (mapBody b) 4 < Config.windows ∧ ∃ v ∈ jWin.windows, v.idx = q8 (mapBody b) 4
     else q8 (mapBody b) 4 = 0 ∧ (sBase jWin []).inRoom jWin.room (q8 (mapBody b) 1) (q8 (mapBody b) 2) = true) ∧
    jWin.mapped (BitVec.ofNat 2 (q8 (mapBody b) 3)) (q8 (mapBody b) 0 / pageBytes (q8 (mapBody b) 3)) 1 = false ∧
    jWin.tables[q8 (mapBody b) 3 % 4]? = some tbl ∧ tbl.cur.live = true ∧
    ((tbl.cur.remove (q8 (mapBody b) 0 / pageBytes (q8 (mapBody b) 3))).room? (q8 (mapBody b) 0 / pageBytes (q8 (mapBody b) 3))).isSome = true :=
  ⟨arrives_sBase _ _ 13 _ ⟨rfl, rfl, by cases b <;> decide⟩, own_sBase _ _ _ _ ⟨rfl, rfl, rfl, by decide⟩, by cases b <;> decide, by cases b <;> decide,
    by cases b <;> decide, by cases b <;> decide, by cases b <;> decide, by cases b <;> decide, by cases b <;> decide +kernel,
    by cases b <;> decide +kernel, by cases b <;> rfl, rfl, by cases b <;> decide +kernel⟩
def unmapBody : List Byte := body8 [0x10000, 0x10000]
theorem wit_JourneyRequests_unmap : arrives (sBase jrn []) 3 14 (hd 14 unmapBody) unmapBody (conn3 9) ∧ ownJourney (sBase jrn []) 3 (hd 14 unmapBody) jrn ∧
    16 ≤ unmapBody.length ∧ q8 unmapBody 0 % 65536 = 0 ∧ q8 unmapBody 1 % 65536 = 0 :=
  ⟨arrives_sBase _ _ 14 _ ⟨rfl, rfl, by decide⟩, own_sBase _ _ _ _ ⟨rfl, rfl, rfl, by decide⟩, by decide, by decide, by decide⟩
def expBody : List Byte := body8 [0x10000, 0x10000, 5, 99]
theorem wit_JourneyRequests_export : arrives (sBase jrn []) 3 15 (hd 15 expBody) expBody (conn3 9) ∧ ownJourney (sBase jrn []) 3 (hd 15 expBody) jrn ∧
    32 ≤ expBody.length ∧ q8 expBody 0 % 65536 = 0 ∧ q8 expBody 1 % 65536 = 0 ∧ q8 expBody 2 < 8 ∧
    (sBase jrn []).hub.imports.length < Config.imports :=
  ⟨arrives_sBase _ _ 15 _ ⟨rfl, rfl, by decide⟩, own_sBase _ _ _ _ ⟨rfl, rfl, rfl, by decide⟩, by decide, by decide, by decide, by decide, by decide⟩
def winBody : List Byte := body8 [4, 5, 99]
theorem wit_JourneyRequests_window : arrives (sBase jWin []) 3 16 (hd 16 winBody) winBody (conn3 9) ∧ ownJourney (sBase jWin []) 3 (hd 16 winBody) jWin ∧
    24 ≤ winBody.length ∧ q8 winBody 0 < 2 ^ 16 ∧ q8 winBody 1 < 2 ^ 16 ∧ jWin.windows.length < Config.windows :=
  ⟨arrives_sBase _ _ 16 _ ⟨rfl, rfl, by decide⟩, own_sBase _ _ _ _ ⟨rfl, rfl, rfl, by decide⟩, by decide, by decide, by decide, by decide⟩
theorem wit_JourneyRequests_faults : arrives (sBase jrn []) 3 17 (hd 17 (body8 [2])) (body8 [2]) (conn3 9) ∧
    (sBase jrn []).standing 3 = .room rmE.num ∧ (sBase jrn []).room? rmE.num = some rmE ∧ 8 ≤ (body8 [2]).length ∧ 1 ≤ q8 (body8 [2]) 0 ∧
    q8 (body8 [2]) 0 ≤ 1024 := ⟨arrives_sBase _ _ 17 _ ⟨rfl, rfl, by decide⟩, rfl, rfl, by decide, by decide, by decide⟩
/-- A log at 0x20000 whose first request opens a journey. -/
def logMem : Memory := Memory.write [] 0x20000 (logHeader 1 1 0 0 0 openBody.length ++ openBody ++ List.replicate 8 0 ++ logHeader 2 7 0 0 0 0)
def sLog : State := sBase jFar logMem
/-- A connection that has taken a request of a number. -/
def nextConn (n : Word32) (x : Conn) : Conn := { x with expect := x.expect + 1, ahead := x.ahead.filter fun e => e.1.seq != n }
theorem logRecords_restBody : logRecords sLog.mem (q8 restBody 0) (q8 restBody 1 / 32) (q8 restBody 1) = ⟨1, 0, 0, openBody⟩ :: [⟨7, 0, 0, []⟩] := by
  decide +kernel
theorem exists_inl {α β : Type} : (x : α ⊕ β) → x.isLeft = true → ∃ a, x = .inl a
  | .inl a, _ => ⟨a, rfl⟩
theorem openLog_isLeft :
    ((sLog.modHub fun u => u.putConn (nextConn (hd 18 restBody).seq (conn3 9))).openJourney rmE openBody).isLeft = true := by decide +kernel
theorem wit_JourneyRequests_replay : ∃ s1 n, arrives sLog 3 18 (hd 18 restBody) restBody (conn3 9) ∧ sLog.standing 3 = .room rmE.num ∧
    sLog.room? rmE.num = some rmE ∧ 16 ≤ restBody.length ∧ q8 restBody 0 % 65536 = 0 ∧ q8 restBody 1 % 65536 = 0 ∧
    rmE.holds (q8 restBody 0) (q8 restBody 1) = true ∧
    logRecords sLog.mem (q8 restBody 0) (q8 restBody 1 / 32) (q8 restBody 1) = ⟨1, 0, 0, openBody⟩ :: [⟨7, 0, 0, []⟩] ∧
    (sLog.modHub fun u => u.putConn (nextConn (hd 18 restBody).seq (conn3 9))).openJourney rmE openBody = .inl (s1, n) := by
  obtain ⟨⟨t, n⟩, hr⟩ := exists_inl _ openLog_isLeft
  exact ⟨t, n, arrives_sBase _ _ 18 _ ⟨rfl, rfl, by decide⟩, rfl, rfl, by decide, by decide, by decide, by decide,
    logRecords_restBody, hr⟩
theorem wit_JourneyRequests_power : arrives (sBase jrn []) 3 19 (hd 19 []) [] (conn3 9) ∧ (sBase jrn []).standing 3 = .room rmE.num ∧
    (sBase jrn []).room? rmE.num = some rmE ∧ rmE.num < 256 := ⟨arrives_sBase _ _ 19 _ ⟨rfl, rfl, by decide⟩, rfl, rfl, by decide⟩
def attBody : List Byte := body8 [1, 2, 3, 4, 0]
theorem wit_JourneyRequests_attest : arrives (sBase jrn []) 3 11 (hd 11 attBody) attBody (conn3 9) ∧ (sBase jrn []).standing 3 = .room rmE.num ∧
    rmE.num < 256 ∧ attBody.length = 40 ∧ q8 attBody 4 = 0 := ⟨arrives_sBase _ _ 11 _ ⟨rfl, rfl, by decide⟩, rfl, by decide, by decide, by decide⟩

/-! ### Witnesses: rooms, debug sessions -/

/-- The small machine, booted, with connection 3 of an endpoint and some sessions. -/
def sOp (ep : Nat) (ss : List Session) : State :=
  { st grp bnd {} jrn rmE with hub := { State.reset.hub with boot := .up, conns := [conn3 ep], sessions := ss } }
theorem arrives_sOp (ep : Nat) (ss : List Session) (op : BitVec 8) (body : List Byte) (h : body.length < 2 ^ 20) :
    arrives (sOp ep ss) 3 op.toNat (hd op body) body (conn3 ep) :=
  arrives_of _ jrn ep op body rfl rfl rfl (fun m hm => by rw [List.mem_singleton.mp (show m ∈ [rmE] from hm)]; rfl) ⟨rfl, rfl, h⟩
def roomBody : List Byte := body8 [1, 2, 0xFFFFFF, 5, 6, 0, 1, 1] ++ leBytes 16 11 ++ body8 [0x200000, 0x10000]
theorem port_of_roomBody (m : Room) (h : m.ports.toNat = 0xFFFFFF) : (m.extents.any fun e => !m.ports.toNat.testBit e.port) = false := by
  rw [h]
  have hp : ∀ e : Extent, Nat.testBit 0xFFFFFF e.port = true := by
    intro e
    have ht : ∀ k, k < 24 → Nat.testBit 0xFFFFFF k = true := by decide
    exact ht _ (Nat.mod_lt _ (by decide))
  simp [hp]
theorem wit_RoomAndDebugRequests_create : arrives (sOp 0 []) 3 32 (hd 32 roomBody) roomBody (conn3 0) ∧ (sOp 0 []).standing 3 = .operator ∧
    createStatus (sOp 0 []) roomBody = 0 := by
  refine ⟨arrives_sOp 0 [] 32 roomBody (by decide), rfl, ?_⟩
  have hp := port_of_roomBody (bodyRoom roomBody) (by decide)
  simp only [createStatus, hp, Bool.or_false]
  decide +kernel
def sizeBody : List Byte := body8 [0, 6, 1]
theorem wit_RoomAndDebugRequests_resize : arrives (sOp 0 []) 3 33 (hd 33 sizeBody) sizeBody (conn3 0) ∧ (sOp 0 []).standing 3 = .operator ∧
    24 ≤ sizeBody.length ∧ (sOp 0 []).room? (q8 sizeBody 0) = some rmE ∧ q8 sizeBody 1 ≠ 0 ∧ q8 sizeBody 1 < 2 ^ 32 ∧ q8 sizeBody 2 < 2 ∧
    (sOp 0 []).clustersFree rmE.num (q8 sizeBody 1) = true ∧ farFits (q8 sizeBody 1) rmE.farBytes = true :=
  ⟨arrives_sOp _ _ 33 _ (by decide), rfl, by decide, by rfl, by decide, by decide, by decide, by decide +kernel, by decide⟩
def sEmpty : State := { sOp 0 [{ conn := 4, scope := 0 }] with journeys := [] }
theorem wit_RoomAndDebugRequests_destroy : arrives sEmpty 3 34 (hd 34 (body8 [0])) (body8 [0]) (conn3 0) ∧ sEmpty.standing 3 = .operator ∧
    8 ≤ (body8 [0]).length ∧ (sEmpty.room? (q8 (body8 [0]) 0)).isSome = true ∧ (∀ j ∈ sEmpty.journeys, j.room ≠ q8 (body8 [0]) 0) :=
  ⟨⟨rfl, rfl, rfl, rfl, rfl, rfl, rfl, by decide, rfl, rfl, rfl, rfl, (fun _ h => nomatch h),
    fun m hm => by rw [List.mem_singleton.mp (show m ∈ [rmE] from hm)]; rfl⟩, rfl, by decide, by rfl, fun _ h => nomatch h⟩
theorem wit_RoomAndDebugRequests_unknown (op : BitVec 8) (h : op ∈ ([0x00, 0x14, 0x1F, 0x23, 0x2F, 0x39, 0xFF] : List (BitVec 8))) :
    arrives (sOp 9 []) 3 (hd op []).op.toNat (hd op []) [] (conn3 9) ∧ ¬ listedCode (hd op []).op.toNat := by
  refine ⟨arrives_sOp 9 [] op [] (by decide), ?_⟩
  simp only [List.mem_cons, List.not_mem_nil, or_false] at h
  rcases h with rfl | rfl | rfl | rfl | rfl | rfl | rfl <;> (unfold listedCode; decide)
theorem wit_RoomAndDebugRequests_nonce : arrives (sOp 9 []) 3 0x30 (hd 0x30 (body8 [0])) (body8 [0]) (conn3 9) ∧
    (sOp 9 []).standing 3 = .room (q8 (body8 [0]) 0) ∧ (body8 [0]).length = 8 ∧ q8 (body8 [0]) 0 < 32 :=
  ⟨arrives_sOp _ _ 0x30 _ (by decide), by rfl, by decide, by decide⟩
/-- A key, a nonce and a signature over the nonce and a scope of 0. -/
def dbgKey : Nat × Nat :=
  (0x528acc409461b32ee387b67b4297cb4a869af0ea591608fe86e9f742769c7819b502e79e0d41028c61f49b1a8f2675d1,
   0x3f23300e4409cad524b1f9bc21fa86ce9cce501ce747a3bfe15a8f7be277e5f137df0a5c450db5a5c51e484c9d4efff7)
def dbgSig : Nat := 0x6e6973dcc7f76a9f661c65529b33a3edeb6691b3b1f1c73d35bac0aa8da405f35c2dc847c7c5ec7980194c5c76742b6f
def dbgNonce : List Byte := 1 :: List.replicate 31 0
def openDbg : List Byte := body8 [0] ++ beBytes 48 dbgSig ++ beBytes 48 dbgSig
def rmKey : Room := { rmE with debugKey := some dbgKey }
def connN : Conn := { conn3 9 with nonce := some dbgNonce }
def sKey : State := { sOp 9 [] with rooms := [rmKey], hub := { (sOp 9 []).hub with conns := [connN] } }
theorem wit_RoomAndDebugRequests_open : arrives sKey 3 0x30 (hd 0x30 openDbg) openDbg connN ∧ sKey.standing 3 = .room rmKey.num ∧
    sKey.room? rmKey.num = some rmKey ∧ openDbg.length = 104 ∧ q8 openDbg 0 = rmKey.num ∧ rmKey.num < 32 ∧ connN.nonce = some dbgNonce ∧
    rmKey.debugKey = some dbgKey ∧
    ecdsaOk dbgKey (dbgNonce ++ openDbg.take 8) (ofBe ((openDbg.drop 8).take 48)) (ofBe ((openDbg.drop 56).take 48)) = true ∧
    (∀ v ∈ sKey.hub.sessions, v.conn ≠ 3 ∧ v.scope ≠ rmKey.num ∧ v.scope ≠ 0xFF) :=
  ⟨⟨rfl, rfl, rfl, rfl, rfl, rfl, by decide +kernel, by decide +kernel, rfl, rfl, rfl, rfl,
      fun j hj => by rw [List.mem_singleton.mp (show j ∈ [jrn] from hj)]; exact ⟨rfl, rfl, rfl⟩,
      fun m hm => by rw [List.mem_singleton.mp (show m ∈ [rmKey] from hm)]; rfl⟩,
    rfl, rfl, by decide +kernel, by decide +kernel, by decide, rfl, rfl, by decide +kernel, fun _ h => nomatch h⟩
def ses : Session := { conn := 3, scope := 0 }
theorem wit_RoomAndDebugRequests_close : arrives (sOp 9 [ses]) 3 0x31 (hd 0x31 []) [] (conn3 9) ∧ (sOp 9 [ses]).sessionAt 3 = some ses :=
  ⟨arrives_sOp _ _ 0x31 _ (by decide), rfl⟩
def sDbg (g : Group) : State := { sOp 9 [ses] with groups := [g] }
def grpBody : List Byte := body8 [0, 0, 0]
theorem arrives_sDbg (g : Group) (op : BitVec 8) (body : List Byte) (h : body.length < 2 ^ 20) :
    arrives (sDbg g) 3 op.toNat (hd op body) body (conn3 9) :=
  arrives_of _ jrn 9 op body rfl rfl rfl (fun m hm => by rw [List.mem_singleton.mp (show m ∈ [rmE] from hm)]; rfl) ⟨rfl, rfl, h⟩
theorem names_sDbg (g : Group) (body : List Byte) (hb : 24 ≤ body.length ∧ q8 body 0 = 0 ∧ q8 body 1 = 0 ∧ q8 body 2 = 0)
    (h : g.core = 0 ∧ g.slot = 0 ∧ g.journey = 0) : inDebug (sDbg g) 3 jrn.room ∧ namesGroup (sDbg g) body jrn g := by
  refine ⟨⟨ses, rfl, .inr rfl⟩, hb.1, by omega, by omega, by omega, ?_, by decide, ?_, ?_, h.2.2⟩
  · rw [hb.2.1]
    rfl
  · rw [hb.2.2.1]
    rfl
  · rw [hb.2.2.1, hb.2.2.2]
    show ([g].find? _) = some g
    simp [Group.at, h.1, h.2.1]
theorem wit_RoomAndDebugRequests_halt (g : Group) (h : g.core = 0 ∧ g.slot = 0 ∧ g.journey = 0) :
    arrives (sDbg g) 3 0x32 (hd 0x32 grpBody) grpBody (conn3 9) ∧ inDebug (sDbg g) 3 jrn.room ∧ namesGroup (sDbg g) grpBody jrn g :=
  ⟨arrives_sDbg _ 0x32 _ (by decide), names_sDbg _ _ (by decide) h⟩
def gHalt : Group := { grp with halted := true, hold := .brk true }
theorem wit_RoomAndDebugRequests_resume : arrives (sDbg gHalt) 3 0x33 (hd 0x33 grpBody) grpBody (conn3 9) ∧ inDebug (sDbg gHalt) 3 jrn.room ∧
    namesGroup (sDbg gHalt) grpBody jrn gHalt ∧ gHalt.halted = true :=
  ⟨arrives_sDbg _ 0x33 _ (by decide), (names_sDbg _ grpBody (by decide) ⟨rfl, rfl, rfl⟩).1, (names_sDbg _ _ (by decide) ⟨rfl, rfl, rfl⟩).2, rfl⟩
theorem wit_RoomAndDebugRequests_read : arrives (sDbg grp) 3 0x34 (hd 0x34 grpBody) grpBody (conn3 9) ∧ inDebug (sDbg grp) 3 jrn.room ∧
    namesGroup (sDbg grp) grpBody jrn grp ∧ grp.lq = [] :=
  ⟨arrives_sDbg _ 0x34 _ (by decide), (names_sDbg _ grpBody (by decide) ⟨rfl, rfl, rfl⟩).1, (names_sDbg _ _ (by decide) ⟨rfl, rfl, rfl⟩).2, rfl⟩
def wrBody : List Byte := body8 [0, 0, 0, 63, 77]
theorem wit_RoomAndDebugRequests_write : arrives (sDbg gHalt) 3 0x35 (hd 0x35 wrBody) wrBody (conn3 9) ∧ inDebug (sDbg gHalt) 3 jrn.room ∧
    namesGroup (sDbg gHalt) wrBody jrn gHalt ∧ gHalt.halted = true ∧ 40 ≤ wrBody.length ∧ q8 wrBody 3 = 63 ∧ ((sDbg gHalt).core gHalt.core).ops = [] :=
  ⟨arrives_sDbg _ 0x35 _ (by decide), (names_sDbg _ wrBody (by decide) ⟨rfl, rfl, rfl⟩).1, (names_sDbg _ _ (by decide) ⟨rfl, rfl, rfl⟩).2, rfl, by decide,
    by decide, rfl⟩
def ptBody (slot kind : Nat) : List Byte := body8 [slot, kind, 0x10000]
theorem wit_RoomAndDebugRequests_point : arrives (sOp 9 [ses]) 3 0x36 (hd 0x36 (ptBody 7 1)) (ptBody 7 1) (conn3 9) ∧
    (sOp 9 [ses]).sessionAt 3 = some ses ∧ 24 ≤ (ptBody 7 1).length ∧ q8 (ptBody 7 1) 0 < 8 ∧ q8 (ptBody 7 1) 1 = 1 :=
  ⟨arrives_sOp _ _ 0x36 _ (by decide), rfl, by decide, by decide, by decide⟩
theorem wit_RoomAndDebugRequests_lanePoint : arrives (sOp 9 [ses]) 3 0x36 (hd 0x36 (ptBody 8 2)) (ptBody 8 2) (conn3 9) ∧
    8 ≤ q8 (ptBody 8 2) 0 ∧ q8 (ptBody 8 2) 0 < 16 ∧ q8 (ptBody 8 2) 1 = 2 :=
  ⟨arrives_sOp _ _ 0x36 _ (by decide), by decide, by decide, by decide⟩
def smpBody : List Byte := body8 [64, 0x10000, 0x10000]
theorem wit_RoomAndDebugRequests_sampling : arrives (sOp 9 [ses]) 3 0x37 (hd 0x37 smpBody) smpBody (conn3 9) ∧
    (sOp 9 [ses]).sessionAt 3 = some ses ∧ 24 ≤ smpBody.length ∧ 64 ≤ q8 smpBody 0 ∧ q8 smpBody 0 ≤ 2 ^ 32 ∧ q8 smpBody 1 % 65536 = 0 ∧
    q8 smpBody 2 % 65536 = 0 ∧ rmE ∈ (sOp 9 [ses]).rooms ∧ ses.scope = rmE.num ∧ rmE.holds (q8 smpBody 1) (q8 smpBody 2) = true :=
  ⟨arrives_sOp _ _ 0x37 _ (by decide), rfl, by decide, by decide, by decide, by decide, by decide, List.mem_singleton.mpr rfl, rfl, by decide⟩
def delBody : List Byte := body8 [0] ++ beBytes 48 5 ++ beBytes 48 6
theorem wit_RoomAndDebugRequests_delegate : arrives (sOp 0 []) 3 0x38 (hd 0x38 delBody) delBody (conn3 0) ∧ (sOp 0 []).standing 3 = .operator ∧
    104 ≤ delBody.length ∧ (sOp 0 []).room? (q8 delBody 0) = some rmE :=
  ⟨arrives_sOp _ _ 0x38 _ (by decide), rfl, by decide, by rfl⟩
/-- Sessions that sample into a ring of 1,365 records, with room and full. -/
def sesP (full : Bool) : Session := { ses with period := 64, bufPa := 0x10000, bufLen := 65536, wr := if full then 1365 else 1364 }
theorem wit_RoomAndDebugRequests_sample (b : Bool) : (sOp 9 [sesP b]).hub.sessions = [sesP b] ∧ (sesP b).due (sOp 9 [sesP b]) 0 = true ∧
    (sOp 9 [sesP b]).groups = [grp] ∧ grp.core = 0 ∧ grp.inRep = false ∧ grp.slot < 64 ∧ grp.journey < 256 ∧ grp.band < 256 ∧
    Memory.wf (sOp 9 [sesP b]).mem = true ∧ (decide ((sesP b).wr - (sesP b).rd < (sesP b).bufLen / 48) = !b) := by
  refine ⟨rfl, ?_, rfl, rfl, rfl, by decide, by decide, by decide, rfl, ?_⟩ <;> cases b <;> decide

/-! ### Witnesses: management -/

def resync : MsgHdr := { hdrOf 0 0 with type := 4, ack := 1 }
def connK : Conn := { conn3 9 with expect := 3, seq := 4, kept := [(1, some 1, [1]), (2, some 2, [2]), (3, none, [3])] }
def sConn : State := { sOp 9 [] with hub := { (sOp 9 []).hub with conns := [connK] } }
theorem wit_DeviceManagement_resync : sConn.hub.boot = .up ∧ resync.ver = 1 ∧ resync.type = 4 ∧ sConn.hub.conns.find? (fun y => y.num == 3) = some connK :=
  ⟨rfl, rfl, rfl, rfl⟩
def endp : Endpoint := ⟨9, 1, 2⟩
def hubS (h : Hub) : State := { State.reset with hub := h }
theorem wit_DeviceManagement_dropped : ({ hdrOf 0 0 with ver := 2 } : MsgHdr).ver ≠ 1 ∧ ({ hdrOf 0 0 with type := 5 } : MsgHdr).type.toNat > 4 ∧
    (hubS { boot := .up, endpoints := [endp] }).hub.endpoints = [endp] ∧ endp.addr = 9 ∧
    (hubS { boot := .up, endpoints := [endp] }).hub.boot = .up := ⟨by decide, by decide, rfl, rfl, rfl⟩
def rmTok : Room := { rm with rate := 700, depth := 9, tokens := 4, periods := 1000 }
theorem wit_DeviceManagement_refill : (st grp bnd {} jrn rmTok).rooms = [rmTok] ∧ rmTok.num = 0 := ⟨rfl, rfl⟩
theorem wit_DeviceManagement_connect : (sOp 9 []).hub.boot = .up ∧ (rmE ∈ (sOp 9 []).rooms ∧ 9 ∈ rmE.endpoints) ∧ (∀ y ∈ (sOp 9 []).hub.conns, y.num ≠ 4) ∧
    (∀ m ∈ (sOp 9 []).rooms, 9 ∈ m.endpoints → m.notices = []) :=
  ⟨rfl, ⟨List.mem_singleton.mpr rfl, by decide⟩, by decide, fun m hm _ => by rw [List.mem_singleton.mp (show m ∈ [rmE] from hm)]; rfl⟩
def rmNote : Room := { rmE with notices := [(1, 0, [5, 6])] }
def sNote : State := { sOp 9 [] with rooms := [rmNote], hub := { (sOp 9 []).hub with conns := [] } }
theorem wit_DeviceManagement_notices : sNote.hub.boot = .up ∧ sNote.rooms = [rmNote] ∧ 9 ∈ rmNote.endpoints ∧ sNote.hub.conns = [] ∧
    rmNote.notices = [(1, 0, [5, 6])] := ⟨rfl, rfl, by decide, rfl, rfl⟩
theorem wit_DeviceManagement_disconnect : (sDbg gHalt).sessionAt 3 = some ses ∧ (sDbg gHalt).groups = [gHalt] ∧ ses.scope = gHalt.room ∧
    (∃ j, (sDbg gHalt).journey? gHalt.journey = some j ∧ j.state ≠ .closing) := ⟨rfl, rfl, rfl, jrn, rfl, by decide⟩
theorem wit_DeviceManagement_training : (15 < 16 ∨ 64 < 64) ∧ 23 < 24 ∧ UnitId.port 23 ∉ (hubS {}).hub.fenced ∧ (hubS {}).rooms = [] :=
  ⟨by decide, by decide, by decide, rfl⟩
theorem wit_DeviceManagement_trained : 16 ≤ 16 ∧ 64 ≤ 64 ∧ 1200 ≤ 1200 ∧ 2200 ≤ 2200 := by decide
theorem wit_DeviceManagement_corrected : (hubS { thresholds := [(.core, 1)] }).hub.errors = [] ∧
    (hubS { thresholds := [(.core, 1)] }).hub.thresholds = [(.core, 1)] := ⟨rfl, rfl⟩
def sErr : State := { hubS { thresholds := [(.core, 0)] } with groups := [{ grp with core := 255 }] }
theorem wit_DeviceManagement_threshold : sErr.hub.errors = [] ∧ sErr.hub.thresholds = [(.core, 0)] ∧ UnitId.core 255 ∉ sErr.hub.fenced ∧ sErr.rooms = [] ∧
    sErr.bands = [] ∧ sErr.reqs = [] := ⟨rfl, rfl, by decide, rfl, rfl, rfl⟩
theorem wit_DeviceManagement_local : st0.band? 0 0 = some bnd ∧ st0.journeys = [jrn] ∧ bnd.journey = jrn.num ∧ st0.room? jrn.room = some rm ∧
    rm.faultq.length < 1024 ∧ st0.hub.conns = [] ∧ jrn.stopFor = none ∧ jrn.state = .running ∧ jrn.num < 256 ∧ Memory.wf st0.mem = true :=
  ⟨rfl, rfl, rfl, rfl, by decide, rfl, rfl, rfl, by decide, rfl⟩
def lnk : Link := { leaf := 31, toLeaf := 0, waiting := [⟨248, 1, 0⟩] }
theorem wit_DeviceManagement_permit : (hubS { links := [lnk] }).hub.links = [lnk] ∧ lnk.leaf = 31 ∧ lnk.toLeaf = 0 ∧ lnk.waiting ≠ [] ∧
    UnitId.cluster 31 ∉ (hubS { links := [lnk] }).hub.fenced := ⟨rfl, rfl, rfl, by decide, by decide⟩
theorem wit_DeviceManagement_fence : UnitId.core 255 ∉ sErr.hub.fenced ∧ sErr.rooms = [] ∧ sErr.bands = [] ∧ sErr.reqs = [] :=
  ⟨by decide, rfl, rfl, rfl⟩
/-- A room of clusters 0 and 1 with two extents, its journey with unpublished lines, a journey of another room, and a band on core 8. -/
def rmF : Room := { clusters := 3, extents := [⟨0, 0x200000⟩, ⟨2 * 2 ^ 38, 0x10000⟩] }
def jF : Journey := { jrn with dirty := [3, 9] }
def kF : Journey := { jrn with num := 1, room := 1 }
def sFence (j : Journey) (core : Nat) (reqs : List Req) : State :=
  { st { grp with core := core } { bnd with core := core } { num := core } j rmF with journeys := [j, kF], reqs := reqs, mem := [(0x180, 1)] }
theorem fenceAt_sFence (j : Journey) (core : Nat) (reqs : List Req) (h : j.num = 0 ∧ j.room = 0 ∧ j.state = .running ∧ j.stopFor = none ∧
    j.restore = none ∧ j.queue = [] ∧ j.pending = []) : fenceAt (sFence j core reqs) rmF j kF :=
  ⟨rfl, by decide, rfl, by rw [h.1]; decide, h.2.1, by decide, by rw [h.1]; decide, h.2.2.1, h.2.2.2.1, h.2.2.2.2.1, h.2.2.2.2.2.1, h.2.2.2.2.2.2, rfl,
    fun _ _ => by unfold State.commanded; split <;> simp [sFence, st, State.reset]⟩
theorem wit_DeviceManagement_fenceCore : fenceAt (sFence jF 8 []) rmF jF kF ∧ 8 < 256 ∧ rmF.clusters.toNat.testBit (8 / 8) = true ∧
    UnitId.core 8 ∉ (sFence jF 8 []).hub.fenced ∧ (sFence jF 8 []).reqs = [] ∧ (∃ b ∈ (sFence jF 8 []).bands, b.core = 8) ∧
    (∀ b ∈ (sFence jF 8 []).bands, b.core = 8 → b.journey = jF.num) :=
  ⟨fenceAt_sFence _ _ _ ⟨rfl, rfl, rfl, rfl, rfl, rfl, rfl⟩, by decide, by decide, by decide, rfl, ⟨_, List.mem_singleton.mpr rfl, rfl⟩,
    fun b hb _ => by rw [List.mem_singleton.mp (show b ∈ [{ bnd with core := 8 }] from hb)]; rfl⟩
theorem wit_DeviceManagement_fenceSlice : rmF.clusters.toNat.testBit (15 / 8) = true ∧ UnitId.slice 15 ∉ (sFence jF 8 []).hub.fenced ∧
    Memory.wf (sFence jF 8 []).pool = true := ⟨by decide, by decide, rfl⟩
/-- The port of the first extent, with a page behind it and without a table entry. -/
def portF : Nat := (⟨0, 0x200000⟩ : Extent).port
def jNone : Journey := { jF with tables := [{}, {}, {}, {}] }
theorem wit_DeviceManagement_fencePort : portF < 24 ∧ UnitId.port portF ∉ (sFence jF 8 []).hub.fenced ∧
    (∃ e ∈ rmF.extents, e.port = portF ∧ ∃ u ∈ jF.tables, ∃ p ∈ u.entries, p.window = false ∧ e.base ≤ p.target.toNat ∧ p.target.toNat < e.base + e.len) :=
  ⟨Nat.mod_lt _ (by decide), List.not_mem_nil, _, List.mem_cons_self, rfl, tbl, List.mem_cons_self, _, List.mem_cons_self, rfl, by decide, by decide⟩
theorem wit_DeviceManagement_fencePortUnmapped : fenceAt (sFence jNone 8 []) rmF jNone kF ∧ UnitId.port portF ∉ (sFence jNone 8 []).hub.fenced ∧
    (∀ e ∈ rmF.extents, e.port = portF → jNone.mapsExtent e = false) :=
  ⟨fenceAt_sFence _ _ _ ⟨rfl, rfl, rfl, rfl, rfl, rfl, rfl⟩, List.not_mem_nil, fun _ _ _ => rfl⟩
theorem wit_DeviceManagement_fenceCluster : rmF.clusters.toNat.testBit 1 = true ∧ rmF.clusters ≠ (1 : Word32) <<< 1 ∧
    UnitId.cluster 1 ∉ (sFence jF 8 []).hub.fenced ∧ (∃ b ∈ (sFence jF 8 []).bands, b.core / 8 = 1) ∧
    (∀ b ∈ (sFence jF 8 []).bands, b.core / 8 = 1 → b.journey = jF.num) :=
  ⟨by decide, by decide, by decide, ⟨_, List.mem_singleton.mpr rfl, by decide⟩,
    fun b hb _ => by rw [List.mem_singleton.mp (show b ∈ [{ bnd with core := 8 }] from hb)]; rfl⟩
def rqF : Req := { rq with agent := .ostler 1, kind := .atom .add .n32 1 0 none }
theorem wit_DeviceManagement_fenceRequest : fenceAt (sFence jrn 0 [rqF]) rmF jrn kF ∧ (∀ b ∈ (sFence jrn 0 [rqF]).bands, b.core / 8 ≠ 1) ∧
    (∀ v ∈ (sFence jrn 0 [rqF]).groups, v.core / 8 ≠ 1) ∧ jrn.dirty = [] ∧ jrn.unacq = [] ∧ (sFence jrn 0 [rqF]).reqs = [rqF] ∧
    rqF.agent = .ostler 1 ∧ rqF.core / 8 ≠ 1 ∧ (sFence jrn 0 [rqF]).group? rqF.core rqF.slot = some grp ∧ grp.dead = false ∧ grp.room = rmF.num ∧
    grp.journey = jrn.num :=
  ⟨fenceAt_sFence _ _ _ ⟨rfl, rfl, rfl, rfl, rfl, rfl, rfl⟩, fun b hb => by rw [List.mem_singleton.mp (show b ∈ [bnd] from hb)]; decide,
    fun b hb => by rw [List.mem_singleton.mp (show b ∈ [grp] from hb)]; decide, rfl, rfl, rfl, rfl, by decide, rfl, rfl, rfl, rfl⟩
/-- A leaf that has not reported while the hub's boot schedules. -/
def lnkN : Link := { leaf := 5 }
theorem wit_DeviceManagement_readyTimeout : (hubS { boot := .scheduling, links := [lnk, lnkN] }).hub.boot = .scheduling ∧
    lnkN ∈ (hubS { boot := .scheduling, links := [lnk, lnkN] }).hub.links ∧ lnkN.leaf = 5 ∧ lnkN.ready = false ∧ lnkN.fenced = false ∧
    UnitId.cluster 5 ∉ (hubS { boot := .scheduling, links := [lnk, lnkN] }).hub.fenced :=
  ⟨rfl, List.mem_cons_of_mem _ (List.mem_singleton.mpr rfl), rfl, rfl, rfl, by decide⟩
/-- Keys and signatures over the bytes of two fuse requests. -/
def keyRev : Nat × Nat :=
  (0x6037eba7759839917d8f08c4d02bd23859dceb4f2133038d244d1dd1a1ed4d1760f21a91885cb394b0ebb0f937be4a47,
   0x5b6584c1c61a873b4029f83c782202e52e63eba802c4844ccb1a26558ca2363066dc645d9db3a74622a4b374771aefb3)
def sigRev : Nat := 0x7210af19145ec2a8e250a7fe8e9eeeac1301e524daab82366c36be614dc35402a289101e48cad61c45337f2f32c14fdc
def keySvn : Nat × Nat :=
  (0x6924d5431c2508edd648bf64d8a06d0635d58152b226ee1b97e94e553b689504ef187957eca19d36b317073dc1aac520,
   0x506194d348a1d1dde98cfff8bb86ab0012b1b96577b540f0ac3daf8ee7d26cba74b6882543b722a5f0ac141ea3bd8e4a)
def sigSvn : Nat := 0x7969b0aa4e146e59a53c29bbb33f85ff879d9490fb8ef8ae5cba4eb114b1e944cbd116b4a2d612b1a93215f017f3fa3a
theorem wit_DeviceManagement_revoke : (hubS { opKey := some keyRev }).hub.opKey = some keyRev ∧ ecdsaOk keyRev (FuseArg.revoke 0).bytes sigRev sigRev = true :=
  ⟨rfl, by decide +kernel⟩
theorem wit_DeviceManagement_svn : ecdsaOk keySvn (FuseArg.minSvn 2 4).bytes sigSvn sigSvn = true ∧ SMap.wf 0 (hubS { opKey := some keySvn }).hub.minSvn = true :=
  ⟨by decide +kernel, rfl⟩
def fwImg : List Byte := [0, 0, 0, 0, 0, 5]
def sFw : State := hubS { boot := .up, running := [⟨5, 1, []⟩] }
theorem wit_DeviceManagement_firmware : sFw.hub.boot ≠ .off ∧ fieldAt fwImg 5 1 = 5 ∧
    sFw.hub.running.find? (fun r => r.kind == fieldAt fwImg 5 1) = some ⟨5, 1, []⟩ ∧ (⟨5, 1, []⟩ : Running).copy < 2 :=
  ⟨by decide, by decide, rfl, by decide⟩
def lnkR : Link := { leaf := 4 }
theorem wit_DeviceManagement_ready : (hubS { boot := .scheduling, links := [lnkR] }).hub.links = [lnkR] ∧ lnkR.leaf = 4 ∧ lnkR.ready = false ∧
    lnkR.fenced = false := ⟨rfl, rfl, rfl, rfl⟩
/-- A link whose leaf holds two commands and has sent two messages and keeps back a third. -/
def lnkC (permits : Nat) : Link :=
  { leaf := 0, toSched := permits, inbox := [⟨7, 2, 8⟩, ⟨6, 1, 9⟩], replies := [.refusal ⟨7, 3, 4⟩, .fenced 7], taken := 2, takenBack := 1,
    unsent := [.fenced 6] }
def sLnk (permits : Nat) (fenced : List UnitId) : State := hubS { links := [lnkC permits], fenced := fenced }
theorem wit_DeviceManagement_command (permits : Nat) (fenced : List UnitId) : (sLnk permits fenced).hub.links = [lnkC permits] ∧
    (lnkC permits).leaf = 0 ∧ (lnkC permits).inbox = ⟨7, 2, 8⟩ :: [⟨6, 1, 9⟩] := ⟨rfl, rfl, rfl⟩
theorem wit_DeviceManagement_commandFenced : (sLnk 3 [.core 7]).hub.coreFenced 7 = true ∧ 0 < (lnkC 3).toSched ∧ (lnkC 0).toSched = 0 ∧
    (sLnk 0 []).hub.coreFenced 7 = false := by decide
theorem wit_DeviceManagement_refusal : (sLnk 3 []).hub.links = [lnkC 3] ∧ (lnkC 3).replies = .refusal ⟨7, 3, 4⟩ :: [.fenced 7] ∧
    (∀ c, LeafMsg.refusal ⟨7, 3, 4⟩ = .refusal c → (sLnk 3 []).bandOf c = none) := ⟨rfl, rfl, fun c h => by cases h; rfl⟩
def bRef : Band := { bnd with core := 7, slot := 3, members := [1], cmd := 4 }
def sRef : State := { st grp bRef {} jrn rm with hub := { links := [lnkC 3] }, groups := [] }
theorem wit_DeviceManagement_replace : sRef.hub.links = [lnkC 3] ∧ (lnkC 3).replies = .refusal ⟨7, 3, 4⟩ :: [.fenced 7] ∧
    sRef.bandOf ⟨7, 3, 4⟩ = some bRef ∧ bRef.gangBands = [] ∧ bRef.members.Nodup ∧ sRef.room? bRef.room = some rm ∧
    placeOn (sRef.occs rm) (coresFor (rotateAfter (sRef.roomCores rm) rm.lastCore) bRef) bRef.need = some (0, ⟨0, [0], [0], 1, 0⟩) :=
  ⟨rfl, rfl, rfl, rfl, by decide, rfl, by decide +kernel⟩
theorem wit_DeviceManagement_return : 0 < (lnkC 3).taken ∧ (lnkC 3).waiting = [] ∧ 0 < (lnkC 3).takenBack ∧ (lnkC 3).unsent = .fenced 6 :: [] :=
  ⟨by decide, rfl, by decide, rfl⟩
def sPow : State := { st grp bnd {} jrn rm with hub := { owners := [(0, 0), (55, 0)] } }
/-- The module's limit and one watt more. -/
theorem wit_DeviceManagement_power : (List.replicate 32 50 ++ List.replicate 24 25).sum = 2200 ∧ sPow.rooms = [rm] ∧
    (∀ o ∈ sPow.hub.owners, o.1 < 56 ∧ o.2 = rm.num) := ⟨by decide, rfl, by decide⟩
theorem wit_DeviceManagement_powerOver : (List.replicate 32 50).length = 32 ∧ (26 :: List.replicate 23 25).length = 24 ∧
    2200 < (List.replicate 32 50 ++ (26 :: List.replicate 23 25)).sum := by decide

/-! ### Witnesses: windows, steps, encodings, memory -/

def winG : Group := { grp with winS := [⟨5, 3, 2, none⟩], s := grp.s.set 5 9 }
theorem wit_Windows_closed : (6 : SReg) ≠ 0 ∧ (∀ w ∈ (st winG bnd {} jrn rm).g.winS, w.reg ≠ 6) := by decide
theorem wit_Windows_open : (∃ w ∈ (st winG bnd {} jrn rm).g.winS, w.reg = 5) ∧ (5 : SReg) ≠ 0 ∧ (st winG bnd {} jrn rm).openS 5 = true :=
  ⟨⟨_, List.mem_singleton.mpr rfl, rfl⟩, by decide, by decide⟩
/-- A machine after reset in which a program has been placed. -/
def sRun (w : Nat) : State := State.reset.withFetchWord 32 w
def gRun : Group := ((sRun 0x04000004).group? 0 0).getD {}
theorem moves_sRun : scalarMoves (sRun 0x04000004) 0 0 gRun ∧ scalarMoves (sRun 0x07000000) 0 0 gRun :=
  ⟨⟨⟨rfl, rfl, rfl, rfl, rfl⟩, rfl⟩, ⟨⟨rfl, rfl, rfl, rfl, rfl⟩, rfl⟩⟩
theorem wit_StepRuns_instruction : scalarMoves (sRun 0x04000004) 0 0 gRun ∧ decodeScalar (fetched (sRun 0x04000004) gRun).2.1 = .ok .nop 1 ∧
    (atInstr (fetched (sRun 0x04000004) gRun).1 1).readyScalar .nop = true :=
  ⟨moves_sRun.1, by decide +kernel, by decide +kernel⟩
theorem wit_StepRuns_illegal : scalarMoves (sRun 0x07000000) 0 0 gRun ∧ decodeScalar (fetched (sRun 0x07000000) gRun).2.1 = .illegal 0 :=
  ⟨moves_sRun.2, by decide +kernel⟩
/-- An instruction that waits for a pending write of its source. -/
def opD : Op := { opn 5 with dstS := [7] }
def sWait (w : Nat) (sec : Word32) : State :=
  { st { grp with handler := { hand with ssize := sec } } bnd { ops := [opD] } jrn rm with script := [.scalar 0 0], mem := Memory.write [] 0x10000 (leBytes 4 w) }
def gWait (sec : Word32) : Group := { grp with handler := { hand with ssize := sec } }
theorem moves_sWait (w : Nat) (sec : Word32) : scalarMoves (sWait w sec) 0 0 (gWait sec) := ⟨⟨rfl, rfl, rfl, rfl, rfl⟩, rfl⟩
theorem wit_StepRuns_waits : scalarMoves (sWait 0x001461C0 0x1000) 0 0 (gWait 0x1000) ∧
    decodeScalar (fetched (sWait 0x001461C0 0x1000) (gWait 0x1000)).2.1 = .ok (.add 5 6 7) 1 ∧
    (atInstr (fetched (sWait 0x001461C0 0x1000) (gWait 0x1000)).1 1).readyScalar (.add 5 6 7) = false :=
  ⟨moves_sWait _ _, by decide +kernel, by decide +kernel⟩
/-- A section of four bytes that ends in the middle of a two-word instruction. -/
theorem wit_StepRuns_bound : scalarMoves (sWait 0x4B30418C 4) 0 0 (gWait 4) ∧ (fetched (sWait 0x4B30418C 4) (gWait 4)).2.2 = none ∧
    decodeScalar (fetched (sWait 0x4B30418C 4) (gWait 4)).2.1 = .bound 1 := ⟨moves_sWait _ _, by rfl, by decide +kernel⟩
/-- Behind a parked load of s5 with a window of two more instructions stands `add s9, s6, s8`. -/
def gPast : Group := { grp with park := some (prk 0x30000), ahead := { left := 2, gone := 0, reg := 5, from' := some 0xFFF8 } }
def sPast : State := { st gPast bnd {} jrn rm with script := [.scalar 0 0], mem := Memory.write [] 0x10000 (leBytes 4 0x00246200) }
theorem wit_StepRuns_past : scalarTurn sPast 0 0 gPast ∧ gPast.park.isSome = true ∧
    decodeScalar (sPast.focus gPast).fetchScalar.2.1 = .ok (.add 9 6 8) 1 ∧ goesPast (sPast.focus gPast) (.add 9 6 8) = true ∧
    (atInstr (sPast.focus gPast).fetchScalar.1 1).readyScalar (.add 9 6 8) = true :=
  ⟨⟨rfl, rfl, rfl, rfl, rfl⟩, rfl, by decide +kernel, by decide, by decide +kernel⟩
theorem wit_StepRuns_device : ({ State.reset with script := [.device (.setPowerCap 1500)] } : State).nextAgent = .device (.setPowerCap 1500) ∧
    (Instr.setPowerCap 1500).isStep = true := ⟨rfl, rfl⟩
theorem wit_StepRuns_devicePart : ({ State.reset with script := [.devicePart (.ringSlotFill 0 1) 3] } : State).nextAgent =
    .devicePart (.ringSlotFill 0 1) 3 ∧ (Instr.ringSlotFill 0 1).isStep = true := ⟨rfl, rfl⟩
def ent : LqEnt := { ins := .laneMovi plainHdr 10 5, addr := 0x18000, lqAddr := 0x10000, mask := 5, base := 0 }
def gTurn : Group := { grp with lq := [ent] }
def sLaneT (a : Agent) : State := { st gTurn bnd {} jrn rm with script := [a] }
theorem wit_StepRuns_lane : laneTurn (sLaneT (.lane 0 0)) 0 0 64 gTurn ent ∧ (atLaneWord (sLaneT (.lane 0 0)) 64 gTurn ent).readyLane ent.ins = true :=
  ⟨⟨.inl ⟨rfl, rfl⟩, rfl, rfl, rfl, .inl ⟨rfl, rfl⟩⟩, by decide +kernel⟩
theorem wit_StepRuns_lanePart : laneTurn (sLaneT (.lanePart 0 0 3)) 0 0 3 gTurn ent ∧
    (atLaneWord (sLaneT (.lanePart 0 0 3)) 3 gTurn ent).readyLane ent.ins = true :=
  ⟨⟨.inr rfl, rfl, rfl, rfl, .inl ⟨rfl, rfl⟩⟩, by decide +kernel⟩
/-- A parked load of lane register 20 with a window of one, and the word behind it. -/
def entLd : LqEnt := { ins := .ldG ⟨15, false, 0, false, 1⟩ .b32 20 ⟨6, false, 0, 0, 0⟩, addr := 0x17FF4, lqAddr := 0x10000, mask := 5, base := 0x30000 }
def gBehind : Group := { grp with lq := [entLd, ent], lpark := some (prk 0x30000) }
def sBehind : State := { st gBehind bnd {} jrn rm with script := [.lane 0 0] }
theorem wit_StepRuns_laneBehind : laneTurn sBehind 0 0 64 gBehind ent ∧ (atLaneWord sBehind 64 gBehind ent).readyLane ent.ins = true :=
  ⟨⟨.inl ⟨rfl, rfl⟩, rfl, rfl, rfl, .inr ⟨rfl, rfl, entLd, ⟨15, false, 0, false, 1⟩, rfl, rfl, by decide⟩⟩, by decide +kernel⟩
theorem wit_StepRuns_word : (st0.xlate none needX 0x10000).2 = .pool 0x10000 ∧ (st0.xlate none needX 0x10000).1.poison = [] ∧
    (st0.xlate none needX 0x10000).1.j.unacq = [] := ⟨by decide +kernel, by decide +kernel, by decide +kernel⟩
theorem wit_StepRuns_fetch : inScalar st0 0x10FFC ∧ ((0x10FFC : Word64) - st0.g.handler.sbase).toNat + 4 ≤ st0.g.handler.ssize.toNat ∧
    (match (st0.wordAt 0x10FFC).2 with | .inl w => w == 0 | .inr _ => false) = true := by
  simp only [inScalar]
  exact ⟨by decide +kernel, by decide +kernel, by decide +kernel⟩
theorem wit_ScalarEncodingRoundTrip : (Instr.repPrefix 2 1 1 1 0 (.add 31 30 21)).wf = true ∧ (Instr.repPrefix 2 1 1 1 0 (.add 31 30 21)).isLane = false := by
  decide
theorem wit_LaneEncodingRoundTrip : (Instr.fma ⟨3, false, 2, false, 0⟩ .f32 .rn false 20 4 5 6).wf = true ∧
    (Instr.fma ⟨3, false, 2, false, 0⟩ .f32 .rn false 20 4 5 6).isLane = true := by decide
theorem wit_StepKeepsMemoryCanonical : memoriesCanonical (sWait 0x04000004 0x1000) ∧
    ∃ t, step (sWait 0x04000004 0x1000) = .next t := ⟨⟨by decide +kernel, by decide +kernel⟩, _, rfl⟩

/-! ### Disassembly of words of the manual's section `halfpi` (R157) -/

theorem test_disassemble_folds :
    disassemble [] [0x411C1000, 0xA0000000, 0x84400000, 0x002071C2, 0xC0000000] =
      [.instr 0 (.addLong 7 1 0 0xA0000000), .instr 8 (.modifierPrefix .rn true false (.mul 8 7 7)), .word 16 0xC0000000] := by decide
theorem test_disassemble_label :
    disassemble [4] [0x84800000, 0x02145101] = [.pfx 0 .rz false false, .instr 4 (.faddF32 5 5 4)] := by decide
/-- R26, R157: saturation before `fadd` begins no legal instruction; a modifier before `rep` moves to the lines at the sequence's address. -/
theorem test_disassemble_sequences : disassemble [] [0x84400000, 0x02145101] = [.word 0 0x84400000, .instr 4 (.faddF32 5 5 4)] ∧
    disassemble [] [0x84400000, 0x88095000, 0x007DE540] = [.rep 0 2 1 1 1 0, .instr 8 (.modifierPrefix .rn true false (.add 31 30 21))] := by decide

end Sys2Proof.Tests
end

section
/-! PROOFS. Encoding and decoding of the scalar stream (O57). Each format's fields are read back once; a constructor's round trip then
is its decoder's cell with those fields put in. -/

namespace Sys2Proof.Encoding

/-! ### Codes of enumerated fields -/

@[simp] theorem rndOf_code (r : Rnd) : rndOf r.code.toNat = some r := by cases r <;> rfl
@[simp] theorem icondOf_code (c : ICond) : icondOf c.code.toNat = some c := by cases c <;> rfl
@[simp] theorem swidthOf_code (w : SWidth) : swidthOf w.code.toNat = some w := by cases w <;> rfl
@[simp] theorem mfmtOf_code (m : MFmt) : mfmtOf m.code.toNat = some m := by cases m <;> rfl
@[simp] theorem cfmtOf_code (m : CFmt) : cfmtOf m.code.toNat = some m := by cases m <;> rfl
@[simp] theorem pushQOf_code (q : PushQ) : pushQOf q.code.toNat = some q := by cases q <;> rfl

/-! ### Fields of joined words -/

/-- A field or a bit that lies within one part of a joined word is a field or a bit of that part. -/
theorem append_fields {v w : Nat} (x : BitVec v) (y : BitVec w) (s l : Nat) :
    (w ≤ s → (x ++ y).extractLsb' s l = x.extractLsb' (s - w) l) ∧ (s + l ≤ w → (x ++ y).extractLsb' s l = y.extractLsb' s l) :=
  ⟨BitVec.extractLsb'_append_eq_of_le, BitVec.extractLsb'_append_eq_of_add_le⟩
theorem append_bits {v w : Nat} (x : BitVec v) (y : BitVec w) (s : Nat) :
    (w ≤ s → (x ++ y).getLsbD s = x.getLsbD (s - w)) ∧ (s < w → (x ++ y).getLsbD s = y.getLsbD s) :=
  ⟨fun h => by rw [BitVec.getLsbD_append, if_neg (Nat.not_lt.mpr h)], fun h => by rw [BitVec.getLsbD_append, if_pos h]⟩

@[simp] theorem bit_getLsbD (b : Bool) : (bit b).getLsbD 0 = b := by cases b <;> rfl

/-- A four-bit number in a six-bit field, read back (R35). -/
@[simp] theorem k6_fields (k : BitVec 4) : low4 (k6 k) = k ∧ high2 (k6 k) = true ∧ (k6 k).toNat = k.toNat := by
  refine ⟨?_, ?_, ?_⟩
  · unfold low4 k6; simp [↓append_fields]
  · unfold high2 k6; simp [↓append_fields]
  · unfold k6; simp [↓BitVec.toNat_append]

/-! ### The fields of the scalar formats (R20, R21, R23, R24) -/

section
variable (op d a b fn : BitVec 6) (imm : BitVec 12) (w : SWidth) (off : BitVec 9) (off18 : BitVec 18) (off24 : BitVec 24)
  (la : BitVec 4) (x : BitVec 2)

@[simp] theorem encR_fields : (encR op d a b fn).extractLsb' 30 2 = 0 ∧ (encR op d a b fn).extractLsb' 24 6 = op ∧
    s32r (encR op d a b fn) = ⟨d, a, b, fn.toNat⟩ := by
  unfold encR s32r; refine ⟨?_, ?_, ?_⟩ <;> simp [↓append_fields, ↓BitVec.extractLsb'_eq_self]

@[simp] theorem encI_fields : (encI op d a imm).extractLsb' 30 2 = 0 ∧ (encI op d a imm).extractLsb' 24 6 = op ∧
    (s32r (encI op d a imm)).d = d ∧ (s32r (encI op d a imm)).a = a ∧ (encI op d a imm).extractLsb' 0 12 = imm := by
  unfold encI s32r; refine ⟨?_, ?_, ?_, ?_, ?_⟩ <;> simp [↓append_fields, ↓BitVec.extractLsb'_eq_self]

@[simp] theorem encM_fields : (encM op w d a off).extractLsb' 30 2 = 0 ∧ (encM op w d a off).extractLsb' 24 6 = op ∧
    (s32r (encM op w d a off)).d = d ∧ (s32r (encM op w d a off)).a = a ∧
    (encM op w d a off).extractLsb' 9 3 = w.code ∧ (encM op w d a off).extractLsb' 0 9 = off := by
  unfold encM s32r; refine ⟨?_, ?_, ?_, ?_, ?_, ?_⟩ <;> simp [↓append_fields, ↓BitVec.extractLsb'_eq_self]

@[simp] theorem encL_fields : (encL op d off18).extractLsb' 30 2 = 0 ∧ (encL op d off18).extractLsb' 24 6 = op ∧
    (s32r (encL op d off18)).d = d ∧ (encL op d off18).extractLsb' 0 18 = off18 := by
  unfold encL s32r; refine ⟨?_, ?_, ?_, ?_⟩ <;> simp [↓append_fields, ↓BitVec.extractLsb'_eq_self]

@[simp] theorem encJ_fields : (encJ op off24).extractLsb' 30 2 = 0 ∧ (encJ op off24).extractLsb' 24 6 = op ∧
    (encJ op off24).extractLsb' 0 24 = off24 := by
  unfold encJ; refine ⟨?_, ?_, ?_⟩ <;> simp [↓append_fields, ↓BitVec.extractLsb'_eq_self]

@[simp] theorem enc64_fields : (enc64 op d a b la x).extractLsb' 30 2 = 1 ∧ (enc64 op d a b la x).extractLsb' 24 6 = op ∧
    (enc64 op d a b la x).extractLsb' 18 6 = d ∧ (enc64 op d a b la x).extractLsb' 12 6 = a ∧
    (enc64 op d a b la x).extractLsb' 6 6 = b ∧ (enc64 op d a b la x).extractLsb' 2 4 = la ∧
    (enc64 op d a b la x).extractLsb' 0 2 = x ∧ (enc64 op d a b la x).getLsbD 0 = x.getLsbD 0 ∧
    (enc64 op d a b la x).getLsbD 1 = x.getLsbD 1 := by
  unfold enc64; refine ⟨?_, ?_, ?_, ?_, ?_, ?_, ?_, ?_, ?_⟩ <;>
    simp [↓append_fields, ↓append_bits, ↓BitVec.extractLsb'_eq_self, -BitVec.getLsbD_eq_getElem]

end

/-! ### Instructions without prefixes -/

/-- A well-formed instruction whose reserved fields are zero is kept. -/
theorem keep_of_wf {i : Instr} (h : i.wf = true) : keep true i = some i := if_pos h

theorem wf_of_wfScalar {i : Instr} (h : i.wfScalar = true) : i.wf = true := by
  unfold Instr.wf
  split
  · cases h
  · cases h
  · cases h
  · cases h
  · exact (Bool.and_eq_true_iff.mp h).1

/-- What one or two words behind their prefixes decode to. -/
def ReadsAs (i : Instr) : List Word32 → Prop
  | [w] => w.extractLsb' 30 2 = 0 ∧ decodeS32 w = some i
  | [w, e] => w.extractLsb' 30 2 = 1 ∧ decodeS64 w e = some i
  | _ => False

/-- An instruction encodes, and its words read as it. -/
def RoundTrips (i : Instr) : Prop := ∃ ws, encodeScalar i = some ws ∧ ReadsAs i ws

theorem reads_integer {d a b fn : BitVec 6} {i : Instr} (he : encodeScalar i = some [encR 0 d a b fn])
    (h : decodeInteger ⟨d, a, b, fn.toNat⟩ = some i) : RoundTrips i :=
  ⟨_, he, (encR_fields ..).1, by simp only [decodeS32, encR_fields]; exact h⟩

theorem reads_unary {d a b fn : BitVec 6} {i : Instr} (he : encodeScalar i = some [encR 1 d a b fn])
    (h : decodeUnary ⟨d, a, b, fn.toNat⟩ = some i) : RoundTrips i :=
  ⟨_, he, (encR_fields ..).1, by simp only [decodeS32, encR_fields]; exact h⟩

theorem reads_float {d a b fn : BitVec 6} {i : Instr} (he : encodeScalar i = some [encR 2 d a b fn])
    (h : decodeFloat ⟨d, a, b, fn.toNat⟩ = some i) : RoundTrips i :=
  ⟨_, he, (encR_fields ..).1, by simp only [decodeS32, encR_fields]; exact h⟩

theorem reads_mask {d a b fn : BitVec 6} {i : Instr} (he : encodeScalar i = some [encR 3 d a b fn])
    (h : decodeMask ⟨d, a, b, fn.toNat⟩ = some i) : RoundTrips i :=
  ⟨_, he, (encR_fields ..).1, by simp only [decodeS32, encR_fields]; exact h⟩

theorem reads_control {d a b fn : BitVec 6} {i : Instr} (he : encodeScalar i = some [encR 4 d a b fn])
    (h : decodeControl ⟨d, a, b, fn.toNat⟩ = some i) : RoundTrips i :=
  ⟨_, he, (encR_fields ..).1, by simp only [decodeS32, encR_fields]; exact h⟩

theorem reads_sync {d a b fn : BitVec 6} {i : Instr} (he : encodeScalar i = some [encR 5 d a b fn])
    (h : decodeSync ⟨d, a, b, fn.toNat⟩ = some i) : RoundTrips i :=
  ⟨_, he, (encR_fields ..).1, by simp only [decodeS32, encR_fields]; exact h⟩

theorem reads_engine {d a b fn : BitVec 6} {i : Instr} (he : encodeScalar i = some [encR 6 d a b fn])
    (h : decodeEngine ⟨d, a, b, fn.toNat⟩ = some i) : RoundTrips i :=
  ⟨_, he, (encR_fields ..).1, by simp only [decodeS32, encR_fields]; exact h⟩

theorem reads_long {op d a b : BitVec 6} {la : BitVec 4} {x : BitVec 2} {e : Word32} {i : Instr}
    (he : encodeScalar i = some [enc64 op d a b la x, e]) (h : decodeS64 (enc64 op d a b la x) e = some i) : RoundTrips i :=
  ⟨_, he, (enc64_fields ..).1, h⟩

theorem roundTrips_mdrain {f : FReg} {la : BitVec 4} {lanes half e8 rs cs clear ftz : Bool} {r : Rnd} {vd8 dtile stile : BitVec 5}
    {cv rv : VReg} {i : Instr} (hi : i = .mdrain f la lanes half e8 rs cs clear ftz r vd8 dtile stile cv rv)
    (hk : keep true i = some i) : RoundTrips i := by
  subst hi
  refine reads_long rfl ?_
  generalize ha : (0 : BitVec 1) ++ vd8 = a
  generalize hb : (0 : BitVec 3) ++ bit cs ++ bit rs ++ bit e8 = b
  simp [decodeS64, ↓enc64_fields, ↓append_fields, ↓append_bits, ↓BitVec.extractLsb'_eq_self, -BitVec.getLsbD_eq_getElem]
  subst ha hb
  simp [↓append_fields, ↓append_bits, -BitVec.getLsbD_eq_getElem, hk]

theorem roundTrips_cdrain {f : FReg} {la : BitVec 4} {pairs e8 rs cs ftz : Bool} {r : Rnd} {dtile : BitVec 5}
    {cv rv : VReg} {i : Instr} (hi : i = .cdrain f la pairs e8 rs cs ftz r dtile cv rv)
    (hk : keep true i = some i) : RoundTrips i := by
  subst hi
  refine reads_long rfl ?_
  generalize ha : (0 : BitVec 5) ++ bit pairs = a
  generalize hb : (0 : BitVec 3) ++ bit cs ++ bit rs ++ bit e8 = b
  simp [decodeS64, ↓enc64_fields, ↓append_fields, ↓append_bits, ↓BitVec.extractLsb'_eq_self, -BitVec.getLsbD_eq_getElem]
  subst ha hb
  simp [↓append_fields, ↓append_bits, -BitVec.getLsbD_eq_getElem, hk]

theorem encodeScalar_roundTrips (i : Instr) (h : i.wfScalar = true) : RoundTrips i := by
  have hk : keep true i = some i := keep_of_wf (wf_of_wfScalar h)
  replace h : (!i.isLane && i.wfCore) = true := (Bool.and_comm ..).trans h
  cases i with
  | add | sub | mul | mulhiS64 | mulhiN64 | divS64 | divN64 | remS64 | remN64 | and | or | xor | andn | shl | shr | sar
  | minS64 | minN64 | maxS64 | maxN64 => exact reads_integer rfl hk
  | cmpCc c => cases c <;> exact reads_integer rfl hk
  | mov | abs | clz | popc | brev => exact reads_unary rfl hk
  | faddF64 | faddF32 | fmulF64 | fmulF32 | fcvtF32F64 | fcvtF64F32 | fcvtS64F64 | fcvtN64F64 | fcvtF64S64 | fcvtF64N64
  | fcvtS64F32 | fcvtN64F32 | fcvtF32S64 | fcvtF32N64 => exact reads_float rfl hk
  | fcmpCcF64 c | fcmpCcF32 c => cases c <;> exact reads_float rfl hk
  | kand | kor | kxor | kandn | knot | kmov | kpop | kffs | kset | kball => exact reads_mask rfl (by simp [decodeMask, hk])
  | ret | jmpi | lret | exit | nop => exact reads_control rfl hk
  | fenceSc | fenceEng | fenceFabric | bar | barArrive | barWait | gbar | waitpLd | waitpSt | waitpSp | waitpGa | swait | sdone =>
    exact reads_sync rfl hk
  | ftest | fwait | fcancel | fget | fput => exact reads_sync rfl (by simp [decodeSync, hk])
  | cclear | enough | itfree => exact reads_engine rfl hk
  | addImm | andImm | orImm | xorImm | mulImm | minS64Imm | maxS64Imm | sysr | sysw | trap | brk | lq =>
    exact ⟨_, rfl, (encI_fields ..).1, by simp [decodeS32, hk]⟩
  | shlImm | shrImm | sarImm =>
    refine ⟨_, rfl, (encI_fields ..).1, ?_⟩
    simp only [decodeS32, encI_fields]
    simp [↓append_fields, ↓BitVec.extractLsb'_eq_self, hk]
  | ld | st | ldsp | stsp => exact ⟨_, rfl, (encM_fields ..).1, by simp [decodeS32, ↓encM_fields, hk]⟩
  | movi | bz | bnz | ball => exact ⟨_, rfl, (encL_fields ..).1, by simp [decodeS32, hk]⟩
  | br | call | ljmp | lcall => exact ⟨_, rfl, (encJ_fields ..).1, by simp [decodeS32, hk]⟩
  | moviLong | addLong | andLong | orLong | xorLong | bCc | push | itbind | cmerge | cancelScalar
  | sel | bfx | bfi | fmaF64 | fmaF32 | mloop | cloop | cspill | aset | drvNext | schedScalar =>
    refine reads_long rfl ?_
    simp [decodeS64, ↓enc64_fields, ↓append_fields, ↓append_bits, ↓BitVec.extractLsb'_eq_self, -BitVec.getLsbD_eq_getElem, hk]
  | ldLong w | stLong w | ldspLong w | stspLong w =>
    cases w <;> exact reads_long rfl (by simp [decodeS64, SWidth.code, swidthOf, high2, hk])
  | mdrain => exact roundTrips_mdrain rfl hk
  | cdrain => exact roundTrips_cdrain rfl hk
  | _ => exact Bool.noConfusion h

/-! ### Prefix sequences (R23 to R25) -/

theorem encode_of_encodeScalar {i : Instr} {ws : List Word32} (h : encodeScalar i = some ws) : encode i = some ws := by
  unfold encode
  split
  · cases h
  · cases h
  · rw [h]

@[simp] theorem encModifier_fields (r : Rnd) (sat ftz : Bool) : (encModifier r sat ftz).extractLsb' 30 2 = 2 ∧
    pfxKind (encModifier r sat ftz) = 1 ∧ (encModifier r sat ftz).extractLsb' 23 3 = r.code ∧ (encModifier r sat ftz).getLsbD 22 = sat ∧
    (encModifier r sat ftz).getLsbD 21 = ftz ∧ (encModifier r sat ftz).extractLsb' 0 21 = 0 := by
  unfold encModifier pfxKind
  refine ⟨?_, ?_, ?_, ?_, ?_, ?_⟩ <;> simp [↓append_fields, ↓append_bits, ↓BitVec.extractLsb'_eq_self, -BitVec.getLsbD_eq_getElem]

@[simp] theorem encRep_fields (cnt : BitVec 8) (ds as bs : BitVec 2) (st : BitVec 12) : (encRep cnt ds as bs st).extractLsb' 30 2 = 2 ∧
    pfxKind (encRep cnt ds as bs st) = 2 ∧ (encRep cnt ds as bs st).extractLsb' 18 8 = cnt ∧ (encRep cnt ds as bs st).extractLsb' 16 2 = ds ∧
    (encRep cnt ds as bs st).extractLsb' 14 2 = as ∧ (encRep cnt ds as bs st).extractLsb' 12 2 = bs ∧
    (encRep cnt ds as bs st).extractLsb' 0 12 = st := by
  unfold encRep pfxKind
  refine ⟨?_, ?_, ?_, ?_, ?_, ?_, ?_⟩ <;> simp [↓append_fields, ↓BitVec.extractLsb'_eq_self]

theorem wrapPfx_encModifier (r : Rnd) (sat ftz : Bool) (i : Instr) : wrapPfx (encModifier r sat ftz) i = .modifierPrefix r sat ftz i := by
  simp only [wrapPfx, encModifier_fields, rndOf_code]
  rfl

theorem wrapPfx_encRep (cnt : BitVec 8) (ds as bs : BitVec 2) (st : BitVec 12) (i : Instr) :
    wrapPfx (encRep cnt ds as bs st) i = .repPrefix cnt ds as bs st i := by
  simp only [wrapPfx, encRep_fields]
  rfl

/-- A rounding mode other than `.rs` keeps the field limit of a modifier prefix (R23). -/
theorem pfxFieldsOk_encModifier {r : Rnd} (hr : r.plain = true) (sat ftz : Bool) : pfxFieldsOk (encModifier r sat ftz) = true := by
  simp only [pfxFieldsOk, encModifier_fields]
  cases r with
  | rs => cases hr
  | _ => rfl

/-- The first of a sequence, or the second behind a prefix of the other kind, stands (R25). -/
theorem decodePfx_modifier {r : Rnd} (hr : r.plain = true) (sat ftz : Bool) (rest : List Word32) {n : Nat} (hn : n < 2) {seen : List Nat}
    (hs : 1 ∉ seen) {i : Instr} {k : Nat} (h : decodePfx rest (n + 1) (1 :: seen) none = .ok i k) :
    decodePfx (encModifier r sat ftz :: rest) n seen none = .ok (.modifierPrefix r sat ftz i) k := by
  have hst : pfxStands (encModifier r sat ftz) n seen = true := by
    simp [pfxStands, pfxFieldsOk_encModifier hr, hn, hs]
  rw [decodePfx, hst, (encModifier_fields ..).1, (encModifier_fields r sat ftz).2.1, if_pos (by simp; omega)]
  simp [h, Dec.wrap, wrapPfx_encModifier]

theorem decodePfx_rep (cnt : BitVec 8) (ds as bs : BitVec 2) (st : BitVec 12) (rest : List Word32) {n : Nat} (hn : n < 2) {seen : List Nat}
    (hs : 2 ∉ seen) {i : Instr} {k : Nat} (h : decodePfx rest (n + 1) (2 :: seen) none = .ok i k) :
    decodePfx (encRep cnt ds as bs st :: rest) n seen none = .ok (.repPrefix cnt ds as bs st i) k := by
  have hst : pfxStands (encRep cnt ds as bs st) n seen = true := by
    simp [pfxStands, pfxFieldsOk, hn, hs]
  rw [decodePfx, hst, (encRep_fields ..).1, (encRep_fields cnt ds as bs st).2.1, if_pos (by simp; omega)]
  simp [h, Dec.wrap, wrapPfx_encRep]

/-- Behind its prefixes an instruction's words decode to it. -/
theorem decodePfx_reads {i : Instr} {ws : List Word32} (h : ReadsAs i ws) (tail : List Word32) (n : Nat) (seen : List Nat) :
    decodePfx (ws ++ tail) n seen none = .ok i (n + ws.length) := by
  match ws, h with
  | [w], ⟨hs, hd⟩ => simp [decodePfx, decodeBody, hs, hd]
  | [w, e], ⟨hs, hd⟩ => simp [decodePfx, decodeBody, hs, hd]

/-- What an instruction's words decode to behind `n` words of prefixes. -/
def ReadsBehind (i : Instr) (n : Nat) (seen : List Nat) : Prop :=
  ∃ ws, encode i = some ws ∧ ∀ tail, decodePfx (ws ++ tail) n seen none = .ok i (n + ws.length)

theorem readsBehind_of_wfScalar {i : Instr} (h : i.wfScalar = true) (n : Nat) (seen : List Nat) : ReadsBehind i n seen := by
  obtain ⟨ws, he, hr⟩ := encodeScalar_roundTrips i h
  exact ⟨ws, encode_of_encodeScalar he, fun tail => decodePfx_reads hr tail n seen⟩

theorem readsBehind_modifier {r : Rnd} (hr : r.plain = true) (sat ftz : Bool) {i : Instr} {n : Nat} (hn : n < 2) {seen : List Nat}
    (hs : 1 ∉ seen) (h : ReadsBehind i (n + 1) (1 :: seen)) : ReadsBehind (.modifierPrefix r sat ftz i) n seen := by
  obtain ⟨ws, he, hd⟩ := h
  refine ⟨encModifier r sat ftz :: ws, by rw [encode, he]; rfl, fun tail => ?_⟩
  rw [List.length_cons, Nat.add_comm ws.length, ← Nat.add_assoc]
  exact decodePfx_modifier hr sat ftz (ws ++ tail) hn hs (hd tail)

theorem readsBehind_rep (cnt : BitVec 8) (ds as bs : BitVec 2) (st : BitVec 12) {i : Instr} {n : Nat} (hn : n < 2) {seen : List Nat}
    (hs : 2 ∉ seen) (h : ReadsBehind i (n + 1) (2 :: seen)) : ReadsBehind (.repPrefix cnt ds as bs st i) n seen := by
  obtain ⟨ws, he, hd⟩ := h
  refine ⟨encRep cnt ds as bs st :: ws, by rw [encode, he]; rfl, fun tail => ?_⟩
  rw [List.length_cons, Nat.add_comm ws.length, ← Nat.add_assoc]
  exact decodePfx_rep cnt ds as bs st (ws ++ tail) hn hs (hd tail)

/-- The prefix sequences that R25 admits, and the instruction alone. -/
theorem readsBehind_of_wf {i : Instr} (h : i.wf = true) (hl : i.isLane = false) : ReadsBehind i 0 [] := by
  unfold Instr.wf at h
  split at h
  · obtain ⟨hr, hi⟩ := Bool.and_eq_true_iff.mp h
    exact readsBehind_modifier hr _ _ (by decide) (by decide) (readsBehind_rep _ _ _ _ _ (by decide) (by decide) (readsBehind_of_wfScalar hi _ _))
  · obtain ⟨hr, hi⟩ := Bool.and_eq_true_iff.mp h
    exact readsBehind_modifier hr _ _ (by decide) (by decide) (readsBehind_of_wfScalar hi _ _)
  · obtain ⟨hr, hi⟩ := Bool.and_eq_true_iff.mp h
    exact readsBehind_rep _ _ _ _ _ (by decide) (by decide) (readsBehind_modifier hr _ _ (by decide) (by decide) (readsBehind_of_wfScalar hi _ _))
  · exact readsBehind_rep _ _ _ _ _ (by decide) (by decide) (readsBehind_of_wfScalar h _ _)
  · exact readsBehind_of_wfScalar (by rw [Instr.wfScalar, h, hl]; rfl) _ _

/-- Settles O57: each scalar format reads its fields back, and each prefix stands before what follows it. -/
theorem scalarEncodingRoundTrip : Obligations.ScalarEncodingRoundTrip := by
  intro i tail h hl
  obtain ⟨ws, he, hd⟩ := readsBehind_of_wf h hl
  exact ⟨ws, he, by rw [decodeScalar, hd tail, Nat.zero_add]⟩

end Sys2Proof.Encoding
end

section
/-! PROOFS. Encoding and decoding of lane words (O58). A lane word's fields are read back once; a constructor's round trip then is its row of
the lane grid with those fields put in. -/

namespace Sys2Proof.Encoding

/-! ### Codes of enumerated fields -/

@[simp] theorem lcondOf_code (c : LCond) : lcondOf c.code.toNat = some c := by cases c <;> rfl
@[simp] theorem fcondOf_code (c : FCond) : fcondOf c.code.toNat = some c := by cases c <;> rfl
@[simp] theorem ltyOf_code (t : LTy) : ltyOf t.code.toNat = some t := by cases t <;> rfl
@[simp] theorem mtyOf_code (t : MTy) : mtyOf t.code.toNat = some t := by cases t <;> rfl
@[simp] theorem ityOf_code (t : ITy) : ityOf t.code.toNat = some t := by cases t <;> rfl
@[simp] theorem icmpTyOf_code (t : ICmpTy) : icmpTyOf t.code.toNat = some t := by cases t <;> rfl
@[simp] theorem f2Of_code (t : F2) : f2Of t.code.toNat = some t := by cases t <;> rfl
@[simp] theorem ftyOf_code (t : FTy) : ftyOf t.code.toNat = some t := by cases t <;> rfl
@[simp] theorem scanTyOf_code (t : ScanTy) : scanTyOf t.code.toNat = some t := by cases t <;> rfl
@[simp] theorem scanOpOf_code (o : ScanOp) : scanOpOf o.code.toNat = some o := by cases o <;> rfl
@[simp] theorem xwidthOf_code (w : XWidth) : xwidthOf w.code.toNat = some w := by cases w <;> rfl
@[simp] theorem evItemOf_code (it : EvItem) : evItemOf it.code.toNat = some it := by cases it <;> rfl
@[simp] theorem atyOf_code (t : ATy) : atyOf t.code.toNat = some t := by cases t <;> rfl
@[simp] theorem aopOf_code (o : AOp) : aopOf o.code.toNat = some o := by cases o <;> rfl
@[simp] theorem scopeOf_code (s : Scope) : scopeOf s.code.toNat = some s := by cases s <;> rfl
@[simp] theorem w64Of_code (w : Bool) : w64Of (w64Code w).toNat = some w := by cases w <;> rfl

/-- A predicate number in an eight-bit field, read back (R42). -/
@[simp] theorem p8_fields (p : PReg) : lowP (p8 p) = p ∧ highP (p8 p) = true := by
  unfold lowP highP p8
  constructor <;> simp [↓append_fields, ↓BitVec.extractLsb'_eq_self]

/-- A flag in the low bit of the immediate, read back. -/
@[simp] theorem immBit_fields (b : Bool) : (immBit b).getLsbD 0 = b ∧ (immBit b).extractLsb' 1 31 = 0 := by
  unfold immBit
  constructor <;> simp [↓append_fields, ↓append_bits, -BitVec.getLsbD_eq_getElem]

/-- The immediate of `atom` and `red`, read back (R191). -/
@[simp] theorem atomImm_fields (o : AOp) (sc : Scope) (m : LaneAddr) :
    (atomImm o sc m).extractLsb' 0 4 = o.code ∧ (atomImm o sc m).extractLsb' 4 3 = sc.code := by
  unfold atomImm
  constructor <;> simp [↓append_fields, ↓BitVec.extractLsb'_eq_self]

/-- A 16-bit offset comes back sign-extended (R191). -/
theorem atomAddr_atomImm (o : AOp) (sc : Scope) {m : LaneAddr} (hm : m.off16 = true) : atomAddr m.b (atomImm o sc m) = m := by
  have hoff : (m.off.extractLsb' 0 16).signExtend 32 = m.off := eq_of_beq hm
  unfold atomAddr atomImm
  simp [↓append_fields, ↓append_bits, ↓BitVec.extractLsb'_eq_self, -BitVec.getLsbD_eq_getElem, hoff]

/-! ### The fields of a lane word (R38) -/

/-- The row of the lane grid that decodes an opcode (R40). -/
theorem decodeLane_encW (op : BitVec 8) (h : LaneHdr) (d a b c : VReg) (rnd : BitVec 3) (sat reuse : Bool) (ty : BitVec 4) (imm : Word32) :
    decodeLane (encW op h d a b c rnd sat reuse ty imm) =
      if op.toNat < 0x20 then decodeLaneInt op.toNat h d a b c ⟨rnd.toNat, sat, reuse, ty.toNat, imm⟩
      else if op.toNat < 0x40 then decodeLaneFloat op.toNat h d a b c ⟨rnd.toNat, sat, reuse, ty.toNat, imm⟩
      else if op.toNat < 0x50 then decodeLaneX op.toNat h d a b c ⟨rnd.toNat, sat, reuse, ty.toNat, imm⟩
      else decodeLaneMem op.toNat h d a b c ⟨rnd.toNat, sat, reuse, ty.toNat, imm⟩ := by
  unfold decodeLane laneHdr laneRest encW
  simp (disch := omega) only [append_fields, append_bits, BitVec.extractLsb'_eq_self, Nat.reduceSub, bit_getLsbD]
  rfl

/-- A lane instruction encodes to a lane word that decodes to it. -/
def LaneRoundTrips (i : Instr) : Prop := ∃ w, encodeLane i = some w ∧ encode i = some (laneWords w) ∧ decodeLane w = some i

section
variable {op : BitVec 8} {h : LaneHdr} {d a b c : VReg} {rnd : BitVec 3} {sat reuse : Bool} {ty : BitVec 4} {imm : Word32} {i : Instr}
  (he : encodeLane i = some (encW op h d a b c rnd sat reuse ty imm)) (hw : encode i = some (laneWords (encW op h d a b c rnd sat reuse ty imm)))
include he hw

theorem lane_int (hop : op.toNat < 0x20) (hd : decodeLaneInt op.toNat h d a b c ⟨rnd.toNat, sat, reuse, ty.toNat, imm⟩ = some i) :
    LaneRoundTrips i :=
  ⟨_, he, hw, by rw [decodeLane_encW, if_pos hop, hd]⟩

theorem lane_float (hop : 0x20 ≤ op.toNat ∧ op.toNat < 0x40)
    (hd : decodeLaneFloat op.toNat h d a b c ⟨rnd.toNat, sat, reuse, ty.toNat, imm⟩ = some i) : LaneRoundTrips i :=
  ⟨_, he, hw, by rw [decodeLane_encW, if_neg (by omega), if_pos hop.2, hd]⟩

theorem lane_exchange (hop : 0x40 ≤ op.toNat ∧ op.toNat < 0x50)
    (hd : decodeLaneX op.toNat h d a b c ⟨rnd.toNat, sat, reuse, ty.toNat, imm⟩ = some i) : LaneRoundTrips i :=
  ⟨_, he, hw, by rw [decodeLane_encW, if_neg (by omega), if_neg (by omega), if_pos hop.2, hd]⟩

theorem lane_memory (hop : 0x50 ≤ op.toNat) (hd : decodeLaneMem op.toNat h d a b c ⟨rnd.toNat, sat, reuse, ty.toNat, imm⟩ = some i) :
    LaneRoundTrips i :=
  ⟨_, he, hw, by rw [decodeLane_encW, if_neg (by omega), if_neg (by omega), if_neg (by omega), hd]⟩

end

theorem fieldsOk_of_wfCore {i : Instr} (h : i.wfCore = true) : i.fieldsOk = true := by
  simp only [Instr.wfCore, Bool.and_eq_true] at h
  exact h.1.1.1.1.1.2

theorem encodeLane_roundTrips (i : Instr) (h : i.wf = true) (hl : i.isLane = true) : LaneRoundTrips i := by
  have hk : keep true i = some i := keep_of_wf h
  replace h : (i.isLane && i.wf) = true := by rw [hl, h]; rfl
  cases i with
  | iabs | laneAnd | laneOr | laneXor | laneShl | laneShr | laneSar | iadd64 | lanePopc | laneClz | laneBrev | pmovToVreg | pmovAll =>
    exact lane_int rfl rfl (by decide) hk
  | iadd _ t | isub _ t | imul _ t | imulhi _ t | imad _ t | imin _ t | imax _ t => cases t <;> exact lane_int rfl rfl (by decide) hk
  | bmux | laneBfx | laneBfi | icmpCc | fcmpCc =>
    refine lane_int rfl rfl (by decide) ?_
    dsimp only [decodeLaneInt, LaneRest.plain]
    simp [↓append_fields, ↓BitVec.extractLsb'_eq_self, hk]
  | pand | por | pxor | pnot | pmov | pmovFromVreg | laneSel =>
    exact lane_int rfl rfl (by decide) (by simp [decodeLaneInt, LaneRest.plain, hk])
  | frsq | fex2 | flg2 | fsin | fcos | laneMovi => exact lane_float rfl rfl (by decide) hk
  | fminNum _ t | fminNan _ t | fmaxNum _ t | fmaxNan _ t | frcp _ t | fsqrt _ t | idot4 _ t | laneMov _ t =>
    cases t <;> exact lane_float rfl rfl (by decide) hk
  | fadd | fsub | fmul | fma | ddot16 =>
    exact lane_float rfl rfl (by decide) (by simp [decodeLaneFloat, -BitVec.getLsbD_eq_getElem, hk])
  | fdot16 _ e5 =>
    cases e5 <;> exact lane_float rfl rfl (by decide) (by simp [decodeLaneFloat, -BitVec.getLsbD_eq_getElem, hk])
  | scacc _ e8 rnd _ _ _ _ x y =>
    refine lane_float rfl rfl (by decide) ?_
    cases e8 with
    | true =>
      dsimp only [decodeLaneFloat]
      simp [↓append_fields, ↓BitVec.extractLsb'_eq_self, hk]
    | false =>
      obtain ⟨-, hx, hy⟩ : rnd.plain = true ∧ x = 0 ∧ y = 0 := by simpa [Instr.fieldsOk] using fieldsOk_of_wfCore h
      subst hx hy
      simpa [decodeLaneFloat] using hk
  | cvt | evinfo =>
    refine lane_float rfl rfl (by decide) ?_
    dsimp only [decodeLaneFloat, LaneRest.plain, highP]
    simp [↓append_fields, ↓BitVec.extractLsb'_eq_self, hk]
  | qswapH _ t | qswapV _ t | qswapD _ t => cases t <;> exact lane_exchange rfl rfl (by decide) hk
  | qbcast | xlanePick | xlaneLift | xlaneDrop | xlaneMirror | scan | sscan | sred =>
    refine lane_exchange rfl rfl (by decide) ?_
    dsimp only [decodeLaneX, LaneRest.plain]
    simp [↓append_fields, ↓append_bits, ↓BitVec.extractLsb'_eq_self, -BitVec.getLsbD_eq_getElem, hk]
  | ldG | stG | ldS | stS | cpGs | ldx | stx =>
    refine lane_memory rfl rfl (by decide) ?_
    dsimp only [decodeLaneMem, LaneRest.plain, memOk, memAddr]
    simp [↓append_fields, ↓append_bits, ↓BitVec.extractLsb'_eq_self, -BitVec.getLsbD_eq_getElem, hk]
  | atom _ _ _ _ _ _ _ m | red _ _ _ _ _ _ m =>
    have hm : m.off16 = true := by
      have hf := fieldsOk_of_wfCore h
      simp only [Instr.fieldsOk, Bool.and_eq_true] at hf
      exact hf.1.2
    exact lane_memory rfl rfl (by decide) (by simp [decodeLaneMem, LaneRest.plain, -BitVec.extractLsb'_toNat, atomAddr_atomImm _ _ hm, hk])
  | cancel => exact lane_memory rfl rfl (by decide) hk
  | sched | acpyAr | acpyRa =>
    refine lane_memory rfl rfl (by decide) ?_
    dsimp only [decodeLaneMem, LaneRest.plain]
    simp [↓append_fields, ↓append_bits, ↓BitVec.extractLsb'_eq_self, -BitVec.getLsbD_eq_getElem, hk]
  | _ => exact Bool.noConfusion h

/-- Settles O58: a lane word's fields read back, and each row of the lane grid keeps the instruction they give. -/
theorem laneEncodingRoundTrip : Obligations.LaneEncodingRoundTrip := encodeLane_roundTrips

end Sys2Proof.Encoding
end

section
/-! PROOFS. Steps (O55) and worked words (O56). -/

namespace Sys2Proof.Stepping
open Machine Claims

/-! ### What a step makes of its agent's answer -/

/-- The device settles, and the machine's clock and free values go on. -/
def settled : Host.Outcome State Fault Refusal → Host.Outcome State Fault Refusal
  | .next t => .next (settle t).tick
  | .fault f => .fault f
  | .refused r => .refused r

theorem step_eq (s : State) : step s = settled (stepAgent s s.nextAgent) := by
  unfold step
  cases stepAgent s s.nextAgent <;> rfl

theorem runFocus_settled (i : Instr) (s : State) : settled (runFocus i s) = stepsTo (exec i s) := by
  unfold runFocus
  cases exec i s <;> rfl

/-! ### The scalar stream -/

theorem step_of_scalarTurn {s : State} {core slot : Nat} {g : Group} (h : scalarTurn s core slot g) :
    step s = settled (stepScalar (s.focus g)) := by
  obtain ⟨hn, hg, hc, -, -⟩ := h
  have hr : s.runnable core slot = some g := by simp [State.runnable, hg, hc]
  rw [step_eq, hn, stepAgent, hr]

/-- A stream that moves and is not parked fetches, decodes and executes (R135). -/
theorem step_of_scalarMoves {s s1 : State} {core slot : Nat} {g : Group} {ws : List Word32} {bad : Option Nat}
    (h : scalarMoves s core slot g) (hf : fetched s g = (s1, ws, bad)) :
    step s = match decodeScalar ws with
      | .ok i len => if (atInstr s1 len).readyScalar i then stepsTo (exec i (atInstr s1 len)) else stepsTo (.next ((atInstr s1 len).stall 3))
      | .bound k => stepsTo (.next (fetchFail (illegalAt s1) bad (s1.g.spc + BitVec.ofNat 64 (4 * k))))
      | .illegal k => stepsTo (exec (.illegalInstruction (BitVec.ofNat 64 (4 * k))) (illegalAt s1)) := by
  obtain ⟨ht, hp⟩ := h
  obtain ⟨-, -, -, hst, hh⟩ := id ht
  have hf' : ((s.focus g).modG fun g => { g with passed := true }).fetchScalar = (s1, ws, bad) := hf
  rw [step_of_scalarTurn ht, stepScalar, if_neg (by simp [hst]), hh]
  simp only [State.focus_g, hp, hf']
  cases decodeScalar ws with
  | ok i len =>
    show settled (if (atInstr s1 len).readyScalar i then _ else _) = if _ then _ else _
    split
    · exact runFocus_settled i (atInstr s1 len)
    · rfl
  | bound k => rfl
  | illegal k => exact runFocus_settled (.illegalInstruction (BitVec.ofNat 64 (4 * k))) (illegalAt s1)

/-- Behind a parked load the stream executes an instruction that may go past it (R48). -/
theorem step_past {s s1 : State} {core slot : Nat} {g : Group} {ws : List Word32} {bad : Option Nat} {i : Instr} {len : Nat}
    (h : scalarTurn s core slot g) (hp : g.park.isSome = true) (hf : (s.focus g).fetchScalar = (s1, ws, bad))
    (hd : decodeScalar ws = .ok i len) (hgo : goesPast (s.focus g) i = true) (hr : (atInstr s1 len).readyScalar i = true) :
    step s = match exec i (atInstr s1 len) with
      | .next t => stepsTo (.next { t with g := { t.g with park := g.park, scAcc := g.scAcc, wait := g.wait,
                                                           ahead := { g.ahead with left := g.ahead.left - 1, gone := g.ahead.gone + 1 } } })
      | r => r := by
  obtain ⟨-, -, -, hst, hh⟩ := id h
  have hr' : (s1.modG fun g => { g with insAddr := g.spc, insLen := len, md := {}, repOff := 0, repped := false }).readyScalar i = true := hr
  rw [step_of_scalarTurn h, stepScalar, if_neg (by simp [hst]), hh]
  simp only [State.focus_g, hp, if_true, stepPast, hf, hd, hgo, hr', Bool.and_self]
  show settled (match exec i (atInstr s1 len) with | .next _ => _ | r => r) = _
  cases exec i (atInstr s1 len) <;> rfl

/-! ### The lane stream -/

theorem laneNext_of_laneTurn {s : State} {core slot part : Nat} {g : Group} {e : LqEnt} (h : laneTurn s core slot part g e) :
    g.laneNext = some e := by
  obtain ⟨-, -, -, -, ⟨hp, hq⟩ | ⟨hp, hq, x, hd, hx, hh, hpast⟩⟩ := h
  · cases hl : g.lq with
    | nil => simp [hl] at hq
    | cons y ys => simpa [Group.laneNext, hl, hp] using hq
  · cases hl : g.lq with
    | nil => simp [hl] at hx
    | cons y ys =>
      rw [hl] at hq hx
      obtain rfl : y = x := by simpa using hx
      rw [Group.laneNext, hl]
      simp only [hp, hh, Option.any_some, hpast, decide_true, if_true]
      simpa [List.head?_eq_getElem?] using hq

theorem step_of_laneTurn {s : State} {core slot part : Nat} {g : Group} {e : LqEnt} (h : laneTurn s core slot part g e)
    (hr : (atLaneWord s part g e).readyLane e.ins = true) :
    step s = match exec e.ins (atLaneWord s part g e) with
      | .next t => stepsTo (.next ((atLaneWord s part g e).keepSources e t))
      | r => r := by
  have hl := laneNext_of_laneTurn h
  obtain ⟨hn, hg, hc, hst, -⟩ := h
  have hrun : s.runnable core slot = some g := by simp [State.runnable, hg, hc]
  have hs : step s = settled (stepLane part (s.focus g)) := by
    rcases hn with ⟨hn, rfl⟩ | hn
    · rw [step_eq, hn, stepAgent, hrun]
    · rw [step_eq, hn, stepAgent, hrun]
  have hr' : ((s.focus g).modG fun g => { g with ictx := ⟨e.mask, e.base, e.todo, e.addr, e.lqAddr, e.acc, part, e.lows, e.pages, e.kept⟩ }).readyLane
    e.ins = true := hr
  rw [hs, stepLane]
  simp only [State.focus_g, hst, hl, hr', Bool.false_eq_true, if_false, if_true]
  show settled (match exec e.ins (atLaneWord s part g e) with | .next _ => _ | r => r) = _
  cases exec e.ins (atLaneWord s part g e) <;> rfl

/-! ### The device -/

theorem step_of_device {s : State} {ev : Instr} (hn : s.nextAgent = .device ev) (he : ev.isStep = true) : step s = settled (exec ev s) := by
  rw [step_eq, hn, stepAgent, if_pos he]

theorem step_of_devicePart {s : State} {ev : Instr} {n : Nat} (hn : s.nextAgent = .devicePart ev n) (he : ev.isStep = true) :
    step s = settled (exec ev { s with few := some n }) := by
  rw [step_eq, hn, stepAgent, if_pos he]

/-! ### Fetched words (R18) -/

theorem leNat_eq_ofLe (m : Memory) (a n : Nat) : ofLe (m.read a n) = leNat m.byte a n := by
  induction n generalizing a with
  | zero => rfl
  | succ n ih => rw [Memory.read, ofLe, ih, leNat]

/-- A fetched word is the little-endian word at its translation. -/
theorem wordAt_pool {s s1 : State} {a : Word64} {pa : Nat} (hx : s.xlate none needX a = (s1, .pool pa)) (hp : s1.poison = [])
    (hu : s1.j.unacq = []) : s.wordAt a = (s1, .inl (BitVec.ofNat 32 (leNat s1.mem.byte pa 4))) := by
  have hclean : s1.poisoned pa 4 = false := by simp [State.poisoned, hp]
  have hread : s1.memRead pa 4 = s1.mem.read pa 4 := State.memRead_quiet 4 s1 pa (by simp [hp]) (by simp [hu])
  simp [State.wordAt, hx, hclean, hread, leNat_eq_ofLe]

theorem fetchWords_succ {s s1 : State} {a : Word64} {n : Nat} {w : Word32} (hi : inScalar s a)
    (hl : (a - s.g.handler.sbase).toNat + 4 ≤ s.g.handler.ssize.toNat) (hw : s.wordAt a = (s1, .inl w)) :
    s.fetchWords (n + 1) a = ((s1.fetchWords n (a + 4)).1, w :: (s1.fetchWords n (a + 4)).2.1, (s1.fetchWords n (a + 4)).2.2) := by
  have ho : s.g.handler.scalarOff a = some (a - s.g.handler.sbase).toNat := if_pos hi
  rw [State.fetchWords, ho]
  simp only
  rw [if_neg (by omega), hw]

/-- Settles O55: each stream's step runs the instruction it stands at. -/
theorem stepRunsDecodedInstruction : Obligations.StepRunsDecodedInstruction := by
  refine ⟨?_, ?_, ?_, ?_, ?_, ?_, ?_, ?_, ?_, ?_⟩
  · intro s s1 core slot g ws bad i len h hf hd hr
    rw [step_of_scalarMoves h hf, hd]
    exact if_pos hr
  · intro s s1 core slot k g ws bad h hf hd
    rw [step_of_scalarMoves h hf, hd]
  · intro s s1 core slot g ws bad i len h hf hd hr
    rw [step_of_scalarMoves h hf, hd]
    exact if_neg (by simp [hr])
  · intro s s1 core slot k g ws h hf hd
    rw [step_of_scalarMoves h hf, hd]
    rfl
  · intro s s1 core slot g ws bad i len h hp hf hd hgo hr
    exact step_past h hp hf hd hgo hr
  · intro s ev hn he
    rw [step_of_device hn he]
    cases exec ev s <;> rfl
  · intro s ev n hn he
    rw [step_of_devicePart hn he]
    cases exec ev { s with few := some n } <;> rfl
  · intro s core slot part g e h hr
    exact step_of_laneTurn h hr
  · intro s s1 a pa hx hp hu
    exact wordAt_pool hx hp hu
  · intro s s1 a n w hi hl hw
    exact fetchWords_succ hi hl hw

/-- Settles O56: each worked word is decoded. -/
theorem workedWordsDecode : Obligations.WorkedWordsDecode := by
  unfold Obligations.WorkedWordsDecode
  decide

end Sys2Proof.Stepping
end

section
/-! PROOFS. Lookahead windows of scalar registers (O54). -/

namespace Sys2Proof.Windows
open Machine

/-! ### Reads (R45) -/

theorem pickOf_mem {α : Type} (s : State) (key : Nat) (now : α) (l : List α) : s.pickOf key now l = now ∨ s.pickOf key now l ∈ l := by
  cases l with
  | nil => exact .inl rfl
  | cons x xs =>
    have hlt : s.freeNat key % (xs.length + 2) < (now :: x :: xs).length := Nat.mod_lt _ (Nat.succ_pos _)
    simp only [State.pickOf, List.getElem?_eq_getElem hlt, Option.getD_some]
    exact List.mem_cons.mp (List.getElem_mem hlt)

theorem openS_eq_false_iff {s : State} {r : SReg} : s.openS r = false ↔ ∀ w ∈ s.g.winS, w.reg ≠ r := by
  simp [State.openS]

theorem mem_oldS {s : State} {r : SReg} {x : Word64} : x ∈ s.oldS r ↔ ∃ w ∈ s.g.winS, w.reg = r ∧ x = w.old := by
  simp [State.oldS, and_assoc, eq_comm (a := x)]

/-- Inside windows a register shows what it holds or what it held before one of them. -/
theorem sreg_old_or_new (s : State) {r : SReg} (hr : r ≠ 0) : s.sreg r = s.g.s[r.toNat] ∨ ∃ w ∈ s.g.winS, w.reg = r ∧ s.sreg r = w.old := by
  unfold State.sreg
  rw [if_neg hr, ← mem_oldS]
  exact pickOf_mem ..

/-! ### Writes (R45) -/

/-- What a write leaves in the written register, by the free choice of an open window. -/
def leaves (s : State) (r : SReg) (x : Word64) : Word64 :=
  if s.openS r && s.freeBit (State.winKey 1 r.toNat 0) then s.g.s[r.toNat] else x

theorem setSla_g_s (s : State) (la : BitVec 4) {r : SReg} (x : Word64) (acc : Option Nat) (hr : r ≠ 0) :
    (s.setSla la r x acc).g.s = s.g.s.set r.toNat (leaves s r x) := by
  unfold State.setSla leaves State.loseReply
  rw [if_neg hr]
  cases s.openS r <;> cases s.freeBit (State.winKey 1 r.toNat 0) <;> rfl

theorem leaves_old_or_new (s : State) (r : SReg) (x : Word64) : leaves s r x = x ∨ leaves s r x = s.g.s[r.toNat] := by
  unfold leaves
  split
  · exact .inr rfl
  · exact .inl rfl

/-- Settles O54: reads pick among the held and the old values (`pickOf_mem`), and a write inside a window keeps or replaces its one register. -/
theorem windowsShowOldOrNew : Obligations.WindowsShowOldOrNew := by
  refine ⟨State.sreg_zero, fun s r hr hw => ?_, fun s r _ hr => sreg_old_or_new s hr, fun s d la imm hd _ => ?_⟩
  · rw [State.sreg_closed s r (openS_eq_false_iff.mpr hw), if_neg hr]
  · have ht : (s.setSla la d (imm64 imm)).advance.g.s = s.g.s.set d.toNat (leaves s d (imm64 imm)) := setSla_g_s s la _ none hd
    refine ⟨_, rfl, ?_, fun r hr => ?_⟩
    · simp only [ht, Vector.getElem_set_self]
      exact leaves_old_or_new s d (imm64 imm)
    · simp only [ht]
      exact Vector.getElem_set_ne _ _ fun h => hr (BitVec.eq_of_toNat_eq h.symm)

end Sys2Proof.Windows
end

section
/-! PROOFS. Transfers and their landing check (O17). -/

namespace Sys2Proof.Transfers
open Machine Claims

/-! ### Conditions and targets (R142) -/

theorem ICond.holds_eq_condRule (cc : ICond) (a b : Word64) : cc.holds a b = condRule cc a b := by
  have heq : (a == b) = decide (a.toNat = b.toNat) := by rw [Bool.eq_iff_iff]; simp [BitVec.toNat_inj]
  cases cc <;> simp [ICond.holds, condRule, BitVec.slt, BitVec.sle, BitVec.ult, BitVec.ule, bne, heq]

theorem wordTarget_eq {w : Nat} (s : State) (off : BitVec w) : wordTarget s off = s.g.insAddr + BitVec.ofInt 64 (4 * off.toInt) := by
  rw [wordTarget, imm64, BitVec.signExtend, Int.mul_comm 4, BitVec.ofInt_mul]
  rfl

theorem getLsbD_k0 (s : State) {i : Nat} (hi : i < 32) : s.k0.getLsbD i = decide (i < s.g.nev) := by
  rw [State.k0, BitVec.getLsbD_ofNat, Nat.testBit_two_pow_sub_one]
  simp [hi]

/-- `ball` tests the event lanes' bits of a mask (R123). -/
theorem kreg_covers_k0 (s : State) (k : KReg) :
    (s.kreg k &&& s.k0 == s.k0) = (List.range 32).all fun i => s.g.nev ≤ i || (s.kreg k).getLsbD i := by
  rw [Bool.eq_iff_iff, beq_iff_eq, List.all_eq_true]
  constructor
  · intro h i hi
    have hb := congrArg (BitVec.getLsbD · i) h
    simp only [BitVec.getLsbD_and, getLsbD_k0 s (List.mem_range.mp hi)] at hb
    by_cases hn : i < s.g.nev <;> simp_all
  · intro h
    apply BitVec.eq_of_getLsbD_eq
    intro i hi
    have hb := h i (List.mem_range.mpr hi)
    rw [BitVec.getLsbD_and, getLsbD_k0 s hi]
    by_cases hn : i < s.g.nev
    · simpa [hn, Nat.not_le.mpr hn] using hb
    · simp [hn]

theorem beq_eq_decide_eq (x y : Word64) : (x == y) = decide (x = y) := by rw [Bool.eq_iff_iff, beq_iff_eq, decide_eq_true_iff]
theorem bne_eq_decide_ne (x y : Word64) : (x != y) = decide (x ≠ y) := by rw [bne, beq_eq_decide_eq, decide_not]

/-! ### Every taken transfer is the one of `transfer` -/

theorem transferReg_aligned (s : State) {t : Word64} (h : t.toNat % 4 = 0) : transferReg s t = transfer s t false :=
  if_neg (by simpa using h)

theorem transferReg_misaligned (s : State) {t : Word64} (h : t.toNat % 4 ≠ 0) :
    transferReg s t = .next (s.takeTrap 0x05 { waddr := s.g.insAddr }) := if_pos (by simpa using h)

/-- What a transfer does once its condition and its target are known. -/
theorem exec_of_transferRule {s : State} {i : Instr} {c : Bool} {t : Word64} (h : transferRule s i = some (c, t)) (ht : t.toNat % 4 = 0) :
    exec i s = if c then transfer s t (isCall i) else .next s.advance := by
  cases i <;> cases h
  case br off => exact congrArg (transfer s · false) (wordTarget_eq s off)
  case call off => exact congrArg (transfer s · true) (wordTarget_eq s off)
  case ret => exact transferReg_aligned s ht
  case jmpi a => exact transferReg_aligned s ht
  case bz a off => exact congr (congrArg (transferIf s) (beq_eq_decide_eq (s.sreg a) 0)) (wordTarget_eq s off)
  case bnz a off => exact congr (congrArg (transferIf s) (bne_eq_decide_ne (s.sreg a) 0)) (wordTarget_eq s off)
  case ball k off => exact congr (congrArg (transferIf s) (kreg_covers_k0 s k)) (wordTarget_eq s off)
  case bCc cc a b la off => exact congr (congrArg (transferIf s) (ICond.holds_eq_condRule cc _ _)) (wordTarget_eq s off)

/-! ### The landing check (R30) -/

theorem scalarOff_isSome {s : State} {a : Word64} (h : inScalar s a) : (s.g.handler.scalarOff a).isSome = true := by
  unfold Handler.scalarOff
  rw [if_pos (show (a - s.g.handler.sbase).toNat < s.g.handler.ssize.toNat from h)]
  rfl

theorem topBits_eq_two (w : Word32) : ((w.extractLsb' 30 2).toNat == 2) = decide (w.toNat / 2 ^ 30 = 2) := by
  have hw : w.toNat / 2 ^ 30 < 2 ^ 2 := by have := w.isLt; omega
  rw [BitVec.extractLsb'_toNat, Nat.shiftRight_eq_div_pow, Nat.mod_eq_of_lt hw]
  rfl

theorem landed (s : State) (t : Word64) (link : Bool) (h : s.openS 63 = false) :
    (if link then s.setS 63 (s.g.insAddr + 4) else s).jumpTo t = jumped s t link := by
  cases link with
  | false => rfl
  | true =>
    have hs : s.setS 63 (s.g.insAddr + 4) = { s with g := { s.g with s := s.g.s.set 63 (s.g.insAddr + 4) } } := State.setSla_closed s 0 63 _ none h
    rw [if_pos rfl, hs]
    rfl

/-- The landing check reads the word before the target; a prefix there is the OrphanPrefix trap (R30). -/
theorem transfer_checked {s s1 : State} {t : Word64} {link : Bool} {w : Word32} (ht : inScalar s t) (hp : inScalar s (t - 4))
    (hw : s.wordAt (t - 4) = (s1, .inl w)) (ho : s1.openS 63 = false) :
    transfer s t link = .next (if w.toNat / 2 ^ 30 = 2 then s1.takeTrap 0x02 { waddr := t - 4 } else jumped s1 t link) := by
  rw [transfer, if_pos (by rw [scalarOff_isSome ht, scalarOff_isSome hp]; rfl), hw]
  simp only [topBits_eq_two, decide_eq_true_eq, landed s1 t link ho]
  split <;> rfl

/-! ### `lret` (R144) -/

theorem exec_lret (s : State) :
    exec .lret s = if (s.g.llink.toInt - s.g.handler.lbase.toInt) % 12 = 0 then .next (passed s { s.g with lpc := s.g.llink })
      else .next (s.takeTrap 0x05 { waddr := s.g.insAddr }) := by
  show execLret s = _
  unfold execLret
  by_cases h : (s.g.llink.toInt - s.g.handler.lbase.toInt) % 12 = 0
  · rw [if_neg (by simpa using h), if_pos h]; rfl
  · rw [if_pos (by simpa using h), if_neg h]

/-- Settles O17: the landing check by `transfer_checked`, register targets by `transferReg_misaligned`, `lret` by `exec_lret`. -/
theorem landingCheckAndTargetAlign : Obligations.LandingCheckAndTargetAlign := by
  refine ⟨fun s s1 i t w hr ha ht hp hw ho _ => ?_, fun s a h => transferReg_misaligned s h, fun s h => transferReg_misaligned s h,
    fun s h => ?_, fun s h => ?_⟩
  · rw [exec_of_transferRule hr ha]
    exact transfer_checked ht hp hw ho
  · rw [exec_lret, if_neg h]
  · rw [exec_lret, if_pos h]

end Sys2Proof.Transfers
end

section
/-! PROOFS. What a prefix sequence executes (R23 to R29): the model's acceptance against the rules, refusals (O8) and modifiers (O6). -/

namespace Sys2Proof.Prefixes
open Machine Claims

/-! ### The rules' prefix fields as the model's -/

def modsOf (m : Rnd × Bool × Bool) : Mods := ⟨m.1, m.2.1, m.2.2⟩
def argOf (r : RepRule × Nat) : RepArg := repArg r.1.1 r.1.2.1 r.1.2.2.1 r.1.2.2.2.1 r.1.2.2.2.2 r.2

/-! ### The model's acceptance is the rules' (R26, R27, R29) -/

theorem isTransfer_eq (i : Instr) : isTransfer i = isTransferRule i := by cases i <;> rfl
theorem modsAccepted_eq (i : Instr) : modsAccepted i = modifierRule i := by cases i <;> rfl

/-- The fields of a `rep` form as the rules list them. -/
def RepForm.fields (f : RepForm) : Option SReg × Option SReg × Option SReg × Bool := (f.d, f.a, f.b, f.mem)

theorem repForm_fields (i : Instr) : (repForm i).map RepForm.fields = repFields i := by cases i <;> rfl

theorem repForm_run {i : Instr} {f : RepForm} (h : repForm i = some f) (x y z : SReg) (s : State) : f.run x y z s = exec (withFields x y z i) s := by
  unfold repForm at h
  split at h <;> cases h <;> rfl

theorem repForm_run_own {i : Instr} {f : RepForm} (h : repForm i = some f) (s : State) :
    f.run (f.d.getD 0) (f.a.getD 0) (f.b.getD 0) s = exec i s := by
  unfold repForm at h
  split at h <;> cases h <;> rfl

theorem repForm_of_repFields {i : Instr} {d a b : Option SReg} {mem : Bool} (h : repFields i = some (d, a, b, mem)) :
    ∃ f, repForm i = some f ∧ f.d = d ∧ f.a = a ∧ f.b = b ∧ f.mem = mem := by
  rw [← repForm_fields, Option.map_eq_some_iff] at h
  obtain ⟨f, hf, hd⟩ := h
  cases hd
  exact ⟨f, hf, rfl, rfl, rfl, rfl⟩

theorem repForm_eq_none {i : Instr} (h : repFields i = none) : repForm i = none := by
  rw [← repForm_fields, Option.map_eq_none_iff] at h
  exact h

/-- Only instructions of the `rep` list accept modifiers, and no transfer does. -/
theorem repFields_of_modifierRule {i : Instr} (h : modifierRule i ≠ none) : ∃ f, repFields i = some f := by
  cases i <;> simp [modifierRule] at h <;> exact ⟨_, rfl⟩
theorem not_transfer_of_modifierRule {i : Instr} (h : modifierRule i ≠ none) : isTransferRule i = false := by
  cases i <;> simp [modifierRule] at h <;> rfl

theorem Mods.accepted_iff (rnd : Rnd) (sat ftz : Bool) (i : Instr) : Mods.accepted ⟨rnd, sat, ftz⟩ i = true ↔ modifierOk rnd sat ftz i := by
  unfold Mods.accepted modifierOk
  rw [modsAccepted_eq]
  cases modifierRule i with
  | none => simp
  | some x =>
    obtain ⟨r, t, z⟩ := x
    have hrnd : (rnd == .rn || r) = true ↔ (rnd ≠ .rn → r = true) := by
      rw [Bool.or_eq_true, beq_iff_eq, Decidable.or_iff_not_imp_left]
    have hbit (p q : Bool) : (!p || q) = true ↔ (p = true → q = true) := by cases p <;> cases q <;> decide
    simp only [Bool.and_eq_true, hrnd, hbit]
    constructor
    · exact fun ⟨⟨hr, ht⟩, hz⟩ => ⟨r, t, z, rfl, hr, ht, hz⟩
    · rintro ⟨_, _, _, he, hr, ht, hz⟩
      cases he
      exact ⟨⟨hr, ht⟩, hz⟩

theorem modsFit_iff (m : Option (Rnd × Bool × Bool)) (i : Instr) : (m.map modsOf).all (·.accepted i) = true ↔ modsFit m i := by
  cases m with
  | none => exact iff_of_true rfl trivial
  | some x => exact Mods.accepted_iff x.1 x.2.1 x.2.2 i

theorem stepOk_iff (c : BitVec 8) (st : BitVec 2) (x : Option SReg) : stepOk c.toNat st.toNat x = true ↔ stepFits c st x := by
  have h0 : st.toNat = 0 ↔ st = 0 := by rw [← BitVec.toNat_inj]; rfl
  cases x with
  | none => simp [stepOk, stepFits, h0]
  | some x =>
    have hx := x.isLt
    simp only [stepOk, stepFits, Bool.or_eq_true, beq_iff_eq, decide_eq_true_eq]
    refine ⟨fun h => h.elim (fun h => ?_) id, .inr⟩
    rw [h]; omega

theorem imm64_eq_zero_iff (st : BitVec 12) : imm64 st = 0 ↔ st = 0 := by
  constructor
  · intro h
    have ht := congrArg BitVec.toInt h
    rw [imm64, BitVec.toInt_signExtend_of_le (by omega)] at ht
    exact BitVec.eq_of_toInt_eq ht
  · rintro rfl; rfl

theorem argOf_ok_iff (r : RepRule) (at_ : Nat) (f : RepForm) : (argOf (r, at_)).ok f = true ↔ repFits r (RepForm.fields f) := by
  obtain ⟨c, ds, as, bs, st⟩ := r
  simp only [argOf, repArg, RepArg.ok, repFits, RepForm.fields, Bool.and_eq_true, stepOk_iff, Bool.or_eq_true, beq_iff_eq, imm64_eq_zero_iff, and_assoc]
  cases f.mem <;> simp

/-! ### A sequence and its instruction -/

theorem exec_prefixSeq {p i : Instr} {m : Option (Rnd × Bool × Bool)} {r : Option (RepRule × Nat)} {words : Nat}
    (h : prefixSeq p = some (m, r, words, i)) (s : State) : exec p s = runPrefixed (m.map modsOf) (r.map argOf) words i s := by
  unfold prefixSeq at h
  split at h
  · split at h <;> split at h <;> cases h
    · rfl
    · next hn =>
      show execModifierPrefix _ _ _ _ s = _
      unfold execModifierPrefix
      split
      · exact absurd rfl hn
      · rfl
  · split at h <;> split at h <;> cases h
    · rfl
    · next hn =>
      show execRepPrefix _ _ _ _ _ _ s = _
      unfold execRepPrefix
      split
      · exact absurd rfl hn
      · rfl
  · cases h

section
variable {m : Option (Rnd × Bool × Bool)} {i : Instr} (s : State)

/-- The focus under a sequence's modifiers. -/
def withMods (m : Option (Rnd × Bool × Bool)) (s : State) : State := { s with g := { s.g with md := (m.map modsOf).getD {} } }

theorem runPrefixed_transfer (m : Option Mods) (r : Option RepArg) (words : Nat) (h : isTransferRule i = true) :
    runPrefixed m r words i s = .next (s.takeTrap 0x02 { waddr := s.g.insAddr + BitVec.ofNat 64 (4 * words) }) := by
  rw [runPrefixed, isTransfer_eq, if_pos h]

/-- A modifier that its instruction does not accept, or a `rep` before one that is not repeated. -/
theorem runPrefixed_refused (r : Option (RepRule × Nat)) (words : Nat) (ht : isTransferRule i = false)
    (h : ¬ modsFit m i ∨ (r.isSome = true ∧ repFields i = none)) :
    runPrefixed (m.map modsOf) (r.map argOf) words i s = .next (s.takeTrap 0x01 { waddr := s.g.insAddr }) := by
  rw [runPrefixed, isTransfer_eq, ht, if_neg Bool.false_ne_true]
  cases hf : repForm i with
  | none => rfl
  | some f =>
    have hm : ¬ modsFit m i := h.resolve_right fun ⟨_, hn⟩ => by simp [repForm_eq_none hn] at hf
    dsimp only
    rw [if_pos (by simpa using mt (modsFit_iff m i).mp hm)]

/-- An accepted `rep` runs its repetitions, unless a step or the stride does not fit. -/
theorem runPrefixed_rep (x : RepRule × Nat) (words : Nat) {f : RepForm} (ht : isTransferRule i = false) (hm : modsFit m i) (hf : repForm i = some f) :
    runPrefixed (m.map modsOf) (some (argOf x)) words i s =
      if (argOf x).ok f then repLoop f (argOf x) (x.1.1.toNat + 1) (withMods m s)
      else .next (s.takeTrap 0x01 { waddr := s.g.insAddr + BitVec.ofNat 64 (4 * x.2) }) := by
  rw [runPrefixed, isTransfer_eq, ht, if_neg Bool.false_ne_true, hf]
  dsimp only
  rw [if_neg (by simpa using (modsFit_iff m i).mpr hm)]
  rfl

/-- Modifiers alone. -/
theorem runPrefixed_mods (words : Nat) {f : RepForm} (ht : isTransferRule i = false) (hm : modsFit m i) (hf : repForm i = some f) :
    runPrefixed (m.map modsOf) none words i s = exec i (withMods m s) := by
  rw [runPrefixed, isTransfer_eq, ht, if_neg Bool.false_ne_true, hf]
  dsimp only
  rw [if_neg (by simpa using (modsFit_iff m i).mpr hm)]
  exact repForm_run_own hf _

end

/-! ### Refusals (R26, R27, R29) -/

/-- Settles O8: the three branches of `runPrefixed` that trap. -/
theorem prefixRefusals : Obligations.PrefixRefusals := by
  intro s p i m r words hp
  rw [exec_prefixSeq hp]
  refine ⟨runPrefixed_transfer s _ _ words, runPrefixed_refused s r words, fun f x at_ ht hm hr hf hx => ?_⟩
  obtain ⟨d, a, b, mem⟩ := f
  obtain ⟨g, hg, rfl, rfl, rfl, rfl⟩ := repForm_of_repFields hf
  rw [hr, Option.map_some, runPrefixed_rep s (x, at_) words ht hm hg, if_neg (mt (argOf_ok_iff x at_ g).mp hx)]

/-! ### Modifiers (R23 to R26) -/

/-- An instruction that accepts a modifier completes with a register result and flags. -/
theorem exec_of_modifierRule {i : Instr} (h : modifierRule i ≠ none) (s : State) : ∃ la d r, exec i s = finSF s la d r := by
  cases i <;> simp [modifierRule] at h <;> exact ⟨_, _, _, rfl⟩

/-- Settles O6: the pair is the instruction under the modifiers (`runPrefixed_mods`), which completes (`exec_of_modifierRule`). -/
theorem modifierPrefixApplies : Obligations.ModifierPrefixApplies := by
  intro s rnd sat ftz i hm
  have hi : modifierRule i ≠ none := by
    obtain ⟨r, t, z, h, -⟩ := hm
    simp [h]
  obtain ⟨⟨d, a, b, mem⟩, hf⟩ := repFields_of_modifierRule hi
  obtain ⟨f, hg, -⟩ := repForm_of_repFields hf
  obtain ⟨la, d, r, he⟩ := exec_of_modifierRule hi (withMods (some (rnd, sat, ftz)) s)
  have hp : prefixSeq (.modifierPrefix rnd sat ftz i) = some (some (rnd, sat, ftz), none, 1, i) := by
    cases i <;> simp [modifierRule] at hi <;> rfl
  refine ⟨_, ?_, he⟩
  rw [exec_prefixSeq hp]
  exact (runPrefixed_mods s 1 (m := some (rnd, sat, ftz)) (not_transfer_of_modifierRule hi) hm hg).trans he

end Sys2Proof.Prefixes
end

section
/-! PROOFS. Instructions under `rep` keep the modifiers: each writes a register and goes on, or accesses memory (R26, R91). -/

namespace Sys2Proof.RepFrames
open Machine Claims Prefixes

/-! ### What keeps the modifiers in force -/

@[simp] theorem setSla_g_md (s : State) (la : BitVec 4) (r : SReg) (x : Word64) (acc : Option Nat) : (s.setSla la r x acc).g.md = s.g.md := by
  unfold State.setSla State.loseReply
  dsimp only
  split
  · rfl
  · split <;> rfl

@[simp] theorem takeTrap_g_md (s : State) (code : Nat) (a : TrapArg) : (s.takeTrap code a).g.md = s.g.md := by
  cases h : s.doneOrParked with
  | false => rw [s.takeTrap_waits code a h]; rfl
  | true =>
    obtain ⟨m, u, l, k, y, p, q, ht⟩ := s.takeTrap_eq code a h
    rw [ht]

@[simp] theorem xlate_g_md (s : State) (lane : Option Nat) (n : Need) (va : Word64) : (s.xlate lane n va).1.g.md = s.g.md := by
  obtain ⟨t, p, h⟩ := s.xlate_eq lane n va
  rw [h]

@[simp] theorem lowerFull_g_md (s : State) (p : Path) : (s.lowerFull p).g.md = s.g.md := by
  unfold State.lowerFull
  split
  · split
    · split <;> rfl
    · rfl
  · rfl

theorem countAcc_g_md {s t : State} {p : Path} {tag : Nat} (h : s.countAcc p = some (t, tag)) : t.g.md = s.g.md := by
  unfold State.countAcc at h
  dsimp only at h
  split at h
  · cases h
  · cases h
    exact lowerFull_g_md s p

theorem countS_g_md {s t : State} {p : Path} {tag : Nat} (h : s.countS p = some (t, tag)) : t.g.md = s.g.md := by
  unfold State.countS at h
  split at h
  · cases h; rfl
  · exact countAcc_g_md h

@[simp] theorem dataPoison_g_md (s : State) (agent access : Nat) (iaddr waddr : Word64) (pa : Nat) (va : Word64) (lane : Nat) :
    (s.dataPoison agent access iaddr waddr pa va lane).g.md = s.g.md := by
  unfold State.dataPoison
  dsimp only
  generalize ({ s.groupRec 0x1A with stopped := true, agent := agent, access := access, iaddr := iaddr, waddr := waddr,
                                     info := s.poisonUnit pa, lqaddr := (if waddr = 0 then 0 else iaddr), vaddr := va, lane := lane,
                                     paddr := lineOf pa * 128, syndrome := Config.syndrome s.draw } : FaultRec) = r
  obtain ⟨m, u, l, k, hp⟩ := s.postRecord_eq s.g.room r
  rw [hp]
  obtain ⟨l, k, hs⟩ := State.stopJourney_eq ({ s with rooms := m, hub := u, journeys := l, j := k } : State) s.g.journey 0x1A
  rw [hs]

@[simp] theorem sendReq_g_md (s : State) (lane : Nat) (agent : ReqAgent) (pa : Nat) (va : Word64) (kind : ReqKind) (acc : Nat)
    (iaddr waddr : Word64) (lost : List Nat) (ported scalar : Bool) :
    (s.sendReq lane agent pa va kind acc iaddr waddr lost ported scalar).g.md = s.g.md := by
  unfold State.sendReq State.sendImport
  dsimp only
  split
  · split <;> rfl
  · rfl

@[simp] theorem markDirty_g (s : State) (pa : Nat) : (s.markDirty pa).g = s.g := by
  unfold State.markDirty
  split <;> rfl

@[simp] theorem memWrite_g : ∀ (l : List Byte) (s : State) (pa : Nat), (s.memWrite pa l).g = s.g
  | [], _, _ => rfl
  | x :: xs, s, pa => (memWrite_g xs ((s.putByte pa x).markDirty pa) (pa + 1)).trans (markDirty_g ..)

@[simp] theorem spWrite_g : ∀ (l : List Byte) (s : State) (off : Nat), (s.spWrite off l).g = s.g
  | [], _, _ => rfl
  | x :: xs, s, off => spWrite_g xs (s.spPut off x) (off + 1)

/-! ### The answers of instructions under `rep` -/

theorem finS_md {s t : State} {la : BitVec 4} {d : SReg} {x : Word64} (h : finS s la d x = .next t) : t.g.md = s.g.md := by
  cases h
  simp

theorem finSF_md {s t : State} {la : BitVec 4} {d : SReg} {r : Word64 × Word32} (h : finSF s la d r = .next t) : t.g.md = s.g.md := by
  cases h
  simp

theorem parkCounted_md {s t : State} {tag c : Nat} {va data : Word64} {access : Nat} (h : parkCounted s tag c va data access = .next t) :
    t.g.md = s.g.md := by
  cases h
  rfl

theorem loadG_md {s t : State} {w : SWidth} {la : BitVec 4} {d : SReg} {x : Word64} (h : loadG s w la d x = .next t) : t.g.md = s.g.md := by
  unfold loadG at h
  split at h
  · cases h; simp
  split at h
  · cases h; simp
  next s1 tag hc =>
  have hx := xlate_g_md s1 none needR x
  rw [countS_g_md hc] at hx
  split at h <;> rename_i he <;> rw [he] at hx <;> cases h
  · exact hx
  · rw [← hx, State.advance_g_md]
    split <;> simp [Group.finAcc]
  · rw [← hx]
    simp

theorem storeG_md {s t : State} {w : SWidth} {d : SReg} {x : Word64} (h : storeG s w d x = .next t) : t.g.md = s.g.md := by
  unfold storeG at h
  split at h
  · cases h; simp
  split at h
  · cases h; simp
  next s1 tag hc =>
  have hx := xlate_g_md s1 none needW x
  rw [countS_g_md hc] at hx
  dsimp only at h
  split at h <;> rename_i he <;> rw [he] at hx <;> cases h
  · exact hx
  · rw [← hx]
    simp [Group.finAcc]
  · rw [← hx]
    simp

theorem loadSp_md {s t : State} {w : SWidth} {la : BitVec 4} {d : SReg} {x : Word64} (h : loadSp s w la d x = .next t) : t.g.md = s.g.md := by
  unfold loadSp at h
  split at h
  · cases h; simp
  split at h
  · cases h; simp
  split at h
  · cases h; simp
  next s1 tag hc =>
  cases h
  rw [← countS_g_md hc]
  simp [Group.finAcc]

theorem storeSp_md {s t : State} {w : SWidth} {d : SReg} {x : Word64} (h : storeSp s w d x = .next t) : t.g.md = s.g.md := by
  unfold storeSp at h
  split at h
  · cases h; simp
  split at h
  · cases h; simp
  split at h
  · cases h; simp
  next s1 tag hc =>
  cases h
  rw [← countS_g_md hc]
  simp [Group.finAcc]

/-- An instruction under `rep` that accepts no modifier and no stride completes with a register result. -/
theorem exec_of_plain {i : Instr} {d a b : Option SReg} (hf : repFields i = some (d, a, b, false)) (hm : modifierRule i = none) (s : State) :
    ∃ la d x, exec i s = finS s la d x := by
  cases i <;> cases hf <;> cases hm <;> exact ⟨_, _, _, rfl⟩

theorem exec_memory_md {i : Instr} {d a b : Option SReg} {s t : State} (hf : repFields i = some (d, a, b, true)) (h : exec i s = .next t) :
    t.g.md = s.g.md := by
  cases i <;> cases hf
  case ld w d a off => exact loadG_md (la := 0) h
  case ldLong w d a la off => exact loadG_md h
  case st w d a off => exact storeG_md h
  case stLong w d a la off => exact storeG_md h
  case ldsp w d a off => exact loadSp_md (la := 0) h
  case ldspLong w d a la off => exact loadSp_md h
  case stsp w d a off => exact storeSp_md h
  case stspLong w d a la off => exact storeSp_md h

/-- Every instruction that `rep` may repeat keeps the modifiers in force. -/
theorem exec_keeps_md {i : Instr} {f : Option SReg × Option SReg × Option SReg × Bool} {s t : State} (hf : repFields i = some f)
    (h : exec i s = .next t) : t.g.md = s.g.md := by
  obtain ⟨d, a, b, mem⟩ := f
  cases mem with
  | true => exact exec_memory_md hf h
  | false =>
    by_cases hm : modifierRule i = none
    · obtain ⟨la, d, x, he⟩ := exec_of_plain hf hm s
      exact finS_md (he ▸ h)
    · obtain ⟨la, d, r, he⟩ := exec_of_modifierRule hm s
      exact finSF_md (he ▸ h)

end Sys2Proof.RepFrames
end

section
/-! PROOFS. The repetitions of `rep` (O7): one turn of the loop, and the loop over instructions of two registers (R27, R91, R92). -/

namespace Sys2Proof.Repetitions
open Machine Claims Prefixes RepFrames

/-! ### One repetition (R91) -/

theorem busyS_of_idle {s : State} (hc : s.c.ops = []) (hr : s.reqs = []) (rs : List SReg) : s.busyS rs = false := by
  simp [State.busyS, State.myOps, State.myReqs, hc, hr]

theorem withMods_repetition (m : Option (Rnd × Bool × Bool)) (r : RepRule) (s : State) (k : Nat) :
    ((withMods m s).modG fun g => { g with repOff := imm64 r.2.2.2.2 * BitVec.ofNat 64 k, repped := true }) = atRepetition s m r k := by
  cases m <;> rfl

/-- The repetition that `%repi` numbers is the stepped instruction under the modifiers, nothing being outstanding. -/
theorem repOne_eq {i : Instr} {f : RepForm} (hf : repForm i = some f) (r : RepRule) (at_ : Nat) (m : Option (Rnd × Bool × Bool)) {s : State}
    (hc : s.c.ops = []) (hr : s.reqs = []) :
    repOne f (argOf (r, at_)) (withMods m s) = exec (repetition r s.g.repi.toNat i) (atRepetition s m r s.g.repi.toNat) := by
  have hi : repFields i = some (RepForm.fields f) := by rw [← repForm_fields, hf]; rfl
  unfold repOne repetition
  rw [hi]
  dsimp only
  rw [if_neg (by rw [busyS_of_idle (s := withMods m s) hc hr]; exact Bool.false_ne_true), repForm_run hf]
  exact congrArg _ (withMods_repetition m r s s.g.repi.toNat)

theorem repFields_withFields {i : Instr} {f : Option SReg × Option SReg × Option SReg × Bool} (hf : repFields i = some f) (x y z : SReg) :
    ∃ g, repFields (withFields x y z i) = some g := by
  cases i <;> cases hf <;> exact ⟨_, rfl⟩

theorem repetition_keeps_md {i : Instr} {f : Option SReg × Option SReg × Option SReg × Bool} (hf : repFields i = some f) (r : RepRule) (k : Nat)
    {s t : State} (h : exec (repetition r k i) s = .next t) : t.g.md = s.g.md := by
  unfold repetition at h
  rw [hf] at h
  obtain ⟨g, hg⟩ := repFields_withFields hf _ _ _
  exact exec_keeps_md hg h

/-! ### One turn of the loop (R91, R92) -/

section
variable {f : RepForm} {r : RepArg} {s t : State}

/-- What is left where the repetition stands at its instruction. -/
def standing (t : State) : State := if t.g.park.isSome ∨ t.g.hold ≠ .none then { t with g := { t.g with mid := false } } else t

theorem repLoop_stands (n : Nat) (h : repOne f r s = .next t) (hs : t.g.spc = t.g.insAddr) : repLoop f r (n + 1) s = .next (standing t) := by
  rw [repLoop, h]
  dsimp only
  rw [if_pos (by simpa using hs)]
  simp [standing, State.modG]

theorem repLoop_last (n : Nat) (h : repOne f r s = .next t) (hs : t.g.spc ≠ t.g.insAddr) (hl : r.cnt ≤ s.g.repi.toNat) :
    repLoop f r (n + 1) s = .next { t with g := { t.g with repi := 0 } } := by
  rw [repLoop, h]
  dsimp only
  rw [if_neg (by simpa using hs), if_pos hl]
  rfl

/-- The group before its next repetition. -/
def onward (s t : State) : State :=
  { t with g := { t.g with repi := s.g.repi + 1, spc := t.g.insAddr, passed := true, mid := true }, draw := t.draw + 1 }

theorem onward_eq_toNext (hi : t.g.insAddr = s.g.insAddr) : onward s t = toNext s t := by
  rw [toNext, ← hi]
  rfl

theorem repLoop_goes (n : Nat) (h : repOne f r s = .next t) (hs : t.g.spc ≠ t.g.insAddr) (hl : s.g.repi.toNat < r.cnt) :
    repLoop f r (n + 1) s = if f.mem && s.freeBit (51 * 2 ^ 60) then .next (onward s t) else repLoop f r n (onward s t) := by
  rw [repLoop, h]
  dsimp only
  rw [if_neg (by simpa using hs), if_neg (Nat.not_le.mpr hl)]
  rfl

end

theorem repi_succ {x : BitVec 9} {c : Nat} (hc : c ≤ 256) (h : x.toNat < c) : (x + 1).toNat = x.toNat + 1 := by
  rw [BitVec.toNat_add]
  exact Nat.mod_eq_of_lt (show x.toNat + 1 < 512 by omega)

/-- Turns beyond the last repetition are never taken. -/
theorem repLoop_enough (f : RepForm) (r : RepArg) (hc : r.cnt < 256) : ∀ (n : Nat) (s : State), s.g.repi.toNat ≤ r.cnt → r.cnt < s.g.repi.toNat + n →
    repLoop f r n s = repLoop f r (n + 1) s
  | 0, s, hk, hn => absurd hn (by omega)
  | n + 1, s, hk, hn => by
    cases h : repOne f r s with
    | next t =>
      by_cases hs : t.g.spc = t.g.insAddr
      · rw [repLoop_stands _ h hs, repLoop_stands _ h hs]
      by_cases hl : r.cnt ≤ s.g.repi.toNat
      · rw [repLoop_last _ h hs hl, repLoop_last _ h hs hl]
      · have hsucc : (onward s t).g.repi.toNat = s.g.repi.toNat + 1 := repi_succ (Nat.le_of_lt hc) (Nat.not_le.mp hl)
        rw [repLoop_goes _ h hs (Nat.not_le.mp hl), repLoop_goes _ h hs (Nat.not_le.mp hl),
          repLoop_enough f r hc n _ (by omega) (by omega)]
    | fault x => simp only [repLoop, h]
    | refused x => simp only [repLoop, h]

/-! ### Any instruction under `rep` (R92) -/

/-- An accepted sequence with a `rep` runs its repetitions from `%repi` on. -/
theorem exec_rep {p i : Instr} {m : Option (Rnd × Bool × Bool)} {r : RepRule} {at_ words : Nat} {f : RepForm}
    (hp : prefixSeq p = some (m, some (r, at_), words, i)) (hm : modsFit m i) (hf : repForm i = some f) (hr : repFits r (RepForm.fields f)) (s : State) :
    exec p s = repLoop f (argOf (r, at_)) (r.1.toNat + 1) (withMods m s) := by
  have ht : isTransferRule i = false := by
    rw [← isTransfer_eq]
    unfold repForm at hf
    split at hf <;> cases hf <;> rfl
  rw [exec_prefixSeq hp, Option.map_some, runPrefixed_rep s (r, at_) words ht hm hf, if_pos ((argOf_ok_iff r at_ f).mpr hr)]

theorem atRepetition_g_md (s : State) (m : Option (Rnd × Bool × Bool)) (r : RepRule) (k : Nat) : (atRepetition s m r k).g.md = (withMods m s).g.md := by
  cases m <;> rfl

theorem withMods_of_md {m : Option (Rnd × Bool × Bool)} {s t : State} (h : t.g.md = (withMods m s).g.md) : withMods m (toNext s t) = toNext s t := by
  have hm : (m.map modsOf).getD {} = t.g.md := h.symm
  rw [withMods, hm]
  rfl

/-- Clause 2 of O7: one repetition of any instruction, and where the sequence goes from there. -/
theorem repetition_outcome {p i : Instr} {m : Option (Rnd × Bool × Bool)} {r : RepRule} {at_ words : Nat} {f : RepForm} {s t : State}
    (hp : prefixSeq p = some (m, some (r, at_), words, i)) (hm : modsFit m i) (hf : repForm i = some f) (hr : repFits r (RepForm.fields f))
    (hc : s.c.ops = []) (hq : s.reqs = [])
    (he : exec (repetition r s.g.repi.toNat i) (atRepetition s m r s.g.repi.toNat) = .next t) (hi : t.g.insAddr = s.g.insAddr) :
    (t.g.spc ≠ s.g.insAddr → s.g.repi.toNat = r.1.toNat → exec p s = .next { t with g := { t.g with repi := 0 } }) ∧
    (t.g.spc ≠ s.g.insAddr → s.g.repi.toNat < r.1.toNat →
      exec p s = exec p (toNext s t) ∨ (f.mem = true ∧ exec p s = .next (toNext s t))) ∧
    (t.g.spc = s.g.insAddr → exec p s = .next (standing t)) := by
  have h1 : repOne f (argOf (r, at_)) (withMods m s) = .next t := (repOne_eq hf r at_ m hc hq).trans he
  have hrun := exec_rep hp hm hf hr
  rw [← hi]
  refine ⟨fun hs hl => ?_, fun hs hl => ?_, fun hs => ?_⟩
  · rw [hrun]
    exact repLoop_last _ h1 hs (Nat.le_of_eq hl.symm)
  · have hmd : t.g.md = (withMods m s).g.md := by
      have hfields : repFields i = some (RepForm.fields f) := by rw [← repForm_fields, hf]; rfl
      exact (repetition_keeps_md hfields r _ he).trans (atRepetition_g_md s m r _)
    have hnext : exec p (toNext s t) = repLoop f (argOf (r, at_)) r.1.toNat (toNext s t) := by
      have hsucc : (toNext s t).g.repi.toNat = s.g.repi.toNat + 1 := repi_succ (Nat.le_of_lt r.1.isLt) hl
      rw [hrun, withMods_of_md hmd]
      exact (repLoop_enough f (argOf (r, at_)) r.1.isLt _ _ (hsucc ▸ hl) (by rw [hsucc]; show r.1.toNat < _; omega)).symm
    have hgo : exec p s = if f.mem && (withMods m s).freeBit (51 * 2 ^ 60) then .next (toNext s t)
        else repLoop f (argOf (r, at_)) r.1.toNat (toNext s t) := by
      rw [hrun, repLoop_goes (s := withMods m s) _ h1 hs hl, onward_eq_toNext (s := withMods m s) hi]
      rfl
    rw [hnext, hgo]
    split
    · next hb => exact .inr ⟨(Bool.and_eq_true_iff.mp hb).1, rfl⟩
    · exact .inl rfl
  · rw [hrun]
    exact repLoop_stands _ h1 hs

end Sys2Proof.Repetitions
end

section
/-! PROOFS. `rep` before an instruction of two registers (O7): the register file after all repetitions (R27, R91, R92). -/

namespace Sys2Proof.RepBinary
open Machine Claims Prefixes Repetitions

/-! ### One instruction outside every window (R75, R78) -/

theorem openS_of_noWindows {s : State} (h : s.g.winS = []) (r : SReg) : s.openS r = false := by simp [State.openS, h]

theorem sreg_of_noWindows {s : State} (h : s.g.winS = []) (r : SReg) : s.sreg r = readS s.g.s r := s.sreg_closed r (openS_of_noWindows h r)

theorem finS_of_noWindows {s : State} (h : s.g.winS = []) (d : SReg) (x : Word64) :
    finS s 0 d x = .next ({ s with g := { s.g with s := writeS s.g.s d x } } : State).advance := by
  rw [finS, State.setSla_closed s 0 d x none (openS_of_noWindows h d)]
  unfold writeS
  split <;> rfl

theorem finSF_noFlags (s : State) (la : BitVec 4) (d : SReg) (x : Word64) : finSF s la d (x, 0) = finS s la d x := by
  have h (t : State) : t.orFlags 0 = t := by simp [State.orFlags]
  rw [finSF, h]
  rfl

theorem arith64_wraps {s : State} (h : s.g.md = {}) (x : Int) : arith64 s x = (BitVec.ofInt 64 x, 0) := by
  rw [arith64, h]
  rfl

theorem exec_binary {mk : SReg → SReg → SReg → Instr} {op : Word64 → Word64 → Word64} (hb : Binary mk op) {s : State} (hw : s.g.winS = [])
    (hm : s.g.md = {}) (d a b : SReg) :
    exec (mk d a b) s = .next ({ s with g := { s.g with s := writeS s.g.s d (op (readS s.g.s a) (readS s.g.s b)) } } : State).advance := by
  rw [← finS_of_noWindows hw, ← sreg_of_noWindows hw, ← sreg_of_noWindows hw]
  cases hb with
  | add =>
    show finSF s 0 d (arith64 s _) = _
    rw [arith64_wraps hm, finSF_noFlags, BitVec.ofInt_add, BitVec.ofInt_toInt, BitVec.ofInt_toInt]
  | sub =>
    show finSF s 0 d (arith64 s _) = _
    rw [arith64_wraps hm, finSF_noFlags, Int.sub_eq_add_neg, BitVec.ofInt_add, BitVec.ofInt_neg, BitVec.ofInt_toInt, BitVec.ofInt_toInt,
      ← BitVec.sub_eq_add_neg]
  | mul =>
    show finSF s 0 d (arith64 s _) = _
    rw [arith64_wraps hm, finSF_noFlags, BitVec.ofInt_mul, BitVec.ofInt_toInt, BitVec.ofInt_toInt]
  | and => rfl
  | or => rfl
  | xor => rfl

theorem repForm_binary {mk : SReg → SReg → SReg → Instr} {op : Word64 → Word64 → Word64} (hb : Binary mk op) (d a b : SReg) :
    ∃ run, repForm (mk d a b) = some (regs3 d a b run) := by
  cases hb <;> exact ⟨_, rfl⟩

/-! ### The loop -/

/-- `t` is `s` after n repetitions: the scalar registers, and of the group nothing else that a program reads. -/
structure Ran (op : Word64 → Word64 → Word64) (d a b : SReg) (ds as bs : BitVec 2) (s : State) (n : Nat) (t : State) : Prop where
  rest : t = { s with g := t.g, draw := t.draw }
  regs : t.g.s = repeated op d a b ds as bs s.g.s n
  flags : t.g.fpflags = s.g.fpflags
  lanes : t.g.v = s.g.v
  preds : t.g.p = s.g.p
  masks : t.g.k = s.g.k

theorem rest_with {s u : State} (h : u = { s with g := u.g, draw := u.draw }) (g : Group) (n : Nat) :
    ({ u with g := g, draw := n } : State) = { s with g := g, draw := n } := by
  rw [h]

/-- `u` stands before repetition k. -/
structure Before (op : Word64 → Word64 → Word64) (d a b : SReg) (ds as bs : BitVec 2) (s : State) (k : Nat) (u : State) : Prop
    extends Ran op d a b ds as bs s k u where
  repi : u.g.repi.toNat = k
  windows : u.g.winS = []
  mods : u.g.md = {}
  back : u.g.ahead.back = none
  addr : u.g.insAddr = s.g.insAddr
  len : u.g.insLen = s.g.insLen

section
variable {mk : SReg → SReg → SReg → Instr} {op : Word64 → Word64 → Word64} {d a b : SReg} {cnt : BitVec 8} {ds as bs : BitVec 2}
  {s u : State} {k : Nat}

/-- The group after its repetition k, with the instruction passed. -/
def written (op : Word64 → Word64 → Word64) (d a b : SReg) (r : RepRule) (s : State) (k : Nat) (u : State) : State :=
  ({ atRepetition u none r k with
     g := { (atRepetition u none r k).g with s := repeated op d a b r.2.1 r.2.2.1 r.2.2.2.1 s.g.s (k + 1) } } : State).advance

theorem repeated_field (r : SReg) (k : Nat) (st : BitVec 2) : r + BitVec.ofNat 6 (k * st.toNat) = BitVec.ofNat 6 (r.toNat + k * st.toNat) := by
  rw [BitVec.ofNat_add, BitVec.ofNat_toNat, BitVec.setWidth_eq]

theorem repetition_binary (hb : Binary mk op) (r : RepRule) (k : Nat) (d a b : SReg) :
    repetition r k (mk d a b) = mk (BitVec.ofNat 6 (d.toNat + k * r.2.1.toNat)) (BitVec.ofNat 6 (a.toNat + k * r.2.2.1.toNat))
      (BitVec.ofNat 6 (b.toNat + k * r.2.2.2.1.toNat)) := by
  rw [← repeated_field, ← repeated_field, ← repeated_field]
  cases hb <;> rfl

theorem withMods_none (h : u.g.md = {}) : withMods none u = u := by
  show ({ u with g := { u.g with md := {} } } : State) = u
  rw [← h]

theorem repOne_written (hb : Binary mk op) (hc : s.c.ops = []) (hq : s.reqs = []) (h : Before op d a b ds as bs s k u) {f : RepForm}
    (hf : repForm (mk d a b) = some f) (st : BitVec 12) (at_ : Nat) :
    repOne f (argOf ((cnt, ds, as, bs, st), at_)) u = .next (written op d a b (cnt, ds, as, bs, st) s k u) := by
  have huc : u.c.ops = [] := by rw [h.rest]; exact hc
  have huq : u.reqs = [] := by rw [h.rest]; exact hq
  have hone := repOne_eq hf (cnt, ds, as, bs, st) at_ none huc huq
  rw [withMods_none h.mods, h.repi, repetition_binary hb] at hone
  rw [hone, exec_binary (s := atRepetition u none (cnt, ds, as, bs, st) k) hb h.windows rfl]
  simp only [written, repeated, ← h.regs]
  rfl

/-- The instruction behind the prefix is passed: the PC is another. -/
theorem written_moves (h : Before op d a b ds as bs s k u) (r : RepRule) (h1 : 1 ≤ s.g.insLen) (h4 : s.g.insLen ≤ 4) :
    (written op d a b r s k u).g.spc ≠ (written op d a b r s k u).g.insAddr := by
  show u.g.ahead.back.getD (u.g.insAddr + BitVec.ofNat 64 (4 * u.g.insLen)) ≠ u.g.insAddr
  rw [h.back, h.addr, h.len]
  show s.g.insAddr + BitVec.ofNat 64 (4 * s.g.insLen) ≠ s.g.insAddr
  intro he
  have hn := congrArg BitVec.toNat he
  have hlt := s.g.insAddr.isLt
  rw [BitVec.toNat_add, BitVec.toNat_ofNat] at hn
  omega

theorem written_ran (h : Before op d a b ds as bs s k u) (cnt : BitVec 8) (st : BitVec 12) :
    Ran op d a b ds as bs s (k + 1) (written op d a b (cnt, ds, as, bs, st) s k u) where
  rest := rest_with h.rest _ _
  regs := rfl
  flags := h.flags
  lanes := h.lanes
  preds := h.preds
  masks := h.masks

/-- A group that has passed repetition k stands before the next one. -/
theorem onward_before (h : Before op d a b ds as bs s k u) (hk : k < 256) (r : RepRule)
    (ht : Ran op d a b ds as bs s (k + 1) (written op d a b r s k u)) :
    Before op d a b ds as bs s (k + 1) (onward u (written op d a b r s k u)) where
  rest := rest_with ht.rest _ _
  regs := ht.regs
  flags := ht.flags
  lanes := ht.lanes
  preds := ht.preds
  masks := ht.masks
  repi := by
    show (u.g.repi + 1).toNat = k + 1
    rw [repi_succ (c := 256) (Nat.le_refl _) (h.repi ▸ hk), h.repi]
  windows := congrArg State.ageS h.windows
  mods := rfl
  back := rfl
  addr := h.addr
  len := h.len

/-- From repetition k on the loop ends behind the instruction, with every repetition made. -/
theorem repLoop_binary (hb : Binary mk op) (hc : s.c.ops = []) (hq : s.reqs = []) (h1 : 1 ≤ s.g.insLen) (h4 : s.g.insLen ≤ 4)
    {run : SReg → SReg → SReg → State → Out}
    (hf : repForm (mk d a b) = some (regs3 d a b run)) (st : BitVec 12) (at_ : Nat) :
    ∀ (n k : Nat) (u : State), k + n = cnt.toNat → Before op d a b ds as bs s k u →
      ∃ t, repLoop (regs3 d a b run) (argOf ((cnt, ds, as, bs, st), at_)) (n + 1) u = .next t ∧ Ran op d a b ds as bs s (cnt.toNat + 1) t ∧
        t.g.repi = 0 ∧ t.g.spc = s.g.insAddr + BitVec.ofNat 64 (4 * s.g.insLen)
  | 0, k, u, hk, h => by
    have ht := written_ran h cnt st
    refine ⟨_, repLoop_last 0 (repOne_written hb hc hq h hf st at_) (written_moves h _ h1 h4) ?_, ?_, rfl, ?_⟩
    · show cnt.toNat ≤ u.g.repi.toNat
      rw [h.repi]; omega
    · rw [← hk]
      exact ⟨rest_with ht.rest _ _, ht.regs, ht.flags, ht.lanes, ht.preds, ht.masks⟩
    · show u.g.ahead.back.getD (u.g.insAddr + BitVec.ofNat 64 (4 * u.g.insLen)) = _
      rw [h.back, h.addr, h.len]; rfl
  | n + 1, k, u, hk, h => by
    have hlt : u.g.repi.toNat < cnt.toNat := by rw [h.repi]; omega
    have hgo := repLoop_goes (r := argOf ((cnt, ds, as, bs, st), at_)) (n + 1) (repOne_written hb hc hq h hf st at_) (written_moves h _ h1 h4) hlt
    rw [hgo]
    exact repLoop_binary hb hc hq h1 h4 hf st at_ n (k + 1) _ (by omega) (onward_before h (by have := cnt.isLt; omega) _ (written_ran h cnt st))

end

/-- Settles O7: by induction over the repetitions for the register file (`repLoop_binary`), and by one turn of the loop for any instruction
(`repetition_outcome`). -/
theorem repPrefixRepeats : Obligations.RepPrefixRepeats := by
  refine ⟨fun s mk op d a b cnt ds as bs hb hd ha hb' hi hw hk hc hq h1 h4 => ?_, fun s t p i m r at_ words f hp hm hf hr hc hq hk he hi => ?_⟩
  · obtain ⟨run, hf⟩ := repForm_binary hb d a b
    have hp : prefixSeq (.repPrefix cnt ds as bs 0 (mk d a b)) = some (none, some ((cnt, ds, as, bs, 0), 0), 1, mk d a b) := by cases hb <;> rfl
    have hstart : Before op d a b ds as bs s 0 (withMods none s) :=
      ⟨⟨rfl, rfl, rfl, rfl, rfl, rfl⟩, by rw [withMods, hi]; rfl, hw, rfl, hk, rfl, rfl⟩
    obtain ⟨t, hrun, ht, hrepi, hpc⟩ := repLoop_binary hb hc hq h1 h4 hf 0 0 cnt.toNat 0 _ (Nat.zero_add _) hstart
    refine ⟨t, (exec_rep hp trivial hf ⟨hd, ha, hb', fun _ => rfl⟩ s).trans hrun, ht.regs, hrepi, hpc, ht.flags, ht.lanes, ht.preds, ht.masks, ?_⟩
    rw [ht.rest]
    exact ⟨rfl, rfl, rfl, fun _ => rfl⟩
  · obtain ⟨d, a, b, mem⟩ := f
    obtain ⟨g, hg, rfl, rfl, rfl, rfl⟩ := repForm_of_repFields hf
    exact repetition_outcome hp hm hg hr hc hq he hi

end Sys2Proof.RepBinary
end

section
/-! PROOFS. The fields of a fault record (R398): bits of a packed number, and bytes of a record. -/

namespace Sys2Proof.Records
open Machine

/-! ### Packed numbers -/

theorem foldl_place (n : Nat) (fs : List (Nat × Nat)) : fs.foldl (fun n f => n + f.2 * 2 ^ f.1) n = n + packBits fs := by
  unfold packBits
  induction fs generalizing n with
  | nil => rfl
  | cons f fs ih => rw [List.foldl_cons, List.foldl_cons, ih, ih (0 + _)]; omega

theorem packBits_cons (f : Nat × Nat) (fs : List (Nat × Nat)) : packBits (f :: fs) = f.2 * 2 ^ f.1 + packBits fs := by
  rw [packBits, List.foldl_cons, foldl_place, Nat.zero_add]

/-- Where the fields of a list begin; an empty one ends at `hi`. -/
def startOf (hi : Nat) : List (Nat × Nat) → Nat
  | [] => hi
  | f :: _ => f.1

/-- The fields lie in rising order, each below the next one. -/
def Laid (hi : Nat) : List (Nat × Nat) → Prop
  | [] => True
  | f :: fs => f.1 ≤ startOf hi fs ∧ f.2 < 2 ^ (startOf hi fs - f.1) ∧ Laid hi fs

theorem packBits_dvd {hi : Nat} : ∀ {fs : List (Nat × Nat)}, Laid hi fs → 2 ^ startOf hi fs ∣ packBits fs
  | [], _ => ⟨0, rfl⟩
  | f :: fs, ⟨hle, _, hfs⟩ => by
    rw [packBits_cons]
    exact Nat.dvd_add (Nat.dvd_mul_left ..) (Nat.dvd_trans (Nat.pow_dvd_pow 2 hle) (packBits_dvd hfs))

/-- The first field of a list. -/
theorem bitsOf_first {hi : Nat} {f : Nat × Nat} {fs : List (Nat × Nat)} (h : Laid hi (f :: fs)) :
    bitsOf (packBits (f :: fs)) f.1 (startOf hi fs - f.1) = f.2 := by
  obtain ⟨hle, hlt, hfs⟩ := h
  obtain ⟨k, hk⟩ := packBits_dvd hfs
  rw [bitsOf, packBits_cons, hk, ← Nat.add_sub_cancel' hle, Nat.pow_add, Nat.mul_assoc, Nat.mul_comm f.2, ← Nat.mul_add,
    Nat.mul_div_cancel_left _ (Nat.two_pow_pos _), Nat.add_sub_cancel_left, Nat.add_mul_mod_self_left, Nat.mod_eq_of_lt hlt]

theorem startOf_le {hi : Nat} : ∀ {fs : List (Nat × Nat)} {n : Nat} {f : Nat × Nat}, Laid hi fs → fs[n]? = some f → startOf hi fs ≤ f.1
  | g :: fs, 0, f, _, hf => by cases hf; exact Nat.le_refl _
  | g :: fs, n + 1, f, ⟨hle, _, hfs⟩, hf => Nat.le_trans hle (startOf_le hfs hf)

/-- Each field is found at its place, with the width up to the next. -/
theorem bitsOf_field {hi : Nat} : ∀ {fs : List (Nat × Nat)} (n : Nat) {f : Nat × Nat}, Laid hi fs → fs[n]? = some f →
    bitsOf (packBits fs) f.1 (startOf hi (fs.drop (n + 1)) - f.1) = f.2
  | g :: fs, 0, f, h, hf => by cases hf; exact bitsOf_first h
  | g :: fs, n + 1, f, ⟨hle, hlt, hfs⟩, hf => by
    obtain ⟨k, hk⟩ := packBits_dvd hfs
    have hlow : g.2 * 2 ^ g.1 < 2 ^ startOf hi fs := by
      calc g.2 * 2 ^ g.1 < 2 ^ (startOf hi fs - g.1) * 2 ^ g.1 := Nat.mul_lt_mul_of_pos_right hlt (Nat.two_pow_pos _)
        _ = 2 ^ startOf hi fs := by rw [← Nat.pow_add, Nat.sub_add_cancel hle]
    have hskip : packBits (g :: fs) / 2 ^ f.1 = packBits fs / 2 ^ f.1 := by
      rw [packBits_cons, hk, ← Nat.add_sub_cancel' (startOf_le hfs hf), Nat.pow_add, ← Nat.div_div_eq_div_mul, ← Nat.div_div_eq_div_mul,
        Nat.add_mul_div_left _ _ (Nat.two_pow_pos _), Nat.div_eq_of_lt hlow, Nat.zero_add, Nat.mul_div_cancel_left _ (Nat.two_pow_pos _)]
    rw [bitsOf, hskip]
    exact bitsOf_field n hfs hf

/-! ### Bytes -/

theorem leBytes_drop : ∀ (off m x : Nat), (leBytes m x).drop off = leBytes (m - off) (x / 2 ^ (8 * off))
  | 0, m, x => by simp
  | off + 1, 0, x => by simp [leBytes]
  | off + 1, m + 1, x => by
    have hx : x / 256 / 2 ^ (8 * off) = x / 2 ^ (8 * (off + 1)) := by rw [Nat.div_div_eq_div_mul, Nat.mul_succ, Nat.pow_add, Nat.mul_comm]
    rw [leBytes, List.drop_succ_cons, leBytes_drop off m, hx, Nat.add_sub_add_right]

theorem leBytes_take : ∀ (n m x : Nat), (leBytes m x).take n = leBytes (min n m) x
  | 0, m, x => by simp [leBytes]
  | n + 1, 0, x => by simp [leBytes]
  | n + 1, m + 1, x => by rw [leBytes, List.take_succ_cons, leBytes_take n m, Nat.succ_min_succ, leBytes]

/-- A field of bytes is a field of bits of the number that the bytes hold. -/
theorem fieldAt_leBytes {m off n : Nat} (h : off + n ≤ m) (x : Nat) : fieldAt (leBytes m x) off n = bitsOf x (8 * off) (8 * n) := by
  rw [fieldAt, leBytes_drop, leBytes_take, ofLe_leBytes, Nat.min_eq_left (by omega), bitsOf, Nat.pow_mul 2 8 n]

/-! ### Fault records -/

/-- The fields of a record, placed as R398 gives them. -/
def recordFields (r : FaultRec) (stamp : Nat) : List (Nat × Nat) :=
  [(0, r.code), (8, b2n r.precise), (9, b2n r.held), (10, b2n r.stopped), (16, r.journey), (24, r.core), (32, r.group), (40, r.band),
   (48, r.agent), (64, stamp % 2 ^ 64), (128, r.iaddr.toNat), (192, r.waddr.toNat), (256, r.lqaddr.toNat), (320, r.lanes.toNat),
   (352, r.lane), (357, r.access), (360, r.further), (384, r.vaddr.toNat), (448, r.paddr), (512, r.span0.toNat), (576, r.round.toNat),
   (608, r.info), (640, r.syndrome.toNat)]

/-- The numbers of a record fit their fields. -/
structure RecordFits (r : FaultRec) : Prop where
  code : r.code < 2 ^ 8
  journey : r.journey < 2 ^ 8
  core : r.core < 2 ^ 8
  group : r.group < 2 ^ 8
  band : r.band < 2 ^ 8
  agent : r.agent < 2 ^ 16
  lane : r.lane < 2 ^ 5
  access : r.access < 2 ^ 3
  further : r.further < 2 ^ 24
  paddr : r.paddr < 2 ^ 64
  info : r.info < 2 ^ 32

theorem b2n_lt (x : Bool) : b2n x < 2 := by cases x <;> decide

theorem recordFields_laid {r : FaultRec} (h : RecordFits r) (stamp : Nat) : Laid 704 (recordFields r stamp) := by
  have hs : b2n r.stopped < 2 ^ 6 := Nat.lt_of_lt_of_le (b2n_lt _) (by decide)
  have ht : stamp % 2 ^ 64 < 2 ^ 64 := Nat.mod_lt _ (by decide)
  simp only [recordFields, Laid, startOf]
  exact ⟨by omega, h.code, by omega, b2n_lt _, by omega, b2n_lt _, by omega, hs, by omega, h.journey, by omega, h.core, by omega, h.group,
    by omega, h.band, by omega, h.agent, by omega, ht, by omega, r.iaddr.isLt, by omega, r.waddr.isLt, by omega, r.lqaddr.isLt,
    by omega, r.lanes.isLt, by omega, h.lane, by omega, h.access, by omega, h.further, by omega, r.vaddr.isLt, by omega, h.paddr,
    by omega, r.span0.isLt, by omega, r.round.isLt, by omega, h.info, by omega, r.syndrome.isLt, trivial⟩

theorem bytes_length (r : FaultRec) (stamp : Nat) : (r.bytes stamp).length = 128 := leBytes_length 128 _

/-- A field of bytes of a record. -/
theorem fieldAt_bytes {r : FaultRec} (h : RecordFits r) (stamp k off n x : Nat) (hk : (recordFields r stamp)[k]? = some (8 * off, x))
    (hn : startOf 704 ((recordFields r stamp).drop (k + 1)) = 8 * (off + n)) (hm : off + n ≤ 128) : fieldAt (r.bytes stamp) off n = x := by
  have hf := bitsOf_field k (recordFields_laid h stamp) hk
  rw [hn, Nat.mul_add, Nat.add_sub_cancel_left] at hf
  exact (fieldAt_leBytes hm _).trans hf

/-- The bits precise, held and stopped of a record. -/
theorem status_bytes {r : FaultRec} (h : RecordFits r) (stamp : Nat) :
    bitsOf (fieldAt (r.bytes stamp) 1 1) 0 3 = b2n r.precise + 2 * b2n r.held + 4 * b2n r.stopped := by
  have hl := recordFields_laid h stamp
  generalize hy : packBits (recordFields r stamp) / 2 ^ 8 = y
  have hp : y % 2 = b2n r.precise := hy ▸ bitsOf_field 1 hl rfl
  have hh : y / 2 % 2 = b2n r.held := by rw [← hy, Nat.div_div_eq_div_mul]; exact bitsOf_field 2 hl rfl
  have hs : y / 4 % 2 ^ 6 = b2n r.stopped := by rw [← hy, Nat.div_div_eq_div_mul]; exact bitsOf_field 3 hl rfl
  have hb : fieldAt (r.bytes stamp) 1 1 = y % 2 ^ 8 := hy ▸ fieldAt_leBytes (by omega) _
  have h2 := b2n_lt r.stopped
  rw [hb, bitsOf]
  omega

end Sys2Proof.Records
end

section
/-! PROOFS. Precise traps (O9): the record that a trap adds, and what it leaves alone (R48, R98, R398, R409). -/

namespace Sys2Proof.Traps
open Machine Claims Records

/-! ### Rooms -/

theorem find?_upsert {α : Type} {p : α → Bool} {x : α} (h : p x = true) (l : List α) : (upsert p x l).find? p = some x := by
  induction l with
  | nil => simp [upsert, h]
  | cons y ys ih =>
    unfold upsert
    split
    · simp [h]
    · next hy => rw [List.find?_cons_of_neg hy, ih]

theorem room?_putRoom (s : State) (r : Room) : (s.putRoom r).room? r.num = some r := find?_upsert (by simp) s.rooms

theorem room?_num {s : State} {n : Nat} {m : Room} (h : s.room? n = some m) : m.num = n := by
  have hp := List.find?_some h
  simpa using hp

/-! ### Messages and notices keep sessions and fault queues -/

theorem sendMsg_sessions (s : State) (conn type op journey status : Nat) (reqSeq : Option Word32) (pre body : List Byte) :
    ∃ u : Hub, s.sendMsg conn type op journey status reqSeq pre body = { s with hub := u } ∧ u.sessions = s.hub.sessions := by
  unfold State.sendMsg
  split
  · exact ⟨s.hub, rfl, rfl⟩
  · exact ⟨_, rfl, rfl⟩

/-- `t` is `s` with some message sent or queued: the room's fault queue is as given, and the sessions stand. -/
structure Noticed (s : State) (room : Nat) (q : List (List Byte)) (t : State) : Prop where
  rest : t = { s with rooms := t.rooms, hub := t.hub }
  sessions : t.hub.sessions = s.hub.sessions
  queue : (t.room? room).map (·.faultq) = some q

theorem notice_noticed {s : State} {room : Nat} {m : Room} (hm : s.room? room = some m) (kind journey : Nat) (body : List Byte) :
    Noticed s room m.faultq (s.notice room kind journey body) := by
  unfold State.notice
  rw [hm]
  dsimp only
  split
  · exact ⟨rfl, rfl, by rw [← room?_num hm]; exact congrArg _ (room?_putRoom s _)⟩
  · obtain ⟨u, hu, hs⟩ := sendMsg_sessions s _ 3 kind journey 0 none [] body
    rw [hu]
    exact ⟨rfl, hs, congrArg _ hm⟩

theorem putRoom_noticed {s : State} {room : Nat} {m : Room} (hm : s.room? room = some m) (q : List (List Byte)) :
    Noticed s room q (s.putRoom { m with faultq := q }) :=
  ⟨rfl, rfl, by rw [← room?_num hm]; exact congrArg _ (room?_putRoom s _)⟩

/-- A record enters a fault queue that has room. -/
theorem postRecord_noticed {s : State} {room : Nat} {m : Room} (hm : s.room? room = some m) (hl : m.faultq.length < 1024) (r : FaultRec) :
    Noticed s room (m.faultq ++ [r.bytes s.wallNs]) (s.postRecord room r) := by
  have hput := putRoom_noticed hm (m.faultq ++ [r.bytes s.wallNs])
  unfold State.postRecord
  rw [hm]
  dsimp only
  rw [if_pos hl]
  split
  · obtain ⟨m', hm', hq⟩ := Option.map_eq_some_iff.mp hput.queue
    have hn := notice_noticed hm' 3 r.journey (leBytes 8 1)
    rw [hq] at hn
    exact ⟨hn.rest, hn.sessions, hn.queue⟩
  · exact hput

/-! ### The trace record (R409) -/

/-- Of its core a trace record changes the clock alone. -/
theorem trace_clock (s : State) (kind : Nat) :
    ∃ (m p : Memory) (u : Hub) (n : Nat), s.trace kind = { s with mem := m, pool := p, hub := u, c := { s.c with clock := n } } := by
  unfold State.trace
  split
  · obtain ⟨m, p, u, h⟩ := s.traceTo_eq _ kind s.g s.g.stateCode (s.clockOf s.c)
    exact ⟨m, p, u, _, by rw [h]⟩
  · exact ⟨s.mem, s.pool, s.hub, s.c.clock, rfl⟩

/-! ### The trap -/

/-- The record of a precise trap of the focused group. -/
def trapRec (s : State) (code : Nat) (a : TrapArg) : FaultRec :=
  { s.groupRec code with precise := true, held := true, waddr := a.waddr, lqaddr := a.lqaddr, vaddr := a.vaddr, info := a.info,
                         access := a.access }

/-- The group held at its instruction, before the trace. -/
def heldAt (s : State) (a : TrapArg) : State := s.modG fun g => { g with hold := .trap a.next, spc := g.insAddr, wait := 7 }

theorem takeTrap_taken {s : State} (code : Nat) (a : TrapArg) (h : s.doneOrParked = true) :
    s.takeTrap code a = (heldAt (s.postRecord s.g.room (trapRec s code a)) a).trace 7 := if_pos h

theorem trapRec_fits {s : State} {code : Nat} {a : TrapArg} (hc : code < 256) (hj : s.g.journey < 256) (hcore : s.g.core < 256)
    (hslot : s.g.slot < 64) (hband : s.g.band < 256) (hi : a.info < 2 ^ 32) (ha : a.access < 8) : RecordFits (trapRec s code a) :=
  ⟨hc, hj, hcore, Nat.lt_trans hslot (by decide), hband, Nat.two_pow_pos _, Nat.two_pow_pos _, ha, Nat.two_pow_pos _, Nat.two_pow_pos _, hi⟩

section
variable {s t : State} {room : Nat} {q : List (List Byte)} (a : TrapArg)

theorem trace_group (h : Noticed s room q t) :
    ((heldAt t a).trace 7).g = { s.g with hold := .trap a.next, spc := s.g.insAddr, wait := 7 } := by
  obtain ⟨y, p, u, n, ht⟩ := trace_clock (heldAt t a) 7
  rw [ht, h.rest]
  rfl

theorem trace_queue (h : Noticed s room q t) : (((heldAt t a).trace 7).room? room).map (·.faultq) = some q := by
  obtain ⟨y, p, u, n, ht⟩ := trace_clock (heldAt t a) 7
  rw [ht]
  exact h.queue

/-- A trap keeps all but its group, its record and its trace. -/
theorem trace_keeps (h : Noticed s room q t) : trapKeeps s ((heldAt t a).trace 7) := by
  have hquiet : s.sessionOf s.g.room = none → (heldAt t a).trace 7 = heldAt t a := by
    intro hn
    apply State.trace_none
    have hr : (heldAt t a).g.room = s.g.room := by rw [h.rest]; rfl
    rw [hr, State.sessionOf]
    show t.hub.sessions.find? _ = none
    rw [h.sessions]
    exact hn
  obtain ⟨y, p, u, n, ht⟩ := trace_clock (heldAt t a) 7
  refine ⟨?_, ?_, ?_, ?_, ?_, ?_, ?_, ?_, ?_, fun hn => ?_⟩
  case refine_10 =>
    rw [hquiet hn, h.rest]
    exact ⟨rfl, rfl, rfl⟩
  all_goals
    rw [ht, h.rest]
    rfl

end

/-- Settles O9: the record's fields by `fieldAt_bytes`, its place in the queue by `postRecord_noticed`, the rest by `trace_keeps`. -/
theorem trapRecordsAndHolds : Obligations.TrapRecordsAndHolds := by
  refine ⟨fun s code a m hd hm hl hc hj hcore hslot hband hi ha => ?_, fun s code a hd => s.takeTrap_waits code a hd⟩
  have hf := trapRec_fits hc hj hcore hslot hband hi ha
  have hn := postRecord_noticed hm hl (trapRec s code a)
  rw [takeTrap_taken code a hd]
  refine ⟨(trapRec s code a).bytes s.wallNs, bytes_length _ _, ?_, status_bytes hf _, ?_, ?_, ?_, ?_, ?_, ?_, ?_, ?_, ?_, ?_,
    trace_queue a hn, trace_group a hn, trace_keeps a hn⟩
  · exact fieldAt_bytes hf _ 0 0 1 code rfl rfl (by omega)
  · exact fieldAt_bytes hf _ 4 2 1 s.g.journey rfl rfl (by omega)
  · exact fieldAt_bytes hf _ 5 3 1 s.g.core rfl rfl (by omega)
  · exact fieldAt_bytes hf _ 6 4 1 s.g.slot rfl rfl (by omega)
  · exact fieldAt_bytes hf _ 7 5 1 s.g.band rfl rfl (by omega)
  · exact fieldAt_bytes hf _ 10 16 8 s.g.insAddr.toNat rfl rfl (by omega)
  · exact fieldAt_bytes hf _ 11 24 8 a.waddr.toNat rfl rfl (by omega)
  · exact fieldAt_bytes hf _ 17 48 8 a.vaddr.toNat rfl rfl (by omega)
  · exact fieldAt_bytes hf _ 19 64 8 s.g.span0.toNat rfl rfl (by omega)
  · exact fieldAt_bytes hf _ 20 72 4 s.g.round.toNat rfl rfl (by omega)
  · exact fieldAt_bytes hf _ 21 76 4 a.info rfl rfl (by omega)

end Sys2Proof.Traps
end

section
/-! PROOFS. Magnitudes (R61): their order in any common unit, and the cell of a grid that a magnitude lies in. -/

namespace Sys2Proof.Magnitudes
open Machine Claims

/-! ### Units -/

theorem inUnits_scale {u q : Int} {x : Mag} (hu : u ≤ q) (hq : q ≤ x.2) :
    inUnits u x = inUnits q x * 2 ^ (q - u).toNat := by
  have hexp : (x.2 - u).toNat = (x.2 - q).toNat + (q - u).toNat := by omega
  rw [inUnits, inUnits, hexp, Nat.pow_add, Nat.mul_assoc]

theorem magLe_iff_inUnits {u : Int} {x y : Mag} (hx : u ≤ x.2) (hy : u ≤ y.2) : magLe x y ↔ inUnits u x ≤ inUnits u y := by
  have hu := Int.le_min.mpr ⟨hx, hy⟩
  rw [inUnits_scale hu (Int.min_le_left ..), inUnits_scale hu (Int.min_le_right ..)]
  exact (Nat.mul_le_mul_right_iff (Nat.two_pow_pos _)).symm

theorem inUnits_self (x : Mag) : inUnits x.2 x = x.1 := by simp [inUnits]

theorem magLt_iff_not_magLe (x y : Mag) : magLt x y ↔ ¬ magLe y x := by
  rw [magLt, magLe, Int.min_comm, Nat.not_le]

/-- The whole units of 2^q in a magnitude. -/
def floorAt (q : Int) (x : Mag) : Nat := if q ≤ x.2 then inUnits q x else x.1 / 2 ^ (q - x.2).toNat

theorem floorAt_of_le {q : Int} {x : Mag} (h : q ≤ x.2) : floorAt q x = inUnits q x := if_pos h

theorem magLe_iff_le_floorAt {q : Int} {x y : Mag} (h : q ≤ y.2) : magLe y x ↔ inUnits q y ≤ floorAt q x := by
  by_cases hx : q ≤ x.2
  · rw [magLe_iff_inUnits h hx, floorAt_of_le hx]
  · rw [magLe_iff_inUnits (u := x.2) (by omega) Int.le_rfl, floorAt, if_neg hx, Nat.le_div_iff_mul_le (Nat.two_pow_pos _), inUnits_self,
      inUnits_scale (q := q) (by omega) h]

theorem magLt_iff_floorAt_lt {q : Int} {x y : Mag} (h : q ≤ y.2) : magLt x y ↔ floorAt q x < inUnits q y := by
  rw [magLt_iff_not_magLe, magLe_iff_le_floorAt h, Nat.not_le]

theorem magLe_of_floorAt_lt {q : Int} {x : Mag} {l : Nat} (h : floorAt q x < l) : magLe x (l, q) :=
  Nat.le_of_lt ((magLt_iff_floorAt_lt (y := (l, q)) Int.le_rfl).mpr (by rwa [inUnits_self (l, q)]))

/-- The place of a magnitude's first bit bounds it: with `floorAt`, this ties `Nat.log2` to the grid. -/
theorem top_lt_iff {m : Nat} (hm : m ≠ 0) (e q : Int) (n : Nat) : e + m.log2 < q + n ↔ floorAt q (m, e) < 2 ^ n := by
  have hunit : inUnits q (1, q + n) = 2 ^ n := by rw [inUnits, show (q + n - q).toNat = n by omega, Nat.one_mul]
  rw [← hunit, ← magLt_iff_floorAt_lt (show q ≤ q + n by omega)]
  by_cases h : q + n ≤ e
  · have hpos : 0 < inUnits (q + n) (m, e) := Nat.mul_pos (Nat.pos_of_ne_zero hm) (Nat.two_pow_pos _)
    rw [magLt_iff_floorAt_lt (q := q + n) Int.le_rfl, floorAt_of_le h, inUnits_self (1, q + n)]
    constructor <;> intro hlt <;> omega
  · rw [magLt_iff_floorAt_lt (show e ≤ q + n by omega), floorAt_of_le (x := (m, e)) Int.le_rfl, inUnits_self (m, e), inUnits, Nat.one_mul,
      ← Nat.log2_lt hm]
    show _ ↔ m.log2 < (q + n - e).toNat
    omega

/-! ### Rounding in a cell -/

/-- Whether a mode goes up from the lower neighbour, `r` of the `w` units to the upper one away from it. -/
def goesUp (mode : Rnd) (neg : Bool) (draw r w : Nat) (odd : Bool) : Bool :=
  match mode with
  | .rn => decide (w < 2 * r) || (decide (2 * r = w) && odd)
  | .rz => false
  | .rd => neg
  | .ru => !neg
  | .ra => decide (w ≤ 2 * r)
  | .rs => decide (draw < r * 2 ^ 16 / w)

/-- `hi` is the grid point above `lo`, one unit of `lo` away. -/
structure Step (lo hi : Mag) : Prop where
  expo : lo.2 ≤ hi.2
  next : inUnits lo.2 hi = lo.1 + 1

theorem magLt_of_step {lo hi : Mag} (h : Step lo hi) : magLt lo hi := by
  rw [magLt_iff_floorAt_lt h.expo, h.next, floorAt_of_le Int.le_rfl, inUnits_self]
  exact Nat.lt_succ_self _

section
variable (mode : Rnd) (neg : Bool) (draw : Nat)

theorem takesUpper_of_magLe {x lo : Mag} (hi : Mag) (odd : Bool) (h : magLe x lo) : takesUpper mode neg draw x lo hi odd = false := by
  have hv := (magLe_iff_inUnits (u := min x.2 (min lo.2 hi.2)) (by omega) (by omega)).mp h
  unfold takesUpper
  dsimp only
  rw [decide_eq_false (Nat.not_lt.mpr hv), Bool.false_and]

/-- In units of a magnitude finer than its cell, the rule compares the magnitude's distance from the lower neighbour with the cell's width. -/
theorem takesUpper_eq_goesUp {x lo hi : Mag} (odd : Bool) (hs : Step lo hi) (hx : x.2 ≤ lo.2) (h : magLt lo x) :
    takesUpper mode neg draw x lo hi odd = goesUp mode neg draw (x.1 - inUnits x.2 lo) (2 ^ (lo.2 - x.2).toNat) odd := by
  have hunit : min x.2 (min lo.2 hi.2) = x.2 := by have := hs.expo; omega
  have hlt : inUnits x.2 lo < x.1 := by
    rwa [magLt_iff_floorAt_lt Int.le_rfl, floorAt_of_le hx, inUnits_self] at h
  have hhi : inUnits x.2 hi = inUnits x.2 lo + 2 ^ (lo.2 - x.2).toNat := by
    rw [inUnits_scale hx hs.expo, hs.next, Nat.succ_mul]
    rfl
  unfold takesUpper
  dsimp only
  rw [hunit, inUnits_self, hhi, decide_eq_true hlt, Bool.true_and, Nat.add_sub_cancel_left]
  cases mode with
  | rn =>
    have hpast : inUnits x.2 lo + (inUnits x.2 lo + 2 ^ (lo.2 - x.2).toNat) < 2 * x.1 ↔
        2 ^ (lo.2 - x.2).toNat < 2 * (x.1 - inUnits x.2 lo) := by omega
    have htie : inUnits x.2 lo + (inUnits x.2 lo + 2 ^ (lo.2 - x.2).toNat) = 2 * x.1 ↔
        2 * (x.1 - inUnits x.2 lo) = 2 ^ (lo.2 - x.2).toNat := by omega
    simp only [goesUp, hpast, htie]
  | ra =>
    have hpast : inUnits x.2 lo + (inUnits x.2 lo + 2 ^ (lo.2 - x.2).toNat) ≤ 2 * x.1 ↔
        2 ^ (lo.2 - x.2).toNat ≤ 2 * (x.1 - inUnits x.2 lo) := by omega
    simp only [goesUp, hpast]
  | rz | rd | ru | rs => rfl

theorem roundShift_of_exact {m k : Nat} (h : m % 2 ^ k = 0) : roundShift mode neg draw m k = (m / 2 ^ k, false) := by
  unfold roundShift
  exact if_pos h

theorem roundShift_of_inexact {m k : Nat} (h : m % 2 ^ k ≠ 0) : roundShift mode neg draw m k =
    (if goesUp mode neg draw (m % 2 ^ k) (2 ^ k) (m / 2 ^ k % 2 == 1) then m / 2 ^ k + 1 else m / 2 ^ k, true) := by
  unfold roundShift
  dsimp only
  rw [if_neg h]
  cases mode <;> rfl

/-- The model rounds in the cell above `lo` as the rule does. -/
theorem roundAt_eq {x lo hi : Mag} (h : Step lo hi) (hf : floorAt lo.2 x = lo.1) :
    roundAt mode neg draw x.1 x.2 lo.2 =
      (if takesUpper mode neg draw x lo hi (lo.1 % 2 == 1) then lo.1 + 1 else lo.1, !decide (magLe x lo)) := by
  unfold roundAt
  split
  case isTrue hq =>
    have hexact : magLe x lo :=
      (magLe_iff_inUnits hq Int.le_rfl).mpr (Nat.le_of_eq (by rw [inUnits_self, ← hf, floorAt_of_le hq]))
    rw [takesUpper_of_magLe mode neg draw hi _ hexact, decide_eq_true hexact, ← hf, floorAt_of_le hq]
    rfl
  case isFalse hq =>
    rw [floorAt, if_neg hq] at hf
    have hdiv := Nat.div_add_mod x.1 (2 ^ (lo.2 - x.2).toNat)
    have hlo : inUnits x.2 lo = 2 ^ (lo.2 - x.2).toNat * (x.1 / 2 ^ (lo.2 - x.2).toNat) := by rw [hf, inUnits, Nat.mul_comm]
    have hexact : magLe x lo ↔ x.1 % 2 ^ (lo.2 - x.2).toNat = 0 := by
      rw [magLe_iff_inUnits (u := x.2) Int.le_rfl (by omega), inUnits_self]
      omega
    by_cases hr : x.1 % 2 ^ (lo.2 - x.2).toNat = 0
    · rw [takesUpper_of_magLe mode neg draw hi _ (hexact.mpr hr), decide_eq_true (hexact.mpr hr), roundShift_of_exact mode neg draw hr, hf]
      rfl
    · have hrest : x.1 - inUnits x.2 lo = x.1 % 2 ^ (lo.2 - x.2).toNat := by omega
      rw [takesUpper_eq_goesUp mode neg draw _ h (by omega) ((magLt_iff_not_magLe ..).mpr ((not_congr hexact).mpr hr)), hrest,
        decide_eq_false ((not_congr hexact).mpr hr), roundShift_of_inexact mode neg draw hr, hf]
      rfl

end
end Sys2Proof.Magnitudes
end

section
/-! PROOFS. A format's grid (R57, R61) and the rounding onto it (R55, R61 to R63). -/

namespace Sys2Proof.Rounding
open Machine Claims Magnitudes

/-! ### The grid -/

section
variable (t : Fmt) (c : Nat)

theorem gridAt_expo : (gridAt t c).2 = t.qmin + (c / 2 ^ t.f - 1 : Nat) := by
  show ((max (c / 2 ^ t.f) 1 : Nat) : Int) - t.bias - t.f = 1 - t.bias - t.f + (c / 2 ^ t.f - 1 : Nat)
  omega

theorem gridAt_mant_of_sub {t : Fmt} {c : Nat} (h : c / 2 ^ t.f = 0) : (gridAt t c).1 = c := if_pos h

theorem gridAt_mant_of_normal {t : Fmt} {c : Nat} (h : c / 2 ^ t.f ≠ 0) : (gridAt t c).1 = 2 ^ t.f + c % 2 ^ t.f := if_neg h

/-- A code is its binade's place and its significand. -/
theorem gridAt_place : (c / 2 ^ t.f - 1) * 2 ^ t.f + (gridAt t c).1 = c := by
  by_cases h : c / 2 ^ t.f = 0
  · rw [gridAt_mant_of_sub h, h, Nat.zero_sub, Nat.zero_mul, Nat.zero_add]
  · obtain ⟨X, hX⟩ := Nat.exists_eq_succ_of_ne_zero h
    have hdiv := Nat.div_add_mod' c (2 ^ t.f)
    rw [gridAt_mant_of_normal h]
    rw [hX, Nat.succ_mul] at hdiv
    rw [hX, Nat.succ_sub_one]
    omega

theorem gridAt_mant_lt : (gridAt t c).1 < 2 ^ (t.f + 1) := by
  have hmod := Nat.mod_lt c (Nat.two_pow_pos t.f)
  rw [Nat.pow_succ]
  by_cases h : c / 2 ^ t.f = 0
  · rw [gridAt_mant_of_sub h]
    have := (Nat.div_eq_zero_iff_lt (Nat.two_pow_pos _)).mp h
    omega
  · rw [gridAt_mant_of_normal h]
    omega

/-- The next grid point is one unit of the cell away, past the end of a binade too. -/
theorem gridAt_step : Step (gridAt t c) (gridAt t (c + 1)) := by
  have hc := gridAt_place t c
  have hn := gridAt_place t (c + 1)
  have hdiv : (c + 1) / 2 ^ t.f = c / 2 ^ t.f + if 2 ^ t.f ∣ c + 1 then 1 else 0 := Nat.succ_div
  by_cases hcarry : 2 ^ t.f ∣ c + 1 ∧ c / 2 ^ t.f ≠ 0
  case neg =>
    have hsame : (c + 1) / 2 ^ t.f - 1 = c / 2 ^ t.f - 1 := by split at hdiv <;> omega
    have hexpo : (gridAt t (c + 1)).2 = (gridAt t c).2 := by rw [gridAt_expo, gridAt_expo, hsame]
    refine ⟨Int.le_of_eq hexpo.symm, ?_⟩
    rw [← hexpo, inUnits_self]
    rw [hsame] at hn
    omega
  case pos =>
    obtain ⟨hd, h0⟩ := hcarry
    obtain ⟨X, hX⟩ := Nat.exists_eq_add_one_of_ne_zero h0
    rw [if_pos hd, hX] at hdiv
    have hexpo : (gridAt t (c + 1)).2 = (gridAt t c).2 + 1 := by rw [gridAt_expo, gridAt_expo]; omega
    have hmant : (gridAt t (c + 1)).1 = 2 ^ t.f := by
      rw [gridAt_mant_of_normal (by omega), Nat.mod_eq_zero_of_dvd hd, Nat.add_zero]
    refine ⟨by omega, ?_⟩
    rw [hdiv, hmant, Nat.add_sub_cancel, Nat.succ_mul] at hn
    rw [hX, Nat.add_sub_cancel] at hc
    rw [inUnits, hexpo, hmant, show ((gridAt t c).2 + 1 - (gridAt t c).2).toNat = 1 by omega, Nat.pow_one]
    omega

theorem gridAt_odd (hf : 1 ≤ t.f) : (gridAt t c).1 % 2 = c % 2 := by
  have hplace := gridAt_place t c
  have heven : (c / 2 ^ t.f - 1) * 2 ^ t.f % 2 = 0 := by
    obtain ⟨k, hk⟩ := Nat.exists_eq_add_of_le' hf
    rw [hk, Nat.pow_succ, ← Nat.mul_assoc, Nat.mul_mod_left]
  omega

end

section
variable {t : Fmt} {m : Nat} {e : Int} {c : Nat}

theorem floorAt_of_between (h : between t (m, e) c) : floorAt (gridAt t c).2 (m, e) = (gridAt t c).1 := by
  obtain ⟨hle, hlt⟩ := h
  have hs := gridAt_step t c
  rw [magLe_iff_le_floorAt Int.le_rfl, inUnits_self] at hle
  rw [magLt_iff_floorAt_lt hs.expo, hs.next] at hlt
  omega

/-- `roundTo` rounds in the unit of the cell. -/
theorem unit_of_between (hm : m ≠ 0) (h : between t (m, e) c) : max (e + m.log2 - t.f) t.qmin = (gridAt t c).2 := by
  have hexpo := gridAt_expo t c
  have hfloor := floorAt_of_between h
  have hsmall := top_lt_iff hm e (gridAt t c).2 t.f
  have hbig := top_lt_iff hm e (gridAt t c).2 (t.f + 1)
  rw [hfloor] at hsmall hbig
  have hlt := hbig.mpr (gridAt_mant_lt t c)
  by_cases h0 : c / 2 ^ t.f = 0
  · have hsub : (gridAt t c).1 < 2 ^ t.f := by
      rw [gridAt_mant_of_sub h0]
      exact (Nat.div_eq_zero_iff_lt (Nat.two_pow_pos _)).mp h0
    have := hsmall.mpr hsub
    omega
  · have hnormal : ¬ (gridAt t c).1 < 2 ^ t.f := by
      rw [gridAt_mant_of_normal h0]
      omega
    have := (not_congr hsmall).mpr hnormal
    omega

theorem zero_of_between (h : between t (0, e) c) : c = 0 := by
  have hfloor := floorAt_of_between h
  have hmant : (gridAt t c).1 = 0 := by
    rw [← hfloor, floorAt]
    simp [inUnits]
  by_cases h0 : c / 2 ^ t.f = 0
  · rw [← gridAt_mant_of_sub h0, hmant]
  · have := Nat.two_pow_pos t.f
    rw [gridAt_mant_of_normal h0] at hmant
    omega

theorem between_gridAt (t : Fmt) (c : Nat) : between t (gridAt t c) c := ⟨Nat.le_refl _, magLt_of_step (gridAt_step t c)⟩

end

/-! ### Tininess (R55) -/

/-- Rounded with an unbounded exponent, a magnitude stays below the least normal one. -/
def tinyRule (t : Fmt) (mode : Rnd) (neg : Bool) (draw : Nat) (x : Mag) : Bool :=
  decide (magLt x (2 ^ t.f, t.qmin)) &&
    !takesUpper mode neg draw x (2 ^ (t.f + 1) - 1, t.qmin - 1) (2 ^ (t.f + 1), t.qmin - 1) true

/-- The same, as `roundTo` judges it. -/
def tinyModel (t : Fmt) (mode : Rnd) (neg : Bool) (draw m : Nat) (e : Int) : Bool :=
  decide (e + m.log2 < 1 - (t.bias : Int)) &&
    !((roundAt mode neg draw m e (e + m.log2 - t.f)).1 == 2 ^ (t.f + 1) && e + m.log2 + 1 == 1 - (t.bias : Int))

theorem roundAt_le (mode : Rnd) (neg : Bool) (draw m : Nat) (e q : Int) : (roundAt mode neg draw m e q).1 ≤ floorAt q (m, e) + 1 := by
  have hs : Step (floorAt q (m, e), q) (floorAt q (m, e) + 1, q) := ⟨Int.le_rfl, inUnits_self (floorAt q (m, e) + 1, q)⟩
  rw [roundAt_eq mode neg draw hs rfl]
  dsimp only
  split <;> omega

/-- The two judge tininess alike: only the last cell below the least normal value can round up to it. -/
theorem tinyModel_eq_tinyRule (t : Fmt) (mode : Rnd) (neg : Bool) (draw : Nat) {m : Nat} (e : Int) (hm : m ≠ 0) :
    tinyModel t mode neg draw m e = tinyRule t mode neg draw (m, e) := by
  have hq : t.qmin = 1 - (t.bias : Int) - t.f := rfl
  have hnormal : magLt (m, e) (2 ^ t.f, t.qmin) ↔ e + m.log2 < 1 - (t.bias : Int) := by
    have htop := top_lt_iff hm e t.qmin t.f
    rw [magLt_iff_floorAt_lt Int.le_rfl, inUnits_self (2 ^ t.f, t.qmin), ← htop]
    constructor <;> intro h <;> omega
  unfold tinyModel tinyRule
  simp only [hnormal]
  by_cases hbelow : e + m.log2 < 1 - (t.bias : Int)
  case neg => rw [decide_eq_false hbelow, Bool.false_and, Bool.false_and]
  have hsmall := top_lt_iff hm e (t.qmin - 1) t.f
  have hbig := (top_lt_iff hm e (t.qmin - 1) (t.f + 1)).mp (by omega)
  have hpow := Nat.two_pow_pos t.f
  have hdouble := Nat.pow_succ 2 t.f
  congr 2
  by_cases hlast : floorAt (t.qmin - 1) (m, e) = 2 ^ (t.f + 1) - 1
  case pos =>
    have htop : e + m.log2 - t.f = t.qmin - 1 := by omega
    have hodd : (2 ^ (t.f + 1) - 1) % 2 = 1 := by omega
    have hs : Step (2 ^ (t.f + 1) - 1, t.qmin - 1) (2 ^ (t.f + 1), t.qmin - 1) :=
      ⟨Int.le_rfl, by rw [inUnits_self (2 ^ (t.f + 1), t.qmin - 1)]; dsimp only; omega⟩
    rw [htop, roundAt_eq mode neg draw hs hlast]
    dsimp only
    rw [hodd]
    have hcarry : 2 ^ (t.f + 1) - 1 + 1 = 2 ^ (t.f + 1) := by omega
    have hless : 2 ^ (t.f + 1) - 1 ≠ 2 ^ (t.f + 1) := by omega
    have hedge : e + m.log2 + 1 = 1 - (t.bias : Int) := by omega
    cases hup : takesUpper mode neg draw (m, e) (2 ^ (t.f + 1) - 1, t.qmin - 1) (2 ^ (t.f + 1), t.qmin - 1) true with
    | true => simp [hup, hcarry, hedge]
    | false => simp [hup, hless]
  case neg =>
    have hle : magLe (m, e) (2 ^ (t.f + 1) - 1, t.qmin - 1) := magLe_of_floorAt_lt (by omega)
    rw [takesUpper_of_magLe mode neg draw _ _ hle, Bool.and_eq_false_iff, beq_eq_false_iff_ne, beq_eq_false_iff_ne]
    by_cases htop : e + m.log2 - t.f = t.qmin - 1
    · have hfree := roundAt_le mode neg draw m e (t.qmin - 1)
      rw [htop]
      exact .inl (by omega)
    · exact .inr (by omega)

/-! ### Encoding -/

/-- The code and flags that a rounded magnitude gives (R61, R63, R68). -/
def encodeRounded (t : Fmt) (mode : Rnd) (sat ftz neg : Bool) (mag : Nat) (inexact tiny : Bool) : FRes :=
  if t.maxMag < mag then
    if sat || (t.infMag.isNone && !t.hasNan) then ⟨t.code neg t.maxMag, flSAT ||| flNX⟩
    else if towardInf mode neg then
      t.infMag.elim ⟨t.nan, flNV ||| flOF ||| flNX⟩ fun i => ⟨t.code neg i, flOF ||| flNX⟩
    else ⟨t.code neg t.maxMag, flOF ||| flNX⟩
  else if ftz && t.isSub mag then ⟨t.code neg 0, flUF ||| flNX⟩
  else ⟨t.code neg mag, flagIf inexact flNX ||| flagIf tiny flUF⟩

/-- Under `.rs` tininess is judged on the delivered code (log entry 25). -/
def tinyFor (t : Fmt) (mode : Rnd) (mag : Nat) (free : Bool) : Bool := if mode = .rs then decide (mag < 2 ^ t.f) else free

section
variable (t : Fmt) (mode : Rnd) (sat ftz neg : Bool) (draw : Nat)

theorem roundTo_zero (e : Int) : roundTo t mode sat ftz draw neg 0 e = ⟨t.code neg 0, 0⟩ := if_pos rfl

theorem roundTo_eq_encodeRounded {m : Nat} {e q : Int} {r : Nat} {inexact : Bool} (hm : m ≠ 0)
    (hq : max (e + m.log2 - t.f) t.qmin = q) (hr : roundAt mode neg draw m e q = (r, inexact)) :
    roundTo t mode sat ftz draw neg m e =
      encodeRounded t mode sat ftz neg ((q - t.qmin).toNat * 2 ^ t.f + r) inexact
        (inexact && tinyFor t mode ((q - t.qmin).toNat * 2 ^ t.f + r) (tinyModel t mode neg draw m e)) := by
  unfold roundTo encodeRounded
  rw [if_neg hm]
  dsimp only
  rw [hq, hr]
  dsimp only
  congr 1
  · cases t.infMag <;> rfl
  · congr 1
    · cases inexact <;> rfl
    · cases mode <;> rfl

theorem isSub_eq (n : Nat) : t.isSub n = (decide (0 < n) && decide (n < 2 ^ t.f)) := by
  cases n <;> simp [Fmt.isSub]

/-- Sums of distinct flags are their unions. -/
theorem flags_eq (exact tiny : Bool) :
    (if exact then 0 else 16) + (if !exact && tiny then 8 else 0) = flagIf (!exact) flNX ||| flagIf (!exact && tiny) flUF := by
  cases exact <;> cases tiny <;> rfl

theorem roundedRule_eq_encodeRounded (x : Mag) (c n : Nat)
    (hn : n = if takesUpper mode neg draw x (gridAt t c) (gridAt t (c + 1)) (c % 2 == 1) then c + 1 else c) :
    roundedRule t mode sat ftz draw neg x c =
      encodeRounded t mode sat ftz neg n (!decide (magLe x (gridAt t c)))
        (!decide (magLe x (gridAt t c)) && tinyFor t mode n (tinyRule t mode neg draw x)) := by
  unfold roundedRule encodeRounded
  dsimp only
  rw [← hn]
  congr 1
  · cases mode <;> cases t.infMag <;> rfl
  · congr 1
    · rw [isSub_eq, Bool.and_assoc]
    · rw [← flags_eq]
      cases decide (magLe x (gridAt t c)) <;> cases mode <;> rfl

end

/-! ### The rule -/

section
variable {t : Fmt} (mode : Rnd) (sat ftz neg : Bool) (draw : Nat)

/-- A grid point that is no overflow and not flushed is delivered as it is (R61). -/
theorem roundedRule_of_exact {x : Mag} {c : Nat} (hx : magLe x (gridAt t c)) (hc : c ≤ t.maxMag) (hs : (ftz && t.isSub c) = false) :
    roundedRule t mode sat ftz draw neg x c = ⟨t.code neg c, 0⟩ := by
  have hup := takesUpper_of_magLe mode neg draw (gridAt t (c + 1)) (c % 2 == 1) hx
  rw [roundedRule_eq_encodeRounded (n := c) (hn := by rw [hup]; rfl), decide_eq_true hx, encodeRounded, if_neg (by omega), hs,
    Bool.not_true, Bool.false_and]
  rfl

/-- R61 to R63: `roundTo` finds the cell of its value and rounds in it. -/
theorem roundTo_of_between {m : Nat} {e : Int} {c : Nat} (hf : 1 ≤ t.f) (h : between t (m, e) c) :
    roundTo t mode sat ftz draw neg m e = roundedRule t mode sat ftz draw neg (m, e) c := by
  by_cases hm : m = 0
  case pos =>
    subst hm
    obtain rfl := zero_of_between h
    have hx : magLe (0, e) (gridAt t 0) := by
      show inUnits _ (0, e) ≤ _
      simp [inUnits]
    rw [roundTo_zero, roundedRule_of_exact mode sat ftz neg draw hx (Nat.zero_le _) (by simp [Fmt.isSub])]
  case neg =>
    have hcode : ((gridAt t c).2 - t.qmin).toNat * 2 ^ t.f + (gridAt t c).1 = c := by
      rw [gridAt_expo, show (t.qmin + (c / 2 ^ t.f - 1 : Nat) - t.qmin).toNat = c / 2 ^ t.f - 1 by omega, gridAt_place]
    have hround := roundAt_eq mode neg draw (gridAt_step t c) (floorAt_of_between h)
    rw [gridAt_odd t c hf] at hround
    rw [roundTo_eq_encodeRounded t mode sat ftz neg draw hm (unit_of_between hm h) hround, tinyModel_eq_tinyRule t mode neg draw e hm]
    symm
    apply roundedRule_eq_encodeRounded
    split <;> omega

end

/-! ### Values that a format holds -/

theorem formats_frac {t : Fmt} (h : t ∈ formats) : 1 ≤ t.f ∧ 1 ≤ t.width := by
  revert t
  decide

/-- Behind the greatest finite code stands infinity, the NaN or no code at all (R54, R57). -/
theorem formats_maxMag {t : Fmt} (h : t ∈ formats) :
    t.infMag.getD (if t.hasNan then t.nan else 2 ^ (t.width - 1)) = t.maxMag + 1 ∧
      (t.infMag = none → t.hasNan = true → t.nan + 1 = 2 ^ (t.width - 1)) := by
  revert t
  decide

theorem code_sign_mag {t : Fmt} {c : Nat} (hw : 1 ≤ t.width) (hc : c < 2 ^ t.width) : t.code (t.sign c) (t.mag c) = c := by
  obtain ⟨w, hw⟩ := Nat.exists_eq_add_of_le' hw
  have hdiv := Nat.div_add_mod c (2 ^ (t.width - 1))
  have htop : c / 2 ^ (t.width - 1) < 2 := by
    rw [Nat.div_lt_iff_lt_mul (Nat.two_pow_pos _)]
    rw [hw, Nat.pow_succ] at hc
    rw [hw, Nat.add_sub_cancel]
    omega
  unfold Fmt.code Fmt.sign Fmt.mag
  rcases Nat.le_one_iff_eq_zero_or_eq_one.mp (Nat.le_of_lt_succ htop) with h | h
  all_goals
    rw [h] at hdiv ⊢
    simpa using hdiv

theorem gridAt_eq (t : Fmt) (c : Nat) : gridAt t c =
    (if c / 2 ^ t.f = 0 then c % 2 ^ t.f else 2 ^ t.f + c % 2 ^ t.f, (max (c / 2 ^ t.f) 1 : Nat) - (t.bias : Int) - t.f) := by
  unfold gridAt
  split
  case isTrue h => rw [Nat.mod_eq_of_lt ((Nat.div_eq_zero_iff_lt (Nat.two_pow_pos _)).mp h)]
  case isFalse => rfl

/-- A code that stands for a finite value stands for its grid point. -/
theorem decode_fin {t : Fmt} {c : Nat} {neg : Bool} {m : Nat} {e : Int} (ht : t ∈ formats) (h : t.decode c = .fin neg m e) :
    t.sign c = neg ∧ gridAt t (t.mag c) = (m, e) ∧ t.mag c ≤ t.maxMag := by
  obtain ⟨hnext, hnan⟩ := formats_maxMag ht
  have hmag : t.mag c < 2 ^ (t.width - 1) := Nat.mod_lt _ (Nat.two_pow_pos _)
  unfold Fmt.decode at h
  dsimp only at h
  rw [gridAt_eq]
  cases hinf : t.infMag with
  | some i =>
    rw [hinf, Option.getD_some] at hnext
    rw [hinf] at h
    dsimp only at h
    split at h
    case isTrue => cases h
    split at h
    case isTrue => cases h
    injection h with hsign hm he
    exact ⟨hsign, by rw [hm, he], by omega⟩
  | none =>
    rw [hinf, Option.getD_none] at hnext
    rw [hinf] at h
    dsimp only at h
    split at h
    case isTrue => cases h
    case isFalse hno =>
      injection h with hsign hm he
      refine ⟨hsign, by rw [hm, he], ?_⟩
      cases hh : t.hasNan with
      | true =>
        have hlast := hnan hinf hh
        rw [hh, if_pos rfl] at hnext
        rw [hh, Bool.true_and, beq_iff_eq] at hno
        omega
      | false =>
        rw [hh, if_neg Bool.false_ne_true] at hnext
        omega

theorem roundTo_of_decode {t : Fmt} {c : Nat} {neg : Bool} {m : Nat} {e : Int} (mode : Rnd) (sat : Bool) (draw : Nat) (ht : t ∈ formats)
    (hc : c < 2 ^ t.width) (h : t.decode c = .fin neg m e) : roundTo t mode sat false draw neg m e = ⟨c, 0⟩ := by
  obtain ⟨hsign, hgrid, hmax⟩ := decode_fin ht h
  obtain ⟨hf, hw⟩ := formats_frac ht
  have hcell : between t (m, e) (t.mag c) := hgrid ▸ between_gridAt t (t.mag c)
  rw [roundTo_of_between mode sat false neg draw hf hcell, ← hgrid,
    roundedRule_of_exact mode sat false neg draw (Nat.le_refl _) hmax rfl, ← hsign, code_sign_mag hw hc]

/-! ### Sums and products of finite values (R85, R109) -/

section
variable (t : Fmt) (mode : Rnd) (ftz : Bool)

/-- R55: the exact sum, its zero included, is rounded once. -/
theorem roundTo_addFin (hf : 1 ≤ t.f) (na nb : Bool) (a b : Mag) (r : Bool × Nat × Int)
    (hr : addFin mode na a.1 a.2 nb b.1 b.2 = r) : sumRule t mode ftz na a nb b (roundTo t mode false ftz 0 r.1 r.2.1 r.2.2) := by
  subst hr
  unfold sumRule
  dsimp only
  split
  case isTrue h =>
    rw [show addFin mode na a.1 a.2 nb b.1 b.2 = (if na == nb then na else mode == .rd, 0, 0) from if_pos h, roundTo_zero]
    simp only [Fmt.code, beq_iff_eq]
    rfl
  case isFalse h =>
    intro c hc
    rw [show addFin mode na a.1 a.2 nb b.1 b.2 = (_, _, _) from if_neg h]
    exact roundTo_of_between mode false ftz _ 0 hf hc

variable {t ftz} {a b c : Nat} {na nb nc : Bool} {ma mb mc : Nat} {ea eb ec : Int}

theorem fAdd_of_fin (ha : t.input ftz a = .fin na ma ea) (hb : t.input ftz b = .fin nb mb eb) {r : Bool × Nat × Int}
    (hr : addFin mode na ma ea nb mb eb = r) : fAdd t mode ftz a b = roundTo t mode false ftz 0 r.1 r.2.1 r.2.2 := by
  subst hr
  unfold fAdd
  rw [ha, hb]
  rfl

theorem fMul_of_fin (ha : t.input ftz a = .fin na ma ea) (hb : t.input ftz b = .fin nb mb eb) :
    fMul t mode ftz a b = roundTo t mode false ftz 0 (na != nb) (ma * mb) (ea + eb) := by
  unfold fMul
  rw [ha, hb]
  rfl

theorem fFma_of_fin (ha : t.input ftz a = .fin na ma ea) (hb : t.input ftz b = .fin nb mb eb) (hc : t.input ftz c = .fin nc mc ec)
    {r : Bool × Nat × Int} (hr : addFin mode (na != nb) (ma * mb) (ea + eb) nc mc ec = r) :
    fFma t mode ftz a b c = roundTo t mode false ftz 0 r.1 r.2.1 r.2.2 := by
  subst hr
  have hzero : ((FVal.fin na ma ea).isZero && (FVal.fin nb mb eb).isInf) = false := Bool.and_false _
  unfold fFma
  rw [ha, hb, hc]
  dsimp only
  rw [hzero]
  rfl

end

/-- Settles O4: a value in the cell of grid point c is rounded in the cell's unit, and as the rule says (`roundTo_of_between`); the operations
give `roundTo` their exact result. -/
theorem roundingToFormats : Obligations.RoundingToFormats := by
  refine ⟨fun t mode sat draw c neg m e ht hc h => roundTo_of_decode mode sat draw ht hc h,
    fun t mode sat ftz draw neg m e c ht h => roundTo_of_between mode sat ftz neg draw (formats_frac ht).1 h, ?_⟩
  intro t mode ftz a b c na nb nc ma mb mc ea eb ec ht _ ha hb hc
  have hf : 1 ≤ t.f := (formats_frac (List.subset_append_left [fp64, fp32, fp16, bf16] [fe4m3, fe5m2, fe2m1] ht)).1
  refine ⟨?_, fun k hk => ?_, ?_⟩
  · rw [fAdd_of_fin mode ha hb rfl]
    exact roundTo_addFin t mode ftz hf na nb (ma, ea) (mb, eb) _ rfl
  · rw [fMul_of_fin mode ha hb]
    exact roundTo_of_between mode false ftz _ 0 hf hk
  · rw [fFma_of_fin mode ha hb hc rfl]
    exact roundTo_addFin t mode ftz hf (na != nb) nc (ma * mb, ea + eb) (mc, ec) _ rfl

end Sys2Proof.Rounding
end

section
/-! PROOFS. Scalar results outside windows: sums and products (O1), floating point (O3), masks (O5) and special registers (O15). -/

namespace Sys2Proof.ScalarResults
open Machine Claims

/-! ### A register result passes its instruction (R45, R75, R135) -/

/-- An instruction whose destination no window holds open writes it, ORs its flags and passes. -/
theorem finSF_closed {s : State} {d : SReg} (h : s.openS d = false) (la : BitVec 4) (x : Word64) (fl : Word32) :
    finSF s la d (x, fl) = .next (passed s (scalarResult s.g la d x (fl &&& 0x7F))) := by
  rw [finSF, State.setSla_closed s la d x none h]
  unfold scalarResult
  split <;> rfl

theorem finS_closed {s : State} {d : SReg} (h : s.openS d = false) (la : BitVec 4) (x : Word64) :
    finS s la d x = .next (passed s (scalarResult s.g la d x 0)) := by
  rw [← RepBinary.finSF_noFlags, finSF_closed h, show (0 : Word32) &&& 0x7F = 0 from rfl]

/-! ### Sums, differences and products (R78, R81) -/

/-- The sat prefix decides between wrapping and clamping to the 64-bit range. -/
theorem arith64_eq (s : State) (x : Int) :
    arith64 s x = if s.g.md.sat = false then (BitVec.ofInt 64 x, 0)
      else if x < -(2 ^ 63) then (BitVec.ofInt 64 (-(2 ^ 63)), 32)
      else if 2 ^ 63 ≤ x then (BitVec.ofInt 64 (2 ^ 63 - 1), 32)
      else (BitVec.ofInt 64 x, 0) := by
  unfold arith64 intResult
  cases s.g.md.sat with
  | false => rfl
  | true =>
    show (if x < -(2 ^ 63) then _ else if 2 ^ 63 - 1 < x then _ else _) = if x < -(2 ^ 63) then _ else if 2 ^ 63 ≤ x then _ else _
    simp only [Int.sub_lt_iff, Int.lt_add_one_iff]
    rfl

theorem toInt_imm64 {w : Nat} (h : w ≤ 64) (x : BitVec w) : (imm64 x).toInt = x.toInt := BitVec.toInt_signExtend_of_le h

/-- Each of these instructions narrows its exact value. -/
theorem exec_of_exactRule {s : State} {i : Instr} {d : SReg} {la : BitVec 4} {x : Int} (h : exactRule s i = some (d, la, x)) :
    exec i s = finSF s la d (arith64 s x) := by
  cases i <;> cases h
  case add | sub | mul => rfl
  case addImm a imm =>
    show finSF s 0 d (arith64 s (_ + (imm64 imm).toInt)) = _
    rw [toInt_imm64 (by decide)]
  case addLong a imm =>
    show finSF s la d (arith64 s (_ + (imm64 imm).toInt)) = _
    rw [toInt_imm64 (by decide)]
  case mulImm a imm =>
    show finSF s 0 d (arith64 s (_ * (imm64 imm).toInt)) = _
    rw [toInt_imm64 (by decide)]

/-- Settles O1: the exact value is narrowed as `arith64_eq` says, and the result passes (`finSF_closed`). -/
theorem scalarSumsAndProducts : Obligations.ScalarSumsAndProducts := by
  intro s i d la x h ho
  have hzero : (0 : Word32) &&& 0x7F = 0 := rfl
  have hsat : (32 : Word32) &&& 0x7F = 32 := rfl
  rw [exec_of_exactRule h, arith64_eq]
  simp only [apply_ite (finSF s la d), apply_ite (passed s), apply_ite Host.Outcome.next, finSF_closed ho, hzero, hsat]

/-! ### Floating point (R76, R84 to R87) -/

theorem fsrc_fp64 (s : State) (r : SReg) : s.fsrc fp64 r = (s.sreg r).toNat := Nat.mod_eq_of_lt (s.sreg r).isLt

/-- A comparison's value is 0 or 1. -/
theorem fcmpOut_eq (s : State) (t : Fmt) (cc : FCond) (d a b : SReg) :
    fcmpOut s t cc d a b = finSF s 0 d (BitVec.ofNat 64 (if (fCmp t s.g.md.ftz cc (s.fsrc t a) (s.fsrc t b)).1 then 1 else 0),
      (fCmp t s.g.md.ftz cc (s.fsrc t a) (s.fsrc t b)).2) := by
  unfold fcmpOut
  generalize fCmp t s.g.md.ftz cc (s.fsrc t a) (s.fsrc t b) = r
  obtain ⟨holds, fl⟩ := r
  cases holds <;> rfl

theorem exec_of_floatRule {s : State} {i : Instr} {d : SReg} {la : BitVec 4} {x : Nat} {fl : Word32} (h : floatRule s i = some (d, la, x, fl)) :
    exec i s = finSF s la d (BitVec.ofNat 64 x, fl) := by
  cases i <;> cases h
  case faddF32 | fmulF32 | fmaF32 | fcvtF64F32 | fcvtF64S64 | fcvtF64N64 | fcvtS64F32 | fcvtN64F32 | fcvtF32S64 | fcvtF32N64 => rfl
  case fcmpCcF32 => exact fcmpOut_eq ..
  case fcmpCcF64 cc a b =>
    show fcmpOut s fp64 cc d a b = _
    rw [fcmpOut_eq, fsrc_fp64, fsrc_fp64]
    rfl
  case faddF64 a b =>
    show finSF s 0 d (fAdd fp64 _ _ (s.fsrc fp64 a) (s.fsrc fp64 b)).out = _
    rw [fsrc_fp64, fsrc_fp64]
    rfl
  case fmulF64 a b =>
    show finSF s 0 d (fMul fp64 _ _ (s.fsrc fp64 a) (s.fsrc fp64 b)).out = _
    rw [fsrc_fp64, fsrc_fp64]
    rfl
  case fmaF64 a b c =>
    show finSF s la d (fFma fp64 _ _ (s.fsrc fp64 a) (s.fsrc fp64 b) (s.fsrc fp64 c)).out = _
    rw [fsrc_fp64, fsrc_fp64, fsrc_fp64]
    rfl
  case fcvtF32F64 a => exact congrArg (fun n => finSF s 0 d (fcvtTo s fp32 (fp64.input _ n)).out) (fsrc_fp64 s a)
  case fcvtS64F64 a => exact congrArg (fun n => finSF s 0 d (toIntVal true 64 _ _ 0 (fp64.input _ n)).out) (fsrc_fp64 s a)
  case fcvtN64F64 a => exact congrArg (fun n => finSF s 0 d (toIntVal false 64 _ _ 0 (fp64.input _ n)).out) (fsrc_fp64 s a)

/-- Settles O3: result code and flags by `exec_of_floatRule`, and the result passes (`finSF_closed`). -/
theorem scalarFloatResults : Obligations.ScalarFloatResults := by
  intro s i d la x fl h ho
  rw [exec_of_floatRule h, finSF_closed ho]

/-! ### Masks (R88, R89) -/

theorem exec_of_maskRule {s : State} {i : Instr} {d : KReg} {x : Word32} (h : maskRule s i = some (d, x)) : exec i s = finK s d x := by
  cases i <;> cases h
  case kand | kor | kxor | kandn | knot | kmov => rfl
  case kset a => exact congrArg (finK s d) (BitVec.setWidth_eq_extractLsb' (by decide))

/-- Outside every lane window a predicate reads as it stands. -/
theorem pmask_closeLane (s : State) {p : PReg} (hp : p.toNat < 12) : s.closeLane.pmask p = s.g.p.toList.getD p.toNat 0 := by
  have h : s.closeLane.pmask p = s.g.p[p.toNat] := dif_pos hp
  have hlen : p.toNat < s.g.p.toList.length := Nat.lt_of_lt_of_eq hp Vector.length_toList.symm
  rw [h, List.getD_eq_getElem?_getD, List.getElem?_eq_getElem hlen, Option.getD_some]
  exact (Vector.getElem_toList hlen).symm

theorem execKball_idle {s : State} (d : KReg) (p : PReg) (b : KReg) (hq : s.g.lq = []) (hr : s.hasReqs = false) :
    execKball d p b s = finK s d (s.closeLane.pmask p &&& s.kreg b) := if_pos (by rw [hq, hr]; rfl)

/-- Settles O5: each mask instruction's value by `exec_of_maskRule`, and the ballot of an idle lane stream by `execKball_idle`. -/
theorem maskInstructions : Obligations.MaskInstructions := by
  refine ⟨fun s i d x h => exec_of_maskRule h, fun s d b p hq hr hp => ?_⟩
  show execKball d p b s = _
  rw [execKball_idle d p b hq hr, pmask_closeLane s hp]
  rfl

/-! ### Special registers (R97, R154, R155) -/

/-- `sysr` of a register other than `%cycle` writes its value, behind everything earlier where that is `%fpflags`. -/
theorem execSysr_value {s : State} (d : SReg) {n : BitVec 12} (hc : n ≠ 0x040) (hw : n = 0 → s.allDone = true) :
    execSysr d n s = finS s 0 d (s.special n) := by
  unfold execSysr specialWaits
  rw [if_neg hc, if_neg]
  simpa using hw

theorem bandWord_eq (g : Group) : g.bandWord = 256 * g.band + 16 * (g.size - 1) + g.idx := by
  show 0 + g.band * 2 ^ 8 + (g.size - 1) * 2 ^ 4 + g.idx * 2 ^ 0 = _
  omega

theorem cdepth_eq (b : Band) : b.cdepth = if b.handler.counts then 65536 * b.counting.nspill + b.counting.depth else 0 := by
  unfold Band.cdepth
  split
  · show 0 + b.counting.nspill * 2 ^ 16 + b.counting.depth * 2 ^ 0 = _
    omega
  · rfl

/-- The model's special registers are those of R154. -/
theorem special_of_specialRule {s : State} {n : BitVec 12} {x : Word64} (h : specialRule s n.toNat = some x) : s.special n = x := by
  unfold State.special
  rw [bandWord_eq, cdepth_eq]
  generalize n.toNat = k at h ⊢
  unfold specialRule at h
  split at h
  case h_17 => cases h
  all_goals exact Option.some.inj h

/-- `%cycle` is the core's count, or one within 65,536 cycles of S. -/
theorem clockNow_may (s : State) : cycleMay s s.clockNow := by
  unfold cycleMay State.clockNow State.clockOf
  omega

/-- Settles O15: values by `special_of_specialRule`, the count by `clockNow_may`, `sysw` by its two branches. -/
theorem specialRegisters : Obligations.SpecialRegisters := by
  refine ⟨fun s d n x h hw ho => ?_, fun s d ho => ⟨s.clockNow, clockNow_may s, ?_⟩, fun s a hd => if_pos hd, fun s a => rfl⟩
  · have hc : n ≠ 0x040 := by
      rintro rfl
      cases h
    show execSysr d n s = _
    rw [execSysr_value d hc hw, finS_closed ho, special_of_specialRule h]
  · exact finS_closed (s := s.modC fun c => { c with clock := s.clockNow }) ho 0 _

end Sys2Proof.ScalarResults
end

section
/-! PROOFS. The trap instructions (O10, O11): `trap`, `brk` and words that are no instruction (R49, R98, R99, R345). -/

namespace Sys2Proof.TrapInstructions
open Machine Claims Records Traps

/-! ### `trap` (R98) -/

/-- The word of `trap` has its code in the low bits. -/
theorem encI_trap (code : BitVec 12) : encI 0x19 0 0 code = BitVec.ofNat 32 (0x19000000 + code.toNat) := by
  have hop : encI 0x19 0 0 code = (0x19000 : BitVec 20) ++ code := rfl
  have hc := code.isLt
  apply BitVec.eq_of_toNat_eq
  rw [hop, BitVec.toNat_append, ← Nat.shiftLeft_add_eq_or_of_lt hc, BitVec.toNat_ofNat, Nat.mod_eq_of_lt (by omega)]
  rfl

theorem decodeScalar_trap (code : BitVec 12) : decodeScalar [BitVec.ofNat 32 (0x19000000 + code.toNat)] = .ok (.trap code) 1 := by
  obtain ⟨ws, he, hd⟩ := Encoding.scalarEncodingRoundTrip (.trap code) [] rfl rfl
  cases he
  rw [← encI_trap]
  exact hd

/-- A resume of a group held by `trap` goes on behind it. -/
theorem resume_held_trap {g g0 : Group} (hg : g = { g0 with hold := .trap true, spc := g0.insAddr, wait := 7 }) (hp : g0.park = none)
    (hl : g0.lpark = none) :
    g.resume = { g0 with hold := .none, wait := 1, passed := false, spc := g0.insAddr + BitVec.ofNat 64 (4 * g0.insLen) } := by
  subst hg
  exact Group.resume_trap _ true rfl hp hl

/-- Settles O10: the trap is one of `takeTrap`, with the code in its record; `resume_held_trap` goes on behind it. -/
theorem userTrap : Obligations.UserTrap := by
  intro s code m hd hm hl hj hcore hslot hband hp hlp
  have hinfo : code.toNat < 2 ^ 32 := Nat.lt_trans code.isLt (by decide)
  obtain ⟨r, hlen, hcode, hbits, -, -, -, -, hiaddr, -, -, -, -, hrinfo, hqueue, hg, hkeeps⟩ :=
    trapRecordsAndHolds.1 s 0x06 { info := code.toNat, next := true } m hd hm hl (by decide) hj hcore hslot hband hinfo (Nat.zero_lt_succ 7)
  exact ⟨s.takeTrap 0x06 { info := code.toNat, next := true }, r, rfl, hlen, hcode, hbits, hiaddr, hrinfo, hqueue, hg, hkeeps,
    resume_held_trap hg hp hlp, decodeScalar_trap code⟩

/-! ### `brk` (R99) -/

theorem execBrk_unheld {s : State} (code : BitVec 12) (h : s.sessionOf s.g.room = none) : execBrk code s = .next s.advance :=
  if_pos (by rw [h]; rfl)

/-- Settles O11: the return by `Group.resume_trap`; `trap` and an illegal word are `takeTrap`; `brk` passes where no session holds the room. -/
theorem trapInstructions : Obligations.TrapInstructions :=
  ⟨Group.resume_trap, fun _ _ => rfl, fun _ code h => execBrk_unheld code h, fun _ _ => rfl⟩

end Sys2Proof.TrapInstructions
end

section
/-! PROOFS. Numbers as rows of bits: the rules' `ofBits` and `countBelow` against sums and searches over `upTo`. -/

namespace Sys2Proof.BitRows
open Machine Claims

theorem upTo_eq_range : ∀ n : Nat, upTo n = List.range n
  | 0 => rfl
  | n + 1 => by rw [upTo, upTo_eq_range n, List.range_succ]

/-! ### Numbers from bits -/

/-- The number whose bits below n a test gives. -/
def bitSum (f : Nat → Bool) : Nat → Nat
  | 0 => 0
  | n + 1 => 2 ^ n * (f n).toNat + bitSum f n

theorem bitSum_lt (f : Nat → Bool) : ∀ n, bitSum f n < 2 ^ n
  | 0 => Nat.one_pos
  | n + 1 => by
    have h := bitSum_lt f n
    have hb := (f n).toNat_lt
    calc bitSum f (n + 1) < 2 ^ n * (f n).toNat + 2 ^ n := by rw [bitSum]; omega
      _ = 2 ^ n * ((f n).toNat + 1) := by rw [Nat.mul_add, Nat.mul_one]
      _ ≤ 2 ^ n * 2 := Nat.mul_le_mul_left _ hb
      _ = 2 ^ (n + 1) := (Nat.pow_succ ..).symm

theorem testBit_bitSum (f : Nat → Bool) : ∀ {n k : Nat}, k < n → (bitSum f n).testBit k = f k
  | n + 1, k, hk => by
    rw [bitSum, Nat.testBit_two_pow_mul_add _ (bitSum_lt f n)]
    split
    · next h => exact testBit_bitSum f h
    · next h =>
      rw [show k = n by omega, Nat.sub_self]
      cases f n <;> rfl

theorem foldr_range_bits (f : Nat → Bool) (n a : Nat) : (List.range n).foldr (fun k m => (f k).toNat * 2 ^ k + m) a = bitSum f n + a := by
  induction n generalizing a with
  | zero => exact (Nat.zero_add a).symm
  | succ n ih => rw [List.range_succ, List.foldr_append, ih, List.foldr_cons, List.foldr_nil, bitSum, Nat.mul_comm]; omega

theorem getLsbD_ofBits (f : Nat → Bool) {k : Nat} (hk : k < 64) : (ofBits f).getLsbD k = f k := by
  rw [ofBits, foldr_range_bits, BitVec.getLsbD_ofNat, Nat.add_zero, testBit_bitSum f hk, decide_eq_true hk, Bool.true_and]

/-- A word is the number of its bits. -/
theorem eq_ofBits {x : Word64} {f : Nat → Bool} (h : ∀ k, k < 64 → x.getLsbD k = f k) : x = ofBits f :=
  BitVec.eq_of_getLsbD_eq fun k hk => (h k hk).trans (getLsbD_ofBits f hk).symm

/-- The lowest bit apart from the others. -/
theorem bitSum_low (f : Nat → Bool) : ∀ n, bitSum f (n + 1) = 2 * bitSum (fun k => f (k + 1)) n + (f 0).toNat
  | 0 => by simp [bitSum]
  | n + 1 => by
    rw [bitSum, bitSum_low f n, bitSum, Nat.mul_add, Nat.pow_succ', Nat.mul_assoc, Nat.add_assoc]

/-- Bits placed from the top of an n-bit number down make the number of the reversed row. -/
theorem foldl_range_reversed (f : Nat → Bool) (n : Nat) : ∀ m, m ≤ n →
    (List.range m).foldl (fun x i => if f i then x + 2 ^ (n - 1 - i) else x) 0 = 2 ^ (n - m) * bitSum (fun k => f (m - 1 - k)) m
  | 0, _ => (Nat.mul_zero _).symm
  | m + 1, hm => by
    have hexp : n - m = (n - (m + 1)) + 1 := by omega
    have hrow : (fun k => f (m + 1 - 1 - (k + 1))) = fun k => f (m - 1 - k) := funext fun k => by rw [show m + 1 - 1 - (k + 1) = m - 1 - k by omega]
    rw [List.range_succ, List.foldl_append, foldl_range_reversed f n m (by omega), bitSum_low, hrow, hexp, Nat.pow_succ, Nat.mul_assoc, Nat.mul_add]
    show (if f m then _ + 2 ^ (n - 1 - m) else _) = _ + 2 ^ (n - (m + 1)) * (f m).toNat
    rw [show n - 1 - m = n - (m + 1) by omega]
    cases f m <;> simp

/-! ### Counts -/

theorem countBelow_succ (n : Nat) (p : Nat → Bool) : countBelow (n + 1) p = countBelow n p + (p n).toNat := by
  rw [countBelow, List.range_succ, List.countP_append, countBelow]
  cases h : p n <;> simp [h]

theorem foldl_upTo_count (p : Nat → Bool) : ∀ n, (upTo n).foldl (fun m i => m + b2n (p i)) 0 = countBelow n p
  | 0 => rfl
  | n + 1 => by
    rw [upTo, List.foldl_append, foldl_upTo_count p n, countBelow_succ]
    cases h : p n <;> simp [h, b2n]

theorem length_filter_upTo (p : Nat → Bool) (n : Nat) : ((upTo n).filter p).length = countBelow n p := by
  rw [upTo_eq_range, countBelow, List.countP_eq_length_filter]

theorem countBelow_from (m : Nat) : ∀ n, countBelow n (fun k => decide (m ≤ k)) = n - m
  | 0 => (Nat.zero_sub m).symm
  | n + 1 => by
    rw [countBelow_succ, countBelow_from m n]
    by_cases h : m ≤ n
    · rw [decide_eq_true h, Bool.toNat_true]; omega
    · rw [decide_eq_false h, Bool.toNat_false]; omega

theorem countBelow_eq_zero_iff {p : Nat → Bool} {n : Nat} : countBelow n p = 0 ↔ ∀ k < n, p k = false := by
  simp [countBelow]

/-- The first number that passes, by the numbers up to which none does. -/
theorem find?_upTo (p : Nat → Bool) : ∀ n, ((upTo n).find? p).getD n = countBelow n fun k => countBelow (k + 1) p == 0
  | 0 => rfl
  | n + 1 => by
    have ih := find?_upTo p n
    rw [upTo, List.find?_append, countBelow_succ, ← ih]
    cases hf : (upTo n).find? p with
    | some i =>
      have hlt : i < n := by
        have hmem := List.mem_of_find?_eq_some hf
        rwa [upTo_eq_range, List.mem_range] at hmem
      have hne : (countBelow (n + 1) p == 0) = false := by
        rw [beq_eq_false_iff_ne]
        intro h0
        have hi := countBelow_eq_zero_iff.mp h0 i (Nat.lt_succ_of_lt hlt)
        rw [List.find?_some hf] at hi
        cases hi
      rw [hne]
      rfl
    | none =>
      have h0 : countBelow n p = 0 := by
        rw [countBelow_eq_zero_iff]
        intro k hk
        simpa using List.find?_eq_none.mp hf k (by rw [upTo_eq_range]; exact List.mem_range.mpr hk)
      rw [countBelow_succ, h0]
      cases h : p n <;> simp [h]

end Sys2Proof.BitRows
end

section
/-! PROOFS. The values of the scalar integer instructions (O2): each of the model's functions against its rule (R78 to R83, R88). -/

namespace Sys2Proof.IntegerValues
open Machine Claims BitRows ScalarResults

/-! ### Products and quotients (R78, R79) -/

theorem extractLsb'_ofInt (p : Int) : (BitVec.ofInt 128 p).extractLsb' 64 64 = BitVec.ofInt 64 (p / 2 ^ 64) := by
  apply BitVec.eq_of_toNat_eq
  rw [BitVec.extractLsb'_toNat, BitVec.toNat_ofInt, BitVec.toNat_ofInt, Nat.shiftRight_eq_div_pow]
  omega

theorem mulHigh_signed (a b : Word64) : mulHigh true a b = (a.signExtend 128 * b.signExtend 128).extractLsb' 64 64 := by
  rw [BitVec.signExtend, BitVec.signExtend, ← BitVec.ofInt_mul, extractLsb'_ofInt]
  rfl

theorem mulHigh_unsigned (a b : Word64) : mulHigh false a b = (a.setWidth 128 * b.setWidth 128).extractLsb' 64 64 := by
  have h (x : Word64) : x.setWidth 128 = BitVec.ofInt 128 (x.toNat : Int) := by rw [BitVec.ofInt_natCast, BitVec.ofNat_toNat]
  rw [h, h, ← BitVec.ofInt_mul, extractLsb'_ofInt]
  rfl

theorem sdiv_eq_tdiv (a b : Word64) : a.sdiv b = BitVec.ofInt 64 (a.toInt.tdiv b.toInt) := by
  apply BitVec.eq_of_toInt_eq
  rw [BitVec.toInt_sdiv, BitVec.toInt_ofInt]

theorem divRes_signed (a b : Word64) :
    divRes true a b = if b = 0 then BitVec.allOnes 64 else BitVec.ofInt 64 (a.toInt.tdiv b.toInt) := by
  rw [← sdiv_eq_tdiv]
  rfl

theorem divRes_unsigned (a b : Word64) : divRes false a b = if b = 0 then BitVec.allOnes 64 else BitVec.ofNat 64 (a.toNat / b.toNat) := by
  rw [← BitVec.udiv_def]
  rfl

/-- What a quotient leaves of a dividend. -/
theorem ofInt_sub_mul (x y q : Int) : BitVec.ofInt 64 x - BitVec.ofInt 64 q * BitVec.ofInt 64 y = BitVec.ofInt 64 (x - y * q) := by
  rw [Int.sub_eq_add_neg, BitVec.ofInt_add, BitVec.ofInt_neg, BitVec.ofInt_mul, BitVec.mul_comm, BitVec.sub_eq_add_neg]

theorem remRes_signed (a b : Word64) : remRes true a b = if b = 0 then a else BitVec.ofInt 64 (a.toInt.tmod b.toInt) := by
  unfold remRes
  by_cases h : b = 0
  · rw [if_pos h, if_pos h]
  · have hq := ofInt_sub_mul a.toInt b.toInt (a.toInt.tdiv b.toInt)
    rw [BitVec.ofInt_toInt, BitVec.ofInt_toInt, ← Int.tmod_def] at hq
    rw [if_neg h, if_neg h, divRes_signed, if_neg h, hq]

theorem ofNat_toNat (x : Word64) : BitVec.ofNat 64 x.toNat = x := by rw [BitVec.ofNat_toNat, BitVec.setWidth_eq]

theorem remRes_unsigned (a b : Word64) : remRes false a b = if b = 0 then a else BitVec.ofNat 64 (a.toNat % b.toNat) := by
  unfold remRes
  by_cases h : b = 0
  · rw [if_pos h, if_pos h]
  · have hq := ofInt_sub_mul a.toNat b.toNat (a.toNat / b.toNat : Nat)
    rw [Int.natCast_ediv, ← Int.emod_def, ← Int.natCast_emod, ← Int.natCast_ediv] at hq
    simp only [BitVec.ofInt_natCast, ofNat_toNat] at hq
    rw [if_neg h, if_neg h, divRes_unsigned, if_neg h, hq]

/-! ### Logic (R80) -/

theorem and_eq_ofBits (a b : Word64) : a &&& b = ofBits fun k => a.getLsbD k && b.getLsbD k := eq_ofBits fun _ _ => BitVec.getLsbD_and
theorem or_eq_ofBits (a b : Word64) : a ||| b = ofBits fun k => a.getLsbD k || b.getLsbD k := eq_ofBits fun _ _ => BitVec.getLsbD_or
theorem xor_eq_ofBits (a b : Word64) : a ^^^ b = ofBits fun k => a.getLsbD k != b.getLsbD k := eq_ofBits fun _ _ => BitVec.getLsbD_xor
theorem andn_eq_ofBits (a b : Word64) : a &&& ~~~b = ofBits fun k => a.getLsbD k && !b.getLsbD k :=
  eq_ofBits fun k hk => by rw [BitVec.getLsbD_and, BitVec.getLsbD_not, decide_eq_true hk, Bool.true_and]

/-! ### Shifts (R80) -/

theorem shlBy_eq (a : Word64) (n : Nat) : shlBy a n = BitVec.ofNat 64 (a.toNat * 2 ^ min n 64) := by
  unfold shlBy
  split
  · next h =>
    apply BitVec.eq_of_toNat_eq
    rw [Nat.min_eq_right h, BitVec.toNat_ofNat, Nat.mul_mod_left]
    rfl
  · next h => rw [Nat.min_eq_left (by omega), ← Nat.shiftLeft_eq]; rfl

theorem shrBy_eq (a : Word64) (n : Nat) : shrBy a n = BitVec.ofNat 64 (a.toNat / 2 ^ min n 64) := by
  unfold shrBy
  split
  · next h => rw [Nat.min_eq_right h, Nat.div_eq_of_lt a.isLt]; rfl
  · next h =>
    apply BitVec.eq_of_toNat_eq
    rw [Nat.min_eq_left (by omega), BitVec.toNat_ushiftRight, Nat.shiftRight_eq_div_pow, BitVec.toNat_ofNat,
      Nat.mod_eq_of_lt (Nat.lt_of_le_of_lt (Nat.div_le_self ..) a.isLt)]

theorem sarBy_eq (a : Word64) (n : Nat) : sarBy a n = BitVec.ofInt 64 (a.toInt / 2 ^ min n 64) := by
  rw [sarBy, BitVec.sshiftRight_eq, Int.shiftRight_eq_div_pow, Int.natCast_pow]
  rfl

/-- The count field of a short form stays below 64. -/
theorem min_count (c : BitVec 6) : min c.toNat 64 = c.toNat := Nat.min_eq_left (Nat.le_of_lt c.isLt)

theorem shlBy_count (a : Word64) (c : BitVec 6) : shlBy a c.toNat = BitVec.ofNat 64 (a.toNat * 2 ^ c.toNat) := by rw [shlBy_eq, min_count]
theorem shrBy_count (a : Word64) (c : BitVec 6) : shrBy a c.toNat = BitVec.ofNat 64 (a.toNat / 2 ^ c.toNat) := by rw [shrBy_eq, min_count]
theorem sarBy_count (a : Word64) (c : BitVec 6) : sarBy a c.toNat = BitVec.ofInt 64 (a.toInt / 2 ^ c.toNat) := by rw [sarBy_eq, min_count]

/-! ### Comparisons (R82) -/

theorem minS_eq (a b : Word64) : minS a b = BitVec.ofInt 64 (min a.toInt b.toInt) := by
  unfold minS
  split
  · next h => rw [Int.min_eq_right (Int.le_of_lt (BitVec.slt_iff_toInt_lt.mp h)), BitVec.ofInt_toInt]
  · next h => rw [Int.min_eq_left (Int.not_lt.mp (mt BitVec.slt_iff_toInt_lt.mpr h)), BitVec.ofInt_toInt]

theorem maxS_eq (a b : Word64) : maxS a b = BitVec.ofInt 64 (max a.toInt b.toInt) := by
  unfold maxS
  split
  · next h => rw [Int.max_eq_right (Int.le_of_lt (BitVec.slt_iff_toInt_lt.mp h)), BitVec.ofInt_toInt]
  · next h => rw [Int.max_eq_left (Int.not_lt.mp (mt BitVec.slt_iff_toInt_lt.mpr h)), BitVec.ofInt_toInt]

theorem minN_eq (a b : Word64) : minN a b = BitVec.ofNat 64 (min a.toNat b.toNat) := by
  unfold minN
  split
  · next h => rw [Nat.min_eq_right (Nat.le_of_lt (BitVec.ult_iff_toNat_lt.mp h)), ofNat_toNat]
  · next h => rw [Nat.min_eq_left (Nat.not_lt.mp (mt BitVec.ult_iff_toNat_lt.mpr h)), ofNat_toNat]

theorem maxN_eq (a b : Word64) : maxN a b = BitVec.ofNat 64 (max a.toNat b.toNat) := by
  unfold maxN
  split
  · next h => rw [Nat.max_eq_right (Nat.le_of_lt (BitVec.ult_iff_toNat_lt.mp h)), ofNat_toNat]
  · next h => rw [Nat.max_eq_left (Nat.not_lt.mp (mt BitVec.ult_iff_toNat_lt.mpr h)), ofNat_toNat]

/-! ### One source (R82, R88) -/

theorem abs_eq_natAbs (a : Word64) : (if a.msb then -a else a) = BitVec.ofNat 64 a.toInt.natAbs := by
  have ha := a.isLt
  rw [BitVec.toInt_eq_msb_cond]
  split
  · apply BitVec.eq_of_toNat_eq
    rw [BitVec.toNat_neg, BitVec.toNat_ofNat]
    omega
  · rw [Int.natAbs_natCast, ofNat_toNat]

theorem clzOf_eq (a : Word64) : clzOf a = countBelow 64 fun k => decide (a.toNat < 2 ^ k) := by
  unfold clzOf
  split
  · next h =>
    have hp (k : Nat) : decide (a.toNat < 2 ^ k) = decide (0 ≤ k) := by
      rw [h]
      exact decide_eq_decide.mpr (iff_of_true (Nat.two_pow_pos k) (Nat.zero_le k))
    simp only [hp, countBelow_from]
  · next h =>
    have ha : a.toNat ≠ 0 := fun h0 => h (BitVec.eq_of_toNat_eq h0)
    have hp (k : Nat) : decide (a.toNat < 2 ^ k) = decide (a.toNat.log2 + 1 ≤ k) := decide_eq_decide.mpr (Nat.log2_lt ha).symm
    simp only [hp, countBelow_from]
    omega

theorem popcOf_eq (a : Word64) : popcOf a = countBelow 64 a.getLsbD := foldl_upTo_count a.getLsbD 64

theorem brevOf_eq (a : Word64) : brevOf a = ofBits fun k => a.getLsbD (63 - k) := by
  rw [brevOf, ofBits, upTo_eq_range, foldl_range_reversed _ 64 64 (Nat.le_refl _), foldr_range_bits, Nat.sub_self, Nat.pow_zero, Nat.one_mul,
    Nat.add_zero]

/-! ### Bit fields (R83) -/

/-- An extracted field is the run of bits, extended. -/
theorem bfxOf_eq_extend (signed : Bool) (x : Word64) (pos len : Nat) :
    bfxOf signed x pos len = if signed then (x.extractLsb' pos len).signExtend 64 else (x.extractLsb' pos len).setWidth 64 := by
  have hv : bitsOf x.toNat pos len = (x.extractLsb' pos len).toNat := by rw [BitVec.extractLsb'_toNat, Nat.shiftRight_eq_div_pow, bitsOf]
  unfold bfxOf
  rw [hv]
  generalize x.extractLsb' pos len = y
  have hmsb : (bitsOf y.toNat (len - 1) 1 == 1) = y.msb := by
    rw [BitVec.msb_eq_getLsbD_last, BitVec.getLsbD, Nat.testBit_eq_decide_div_mod_eq]
    rfl
  have hnat : BitVec.ofNat 64 y.toNat = y.setWidth 64 := BitVec.ofNat_toNat ..
  dsimp only
  rw [hmsb, BitVec.signExtend, BitVec.toInt_eq_msb_cond]
  cases signed <;> cases y.msb
  · exact hnat
  · exact hnat
  · exact hnat.trans (by simp)
  · simp

theorem bfxOf_eq (signed : Bool) (x : Word64) (pos : Nat) {len : Nat} (hlen : 1 ≤ len) :
    bfxOf signed x pos len = ofBits fun k => if k < len then x.getLsbD (pos + k) else signed && x.getLsbD (pos + len - 1) := by
  have hlast : pos + (len - 1) = pos + len - 1 := by omega
  rw [bfxOf_eq_extend]
  apply eq_ofBits
  intro k hk
  cases signed with
  | true =>
    rw [if_pos rfl, BitVec.getLsbD_signExtend, BitVec.msb_eq_getLsbD_last]
    simp only [BitVec.getLsbD_extractLsb', hk, decide_true, Bool.true_and, hlast]
    split
    · next h => rw [decide_eq_true h, Bool.true_and]
    · rw [decide_eq_true (show len - 1 < len by omega), Bool.true_and]
  | false =>
    rw [if_neg Bool.false_ne_true, BitVec.getLsbD_setWidth, BitVec.getLsbD_extractLsb']
    simp [hk]

theorem bfiOf_eq (d a : Word64) (pos len : Nat) :
    bfiOf d a pos len = ofBits fun k => if pos ≤ k ∧ k < pos + len then a.getLsbD (k - pos) else d.getLsbD k := by
  apply eq_ofBits
  intro k hk
  have hmask : (BitVec.ofNat 64 ((2 ^ len - 1) * 2 ^ pos)).getLsbD k = decide (pos ≤ k ∧ k < pos + len) := by
    rw [BitVec.getLsbD_ofNat, Nat.testBit_mul_two_pow, Nat.testBit_two_pow_sub_one, ← Bool.decide_and, ← Bool.decide_and]
    exact decide_eq_decide.mpr (by omega)
  unfold bfiOf
  simp only [BitVec.getLsbD_or, BitVec.getLsbD_and, BitVec.getLsbD_not, BitVec.getLsbD_shiftLeft, hmask, hk]
  by_cases hin : pos ≤ k ∧ k < pos + len
  · simp [hin]
  · simp [hin]

theorem fieldsOk_of_wfCore {i : Instr} (h : i.wfCore = true) : i.fieldsOk = true := by
  simp only [Instr.wfCore, Bool.and_eq_true] at h
  exact h.1.1.1.1.1.2

/-- A well-formed `bfx` extracts a bit at least. -/
theorem one_le_of_fieldOk {width pos len : Nat} (h : fieldOk width pos len = true) : 1 ≤ len :=
  of_decide_eq_true (Bool.and_eq_true_iff.mp h).1

/-! ### Every instruction of the rule -/

/-- The instruction writes its rule's value. -/
theorem exec_of_valueRule {s : State} {i : Instr} {d : SReg} {la : BitVec 4} {x : Word64} (hw : i.wf = true)
    (h : valueRule s i = some (d, la, x)) : exec i s = finS s la d x := by
  cases i <;> cases h
  case andImm | andLong | orImm | orLong | xorImm | xorLong | mov | movi | moviLong => rfl
  case mulhiS64 a b => exact congrArg (finS s 0 d) (mulHigh_signed ..)
  case mulhiN64 a b => exact congrArg (finS s 0 d) (mulHigh_unsigned ..)
  case divS64 a b => exact congrArg (finS s 0 d) (divRes_signed ..)
  case divN64 a b => exact congrArg (finS s 0 d) (divRes_unsigned ..)
  case remS64 a b => exact congrArg (finS s 0 d) (remRes_signed ..)
  case remN64 a b => exact congrArg (finS s 0 d) (remRes_unsigned ..)
  case and a b => exact congrArg (finS s 0 d) (and_eq_ofBits ..)
  case or a b => exact congrArg (finS s 0 d) (or_eq_ofBits ..)
  case xor a b => exact congrArg (finS s 0 d) (xor_eq_ofBits ..)
  case andn a b => exact congrArg (finS s 0 d) (andn_eq_ofBits ..)
  case shl a b => exact congrArg (finS s 0 d) (shlBy_eq ..)
  case shr a b => exact congrArg (finS s 0 d) (shrBy_eq ..)
  case sar a b => exact congrArg (finS s 0 d) (sarBy_eq ..)
  case shlImm a c => exact congrArg (finS s 0 d) (shlBy_count ..)
  case shrImm a c => exact congrArg (finS s 0 d) (shrBy_count ..)
  case sarImm a c => exact congrArg (finS s 0 d) (sarBy_count ..)
  case minS64 a b => exact congrArg (finS s 0 d) (minS_eq ..)
  case maxS64 a b => exact congrArg (finS s 0 d) (maxS_eq ..)
  case minN64 a b => exact congrArg (finS s 0 d) (minN_eq ..)
  case maxN64 a b => exact congrArg (finS s 0 d) (maxN_eq ..)
  case minS64Imm a imm => exact congrArg (finS s 0 d) (toInt_imm64 (w := 12) (by decide) imm ▸ minS_eq _ (imm64 imm))
  case maxS64Imm a imm => exact congrArg (finS s 0 d) (toInt_imm64 (w := 12) (by decide) imm ▸ maxS_eq _ (imm64 imm))
  case cmpCc cc a b => exact congrArg (fun c : Bool => finS s 0 d (if c then 1 else 0)) (Transfers.ICond.holds_eq_condRule cc ..)
  case abs a => exact congrArg (finS s 0 d) (abs_eq_natAbs ..)
  case clz a => exact congrArg (fun n => finS s 0 d (BitVec.ofNat 64 n)) (clzOf_eq ..)
  case popc a => exact congrArg (fun n => finS s 0 d (BitVec.ofNat 64 n)) (popcOf_eq ..)
  case brev a => exact congrArg (finS s 0 d) (brevOf_eq ..)
  case kpop a => exact congrArg (fun n => finS s 0 d (BitVec.ofNat 64 n)) (length_filter_upTo (s.kreg a).getLsbD 32)
  case kffs a => exact congrArg (fun n => finS s 0 d (BitVec.ofNat 64 n)) (find?_upTo (s.kreg a).getLsbD 32)
  case sel a b c => exact congrArg (finS s la d) (ite_not ..)
  case bfx signed a pos len => exact congrArg (finS s la d) (bfxOf_eq signed _ _ (one_le_of_fieldOk (fieldsOk_of_wfCore hw)))
  case bfi a pos len => exact congrArg (finS s la d) (bfiOf_eq ..)


/-- Settles O2: each value by `exec_of_valueRule`, and the result passes (`finS_closed`). -/
theorem scalarIntegerValues : Obligations.ScalarIntegerValues := by
  intro s i d la x hw h ho
  rw [exec_of_valueRule hw h, finS_closed ho]

end Sys2Proof.IntegerValues
end

section
/-! PROOFS. Scalar accesses (O12 to O14): their addresses (R94, R95), and what counting and translating one changes (R177, R179). -/

namespace Sys2Proof.ScalarAccesses
open Machine Claims

/-! ### Addresses and instructions (R34, R94, R95) -/

theorem bytes_eq (w : SWidth) : w.bytes = widthBytes w := by cases w <;> rfl
theorem signed_eq (w : SWidth) : w.signed = widthSigned w := by cases w <;> rfl

theorem saddr_fresh {s : State} (h : s.g.scAcc = none) (a : SReg) (off : Word64) : s.saddr a off = s.sreg a + off + s.g.repOff := by
  unfold State.saddr
  rw [h]

theorem sdata_fresh {s : State} (h : s.g.scAcc = none) (d : SReg) : s.sdata d = s.sreg d := by
  unfold State.sdata
  rw [h]

theorem shortOff_eq (w : SWidth) (off : BitVec 9) : shortOff w off = BitVec.ofInt 64 (off.toInt * widthBytes w) := by
  rw [shortOff, bytes_eq, imm64, BitVec.signExtend, BitVec.ofInt_mul, BitVec.ofInt_natCast]

theorem saddr_short {s : State} (h : s.g.scAcc = none) (w : SWidth) (a : SReg) (off : BitVec 9) :
    s.saddr a (shortOff w off) = shortAddr s w a off + s.g.repOff := by rw [saddr_fresh h, shortOff_eq, shortAddr]

theorem saddr_long {s : State} (h : s.g.scAcc = none) (a : SReg) (off : Word32) : s.saddr a (imm64 off) = longAddr s a off + s.g.repOff :=
  saddr_fresh h a _

section
variable {s : State} {i : Instr} {w : SWidth} {d : SReg} {la : BitVec 4} {x : Word64}

/-- An access that is no replay goes to its rule's address. -/
theorem exec_of_loadRule (hf : s.g.scAcc = none) (h : loadRule s i = some (w, d, la, x)) : exec i s = loadG s w la d x := by
  cases i <;> cases h
  case ld a off => exact congrArg (loadG s w 0 d) (saddr_short hf w a off)
  case ldLong a off => exact congrArg (loadG s w la d) (saddr_long hf a off)

theorem exec_of_storeRule (hf : s.g.scAcc = none) (h : storeRule s i = some (w, d, x)) : exec i s = storeG s w d x := by
  cases i <;> cases h
  case st a off => exact congrArg (storeG s w d) (saddr_short hf w a off)
  case stLong a la off => exact congrArg (storeG s w d) (saddr_long hf a off)

theorem exec_of_localLoadRule (hf : s.g.scAcc = none) (h : localLoadRule s i = some (w, d, la, x)) : exec i s = loadSp s w la d x := by
  cases i <;> cases h
  case ldsp a off => exact congrArg (loadSp s w 0 d) (saddr_short hf w a off)
  case ldspLong a off => exact congrArg (loadSp s w la d) (saddr_long hf a off)

theorem exec_of_localStoreRule (hf : s.g.scAcc = none) (h : localStoreRule s i = some (w, d, x)) : exec i s = storeSp s w d x := by
  cases i <;> cases h
  case stsp a off => exact congrArg (storeSp s w d) (saddr_short hf w a off)
  case stspLong a la off => exact congrArg (storeSp s w d) (saddr_long hf a off)

end

theorem not_misaligned {w : SWidth} {x : Word64} (h : x.toNat % widthBytes w = 0) : ¬ misaligned w x = true := by
  rw [misaligned, bytes_eq, h]
  decide

theorem scratchOk_of_within {s : State} {w : SWidth} {x : Word64} (h : x.toNat + widthBytes w ≤ s.b.handler.allocation)
    (ha : s.b.handler.allocation < 2 ^ 32) : s.scratchOk x.toInt w.bytes = true := by
  have hx : x.toInt = x.toNat := BitVec.toInt_eq_toNat_of_lt (by omega)
  rw [State.scratchOk, hx, bytes_eq, Bool.and_eq_true, decide_eq_true_eq, decide_eq_true_eq]
  omega

/-! ### An issued access (R177, R179) -/

/-- `t` is `s` with an access counted and its address translated: the counts and the caches alone differ. -/
def Issued (s t : State) : Prop :=
  ∃ (c : Core) (acc : List Acc) (pages : List (Nat × PageReg)) (n : Nat),
    t = { s with c := c, nextReq := n, g := { s.g with acc := acc, pages := pages } }

theorem quiet_of_issued {s t : State} (h : Issued s t) {pa n : Nat} (hq : quiet s pa n) : quiet t pa n := by
  obtain ⟨c, acc, pages, m, rfl⟩ := h
  exact hq

/-- The state in which an access has its count. -/
def counted (s : State) (p : Path) : State :=
  { s with g := { s.g with acc := s.g.acc ++ [⟨p, false, s.nextReq⟩] }, nextReq := s.nextReq + 1 }

theorem countS_of_mayCount {s : State} {p : Path} (h : mayCount s p) : s.countS p = some (counted s p, s.nextReq) := by
  unfold State.countS
  rw [h.1]
  exact s.countAcc_below p h.2

theorem issued_counted (s : State) (p : Path) : Issued s (counted s p) := ⟨s.c, _, s.g.pages, _, rfl⟩

/-- The translation that a scalar access finds: from the core's TLB or the walk, by no last-page register (R177, R341). -/
def scalarPage (s : State) (n : Need) (va : Word64) : PageReg ⊕ Nat :=
  if va.toNat / 2 ^ 57 != 0 then .inr 0x15 else
    match s.c.tlb.find? fun e => e.journey == s.j.num && s.serves n va e.page with
    | some e => .inl e.page
    | none =>
      match s.j.walk va.toNat with
      | none => .inr 0x13
      | some e =>
        match judge s.j (s.room? s.j.room) e n va.toNat with
        | .fail c => .inr c
        | _ => .inl ⟨e.vpn, e.size, e.r, e.w, e.x, e.window, e.target, s.j.tag.setWidth 32, 0⟩

theorem translate_scalar (s : State) (n : Need) (va : Word64) : (s.translate none n va).2 = scalarPage s n va := by
  unfold State.translate scalarPage
  split
  · rfl
  dsimp only
  cases s.c.tlb.find? fun e => e.journey == s.j.num && s.serves n va e.page with
  | some e => rfl
  | none =>
    cases s.j.walk va.toNat with
    | none => rfl
    | some e =>
      dsimp only
      cases judge s.j (s.room? s.j.room) e n va.toNat <;> rfl

/-- Where a translation or its failure leads an access. -/
def led (s : State) (n : Need) (va : Word64) : PageReg ⊕ Nat → Xlat
  | .inl p => s.reach p n va
  | .inr c => .fail c

theorem xlate_snd (s : State) (lane : Option Nat) (n : Need) (va : Word64) : (s.xlate lane n va).2 = led s n va (s.translate lane n va).2 := by
  unfold State.xlate
  obtain ⟨t, p | c⟩ := s.translate lane n va <;> rfl

theorem xlate_counted (s : State) (p : Path) (n : Need) (va : Word64) : ((counted s p).xlate none n va).2 = (s.xlate none n va).2 := by
  rw [xlate_snd, xlate_snd, translate_scalar, translate_scalar]
  rfl

/-- An access that has its count and leads to pool memory. -/
theorem issued_xlate {s : State} {n : Need} {x : Word64} {pa : Nat} (p : Path) (h : (s.xlate none n x).2 = .pool pa) :
    ∃ t, (counted s p).xlate none n x = (t, .pool pa) ∧ Issued s t := by
  obtain ⟨tlb, pages, ht⟩ := (counted s p).xlate_eq none n x
  exact ⟨_, Prod.ext rfl ((xlate_counted s p n x).trans h), { s.c with tlb := tlb }, _, pages, _, ht⟩

end Sys2Proof.ScalarAccesses
end

section
/-! PROOFS. Scalar loads (O12): the value that an access reads, and what it leaves behind (R95, R161). -/

namespace Sys2Proof.ScalarLoads
open Machine Claims ScalarAccesses

/-! ### Loaded values (R5, R95) -/

theorem leNat_lt (byte : Nat → Byte) : ∀ n a, leNat byte a n < 2 ^ (8 * n)
  | 0, _ => Nat.one_pos
  | n + 1, a => by
    have h := leNat_lt byte n (a + 1)
    have hb := (byte a).isLt
    rw [leNat, Nat.mul_succ, Nat.pow_add]
    omega

/-- The model's extension of a loaded number is the rule's. -/
theorem extendTo_eq_loaded (w : SWidth) (m : Memory) (a : Nat) :
    extendTo 64 w.bytes w.signed (ofLe (m.read a w.bytes)) = loaded w m.byte a := by
  have hlt := leNat_lt m.byte (widthBytes w) a
  unfold extendTo loaded
  dsimp only
  rw [bytes_eq, signed_eq, Stepping.leNat_eq_ofLe, BitVec.msb_eq_decide, BitVec.toNat_ofNat, Nat.mod_eq_of_lt hlt]

theorem memRead_of_quiet {s : State} {pa n : Nat} (h : quiet s pa n) : s.memRead pa n = s.mem.read pa n := by
  refine State.memRead_quiet n s pa (fun k hk => ?_) h.1
  have hp := h.2
  rw [State.poisoned, BitRows.upTo_eq_range, List.any_eq_false] at hp
  simpa using hp k (List.mem_range.mpr hk)

/-! ### Loads (R95) -/

/-- A load that has its value: the register is written and the access is finished. -/
def received (t : State) (la : BitVec 4) (d : SReg) (v : Word64) (tag : Nat) : State := ((t.setSla la d v).modG fun g => g.finAcc tag).advance

theorem loadG_pool {s : State} {w : SWidth} (la : BitVec 4) (d : SReg) {x : Word64} {pa : Nat} (ha : x.toNat % widthBytes w = 0)
    (hc : mayCount s .ld) (hx : (s.xlate none needR x).2 = .pool pa) (hq : quiet s pa (widthBytes w)) :
    ∃ t, Issued s t ∧ loadG s w la d x = .next (received t (s.g.laLeft la) d (loaded w s.mem.byte pa) s.nextReq) := by
  obtain ⟨t, ht, hi⟩ := issued_xlate .ld hx
  have hqt : quiet t pa w.bytes := bytes_eq w ▸ quiet_of_issued hi hq
  have hm : t.mem = s.mem := by
    obtain ⟨c, acc, pages, m, rfl⟩ := hi
    rfl
  refine ⟨t, hi, ?_⟩
  unfold loadG
  rw [if_neg (not_misaligned ha), countS_of_mayCount hc]
  dsimp only
  rw [ht]
  dsimp only
  rw [hqt.2, memRead_of_quiet hqt, hm, extendTo_eq_loaded]
  rfl

theorem spRead_plain {s : State} : ∀ {n off : Nat}, plainSp s off n → s.spRead off n = s.b.spm.read off n
  | 0, _, _ => rfl
  | n + 1, off, ⟨hd, hr, hu⟩ => by
    have hn : (s.b.unacq.filter fun (u : Unacq) => u.addr == off) = [] := by
      rw [List.filter_eq_nil_iff]
      intro u h
      have hne : u.addr ≠ off := by
        have := hu u h
        omega
      simpa using hne
    have hrest : plainSp s (off + 1) n := ⟨hd, hr, fun u h => by have := hu u h; omega⟩
    rw [State.spRead, Memory.read, spRead_plain hrest]
    simp only [State.spByte, State.ringOver, hd, hr, olds, hn]
    rfl

theorem loadSp_plain {s : State} {w : SWidth} (la : BitVec 4) (d : SReg) {x : Word64} (ha : x.toNat % widthBytes w = 0)
    (hb : s.scratchOk x.toInt w.bytes = true) (hc : mayCount s .ld) (hp : plainSp s x.toNat (widthBytes w)) :
    loadSp s w la d x = .next (received (counted s .ld) la d (loaded w s.b.spm.byte x.toNat) s.nextReq) := by
  have hpt : plainSp (counted s .ld) x.toNat w.bytes := bytes_eq w ▸ hp
  unfold loadSp
  rw [if_neg (not_misaligned ha), hb, countS_of_mayCount hc]
  dsimp only
  rw [spRead_plain hpt, extendTo_eq_loaded]
  rfl

/-- What a load leaves behind: its register, and nothing else that a program reads. -/
theorem received_eq {s t : State} (h : Issued s t) {d : SReg} (ho : s.openS d = false) (la : BitVec 4) (v : Word64) (tag : Nat) :
    (received t la d v tag).g.s = (if d = 0 then s.g.s else s.g.s.set d.toNat v) ∧ (received t la d v tag).g.spc = nextPc s ∧
      keepsLaneSide s (received t la d v tag) ∧ (received t la d v tag).b = s.b ∧ ∀ a, (received t la d v tag).mem.byte a = s.mem.byte a := by
  have hot : t.openS d = false := by
    obtain ⟨c, acc, pages, n, rfl⟩ := h
    exact ho
  rw [received, State.setSla_closed t la d v none hot]
  obtain ⟨c, acc, pages, n, rfl⟩ := h
  split <;> exact ⟨rfl, rfl, ⟨rfl, rfl, rfl, rfl, rfl, rfl, rfl, rfl, rfl, rfl, rfl⟩, rfl, fun _ => rfl⟩

/-- Settles O12: the value by `loadG_pool` and `loadSp_plain`, what it leaves by `received_eq`. -/
theorem scalarLoads : Obligations.ScalarLoads := by
  refine ⟨fun s i w d la x pa hi ha hc hx hq ho => ?_, fun s i w d la x hi ha hb hl hc hp ho => ?_⟩
  · obtain ⟨t, ht, he⟩ := loadG_pool la d ha hc hx hq
    exact ⟨_, (exec_of_loadRule hc.1 hi).trans he, received_eq ht ho ..⟩
  · have he := loadSp_plain la d ha (scratchOk_of_within hb hl) hc hp
    exact ⟨_, (exec_of_localLoadRule hc.1 hi).trans he, received_eq (issued_counted s .ld) ho ..⟩

end Sys2Proof.ScalarLoads
end

section
/-! PROOFS. Scalar stores (O13): the bytes that an access writes, and what it leaves alone (R95, R161, R175). -/

namespace Sys2Proof.ScalarStores
open Machine Claims ScalarAccesses

/-! ### Stored bytes (R5, R95) -/

theorem leBytes_getD : ∀ (n x : Nat) {k : Nat}, k < n → (leBytes n x).getD k 0 = BitVec.ofNat 8 (x / 2 ^ (8 * k))
  | n + 1, x, 0, _ => by rw [leBytes, List.getD_cons_zero, Nat.mul_zero, Nat.pow_zero, Nat.div_one]
  | n + 1, x, k + 1, hk => by
    have hx : x / 256 / 2 ^ (8 * k) = x / 2 ^ (8 * (k + 1)) := by rw [Nat.div_div_eq_div_mul, Nat.mul_succ, Nat.pow_add, Nat.mul_comm]
    rw [leBytes, List.getD_cons_succ, leBytes_getD n _ (Nat.lt_of_succ_lt_succ hk), hx]

/-- The bytes of a store are the register's low bytes, in order. -/
theorem storedByte_eq (w : SWidth) (x : Word64) {k : Nat} (hk : k < widthBytes w) :
    (leBytes (widthBytes w) x.toNat).getD k 0 = x.extractLsb' (8 * k) 8 := by
  rw [leBytes_getD _ _ hk, BitVec.extractLsb', Nat.shiftRight_eq_div_pow]

section
variable {m : Memory} (hm : Memory.wf m = true) (w : SWidth) (x : Word64) (a : Nat)
include hm

theorem byte_write_inside {k : Nat} (hk : k < widthBytes w) :
    (m.write a (leBytes (widthBytes w) x.toNat)).byte (a + k) = x.extractLsb' (8 * k) 8 := by
  rw [Memory.byte_write _ m a _ hm, leBytes_length, if_pos (by omega), Nat.add_sub_cancel_left, storedByte_eq w x hk]

theorem byte_write_outside {q : Nat} (hq : q < a ∨ a + widthBytes w ≤ q) : (m.write a (leBytes (widthBytes w) x.toNat)).byte q = m.byte q := by
  rw [Memory.byte_write _ m a _ hm, leBytes_length, if_neg (by omega)]

end

/-! ### Stores (R95, R175) -/

/-- No engine write stands over a run of bytes. -/
def clearOf (l : List Unacq) (a n : Nat) : Prop := ∀ u ∈ l, u.addr < a ∨ a + n ≤ u.addr

theorem find?_of_clearOf {l : List Unacq} {a n : Nat} (h : clearOf l a (n + 1)) : l.find? (fun u => u.addr == a) = none := by
  rw [List.find?_eq_none]
  intro u hu
  have hne : u.addr ≠ a := by
    have := h u hu
    omega
  simpa using hne

theorem unowned_of_clearOf {l : List Unacq} {a n : Nat} (h : clearOf l a (n + 1)) : unowned l a = false := by
  rw [unowned, find?_of_clearOf h]
  rfl

/-- A store beside the engine writes leaves them. -/
theorem stored_of_clearOf {l : List Unacq} {a n : Nat} (h : clearOf l a (n + 1)) (now : Byte) : clearOf (stored l a now) (a + 1) n := by
  rw [stored, find?_of_clearOf h]
  intro u hu
  have := h u (List.mem_filter.mp hu).1
  omega

theorem markDirty_eq (s : State) (pa : Nat) : ∃ j : Journey, s.markDirty pa = { s with j := j } ∧ j.unacq = s.j.unacq := by
  unfold State.markDirty
  split
  · exact ⟨s.j, rfl, rfl⟩
  · exact ⟨_, rfl, rfl⟩

/-- Bytes stored where no engine write stands enter memory. -/
theorem memWrite_clear : ∀ (l : List Byte) (s : State) (pa : Nat), clearOf s.j.unacq pa l.length →
    ∃ j : Journey, s.memWrite pa l = { s with mem := s.mem.write pa l, j := j }
  | [], s, _, _ => ⟨s.j, rfl⟩
  | x :: xs, s, pa, h => by
    obtain ⟨j, hj, hu⟩ := markDirty_eq (s.putByte pa x) pa
    have hclear : clearOf j.unacq (pa + 1) xs.length := hu ▸ stored_of_clearOf h _
    have hmem : (s.putByte pa x).mem = s.mem.put pa x := by
      show (if unowned s.j.unacq pa && _ then s.mem else s.mem.put pa x) = _
      rw [unowned_of_clearOf h]
      rfl
    obtain ⟨k, hk⟩ := memWrite_clear xs { s.putByte pa x with j := j } (pa + 1) hclear
    refine ⟨k, ?_⟩
    rw [State.memWrite, hj, hk, Memory.write, ← hmem]
    rfl

/-- Where no bound block and no ring stands, a store touches the band's bytes alone. -/
theorem touch_plain {s : State} (hd : s.b.dstacks = []) (hr : s.b.rings = []) (off : Nat) : s.touch off = s.b := by
  have hring : s.ringOver off = none := by
    rw [State.ringOver, hr]
    rfl
  have hb : s.b = { s.b with dstacks := [], rings := [] } := by rw [← hd, ← hr]
  rw [State.touch, hring, hd, hr]
  exact hb.symm

/-- Bytes stored by a group in plain scratchpad: they stand there, and in the write queue. -/
theorem spWrite_plain : ∀ (l : List Byte) (s : State) (off : Nat), plainSp s off l.length →
    ∃ b : Band, s.spWrite off l = { s with b := b } ∧ b.spm = s.b.spm.write off l ∧ b.wide = s.b.wide ∧ b.wq.length = s.b.wq.length + l.length
  | [], s, _, _ => ⟨s.b, rfl, rfl, rfl, rfl⟩
  | x :: xs, s, off, ⟨hd, hr, hu⟩ => by
    have htouch := touch_plain hd hr off
    have hspm : (s.spPut off x).b.spm = s.b.spm.put off x := by
      show (s.touch off).spm.put off (if unowned s.b.unacq off && _ then _ else x) = _
      rw [htouch, unowned_of_clearOf hu]
      rfl
    have hwq : (s.spPut off x).b.wq.length = s.b.wq.length + 1 := by
      show ((s.touch off).wq ++ [_]).length = _
      rw [htouch, List.length_append]
      rfl
    have hrest : plainSp (s.spPut off x) (off + 1) xs.length := by
      refine ⟨?_, ?_, stored_of_clearOf hu _⟩
      · show (s.touch off).dstacks = []
        rw [htouch, hd]
      · show (s.touch off).rings = []
        rw [htouch, hr]
    obtain ⟨b, hb, hs, hw, hl⟩ := spWrite_plain xs (s.spPut off x) (off + 1) hrest
    refine ⟨b, hb, ?_, ?_, ?_⟩
    · rw [hs, hspm, Memory.write]
    · rw [hw]
      show (s.touch off).wide = _
      rw [htouch]
    · rw [hl, hwq, List.length_cons]
      omega

/-- A store that has stored its bytes: the access is finished. -/
def finished (t : State) (tag : Nat) : State := (t.modG fun g => g.finAcc tag).advance

/-- What a store leaves of its group. -/
theorem finished_eq {s t : State} (h : Issued s t) (b : Band) (m : Memory) (j : Journey) (tag : Nat) :
    (finished { t with b := b, mem := m, j := j } tag).g.s = s.g.s ∧ (finished { t with b := b, mem := m, j := j } tag).g.spc = nextPc s ∧
      keepsLaneSide s (finished { t with b := b, mem := m, j := j } tag) := by
  obtain ⟨c, acc, pages, n, rfl⟩ := h
  exact ⟨rfl, rfl, ⟨rfl, rfl, rfl, rfl, rfl, rfl, rfl, rfl, rfl, rfl, rfl⟩⟩

theorem storeG_pool {s : State} {w : SWidth} (d : SReg) {x : Word64} {pa : Nat} (ha : x.toNat % widthBytes w = 0)
    (hc : mayCount s .st) (hx : (s.xlate none needW x).2 = .pool pa) (hq : quiet s pa (widthBytes w)) :
    ∃ t j, Issued s t ∧ storeG s w d x = .next (finished
      { t with b := s.b, mem := s.mem.write pa (leBytes (widthBytes w) (s.sreg d).toNat), j := j } s.nextReq) := by
  obtain ⟨t, ht, hi⟩ := issued_xlate .st hx
  have hclear : clearOf t.j.unacq pa (leBytes (widthBytes w) (s.sreg d).toNat).length := by
    rw [leBytes_length]
    exact (quiet_of_issued hi hq).1
  obtain ⟨j, hj⟩ := memWrite_clear _ t pa hclear
  refine ⟨t, j, hi, ?_⟩
  unfold storeG
  rw [if_neg (not_misaligned ha), countS_of_mayCount hc]
  dsimp only
  rw [ht]
  dsimp only
  rw [sdata_fresh hc.1, bytes_eq, hj]
  obtain ⟨c, acc, pages, n, rfl⟩ := hi
  rfl

theorem storeSp_plain {s : State} {w : SWidth} (d : SReg) {x : Word64} (ha : x.toNat % widthBytes w = 0)
    (hb : s.scratchOk x.toInt w.bytes = true) (hc : mayCount s .st) (hp : plainSp s x.toNat (widthBytes w)) :
    ∃ b : Band, storeSp s w d x = .next (finished { counted s .st with b := b, mem := s.mem, j := s.j } s.nextReq) ∧
      b.spm = s.b.spm.write x.toNat (leBytes (widthBytes w) (s.sreg d).toNat) ∧ b.wide = s.b.wide ∧
      b.wq.length = s.b.wq.length + widthBytes w := by
  have hpt : plainSp (counted s .st) x.toNat (leBytes (widthBytes w) (s.sreg d).toNat).length := by
    rw [leBytes_length]
    exact hp
  obtain ⟨b, he, hs, hw, hl⟩ := spWrite_plain _ _ _ hpt
  rw [leBytes_length] at hl
  refine ⟨b, ?_, hs, hw, hl⟩
  unfold storeSp
  rw [if_neg (not_misaligned ha), hb, countS_of_mayCount hc]
  dsimp only
  rw [bytes_eq, he]
  rfl

/-- Settles O13: the bytes by `storeG_pool` and `storeSp_plain` with `byte_write_inside` and `byte_write_outside`, the group by `finished_eq`. -/
theorem scalarStores : Obligations.ScalarStores := by
  refine ⟨fun s i w d x pa _ hi ha hc hx hq hm => ?_, fun s i w d x _ hi ha hb hl hc hp hm => ?_⟩
  · obtain ⟨t, j, ht, he⟩ := storeG_pool d ha hc hx hq
    obtain ⟨hregs, hpc, hkeeps⟩ := finished_eq ht s.b (s.mem.write pa (leBytes (widthBytes w) (s.sreg d).toNat)) j s.nextReq
    exact ⟨_, (exec_of_storeRule hc.1 hi).trans he, fun k hk => byte_write_inside hm w _ pa hk, fun a => byte_write_outside hm w _ pa,
      hregs, hpc, hkeeps, rfl⟩
  · obtain ⟨b, he, hspm, hwide, hwq⟩ := storeSp_plain d ha (scratchOk_of_within hb hl) hc hp
    obtain ⟨hregs, hpc, hkeeps⟩ := finished_eq (issued_counted s .st) b s.mem s.j s.nextReq
    refine ⟨_, (exec_of_localStoreRule hc.1 hi).trans he, fun k hk => ?_, fun a h => ?_, hwide, hwq, hregs, hpc, hkeeps, fun a => rfl⟩
    · show b.spm.byte _ = _
      rw [hspm, byte_write_inside hm w _ _ hk]
    · show b.spm.byte _ = _
      rw [hspm, byte_write_outside hm w _ _ h]

end Sys2Proof.ScalarStores
end

section
/-! PROOFS. Replayed scalar accesses (O14): they keep the address at which they issued (R45, R344). -/

namespace Sys2Proof.ScalarReplays
open Machine Claims

/-- A group whose load of eight bytes at address 0 is parked and replays; since it parked, an instruction of its window has written its base
register, which now holds 1. -/
def sReplay : State :=
  { State.reset with g := { State.reset.g with s := State.reset.g.s.set 1 1, scAcc := some ⟨0, 0, 0⟩ } }

/-- Refutes O14: a replayed access goes to the address that it kept when it issued (log entry 118), which is aligned, where the address
computed anew from its base register is not: `sReplay` takes no trap. -/
theorem not_scalarAccessTraps : ¬ Obligations.ScalarAccessTraps := by
  intro h
  have htrap := h.1 sReplay (.ld .b64 2 1 0) .b64 2 0 1 (.inl rfl) (by decide)
  obtain ⟨m, u, l, k, y, p, q, ht⟩ := sReplay.takeTrap_eq 0x08 { vaddr := 1 } rfl
  rw [ht] at htrap
  have hload : ∃ t, exec (.ld .b64 2 1 0) sReplay = .next t ∧ t.g.hold = .none := ⟨_, rfl, rfl⟩
  obtain ⟨t, he, hhold⟩ := hload
  rw [htrap] at he
  cases he
  cases hhold

end Sys2Proof.ScalarReplays
end

section
/-! PROOFS. Results of lane words (R102 to R104, R112): the acting lanes, and what a write of a free register or predicate leaves. -/

namespace Sys2Proof.LaneResults
open Machine Claims BitRows

/-! ### Masks and rows of lanes -/

theorem foldl_upTo_bits (f : Nat → Bool) : ∀ n, (upTo n).foldl (fun m i => if f i then m + 2 ^ i else m) 0 = bitSum f n
  | 0 => rfl
  | n + 1 => by
    rw [upTo, List.foldl_append, foldl_upTo_bits f n, bitSum]
    cases h : f n <;> simp [h, Nat.add_comm]

/-- A mask has in each lane what its rule says. -/
theorem laneBit_mkMask (f : Nat → Bool) {i : Nat} (hi : i < 32) : laneBit (mkMask f) i = f i := by
  rw [laneBit, mkMask, foldl_upTo_bits, BitVec.getLsbD_ofNat, testBit_bitSum f hi, decide_eq_true hi, Bool.true_and]

/-- The claims' mask of a rule is the model's. -/
theorem mask32_eq_mkMask (f : Nat → Bool) : mask32 f = mkMask f := by
  rw [mask32, mkMask, foldl_upTo_bits, foldr_range_bits, Nat.add_zero]

/-- A mask is the mask of its bits. -/
theorem eq_mkMask {x : Word32} {f : Nat → Bool} (h : ∀ i, i < 32 → laneBit x i = f i) : x = mkMask f :=
  BitVec.eq_of_getLsbD_eq fun i hi => (h i hi).trans (laneBit_mkMask f hi).symm

theorem getElem_mkLanes (f : Nat → Word32) {i : Nat} (hi : i < 32) : (mkLanes f)[i] = f i := by
  have hrow : (mkLanes f).toList = (List.range 32).map f := rfl
  rw [← Vector.getElem_toList (h := by rwa [Vector.length_toList])]
  simp only [hrow, List.getElem_map, List.getElem_range]

theorem mkLanes_eq_ofFn (f : Nat → Word32) : mkLanes f = Vector.ofFn fun i => f i.val :=
  Vector.ext fun i hi => by rw [getElem_mkLanes f hi, Vector.getElem_ofFn]

theorem setIfInBounds_of_lt {α : Type} {n r : Nat} (v : Vector α n) (x : α) (hr : r < n) : v.setIfInBounds r x = v.set r x hr := by
  apply Vector.ext
  intro i hi
  rw [Vector.getElem_setIfInBounds, Vector.getElem_set]

/-! ### The acting lanes (R102, R123, R124) -/

theorem laneBit_k0 (s : State) {i : Nat} (hi : i < 32) : laneBit s.k0 i = decide (i < s.g.nev) := by
  rw [laneBit, State.k0, BitVec.getLsbD_ofNat, Nat.testBit_two_pow_sub_one, decide_eq_true hi, Bool.true_and]

/-- The captured mask in the event lanes. -/
theorem laneBit_and_k0 (s : State) (m : Word32) (i : Nat) : laneBit (m &&& s.k0) i = (laneBit m i && decide (i < s.g.nev)) := by
  by_cases hi : i < 32
  · rw [laneBit, BitVec.getLsbD_and]
    exact congrArg (laneBit m i && ·) (laneBit_k0 s hi)
  · rw [laneBit, laneBit, BitVec.getLsbD_of_ge _ _ (by omega), BitVec.getLsbD_of_ge _ _ (by omega), Bool.false_and]

theorem bitsOf_ne_zero_iff {x lo n : Nat} : bitsOf x lo n ≠ 0 ↔ ∃ k < n, x.testBit (lo + k) = true := by
  have hbit (k : Nat) : (bitsOf x lo n).testBit k = (decide (k < n) && x.testBit (lo + k)) := by
    rw [bitsOf, Nat.testBit_mod_two_pow, Nat.testBit_div_two_pow, Nat.add_comm]
  constructor
  · intro h
    obtain ⟨k, hk⟩ := Nat.exists_testBit_of_ne_zero h
    rw [hbit, Bool.and_eq_true, decide_eq_true_eq] at hk
    exact ⟨k, hk⟩
  · rintro ⟨k, hk, hx⟩ h0
    have hk0 := hbit k
    simp [h0, hk, hx] at hk0

/-- A quad holds a marked event where one of its lanes is one (R124). -/
theorem quad_has_event (s : State) (m : Word32) (i : Nat) :
    (bitsOf (m &&& s.k0).toNat (4 * (i / 4)) 4 != 0) = (List.range s.g.nev).any fun k => k / 4 == i / 4 && decide (k < 32) && m.getLsbD k := by
  rw [Bool.eq_iff_iff, bne_iff_ne, bitsOf_ne_zero_iff]
  have hbit (k : Nat) : (m &&& s.k0).toNat.testBit k = (m.getLsbD k && decide (k < s.g.nev)) := laneBit_and_k0 s m k
  simp only [hbit, Bool.and_eq_true, decide_eq_true_eq, List.any_eq_true, List.mem_range, beq_iff_eq]
  constructor
  · rintro ⟨k, hk, hm, hn⟩
    exact ⟨_, hn, ⟨by omega, BitVec.lt_of_getLsbD hm⟩, hm⟩
  · rintro ⟨k, hn, ⟨hq, -⟩, hm⟩
    refine ⟨k % 4, Nat.mod_lt _ (by decide), ?_⟩
    rw [show 4 * (i / 4) + k % 4 = k by omega]
    exact ⟨hm, hn⟩

/-- A lane past the events whose quad holds an event is a helper lane (R123). -/
theorem helper_of_quad {s : State} {m : Word32} {i : Nat}
    (h : ((List.range s.g.nev).any fun k => k / 4 == i / 4 && decide (k < 32) && m.getLsbD k) = true) : i < 4 * ((s.g.nev + 3) / 4) := by
  simp only [List.any_eq_true, List.mem_range, Bool.and_eq_true, beq_iff_eq] at h
  obtain ⟨k, hk, ⟨hq, -⟩, -⟩ := h
  omega

/-- The model's acting lanes are those of the rule. -/
theorem acts_eq_laneActs (s : State) (h : LaneHdr) {i : Nat} (hi : i < 32) : s.acts h i = laneActs s h i := by
  have hguard : (h.guard.toNat == 15) = (h.guard == 15) := by
    rw [Bool.eq_iff_iff, beq_iff_eq, beq_iff_eq]
    exact ⟨fun e => BitVec.eq_of_toNat_eq e, fun e => e ▸ rfl⟩
  have hlane : (s.isEvent i && laneBit (s.g.ictx.mask &&& s.k0) i ||
      s.isHelper i && h.h && bitsOf (s.g.ictx.mask &&& s.k0).toNat (4 * (i / 4)) 4 != 0) =
      if i < s.g.nev then s.g.ictx.mask.getLsbD i
      else h.h && (List.range s.g.nev).any fun k => k / 4 == i / 4 && decide (k < 32) && s.g.ictx.mask.getLsbD k := by
    rw [laneBit_and_k0, quad_has_event]
    by_cases hn : i < s.g.nev
    · simp only [State.isEvent, State.isHelper, decide_eq_true hn, decide_eq_false (Nat.not_le.mpr hn), if_pos hn, Bool.true_and,
        Bool.and_true, Bool.false_and, Bool.or_false, laneBit]
    · rw [if_neg hn, State.isEvent, State.isHelper, decide_eq_false hn, Bool.false_and, Bool.false_or, decide_eq_true (Nat.not_lt.mp hn),
        Bool.true_and]
      cases hq : (List.range s.g.nev).any fun k => k / 4 == i / 4 && decide (k < 32) && s.g.ictx.mask.getLsbD k
      · simp
      · rw [decide_eq_true (helper_of_quad hq), Bool.true_and]
  rw [State.acts, laneActs, hlane, hguard, decide_eq_true hi, Bool.true_and]
  rfl

theorem laneBit_active (s : State) (h : LaneHdr) {i : Nat} (hi : i < 32) : laneBit (s.active h) i = laneActs s h i := by
  rw [State.active, laneBit_mkMask _ hi, acts_eq_laneActs s h hi]

theorem activeList_eq_actors (s : State) (h : LaneHdr) : s.activeList h = actors s h := by
  rw [State.activeList, actors, upTo_eq_range]
  exact List.filter_congr fun i hi => acts_eq_laneActs s h (List.mem_range.mp hi)

theorem mem_actors {s : State} {h : LaneHdr} {i : Nat} : i ∈ actors s h ↔ i < 32 ∧ laneActs s h i = true := by
  rw [actors, List.mem_filter, List.mem_range]

theorem nodup_actors (s : State) (h : LaneHdr) : (actors s h).Nodup := List.nodup_range.filter _

/-! ### Writes of free registers and predicates (R45, R102, R112) -/

/-- No queued engine operation reads a free register: a write spoils none. -/
theorem spoilV_free {s : State} {r : Nat} (h : laneFree s r) : s.spoilV r = s := by
  have hany : s.c.eng.any (s.readsV r) = false := by
    rw [List.any_eq_false]
    intro e he hr
    simp only [State.readsV, Bool.and_eq_true, beq_iff_eq, List.any_eq_true, decide_eq_true_eq] at hr
    obtain ⟨⟨hb, hg⟩, x, hx, hlo, hhi⟩ := hr
    have hout : r < x.first ∨ x.first + x.count ≤ r := h.2 e he hb hg x hx
    omega
  rw [State.spoilV, hany]
  rfl

/-- A write of a free lane register changes its lanes of the mask and opens the window of the lookahead. -/
theorem setV_free {s : State} {r : Nat} (h : laneFree s r) (hr : r < 256) (la : BitVec 4) (m : Word32) (f : Nat → Word32) :
    s.setV la r m f = { s with g := { s.g with v := withLanes s.g.v r (laneBit m) f, winV := laneWindow s.g.v r la ++ s.g.winV } } := by
  have hclosed : s.openV r = false := h.1
  have hspoil : (if m = 0 then s else s.spoilV r) = s := by rw [spoilV_free h, ite_self]
  have hold : (s.g.v[r]?).getD (Vector.replicate 32 0) = s.g.v[r] := by rw [Vector.getElem?_eq_getElem hr, Option.getD_some]
  have hrow : (mkLanes fun i => if laneBit m i then f i else laneOf s.g.v[r] i) =
      Vector.ofFn fun i => if laneBit m i.val then f i.val else s.g.v[r][i] := by
    rw [mkLanes_eq_ofFn]
    congr 1
    funext i
    rw [laneOf, dif_pos i.isLt]
    rfl
  have hwin : (if la = 0 then s.g.winV else ⟨BitVec.ofNat 8 r, s.g.v[r], la.toNat + 1, none⟩ :: s.g.winV) =
      laneWindow s.g.v r la ++ s.g.winV := by
    rw [laneWindow, hold]
    split <;> rfl
  rw [State.setV, dif_pos hr, hspoil]
  simp only [hclosed, Bool.false_and, Bool.false_eq_true, if_false]
  rw [hwin, hrow, withLanes, hold, setIfInBounds_of_lt _ _ hr]

/-- Writes that agree in the register's lanes are the same. -/
theorem withLanes_congr {v : Vector (Vector Word32 32) 256} {r : Nat} {act act' : Nat → Bool} {f f' : Nat → Word32}
    (ha : ∀ i, i < 32 → act i = act' i) (hf : ∀ i, i < 32 → act' i = true → f i = f' i) :
    withLanes v r act f = withLanes v r act' f' := by
  unfold withLanes
  congr 2
  funext i
  rw [ha i.val i.isLt]
  split
  · next hact => exact hf i.val i.isLt hact
  · rfl

/-- A group with some lanes of a predicate rewritten, and the window of the lookahead. -/
def predWrite (g : Group) (la : BitVec 4) (r : PReg) (act f : Nat → Bool) : Group :=
  let old := g.p.toList.getD r.toNat 0
  { g with p := g.p.setIfInBounds r.toNat (mask32 fun i => if act i then f i else old.getLsbD i),
           winP := if la = 0 then g.winP else ⟨r, old, la.toNat + 1⟩ :: g.winP }

theorem predResult_eq_predWrite (s : State) (h : LaneHdr) (g : Group) (r : PReg) (f : Nat → Bool) :
    predResult s h g r f = predWrite g h.la r (laneActs s h) f := rfl

/-- A write of a predicate without an open window changes its lanes of the mask and opens the window of the lookahead. -/
theorem setP_free {s : State} {r : PReg} (hr : r.toNat < 12) (h : ∀ w ∈ s.g.winP, w.reg ≠ r) (la : BitVec 4) {m bits : Word32}
    {act f : Nat → Bool} (hm : ∀ i, i < 32 → laneBit m i = act i) (hb : ∀ i, i < 32 → laneBit bits i = f i) :
    s.setP la r m bits = { s with g := predWrite s.g la r act f } := by
  have hany : s.g.winP.any (fun w => w.reg == r) = false := by simpa using h
  have hold : s.g.p.toList.getD r.toNat 0 = s.g.p[r.toNat] := by simp [List.getD, hr]
  have hall : m &&& ~~~(0 : Word32) = m := BitVec.and_allOnes
  have hbits : (s.g.p[r.toNat] &&& ~~~m ||| bits &&& m) = mkMask fun i => if act i then f i else s.g.p[r.toNat].getLsbD i :=
    eq_mkMask fun i hi => by
      have hmi : m.getLsbD i = act i := hm i hi
      have hbi : bits.getLsbD i = f i := hb i hi
      rw [laneBit, BitVec.getLsbD_or, BitVec.getLsbD_and, BitVec.getLsbD_and, BitVec.getLsbD_not, hmi, hbi, decide_eq_true hi]
      cases act i <;> simp
  rw [State.setP, dif_pos hr, hany, predWrite, setIfInBounds_of_lt _ _ hr, hold, mask32_eq_mkMask, ← hbits]
  simp only [Bool.false_eq_true, if_false, hall]

/-- A well-formed instruction writes none but the twelve predicates (R42). -/
theorem pWrites_lt_of_wfCore {i : Instr} (h : i.wfCore = true) {r : PReg} (hr : r ∈ i.pWrites) : r.toNat < 12 := by
  unfold Instr.wfCore at h
  simp only [Bool.and_eq_true, List.all_eq_true] at h
  obtain ⟨⟨_, hw⟩, _⟩ := h
  exact Nat.lt_succ_of_le (of_decide_eq_true (hw r hr))

/-- The model's end of a lane word is the claims'. -/
theorem laneDone_eq (s : State) : s.laneDone = lanePassed s s.g := by
  simp only [State.laneDone, lanePassed, queueAfter, Option.isNone_iff_eq_none]

/-- Lane results that agree in the acting lanes are the same. -/
theorem laneResult_congr {s : State} {h : LaneHdr} (w64 : Bool) (d : VReg) {f f' : Nat → Word64 × Word32} (hf : ∀ i ∈ actors s h, f i = f' i) :
    laneResult s h w64 d f = laneResult s h w64 d f' := by
  have hrow (v : Vector (Vector Word32 32) 256) (r : Nat) (half : Word64 → Word32) :
      withLanes v r (laneActs s h) (fun i => half (f i).1) = withLanes v r (laneActs s h) fun i => half (f' i).1 :=
    withLanes_congr (fun _ _ => rfl) fun i hi hact => by rw [hf i (mem_actors.mpr ⟨hi, hact⟩)]
  have hfl : (actors s h).foldl (fun x i => x ||| (f i).2) 0 = (actors s h).foldl (fun x i => x ||| (f' i).2) 0 := by
    have hmap : (actors s h).map (fun i => (f i).2) = (actors s h).map fun i => (f' i).2 :=
      List.map_congr_left fun i hi => by rw [hf i hi]
    rw [← List.foldl_map (g := fun x y => x ||| y), hmap, List.foldl_map]
  simp only [laneResult, hfl, hrow _ _ (BitVec.setWidth 32), hrow _ _ (BitVec.extractLsb' 32 32)]

/-! ### Flags (R68) -/

theorem laneFree_orFlags {s : State} {r : Nat} (h : laneFree s r) (fl : Word32) : laneFree (s.orFlags fl) r := h

theorem pickMask_orFlags (s : State) (fl now : Word32) : ∀ (l : List Word32) (key : Nat),
    (s.orFlags fl).pickMask key now l = s.pickMask key now l
  | [], _ => rfl
  | x :: l, key => by
    rw [State.pickMask, State.pickMask, pickMask_orFlags s fl now l]
    rfl

theorem pmask_orFlags (s : State) (fl : Word32) (r : PReg) : (s.orFlags fl).pmask r = s.pmask r := by
  unfold State.pmask
  simp only [pickMask_orFlags]
  rfl

/-- Raised flags leave the acting lanes alone. -/
theorem laneActs_orFlags (s : State) (fl : Word32) (h : LaneHdr) (i : Nat) : laneActs (s.orFlags fl) h i = laneActs s h i := by
  unfold laneActs
  rw [pmask_orFlags]
  rfl

/-- A 32-bit result in every acting lane, with the flags that its word raises. -/
theorem finV0_orFlags {s : State} {h : LaneHdr} {d : VReg} (hd : destFree s false d) (fl : Word32) (f : Nat → Nat) :
    finV0 (s.orFlags fl) h false d f = .next (lanePassed s { laneResult s h false d fun i => (BitVec.ofNat 64 (f i), 0) with
      fpflags := s.g.fpflags ||| (fl &&& 0x7F) }) := by
  have hv : withLanes s.g.v d.toNat (laneBit ((s.orFlags fl).active h)) (fun i => BitVec.ofNat 32 (f i)) =
      withLanes s.g.v d.toNat (laneActs s h) fun i => (BitVec.ofNat 64 (f i)).setWidth 32 :=
    withLanes_congr (fun i hi => (laneBit_active _ h hi).trans (laneActs_orFlags s fl h i)) fun i _ _ =>
      (BitVec.setWidth_ofNat_of_le (by decide) _).symm
  rw [finV0, State.setVal, if_neg Bool.false_ne_true, setV_free (laneFree_orFlags hd.1 fl) d.isLt, laneDone_eq]
  simp only [State.orFlags_g_v, hv]
  rfl

end Sys2Proof.LaneResults
end

section
/-! PROOFS. Scans and segmented reductions (O37): the running scan of R129 finds in each lane what its segment gives. -/

namespace Sys2Proof.LaneScanWords
open Machine Claims LaneResults

/-! ### Segments (R129) -/

/-- The segment so far, behind one more lane. -/
def grow (head : Nat → Bool) (seg : List Nat) (i : Nat) : List Nat := if head i then [i] else seg ++ [i]

/-- A lane's segment up to the lane. -/
def segmentAt (head : Nat → Bool) (lanes : List Nat) (i : Nat) : List Nat := lastSegment head (lanes.takeWhile (· ≠ i) ++ [i])

theorem lastSegment_snoc (head : Nat → Bool) (l : List Nat) (i : Nat) : lastSegment head (l ++ [i]) = grow head (lastSegment head l) i := by
  rw [lastSegment, List.foldl_append]
  rfl

theorem segmentAt_split {head : Nat → Bool} {pre : List Nat} {i : Nat} (hi : i ∉ pre) (l : List Nat) :
    segmentAt head (pre ++ i :: l) i = grow head (lastSegment head pre) i := by
  have hpre : (pre ++ i :: l).takeWhile (· ≠ i) = pre := by
    rw [List.takeWhile_append_of_pos fun a ha => by simpa using fun e : a = i => hi (e ▸ ha)]
    simp
  rw [segmentAt, hpre, lastSegment_snoc]

theorem runOver_snoc (t : ScanTy) (op : ScanOp) (x : Nat → Word32) {seg : List Nat} (hs : seg ≠ []) (i : Nat) :
    runOver t op x (seg ++ [i]) = (BitVec.ofNat 32 (scanOp t op (runOver t op x seg).1 (x i)).code,
      (runOver t op x seg).2 ||| (scanOp t op (runOver t op x seg).1 (x i)).fl) := by
  cases seg with
  | nil => exact absurd rfl hs
  | cons k ks => simp only [List.cons_append, runOver, List.foldl_append, List.foldl_cons, List.foldl_nil]

/-! ### One lane of the running scan -/

section
variable (t : ScanTy) (op : ScanOp) (heads : Word32) (x : Nat → Word32)

/-- The scan's entry of a lane behind a running value, and the flags of its step. -/
def entryOf (prev : Option Word32) (i : Nat) : ScanAt × Word32 :=
  match (if laneBit heads i then none else prev) with
  | none => (⟨i, true, scanIdentity t op, x i⟩, 0)
  | some acc => (⟨i, false, acc, BitVec.ofNat 32 (scanOp t op acc (x i)).code⟩, (scanOp t op acc (x i)).fl)

/-- The running value of a segment; none before its first lane. -/
def running : List Nat → Option Word32
  | [] => none
  | i :: seg => some (runOver t op x (i :: seg)).1

theorem scanFrom_cons (prev : Option Word32) (i : Nat) (l : List Nat) :
    scanFrom t op heads x prev (i :: l) =
      ((entryOf t op heads x prev i).1 :: (scanFrom t op heads x (some (entryOf t op heads x prev i).1.acc) l).1,
        (entryOf t op heads x prev i).2 ||| (scanFrom t op heads x (some (entryOf t op heads x prev i).1.acc) l).2) := by
  rw [scanFrom, entryOf]
  cases (if laneBit heads i then none else prev) with
  | none => exact congrArg (Prod.mk _) BitVec.zero_or.symm
  | some acc => rfl

theorem entryOf_lane (prev : Option Word32) (i : Nat) : (entryOf t op heads x prev i).1.lane = i := by
  unfold entryOf
  split <;> rfl

theorem entryOf_head (acc : Word32) (i : Nat) : (entryOf t op heads x (some acc) i).1.head = laneBit heads i := by
  unfold entryOf
  cases laneBit heads i <;> rfl

theorem entryOf_at_head {i : Nat} (hi : laneBit heads i = true) (prev : Option Word32) :
    entryOf t op heads x prev i = (⟨i, true, scanIdentity t op, x i⟩, 0) := by
  rw [entryOf, if_pos hi]

theorem entryOf_behind {seg : List Nat} (hs : seg ≠ []) {i : Nat} (hi : laneBit heads i = false) :
    entryOf t op heads x (running t op x seg) i =
      (⟨i, false, (runOver t op x seg).1, (runOver t op x (seg ++ [i])).1⟩, (scanOp t op (runOver t op x seg).1 (x i)).fl) := by
  rw [runOver_snoc t op x hs]
  cases seg with
  | nil => exact absurd rfl hs
  | cons k ks =>
    rw [entryOf, if_neg (by simp [hi])]
    rfl

/-- A lane's entry holds its segment's running values, without the lane and with it; its flags are all that the lane adds to flags that
hold the segment's already. -/
theorem entryOf_running (seg : List Nat) (i : Nat) :
    (entryOf t op heads x (running t op x seg) i).1.out = (runOver t op x (grow (laneBit heads) seg i).dropLast).1 ∧
      (entryOf t op heads x (running t op x seg) i).1.acc = (runOver t op x (grow (laneBit heads) seg i)).1 ∧
      ∀ fl, fl ||| (runOver t op x seg).2 = fl →
        fl ||| (entryOf t op heads x (running t op x seg) i).2 = fl ||| (runOver t op x (grow (laneBit heads) seg i)).2 := by
  cases hi : laneBit heads i with
  | true =>
    rw [entryOf_at_head t op heads x hi, grow, if_pos hi]
    exact ⟨rfl, rfl, fun _ _ => rfl⟩
  | false =>
    rw [grow, if_neg (by simp [hi])]
    cases seg with
    | nil =>
      rw [running, entryOf, ite_self]
      exact ⟨rfl, rfl, fun _ _ => rfl⟩
    | cons k ks =>
      have hs : k :: ks ≠ [] := List.cons_ne_nil k ks
      rw [entryOf_behind t op heads x hs hi, List.dropLast_concat]
      refine ⟨rfl, rfl, fun fl hfl => ?_⟩
      rw [runOver_snoc t op x hs, ← BitVec.or_assoc, hfl]

theorem running_grow (seg : List Nat) (i : Nat) :
    some (entryOf t op heads x (running t op x seg) i).1.acc = running t op x (grow (laneBit heads) seg i) := by
  obtain ⟨-, hacc, -⟩ := entryOf_running t op heads x seg i
  rw [hacc]
  have hne : grow (laneBit heads) seg i ≠ [] := by
    unfold grow
    split <;> simp
  obtain ⟨k, ks, hg⟩ := List.exists_cons_of_ne_nil hne
  rw [hg]
  rfl

/-! ### The whole scan -/

/-- Each lane's entry holds the running values of its segment. -/
theorem scanIn_scanFrom {i : Nat} : ∀ (l : List Nat) {pre : List Nat}, i ∉ pre → i ∈ l →
    (scanIn (scanFrom t op heads x (running t op x (lastSegment (laneBit heads) pre)) l).1 i).out =
        (runOver t op x (segmentAt (laneBit heads) (pre ++ l) i).dropLast).1 ∧
      (scanIn (scanFrom t op heads x (running t op x (lastSegment (laneBit heads) pre)) l).1 i).acc =
        (runOver t op x (segmentAt (laneBit heads) (pre ++ l) i)).1
  | k :: l, pre, hpre, hmem => by
    rw [scanFrom_cons]
    by_cases hk : k = i
    · subst hk
      obtain ⟨hout, hacc, -⟩ := entryOf_running t op heads x (lastSegment (laneBit heads) pre) k
      rw [segmentAt_split hpre, ← hout, ← hacc, scanIn, List.find?_cons_of_pos (by simp [entryOf_lane])]
      exact ⟨rfl, rfl⟩
    · have hl : i ∈ l := (List.mem_cons.mp hmem).resolve_left fun e => hk e.symm
      have hpre' : i ∉ pre ++ [k] := by simp [hpre, Ne.symm hk]
      have hskip (es : List ScanAt) (p : Option Word32) : scanIn ((entryOf t op heads x p k).1 :: es) i = scanIn es i := by
        rw [scanIn, List.find?_cons_of_neg (by simp [entryOf_lane, hk]), scanIn]
      have ih := scanIn_scanFrom l hpre' hl
      rw [lastSegment_snoc, ← running_grow, List.append_assoc] at ih
      rw [hskip]
      exact ih

/-- The scan's flags are those of every lane's segment. -/
theorem flags_scanFrom : ∀ (l : List Nat) {pre : List Nat} {fl : Word32}, (pre ++ l).Nodup →
    fl ||| (runOver t op x (lastSegment (laneBit heads) pre)).2 = fl →
    fl ||| (scanFrom t op heads x (running t op x (lastSegment (laneBit heads) pre)) l).2 =
      l.foldl (fun fl i => fl ||| (runOver t op x (segmentAt (laneBit heads) (pre ++ l) i)).2) fl
  | [], _, _, _, _ => BitVec.or_zero
  | k :: l, pre, fl, hnd, hfl => by
    have hpre : k ∉ pre := fun hk => (List.nodup_append.mp hnd).2.2 k hk k (List.mem_cons_self ..) rfl
    obtain ⟨-, -, hstep⟩ := entryOf_running t op heads x (lastSegment (laneBit heads) pre) k
    have hsplit : pre ++ k :: l = pre ++ [k] ++ l := (List.append_cons ..)
    have hfl' : (fl ||| (runOver t op x (grow (laneBit heads) (lastSegment (laneBit heads) pre) k)).2) |||
        (runOver t op x (lastSegment (laneBit heads) (pre ++ [k]))).2 =
        fl ||| (runOver t op x (grow (laneBit heads) (lastSegment (laneBit heads) pre) k)).2 := by
      rw [lastSegment_snoc, BitVec.or_assoc, BitVec.or_self]
    have ih := flags_scanFrom l (hsplit ▸ hnd) hfl'
    rw [scanFrom_cons, running_grow, ← lastSegment_snoc, List.foldl_cons, segmentAt_split hpre, hsplit, ← ih, ← BitVec.or_assoc, hstep fl hfl]

theorem scanFrom_lanes : ∀ (l : List Nat) (prev : Option Word32), (scanFrom t op heads x prev l).1.map (·.lane) = l
  | [], _ => rfl
  | i :: l, prev => by rw [scanFrom_cons, List.map_cons, entryOf_lane, scanFrom_lanes l]

end

/-! ### Tail lanes (R131) -/

theorem tailsOf_subset : ∀ es : List ScanAt, tailsOf es ⊆ es.map (·.lane)
  | [] => List.Subset.refl _
  | [e] => List.Subset.refl _
  | e :: e' :: es => by
    intro i hi
    rw [tailsOf, List.mem_append] at hi
    rcases hi with hi | hi
    · split at hi
      · rw [List.mem_singleton.mp hi]
        exact List.mem_cons_self ..
      · cases hi
    · exact List.mem_cons_of_mem _ (tailsOf_subset (e' :: es) hi)

theorem isTail_cons_self (head : Nat → Bool) (i k : Nat) (l : List Nat) : isTail head (i :: k :: l) i = head k := by
  simp [isTail]

theorem isTail_cons_ne (head : Nat → Bool) {i k : Nat} (hk : k ≠ i) (l : List Nat) : isTail head (k :: l) i = isTail head l i := by
  simp [isTail, hk, Ne.symm hk]

section
variable (t : ScanTy) (op : ScanOp) (heads : Word32) (x : Nat → Word32)

theorem tailsOf_scanFrom_cons (prev : Option Word32) (k k' : Nat) (l : List Nat) : tailsOf (scanFrom t op heads x prev (k :: k' :: l)).1 =
    (if laneBit heads k' then [k] else []) ++ tailsOf (scanFrom t op heads x (some (entryOf t op heads x prev k).1.acc) (k' :: l)).1 := by
  rw [scanFrom_cons, scanFrom_cons t op heads x _ k', tailsOf, entryOf_head, entryOf_lane]

/-- The scan's tail lanes are the last lanes of their segments. -/
theorem tails_scanFrom (i : Nat) : ∀ (l : List Nat) (prev : Option Word32), l.Nodup →
    (tailsOf (scanFrom t op heads x prev l).1).contains i = isTail (laneBit heads) l i
  | [], _, _ => rfl
  | [k], prev, _ => by
    rw [scanFrom_cons, scanFrom, tailsOf, entryOf_lane]
    by_cases hk : k = i
    · simp [isTail, hk]
    · simp [isTail, hk, Ne.symm hk]
  | k :: k' :: l, prev, hnd => by
    obtain ⟨hfresh, hnd'⟩ := List.nodup_cons.mp hnd
    rw [tailsOf_scanFrom_cons]
    by_cases hk : k = i
    · subst hk
      have hout : k ∉ tailsOf (scanFrom t op heads x (some (entryOf t op heads x prev k).1.acc) (k' :: l)).1 := fun hin =>
        hfresh (scanFrom_lanes t op heads x (k' :: l) _ ▸ tailsOf_subset _ hin)
      rw [isTail_cons_self]
      cases laneBit heads k' <;> simp [hout]
    · rw [isTail_cons_ne _ hk, ← tails_scanFrom i (k' :: l) (some (entryOf t op heads x prev k).1.acc) hnd']
      cases laneBit heads k' <;> simp [Ne.symm hk]

end

/-! ### The scan of the acting lanes against its rule -/

section
variable (s : State) (h : LaneHdr) (t : ScanTy) (op : ScanOp) (a : VReg) (heads : Word32)

/-- What a scan word finds in the acting lanes of its source, and the flags it raises. -/
def scanOf : List ScanAt × Word32 := scanFrom t op heads (s.vlane a.toNat) none (actors s h)

theorem scanOf_eq : scanFrom t op heads (s.lane32 a) none (s.activeList h) = scanOf s h t op a heads := by
  rw [activeList_eq_actors]
  rfl

theorem scanOf_value (excl : Bool) {i : Nat} (hi : i ∈ actors s h) :
    (if excl then (scanIn (scanOf s h t op a heads).1 i).out else (scanIn (scanOf s h t op a heads).1 i).acc) =
      scanValue t op excl (laneBit heads) (s.vlane a.toNat) (actors s h) i := by
  obtain ⟨hout, hacc⟩ := scanIn_scanFrom t op heads (s.vlane a.toNat) (actors s h) (pre := []) List.not_mem_nil hi
  cases excl with
  | true => exact hout
  | false => exact hacc

theorem scanOf_flags : (scanOf s h t op a heads).2 = scanFlags t op (laneBit heads) (s.vlane a.toNat) (actors s h) :=
  BitVec.zero_or.symm.trans (flags_scanFrom t op heads (s.vlane a.toNat) (actors s h) (pre := []) (nodup_actors s h) BitVec.or_zero)

/-- The lanes that the scan marks as tails. -/
def tailMask : Word32 := mkMask fun i => (tailsOf (scanOf s h t op a heads).1).contains i

theorem laneBit_tailMask {i : Nat} (hi : i < 32) : laneBit (tailMask s h t op a heads) i = isTail (laneBit heads) (actors s h) i := by
  rw [tailMask, laneBit_mkMask _ hi, scanOf, tails_scanFrom t op heads _ i _ _ (nodup_actors s h)]

end

/-- `scan` and `sscan` give every acting lane its segment's value. -/
theorem scanWord_eq {s : State} {h : LaneHdr} {d : VReg} (hd : destFree s false d) (t : ScanTy) (op : ScanOp) (excl : Bool) (a : VReg)
    (heads : Word32) : scanWord s h t op excl d a heads = .next (lanePassed s { laneResult s h false d (fun k =>
      ((scanValue t op excl (laneBit heads) (s.vlane a.toNat) (actors s h) k).setWidth 64, 0)) with
      fpflags := s.g.fpflags ||| (scanFlags t op (laneBit heads) (s.vlane a.toNat) (actors s h) &&& 0x7F) }) := by
  have hval : ∀ i ∈ actors s h, (BitVec.ofNat 64 (if excl then (scanIn (scanOf s h t op a heads).1 i).out
      else (scanIn (scanOf s h t op a heads).1 i).acc).toNat, (0 : Word32)) =
      ((scanValue t op excl (laneBit heads) (s.vlane a.toNat) (actors s h) i).setWidth 64, 0) := fun i hi => by
    rw [scanOf_value s h t op a heads excl hi, BitVec.ofNat_toNat]
  rw [scanWord, scanOf_eq, ← laneResult_congr false d hval, ← scanOf_flags]
  exact finV0_orFlags hd _ _

/-- The acting group after `sred`: the tail lanes hold their segments' values and are marked, and the word's flags are raised (R131). -/
def sredResult (s : State) (h : LaneHdr) (t : ScanTy) (op : ScanOp) (d a : VReg) (b c : PReg) : Group :=
  let head := laneBit (s.pmask c)
  let tail := isTail head (actors s h)
  predWrite { s.g with
    v := withLanes s.g.v d.toNat (fun k => laneActs s h k && tail k) (scanValue t op false head (s.vlane a.toNat) (actors s h)),
    winV := laneWindow s.g.v d.toNat h.la ++ s.g.winV,
    fpflags := s.g.fpflags ||| (scanFlags t op head (s.vlane a.toNat) (actors s h) &&& 0x7F) } h.la b (laneActs s h) tail

/-- The tail lanes of the destination receive their segments' values. -/
theorem withLanes_tails (s : State) (h : LaneHdr) (t : ScanTy) (op : ScanOp) (d a : VReg) (heads : Word32) :
    withLanes s.g.v d.toNat (laneBit (s.active h &&& tailMask s h t op a heads)) (fun i => (scanIn (scanOf s h t op a heads).1 i).acc) =
      withLanes s.g.v d.toNat (fun k => laneActs s h k && isTail (laneBit heads) (actors s h) k)
        (scanValue t op false (laneBit heads) (s.vlane a.toNat) (actors s h)) := by
  refine withLanes_congr (fun k hk => ?_) fun k hk hact => ?_
  · rw [← laneBit_tailMask s h t op a heads hk, ← laneBit_active s h hk]
    exact BitVec.getLsbD_and
  · obtain ⟨hacts, -⟩ := Bool.and_eq_true_iff.mp hact
    exact scanOf_value s h t op a heads false (mem_actors.mpr ⟨hk, hacts⟩)

theorem execSred_eq {s : State} {h : LaneHdr} {t : ScanTy} {op : ScanOp} {d a : VReg} {b c : PReg} (hd : destFree s false d)
    (hlt : b.toNat < 12) (hb : ∀ w ∈ s.g.winP, w.reg ≠ b) :
    execSred h t op d a b c s = .next (lanePassed s (sredResult s h t op d a b c)) := by
  have hexec : execSred h t op d a b c s =
      .next ((((s.orFlags (scanOf s h t op a (s.pmask c)).2).setV h.la d.toNat (s.active h &&& tailMask s h t op a (s.pmask c)) fun i =>
        (scanIn (scanOf s h t op a (s.pmask c)).1 i).acc).setP h.la b (s.active h) (tailMask s h t op a (s.pmask c))).laneDone) := by
    rw [execSred, scanOf_eq]
    rfl
  rw [hexec, setV_free (laneFree_orFlags hd.1 _) d.isLt, State.orFlags_g_v, withLanes_tails, scanOf_flags,
    setP_free hlt ?closed h.la (fun i hi => laneBit_active s h hi) fun i hi => laneBit_tailMask s h t op a (s.pmask c) hi, laneDone_eq]
  case closed => exact hb
  rfl

/-- Settles O37: `scan` and `sscan` by `scanWord_eq`, `sred` by `execSred_eq`. -/
theorem laneScans : Obligations.LaneScans := by
  refine ⟨fun s i h t op excl d a head hi hd => ?_, fun s h t op d a b c hw hd hb => ?_⟩
  · unfold scanForm at hi
    split at hi
    · cases hi
      have hnone : (fun _ => false) = laneBit 0 := funext fun i => BitVec.getLsbD_zero.symm
      rw [hnone]
      exact scanWord_eq hd _ _ _ _ 0
    · cases hi
      exact scanWord_eq hd _ _ _ _ (s.pmask _)
    · cases hi
  · exact ⟨_, execSred_eq hd (pWrites_lt_of_wfCore hw (List.mem_singleton.mpr rfl)) hb, rfl, rfl, rfl, rfl, rfl, rfl, rfl, rfl⟩

end Sys2Proof.LaneScanWords
end
